-- ==== Sys2Proof/Word.lean ====
section
/-!
DEFINITION. The word types of the Ianum 9100 and their plainest arithmetic (spec/00 R4).
-/
namespace Sys2Proof

/-- One byte. -/
abbrev Byte := BitVec 8
/-- One instruction word (spec/05 R76). -/
abbrev IWord := BitVec 32
/-- One 64-bit register or address. -/
abbrev Word := BitVec 64
/-- One vector register at its largest, L = 32: 128 x 32 bytes (spec/02 R21). A hart of L lanes uses the low 1,024 x L bits. -/
abbrev VReg := BitVec 32768
/-- One scale sidecar at its largest: 32 x 32 bytes (spec/02 R21). -/
abbrev Sidecar := BitVec 8192
/-- The number of an x, f or v register. -/
abbrev RegIx := Fin 32

end Sys2Proof
end

