-- ==== Sys2Proof/SyntaxBase.lean ====
section
/-!
DEFINITION. The operand kinds of the instructions: format names, conditions, modes, scopes, and the RISC-V
base instructions that the profile of spec/00 Table 0-1 admits.
-/
namespace Sys2Proof

/-- The format codes of spec/03 Table 3-11; reserved codes have no constructor. -/
inductive Fmt where
  | i8 | i16 | i32 | i64 | i4
  | fp64 | fp32 | fp16 | bf16 | e4m3 | e5m2 | e2m3 | e3m2 | e2m1
  | pe3 | pe5 | pe8 | scw | raw
deriving DecidableEq, Repr

/-- VCMP conditions, D[11:10] (spec/05 Table 5-3). -/
inductive CmpCond where | eq | ne | lt | le
deriving DecidableEq, Repr

/-- VFCMP conditions, D[11:10] (spec/05 Table 5-4). -/
inductive FCmpCond where | eq | lt | le | un
deriving DecidableEq, Repr

/-- VREDI operations, S1 (spec/05 Table 5-3). -/
inductive RedOp where | sum | min | max | minu | maxu | and | or | xor
deriving DecidableEq, Repr

/-- VREDF operations, S1 (spec/05 Table 5-4). -/
inductive FRedOp where | sum | max | min | amax
deriving DecidableEq, Repr

/-- VFSGN modes, S1 (spec/17 R365). -/
inductive SgnMode where | copy | neg | xor | abs
deriving DecidableEq, Repr

/-- Rounding codes 000 to 110 (spec/04 R66). -/
inductive RndCode where | rne | rtz | rdn | rup | rmm | sr | dyn
deriving DecidableEq, Repr

/-- PLOG operations, F3 (spec/16 Table 16-4). -/
inductive PLogOp where | and | or | xor | andn | orn | nand | nor | xnor
deriving DecidableEq, Repr

/-- PSET forms, F3 (spec/16 Table 16-4). -/
inductive PSetOp where | all | none | firstN | bits
deriving DecidableEq, Repr

/-- VWCVT target widths, S1[1:0] (spec/17 R354). -/
inductive CvtWidth where | w8 | w16 | w32 | w64
deriving DecidableEq, Repr

/-- VAMO operations, F3 (spec/17 R376). -/
inductive VAmoOp where | add | fadd | min | max | minu | maxu | fmax | swap
deriving DecidableEq, Repr

/-- VRED operations, F3 (spec/17 R377). -/
inductive VRedOp where | add | fadd | min | max | minu | maxu | fmax | or
deriving DecidableEq, Repr

/-- Scope codes 0 to 6 (spec/05 Table 5-8). -/
inductive Scope where | hart | core | gang | die | pkg | sys | bank
deriving DecidableEq, Repr

/-- FENCEX kinds (spec/05 Table 5-8). -/
inductive FenceKind where | full | acq | rel | eng
deriving DecidableEq, Repr

/-- ACQ modes 0 to 2 (spec/05 Table 5-8). -/
inductive AcqMode where | excl | shared | try
deriving DecidableEq, Repr

/-- Scalar loads, the floating-point ones included. -/
inductive LoadKind where | lb | lh | lw | ld | lbu | lhu | lwu | flw | fld
deriving DecidableEq, Repr

/-- Scalar stores, the floating-point ones included. -/
inductive StoreKind where | sb | sh | sw | sd | fsw | fsd
deriving DecidableEq, Repr

/-- Scalar AMO operations of the A extension. -/
inductive AmoOp where | swap | add | xor | and | or | min | max | minu | maxu
deriving DecidableEq, Repr

/-- CSR operations. -/
inductive CsrOp where | rw | rs | rc
deriving DecidableEq, Repr

/-- Conditional branches. -/
inductive BrOp where | beq | bne | blt | bge | bltu | bgeu
deriving DecidableEq, Repr

/-- OP-IMM operations without a shift amount. -/
inductive ImmOp where | addi | slti | sltiu | xori | ori | andi
deriving DecidableEq, Repr

/-- Shifts by an immediate of 6 bits (Zbb's RORI and Zba's SLLI.UW included). -/
inductive ShImmOp where | slli | srli | srai | rori | slliUw
deriving DecidableEq, Repr

/-- Word shifts by an immediate of 5 bits. -/
inductive ShImmWOp where | slliw | srliw | sraiw | roriw
deriving DecidableEq, Repr

/-- Register-register operations of RV64I, M, Zba and Zbb. -/
inductive RegOp where
  | add | sub | sll | slt | sltu | xor | srl | sra | or | and
  | mul | mulh | mulhsu | mulhu | div | divu | rem | remu
  | sh1add | sh2add | sh3add
  | andn | orn | xnor | max | maxu | min | minu | rol | ror
deriving DecidableEq, Repr

/-- Word register-register operations. -/
inductive RegWOp where
  | addw | subw | sllw | srlw | sraw | mulw | divw | divuw | remw | remuw
  | addUw | sh1addUw | sh2addUw | sh3addUw | rolw | rorw
deriving DecidableEq, Repr

/-- One-operand operations of Zbb. -/
inductive UnOp where
  | clz | ctz | cpop | clzw | ctzw | cpopw | sextB | sextH | zextH | orcB | rev8
deriving DecidableEq, Repr

/-- The static rounding field of F and D: 000 to 100 and 111 are valid; 101 and 110 are reserved. -/
abbrev FRm := BitVec 3

/-- Single or double precision. -/
inductive FPrec where | s | d
deriving DecidableEq, Repr

/-- Fused multiply-add family. -/
inductive FmaOp where | madd | msub | nmsub | nmadd
deriving DecidableEq, Repr

/-- Two-operand arithmetic of F and D that rounds. -/
inductive FArithOp where | add | sub | mul | div
deriving DecidableEq, Repr

/-- Sign injection, minimum and maximum. -/
inductive FMiscOp where | sgnj | sgnjn | sgnjx | min | max
deriving DecidableEq, Repr

/-- Comparisons of F and D. -/
inductive FCmpOp where | eq | lt | le
deriving DecidableEq, Repr

/-- Integer types of FCVT. -/
inductive FIntTy where | w | wu | l | lu
deriving DecidableEq, Repr

/-- The base-ISA instructions of the row BASE_ISA_INSTRUCTION (spec/05 R77, spec/00 Table 0-1). -/
inductive BaseInstr where
  | lui (rd : RegIx) (imm : BitVec 20)
  | auipc (rd : RegIx) (imm : BitVec 20)
  | jal (rd : RegIx) (imm : BitVec 20)
  | jalr (rd rs1 : RegIx) (imm : BitVec 12)
  | branch (op : BrOp) (rs1 rs2 : RegIx) (imm : BitVec 12)
  | opImm (op : ImmOp) (rd rs1 : RegIx) (imm : BitVec 12)
  | shImm (op : ShImmOp) (rd rs1 : RegIx) (sh : BitVec 6)
  | addiw (rd rs1 : RegIx) (imm : BitVec 12)
  | shImmW (op : ShImmWOp) (rd rs1 : RegIx) (sh : BitVec 5)
  | op (op : RegOp) (rd rs1 rs2 : RegIx)
  | opW (op : RegWOp) (rd rs1 rs2 : RegIx)
  | unary (op : UnOp) (rd rs1 : RegIx)
  | fma (op : FmaOp) (p : FPrec) (rd rs1 rs2 rs3 : RegIx) (rm : FRm)
  | farith (op : FArithOp) (p : FPrec) (rd rs1 rs2 : RegIx) (rm : FRm)
  | fsqrt (p : FPrec) (rd rs1 : RegIx) (rm : FRm)
  | fmisc (op : FMiscOp) (p : FPrec) (rd rs1 rs2 : RegIx)
  | fcmp (op : FCmpOp) (p : FPrec) (rd rs1 rs2 : RegIx)
  | fclass (p : FPrec) (rd rs1 : RegIx)
  | fcvtToInt (t : FIntTy) (p : FPrec) (rd rs1 : RegIx) (rm : FRm)
  | fcvtFromInt (t : FIntTy) (p : FPrec) (rd rs1 : RegIx) (rm : FRm)
  | fcvtFF (toP : FPrec) (rd rs1 : RegIx) (rm : FRm)
  | fmvToX (p : FPrec) (rd rs1 : RegIx)
  | fmvFromX (p : FPrec) (rd rs1 : RegIx)
  | ebreak
  | mret
  | sret
  | wfi
deriving DecidableEq, Repr

/-- What an abstract debug command reaches (spec/13 R259). -/
inductive DbgReg where
  | x (n : RegIx) | f (n : RegIx) | csr (n : BitVec 12)
deriving DecidableEq, Repr

/-- A structure of a die with an error counter, by its number (spec/13 R261). -/
structure DiePart where
  die : Fin 4
  part : Nat
deriving DecidableEq, Repr

/-- Where an uncorrectable error strikes (spec/13 R261). -/
inductive ErrLoc where
  | phys (pa : Nat)                    -- an 8-byte word of HBM or host memory
  | tile (core : Nat) (off : Nat)      -- an 8-byte word of tile memory
  | sdm (core : Nat) (off : Nat)       -- an 8-byte word of SDM
  | coreState (core : Nat)             -- core-local state that belongs to no instruction
  | piece (bank : Nat) (elem : Nat)    -- the piece at the head of a bank queue, at one of its elements (R221)
  | pkl (unit : Nat)                   -- the batch in progress of a PKL unit (R232)
  | readout (core slot node : Nat)     -- a latch of a FAULTED slot that fails SEC-DED (R252)
deriving DecidableEq, Repr

end Sys2Proof
end

