-- ==== Sys2Proof/Syntax.lean ====
section
/-!
DEFINITION. The instructions and events of the Ianum 9100: one constructor per row of spec/opcode_table.json, in the
table's order but that the rows without operands stand last. Field letters are the table's: `g` predicate PG, `b` field S2, `a` field S1, `d` field D. A row without a
word of its own (an event of another agent, or of the platform) carries what identifies the agent and its input.
-/
namespace Sys2Proof

/-- One constructor per row of spec/opcode_table.json (289). -/
inductive Instr where
  /-- VADD_VV (R351). -/
  | vaddVv (g : Fin 4) (b : RegIx) (a : RegIx) (d : RegIx)
  /-- VADD_VX (R351). -/
  | vaddVx (g : Fin 4) (b : RegIx) (a : RegIx) (d : RegIx)
  /-- VADD_VI (R351). -/
  | vaddVi (g : Fin 4) (b : RegIx) (a : BitVec 5) (d : RegIx)
  /-- VSUB_VV (R351). -/
  | vsubVv (g : Fin 4) (b : RegIx) (a : RegIx) (d : RegIx)
  /-- VSUB_VX (R351). -/
  | vsubVx (g : Fin 4) (b : RegIx) (a : RegIx) (d : RegIx)
  /-- VSUB_VI (R351). -/
  | vsubVi (g : Fin 4) (b : RegIx) (a : BitVec 5) (d : RegIx)
  /-- VMUL_VV (R351). -/
  | vmulVv (g : Fin 4) (b : RegIx) (a : RegIx) (d : RegIx)
  /-- VMUL_VX (R351). -/
  | vmulVx (g : Fin 4) (b : RegIx) (a : RegIx) (d : RegIx)
  /-- VMUL_VI (R351). -/
  | vmulVi (g : Fin 4) (b : RegIx) (a : BitVec 5) (d : RegIx)
  /-- VMULH_VV (R351). -/
  | vmulhVv (g : Fin 4) (b : RegIx) (a : RegIx) (u : Bool) (d : RegIx)
  /-- VMULH_VX (R351). -/
  | vmulhVx (g : Fin 4) (b : RegIx) (a : RegIx) (u : Bool) (d : RegIx)
  /-- VMACC_VV (R351). -/
  | vmaccVv (g : Fin 4) (b : RegIx) (a : RegIx) (d : RegIx)
  /-- VMACC_VX (R351). -/
  | vmaccVx (g : Fin 4) (b : RegIx) (a : RegIx) (d : RegIx)
  /-- VMACC_VI (R351). -/
  | vmaccVi (g : Fin 4) (b : RegIx) (a : BitVec 5) (d : RegIx)
  /-- VMIN_VV (R351). -/
  | vminVv (g : Fin 4) (b : RegIx) (a : RegIx) (u : Bool) (d : RegIx)
  /-- VMIN_VX (R351). -/
  | vminVx (g : Fin 4) (b : RegIx) (a : RegIx) (u : Bool) (d : RegIx)
  /-- VMIN_VI (R351). -/
  | vminVi (g : Fin 4) (b : RegIx) (a : BitVec 5) (u : Bool) (d : RegIx)
  /-- VMAX_VV (R351). -/
  | vmaxVv (g : Fin 4) (b : RegIx) (a : RegIx) (u : Bool) (d : RegIx)
  /-- VMAX_VX (R351). -/
  | vmaxVx (g : Fin 4) (b : RegIx) (a : RegIx) (u : Bool) (d : RegIx)
  /-- VMAX_VI (R351). -/
  | vmaxVi (g : Fin 4) (b : RegIx) (a : BitVec 5) (u : Bool) (d : RegIx)
  /-- VAND_VV (R357). -/
  | vandVv (g : Fin 4) (b : RegIx) (a : RegIx) (d : RegIx)
  /-- VAND_VX (R357). -/
  | vandVx (g : Fin 4) (b : RegIx) (a : RegIx) (d : RegIx)
  /-- VAND_VI (R357). -/
  | vandVi (g : Fin 4) (b : RegIx) (a : BitVec 5) (d : RegIx)
  /-- VOR_VV (R357). -/
  | vorVv (g : Fin 4) (b : RegIx) (a : RegIx) (d : RegIx)
  /-- VOR_VX (R357). -/
  | vorVx (g : Fin 4) (b : RegIx) (a : RegIx) (d : RegIx)
  /-- VOR_VI (R357). -/
  | vorVi (g : Fin 4) (b : RegIx) (a : BitVec 5) (d : RegIx)
  /-- VXOR_VV (R357). -/
  | vxorVv (g : Fin 4) (b : RegIx) (a : RegIx) (d : RegIx)
  /-- VXOR_VX (R357). -/
  | vxorVx (g : Fin 4) (b : RegIx) (a : RegIx) (d : RegIx)
  /-- VXOR_VI (R357). -/
  | vxorVi (g : Fin 4) (b : RegIx) (a : BitVec 5) (d : RegIx)
  /-- VSHL_VV (R351). -/
  | vshlVv (g : Fin 4) (b : RegIx) (a : RegIx) (d : RegIx)
  /-- VSHL_VX (R351). -/
  | vshlVx (g : Fin 4) (b : RegIx) (a : RegIx) (d : RegIx)
  /-- VSHL_VI (R351). -/
  | vshlVi (g : Fin 4) (b : RegIx) (a : BitVec 5) (d : RegIx)
  /-- VSHR_VV (R351). -/
  | vshrVv (g : Fin 4) (b : RegIx) (a : RegIx) (u : Bool) (d : RegIx)
  /-- VSHR_VX (R351). -/
  | vshrVx (g : Fin 4) (b : RegIx) (a : RegIx) (u : Bool) (d : RegIx)
  /-- VSHR_VI (R351). -/
  | vshrVi (g : Fin 4) (b : RegIx) (a : BitVec 5) (u : Bool) (d : RegIx)
  /-- VCMP_VV (R352). -/
  | vcmpVv (g : Fin 4) (b : RegIx) (a : RegIx) (u : Bool) (c : CmpCond) (p : Fin 8)
  /-- VCMP_VX (R352). -/
  | vcmpVx (g : Fin 4) (b : RegIx) (a : RegIx) (u : Bool) (c : CmpCond) (p : Fin 8)
  /-- VCMP_VI (R352). -/
  | vcmpVi (g : Fin 4) (b : RegIx) (a : BitVec 5) (u : Bool) (c : CmpCond) (p : Fin 8)
  /-- VSEL_VV (R357). -/
  | vselVv (g : Fin 4) (b : RegIx) (a : RegIx) (d : RegIx)
  /-- VSEL_VX (R357). -/
  | vselVx (g : Fin 4) (b : RegIx) (a : RegIx) (d : RegIx)
  /-- VSEL_VI (R357). -/
  | vselVi (g : Fin 4) (b : RegIx) (a : BitVec 5) (d : RegIx)
  /-- VCLIP_VV (R353). -/
  | vclipVv (g : Fin 4) (b : RegIx) (a : RegIx) (u : Bool) (d : RegIx)
  /-- VCLIP_VX (R353). -/
  | vclipVx (g : Fin 4) (b : RegIx) (a : RegIx) (u : Bool) (d : RegIx)
  /-- VCLIP_VI (R353). -/
  | vclipVi (g : Fin 4) (b : RegIx) (a : BitVec 5) (u : Bool) (d : RegIx)
  /-- VWCVT (R354). -/
  | vwcvt (g : Fin 4) (b : RegIx) (w : CvtWidth) (u : Bool) (d : RegIx)
  /-- VREDI (R356). -/
  | vredi (g : Fin 4) (b : RegIx) (o : RedOp) (d : RegIx)
  /-- VSLUP_VX (R358). -/
  | vslupVx (g : Fin 4) (b : RegIx) (a : RegIx) (d : RegIx)
  /-- VSLUP_VI (R358). -/
  | vslupVi (g : Fin 4) (b : RegIx) (a : BitVec 5) (d : RegIx)
  /-- VSLDN_VX (R358). -/
  | vsldnVx (g : Fin 4) (b : RegIx) (a : RegIx) (d : RegIx)
  /-- VSLDN_VI (R358). -/
  | vsldnVi (g : Fin 4) (b : RegIx) (a : BitVec 5) (d : RegIx)
  /-- VPERM (R358). -/
  | vperm (g : Fin 4) (b : RegIx) (a : RegIx) (d : RegIx)
  /-- VCMPR (R359). -/
  | vcmpr (g : Fin 4) (b : RegIx) (s : Fin 8) (d : RegIx)
  /-- VXPND (R359). -/
  | vxpnd (g : Fin 4) (b : RegIx) (s : Fin 8) (d : RegIx)
  /-- VIOTA (R355). -/
  | viota (g : Fin 4) (s : Fin 8) (d : RegIx)
  /-- VBCST_VX (R360). -/
  | vbcstVx (g : Fin 4) (a : RegIx) (d : RegIx)
  /-- VBCST_VI (R360). -/
  | vbcstVi (g : Fin 4) (a : BitVec 5) (d : RegIx)
  /-- VMVXS (R360). -/
  | vmvxs (b : RegIx) (u : Bool) (d : RegIx)
  /-- VMVSX (R360). -/
  | vmvsx (a : RegIx) (d : RegIx)
  /-- VSCAN (R361). -/
  | vscan (g : Fin 4) (b : RegIx) (a : RegIx) (u : Bool) (d : RegIx)
  /-- PLOG (R324). -/
  | plog (g : Fin 4) (b : Fin 8) (a : Fin 8) (f : PLogOp) (d : Fin 8)
  /-- PBRK (R324). -/
  | pbrk (g : Fin 4) (s : Fin 8) (f : Bool) (d : Fin 8)
  /-- PCNT (R325). -/
  | pcnt (g : Fin 4) (s : Fin 8) (d : RegIx)
  /-- PFIRST (R325). -/
  | pfirst (g : Fin 4) (s : Fin 8) (d : RegIx)
  /-- PSET (R324). -/
  | pset (g : Fin 4) (a : RegIx) (f : PSetOp) (d : Fin 8)
  /-- PMOV_TO_VECTOR (R326). -/
  | pmovToVector (g : Fin 4) (s : Fin 8) (d : RegIx)
  /-- PMOV_TO_PREDICATE (R324). -/
  | pmovToPredicate (g : Fin 4) (b : RegIx) (d : Fin 8)
  /-- VFADD_VV (R362). -/
  | vfaddVv (g : Fin 4) (b : RegIx) (a : RegIx) (d : RegIx)
  /-- VFADD_VF (R362). -/
  | vfaddVf (g : Fin 4) (b : RegIx) (a : RegIx) (d : RegIx)
  /-- VFADD_VX (R362). -/
  | vfaddVx (g : Fin 4) (b : RegIx) (a : RegIx) (d : RegIx)
  /-- VFSUB_VV (R362). -/
  | vfsubVv (g : Fin 4) (b : RegIx) (a : RegIx) (d : RegIx)
  /-- VFSUB_VF (R362). -/
  | vfsubVf (g : Fin 4) (b : RegIx) (a : RegIx) (d : RegIx)
  /-- VFSUB_VX (R362). -/
  | vfsubVx (g : Fin 4) (b : RegIx) (a : RegIx) (d : RegIx)
  /-- VFMUL_VV (R362). -/
  | vfmulVv (g : Fin 4) (b : RegIx) (a : RegIx) (d : RegIx)
  /-- VFMUL_VF (R362). -/
  | vfmulVf (g : Fin 4) (b : RegIx) (a : RegIx) (d : RegIx)
  /-- VFMUL_VX (R362). -/
  | vfmulVx (g : Fin 4) (b : RegIx) (a : RegIx) (d : RegIx)
  /-- VFMA_VV (R362). -/
  | vfmaVv (g : Fin 4) (b : RegIx) (a : RegIx) (n : Bool) (d : RegIx)
  /-- VFMA_VF (R362). -/
  | vfmaVf (g : Fin 4) (b : RegIx) (a : RegIx) (n : Bool) (d : RegIx)
  /-- VFMA_VX (R362). -/
  | vfmaVx (g : Fin 4) (b : RegIx) (a : RegIx) (n : Bool) (d : RegIx)
  /-- VFMIN_VV (R362). -/
  | vfminVv (g : Fin 4) (b : RegIx) (a : RegIx) (d : RegIx)
  /-- VFMIN_VF (R362). -/
  | vfminVf (g : Fin 4) (b : RegIx) (a : RegIx) (d : RegIx)
  /-- VFMIN_VX (R362). -/
  | vfminVx (g : Fin 4) (b : RegIx) (a : RegIx) (d : RegIx)
  /-- VFMAX_VV (R362). -/
  | vfmaxVv (g : Fin 4) (b : RegIx) (a : RegIx) (d : RegIx)
  /-- VFMAX_VF (R362). -/
  | vfmaxVf (g : Fin 4) (b : RegIx) (a : RegIx) (d : RegIx)
  /-- VFMAX_VX (R362). -/
  | vfmaxVx (g : Fin 4) (b : RegIx) (a : RegIx) (d : RegIx)
  /-- VFDIV_VV (R362). -/
  | vfdivVv (g : Fin 4) (b : RegIx) (a : RegIx) (d : RegIx)
  /-- VFDIV_VF (R362). -/
  | vfdivVf (g : Fin 4) (b : RegIx) (a : RegIx) (d : RegIx)
  /-- VFDIV_VX (R362). -/
  | vfdivVx (g : Fin 4) (b : RegIx) (a : RegIx) (d : RegIx)
  /-- VFSQRT (R362). -/
  | vfsqrt (g : Fin 4) (b : RegIx) (d : RegIx)
  /-- VFRSQE (R363). -/
  | vfrsqe (g : Fin 4) (b : RegIx) (d : RegIx)
  /-- VFEXP2E (R363). -/
  | vfexp2e (g : Fin 4) (b : RegIx) (d : RegIx)
  /-- VFCMP_VV (R364). -/
  | vfcmpVv (g : Fin 4) (b : RegIx) (a : RegIx) (c : FCmpCond) (p : Fin 8)
  /-- VFCMP_VF (R364). -/
  | vfcmpVf (g : Fin 4) (b : RegIx) (a : RegIx) (c : FCmpCond) (p : Fin 8)
  /-- VFCMP_VX (R364). -/
  | vfcmpVx (g : Fin 4) (b : RegIx) (a : RegIx) (c : FCmpCond) (p : Fin 8)
  /-- VFSGN (R365). -/
  | vfsgn (g : Fin 4) (b : RegIx) (m : SgnMode) (d : RegIx)
  /-- VFCVT (R367). -/
  | vfcvt (g : Fin 4) (b : RegIx) (t : Fmt) (r : RndCode) (d : RegIx)
  /-- VREDF (R366). -/
  | vredf (g : Fin 4) (b : RegIx) (o : FRedOp) (r : RndCode) (d : RegIx)
  /-- VTAGG (R369). -/
  | vtagg (b : RegIx) (d : RegIx)
  /-- VTAGS (R369). -/
  | vtags (a : RegIx) (d : RegIx)
  /-- VSETVL (R370). -/
  | vsetvl (b : RegIx) (a : RegIx) (d : RegIx)
  /-- VSETVLI (R370). -/
  | vsetvli (i : BitVec 12) (a : RegIx) (d : RegIx)
  /-- VLD (R372). -/
  | vld (g : Fin 4) (a : RegIx) (f : Bool) (s : Bool) (d : RegIx)
  /-- VLDS (R372). -/
  | vlds (g : Fin 4) (b : RegIx) (a : RegIx) (f : Bool) (s : Bool) (d : RegIx)
  /-- VLDX (R373). -/
  | vldx (g : Fin 4) (b : RegIx) (a : RegIx) (f : Bool) (i : Bool) (d : RegIx)
  /-- VLDSR (R375). -/
  | vldsr (b : RegIx) (a : RegIx) (d : RegIx)
  /-- VST (R374). -/
  | vst (g : Fin 4) (a : RegIx) (s : Bool) (d : RegIx)
  /-- VSTS (R374). -/
  | vsts (g : Fin 4) (b : RegIx) (a : RegIx) (s : Bool) (d : RegIx)
  /-- VSTX (R374). -/
  | vstx (g : Fin 4) (b : RegIx) (a : RegIx) (i : Bool) (d : RegIx)
  /-- VAMO (R376). -/
  | vamo (g : Fin 4) (b : RegIx) (a : RegIx) (o : VAmoOp) (d : RegIx)
  /-- VRED (R377). -/
  | vred (g : Fin 4) (b : RegIx) (a : RegIx) (o : VRedOp) (d : RegIx)
  /-- CPY (R195). -/
  | cpy (b : RegIx) (a : RegIx) (r : Bool) (d : RegIx)
  /-- CPYS (R195). -/
  | cpys (b : RegIx) (a : RegIx) (f : Bool) (r : Bool) (d : RegIx)
  /-- SQCMD (R337). -/
  | sqcmd (p : Fin 16) (a : RegIx)
  /-- SQWAIT (R338). -/
  | sqwait (p : Fin 16) (d : RegIx)
  /-- MMA (R179). -/
  | mma (x : Fin 6) (y : Fin 6) (c : Fin 8) (a : RegIx) (b : RegIx)
  /-- MMA_TILE (R185). -/
  | mmaTile (x : Fin 6) (y : Fin 6) (c : Fin 8) (s : Fin 8) (b : RegIx)
  /-- MMAS (R188). -/
  | mmas (x : Fin 6) (y : Fin 6) (c : Fin 8) (a : RegIx) (b : RegIx)
  /-- MMAS_TILE (R188). -/
  | mmasTile (x : Fin 6) (y : Fin 6) (c : Fin 8) (s : Fin 8) (b : RegIx)
  /-- MZERO (R186). -/
  | mzero (c : Fin 8)
  /-- MRDA (R186). -/
  | mrda (x : Fin 6) (c : Fin 8) (f : Fin 32) (d : RegIx)
  /-- MWRA (R186). -/
  | mwra (x : Fin 6) (c : Fin 8) (f : Fin 32) (d : RegIx)
  /-- MTCW (R183). -/
  | mtcw (c : Fin 8) (a : RegIx)
  /-- CHCFG (R159). -/
  | chcfg (n : Fin 4) (a : RegIx)
  /-- CHAIM (R160). -/
  | chaim (n : Fin 4) (a : RegIx)
  /-- CHRUN (R163). -/
  | chrun (n : Fin 4) (a : RegIx)
  /-- CHWAIT (R161). -/
  | chwait (n : Fin 4) (d : RegIx)
  /-- CHST (R300). -/
  | chst (n : Fin 4) (d : RegIx)
  /-- CHDRN (R296). -/
  | chdrn (n : Fin 4)
  /-- CHBRK (R294). -/
  | chbrk (n : Fin 4)
  /-- CHSAV (R299). -/
  | chsav (n : Fin 4) (a : RegIx)
  /-- CHLD (R297). -/
  | chld (n : Fin 4) (a : RegIx)
  /-- QPUSH (R332). -/
  | qpush (q : Fin 16) (a : RegIx)
  /-- QPOP (R333). -/
  | qpop (q : Fin 16) (d : RegIx)
  /-- QPEEK (R333). -/
  | qpeek (q : Fin 16) (d : RegIx)
  /-- QSTAT (R334). -/
  | qstat (q : Fin 16) (d : RegIx)
  /-- ACQ (R278). -/
  | acq (s : Scope) (m : AcqMode) (a : RegIx) (d : RegIx)
  /-- REL (R335). -/
  | rel (s : Scope) (a : RegIx)
  /-- BINDR (R290). -/
  | bindr (b : RegIx) (a : RegIx) (d : RegIx)
  /-- UNBINDR (R344). -/
  | unbindr (a : RegIx)
  /-- FENCEX (R307). -/
  | fencex (s : Scope) (k : FenceKind)
  /-- BARI (R280). -/
  | bari (n : Fin 4) (a : RegIx)
  /-- BARA (R281). -/
  | bara (r : Bool) (n : Fin 4) (d : RegIx)
  /-- BARW (R282). -/
  | barw (c : Bool) (n : Fin 4) (a : RegIx)
  /-- BARAW (R283). -/
  | baraw (c : Bool) (n : Fin 4) (d : RegIx)
  /-- MONARM (R318). -/
  | monarm (a : RegIx)
  /-- MWAIT (R319). -/
  | mwait (a : RegIx) (d : RegIx)
  /-- BFENCE (R287). -/
  | bfence (g : Bool)
  /-- FUTINIT (R308). -/
  | futinit (a : RegIx)
  /-- FUTRD (R310). -/
  | futrd (b : RegIx) (a : RegIx) (d : RegIx)
  /-- FUTWR (R311). -/
  | futwr (b : RegIx) (a : RegIx)
  /-- FUTQRY (R309). -/
  | futqry (a : RegIx) (d : RegIx)
  /-- TSPAWN (R342). -/
  | tspawn (a : RegIx)
  /-- TNEXT (R343). -/
  | tnext (w : Bool) (d : RegIx)
  /-- MSGRING (R320). -/
  | msgring (a : RegIx)
  /-- MSGSND (R321). -/
  | msgsnd (b : RegIx) (a : RegIx) (d : RegIx)
  /-- MSGRCV (R322). -/
  | msgrcv (b : RegIx) (a : RegIx) (d : RegIx)
  /-- EVQCFG (R305). -/
  | evqcfg (n : Fin 4) (a : RegIx)
  /-- EVQPOP (R306). -/
  | evqpop (n : Fin 4) (d : RegIx)
  /-- BCMD (R286). -/
  | bcmd (a : RegIx)
  /-- BGAX (R289). -/
  | bgax (b : RegIx) (a : RegIx) (d : RegIx)
  /-- PKLCFG (R327). -/
  | pklcfg (u : Fin 12) (a : RegIx)
  /-- PKLQ (R329). -/
  | pklq (u : Fin 12) (a : RegIx) (d : RegIx)
  /-- PKLGET (R330). -/
  | pklget (w : Bool) (a : RegIx) (d : RegIx)
  /-- LPART (R315). -/
  | lpart (n : Fin 4)
  /-- TLBIR (R339). -/
  | tlbir (b : RegIx) (a : RegIx) (d : RegIx)
  /-- SPLP (R336). -/
  | splp (e : Fin 16) (a : RegIx)
  /-- SPLR (R336). -/
  | splr (e : Fin 16) (d : RegIx)
  /-- FENCE (R132). -/
  | fence (fm : BitVec 4) (pred : BitVec 4) (succ : BitVec 4)
  /-- SFENCE_VMA (R114). -/
  | sfenceVma (rs1 : RegIx) (rs2 : RegIx)
  /-- SCALAR_AMO (R134). -/
  | scalarAmo (op : AmoOp) (dbl : Bool) (aq : Bool) (rl : Bool) (rd : RegIx) (rs1 : RegIx) (rs2 : RegIx)
  /-- LR (R132). -/
  | lr (dbl : Bool) (aq : Bool) (rl : Bool) (rd : RegIx) (rs1 : RegIx)
  /-- SC (R132). -/
  | sc (dbl : Bool) (aq : Bool) (rl : Bool) (rd : RegIx) (rs1 : RegIx) (rs2 : RegIx)
  /-- CSR_ACCESS (R50). -/
  | csrAccess (op : CsrOp) (imm : Bool) (csr : BitVec 12) (rd : RegIx) (src : RegIx)
  /-- HINT (R77). -/
  | hint (w : IWord)
  /-- FAULT_RECORD_POST (R246). -/
  | faultRecordPost (die : Fin 4)
  /-- FAULT_REPLY (R247). -/
  | faultReply (reply : Word)
  /-- HOST_SLICE_FILL (R113). -/
  | hostSliceFill (token : Nat) (va : Nat) (level : Fin 5) (pte : Word)
  /-- ASYNC_INTERRUPT (R34). -/
  | asyncInterrupt (hart : Nat)
  /-- WATCHDOG_EXPIRY (R260). -/
  | watchdogExpiry (hart : Nat)
  /-- GRANT_CHANGE (R242). -/
  | grantChange (seat : Nat) (grant : Nat)
  /-- LEAVE_GRANT (R243). -/
  | leaveGrant (die : Fin 4)
  /-- SYNC_OBJECT_GRANT (R128). -/
  | syncObjectGrant (obj : Nat)
  /-- MWAIT_WAKE (R319). -/
  | mwaitWake (hart : Nat)
  /-- BARRIER_WAIT_RETURN (R282). -/
  | barrierWaitReturn (hart : Nat)
  /-- INVALIDATION_COMPLETE (R340). -/
  | invalidationComplete (hart : Nat)
  /-- MATRIX_INSTRUCTION_COMPLETE (R190). -/
  | matrixInstructionComplete (core : Nat)
  /-- COPY_STRIP (R196). -/
  | copyStrip (core : Nat) (rec : Nat)
  /-- COPY_COMPLETION (R196). -/
  | copyCompletion (core : Nat) (rec : Nat)
  /-- EVENT_QUEUE_POST (R205). -/
  | eventQueuePost (core : Nat) (rec : Nat)
  /-- STREAM_START (R200). -/
  | streamStart (core : Nat) (port : Fin 16)
  /-- STREAM_TRANSFER (R201). -/
  | streamTransfer (core : Nat) (port : Fin 16)
  /-- VLDSR_REFILL (R203). -/
  | vldsrRefill (core : Nat)
  /-- REDUCTION_UPDATE (R135). -/
  | reductionUpdate (core : Nat)
  /-- STAGE_FIRING (R153). -/
  | stageFiring (core : Nat) (slot : Fin 4) (node : Nat)
  /-- MATRIX_NODE_PASS (R384). -/
  | matrixNodePass (core : Nat) (slot : Fin 4) (node : Nat)
  /-- MEMORY_PORT_FIRING (R155). -/
  | memoryPortFiring (core : Nat) (slot : Fin 4) (node : Nat)
  /-- ADDRESS_GENERATOR_FIRING (R385). -/
  | addressGeneratorFiring (core : Nat) (slot : Fin 4) (node : Nat)
  /-- SPARSE_HEADER_FIRING (R155). -/
  | sparseHeaderFiring (core : Nat) (slot : Fin 4) (node : Nat)
  /-- FILTER_FIRING (R155). -/
  | filterFiring (core : Nat) (slot : Fin 4) (node : Nat)
  /-- REDUCTION_TREE_FIRING (R155). -/
  | reductionTreeFiring (core : Nat) (slot : Fin 4) (node : Nat)
  /-- LANE_LINK_TRANSFER (R172). -/
  | laneLinkTransfer (core : Nat) (slot : Fin 4) (node : Nat)
  /-- TAIL_CONFIG_AT_NODE (R160). -/
  | tailConfigAtNode (core : Nat) (slot : Fin 4) (node : Nat)
  /-- CHECKPOINT_MARKER_AT_NODE (R296). -/
  | checkpointMarkerAtNode (core : Nat) (slot : Fin 4) (node : Nat)
  /-- BELL_AT_NODE (R171). -/
  | bellAtNode (core : Nat) (slot : Fin 4) (node : Nat)
  /-- BOUND_STOP (R165). -/
  | boundStop (core : Nat) (slot : Fin 4) (node : Nat)
  /-- CHAIN_FAULT_TIMEOUT (R167). -/
  | chainFaultTimeout (core : Nat) (slot : Fin 4)
  /-- MULTICAST_DETACH (R166). -/
  | multicastDetach (core : Nat) (slot : Fin 4) (queue : Fin 16) (consumer : Fin 4)
  /-- ROLL_CALL_REPORT (R167). -/
  | rollCallReport (core : Nat) (slot : Fin 4)
  /-- CHAIN_RUN_END (R162). -/
  | chainRunEnd (core : Nat) (slot : Fin 4)
  /-- TEMPORAL_FIRING (R169). -/
  | temporalFiring (core : Nat) (slot : Fin 4)
  /-- BAU_PIECE (R220). -/
  | bauPiece (bank : Nat)
  /-- BGAX_SUM_ARRIVAL (R222). -/
  | bgaxSumArrival (core : Nat)
  /-- PKL_QUERY (R226). -/
  | pklQuery (unit : Fin 12)
  /-- FUTURE_WALK_STEP (R212). -/
  | futureWalkStep (walk : Nat)
  /-- GANG_END (R23). -/
  | gangEnd (seat : Nat)
  /-- LAUNCH_RECORD_CONSUME (R234). -/
  | launchRecordConsume (q : Fin 256)
  /-- BIND_RECORD_PUBLISH (R237). -/
  | bindRecordPublish (seat : Nat)
  /-- GANG_START (R238). -/
  | gangStart (seat : Nat)
  /-- PREEMPT_REQUEST (R239). -/
  | preemptRequest (seat : Nat) (ctl : Word)
  /-- PREEMPT_QUIESCED (R250). -/
  | preemptQuiesced (seat : Nat)
  /-- SCHEDULING_QUANTUM (R240). -/
  | schedulingQuantum (seat : Nat)
  /-- PRIORITY_AGING (R240). -/
  | priorityAging (seat : Nat)
  /-- DEBUG_HALT (R259). -/
  | debugHalt (hart : Nat)
  /-- DEBUG_RESUME (R259). -/
  | debugResume (hart : Nat)
  /-- DEBUG_SINGLE_STEP (R259). -/
  | debugSingleStep (hart : Nat)
  /-- DEBUG_ABSTRACT_COMMAND (R259). -/
  | debugAbstractCommand (hart : Nat) (reg : DbgReg) (write : Bool) (value : Word)
  /-- DEBUG_PROGRAM_BUFFER (R259). -/
  | debugProgramBuffer (hart : Nat) (w : IWord)
  /-- CORRECTED_ERROR (R261). -/
  | correctedError (place : DiePart)
  /-- CORRECTED_ERROR_THRESHOLD (R261). -/
  | correctedErrorThreshold (place : DiePart)
  /-- UNCORRECTABLE_ERROR (R261). -/
  | uncorrectableError (loc : ErrLoc)
  /-- HBM_CHANNEL_SPARING (R262). -/
  | hbmChannelSparing (stack : Fin 12) (channel : Fin 32)
  /-- MGC_HEARTBEAT (R262). -/
  | mgcHeartbeat (mgc : Nat)
  /-- MGC_TAKEOVER (R262). -/
  | mgcTakeover (mgc : Nat)
  /-- THERMAL_GRANT_LIMIT (R275). -/
  | thermalGrantLimit (seat : Nat) (grant : Nat)
  /-- POWER_ON (R263), with what another agent than the update (the manufacturer, say) has put into the boot storage before it. -/
  | powerOn (flash : Option (List (Nat × Byte)))
  /-- PEER_ACK (R273). -/
  | peerAck (core : Nat) (rec : Nat)
  /-- PEER_CONNECTION_FAIL (R273). -/
  | peerConnectionFail (core : Nat) (rec : Nat)
  /-- SCALAR_LOAD (R97). -/
  | scalarLoad (k : LoadKind) (rd : RegIx) (rs1 : RegIx) (imm : BitVec 12)
  /-- SCALAR_STORE (R97). -/
  | scalarStore (k : StoreKind) (rs2 : RegIx) (rs1 : RegIx) (imm : BitVec 12)
  /-- BASE_ISA_INSTRUCTION (R77). -/
  | baseIsaInstruction (b : BaseInstr)
  /-- ILLEGAL_INSTRUCTION (R76). -/
  | illegalInstruction (w : IWord)
  /-- LANE_LINK_DOWN (R167). -/
  | laneLinkDown (core : Nat) (slot : Fin 4)
  /-- CPYW (R197). -/
  | cpyw
  /-- CTXSV (R254). -/
  | ctxsv
  /-- CTXLD (R255). -/
  | ctxld
  /-- TLBSYNC (R341). -/
  | tlbsync
  /-- ECALL (R23). -/
  | ecall
  /-- FENCE_I (R102). -/
  | fenceI
  /-- THERMAL_SHUTDOWN (R275). -/
  | thermalShutdown
  /-- RESET_RELEASE (R275). -/
  | resetRelease
  /-- LINK_DOWN (R264). -/
  | linkDown
  /-- HOST_MEMORY_ACCESS (R265). -/
  | hostMemoryAccess
  /-- DIRTY_HARVEST_READ (R269). -/
  | dirtyHarvestRead
  /-- MODE_WRITE (R241). -/
  | modeWrite
  /-- TIDINV (R267). -/
  | tidinv
  /-- TIDINV_DRAINED (R267). -/
  | tidinvDrained
  /-- RETIRE (R268). -/
  | retire
  /-- EXTENT_LAYOUT_WRITE (R101). -/
  | extentLayoutWrite
  /-- LAUNCH_QUEUE_WP_WRITE (R272). -/
  | launchQueueWpWrite
  /-- LAUNCH_QUEUE_CONTROL (R272). -/
  | launchQueueControl
  /-- MAILBOX_RING_CONTROL (R270). -/
  | mailboxRingControl
  /-- REGISTER_WRITE (R5). -/
  | registerWrite
  /-- ATTEST (R263). -/
  | attest
  /-- RETIRECORE (R262). -/
  | retirecore
  /-- HEARTBEAT (R270). -/
  | heartbeat
  /-- KEYGEN (R271). -/
  | keygen
  /-- KEYERASE (R271). -/
  | keyerase
  /-- KEYEXPORT (R258). -/
  | keyexport
  /-- KEYIMPORT (R271). -/
  | keyimport
  /-- MAILBOX_RESERVED_CODE (R270). -/
  | mailboxReservedCode
  /-- MAILBOX_EVENT_POST (R270). -/
  | mailboxEventPost
  /-- GET_TID (R274). -/
  | getTid
  /-- GET_PLDM_VERSION (R274). -/
  | getPldmVersion
  /-- GET_PLDM_TYPES (R274). -/
  | getPldmTypes
  /-- GET_PLDM_COMMANDS (R274). -/
  | getPldmCommands
  /-- GET_PDR (R274). -/
  | getPdr
  /-- GET_SENSOR_READING (R274). -/
  | getSensorReading
  /-- REQUEST_UPDATE (R274). -/
  | requestUpdate
  /-- PASS_COMPONENT_TABLE (R274). -/
  | passComponentTable
  /-- UPDATE_COMPONENT (R274). -/
  | updateComponent
  /-- REQUEST_FIRMWARE_DATA (R274). -/
  | requestFirmwareData
  /-- TRANSFER_COMPLETE (R274). -/
  | transferComplete
  /-- VERIFY_COMPLETE (R274). -/
  | verifyComplete
  /-- APPLY_COMPLETE (R274). -/
  | applyComplete
  /-- ACTIVATE_FIRMWARE (R274). -/
  | activateFirmware
  /-- GET_STATUS (R274). -/
  | getStatus
  /-- CANCEL_UPDATE (R274). -/
  | cancelUpdate
  /-- PLDM_OEM_ATTESTATION (R274). -/
  | pldmOemAttestation
  /-- HOST_LINK_TRAINING (R275). -/
  | hostLinkTraining
  /-- HOST_READ_POINTER_WRITE (R270). -/
  | hostReadPointerWrite
deriving DecidableEq, Repr

end Sys2Proof
end

