-- ==== Sys2Proof/Decode.lean ====
section
/-!
DEFINITION. The decoder, total on every 32-bit word and refusing by name, and after it the encoder, both written from
the encoding tables of spec/05 (Tables 5-1 to 5-8) and, for the base ISA, from the ratified RISC-V encodings that
spec/00 R3 incorporates.
-/
namespace Sys2Proof

/-- Why a word is no instruction; every case is the illegal-instruction exception of spec/05 R76. -/
inductive DecodeErr where
  | badLength            -- bits [1:0] other than 11, or bits [4:2] = 111
  | unknownOpcode        -- a major opcode outside the profile, OP-V among them
  | reservedForm         -- a reserved F3 or form
  | reservedOperation    -- a reserved OP, MOP, F7 or funct value
  | reservedField        -- a field that must be 0 is not, or a value outside the row's limits
deriving DecidableEq, Repr

/-- The fields every word is cut into once: [6:0], [11:7], [14:12], [19:15], [24:20], [26:25], [31:27]
(spec/05 Table 5-2). -/
structure Fields where
  opc : Fin 128
  d : Fin 32
  f3 : Fin 8
  a : Fin 32
  b : Fin 32
  g : Fin 4
  op : Fin 32
deriving DecidableEq, Repr

/-- The word that holds the fields. -/
def pack (F : Fields) : IWord :=
  BitVec.ofNat 32 (F.opc.val + 128 * (F.d.val + 32 * (F.f3.val + 8 * (F.a.val + 32 * (F.b.val + 32 * (F.g.val +
    4 * F.op.val))))))

/-- The fields of a word. -/
def unpack (w : IWord) : Fields :=
  let n := w.toNat
  ⟨Fin.ofNat 128 n, Fin.ofNat 32 (n / 2 ^ 7), Fin.ofNat 8 (n / 2 ^ 12), Fin.ofNat 32 (n / 2 ^ 15),
    Fin.ofNat 32 (n / 2 ^ 20), Fin.ofNat 4 (n / 2 ^ 25), Fin.ofNat 32 (n / 2 ^ 27)⟩

/-- Bits [31:20]. -/
def Fields.hi12 (F : Fields) : Nat := F.op.val * 128 + F.g.val * 32 + F.b.val

/-- Bits [31:25]. -/
def Fields.f7 (F : Fields) : Nat := F.op.val * 4 + F.g.val

/-- Bits [31:12]. -/
def Fields.hi20 (F : Fields) : Nat := F.hi12 * 256 + F.a.val * 8 + F.f3.val

/-- Fields with bits [31:20] given whole. -/
def mkHi (opc : Fin 128) (hi : Nat) (a : Fin 32) (f3 : Fin 8) (d : Fin 32) : Fields :=
  ⟨opc, d, f3, a, Fin.ofNat 32 hi, Fin.ofNat 4 (hi / 32), Fin.ofNat 32 (hi / 128)⟩

/-- Fields with bits [31:25] given whole. -/
def mkF7 (opc : Fin 128) (f7 : Nat) (b a : Fin 32) (f3 : Fin 8) (d : Fin 32) : Fields :=
  ⟨opc, d, f3, a, b, Fin.ofNat 4 f7, Fin.ofNat 32 (f7 / 4)⟩

/-- Fields with bits [31:12] given whole. -/
def mkHi20 (opc : Fin 128) (hi : Nat) (d : Fin 32) : Fields :=
  mkHi opc (hi / 256) (Fin.ofNat 32 (hi / 8)) (Fin.ofNat 8 hi) d

/-- A number below a bound. -/
def finOf (n k : Nat) : Option (Fin n) := if h : k < n then some ⟨k, h⟩ else none

/-- Go on where the fields are as the row says. -/
def guardField (c : Prop) [Decidable c] (r : Except DecodeErr Instr) : Except DecodeErr Instr :=
  if c then r else .error .reservedField

/-- Go on with an operand whose code is allocated. -/
def withCode {α : Type} (o : Option α) (k : α → Except DecodeErr Instr) : Except DecodeErr Instr :=
  match o with
  | some v => k v
  | none => .error .reservedField

/-- The code of `CmpCond` in an instruction word. -/
def CmpCond.code : CmpCond → Nat
  | .eq => 0 | .ne => 1 | .lt => 2 | .le => 3
/-- `CmpCond` from its code; reserved codes give none. -/
def CmpCond.ofCode : Nat → Option CmpCond
  | 0 => some .eq | 1 => some .ne | 2 => some .lt | 3 => some .le | _ => none
/-- The code of `FCmpCond` in an instruction word. -/
def FCmpCond.code : FCmpCond → Nat
  | .eq => 0 | .lt => 1 | .le => 2 | .un => 3
/-- `FCmpCond` from its code; reserved codes give none. -/
def FCmpCond.ofCode : Nat → Option FCmpCond
  | 0 => some .eq | 1 => some .lt | 2 => some .le | 3 => some .un | _ => none
/-- The code of `CvtWidth` in an instruction word. -/
def CvtWidth.code : CvtWidth → Nat
  | .w8 => 0 | .w16 => 1 | .w32 => 2 | .w64 => 3
/-- `CvtWidth` from its code; reserved codes give none. -/
def CvtWidth.ofCode : Nat → Option CvtWidth
  | 0 => some .w8 | 1 => some .w16 | 2 => some .w32 | 3 => some .w64 | _ => none
/-- The code of `RedOp` in an instruction word. -/
def RedOp.code : RedOp → Nat
  | .sum => 0 | .min => 1 | .max => 2 | .minu => 3 | .maxu => 4 | .and => 5 | .or => 6 | .xor => 7
/-- `RedOp` from its code; reserved codes give none. -/
def RedOp.ofCode : Nat → Option RedOp
  | 0 => some .sum | 1 => some .min | 2 => some .max | 3 => some .minu | 4 => some .maxu | 5 => some .and | 6 => some .or | 7 => some .xor | _ => none
/-- The code of `PLogOp` in an instruction word. -/
def PLogOp.code : PLogOp → Nat
  | .and => 0 | .or => 1 | .xor => 2 | .andn => 3 | .orn => 4 | .nand => 5 | .nor => 6 | .xnor => 7
/-- `PLogOp` from its code; reserved codes give none. -/
def PLogOp.ofCode : Nat → Option PLogOp
  | 0 => some .and | 1 => some .or | 2 => some .xor | 3 => some .andn | 4 => some .orn | 5 => some .nand | 6 => some .nor | 7 => some .xnor | _ => none
/-- The code of `PSetOp` in an instruction word. -/
def PSetOp.code : PSetOp → Nat
  | .all => 0 | .none => 1 | .firstN => 2 | .bits => 3
/-- `PSetOp` from its code; reserved codes give none. -/
def PSetOp.ofCode : Nat → Option PSetOp
  | 0 => some .all | 1 => some .none | 2 => some .firstN | 3 => some .bits | _ => Option.none
/-- The code of `SgnMode` in an instruction word. -/
def SgnMode.code : SgnMode → Nat
  | .copy => 0 | .neg => 1 | .xor => 2 | .abs => 3
/-- `SgnMode` from its code; reserved codes give none. -/
def SgnMode.ofCode : Nat → Option SgnMode
  | 0 => some .copy | 1 => some .neg | 2 => some .xor | 3 => some .abs | _ => none
/-- The code of `FRedOp` in an instruction word. -/
def FRedOp.code : FRedOp → Nat
  | .sum => 0 | .max => 1 | .min => 2 | .amax => 3
/-- `FRedOp` from its code; reserved codes give none. -/
def FRedOp.ofCode : Nat → Option FRedOp
  | 0 => some .sum | 1 => some .max | 2 => some .min | 3 => some .amax | _ => none
/-- The code of `RndCode` in an instruction word. -/
def RndCode.code : RndCode → Nat
  | .rne => 0 | .rtz => 1 | .rdn => 2 | .rup => 3 | .rmm => 4 | .sr => 5 | .dyn => 6
/-- `RndCode` from its code; reserved codes give none. -/
def RndCode.ofCode : Nat → Option RndCode
  | 0 => some .rne | 1 => some .rtz | 2 => some .rdn | 3 => some .rup | 4 => some .rmm | 5 => some .sr | 6 => some .dyn | _ => none
/-- The code of `VAmoOp` in an instruction word. -/
def VAmoOp.code : VAmoOp → Nat
  | .add => 0 | .fadd => 1 | .min => 2 | .max => 3 | .minu => 4 | .maxu => 5 | .fmax => 6 | .swap => 7
/-- `VAmoOp` from its code; reserved codes give none. -/
def VAmoOp.ofCode : Nat → Option VAmoOp
  | 0 => some .add | 1 => some .fadd | 2 => some .min | 3 => some .max | 4 => some .minu | 5 => some .maxu | 6 => some .fmax | 7 => some .swap | _ => none
/-- The code of `VRedOp` in an instruction word. -/
def VRedOp.code : VRedOp → Nat
  | .add => 0 | .fadd => 1 | .min => 2 | .max => 3 | .minu => 4 | .maxu => 5 | .fmax => 6 | .or => 7
/-- `VRedOp` from its code; reserved codes give none. -/
def VRedOp.ofCode : Nat → Option VRedOp
  | 0 => some .add | 1 => some .fadd | 2 => some .min | 3 => some .max | 4 => some .minu | 5 => some .maxu | 6 => some .fmax | 7 => some .or | _ => none
/-- The code of `Scope` in an instruction word. -/
def Scope.code : Scope → Nat
  | .hart => 0 | .core => 1 | .gang => 2 | .die => 3 | .pkg => 4 | .sys => 5 | .bank => 6
/-- `Scope` from its code; reserved codes give none. -/
def Scope.ofCode : Nat → Option Scope
  | 0 => some .hart | 1 => some .core | 2 => some .gang | 3 => some .die | 4 => some .pkg | 5 => some .sys | 6 => some .bank | _ => none
/-- The code of `FenceKind` in an instruction word. -/
def FenceKind.code : FenceKind → Nat
  | .full => 0 | .acq => 1 | .rel => 2 | .eng => 3
/-- `FenceKind` from its code; reserved codes give none. -/
def FenceKind.ofCode : Nat → Option FenceKind
  | 0 => some .full | 1 => some .acq | 2 => some .rel | 3 => some .eng | _ => none
/-- The code of `AcqMode` in an instruction word. -/
def AcqMode.code : AcqMode → Nat
  | .excl => 0 | .shared => 1 | .try => 2
/-- `AcqMode` from its code; reserved codes give none. -/
def AcqMode.ofCode : Nat → Option AcqMode
  | 0 => some .excl | 1 => some .shared | 2 => some .try | _ => none
/-- The format code (spec/03 Table 3-11). -/
def Fmt.code : Fmt → Nat
  | .i8 => 0 | .i16 => 1 | .i32 => 2 | .i64 => 3 | .i4 => 4 | .fp64 => 8 | .fp32 => 9 | .fp16 => 10 | .bf16 => 11 | .e4m3 => 12 | .e5m2 => 13 | .e2m3 => 14 | .e3m2 => 15 | .e2m1 => 16 | .pe3 => 20 | .pe5 => 21 | .pe8 => 22 | .scw => 30 | .raw => 31
/-- A format from its code; reserved codes give none. -/
def Fmt.ofCode : Nat → Option Fmt
  | 0 => some .i8 | 1 => some .i16 | 2 => some .i32 | 3 => some .i64 | 4 => some .i4 | 8 => some .fp64 | 9 => some .fp32 | 10 => some .fp16 | 11 => some .bf16 | 12 => some .e4m3 | 13 => some .e5m2 | 14 => some .e2m3 | 15 => some .e3m2 | 16 => some .e2m1 | 20 => some .pe3 | 21 => some .pe5 | 22 => some .pe8 | 30 => some .scw | 31 => some .raw | _ => none
/-- A format that VFCVT may name as its target: a valid code other than SCW and raw (spec/05 Table 5-4). -/
def Fmt.ofTarget (n : Nat) : Option Fmt := if n = 30 ∨ n = 31 then none else Fmt.ofCode n

/-- The map of custom-0 (spec/05 R81, Table 5-3). -/
def decodeCustom0 (F : Fields) : Except DecodeErr Instr :=
  match F.op.val with
  | 0 =>
    match F.f3.val with
    | 0 => .ok (.vaddVv F.g F.b F.a F.d)
    | 1 => .ok (.vaddVx F.g F.b F.a F.d)
    | 2 => .ok (.vaddVi F.g F.b (BitVec.ofNat 5 (F.a.val)) F.d)
    | _ => .error .reservedForm
  | 1 =>
    match F.f3.val with
    | 0 => .ok (.vsubVv F.g F.b F.a F.d)
    | 1 => .ok (.vsubVx F.g F.b F.a F.d)
    | 2 => .ok (.vsubVi F.g F.b (BitVec.ofNat 5 (F.a.val)) F.d)
    | _ => .error .reservedForm
  | 2 =>
    match F.f3.val with
    | 0 => .ok (.vmulVv F.g F.b F.a F.d)
    | 1 => .ok (.vmulVx F.g F.b F.a F.d)
    | 2 => .ok (.vmulVi F.g F.b (BitVec.ofNat 5 (F.a.val)) F.d)
    | _ => .error .reservedForm
  | 3 =>
    match F.f3.val with
    | 0 | 4 => .ok (.vmulhVv F.g F.b F.a (F.f3.val / 4 == 1) F.d)
    | 1 | 5 => .ok (.vmulhVx F.g F.b F.a (F.f3.val / 4 == 1) F.d)
    | _ => .error .reservedForm
  | 4 =>
    match F.f3.val with
    | 0 => .ok (.vmaccVv F.g F.b F.a F.d)
    | 1 => .ok (.vmaccVx F.g F.b F.a F.d)
    | 2 => .ok (.vmaccVi F.g F.b (BitVec.ofNat 5 (F.a.val)) F.d)
    | _ => .error .reservedForm
  | 5 =>
    match F.f3.val with
    | 0 | 4 => .ok (.vminVv F.g F.b F.a (F.f3.val / 4 == 1) F.d)
    | 1 | 5 => .ok (.vminVx F.g F.b F.a (F.f3.val / 4 == 1) F.d)
    | 2 | 6 => .ok (.vminVi F.g F.b (BitVec.ofNat 5 (F.a.val)) (F.f3.val / 4 == 1) F.d)
    | _ => .error .reservedForm
  | 6 =>
    match F.f3.val with
    | 0 | 4 => .ok (.vmaxVv F.g F.b F.a (F.f3.val / 4 == 1) F.d)
    | 1 | 5 => .ok (.vmaxVx F.g F.b F.a (F.f3.val / 4 == 1) F.d)
    | 2 | 6 => .ok (.vmaxVi F.g F.b (BitVec.ofNat 5 (F.a.val)) (F.f3.val / 4 == 1) F.d)
    | _ => .error .reservedForm
  | 7 =>
    match F.f3.val with
    | 0 => .ok (.vandVv F.g F.b F.a F.d)
    | 1 => .ok (.vandVx F.g F.b F.a F.d)
    | 2 => .ok (.vandVi F.g F.b (BitVec.ofNat 5 (F.a.val)) F.d)
    | _ => .error .reservedForm
  | 8 =>
    match F.f3.val with
    | 0 => .ok (.vorVv F.g F.b F.a F.d)
    | 1 => .ok (.vorVx F.g F.b F.a F.d)
    | 2 => .ok (.vorVi F.g F.b (BitVec.ofNat 5 (F.a.val)) F.d)
    | _ => .error .reservedForm
  | 9 =>
    match F.f3.val with
    | 0 => .ok (.vxorVv F.g F.b F.a F.d)
    | 1 => .ok (.vxorVx F.g F.b F.a F.d)
    | 2 => .ok (.vxorVi F.g F.b (BitVec.ofNat 5 (F.a.val)) F.d)
    | _ => .error .reservedForm
  | 10 =>
    match F.f3.val with
    | 0 => .ok (.vshlVv F.g F.b F.a F.d)
    | 1 => .ok (.vshlVx F.g F.b F.a F.d)
    | 2 => .ok (.vshlVi F.g F.b (BitVec.ofNat 5 (F.a.val)) F.d)
    | _ => .error .reservedForm
  | 11 =>
    match F.f3.val with
    | 0 | 4 => .ok (.vshrVv F.g F.b F.a (F.f3.val / 4 == 1) F.d)
    | 1 | 5 => .ok (.vshrVx F.g F.b F.a (F.f3.val / 4 == 1) F.d)
    | 2 | 6 => .ok (.vshrVi F.g F.b (BitVec.ofNat 5 (F.a.val)) (F.f3.val / 4 == 1) F.d)
    | _ => .error .reservedForm
  | 12 =>
    match F.f3.val with
    | 0 | 4 => withCode (CmpCond.ofCode (F.d.val / 8)) fun c => .ok (.vcmpVv F.g F.b F.a (F.f3.val / 4 == 1) c (Fin.ofNat 8 (F.d.val % 8)))
    | 1 | 5 => withCode (CmpCond.ofCode (F.d.val / 8)) fun c => .ok (.vcmpVx F.g F.b F.a (F.f3.val / 4 == 1) c (Fin.ofNat 8 (F.d.val % 8)))
    | 2 | 6 => withCode (CmpCond.ofCode (F.d.val / 8)) fun c => .ok (.vcmpVi F.g F.b (BitVec.ofNat 5 (F.a.val)) (F.f3.val / 4 == 1) c (Fin.ofNat 8 (F.d.val % 8)))
    | _ => .error .reservedForm
  | 13 =>
    match F.f3.val with
    | 0 => .ok (.vselVv F.g F.b F.a F.d)
    | 1 => .ok (.vselVx F.g F.b F.a F.d)
    | 2 => .ok (.vselVi F.g F.b (BitVec.ofNat 5 (F.a.val)) F.d)
    | _ => .error .reservedForm
  | 14 =>
    match F.f3.val with
    | 0 | 4 => .ok (.vclipVv F.g F.b F.a (F.f3.val / 4 == 1) F.d)
    | 1 | 5 => .ok (.vclipVx F.g F.b F.a (F.f3.val / 4 == 1) F.d)
    | 2 | 6 => .ok (.vclipVi F.g F.b (BitVec.ofNat 5 (F.a.val)) (F.f3.val / 4 == 1) F.d)
    | _ => .error .reservedForm
  | 15 =>
    match F.f3.val with
    | 2 | 6 => guardField (F.a.val / 4 = 0) <| withCode (CvtWidth.ofCode (F.a.val % 4)) fun w => .ok (.vwcvt F.g F.b w (F.f3.val / 4 == 1) F.d)
    | _ => .error .reservedForm
  | 16 =>
    match F.f3.val with
    | 2 => withCode (RedOp.ofCode (F.a.val)) fun o => .ok (.vredi F.g F.b o F.d)
    | _ => .error .reservedForm
  | 17 =>
    match F.f3.val with
    | 1 => .ok (.vslupVx F.g F.b F.a F.d)
    | 2 => .ok (.vslupVi F.g F.b (BitVec.ofNat 5 (F.a.val)) F.d)
    | _ => .error .reservedForm
  | 18 =>
    match F.f3.val with
    | 1 => .ok (.vsldnVx F.g F.b F.a F.d)
    | 2 => .ok (.vsldnVi F.g F.b (BitVec.ofNat 5 (F.a.val)) F.d)
    | _ => .error .reservedForm
  | 19 =>
    match F.f3.val with
    | 0 => .ok (.vperm F.g F.b F.a F.d)
    | _ => .error .reservedForm
  | 20 =>
    match F.f3.val with
    | 2 => guardField (F.a.val / 8 = 0) <| .ok (.vcmpr F.g F.b (Fin.ofNat 8 (F.a.val % 8)) F.d)
    | _ => .error .reservedForm
  | 21 =>
    match F.f3.val with
    | 2 => guardField (F.a.val / 8 = 0) <| .ok (.vxpnd F.g F.b (Fin.ofNat 8 (F.a.val % 8)) F.d)
    | _ => .error .reservedForm
  | 22 =>
    match F.f3.val with
    | 2 => guardField (F.b.val = 0 ∧ F.a.val / 8 = 0) <| .ok (.viota F.g (Fin.ofNat 8 (F.a.val % 8)) F.d)
    | _ => .error .reservedForm
  | 23 =>
    match F.f3.val with
    | 1 => guardField (F.b.val = 0) <| .ok (.vbcstVx F.g F.a F.d)
    | 2 => guardField (F.b.val = 0) <| .ok (.vbcstVi F.g (BitVec.ofNat 5 (F.a.val)) F.d)
    | _ => .error .reservedForm
  | 24 =>
    match F.f3.val with
    | 0 | 4 => guardField (F.g.val = 0 ∧ F.a.val = 0) <| .ok (.vmvxs F.b (F.f3.val / 4 == 1) F.d)
    | _ => .error .reservedForm
  | 25 =>
    match F.f3.val with
    | 1 => guardField (F.g.val = 0 ∧ F.b.val = 0) <| .ok (.vmvsx F.a F.d)
    | _ => .error .reservedForm
  | 26 =>
    match F.f3.val with
    | 0 | 4 => .ok (.vscan F.g F.b F.a (F.f3.val / 4 == 1) F.d)
    | _ => .error .reservedForm
  | 27 => guardField (F.b.val / 8 = 0 ∧ F.a.val / 8 = 0 ∧ F.d.val / 8 = 0) <| withCode (PLogOp.ofCode (F.f3.val)) fun f => .ok (.plog F.g (Fin.ofNat 8 (F.b.val % 8)) (Fin.ofNat 8 (F.a.val % 8)) f (Fin.ofNat 8 (F.d.val % 8)))
  | 28 =>
    match F.f3.val with
    | 0 | 1 => guardField (F.b.val = 0 ∧ F.a.val / 8 = 0 ∧ F.d.val / 8 = 0) <| .ok (.pbrk F.g (Fin.ofNat 8 (F.a.val % 8)) (F.f3.val % 2 == 1) (Fin.ofNat 8 (F.d.val % 8)))
    | _ => .error .reservedForm
  | 29 =>
    match F.f3.val with
    | 0 => guardField (F.b.val = 0 ∧ F.a.val / 8 = 0) <| .ok (.pcnt F.g (Fin.ofNat 8 (F.a.val % 8)) F.d)
    | 1 => guardField (F.b.val = 0 ∧ F.a.val / 8 = 0) <| .ok (.pfirst F.g (Fin.ofNat 8 (F.a.val % 8)) F.d)
    | _ => .error .reservedForm
  | 30 => guardField (F.b.val = 0 ∧ F.d.val / 8 = 0) <| withCode (PSetOp.ofCode (F.f3.val)) fun f => .ok (.pset F.g F.a f (Fin.ofNat 8 (F.d.val % 8)))
  | 31 =>
    match F.f3.val with
    | 0 => guardField (F.b.val = 0 ∧ F.a.val / 8 = 0) <| .ok (.pmovToVector F.g (Fin.ofNat 8 (F.a.val % 8)) F.d)
    | 1 => guardField (F.a.val = 0 ∧ F.d.val / 8 = 0) <| .ok (.pmovToPredicate F.g F.b (Fin.ofNat 8 (F.d.val % 8)))
    | _ => .error .reservedForm
  | _ => .error .reservedOperation

/-- The map of custom-1 (spec/05 R83, Table 5-4). -/
def decodeCustom1 (F : Fields) : Except DecodeErr Instr :=
  if F.f3.val = 7 then .ok (.vsetvli (BitVec.ofNat 12 F.hi12) F.a F.d) else
  match F.op.val with
  | 0 =>
    match F.f3.val with
    | 0 => .ok (.vfaddVv F.g F.b F.a F.d)
    | 1 => .ok (.vfaddVf F.g F.b F.a F.d)
    | 2 => .ok (.vfaddVx F.g F.b F.a F.d)
    | _ => .error .reservedForm
  | 1 =>
    match F.f3.val with
    | 0 => .ok (.vfsubVv F.g F.b F.a F.d)
    | 1 => .ok (.vfsubVf F.g F.b F.a F.d)
    | 2 => .ok (.vfsubVx F.g F.b F.a F.d)
    | _ => .error .reservedForm
  | 2 =>
    match F.f3.val with
    | 0 => .ok (.vfmulVv F.g F.b F.a F.d)
    | 1 => .ok (.vfmulVf F.g F.b F.a F.d)
    | 2 => .ok (.vfmulVx F.g F.b F.a F.d)
    | _ => .error .reservedForm
  | 3 =>
    match F.f3.val with
    | 0 | 4 => .ok (.vfmaVv F.g F.b F.a (F.f3.val / 4 == 1) F.d)
    | 1 | 5 => .ok (.vfmaVf F.g F.b F.a (F.f3.val / 4 == 1) F.d)
    | 2 | 6 => .ok (.vfmaVx F.g F.b F.a (F.f3.val / 4 == 1) F.d)
    | _ => .error .reservedForm
  | 4 =>
    match F.f3.val with
    | 0 => .ok (.vfminVv F.g F.b F.a F.d)
    | 1 => .ok (.vfminVf F.g F.b F.a F.d)
    | 2 => .ok (.vfminVx F.g F.b F.a F.d)
    | _ => .error .reservedForm
  | 5 =>
    match F.f3.val with
    | 0 => .ok (.vfmaxVv F.g F.b F.a F.d)
    | 1 => .ok (.vfmaxVf F.g F.b F.a F.d)
    | 2 => .ok (.vfmaxVx F.g F.b F.a F.d)
    | _ => .error .reservedForm
  | 6 =>
    match F.f3.val with
    | 0 => .ok (.vfdivVv F.g F.b F.a F.d)
    | 1 => .ok (.vfdivVf F.g F.b F.a F.d)
    | 2 => .ok (.vfdivVx F.g F.b F.a F.d)
    | _ => .error .reservedForm
  | 7 =>
    match F.f3.val with
    | 0 => guardField (F.a.val = 0) <| .ok (.vfsqrt F.g F.b F.d)
    | _ => .error .reservedForm
  | 8 =>
    match F.f3.val with
    | 0 => guardField (F.a.val = 0) <| .ok (.vfrsqe F.g F.b F.d)
    | _ => .error .reservedForm
  | 9 =>
    match F.f3.val with
    | 0 => guardField (F.a.val = 0) <| .ok (.vfexp2e F.g F.b F.d)
    | _ => .error .reservedForm
  | 10 =>
    match F.f3.val with
    | 0 => withCode (FCmpCond.ofCode (F.d.val / 8)) fun c => .ok (.vfcmpVv F.g F.b F.a c (Fin.ofNat 8 (F.d.val % 8)))
    | 1 => withCode (FCmpCond.ofCode (F.d.val / 8)) fun c => .ok (.vfcmpVf F.g F.b F.a c (Fin.ofNat 8 (F.d.val % 8)))
    | 2 => withCode (FCmpCond.ofCode (F.d.val / 8)) fun c => .ok (.vfcmpVx F.g F.b F.a c (Fin.ofNat 8 (F.d.val % 8)))
    | _ => .error .reservedForm
  | 11 =>
    match F.f3.val with
    | 0 => withCode (SgnMode.ofCode (F.a.val)) fun m => .ok (.vfsgn F.g F.b m F.d)
    | _ => .error .reservedForm
  | 12 => withCode (Fmt.ofTarget (F.a.val)) fun t => withCode (RndCode.ofCode (F.f3.val)) fun r => .ok (.vfcvt F.g F.b t r F.d)
  | 13 => withCode (FRedOp.ofCode (F.a.val)) fun o => withCode (RndCode.ofCode (F.f3.val)) fun r => guardField (o = .sum ∨ r = .rne) <| .ok (.vredf F.g F.b o r F.d)
  | 14 =>
    match F.f3.val with
    | 0 => guardField (F.g.val = 0 ∧ F.a.val = 0) <| .ok (.vtagg F.b F.d)
    | _ => .error .reservedForm
  | 15 =>
    match F.f3.val with
    | 2 => guardField (F.g.val = 0 ∧ F.b.val = 0) <| .ok (.vtags F.a F.d)
    | _ => .error .reservedForm
  | 16 =>
    match F.f3.val with
    | 0 => guardField (F.g.val = 0) <| .ok (.vsetvl F.b F.a F.d)
    | _ => .error .reservedForm
  | _ => .error .reservedOperation

/-- The map of custom-2 (spec/05 R85, Table 5-5). -/
def decodeCustom2 (F : Fields) : Except DecodeErr Instr :=
  match F.op.val with
  | 0 =>
    match F.f3.val with
    | 0 | 1 | 4 | 5 => guardField (F.b.val = 0) <| .ok (.vld F.g F.a (F.f3.val / 4 == 1) (F.f3.val % 2 == 1) F.d)
    | _ => .error .reservedForm
  | 1 =>
    match F.f3.val with
    | 0 | 1 | 4 | 5 => .ok (.vlds F.g F.b F.a (F.f3.val / 4 == 1) (F.f3.val % 2 == 1) F.d)
    | _ => .error .reservedForm
  | 2 =>
    match F.f3.val with
    | 0 | 2 | 4 | 6 => .ok (.vldx F.g F.b F.a (F.f3.val / 4 == 1) (F.f3.val / 2 % 2 == 1) F.d)
    | _ => .error .reservedForm
  | 3 =>
    match F.f3.val with
    | 0 => guardField (F.g.val = 0) <| .ok (.vldsr F.b F.a F.d)
    | _ => .error .reservedForm
  | 4 =>
    match F.f3.val with
    | 0 | 1 => guardField (F.b.val = 0) <| .ok (.vst F.g F.a (F.f3.val % 2 == 1) F.d)
    | _ => .error .reservedForm
  | 5 =>
    match F.f3.val with
    | 0 | 1 => .ok (.vsts F.g F.b F.a (F.f3.val % 2 == 1) F.d)
    | _ => .error .reservedForm
  | 6 =>
    match F.f3.val with
    | 0 | 2 => .ok (.vstx F.g F.b F.a (F.f3.val / 2 % 2 == 1) F.d)
    | _ => .error .reservedForm
  | 7 => withCode (VAmoOp.ofCode (F.f3.val)) fun o => .ok (.vamo F.g F.b F.a o F.d)
  | 8 => withCode (VRedOp.ofCode (F.f3.val)) fun o => .ok (.vred F.g F.b F.a o F.d)
  | 9 =>
    match F.f3.val with
    | 0 | 2 => guardField (F.g.val = 0) <| .ok (.cpy F.b F.a (F.f3.val / 2 % 2 == 1) F.d)
    | 1 | 3 | 5 | 7 => guardField (F.g.val = 0) <| .ok (.cpys F.b F.a (F.f3.val / 4 == 1) (F.f3.val / 2 % 2 == 1) F.d)
    | _ => .error .reservedForm
  | 10 =>
    match F.f3.val with
    | 0 => guardField (F.g.val = 0 ∧ F.b.val = 0 ∧ F.a.val = 0 ∧ F.d.val = 0) <| .ok .cpyw
    | _ => .error .reservedForm
  | 11 =>
    match F.f3.val with
    | 0 => guardField (F.g.val = 0 ∧ F.b.val / 16 = 0 ∧ F.d.val = 0) <| .ok (.sqcmd (Fin.ofNat 16 (F.b.val % 16)) F.a)
    | _ => .error .reservedForm
  | 12 =>
    match F.f3.val with
    | 0 => guardField (F.g.val = 0 ∧ F.b.val / 16 = 0 ∧ F.a.val = 0) <| .ok (.sqwait (Fin.ofNat 16 (F.b.val % 16)) F.d)
    | _ => .error .reservedForm
  | _ => .error .reservedOperation

/-- The matrix map of custom-3, F3 = 000 (spec/05 R86, Table 5-6). -/
def decodeMatrix (F : Fields) : Except DecodeErr Instr :=
  match F.hi12 / 512 with
  | 0 => withCode (finOf 6 (F.hi12 / 64 % 8)) fun x => withCode (finOf 6 (F.hi12 / 8 % 8)) fun y => .ok (.mma x y (Fin.ofNat 8 (F.b.val % 8)) F.a F.d)
  | 1 => guardField (F.a.val / 8 = 0) <| withCode (finOf 6 (F.hi12 / 64 % 8)) fun x => withCode (finOf 6 (F.hi12 / 8 % 8)) fun y => .ok (.mmaTile x y (Fin.ofNat 8 (F.b.val % 8)) (Fin.ofNat 8 (F.a.val % 8)) F.d)
  | 2 => withCode (finOf 6 (F.hi12 / 64 % 8)) fun x => withCode (finOf 6 (F.hi12 / 8 % 8)) fun y => .ok (.mmas x y (Fin.ofNat 8 (F.b.val % 8)) F.a F.d)
  | 3 => guardField (F.a.val / 8 = 0) <| withCode (finOf 6 (F.hi12 / 64 % 8)) fun x => withCode (finOf 6 (F.hi12 / 8 % 8)) fun y => .ok (.mmasTile x y (Fin.ofNat 8 (F.b.val % 8)) (Fin.ofNat 8 (F.a.val % 8)) F.d)
  | 4 => guardField (F.hi12 / 64 % 8 = 0 ∧ F.hi12 / 8 % 8 = 0 ∧ F.a.val = 0 ∧ F.d.val = 0) <| .ok (.mzero (Fin.ofNat 8 (F.b.val % 8)))
  | 5 => guardField (F.hi12 / 8 % 8 = 0) <| withCode (finOf 6 (F.hi12 / 64 % 8)) fun x => .ok (.mrda x (Fin.ofNat 8 (F.b.val % 8)) F.a F.d)
  | 6 => guardField (F.hi12 / 8 % 8 = 0) <| withCode (finOf 6 (F.hi12 / 64 % 8)) fun x => .ok (.mwra x (Fin.ofNat 8 (F.b.val % 8)) F.a F.d)
  | 7 => guardField (F.hi12 / 64 % 8 = 0 ∧ F.hi12 / 8 % 8 = 0 ∧ F.d.val = 0) <| .ok (.mtcw (Fin.ofNat 8 (F.b.val % 8)) F.a)
  | _ => .error .reservedOperation

/-- The S-format map of custom-3 (spec/05 R87, Table 5-7). -/
def decodeS (F : Fields) : Except DecodeErr Instr :=
  match F.f3.val with
  | 1 =>
    match F.f7 with
    | 0 => guardField (F.b.val / 4 = 0 ∧ F.d.val = 0) <| .ok (.chcfg (Fin.ofNat 4 (F.b.val % 4)) F.a)
    | 1 => guardField (F.b.val / 4 = 0 ∧ F.d.val = 0) <| .ok (.chaim (Fin.ofNat 4 (F.b.val % 4)) F.a)
    | 2 => guardField (F.b.val / 4 = 0 ∧ F.d.val = 0) <| .ok (.chrun (Fin.ofNat 4 (F.b.val % 4)) F.a)
    | 3 => guardField (F.b.val / 4 = 0 ∧ F.a.val = 0) <| .ok (.chwait (Fin.ofNat 4 (F.b.val % 4)) F.d)
    | 4 => guardField (F.b.val / 4 = 0 ∧ F.a.val = 0) <| .ok (.chst (Fin.ofNat 4 (F.b.val % 4)) F.d)
    | 5 => guardField (F.b.val / 4 = 0 ∧ F.a.val = 0 ∧ F.d.val = 0) <| .ok (.chdrn (Fin.ofNat 4 (F.b.val % 4)))
    | 6 => guardField (F.b.val / 4 = 0 ∧ F.a.val = 0 ∧ F.d.val = 0) <| .ok (.chbrk (Fin.ofNat 4 (F.b.val % 4)))
    | 7 => guardField (F.b.val / 4 = 0 ∧ F.d.val = 0) <| .ok (.chsav (Fin.ofNat 4 (F.b.val % 4)) F.a)
    | 8 => guardField (F.b.val / 4 = 0 ∧ F.d.val = 0) <| .ok (.chld (Fin.ofNat 4 (F.b.val % 4)) F.a)
    | 16 => guardField (F.b.val / 16 = 0 ∧ F.d.val = 0) <| .ok (.qpush (Fin.ofNat 16 (F.b.val % 16)) F.a)
    | 17 => guardField (F.b.val / 16 = 0 ∧ F.a.val = 0) <| .ok (.qpop (Fin.ofNat 16 (F.b.val % 16)) F.d)
    | 18 => guardField (F.b.val / 16 = 0 ∧ F.a.val = 0) <| .ok (.qpeek (Fin.ofNat 16 (F.b.val % 16)) F.d)
    | 19 => guardField (F.b.val / 16 = 0 ∧ F.a.val = 0) <| .ok (.qstat (Fin.ofNat 16 (F.b.val % 16)) F.d)
    | _ => .error .reservedOperation
  | 2 =>
    match F.f7 with
    | 0 => withCode (Scope.ofCode (F.b.val / 4)) fun s => withCode (AcqMode.ofCode (F.b.val % 4)) fun m => .ok (.acq s m F.a F.d)
    | 1 => guardField (F.b.val % 4 = 0 ∧ F.d.val = 0) <| withCode (Scope.ofCode (F.b.val / 4)) fun s => .ok (.rel s F.a)
    | 2 => .ok (.bindr F.b F.a F.d)
    | 3 => guardField (F.b.val = 0 ∧ F.d.val = 0) <| .ok (.unbindr F.a)
    | 4 => guardField (F.a.val = 0 ∧ F.d.val = 0) <| withCode (Scope.ofCode (F.b.val / 4)) fun s => withCode (FenceKind.ofCode (F.b.val % 4)) fun k => .ok (.fencex s k)
    | 5 => guardField (F.b.val / 4 = 0 ∧ F.d.val = 0) <| .ok (.bari (Fin.ofNat 4 (F.b.val % 4)) F.a)
    | 6 => guardField (F.b.val / 8 = 0 ∧ F.a.val = 0) <| .ok (.bara (F.b.val / 4 % 2 == 1) (Fin.ofNat 4 (F.b.val % 4)) F.d)
    | 7 => guardField (F.b.val / 8 = 0 ∧ F.d.val = 0) <| .ok (.barw (F.b.val / 4 % 2 == 1) (Fin.ofNat 4 (F.b.val % 4)) F.a)
    | 8 => guardField (F.b.val / 8 = 0 ∧ F.a.val = 0) <| .ok (.baraw (F.b.val / 4 % 2 == 1) (Fin.ofNat 4 (F.b.val % 4)) F.d)
    | 9 => guardField (F.b.val = 0 ∧ F.d.val = 0) <| .ok (.monarm F.a)
    | 10 => guardField (F.b.val = 0) <| .ok (.mwait F.a F.d)
    | 11 => guardField (F.b.val / 2 = 0 ∧ F.a.val = 0 ∧ F.d.val = 0) <| .ok (.bfence (F.b.val % 2 == 1))
    | _ => .error .reservedOperation
  | 3 =>
    match F.f7 with
    | 0 => guardField (F.b.val = 0 ∧ F.d.val = 0) <| .ok (.futinit F.a)
    | 1 => .ok (.futrd F.b F.a F.d)
    | 2 => guardField (F.d.val = 0) <| .ok (.futwr F.b F.a)
    | 3 => guardField (F.b.val = 0) <| .ok (.futqry F.a F.d)
    | 4 => guardField (F.b.val = 0 ∧ F.d.val = 0) <| .ok (.tspawn F.a)
    | 5 => guardField (F.b.val / 2 = 0 ∧ F.a.val = 0) <| .ok (.tnext (F.b.val % 2 == 1) F.d)
    | 6 => guardField (F.b.val = 0 ∧ F.d.val = 0) <| .ok (.msgring F.a)
    | 7 => .ok (.msgsnd F.b F.a F.d)
    | 8 => .ok (.msgrcv F.b F.a F.d)
    | 9 => guardField (F.b.val / 4 = 0 ∧ F.d.val = 0) <| .ok (.evqcfg (Fin.ofNat 4 (F.b.val % 4)) F.a)
    | 10 => guardField (F.b.val / 4 = 0 ∧ F.a.val = 0) <| .ok (.evqpop (Fin.ofNat 4 (F.b.val % 4)) F.d)
    | _ => .error .reservedOperation
  | 4 =>
    match F.f7 with
    | 0 => guardField (F.b.val = 0 ∧ F.d.val = 0) <| .ok (.bcmd F.a)
    | 1 => .ok (.bgax F.b F.a F.d)
    | 2 => guardField (F.d.val = 0) <| withCode (finOf 12 (F.b.val)) fun u => .ok (.pklcfg u F.a)
    | 3 => withCode (finOf 12 (F.b.val)) fun u => .ok (.pklq u F.a F.d)
    | 4 => guardField (F.b.val / 2 = 0) <| .ok (.pklget (F.b.val % 2 == 1) F.a F.d)
    | _ => .error .reservedOperation
  | 5 =>
    match F.f7 with
    | 0 => guardField (F.b.val / 4 = 0 ∧ F.a.val = 0 ∧ F.d.val = 0) <| .ok (.lpart (Fin.ofNat 4 (F.b.val % 4)))
    | 1 => guardField (F.b.val = 0 ∧ F.a.val = 0 ∧ F.d.val = 0) <| .ok .ctxsv
    | 2 => guardField (F.b.val = 0 ∧ F.a.val = 0 ∧ F.d.val = 0) <| .ok .ctxld
    | 3 => .ok (.tlbir F.b F.a F.d)
    | 4 => guardField (F.b.val = 0 ∧ F.a.val = 0 ∧ F.d.val = 0) <| .ok .tlbsync
    | 5 => guardField (F.b.val / 16 = 0 ∧ F.d.val = 0) <| .ok (.splp (Fin.ofNat 16 (F.b.val % 16)) F.a)
    | 6 => guardField (F.b.val / 16 = 0 ∧ F.a.val = 0) <| .ok (.splr (Fin.ofNat 16 (F.b.val % 16)) F.d)
    | _ => .error .reservedOperation
  | _ => .error .reservedForm

/-- The map of custom-3 (spec/05 R86, R87). -/
def decodeCustom3 (F : Fields) : Except DecodeErr Instr :=
  if F.f3.val = 0 then decodeMatrix F else decodeS F


/-! ### The base ISA (spec/05 R77, Table 5-1; spec/00 Table 0-1) -/

/-- The hint encodings of RV64I and Zihintpause: the operations on registers and immediates with rd = x0 (ADDI x0, x0, 0
is the no-op itself), and FENCE with fm = 0, an empty predecessor or successor set, and rd or rs1 = x0. -/
def isHint (F : Fields) : Bool :=
  let shOk := F.hi12 / 64 == 0
  let shOkA := F.hi12 / 64 == 0 || F.hi12 / 64 == 16
  let f7z := F.f7 == 0
  let f7za := F.f7 == 0 || F.f7 == 32
  if F.opc.val == 0x0F then
    F.f3.val == 0 && F.hi12 / 256 == 0 && (F.hi12 / 16 % 16 == 0 || F.hi12 % 16 == 0) && (F.d.val == 0 || F.a.val == 0)
  else F.d.val == 0 &&
    match F.opc.val with
    | 0x37 | 0x17 => true
    | 0x13 =>
      match F.f3.val with
      | 0 => !(F.a.val == 0 && F.hi12 == 0)
      | 1 => shOk
      | 5 => shOkA
      | _ => true
    | 0x1B =>
      match F.f3.val with
      | 0 => true
      | 1 => f7z
      | 5 => f7za
      | _ => false
    | 0x33 =>
      match F.f3.val with
      | 0 | 5 => f7za
      | _ => f7z
    | 0x3B =>
      match F.f3.val with
      | 0 | 5 => f7za
      | 1 => f7z
      | _ => false
    | _ => false

/-- A rounding field that is valid in an instruction word: 101 and 110 are reserved. -/
def rmOk (f : Fin 8) : Bool := f.val != 5 && f.val != 6

/-- A decoded base instruction. -/
def okB (b : BaseInstr) : Except DecodeErr Instr := .ok (.baseIsaInstruction b)

/-- Precision by the fmt field; H and Q are absent (Table 5-1). -/
def precOf (g : Fin 4) : Option FPrec := if g.val = 0 then some .s else if g.val = 1 then some .d else none

/-- LOAD, LOAD-FP. -/
def decodeLoad (F : Fields) (fp : Bool) : Except DecodeErr Instr :=
  let ok (k : LoadKind) : Except DecodeErr Instr := .ok (.scalarLoad k F.d F.a (BitVec.ofNat 12 F.hi12))
  if fp then
    match F.f3.val with
    | 2 => ok .flw | 3 => ok .fld | _ => .error .reservedForm
  else
    match F.f3.val with
    | 0 => ok .lb | 1 => ok .lh | 2 => ok .lw | 3 => ok .ld | 4 => ok .lbu | 5 => ok .lhu | 6 => ok .lwu
    | _ => .error .reservedForm

/-- STORE, STORE-FP. -/
def decodeStore (F : Fields) (fp : Bool) : Except DecodeErr Instr :=
  let ok (k : StoreKind) : Except DecodeErr Instr :=
    .ok (.scalarStore k F.b F.a (BitVec.ofNat 12 (F.f7 * 32 + F.d.val)))
  if fp then
    match F.f3.val with
    | 2 => ok .fsw | 3 => ok .fsd | _ => .error .reservedForm
  else
    match F.f3.val with
    | 0 => ok .sb | 1 => ok .sh | 2 => ok .sw | 3 => ok .sd | _ => .error .reservedForm

/-- MISC-MEM. -/
def decodeMiscMem (F : Fields) : Except DecodeErr Instr :=
  match F.f3.val with
  | 0 => .ok (.fence (BitVec.ofNat 4 (F.hi12 / 256)) (BitVec.ofNat 4 (F.hi12 / 16)) (BitVec.ofNat 4 F.hi12))
  | 1 => .ok .fenceI
  | _ => .error .reservedForm

/-- OP-IMM. -/
def decodeOpImm (F : Fields) : Except DecodeErr Instr :=
  let imm := BitVec.ofNat 12 F.hi12
  let sh := BitVec.ofNat 6 F.hi12
  match F.f3.val with
  | 0 => okB (.opImm .addi F.d F.a imm)
  | 1 =>
    if F.hi12 / 64 = 0 then okB (.shImm .slli F.d F.a sh)
    else match F.hi12 with
      | 0x600 => okB (.unary .clz F.d F.a)
      | 0x601 => okB (.unary .ctz F.d F.a)
      | 0x602 => okB (.unary .cpop F.d F.a)
      | 0x604 => okB (.unary .sextB F.d F.a)
      | 0x605 => okB (.unary .sextH F.d F.a)
      | _ => .error .reservedOperation
  | 2 => okB (.opImm .slti F.d F.a imm)
  | 3 => okB (.opImm .sltiu F.d F.a imm)
  | 4 => okB (.opImm .xori F.d F.a imm)
  | 5 =>
    if F.hi12 / 64 = 0 then okB (.shImm .srli F.d F.a sh)
    else if F.hi12 / 64 = 16 then okB (.shImm .srai F.d F.a sh)
    else if F.hi12 / 64 = 24 then okB (.shImm .rori F.d F.a sh)
    else if F.hi12 = 0x287 then okB (.unary .orcB F.d F.a)
    else if F.hi12 = 0x6B8 then okB (.unary .rev8 F.d F.a)
    else .error .reservedOperation
  | 6 => okB (.opImm .ori F.d F.a imm)
  | _ => okB (.opImm .andi F.d F.a imm)

/-- OP-IMM-32. -/
def decodeOpImmW (F : Fields) : Except DecodeErr Instr :=
  let sh := BitVec.ofNat 5 F.b.val
  match F.f3.val with
  | 0 => okB (.addiw F.d F.a (BitVec.ofNat 12 F.hi12))
  | 1 =>
    if F.f7 = 0 then okB (.shImmW .slliw F.d F.a sh)
    else if F.hi12 / 64 = 2 then okB (.shImm .slliUw F.d F.a (BitVec.ofNat 6 F.hi12))
    else match F.hi12 with
      | 0x600 => okB (.unary .clzw F.d F.a)
      | 0x601 => okB (.unary .ctzw F.d F.a)
      | 0x602 => okB (.unary .cpopw F.d F.a)
      | _ => .error .reservedOperation
  | 5 =>
    if F.f7 = 0 then okB (.shImmW .srliw F.d F.a sh)
    else if F.f7 = 32 then okB (.shImmW .sraiw F.d F.a sh)
    else if F.f7 = 48 then okB (.shImmW .roriw F.d F.a sh)
    else .error .reservedOperation
  | _ => .error .reservedForm

/-- The operation of an OP word, from funct7 and funct3. -/
def regOpOf (f7 f3 : Nat) : Option RegOp :=
  match f7 with
  | 0 =>
    match f3 with
    | 0 => some .add | 1 => some .sll | 2 => some .slt | 3 => some .sltu | 4 => some .xor | 5 => some .srl
    | 6 => some .or | 7 => some .and | _ => none
  | 1 =>
    match f3 with
    | 0 => some .mul | 1 => some .mulh | 2 => some .mulhsu | 3 => some .mulhu | 4 => some .div | 5 => some .divu
    | 6 => some .rem | 7 => some .remu | _ => none
  | 5 =>
    match f3 with
    | 4 => some .min | 5 => some .minu | 6 => some .max | 7 => some .maxu | _ => none
  | 16 =>
    match f3 with
    | 2 => some .sh1add | 4 => some .sh2add | 6 => some .sh3add | _ => none
  | 32 =>
    match f3 with
    | 0 => some .sub | 4 => some .xnor | 5 => some .sra | 6 => some .orn | 7 => some .andn | _ => none
  | 48 =>
    match f3 with
    | 1 => some .rol | 5 => some .ror | _ => none
  | _ => none

/-- funct7 and funct3 of an OP operation. -/
def regOpCode : RegOp → Nat × Fin 8
  | .add => (0, 0) | .sll => (0, 1) | .slt => (0, 2) | .sltu => (0, 3) | .xor => (0, 4) | .srl => (0, 5)
  | .or => (0, 6) | .and => (0, 7)
  | .mul => (1, 0) | .mulh => (1, 1) | .mulhsu => (1, 2) | .mulhu => (1, 3) | .div => (1, 4) | .divu => (1, 5)
  | .rem => (1, 6) | .remu => (1, 7)
  | .min => (5, 4) | .minu => (5, 5) | .max => (5, 6) | .maxu => (5, 7)
  | .sh1add => (16, 2) | .sh2add => (16, 4) | .sh3add => (16, 6)
  | .sub => (32, 0) | .xnor => (32, 4) | .sra => (32, 5) | .orn => (32, 6) | .andn => (32, 7)
  | .rol => (48, 1) | .ror => (48, 5)

/-- The operation of an OP-32 word, from funct7 and funct3. -/
def regWOpOf (f7 f3 : Nat) : Option RegWOp :=
  match f7 with
  | 0 =>
    match f3 with
    | 0 => some .addw | 1 => some .sllw | 5 => some .srlw | _ => none
  | 1 =>
    match f3 with
    | 0 => some .mulw | 4 => some .divw | 5 => some .divuw | 6 => some .remw | 7 => some .remuw | _ => none
  | 4 =>
    match f3 with
    | 0 => some .addUw | _ => none
  | 16 =>
    match f3 with
    | 2 => some .sh1addUw | 4 => some .sh2addUw | 6 => some .sh3addUw | _ => none
  | 32 =>
    match f3 with
    | 0 => some .subw | 5 => some .sraw | _ => none
  | 48 =>
    match f3 with
    | 1 => some .rolw | 5 => some .rorw | _ => none
  | _ => none

/-- funct7 and funct3 of an OP-32 operation. -/
def regWOpCode : RegWOp → Nat × Fin 8
  | .addw => (0, 0) | .sllw => (0, 1) | .srlw => (0, 5)
  | .mulw => (1, 0) | .divw => (1, 4) | .divuw => (1, 5) | .remw => (1, 6) | .remuw => (1, 7)
  | .addUw => (4, 0) | .sh1addUw => (16, 2) | .sh2addUw => (16, 4) | .sh3addUw => (16, 6)
  | .subw => (32, 0) | .sraw => (32, 5) | .rolw => (48, 1) | .rorw => (48, 5)

/-- OP-32. -/
def decodeOpW (F : Fields) : Except DecodeErr Instr :=
  if F.f7 = 4 ∧ F.f3.val = 4 then guardField (F.b.val = 0) (okB (.unary .zextH F.d F.a))
  else match regWOpOf F.f7 F.f3.val with
    | some o => okB (.opW o F.d F.a F.b)
    | none => .error .reservedOperation

/-- BRANCH; the immediate is the offset's bits [12:1]. -/
def decodeBranch (F : Fields) : Except DecodeErr Instr :=
  let imm := BitVec.ofNat 12 (F.f7 / 64 * 2048 + F.d.val % 2 * 1024 + F.f7 % 64 * 16 + F.d.val / 2)
  match F.f3.val with
  | 0 => okB (.branch .beq F.a F.b imm)
  | 1 => okB (.branch .bne F.a F.b imm)
  | 4 => okB (.branch .blt F.a F.b imm)
  | 5 => okB (.branch .bge F.a F.b imm)
  | 6 => okB (.branch .bltu F.a F.b imm)
  | 7 => okB (.branch .bgeu F.a F.b imm)
  | _ => .error .reservedForm

/-- The operation of an AMO word, from funct5. -/
def amoOpOf : Nat → Option AmoOp
  | 0 => some .add | 1 => some .swap | 4 => some .xor | 8 => some .or | 12 => some .and
  | 16 => some .min | 20 => some .max | 24 => some .minu | 28 => some .maxu | _ => none

/-- funct5 of an AMO operation. -/
def amoOpCode : AmoOp → Fin 32
  | .add => 0 | .swap => 1 | .xor => 4 | .or => 8 | .and => 12 | .min => 16 | .max => 20 | .minu => 24 | .maxu => 28

/-- AMO; funct3 must be 010 or 011 (Table 5-1). -/
def decodeAmo (F : Fields) : Except DecodeErr Instr :=
  let dbl := F.f3.val == 3
  let aq := F.g.val / 2 == 1
  let rl := F.g.val % 2 == 1
  if F.f3.val = 2 ∨ F.f3.val = 3 then
    if F.op.val = 2 then guardField (F.b.val = 0) (.ok (.lr dbl aq rl F.d F.a))
    else if F.op.val = 3 then .ok (.sc dbl aq rl F.d F.a F.b)
    else match amoOpOf F.op.val with
      | some o => .ok (.scalarAmo o dbl aq rl F.d F.a F.b)
      | none => .error .reservedOperation
  else .error .reservedForm

/-- The fused multiply-add opcodes. -/
def decodeFma (F : Fields) (o : FmaOp) : Except DecodeErr Instr :=
  withCode (precOf F.g) fun p => guardField (rmOk F.f3 = true) <|
    okB (.fma o p F.d F.a F.b F.op (BitVec.ofFin F.f3))

/-- An integer type from rs2. -/
def fIntOf : Nat → Option FIntTy
  | 0 => some .w | 1 => some .wu | 2 => some .l | 3 => some .lu | _ => none

/-- rs2 of an integer type. -/
def fIntCode : FIntTy → Fin 32
  | .w => 0 | .wu => 1 | .l => 2 | .lu => 3

/-- OP-FP. -/
def decodeOpFp (F : Fields) : Except DecodeErr Instr :=
  withCode (precOf F.g) fun p =>
    let rm : FRm := BitVec.ofFin F.f3
    let arith (o : FArithOp) := guardField (rmOk F.f3 = true) (okB (.farith o p F.d F.a F.b rm))
    let misc (o : FMiscOp) := okB (.fmisc o p F.d F.a F.b)
    match F.op.val with
    | 0 => arith .add
    | 1 => arith .sub
    | 2 => arith .mul
    | 3 => arith .div
    | 11 => guardField (F.b.val = 0 ∧ rmOk F.f3 = true) (okB (.fsqrt p F.d F.a rm))
    | 4 =>
      match F.f3.val with
      | 0 => misc .sgnj | 1 => misc .sgnjn | 2 => misc .sgnjx | _ => .error .reservedForm
    | 5 =>
      match F.f3.val with
      | 0 => misc .min | 1 => misc .max | _ => .error .reservedForm
    | 8 =>
      guardField (F.b.val = (match p with | .s => 1 | .d => 0) ∧ rmOk F.f3 = true) (okB (.fcvtFF p F.d F.a rm))
    | 20 =>
      match F.f3.val with
      | 0 => okB (.fcmp .le p F.d F.a F.b)
      | 1 => okB (.fcmp .lt p F.d F.a F.b)
      | 2 => okB (.fcmp .eq p F.d F.a F.b)
      | _ => .error .reservedForm
    | 24 => withCode (fIntOf F.b.val) fun t => guardField (rmOk F.f3 = true) (okB (.fcvtToInt t p F.d F.a rm))
    | 26 => withCode (fIntOf F.b.val) fun t => guardField (rmOk F.f3 = true) (okB (.fcvtFromInt t p F.d F.a rm))
    | 28 =>
      guardField (F.b.val = 0) <|
        match F.f3.val with
        | 0 => okB (.fmvToX p F.d F.a) | 1 => okB (.fclass p F.d F.a) | _ => .error .reservedForm
    | 30 => guardField (F.b.val = 0 ∧ F.f3.val = 0) (okB (.fmvFromX p F.d F.a))
    | _ => .error .reservedOperation

/-- SYSTEM. Hypervisor instructions are illegal (Table 5-1), and so is DRET outside debug mode. -/
def decodeSystem (F : Fields) : Except DecodeErr Instr :=
  let csr (o : CsrOp) (imm : Bool) : Except DecodeErr Instr :=
    .ok (.csrAccess o imm (BitVec.ofNat 12 F.hi12) F.d F.a)
  match F.f3.val with
  | 0 =>
    guardField (F.d.val = 0) <|
      if F.f7 = 9 then .ok (.sfenceVma F.a F.b)
      else guardField (F.a.val = 0) <|
        match F.hi12 with
        | 0 => .ok .ecall
        | 1 => okB .ebreak
        | 0x102 => okB .sret
        | 0x302 => okB .mret
        | 0x105 => okB .wfi
        | _ => .error .reservedOperation
  | 1 => csr .rw false
  | 2 => csr .rs false
  | 3 => csr .rc false
  | 5 => csr .rw true
  | 6 => csr .rs true
  | 7 => csr .rc true
  | _ => .error .reservedForm

/-- The instruction that the fields of a word encode. -/
def decodeFields (F : Fields) : Except DecodeErr Instr :=
  if F.opc.val % 4 ≠ 3 ∨ F.opc.val / 4 % 8 = 7 then .error .badLength
  else if isHint F then .ok (.hint (pack F))
  else match F.opc.val with
    | 0x03 => decodeLoad F false
    | 0x07 => decodeLoad F true
    | 0x0B => decodeCustom0 F
    | 0x0F => decodeMiscMem F
    | 0x13 => decodeOpImm F
    | 0x17 => okB (.auipc F.d (BitVec.ofNat 20 F.hi20))
    | 0x1B => decodeOpImmW F
    | 0x23 => decodeStore F false
    | 0x27 => decodeStore F true
    | 0x2B => decodeCustom1 F
    | 0x2F => decodeAmo F
    | 0x33 =>
      match regOpOf F.f7 F.f3.val with
      | some o => okB (.op o F.d F.a F.b)
      | none => .error .reservedOperation
    | 0x37 => okB (.lui F.d (BitVec.ofNat 20 F.hi20))
    | 0x3B => decodeOpW F
    | 0x43 => decodeFma F .madd
    | 0x47 => decodeFma F .msub
    | 0x4B => decodeFma F .nmsub
    | 0x4F => decodeFma F .nmadd
    | 0x53 => decodeOpFp F
    | 0x5B => decodeCustom2 F
    | 0x63 => decodeBranch F
    | 0x67 => if F.f3.val = 0 then okB (.jalr F.d F.a (BitVec.ofNat 12 F.hi12)) else .error .reservedForm
    | 0x6F =>
      okB (.jal F.d (BitVec.ofNat 20
        (F.hi20 / 2 ^ 19 * 2 ^ 19 + F.hi20 % 256 * 2048 + F.hi20 / 256 % 2 * 1024 + F.hi20 / 512 % 1024)))
    | 0x73 => decodeSystem F
    | 0x7B => decodeCustom3 F
    | _ => .error .unknownOpcode

/-- The instruction a word encodes, or why it encodes none (spec/05 R76 to R88). -/
def decode (w : IWord) : Except DecodeErr Instr := decodeFields (unpack w)

/-- What the decoder reads from an instruction whose bits are `w`, numbered as spec/opcode_table.json numbers them. Every
instruction is one 32-bit word, so `nbits` above 32 or a `w` that does not fit gives none. -/
def decodeTableWord (nbits w : Nat) : Option Instr :=
  if nbits ≤ 32 ∧ w < 2 ^ 32 then
    match decode (BitVec.ofNat 32 w) with
    | .ok i => some i
    | .error _ => none
  else none

/-! ### The encoder -/

/-- Fields of an OP-IMM operation. -/
def immOpF3 : ImmOp → Fin 8
  | .addi => 0 | .slti => 2 | .sltiu => 3 | .xori => 4 | .ori => 6 | .andi => 7

/-- Fields of a conditional branch. -/
def brOpF3 : BrOp → Fin 8
  | .beq => 0 | .bne => 1 | .blt => 4 | .bge => 5 | .bltu => 6 | .bgeu => 7

/-- The fmt field. -/
def precCode : FPrec → Fin 4
  | .s => 0 | .d => 1

/-- The fields of a base instruction. -/
def encodeBase : BaseInstr → Fields
  | .lui rd imm => mkHi20 0x37 imm.toNat rd
  | .auipc rd imm => mkHi20 0x17 imm.toNat rd
  | .jal rd imm =>
    let n := imm.toNat
    mkHi20 0x6F (n / 2 ^ 19 * 2 ^ 19 + n % 1024 * 512 + n / 1024 % 2 * 256 + n / 2048 % 256) rd
  | .jalr rd rs1 imm => mkHi 0x67 imm.toNat rs1 0 rd
  | .branch o rs1 rs2 imm =>
    let n := imm.toNat
    mkF7 0x63 (n / 2048 * 64 + n / 16 % 64) rs2 rs1 (brOpF3 o) (Fin.ofNat 32 (n % 16 * 2 + n / 1024 % 2))
  | .opImm o rd rs1 imm => mkHi 0x13 imm.toNat rs1 (immOpF3 o) rd
  | .shImm o rd rs1 sh =>
    match o with
    | .slli => mkHi 0x13 sh.toNat rs1 1 rd
    | .srli => mkHi 0x13 sh.toNat rs1 5 rd
    | .srai => mkHi 0x13 (16 * 64 + sh.toNat) rs1 5 rd
    | .rori => mkHi 0x13 (24 * 64 + sh.toNat) rs1 5 rd
    | .slliUw => mkHi 0x1B (2 * 64 + sh.toNat) rs1 1 rd
  | .addiw rd rs1 imm => mkHi 0x1B imm.toNat rs1 0 rd
  | .shImmW o rd rs1 sh =>
    match o with
    | .slliw => mkF7 0x1B 0 sh.toFin rs1 1 rd
    | .srliw => mkF7 0x1B 0 sh.toFin rs1 5 rd
    | .sraiw => mkF7 0x1B 32 sh.toFin rs1 5 rd
    | .roriw => mkF7 0x1B 48 sh.toFin rs1 5 rd
  | .op o rd rs1 rs2 => mkF7 0x33 (regOpCode o).1 rs2 rs1 (regOpCode o).2 rd
  | .opW o rd rs1 rs2 => mkF7 0x3B (regWOpCode o).1 rs2 rs1 (regWOpCode o).2 rd
  | .unary o rd rs1 =>
    match o with
    | .clz => mkHi 0x13 0x600 rs1 1 rd
    | .ctz => mkHi 0x13 0x601 rs1 1 rd
    | .cpop => mkHi 0x13 0x602 rs1 1 rd
    | .sextB => mkHi 0x13 0x604 rs1 1 rd
    | .sextH => mkHi 0x13 0x605 rs1 1 rd
    | .clzw => mkHi 0x1B 0x600 rs1 1 rd
    | .ctzw => mkHi 0x1B 0x601 rs1 1 rd
    | .cpopw => mkHi 0x1B 0x602 rs1 1 rd
    | .zextH => mkF7 0x3B 4 0 rs1 4 rd
    | .orcB => mkHi 0x13 0x287 rs1 5 rd
    | .rev8 => mkHi 0x13 0x6B8 rs1 5 rd
  | .fma o p rd rs1 rs2 rs3 rm =>
    ⟨match o with | .madd => 0x43 | .msub => 0x47 | .nmsub => 0x4B | .nmadd => 0x4F, rd, rm.toFin, rs1, rs2, precCode p, rs3⟩
  | .farith o p rd rs1 rs2 rm =>
    ⟨0x53, rd, rm.toFin, rs1, rs2, precCode p, match o with | .add => 0 | .sub => 1 | .mul => 2 | .div => 3⟩
  | .fsqrt p rd rs1 rm => ⟨0x53, rd, rm.toFin, rs1, 0, precCode p, 11⟩
  | .fmisc o p rd rs1 rs2 =>
    match o with
    | .sgnj => ⟨0x53, rd, 0, rs1, rs2, precCode p, 4⟩
    | .sgnjn => ⟨0x53, rd, 1, rs1, rs2, precCode p, 4⟩
    | .sgnjx => ⟨0x53, rd, 2, rs1, rs2, precCode p, 4⟩
    | .min => ⟨0x53, rd, 0, rs1, rs2, precCode p, 5⟩
    | .max => ⟨0x53, rd, 1, rs1, rs2, precCode p, 5⟩
  | .fcmp o p rd rs1 rs2 =>
    ⟨0x53, rd, match o with | .le => 0 | .lt => 1 | .eq => 2, rs1, rs2, precCode p, 20⟩
  | .fclass p rd rs1 => ⟨0x53, rd, 1, rs1, 0, precCode p, 28⟩
  | .fcvtToInt t p rd rs1 rm => ⟨0x53, rd, rm.toFin, rs1, fIntCode t, precCode p, 24⟩
  | .fcvtFromInt t p rd rs1 rm => ⟨0x53, rd, rm.toFin, rs1, fIntCode t, precCode p, 26⟩
  | .fcvtFF p rd rs1 rm => ⟨0x53, rd, rm.toFin, rs1, match p with | .s => 1 | .d => 0, precCode p, 8⟩
  | .fmvToX p rd rs1 => ⟨0x53, rd, 0, rs1, 0, precCode p, 28⟩
  | .fmvFromX p rd rs1 => ⟨0x53, rd, 0, rs1, 0, precCode p, 30⟩
  | .ebreak => mkHi 0x73 1 0 0 0
  | .mret => mkHi 0x73 0x302 0 0 0
  | .sret => mkHi 0x73 0x102 0 0 0
  | .wfi => mkHi 0x73 0x105 0 0 0

/-- LOAD or LOAD-FP and funct3. -/
def loadCode : LoadKind → Fin 128 × Fin 8
  | .lb => (0x03, 0) | .lh => (0x03, 1) | .lw => (0x03, 2) | .ld => (0x03, 3) | .lbu => (0x03, 4) | .lhu => (0x03, 5)
  | .lwu => (0x03, 6) | .flw => (0x07, 2) | .fld => (0x07, 3)

/-- STORE or STORE-FP and funct3. -/
def storeCode : StoreKind → Fin 128 × Fin 8
  | .sb => (0x23, 0) | .sh => (0x23, 1) | .sw => (0x23, 2) | .sd => (0x23, 3) | .fsw => (0x27, 2) | .fsd => (0x27, 3)

/-- funct3 of a CSR operation. -/
def csrCode (o : CsrOp) (imm : Bool) : Fin 8 :=
  match o, imm with
  | .rw, false => 1 | .rs, false => 2 | .rc, false => 3 | .rw, true => 5 | .rs, true => 6 | .rc, true => 7

/-- The AMO width and the aq and rl bits. -/
def amoF3 (dbl : Bool) : Fin 8 := if dbl then 3 else 2
/-- The aq and rl bits, [26:25]. -/
def aqrl (aq rl : Bool) : Fin 4 := Fin.ofNat 4 (aq.toNat * 2 + rl.toNat)

/-- The fields of an instruction's word; none for an event, which has no word, and for ILLEGAL_INSTRUCTION. -/
def encodeFields : Instr → Option Fields
  | .vaddVv g b a d => some (⟨11, d, 0, a, b, g, 0⟩)
  | .vaddVx g b a d => some (⟨11, d, 1, a, b, g, 0⟩)
  | .vaddVi g b a d => some (⟨11, d, 2, a.toFin, b, g, 0⟩)
  | .vsubVv g b a d => some (⟨11, d, 0, a, b, g, 1⟩)
  | .vsubVx g b a d => some (⟨11, d, 1, a, b, g, 1⟩)
  | .vsubVi g b a d => some (⟨11, d, 2, a.toFin, b, g, 1⟩)
  | .vmulVv g b a d => some (⟨11, d, 0, a, b, g, 2⟩)
  | .vmulVx g b a d => some (⟨11, d, 1, a, b, g, 2⟩)
  | .vmulVi g b a d => some (⟨11, d, 2, a.toFin, b, g, 2⟩)
  | .vmulhVv g b a u d => some (⟨11, d, Fin.ofNat _ (u.toNat * 4), a, b, g, 3⟩)
  | .vmulhVx g b a u d => some (⟨11, d, Fin.ofNat _ (u.toNat * 4 + 1), a, b, g, 3⟩)
  | .vmaccVv g b a d => some (⟨11, d, 0, a, b, g, 4⟩)
  | .vmaccVx g b a d => some (⟨11, d, 1, a, b, g, 4⟩)
  | .vmaccVi g b a d => some (⟨11, d, 2, a.toFin, b, g, 4⟩)
  | .vminVv g b a u d => some (⟨11, d, Fin.ofNat _ (u.toNat * 4), a, b, g, 5⟩)
  | .vminVx g b a u d => some (⟨11, d, Fin.ofNat _ (u.toNat * 4 + 1), a, b, g, 5⟩)
  | .vminVi g b a u d => some (⟨11, d, Fin.ofNat _ (u.toNat * 4 + 2), a.toFin, b, g, 5⟩)
  | .vmaxVv g b a u d => some (⟨11, d, Fin.ofNat _ (u.toNat * 4), a, b, g, 6⟩)
  | .vmaxVx g b a u d => some (⟨11, d, Fin.ofNat _ (u.toNat * 4 + 1), a, b, g, 6⟩)
  | .vmaxVi g b a u d => some (⟨11, d, Fin.ofNat _ (u.toNat * 4 + 2), a.toFin, b, g, 6⟩)
  | .vandVv g b a d => some (⟨11, d, 0, a, b, g, 7⟩)
  | .vandVx g b a d => some (⟨11, d, 1, a, b, g, 7⟩)
  | .vandVi g b a d => some (⟨11, d, 2, a.toFin, b, g, 7⟩)
  | .vorVv g b a d => some (⟨11, d, 0, a, b, g, 8⟩)
  | .vorVx g b a d => some (⟨11, d, 1, a, b, g, 8⟩)
  | .vorVi g b a d => some (⟨11, d, 2, a.toFin, b, g, 8⟩)
  | .vxorVv g b a d => some (⟨11, d, 0, a, b, g, 9⟩)
  | .vxorVx g b a d => some (⟨11, d, 1, a, b, g, 9⟩)
  | .vxorVi g b a d => some (⟨11, d, 2, a.toFin, b, g, 9⟩)
  | .vshlVv g b a d => some (⟨11, d, 0, a, b, g, 10⟩)
  | .vshlVx g b a d => some (⟨11, d, 1, a, b, g, 10⟩)
  | .vshlVi g b a d => some (⟨11, d, 2, a.toFin, b, g, 10⟩)
  | .vshrVv g b a u d => some (⟨11, d, Fin.ofNat _ (u.toNat * 4), a, b, g, 11⟩)
  | .vshrVx g b a u d => some (⟨11, d, Fin.ofNat _ (u.toNat * 4 + 1), a, b, g, 11⟩)
  | .vshrVi g b a u d => some (⟨11, d, Fin.ofNat _ (u.toNat * 4 + 2), a.toFin, b, g, 11⟩)
  | .vcmpVv g b a u c p => some (⟨11, Fin.ofNat _ (c.code * 8 + p.val), Fin.ofNat _ (u.toNat * 4), a, b, g, 12⟩)
  | .vcmpVx g b a u c p => some (⟨11, Fin.ofNat _ (c.code * 8 + p.val), Fin.ofNat _ (u.toNat * 4 + 1), a, b, g, 12⟩)
  | .vcmpVi g b a u c p => some (⟨11, Fin.ofNat _ (c.code * 8 + p.val), Fin.ofNat _ (u.toNat * 4 + 2), a.toFin, b, g, 12⟩)
  | .vselVv g b a d => some (⟨11, d, 0, a, b, g, 13⟩)
  | .vselVx g b a d => some (⟨11, d, 1, a, b, g, 13⟩)
  | .vselVi g b a d => some (⟨11, d, 2, a.toFin, b, g, 13⟩)
  | .vclipVv g b a u d => some (⟨11, d, Fin.ofNat _ (u.toNat * 4), a, b, g, 14⟩)
  | .vclipVx g b a u d => some (⟨11, d, Fin.ofNat _ (u.toNat * 4 + 1), a, b, g, 14⟩)
  | .vclipVi g b a u d => some (⟨11, d, Fin.ofNat _ (u.toNat * 4 + 2), a.toFin, b, g, 14⟩)
  | .vwcvt g b w u d => some (⟨11, d, Fin.ofNat _ (u.toNat * 4 + 2), Fin.ofNat _ (w.code), b, g, 15⟩)
  | .vredi g b o d => some (⟨11, d, 2, Fin.ofNat _ o.code, b, g, 16⟩)
  | .vslupVx g b a d => some (⟨11, d, 1, a, b, g, 17⟩)
  | .vslupVi g b a d => some (⟨11, d, 2, a.toFin, b, g, 17⟩)
  | .vsldnVx g b a d => some (⟨11, d, 1, a, b, g, 18⟩)
  | .vsldnVi g b a d => some (⟨11, d, 2, a.toFin, b, g, 18⟩)
  | .vperm g b a d => some (⟨11, d, 0, a, b, g, 19⟩)
  | .vcmpr g b s d => some (⟨11, d, 2, Fin.ofNat _ (s.val), b, g, 20⟩)
  | .vxpnd g b s d => some (⟨11, d, 2, Fin.ofNat _ (s.val), b, g, 21⟩)
  | .viota g s d => some (⟨11, d, 2, Fin.ofNat _ (s.val), 0, g, 22⟩)
  | .vbcstVx g a d => some (⟨11, d, 1, a, 0, g, 23⟩)
  | .vbcstVi g a d => some (⟨11, d, 2, a.toFin, 0, g, 23⟩)
  | .vmvxs b u d => some (⟨11, d, Fin.ofNat _ (u.toNat * 4), 0, b, 0, 24⟩)
  | .vmvsx a d => some (⟨11, d, 1, a, 0, 0, 25⟩)
  | .vscan g b a u d => some (⟨11, d, Fin.ofNat _ (u.toNat * 4), a, b, g, 26⟩)
  | .plog g b a f d => some (⟨11, Fin.ofNat _ (d.val), Fin.ofNat _ f.code, Fin.ofNat _ (a.val), Fin.ofNat _ (b.val), g, 27⟩)
  | .pbrk g s f d => some (⟨11, Fin.ofNat _ (d.val), Fin.ofNat _ (f.toNat), Fin.ofNat _ (s.val), 0, g, 28⟩)
  | .pcnt g s d => some (⟨11, d, 0, Fin.ofNat _ (s.val), 0, g, 29⟩)
  | .pfirst g s d => some (⟨11, d, 1, Fin.ofNat _ (s.val), 0, g, 29⟩)
  | .pset g a f d => some (⟨11, Fin.ofNat _ (d.val), Fin.ofNat _ f.code, a, 0, g, 30⟩)
  | .pmovToVector g s d => some (⟨11, d, 0, Fin.ofNat _ (s.val), 0, g, 31⟩)
  | .pmovToPredicate g b d => some (⟨11, Fin.ofNat _ (d.val), 1, 0, b, g, 31⟩)
  | .vfaddVv g b a d => some (⟨43, d, 0, a, b, g, 0⟩)
  | .vfaddVf g b a d => some (⟨43, d, 1, a, b, g, 0⟩)
  | .vfaddVx g b a d => some (⟨43, d, 2, a, b, g, 0⟩)
  | .vfsubVv g b a d => some (⟨43, d, 0, a, b, g, 1⟩)
  | .vfsubVf g b a d => some (⟨43, d, 1, a, b, g, 1⟩)
  | .vfsubVx g b a d => some (⟨43, d, 2, a, b, g, 1⟩)
  | .vfmulVv g b a d => some (⟨43, d, 0, a, b, g, 2⟩)
  | .vfmulVf g b a d => some (⟨43, d, 1, a, b, g, 2⟩)
  | .vfmulVx g b a d => some (⟨43, d, 2, a, b, g, 2⟩)
  | .vfmaVv g b a n d => some (⟨43, d, Fin.ofNat _ (n.toNat * 4), a, b, g, 3⟩)
  | .vfmaVf g b a n d => some (⟨43, d, Fin.ofNat _ (n.toNat * 4 + 1), a, b, g, 3⟩)
  | .vfmaVx g b a n d => some (⟨43, d, Fin.ofNat _ (n.toNat * 4 + 2), a, b, g, 3⟩)
  | .vfminVv g b a d => some (⟨43, d, 0, a, b, g, 4⟩)
  | .vfminVf g b a d => some (⟨43, d, 1, a, b, g, 4⟩)
  | .vfminVx g b a d => some (⟨43, d, 2, a, b, g, 4⟩)
  | .vfmaxVv g b a d => some (⟨43, d, 0, a, b, g, 5⟩)
  | .vfmaxVf g b a d => some (⟨43, d, 1, a, b, g, 5⟩)
  | .vfmaxVx g b a d => some (⟨43, d, 2, a, b, g, 5⟩)
  | .vfdivVv g b a d => some (⟨43, d, 0, a, b, g, 6⟩)
  | .vfdivVf g b a d => some (⟨43, d, 1, a, b, g, 6⟩)
  | .vfdivVx g b a d => some (⟨43, d, 2, a, b, g, 6⟩)
  | .vfsqrt g b d => some (⟨43, d, 0, 0, b, g, 7⟩)
  | .vfrsqe g b d => some (⟨43, d, 0, 0, b, g, 8⟩)
  | .vfexp2e g b d => some (⟨43, d, 0, 0, b, g, 9⟩)
  | .vfcmpVv g b a c p => some (⟨43, Fin.ofNat _ (c.code * 8 + p.val), 0, a, b, g, 10⟩)
  | .vfcmpVf g b a c p => some (⟨43, Fin.ofNat _ (c.code * 8 + p.val), 1, a, b, g, 10⟩)
  | .vfcmpVx g b a c p => some (⟨43, Fin.ofNat _ (c.code * 8 + p.val), 2, a, b, g, 10⟩)
  | .vfsgn g b m d => some (⟨43, d, 0, Fin.ofNat _ m.code, b, g, 11⟩)
  | .vfcvt g b t r d => some (⟨43, d, Fin.ofNat _ r.code, Fin.ofNat _ t.code, b, g, 12⟩)
  | .vredf g b o r d => some (⟨43, d, Fin.ofNat _ r.code, Fin.ofNat _ o.code, b, g, 13⟩)
  | .vtagg b d => some (⟨43, d, 0, 0, b, 0, 14⟩)
  | .vtags a d => some (⟨43, d, 2, a, 0, 0, 15⟩)
  | .vsetvl b a d => some (⟨43, d, 0, a, b, 0, 16⟩)
  | .vsetvli i a d => some (mkHi 43 (i.toNat) (a) (7) (d))
  | .vld g a f s d => some (⟨91, d, Fin.ofNat _ (f.toNat * 4 + s.toNat), a, 0, g, 0⟩)
  | .vlds g b a f s d => some (⟨91, d, Fin.ofNat _ (f.toNat * 4 + s.toNat), a, b, g, 1⟩)
  | .vldx g b a f i d => some (⟨91, d, Fin.ofNat _ (f.toNat * 4 + i.toNat * 2), a, b, g, 2⟩)
  | .vldsr b a d => some (⟨91, d, 0, a, b, 0, 3⟩)
  | .vst g a s d => some (⟨91, d, Fin.ofNat _ (s.toNat), a, 0, g, 4⟩)
  | .vsts g b a s d => some (⟨91, d, Fin.ofNat _ (s.toNat), a, b, g, 5⟩)
  | .vstx g b a i d => some (⟨91, d, Fin.ofNat _ (i.toNat * 2), a, b, g, 6⟩)
  | .vamo g b a o d => some (⟨91, d, Fin.ofNat _ o.code, a, b, g, 7⟩)
  | .vred g b a o d => some (⟨91, d, Fin.ofNat _ o.code, a, b, g, 8⟩)
  | .cpy b a r d => some (⟨91, d, Fin.ofNat _ (r.toNat * 2), a, b, 0, 9⟩)
  | .cpys b a f r d => some (⟨91, d, Fin.ofNat _ (f.toNat * 4 + r.toNat * 2 + 1), a, b, 0, 9⟩)
  | .cpyw => some (⟨91, 0, 0, 0, 0, 0, 10⟩)
  | .sqcmd p a => some (⟨91, 0, 0, a, Fin.ofNat _ (p.val), 0, 11⟩)
  | .sqwait p d => some (⟨91, d, 0, 0, Fin.ofNat _ (p.val), 0, 12⟩)
  | .mma x y c a b => some (mkHi 123 (x.val * 64 + y.val * 8 + c.val) (a) (0) (b))
  | .mmaTile x y c s b => some (mkHi 123 (x.val * 64 + y.val * 8 + c.val + 512) (Fin.ofNat _ (s.val)) (0) (b))
  | .mmas x y c a b => some (mkHi 123 (x.val * 64 + y.val * 8 + c.val + 1024) (a) (0) (b))
  | .mmasTile x y c s b => some (mkHi 123 (x.val * 64 + y.val * 8 + c.val + 1536) (Fin.ofNat _ (s.val)) (0) (b))
  | .mzero c => some (mkHi 123 (c.val + 2048) (0) (0) (0))
  | .mrda x c f d => some (mkHi 123 (x.val * 64 + c.val + 2560) (f) (0) (d))
  | .mwra x c f d => some (mkHi 123 (x.val * 64 + c.val + 3072) (f) (0) (d))
  | .mtcw c a => some (mkHi 123 (c.val + 3584) (a) (0) (0))
  | .chcfg n a => some (⟨123, 0, 1, a, Fin.ofNat _ (n.val), 0, 0⟩)
  | .chaim n a => some (⟨123, 0, 1, a, Fin.ofNat _ (n.val), 1, 0⟩)
  | .chrun n a => some (⟨123, 0, 1, a, Fin.ofNat _ (n.val), 2, 0⟩)
  | .chwait n d => some (⟨123, d, 1, 0, Fin.ofNat _ (n.val), 3, 0⟩)
  | .chst n d => some (⟨123, d, 1, 0, Fin.ofNat _ (n.val), 0, 1⟩)
  | .chdrn n => some (⟨123, 0, 1, 0, Fin.ofNat _ (n.val), 1, 1⟩)
  | .chbrk n => some (⟨123, 0, 1, 0, Fin.ofNat _ (n.val), 2, 1⟩)
  | .chsav n a => some (⟨123, 0, 1, a, Fin.ofNat _ (n.val), 3, 1⟩)
  | .chld n a => some (⟨123, 0, 1, a, Fin.ofNat _ (n.val), 0, 2⟩)
  | .qpush q a => some (⟨123, 0, 1, a, Fin.ofNat _ (q.val), 0, 4⟩)
  | .qpop q d => some (⟨123, d, 1, 0, Fin.ofNat _ (q.val), 1, 4⟩)
  | .qpeek q d => some (⟨123, d, 1, 0, Fin.ofNat _ (q.val), 2, 4⟩)
  | .qstat q d => some (⟨123, d, 1, 0, Fin.ofNat _ (q.val), 3, 4⟩)
  | .acq s m a d => some (⟨123, d, 2, a, Fin.ofNat _ (s.code * 4 + m.code), 0, 0⟩)
  | .rel s a => some (⟨123, 0, 2, a, Fin.ofNat _ (s.code * 4), 1, 0⟩)
  | .bindr b a d => some (⟨123, d, 2, a, b, 2, 0⟩)
  | .unbindr a => some (⟨123, 0, 2, a, 0, 3, 0⟩)
  | .fencex s k => some (⟨123, 0, 2, 0, Fin.ofNat _ (s.code * 4 + k.code), 0, 1⟩)
  | .bari n a => some (⟨123, 0, 2, a, Fin.ofNat _ (n.val), 1, 1⟩)
  | .bara r n d => some (⟨123, d, 2, 0, Fin.ofNat _ (r.toNat * 4 + n.val), 2, 1⟩)
  | .barw c n a => some (⟨123, 0, 2, a, Fin.ofNat _ (c.toNat * 4 + n.val), 3, 1⟩)
  | .baraw c n d => some (⟨123, d, 2, 0, Fin.ofNat _ (c.toNat * 4 + n.val), 0, 2⟩)
  | .monarm a => some (⟨123, 0, 2, a, 0, 1, 2⟩)
  | .mwait a d => some (⟨123, d, 2, a, 0, 2, 2⟩)
  | .bfence g => some (⟨123, 0, 2, 0, Fin.ofNat _ (g.toNat), 3, 2⟩)
  | .futinit a => some (⟨123, 0, 3, a, 0, 0, 0⟩)
  | .futrd b a d => some (⟨123, d, 3, a, b, 1, 0⟩)
  | .futwr b a => some (⟨123, 0, 3, a, b, 2, 0⟩)
  | .futqry a d => some (⟨123, d, 3, a, 0, 3, 0⟩)
  | .tspawn a => some (⟨123, 0, 3, a, 0, 0, 1⟩)
  | .tnext w d => some (⟨123, d, 3, 0, Fin.ofNat _ (w.toNat), 1, 1⟩)
  | .msgring a => some (⟨123, 0, 3, a, 0, 2, 1⟩)
  | .msgsnd b a d => some (⟨123, d, 3, a, b, 3, 1⟩)
  | .msgrcv b a d => some (⟨123, d, 3, a, b, 0, 2⟩)
  | .evqcfg n a => some (⟨123, 0, 3, a, Fin.ofNat _ (n.val), 1, 2⟩)
  | .evqpop n d => some (⟨123, d, 3, 0, Fin.ofNat _ (n.val), 2, 2⟩)
  | .bcmd a => some (⟨123, 0, 4, a, 0, 0, 0⟩)
  | .bgax b a d => some (⟨123, d, 4, a, b, 1, 0⟩)
  | .pklcfg u a => some (⟨123, 0, 4, a, Fin.ofNat _ u.val, 2, 0⟩)
  | .pklq u a d => some (⟨123, d, 4, a, Fin.ofNat _ u.val, 3, 0⟩)
  | .pklget w a d => some (⟨123, d, 4, a, Fin.ofNat _ (w.toNat), 0, 1⟩)
  | .lpart n => some (⟨123, 0, 5, 0, Fin.ofNat _ (n.val), 0, 0⟩)
  | .ctxsv => some (⟨123, 0, 5, 0, 0, 1, 0⟩)
  | .ctxld => some (⟨123, 0, 5, 0, 0, 2, 0⟩)
  | .tlbir b a d => some (⟨123, d, 5, a, b, 3, 0⟩)
  | .tlbsync => some (⟨123, 0, 5, 0, 0, 0, 1⟩)
  | .splp e a => some (⟨123, 0, 5, a, Fin.ofNat _ (e.val), 1, 1⟩)
  | .splr e d => some (⟨123, d, 5, 0, Fin.ofNat _ (e.val), 2, 1⟩)
  | .ecall => some (mkHi 0x73 0 0 0 0)
  | .fence fm p s => some (mkHi 0x0F (fm.toNat * 256 + p.toNat * 16 + s.toNat) 0 0 0)
  | .fenceI => some (mkHi 0x0F 0 0 1 0)
  | .sfenceVma rs1 rs2 => some (mkF7 0x73 9 rs2 rs1 0 0)
  | .scalarAmo o dbl aq rl rd rs1 rs2 => some ⟨0x2F, rd, amoF3 dbl, rs1, rs2, aqrl aq rl, amoOpCode o⟩
  | .lr dbl aq rl rd rs1 => some ⟨0x2F, rd, amoF3 dbl, rs1, 0, aqrl aq rl, 2⟩
  | .sc dbl aq rl rd rs1 rs2 => some ⟨0x2F, rd, amoF3 dbl, rs1, rs2, aqrl aq rl, 3⟩
  | .csrAccess o imm csr rd src => some (mkHi 0x73 csr.toNat src (csrCode o imm) rd)
  | .hint w => some (unpack w)
  | .scalarLoad k rd rs1 imm => some (mkHi (loadCode k).1 imm.toNat rs1 (loadCode k).2 rd)
  | .scalarStore k rs2 rs1 imm =>
    some (mkF7 (storeCode k).1 (imm.toNat / 32) rs2 rs1 (storeCode k).2 (Fin.ofNat 32 imm.toNat))
  | .baseIsaInstruction b => some (encodeBase b)
  | .faultRecordPost _ => none
  | .faultReply _ => none
  | .hostSliceFill _ _ _ _ => none
  | .asyncInterrupt _ => none
  | .watchdogExpiry _ => none
  | .grantChange _ _ => none
  | .leaveGrant _ => none
  | .syncObjectGrant _ => none
  | .mwaitWake _ => none
  | .barrierWaitReturn _ => none
  | .invalidationComplete _ => none
  | .matrixInstructionComplete _ => none
  | .copyStrip _ _ => none
  | .copyCompletion _ _ => none
  | .eventQueuePost _ _ => none
  | .streamStart _ _ => none
  | .streamTransfer _ _ => none
  | .vldsrRefill _ => none
  | .reductionUpdate _ => none
  | .stageFiring _ _ _ => none
  | .matrixNodePass _ _ _ => none
  | .memoryPortFiring _ _ _ => none
  | .addressGeneratorFiring _ _ _ => none
  | .sparseHeaderFiring _ _ _ => none
  | .filterFiring _ _ _ => none
  | .reductionTreeFiring _ _ _ => none
  | .laneLinkTransfer _ _ _ => none
  | .tailConfigAtNode _ _ _ => none
  | .checkpointMarkerAtNode _ _ _ => none
  | .bellAtNode _ _ _ => none
  | .boundStop _ _ _ => none
  | .chainFaultTimeout _ _ => none
  | .multicastDetach _ _ _ _ => none
  | .rollCallReport _ _ => none
  | .chainRunEnd _ _ => none
  | .temporalFiring _ _ => none
  | .bauPiece _ => none
  | .bgaxSumArrival _ => none
  | .pklQuery _ => none
  | .futureWalkStep _ => none
  | .gangEnd _ => none
  | .launchRecordConsume _ => none
  | .bindRecordPublish _ => none
  | .gangStart _ => none
  | .preemptRequest _ _ => none
  | .preemptQuiesced _ => none
  | .schedulingQuantum _ => none
  | .priorityAging _ => none
  | .debugHalt _ => none
  | .debugResume _ => none
  | .debugSingleStep _ => none
  | .debugAbstractCommand _ _ _ _ => none
  | .debugProgramBuffer _ _ => none
  | .correctedError _ => none
  | .correctedErrorThreshold _ => none
  | .uncorrectableError _ => none
  | .hbmChannelSparing _ _ => none
  | .mgcHeartbeat _ => none
  | .mgcTakeover _ => none
  | .thermalGrantLimit _ _ => none
  | .thermalShutdown => none
  | .powerOn _ => none
  | .resetRelease => none
  | .linkDown => none
  | .peerAck _ _ => none
  | .peerConnectionFail _ _ => none
  | .hostMemoryAccess => none
  | .dirtyHarvestRead => none
  | .modeWrite => none
  | .tidinv => none
  | .tidinvDrained => none
  | .retire => none
  | .extentLayoutWrite => none
  | .launchQueueWpWrite => none
  | .launchQueueControl => none
  | .mailboxRingControl => none
  | .registerWrite => none
  | .attest => none
  | .retirecore => none
  | .heartbeat => none
  | .keygen => none
  | .keyerase => none
  | .keyexport => none
  | .keyimport => none
  | .mailboxReservedCode => none
  | .mailboxEventPost => none
  | .getTid => none
  | .getPldmVersion => none
  | .getPldmTypes => none
  | .getPldmCommands => none
  | .getPdr => none
  | .getSensorReading => none
  | .requestUpdate => none
  | .passComponentTable => none
  | .updateComponent => none
  | .requestFirmwareData => none
  | .transferComplete => none
  | .verifyComplete => none
  | .applyComplete => none
  | .activateFirmware => none
  | .getStatus => none
  | .cancelUpdate => none
  | .pldmOemAttestation => none
  | .illegalInstruction _ => none
  | .hostLinkTraining => none
  | .laneLinkDown _ _ => none
  | .hostReadPointerWrite => none

/-- The word of an instruction. -/
def encode (i : Instr) : Option IWord := (encodeFields i).map pack

end Sys2Proof
end

