-- ==== Sys2Proof/Machine/AMap.lean ====
section
/-!
DEFINITION. Sparse maps as lists of (key, value) pairs with rising keys. An unlisted key reads as a default the caller
names. The laws are in Sys2Proof/Laws/AMap.lean.
-/
namespace Sys2Proof.Machine

/-- A sparse map: keys rise strictly. -/
abbrev AMap (α : Type) := List (Nat × α)

/-- The value at a key, if listed. -/
def aget? {α : Type} : AMap α → Nat → Option α
  | [], _ => none
  | (a, v) :: r, k => if a < k then aget? r k else if a = k then some v else none

/-- The value at a key, or the default. -/
def aget {α : Type} (d : α) (m : AMap α) (k : Nat) : α := (aget? m k).getD d

/-- Set a key. -/
def aput {α : Type} : AMap α → Nat → α → AMap α
  | [], k, v => [(k, v)]
  | (a, w) :: r, k, v =>
    if a < k then (a, w) :: aput r k v else if a = k then (k, v) :: r else (k, v) :: (a, w) :: r

/-- Drop the entries at the front whose keys are not above `k`. -/
def adropUpTo {α : Type} : AMap α → Nat → AMap α
  | [], _ => []
  | (a, w) :: r, k => if a ≤ k then adropUpTo r k else (a, w) :: r

/-- Remove a key. -/
def adel {α : Type} : AMap α → Nat → AMap α
  | [], _ => []
  | (a, w) :: r, k => if a < k then (a, w) :: adel r k else adropUpTo ((a, w) :: r) k

/-- Set a key of a map whose unlisted keys read `d`: writing `d` removes the entry, so that equal maps are equal data. -/
def aputC {α : Type} [DecidableEq α] (d : α) (m : AMap α) (k : Nat) (v : α) : AMap α :=
  if v = d then adel m k else aput m k v

/-- Keep the entries that satisfy a test of key and value. -/
def afilter {α : Type} (m : AMap α) (p : Nat → α → Bool) : AMap α := m.filter fun kv => p kv.1 kv.2

/-- Keys rise strictly from above `lo`. -/
def asortedFrom {α : Type} : Nat → AMap α → Bool
  | _, [] => true
  | lo, (a, _) :: r => decide (lo ≤ a) && asortedFrom (a + 1) r

/-- The canonical form: keys rise strictly and no entry holds the default. -/
def acanon {α : Type} [DecidableEq α] (d : α) (m : AMap α) : Bool :=
  asortedFrom 0 m && m.all fun kv => decide (kv.2 ≠ d)

end Sys2Proof.Machine
end

