-- ==== Sys2Proof/Machine/State.lean ====
section
/-!
DEFINITION. The state of the machine as plain data: harts, cores, gangs, dies, the package and its I/O die, with the
reset value of every field (INVENTORY.md, '## State', names the rule of each). Sparse maps list only what differs from the
reset value.
-/
namespace Sys2Proof.Machine

/-- Bytes by address. An unlisted byte reads 0 (notes/assumptions/4). -/
abbrev Mem := AMap Byte

/-- The canonical form of a memory: addresses rise strictly, and no entry equals what an unlisted byte reads as. -/
def Memory.wf (m : Mem) : Bool := acanon 0 m

/-- Privilege modes (spec/00 Table 0-1). -/
inductive Priv where | u | s | m
deriving DecidableEq, Repr

/-- A hart slot: idle, running, or ended by ECALL (spec/02 R18, R23). -/
inductive HartRun where | idle | running | ended
deriving DecidableEq, Repr

/-- The Xebin CSRs that a hart holds (spec/03 Tables 3-4 and 3-6, R53); values at a fresh start. -/
structure XCsr where
  vl : Word := 0
  vtype : Word := 0x8000000000000000
  rm : BitVec 3 := 0
  flags : BitVec 6 := 0
  sbase : Word := 0
  vstart : BitVec 17 := 0
  fault : Word := 0
  cpyseq : Word := 0
  spill : Word := 0
  srseed : Word := 0
  grant : Nat := 0            -- applied grant, `xgrant`
  leave : Word := 0
  temporal : Word := 0
  ctxbase : Word := 0
  asid : Word := 0
  dirty : Word := 0
  chto : BitVec 16 := 50
  mcto : BitVec 16 := 200
  wdog : BitVec 32 := 0
  fsmode : Word := 0
deriving DecidableEq, Repr

/-- The privileged-architecture CSRs of a hart (spec/00 R3, spec/03 Table 3-9). -/
structure PCsr where
  mstatus : Word := 0x2000              -- FS initial
  stvec : Word := 0
  scounteren : Word := 0
  sscratch : Word := 0
  sepc : Word := 0
  scause : Word := 0
  stval : Word := 0
  satp : Word := 0
  senvcfg : Word := 0
  mtvec : Word := 0
  medeleg : Word := 0
  mideleg : Word := 0
  mie : Word := 0
  mip : Word := 0
  mscratch : Word := 0
  mepc : Word := 0
  mcause : Word := 0
  mtval : Word := 0
  mcounteren : Word := 7
  menvcfg : Word := 0
  mcountinhibit : Word := 0
  mcycle : Word := 0
  minstret : Word := 0
  dcsr : Word := 0x40000003             -- debug 0.13, prv M
  dpc : Word := 0
  dscratch0 : Word := 0
  dscratch1 : Word := 0
deriving DecidableEq, Repr

/-- A valid spill-map entry (spec/02 R39, R40): data held on chip, or in the spill area. -/
structure Spill where
  inMem : Bool
  reg : VReg
  sc : Sidecar
  tag : BitVec 8
deriving DecidableEq, Repr

/-- The arrival latch of a hart (spec/15 Table 15-4). -/
structure Latch where
  addr : Word
  gb : Fin 4
  ph : BitVec 32
deriving DecidableEq, Repr

/-- Whom an access acts for: what an engine keeps of the hart that issued it (spec/06 R106). -/
structure ACtx where
  core : Nat
  slot : Nat
  asid : Nat
  tid : Nat
  priv : Priv
  sum : Bool
  mxr : Bool
  root : Nat          -- physical address of the root table
  svc : Bool          -- fault service: the host
  dirty : Word        -- `xdirty`
  ctxbase : Nat
deriving DecidableEq, Repr

/-- A hart slot. -/
structure Hart where
  run : HartRun := .idle
  halted : Bool := false
  pc : Word := 0
  priv : Priv := .m
  x : AMap Word := []
  f : AMap Word := []
  fcsr : BitVec 8 := 0
  v : AMap VReg := []
  tags : AMap (BitVec 8) := []        -- unlisted: 0x1F
  sc : AMap Sidecar := []
  p : AMap VReg := []
  xc : XCsr := {}
  pr : PCsr := {}
  spill : AMap Spill := []
  latch : Option Latch := none
  bev : Bool := false
  beva : Word := 0
  maddr : Word := 0
  mv : Bool := false
  resv : Option Nat := none           -- LR reservation: the granule, as location key
  wc : AMap (Byte × Nat × Word) := [] -- write-combining buffer: physical byte, with key slot and `xdirty`
  wait : Option Instr := none         -- the instruction it waits at, for the watchdog and for pre-emption
  park : Option Nat := none           -- token of the fault record its access is parked on
  probe : Option Nat := none          -- token of the record a zero-grant CPY posted
  inval : List (Nat × Nat × Nat) := []   -- outstanding translation invalidations: ASID, range [lo, hi)
  ticket : Option Nat := none         -- place in the die's leave order while a request waits
  leaveOk : Nat := 0                  -- units granted to the instruction that is asking
  stall : Nat := 0                    -- µs not ready, for the watchdog
  stepping : Bool := false            -- released by the debug module for one instruction
  vred : Nat := 0                     -- elements already issued of a VRED that stalls for more entries than there are
  pbuf : Option IWord := none         -- the program-buffer instruction that the debug module has it execute
deriving DecidableEq, Repr

/-- A matrix instruction that has issued (spec/09 R190): what it took from its hart at issue. -/
structure MxOp where
  slot : Nat
  instr : Instr
  vl : Nat
  xs : Word
  rm : Nat
  weight : Nat
deriving DecidableEq, Repr

/-- A chaining queue's record (spec/08 Table 8-3) but for payloads and side fields. -/
structure Queue where
  tail : Nat := 0
  rp : AMap Nat := []
  cmask : BitVec 4 := 0
  dmask : BitVec 4 := 0
  pfill : Nat := 0
  qtag : BitVec 8 := 0
  tagset : Bool := false
  lastOut : Bool := false         -- the last data token taken had LAST
  mark : BitVec 3 := 0
  slot : Nat := 0
  owned : Bool := false
  swin : Bool := false
  swout : Bool := false
deriving DecidableEq, Repr

/-- The state of a chain slot (spec/08 Table 8-10). -/
inductive ChState where
  | idle | configured | running | draining | broken | temporal | bound | detached | faulted
deriving DecidableEq, Repr

/-- A node's latch (spec/08 R168): its progress and its generator, and where it stands in the configuration period. -/
structure NodeLatch where
  i0 : Nat := 0           -- pattern position, next bit, or pass index
  i1 : Nat := 0
  i2 : Nat := 0
  off : Nat := 0          -- element offset in a row, or next index in a token
  used : Nat := 0         -- bytes of the head token of a port that are used up
  gen : Word := 0         -- the node's stochastic generator
  lasts : BitVec 8 := 0   -- input ports whose LAST has been taken
  tail : Bool := false    -- a matrix node past its final pass
  done : Bool := false    -- the node has fired its last row
  stop : Nat := 0         -- marker subtype at which the node stopped; 0 none
  owe : Nat := 0          -- marker subtype that a source has yet to emit
  newAim : Bool := false  -- switched to its pending entry
  detached : Bool := false
  park : Option Nat := none  -- token of the fault record it withholds a token on
  age : Nat := 0             -- µs since that record was posted
deriving DecidableEq, Repr

/-- What a CHRUN captures for the run that it arms. -/
structure ArmCap where
  runopt : Word
  chto : Nat
  mcto : Nat
  vrm : Nat
  ctx : ACtx
  widths : AMap Nat
  seeds : AMap Word
  need : Nat
  tags : AMap Nat          -- QTAGs by queue
  pats : List (Nat × AMap Word)   -- stream descriptors by port
deriving DecidableEq, Repr

/-- A stage record of a descriptor (spec/08 Table 8-9): its bindings (register, queue, tail of an output), its instruction words,
and where in the descriptor they stand. -/
structure StageRec where
  binds : List (Nat × Nat × Bool)
  words : List Nat
  off : Nat
deriving DecidableEq, Repr

/-- A chain slot (spec/08 Tables 8-6 to 8-8, 8-10, 8-12, 8-14). -/
structure ChSlot where
  state : ChState := .idle
  tmp : Bool := false
  fin : Bool := false
  stopped : Bool := false
  node : Nat := 0
  cause : Nat := 0
  aimed : Bool := false
  pending : Bool := false
  owned : Bool := false
  owner : Nat := 0
  bell : Bool := false
  desc : Word := 0
  runopt : Word := 0
  chto : Nat := 0
  mcto : Nat := 0
  vrm : Nat := 0
  flags : Nat := 0
  fage : Nat := 0
  aimgen : Nat := 0
  hdr : AMap Word := []        -- header copy, 4 words
  nodes : List (Nat × Nat) := []   -- KIND, INDEX
  edges : List (Nat × Nat × Nat × Nat × Nat) := []   -- FROM, OPORT, TO, IPORT, CQ
  stages : List (Nat × StageRec) := []   -- stage records as CHCFG read them
  pats : List (Nat × AMap Word) := []    -- pattern descriptors of the run's memory ports, as CHRUN read them
  held : Bool := false         -- the run has not entered its ports' ranges into the interlock yet (spec/07 R137, R138)
  active : AMap Word := []     -- aim entries, word 4 n + w
  pend : AMap Word := []
  latch : AMap NodeLatch := []
  badLatch : List Nat := []    -- nodes whose latch fails SEC-DED (spec/13 R252)
  widths : AMap Nat := []      -- L' of each vector stage, captured at CHRUN
  ctx : Option ACtx := none    -- the issuing hart, captured at CHRUN
  arm : Option ArmCap := none  -- a run armed behind the pending aim
  afterDrain : Nat := 0        -- state to enter when the drain is complete: 0 none, 4 BROKEN, 8 FAULTED
  frozen : List Nat := []      -- nodes that a drain froze
  saved : AMap Nat := []       -- rows that a BROKEN slot saved, by 4 queue + consumer, in tokens
  boundNode : Option Nat := none
  detachNode : Option Nat := none
  need : Nat := 0              -- leave units that the run asks
  leave : Nat := 0             -- leave units held
  asked : Bool := false        -- the temporal sequencer's request waits
  peer : AMap Nat := []        -- lane-link nodes: the peer's gang-relative core index
  mcIdle : AMap Nat := []      -- µs a multicast consumer has held its producer back, by 4 queue + consumer
deriving DecidableEq, Repr

/-- An address-range interlock entry (spec/07 Table 7-7). -/
structure Arit where
  wr : Bool
  rd : Bool
  src : Nat
  slot : Nat
  base : Nat
  limit : Nat
deriving DecidableEq, Repr

/-- Where an access goes once translated. -/
inductive Loc where
  | mmio (off : Nat)                     -- a register window, which only firmware reaches
  | tile (core off : Nat)
  | sdm (core off : Nat)
  | phys (pa : Nat) (mt : Nat) (key : Nat)   -- memory type and key slot
deriving DecidableEq, Repr

/-- A translation held for a granted range: virtual page, its location, and the entry it came from. -/
structure Held where
  va : Nat
  loc : Loc
deriving DecidableEq, Repr

/-- A copy in flight (spec/10 Table 10-3), with what its completion reports. -/
structure Copy where
  opt : Nat               -- [1] CPYS, [2] .rec, [3] .fut, as OPT
  slot : Nat
  tgt : Nat
  stamp : Word
  rem : Nat
  src : Nat
  dst : Nat
  utag : Nat
  dst0 : Nat              -- destination and grant, as the completion reports them
  grant : Nat
  src0 : Nat              -- the source range, for the overlap of R196
  span : Nat
  ctx : ACtx
  held : List Held
  status : Nat := 0
  weight : Nat := 0
  aritS : Nat := 0
  aritD : Nat := 0
  peer : Bool := false
  acked : Bool := false
  stage : Nat := 0        -- 0 moving and completing, 2 a completion record is to be posted
  park : Option Nat := none
  fatal : Bool := false
deriving DecidableEq, Repr

/-- A stream of a memory port (spec/10 R199 to R202). -/
structure Stream where
  desc : AMap Word := []
  state : Nat := 0        -- Table 10-5 STATE
  endc : Nat := 0
  cause : Nat := 0
  done : Nat := 0
  i0 : Nat := 0
  i1 : Nat := 0
  i2 : Nat := 0
  off : Nat := 0
  ctx : Option ACtx := none
  park : Option Nat := none
  fatal : Bool := false
  fva : Word := 0         -- address of a fault declared fatal
deriving DecidableEq, Repr

/-- A refill in the background of a VLDSR (spec/10 R203), or the sum of a BGAX (spec/11 R222): the group it fills. -/
structure Refill where
  slot : Nat
  vd : Nat
  vals : List (Nat × Nat)   -- element, pattern
  locs : List (Nat × Loc)   -- element, where it is read
  sew : Nat
  arit : Option Nat
  weight : Nat
deriving DecidableEq, Repr

/-- One update of a VRED on its way to the sole writer (spec/07 R135). -/
structure RedUpd where
  slot : Nat
  op : Nat
  fmt : Nat
  va : Nat
  loc : Loc
  val : Nat
  ctx : ACtx
deriving DecidableEq, Repr

/-- A line of a scalar data cache: 64 bytes, its dirty bytes, and under what they are written back. -/
structure CLine where
  data : BitVec 512
  dirty : BitVec 64
  key : Nat
  xdirty : Word
  asid : Nat
  tid : Nat
  va : Nat
deriving DecidableEq, Repr

/-- A line of an instruction cache, tagged with address space and virtual line. -/
structure ILine where
  asid : Nat
  tid : Nat
  vline : Nat
  data : BitVec 512
deriving DecidableEq, Repr

/-- A held leaf translation (spec/06 R105, R110, R112): its span, the entry as read and where, and the outcome of the
window check of each frame that has been used (readable, writable). -/
structure TlbEnt where
  asid : Nat
  tid : Nat
  va : Nat
  size : Nat
  pte : Word
  pteAddr : Nat
  frames : AMap (Bool × Bool)
deriving DecidableEq, Repr

/-- A page-walk cache entry: the table that maps a prefix (spec/06 R113). -/
structure PwcEnt where
  asid : Nat
  tid : Nat
  lvl : Nat
  idx : Nat
  table : Nat
deriving DecidableEq, Repr

/-- A core. -/
structure CoreSt where
  gang : Option Nat := none
  cidx : Nat := 0
  part : Nat := 1
  ac : AMap VReg := []
  acTag : AMap (BitVec 8) := []       -- unlisted: 0x1F
  tcw : AMap Word := []
  engine : Option MxOp := none
  q : AMap Queue := []
  qpay : AMap (BitVec 256) := []      -- token payloads, 256 q + slot
  qside : AMap (BitVec 8) := []
  qpoi : AMap (BitVec 32) := []       -- poisoned payload bytes of a queue slot
  slots : AMap ChSlot := []
  arit : AMap Arit := []
  copies : AMap Copy := []            -- 32 engine + record
  streams : AMap Stream := []
  refills : List Refill := []
  redq : List RedUpd := []
  tile : Mem := []
  sdm : Mem := []
  dcache : AMap CLine := []           -- by physical line number
  icache : List ILine := []
  utlb : List TlbEnt := []
  poisonT : AMap Bool := []           -- poisoned 8-byte words of tile memory
  poisonS : AMap Bool := []
deriving DecidableEq, Repr

/-- An event queue's pointer record (spec/10 R204). -/
structure EvQ where
  conf : Word := 0
  head : Nat := 0
  tail : Nat := 0
deriving DecidableEq, Repr

/-- Where a bound gang stands. -/
inductive GangState where
  | running
  | saving                                        -- being pre-empted (spec/12 R239)
  | ending (cause ghart : Nat) (pc tval : Word)   -- being ended by the firmware stub (spec/13 R244)
  | checkpoint (hart : Nat) (load : Bool)         -- quiescing for a CTXSV or CTXLD of this hart (spec/13 R254, R255)
deriving DecidableEq, Repr

/-- A bound gang (spec/02 R19, R24, spec/03 R45). -/
structure Gang where
  row0 : Nat := 0
  col0 : Nat := 0
  h : Nat := 1
  w : Nat := 1
  part : Nat := 1
  gcap : Nat := 1
  grant : Nat := 1
  grantAt : Nat := 0             -- the earliest µs of the next grant change
  prio : Nat := 0
  seq : Nat := 0
  ctxbase : Nat := 0
  asid : Nat := 0
  tid : Nat := 0
  state : GangState := .running
  startUs : Nat := 0
  gb : AMap Word := []
  evq : AMap EvQ := []
deriving DecidableEq, Repr

/-- A parked access: who retries it (spec/13 R246, R247). -/
inductive Waiter where
  | hart (h : Nat)
  | probe (h : Nat)
  | copy (core rec_ : Nat)
  | stream (core port : Nat)
  | node (core slot node : Nat)
  | walk (id : Nat)
  | pkl (unit : Nat)
  | red (ctxbase entry : Nat) (ctx : ACtx)
deriving DecidableEq, Repr

/-- A pending fault record (spec/13 Table 13-3). -/
structure FaultRec where
  token : Nat
  w0 : Word
  va : Word
  page : Nat
  asid : Nat
  tid : Nat
  write : Bool
  host : Bool
  die : Nat
  posted : Bool
  waiters : List (Waiter × Nat)    -- with the address of each access
  ctxbase : Nat
deriving DecidableEq, Repr

/-- A resolution walk (spec/10 R212). -/
structure Walk where
  id : Nat
  next : Nat
  ctx : ACtx
  park : Option Nat := none
  fatal : Option Nat := none                      -- address of a fault declared fatal
  todo : Option (Nat × Nat × Nat × Nat) := none   -- a push that waits: CTX, ENTRY, ARG, record VA
deriving DecidableEq, Repr

/-- A range inside one page, where it lies, and the key slot it was translated under. -/
structure Rng where
  va : Nat
  pa : Nat
  len : Nat
  key : Nat
deriving DecidableEq, Repr

/-- What a BAU piece does (spec/11 R217, R219). -/
inductive PieceOp where
  | fill (val : Nat)
  | copy (src : List Rng)
  | axpy (src : List Rng) (alpha : Nat)
  | scale (alpha : Nat)
  | gather (off : Nat)                       -- a REDUCE source piece, of the elements from `off` on: its range is the piece's own
  | combine                                  -- the REDUCE combining piece
  | row (c : Nat) (g : List Rng)             -- an SCAXPY row piece: the FP32 coefficient, the row's part of g
deriving DecidableEq, Repr

/-- A piece in a bank's queue; elements [lo, hi) of it take an unspecified value (spec/11 R218). -/
structure Piece where
  cmd : Nat
  fmt : Nat
  op : PieceOp
  at_ : Rng
  lo : Nat := 0
  hi : Nat := 0
deriving DecidableEq, Repr

/-- A BAU command in flight: its issuer, what is left of it, and the pieces that no bank queue has taken yet. -/
structure BauCmd where
  seat : Nat
  hart : Nat
  asid : Nat
  tid : Nat
  descVa : Word
  left : Nat
  dst : List Rng
  xdirty : Word
  weight : Nat
  stopped : Bool := false
  todo : List (Nat × Piece) := []    -- bank, piece
  got : AMap (List Nat) := []        -- what the source pieces of a REDUCE have read, by first element
deriving DecidableEq, Repr

/-- A PKL batch held by a unit. -/
structure PklJob where
  seat : Nat
  recPa : Nat                 -- physical address of the batch record
  ctx : ACtx
  weight : Nat
  park : Option Nat := none
  fatal : Option (Nat × Word) := none
  fin : Option (Nat × Nat) := none   -- ended with this RESULT and CAUSE; its completion record is to be posted
deriving DecidableEq, Repr

/-- A waiting ACQ request (spec/07 R128). -/
structure AcqReq where
  hart : Nat
  obj : Nat         -- physical address of the object
  key : Nat         -- key slot of its page
  va : Nat
  shared : Bool
deriving DecidableEq, Repr

/-- Who asks leave. -/
inductive LeaveBy where
  | hart (h : Nat)
  | seq (core slot : Nat)
deriving DecidableEq, Repr

/-- The corrected errors of one structure: the count of the hour being counted, the start of that hour, and whether its passing of
1,024 has been logged (spec/13 R261). -/
structure CorrCount where
  count : Nat := 0
  since : Nat := 0
  logged : Bool := false
deriving DecidableEq, Repr

/-- A compute die: translation slices, page-walk cache, leave, error counters. -/
structure DieSt where
  slices : AMap (List TlbEnt) := []
  pwc : List PwcEnt := []
  leaveOut : Nat := 0
  leaveRecent : List (Nat × Nat) := []       -- time, units
  leaveQ : List (LeaveBy × Nat) := []        -- arrival order, with the units asked
  corr : AMap CorrCount := []                -- corrected errors, by structure
  spares : Nat := 4
  powered : Bool := false
deriving DecidableEq, Repr

/-- What the host sends over the link. -/
inductive HostReq where
  | memRead (pa : Nat)
  | memWrite (pa : Nat) (v : Word)
  | regRead (off : Nat)
  | regWrite (off : Nat) (v : Word)
deriving DecidableEq, Repr

/-- The I/O die (spec/14). -/
structure Io where
  layout : BitVec 256 := 0
  mode : BitVec 6 := 0
  tidTid : BitVec 12 := 0
  tidBusy : Bool := false
  retCtx : Word := 0              -- RETIRE; its GO is done at once and reads 0
  dsel : Word := 0
  pwin : AMap Word := []          -- (tenant 64 + window) 2 + word
  wkey : AMap (BitVec 13) := []   -- tenant 64 + window
  hat : AMap Word := []           -- entry 4 + word
  peer : AMap Word := []          -- aperture 4 + word
  lq : AMap Word := []            -- queue 4 + word
  mb : AMap Word := []            -- mailbox registers by offset
  fhWait : List (List Word) := [] -- firmware-to-host entries that wait, oldest first
  lqRr : AMap Nat := []           -- by priority: the launch queue served last, plus 1
  seqNo : Nat := 0                -- the SEQ that firmware wrote last
  requeue : List Nat := []        -- seats whose gang was pre-empted at the end of its quantum and is to be seated again
  contexts : AMap (Nat × Nat) := []   -- existing contexts (spec/10 R404): CTXBASE, with the µs of the latest bind and the tenant
  keys : AMap Nat := []           -- key slots: 0 empty, else the identity of the loaded key
  keyCtr : Nat := 0
  hostQ : List HostReq := []      -- requests in link order
  hostOut : List Word := []       -- read data returned, oldest first
  devQ : List (Nat × Nat) := []   -- register writes of the device's own side, oldest first: aligned offset, value
  mctpIn : List (List Byte) := []
  mctpOut : List (List Byte) := []
  linkUp : Bool := false
  released : Bool := false        -- platform reset released
  booted : Bool := false
  recovery : Bool := false
  bundle : Mem := []              -- the stored firmware bundle; [] stands for the one of delivery
  running : Mem := []             -- the bundle whose images run
  rollback : Nat := 0
  tid : BitVec 8 := 0             -- PLDM terminus id
  fwState : Nat := 0              -- PLDM firmware update agent state
  fwPrev : Nat := 0
  fwSize : Nat := 0
  fwOff : Nat := 0                -- bytes received
  fwAsked : Bool := false         -- a RequestFirmwareData is outstanding
  fwApplied : Bool := false
  fwData : Mem := []
  mgcDown : BitVec 4 := 0
  mgcLast : AMap Nat := []        -- µs of each management core's latest heartbeat
  mgcDuty : AMap Nat := []        -- duties of management core d are done by this one; unlisted: itself
  takeoverUs : Option Nat := none
  retiring : List Nat := []       -- grid positions whose core a spare replaces at the next bind that names them
  spareChan : AMap Nat := []      -- stack: failing pseudo-channel moved to the spare, plus 1
  dmData : Word := 0              -- the debug module's data registers (RISC-V debug 0.13)
  dmErr : BitVec 3 := 0           -- its cmderr
deriving DecidableEq, Repr

/-- Who moves next. With an empty list the package goes on by itself (Step.lean). -/
inductive Turn where
  | hart (h : Nat)
  | part (h k : Nat)               -- the hart's vector memory instruction is interrupted before element k
  | event (i : Instr)
  | host (r : HostReq)             -- a request arrives over the host link
  | mctp (m : List Byte)           -- a management message arrives
  | evictLine (core line : Nat)    -- a core writes back and drops a cache line
  | evictTlb (core : Nat)          -- a core drops its micro-TLB
  | evictSlice (die slice : Nat)
  | evictI (core : Nat)            -- a core drops its instruction cache
  | drainWc (h : Nat)              -- a write-combining buffer is evicted
  | tick (us : Nat)                -- time passes
deriving DecidableEq, Repr

/-- The machine. Keys: core = 24 row + column; hart = 8 core + slot; seat = 768 die + k; bank = 512 stack + bank. -/
structure State where
  harts : AMap Hart
  cores : AMap CoreSt
  gangs : AMap Gang
  dies : AMap DieSt
  mem : Mem
  lineKey : AMap Nat               -- identity of the key each 64-byte line is stored under; unlisted: none yet
  poison : AMap Bool               -- poisoned 8-byte words, by address / 8
  unspec : List (Nat × Nat × Nat)  -- ranges [lo, hi) that nothing has written since a change of layout, with its number
  binds : AMap Word                -- bind records, seat 4 + word
  seatStat : AMap Word             -- seat status words
  waitUs : AMap Nat                -- µs a seat's record has waited, from its last aging
  faults : List FaultRec
  fwQueue : List (Nat × Nat)       -- firmware fault queues: die, token, oldest first
  walks : List Walk
  banks : AMap (List Piece)
  cmds : AMap BauCmd
  bankErr : AMap Nat               -- elements of the piece at a bank's head that precede an uncorrectable error, plus 1
  pkl : AMap (List PklJob)
  acqs : List AcqReq
  io : Io
  us : Nat
  -- the model's own fields
  agenda : List Turn
  cur : Nat                        -- the hart whose instruction exec performs
  elemLimit : Option Nat           -- the element before which the current vector memory instruction is interrupted
  ctr : Nat                        -- numbers tokens, commands, walks and free values
  rr : Nat                         -- the hart that moved last
deriving DecidableEq, Repr

/-- The machine right after power-on and before reset is released: no gang bound, every store at its reset value
(spec/03 to spec/14; INVENTORY.md '## State'; notes/assumptions/1 to 10). -/
def State.reset : State where
  harts := []
  cores := []
  gangs := []
  dies := []
  mem := []
  lineKey := []
  poison := []
  unspec := []
  binds := []
  seatStat := []
  waitUs := []
  faults := []
  fwQueue := []
  walks := []
  banks := []
  cmds := []
  bankErr := []
  pkl := []
  acqs := []
  io := {}
  us := 0
  agenda := []
  cur := 0
  elemLimit := none
  ctr := 0
  rr := 0

/-- Why the machine stops. -/
inductive Fault where
  /-- Raised by an access to a physical address that the spec's map lists as unpopulated, made by an agent that has no
  access fault of its own to take (firmware or a bank). Safe: the run stops where the hardware may go on. -/
  | noStorage (pa : Nat)
deriving DecidableEq, Repr

/-- Why an instruction has no next state. -/
inductive Refusal where
  /-- Raised by the dispatch arms of instructions without a meaning. Safe: nothing is claimed of such an instruction. -/
  | notModelled (mnemonic : String)
deriving DecidableEq, Repr

end Sys2Proof.Machine
end

