-- ==== Sys2Proof/Machine/Bits.lean ====
section
/-!
DEFINITION. Bit fields, sign extension, byte order and elements of packed data.
-/
namespace Sys2Proof.Machine

/-- Bits [hi:lo] of a number. -/
def fieldOf (n hi lo : Nat) : Nat := (n >>> lo) % 2 ^ (hi + 1 - lo)

/-- Is bit k of a number set? -/
def bitOf (n k : Nat) : Bool := (n >>> k) % 2 == 1

/-- A number with bits [hi:lo] replaced. -/
def withField (n hi lo v : Nat) : Nat :=
  let w := hi + 1 - lo
  n - ((n >>> lo) % 2 ^ w) * 2 ^ lo + (v % 2 ^ w) * 2 ^ lo

/-- A w-bit pattern read as two's complement. -/
def sInt (w n : Nat) : Int :=
  let m := n % 2 ^ w
  if 2 ^ w ≤ 2 * m then (m : Int) - (2 ^ w : Nat) else m

/-- An integer as a w-bit pattern. -/
def wrapInt (w : Nat) (i : Int) : Nat := (i % (2 ^ w : Nat)).toNat

/-- A w-bit pattern sign-extended to 64 bits. -/
def sext64 (w n : Nat) : Word := BitVec.ofNat 64 (wrapInt 64 (sInt w n))

/-- A number as a 64-bit word. -/
def w64 (n : Nat) : Word := BitVec.ofNat 64 n

/-- The k low bytes of a number, lowest first (little-endian, spec/00 R4). -/
def bytesOf : Nat → Nat → List Byte
  | 0, _ => []
  | k + 1, n => BitVec.ofNat 8 n :: bytesOf k (n / 256)

/-- The number a list of bytes holds, lowest first. -/
def natOfBytes : List Byte → Nat
  | [] => 0
  | b :: r => b.toNat + 256 * natOfBytes r

/-- Element i of packed data with elements of sew bits (spec/03 R46). -/
def elemOf (sew g i : Nat) : Nat := (g >>> (sew * i)) % 2 ^ sew

/-- Packed data from its elements, element 0 lowest. -/
def packElems (sew : Nat) (vs : List Nat) : Nat := vs.foldr (fun v acc => acc * 2 ^ sew + v % 2 ^ sew) 0

/-- Packed data with one element replaced. -/
def setElem (sew g i v : Nat) : Nat := withField g (sew * i + sew - 1) (sew * i) v

/-- Round up to a multiple. -/
def roundUp (n k : Nat) : Nat := (n + k - 1) / k * k

/-- The low bits of a number. -/
def lowBits (n k : Nat) : Nat := n % 2 ^ k

/-- The unsigned reading of a signed 32-bit field, as an integer. -/
def sInt32 (n : Nat) : Int := sInt 32 n

end Sys2Proof.Machine
end

