-- ==== Sys2Proof/Machine/Num.lean ====
section
/-!
DEFINITION. Number formats and arithmetic (spec/04): what a bit pattern means, exact values, rounding with its flags,
and the scale rules of block and paired-exponent formats. Arithmetic is exact on natural-number ratios and is narrowed
once, at the end.
-/
namespace Sys2Proof.Machine

/-! ### Flags: the bits of `xvflags` (spec/03 Table 3-4) and of `fflags` -/

def flNX : Nat := 1
def flUF : Nat := 2
def flOF : Nat := 4
def flDZ : Nat := 8
def flNV : Nat := 16
def flSAT : Nat := 32

/-! ### Rounding modes -/

/-- A rounding mode after the dynamic code is resolved (spec/04 R66). -/
inductive Rnd where | rne | rtz | rdn | rup | rmm | sr
deriving DecidableEq, Repr

/-- The mode of a code 000 to 101 (spec/04 R66); any other value cannot stand in `xvrm` (spec/03 Table 3-4). -/
def rndOfCode (n : Nat) : Rnd :=
  match n with
  | 0 => .rne | 1 => .rtz | 2 => .rdn | 3 => .rup | 4 => .rmm | _ => .sr

/-- The mode an instruction's code selects, the dynamic code taking `xvrm`. -/
def rndOf (c : RndCode) (xvrm : Nat) : Rnd :=
  match c with
  | .rne => .rne | .rtz => .rtz | .rdn => .rdn | .rup => .rup | .rmm => .rmm | .sr => .sr
  | .dyn => rndOfCode xvrm

/-! ### Formats (spec/04 Table 4-1, spec/03 Table 3-11) -/

/-- What the top exponent code of a floating-point format holds. -/
inductive TopKind where
  | ieee   -- infinities and NaNs
  | nan    -- one NaN only (E4M3)
  | num    -- ordinary numbers
deriving DecidableEq, Repr

/-- A floating-point format: exponent and mantissa widths, bias, and its top exponent code. -/
structure FSpec where
  eb : Nat
  mb : Nat
  bias : Nat
  top : TopKind
deriving DecidableEq, Repr

/-- The floating-point format of a code, for the nine formats of Table 4-1. -/
def fspec : Fmt → Option FSpec
  | .fp64 => some ⟨11, 52, 1023, .ieee⟩
  | .fp32 => some ⟨8, 23, 127, .ieee⟩
  | .fp16 => some ⟨5, 10, 15, .ieee⟩
  | .bf16 => some ⟨8, 7, 127, .ieee⟩
  | .e4m3 => some ⟨4, 3, 7, .nan⟩
  | .e5m2 => some ⟨5, 2, 15, .ieee⟩
  | .e2m3 => some ⟨2, 3, 1, .num⟩
  | .e3m2 => some ⟨3, 2, 3, .num⟩
  | .e2m1 => some ⟨2, 1, 1, .num⟩
  | _ => none

/-- An element as it is written into its container: bits [7:6] of a 6-bit format are zero (spec/04 R60). -/
def inContainer (f : Fmt) (v : Nat) : Nat :=
  match f with
  | .e2m3 | .e3m2 => v % 64
  | _ => v

/-- Mantissa bits of a paired-exponent format (spec/04 R63). -/
def peBits : Fmt → Option Nat
  | .pe3 => some 2 | .pe5 => some 4 | .pe8 => some 7 | _ => none

/-- Container width in bits, SEW (spec/03 Table 3-11). -/
def fmtSew : Fmt → Nat
  | .i8 => 8 | .i16 => 16 | .i32 => 32 | .i64 => 64 | .i4 => 4
  | .fp64 => 64 | .fp32 => 32 | .fp16 => 16 | .bf16 => 16
  | .e4m3 => 8 | .e5m2 => 8 | .e2m3 => 8 | .e3m2 => 8 | .e2m1 => 4
  | .pe3 => 4 | .pe5 => 8 | .pe8 => 8 | .scw => 16 | .raw => 8

/-- Is it one of the five integer formats? -/
def fmtIsInt : Fmt → Bool
  | .i8 | .i16 | .i32 | .i64 | .i4 => true
  | _ => false

/-- Is it one of the nine formats of Table 4-1? -/
def fmtIsFp (f : Fmt) : Bool := (fspec f).isSome

/-- Is it a paired-exponent format? -/
def fmtIsPe (f : Fmt) : Bool := (peBits f).isSome

/-- Does the format admit BLK other than 0 (spec/02 R26)? -/
def fmtBlockable : Fmt → Bool
  | .e4m3 | .e5m2 | .e2m3 | .e3m2 | .e2m1 | .pe3 | .pe5 | .pe8 => true
  | _ => false

/-- Is (format, BLK) a combination that does not set VILL (spec/02 R26)? -/
def fmtBlkOk (f : Fmt) (blk : Nat) : Bool :=
  if fmtIsPe f then blk == 1 else blk == 0 || fmtBlockable f

/-- Block length of a BLK code: 16, 32, 64 elements; 0 for none. -/
def blockLen (blk : Nat) : Nat := if blk = 0 then 0 else 8 * 2 ^ blk

/-! ### Exact values -/

/-- The value of a bit pattern: NaN, infinity, or the exact number `(-1)^neg * m * 2^e`. -/
inductive FVal where
  | nan (signalling : Bool)
  | inf (neg : Bool)
  | fin (neg : Bool) (m : Nat) (e : Int)
deriving DecidableEq, Repr

/-- The value of a pattern of a Table 4-1 format (spec/04 R60). Bits above the format's width are ignored. -/
def fdecode (f : FSpec) (bits : Nat) : FVal :=
  let m := bits % 2 ^ f.mb
  let e := bits / 2 ^ f.mb % 2 ^ f.eb
  let s := bits / 2 ^ (f.mb + f.eb) % 2 == 1
  let top := 2 ^ f.eb - 1
  if e = top ∧ f.top = .ieee then
    if m = 0 then .inf s else .nan (m / 2 ^ (f.mb - 1) == 0)
  else if e = top ∧ f.top = .nan ∧ m = 2 ^ f.mb - 1 then .nan false
  else if e = 0 then .fin s m (1 - (f.bias : Int) - f.mb)
  else .fin s (2 ^ f.mb + m) ((e : Int) - f.bias - f.mb)

/-- Scale a value by `2^k`; exact. -/
def fscale (v : FVal) (k : Int) : FVal :=
  match v with
  | .fin s m e => .fin s m (e + k)
  | v => v

/-- The value of a paired-exponent element with `mbits` mantissa bits, shared exponent `E` and micro-exponent `mu`
(spec/04 R63). -/
def peDecode (mbits bits E mu : Nat) : FVal :=
  if E = 255 then .nan false
  else .fin (bits / 2 ^ mbits % 2 == 1) (bits % 2 ^ mbits) ((E : Int) - 127 - mu - mbits + 1)

/-- The canonical NaN (spec/04 R68); formats without a NaN give 0 (Table 4-2). -/
def canonNaN (f : FSpec) : Nat :=
  match f.top with
  | .ieee => (2 ^ f.eb - 1) * 2 ^ f.mb + 2 ^ (f.mb - 1)
  | .nan => 2 ^ (f.eb + f.mb) - 1
  | .num => 0

/-- The pattern of the largest finite magnitude. -/
def maxFinite (f : FSpec) : Nat :=
  match f.top with
  | .ieee => (2 ^ f.eb - 1) * 2 ^ f.mb - 1
  | .nan => 2 ^ (f.eb + f.mb) - 2
  | .num => 2 ^ (f.eb + f.mb) - 1

/-- The sign bit in place. -/
def signBit (f : FSpec) (neg : Bool) : Nat := if neg then 2 ^ (f.eb + f.mb) else 0

/-! ### An exact result before its one rounding -/

/-- The result of an operation before rounding: `rat neg n d` is `(-1)^neg * n / d` with `n` and `d` not 0. -/
inductive FOut where
  | nan
  | inf (neg : Bool)
  | zero (neg : Bool)
  | rat (neg : Bool) (n d : Nat)
deriving DecidableEq, Repr

/-- A dyadic number as a ratio. -/
def dyad (neg : Bool) (m : Nat) (e : Int) : FOut :=
  if m = 0 then .zero neg
  else if 0 ≤ e then .rat neg (m * 2 ^ e.toNat) 1 else .rat neg m (2 ^ (-e).toNat)

/-- A value as an unrounded result. -/
def foutOf (v : FVal) : FOut :=
  match v with
  | .nan _ => .nan
  | .inf s => .inf s
  | .fin s m e => dyad s m e

/-- floor(log2(n / d)) for n, d > 0. -/
def ilog2 (n d : Nat) : Int :=
  let g : Int := (Nat.log2 n : Int) - (Nat.log2 d : Int)
  -- the quotient lies between 2^(g-1) and 2^(g+1)
  if (if 0 ≤ g then d * 2 ^ g.toNat ≤ n else d ≤ n * 2 ^ (-g).toNat) then g else g - 1

/-- floor of n / (d * 2^q) and the remainder over its denominator. -/
def divPow (n d : Nat) (q : Int) : Nat × Nat × Nat :=
  let n' := if q < 0 then n * 2 ^ (-q).toNat else n
  let d' := if q < 0 then d else d * 2 ^ q.toNat
  (n' / d', n' % d', d')

/-- Does the magnitude `lo + r / d` round up (spec/04 R66, R67)? -/
def roundsUp (rm : Rnd) (neg : Bool) (draw lo r d : Nat) : Bool :=
  match rm with
  | .rne => decide (2 * r > d) || (decide (2 * r = d) && lo % 2 == 1)
  | .rtz => false
  | .rdn => neg && r != 0
  | .rup => !neg && r != 0
  | .rmm => decide (2 * r ≥ d) && r != 0
  | .sr => decide (r * 65536 / d + draw ≥ 65536)

/-- Does a finite overflow give the infinity rather than the largest finite value (IEEE 754; R67 for stochastic)? -/
def overflowToInf (rm : Rnd) (neg : Bool) : Bool :=
  match rm with
  | .rne | .rmm | .sr => true
  | .rtz => false
  | .rdn => neg
  | .rup => !neg

/-- Round the ratio n / d to a Table 4-1 format: pattern and flags (spec/04 R66, R67, R69, R70 for BLK 0). -/
def roundRat (f : FSpec) (rm : Rnd) (draw : Nat) (neg : Bool) (n d : Nat) : Nat × Nat :=
  let p : Int := f.mb
  let emin : Int := 1 - (f.bias : Int)
  let emax : Int := ((2 ^ f.eb - 1 : Nat) : Int) - (if f.top = .ieee then 1 else 0) - f.bias
  let e := ilog2 n d
  let q := if rm = .sr then min (max e emin) emax - p else max e emin - p
  let (lo, r, dd) := divPow n d q
  let up := roundsUp rm neg draw lo r dd
  let mag := if up then lo + 1 else lo
  let inexact := r != 0
  -- the largest finite magnitude in units of 2^q
  let F := maxFinite f
  let fm := 2 ^ f.mb + F % 2 ^ f.mb
  let fe : Int := ((F / 2 ^ f.mb : Nat) : Int) - f.bias - f.mb
  let ovf : Bool := if fe ≤ q then decide (fm < mag * 2 ^ (q - fe).toNat) else decide (fm * 2 ^ (fe - q).toNat < mag)
  let sb := signBit f neg
  if ovf then
    if f.top = .ieee then
      if overflowToInf rm neg then (sb + (2 ^ f.eb - 1) * 2 ^ f.mb, flOF + flNX) else (sb + F, flOF + flNX)
    else (sb + F, flOF + flSAT + flNX)
  else
    let bits :=
      if mag < 2 ^ f.mb then mag
      else if mag = 2 ^ (f.mb + 1) then ((q + p + 1 + f.bias).toNat) * 2 ^ f.mb
      else ((q + p + f.bias).toNat) * 2 ^ f.mb + (mag - 2 ^ f.mb)
    -- tininess: the value rounded with an unbounded exponent range (RNE when stochastic) lies below 2^emin
    let q' := e - p
    let (lo', r', d') := divPow n d q'
    let up' := roundsUp (if rm = .sr then .rne else rm) neg 0 lo' r' d'
    let mag' := if up' then lo' + 1 else lo'
    let tiny : Bool := decide (e < emin) && !(decide (e = emin - 1) && decide (mag' = 2 ^ (f.mb + 1)))
    (sb + bits, if inexact then flNX + (if tiny then flUF else 0) else 0)

/-- Narrow a result to a Table 4-1 format with BLK 0: pattern and flags (spec/04 R68, Table 4-2). -/
def narrow (f : FSpec) (rm : Rnd) (draw : Nat) (x : FOut) : Nat × Nat :=
  match x with
  | .nan => (canonNaN f, if f.top = .num then flNV else 0)
  | .inf s =>
    if f.top = .ieee then (signBit f s + (2 ^ f.eb - 1) * 2 ^ f.mb, 0) else (signBit f s + maxFinite f, flNV + flSAT)
  | .zero s => (signBit f s, 0)
  | .rat s n d => roundRat f rm draw s n d

/-- Does narrowing the result take a draw under stochastic rounding (spec/04 R67)? -/
def takesDraw (x : FOut) : Bool :=
  match x with
  | .zero _ | .rat _ _ _ => true
  | _ => false

/-- Round a ratio to an integer: sign and magnitude, and whether it was inexact. -/
def roundInt (rm : Rnd) (draw : Nat) (neg : Bool) (n d : Nat) : Nat × Bool :=
  let lo := n / d
  let r := n % d
  (if roundsUp rm neg draw lo r d then lo + 1 else lo, r != 0)

/-- Narrow a result to an integer of `w` bits: two's-complement pattern and flags (spec/04 Table 4-2, Integers row).
`signed` gives the range. A stochastic overflow sets what that row gives, NV and SAT, and not OF and NX (DESIGN CHOICE,
notes/assumptions/55). -/
def narrowInt (w : Nat) (signed : Bool) (rm : Rnd) (draw : Nat) (x : FOut) : Nat × Nat :=
  let hi : Nat := if signed then 2 ^ (w - 1) - 1 else 2 ^ w - 1
  let loMag : Nat := if signed then 2 ^ (w - 1) else 0
  let clampNeg : Nat := if signed then 2 ^ (w - 1) else 0
  match x with
  | .nan => (0, flNV)
  | .inf s => (if s then clampNeg else hi, flNV + flSAT)
  | .zero _ => (0, 0)
  | .rat s n d =>
    let (m, ix) := roundInt rm draw s n d
    if s then
      if m > loMag then (clampNeg, flNV + flSAT) else ((2 ^ w - m) % 2 ^ w, if ix then flNX else 0)
    else if m > hi then (hi, flNV + flSAT) else (m, if ix then flNX else 0)

/-! ### Operations -/

/-- Is it a signalling NaN? -/
def isSig (v : FVal) : Bool := match v with | .nan true => true | _ => false
/-- Is it a NaN? -/
def isNaN (v : FVal) : Bool := match v with | .nan _ => true | _ => false
/-- Flags of the signalling NaNs among the inputs (spec/04 R68). -/
def sigFlags (vs : List FVal) : Nat := if vs.any isSig then flNV else 0

/-- A signed dyadic as an integer at exponent `e0`, which must not exceed `e`. -/
def atExp (s : Bool) (m : Nat) (e e0 : Int) : Int :=
  let k : Int := (m * 2 ^ (e - e0).toNat : Nat)
  if s then -k else k

/-- The exact sum of two dyadic numbers, with the sign of a zero by spec/04 R71. -/
def addFin (rm : Rnd) (s1 : Bool) (m1 : Nat) (e1 : Int) (s2 : Bool) (m2 : Nat) (e2 : Int) : FOut :=
  if m1 = 0 ∧ m2 = 0 then .zero (if s1 = s2 then s1 else decide (rm = .rdn))
  else
    let e0 := if m1 = 0 then e2 else if m2 = 0 then e1 else min e1 e2
    let x := (if m1 = 0 then 0 else atExp s1 m1 e1 e0) + (if m2 = 0 then 0 else atExp s2 m2 e2 e0)
    if x = 0 then .zero (decide (rm = .rdn)) else dyad (decide (x < 0)) x.natAbs e0

/-- Negate a value. -/
def fneg (v : FVal) : FVal :=
  match v with
  | .inf s => .inf !s
  | .fin s m e => .fin (!s) m e
  | v => v

/-- Addition: unrounded result and flags. -/
def faddV (rm : Rnd) (a b : FVal) : FOut × Nat :=
  match a, b with
  | .nan _, _ => (.nan, sigFlags [a, b])
  | _, .nan _ => (.nan, sigFlags [a, b])
  | .inf s, .inf t => if s = t then (.inf s, 0) else (.nan, flNV)
  | .inf s, _ => (.inf s, 0)
  | _, .inf t => (.inf t, 0)
  | .fin s m e, .fin t n k => (addFin rm s m e t n k, 0)

/-- The exact product of two values that are no NaN; a zero times an infinity gives none. -/
def mulExact (a b : FVal) : Option FVal :=
  match a, b with
  | .inf s, .inf t => some (.inf (s != t))
  | .inf s, .fin t n _ => if n = 0 then none else some (.inf (s != t))
  | .fin s m _, .inf t => if m = 0 then none else some (.inf (s != t))
  | .fin s m e, .fin t n k => some (.fin (s != t) (m * n) (e + k))
  | _, _ => none

/-- Multiplication. -/
def fmulV (a b : FVal) : FOut × Nat :=
  if isNaN a || isNaN b then (.nan, sigFlags [a, b])
  else match mulExact a b with
    | some v => (foutOf v, 0)
    | none => (.nan, flNV)

/-- Fused multiply-add: the product is exact and the result is rounded once (spec/04 R72). A zero times an infinity is
invalid whatever the addend. -/
def ffmaV (rm : Rnd) (a b c : FVal) : FOut × Nat :=
  if isNaN a || isNaN b then (.nan, sigFlags [a, b, c])
  else match mulExact a b with
    | none => (.nan, flNV)
    | some p => if isNaN c then (.nan, sigFlags [c]) else faddV rm p c

/-- Division. -/
def fdivV (a b : FVal) : FOut × Nat :=
  match a, b with
  | .nan _, _ => (.nan, sigFlags [a, b])
  | _, .nan _ => (.nan, sigFlags [a, b])
  | .inf _, .inf _ => (.nan, flNV)
  | .inf s, .fin t _ _ => (.inf (s != t), 0)
  | .fin s _ _, .inf t => (.zero (s != t), 0)
  | .fin s m e, .fin t n k =>
    if n = 0 then (if m = 0 then (.nan, flNV) else (.inf (s != t), flDZ))
    else if m = 0 then (.zero (s != t), 0)
    else
      let q := e - k
      if 0 ≤ q then (.rat (s != t) (m * 2 ^ q.toNat) n, 0) else (.rat (s != t) m (n * 2 ^ (-q).toNat), 0)

/-- Bits of a square root found from the top: `sqrtGo k n acc` extends `acc` with the next k bits. -/
def sqrtGo : Nat → Nat → Nat → Nat
  | 0, _, acc => acc
  | k + 1, n, acc =>
    let t := acc + 2 ^ k
    sqrtGo k n (if t * t ≤ n then t else acc)

/-- The integer square root. -/
def isqrt (n : Nat) : Nat := sqrtGo (Nat.log2 n / 2 + 1) n 0

/-- Square root. A result that is not exact carries one sticky bit below 80 exact ones, so that every rounding of it is
the rounding of the true root. -/
def fsqrtV (a : FVal) : FOut × Nat :=
  match a with
  | .nan _ => (.nan, sigFlags [a])
  | .inf s => if s then (.nan, flNV) else (.inf false, 0)
  | .fin s m e =>
    if m = 0 then (.zero s, 0)
    else if s then (.nan, flNV)
    else
      let m1 := if e % 2 = 0 then m else 2 * m
      let e1 := if e % 2 = 0 then e else e - 1
      let big := m1 * 2 ^ 160
      let r := isqrt big
      let st := if r * r = big then 0 else 1
      -- root = (2 r + st) * 2^(e1/2 - 81)
      (dyad false (2 * r + st) (e1 / 2 - 81), 0)

/-- Compare two finite values: negative, zero or positive difference. -/
def cmpFin (s : Bool) (m : Nat) (e : Int) (t : Bool) (n : Nat) (k : Int) : Int :=
  if m = 0 ∧ n = 0 then 0
  else
    let e0 := if m = 0 then k else if n = 0 then e else min e k
    (if m = 0 then 0 else atExp s m e e0) - (if n = 0 then 0 else atExp t n k e0)

/-- Less-than on values that are no NaN; zeros of either sign are equal. -/
def fltV (a b : FVal) : Bool :=
  match a, b with
  | .inf s, .inf t => s && !t
  | .inf s, _ => s
  | _, .inf t => !t
  | .fin s m e, .fin t n k => decide (cmpFin s m e t n k < 0)
  | _, _ => false

/-- Equality on values that are no NaN. -/
def feqV (a b : FVal) : Bool :=
  match a, b with
  | .inf s, .inf t => s == t
  | .fin s m e, .fin t n k => decide (cmpFin s m e t n k = 0)
  | _, _ => false

/-- The sign of a value. -/
def fsignV (v : FVal) : Bool := match v with | .nan _ => false | .inf s => s | .fin s _ _ => s

/-- Minimum choice by spec/04 R68: `true` takes the first operand. −0 is less than +0. -/
def minTakesFirst (a b : FVal) : Bool :=
  if fltV a b then true else if fltV b a then false else fsignV a || !fsignV b

/-- The magnitude of a value. -/
def fabsV (v : FVal) : FVal :=
  match v with
  | .inf _ => .inf false
  | .fin _ m e => .fin false m e
  | v => v

/-! ### The stochastic generator (spec/04 R67) -/

/-- One step of the generator: the new state. -/
def srNext (seed : Nat) : Nat :=
  let m := 2 ^ 64
  let s := if seed = 0 then 1 else seed
  let s := s ^^^ (s * 2 ^ 13 % m)
  let s := s ^^^ (s / 2 ^ 7)
  s ^^^ (s * 2 ^ 17 % m)

/-- The 16-bit value drawn at a state just stepped to. -/
def srValue (s : Nat) : Nat := (s ^^^ (s / 2 ^ 32)) % 65536

/-- What threads through the roundings of an instruction: the generator's state and the flags raised so far. -/
structure NumSt where
  seed : Nat
  flags : Nat
deriving DecidableEq, Repr

/-- Or flags in. -/
def NumSt.or (st : NumSt) (f : Nat) : NumSt := { st with flags := st.flags ||| f }

/-- Narrow a result, taking a draw when the mode is stochastic and the value passes through the rounding step. -/
def narrowSt (f : FSpec) (rm : Rnd) (x : FOut) (st : NumSt) : Nat × NumSt :=
  let draws := decide (rm = .sr) && takesDraw x
  let seed := if draws then srNext st.seed else st.seed
  let (b, fl) := narrow f rm (if draws then srValue seed else 0) x
  (b, ⟨seed, st.flags ||| fl⟩)

/-- Narrow to an integer likewise. -/
def narrowIntSt (w : Nat) (signed : Bool) (rm : Rnd) (x : FOut) (st : NumSt) : Nat × NumSt :=
  let draws := decide (rm = .sr) && takesDraw x
  let seed := if draws then srNext st.seed else st.seed
  let (b, fl) := narrowInt w signed rm (if draws then srValue seed else 0) x
  (b, ⟨seed, st.flags ||| fl⟩)

/-! ### Block and paired-exponent conversion (spec/04 R62, R65) -/

/-- One source element of a block: its value and whether it is active. -/
abbrev BlkElem := FVal × Bool

/-- The larger magnitude of two finite values, as a ratio. -/
def magMax (a b : Nat × Nat) : Nat × Nat := if a.1 * b.2 < b.1 * a.2 then b else a

/-- The magnitude of a finite value as a ratio; 0 for anything else. -/
def magOf (v : FVal) : Nat × Nat :=
  match v with
  | .fin _ m e => if 0 ≤ e then (m * 2 ^ e.toNat, 1) else (m, 2 ^ (-e).toNat)
  | _ => (0, 1)

/-- The largest magnitude of a list of values. -/
def amaxOf (vs : List FVal) : Nat × Nat := vs.foldl (fun a v => magMax a (magOf v)) (0, 1)

/-- Is it an infinity? -/
def isInf (v : FVal) : Bool := match v with | .inf _ => true | _ => false

/-- ceil(log2(n / d)) for n, d > 0. -/
def clog2Rat (n d : Nat) : Int :=
  let e := ilog2 n d
  let exact : Bool := if 0 ≤ e then n == d * 2 ^ e.toNat else n * 2 ^ (-e).toNat == d
  if exact then e else e + 1

/-- Round an element of a block: a ratio scaled by 2^-k, saturating at the largest finite value. UF only when a
non-zero element rounds to zero (spec/04 R62, R70). -/
def blkElemRound (f : FSpec) (rm : Rnd) (v : FVal) (k : Int) (st : NumSt) : Nat × NumSt :=
  let x := foutOf (fscale v (-k))
  let draws := decide (rm = .sr)
  let seed := if draws then srNext st.seed else st.seed
  let sat (s : Bool) := (signBit f s + maxFinite f, flOF + flSAT + flNX)
  let r : Nat × Nat :=
    match x with
    | .rat s n d =>
      let (b, fl) := roundRat f rm (if draws then srValue seed else 0) s n d
      if fl &&& flOF ≠ 0 then sat s
      else (b, (fl &&& flNX) ||| (if b % 2 ^ (f.eb + f.mb) = 0 then flUF ||| flNX else 0))
    | .zero s => (signBit f s, 0)
    | _ => (0, 0)
  (r.1, ⟨seed, st.flags ||| r.2⟩)

/-- Convert one block of a scaled format: the E8 scale and the element patterns (spec/04 R62). Elements that are not
active are left out of the result list's effect by the caller; they take no draw. -/
def blkConvert (f : FSpec) (rm : Rnd) (es : List BlkElem) (st : NumSt) : Nat × List Nat × NumSt :=
  let vs := es.map (·.1)
  if vs.any (fun v => isNaN v || isInf v) then
    (255, es.map fun _ => 0, st.or (if vs.any isInf then flNV else 0))
  else
    let (n, d) := amaxOf vs
    if n = 0 then (127, vs.map fun v => signBit f (fsignV v), st)
    else
      let F := maxFinite f
      let fm := 2 ^ f.mb + F % 2 ^ f.mb
      let fe : Int := ((F / 2 ^ f.mb : Nat) : Int) - f.bias - f.mb
      let (n', d') := if 0 ≤ fe then (n, d * (fm * 2 ^ fe.toNat)) else (n * 2 ^ (-fe).toNat, d * fm)
      let e0 : Int := 127 + clog2Rat n' d'
      let e : Nat := if e0 < 0 then 0 else if e0 > 254 then 254 else e0.toNat
      let (out, st') := es.foldl (fun (acc : List Nat × NumSt) el =>
        if el.2 then
          let (b, s') := blkElemRound f rm el.1 ((e : Int) - 127) acc.2
          (b :: acc.1, s')
        else (0 :: acc.1, acc.2)) ([], st)
      (e, out.reverse, st')

/-- Compare n / d * 2^(-k), rounded to an integer at RNE, with a bound. -/
def rneAt (n d : Nat) (k : Int) : Nat :=
  let (lo, r, dd) := divPow n d k
  if roundsUp .rne false 0 lo r dd then lo + 1 else lo

/-- The larger magnitude of pair j. -/
def pairMax (vs : List FVal) (j : Nat) : Nat × Nat :=
  amaxOf ((vs.drop (2 * j)).take 2)

/-- Convert one sub-block of a paired-exponent format: the scale word and the element patterns (spec/04 R65). -/
def peConvert (mbits : Nat) (rm : Rnd) (es : List BlkElem) (st : NumSt) : Nat × List Nat × NumSt :=
  let vs := es.map (·.1)
  if vs.any (fun v => isNaN v || isInf v) then
    (255, es.map fun _ => 0, st.or (if vs.any isInf then flNV else 0))
  else
    let (n, d) := amaxOf vs
    if n = 0 then (0, vs.map fun v => if fsignV v then 2 ^ mbits else 0, st)
    else
      let ea : Int := ilog2 n d + 127
      let ub (E : Int) : Int := E - 126 - mbits
      let eb : Int := if rneAt n d (ub ea) = 2 ^ mbits then ea + 1 else ea
      let ec : Int := if eb > 254 then 254 else if eb < 0 then 0 else eb
      let E := ec.toNat
      let k0 := ub ec
      let mu (j : Nat) : Nat :=
        let (pn, pd) := pairMax vs j
        if rneAt pn pd (k0 - 1) < 2 ^ mbits then 1 else 0
      let step (acc : List Nat × NumSt × Nat) (el : BlkElem) : List Nat × NumSt × Nat :=
        let (out, s0, i) := acc
        if el.2 then
          match el.1 with
          | .fin s m e =>
            let k := k0 - (mu (i / 2) : Int)
            let draws := decide (rm = .sr)
            let seed := if draws then srNext s0.seed else s0.seed
            let (mn, md) := magOf (.fin s m e)
            let (lo, r, dd) := divPow mn md k
            let up := roundsUp rm s (if draws then srValue seed else 0) lo r dd
            let mag := if up then lo + 1 else lo
            let ovf := decide (2 ^ mbits ≤ mag)
            let mag' := if ovf then 2 ^ mbits - 1 else mag
            let fl := if ovf then flOF + flSAT + flNX
              else if r = 0 then 0 else flNX + (if mag' = 0 then flUF else 0)
            (((if s then 2 ^ mbits else 0) + mag') :: out, ⟨seed, s0.flags ||| fl⟩, i + 1)
          | _ => (0 :: out, s0, i + 1)
        else (0 :: out, s0, i + 1)
      let (out, st', _) := es.foldl step ([], st, 0)
      let word := E + (List.range 8).foldl (fun a j => a + mu j * 2 ^ (8 + j)) 0
      (word, out.reverse, st')

end Sys2Proof.Machine
end

