-- ==== Sys2Proof/Machine/Pattern.lean ====
section
/-!
DEFINITION. Stream descriptors taken apart, and the ranges of memory that a memory port, an address generator or a reduction tree
can reach (spec/10 R199, spec/07 R138, spec/08 Table 8-9).
-/
namespace Sys2Proof.Machine

/-- A stream descriptor taken apart. -/
structure Pat where
  base : Nat
  sbase : Nat
  bound : Nat
  rowelem : Nat
  f : Fmt
  blk : Nat
  store : Bool
  cq : Nat
  cnt0 : Nat
  cnt1 : Nat
  cnt2 : Nat
  str0 : Int
  str1 : Int
  str2 : Int
deriving DecidableEq, Repr

/-- The words of a descriptor of 64 bytes. -/
def descWords (r : Nat) : AMap Word := (List.range 8).filterMap fun i =>
  let w := w64 (elemOf 64 r i)
  if w = 0 then none else some (i, w)

/-- Take a descriptor apart, its format codes as given. -/
def patOf (d : AMap Word) : Pat :=
  let w (i : Nat) := (aget 0 d i).toNat
  { base := w 0, sbase := w 1, bound := w 2, rowelem := fieldOf (w 3) 31 0,
    f := (Fmt.ofCode (fieldOf (w 3) 36 32)).getD .i8, blk := fieldOf (w 3) 46 45, store := bitOf (w 3) 40,
    cq := fieldOf (w 3) 44 41, cnt0 := fieldOf (w 4) 31 0, cnt1 := fieldOf (w 4) 63 32, cnt2 := fieldOf (w 5) 31 0,
    str0 := sInt 32 (fieldOf (w 5) 63 32), str1 := sInt 32 (fieldOf (w 6) 31 0), str2 := sInt 32 (fieldOf (w 6) 63 32) }

/-- Bytes of k elements of a row in memory, rounded up. -/
def rowBytes (p : Pat) (k : Nat) : Nat :=
  match peBits p.f with
  | some m => k / 16 * 2 * (m + 1)
  | none => (k * fmtSew p.f + 7) / 8

/-- The smallest range that holds all rows. -/
def patRange (p : Pat) : Nat × Nat :=
  let ext (n : Nat) (s : Int) : Int × Int :=
    let e := ((n - 1 : Nat) : Int) * s
    (min 0 e, max 0 e)
  let a := ext p.cnt0 p.str0
  let b := ext p.cnt1 p.str1
  let c := ext p.cnt2 p.str2
  (((p.base : Int) + a.1 + b.1 + c.1).toNat, ((p.base : Int) + a.2 + b.2 + c.2 + rowBytes p p.rowelem).toNat)

/-- The addresses that indices of w bits reach from a base: an address generator's, or a reduction tree's (spec/08 R155). -/
def indexReach (base w : Nat) : Nat × Nat :=
  if base + 2 ^ w + 8 ≤ 2 ^ 64 then (base, base + 2 ^ w + 8) else (0, 2 ^ 64)

end Sys2Proof.Machine
end

