-- ==== Sys2Proof/Config.lean ====
section
/-!
DEFINITION. What an implementation fixes and the spec leaves open, and the free values. Each is opaque: a statement about
the model holds whatever it is.
-/
namespace Sys2Proof.Config

/-- The n-th free value of a width: a value the spec calls unspecified, or does not state (notes/assumptions/12). -/
opaque freeBits : (w : Nat) → Nat → BitVec w

/-- The 256 bits of a key, by its identity (spec/06 R111, spec/14 R271). -/
opaque keyBits : Nat → BitVec 256

/-- A byte that nothing has written since its extent's layout changed (spec/06 R101): which change, and the address. -/
opaque extentByte : Nat → Nat → Byte

/-- The device serial number, fused (spec/14 Table 14-2). -/
opaque serial : BitVec 64

/-- Where firmware keeps its copy of the launch record of a seat (spec/12 Table 12-2 LREF). -/
opaque lrefAt : Nat → BitVec 46

/-- The leave units of a die's budget above the architectural 16 (spec/12 R243). -/
opaque leaveExtra : Nat → Nat

/-- The ECDSA P-521 signature that the security engine makes over a report (spec/13 R263). -/
opaque signature : List Byte → BitVec 1056

/-- The number of firmware images that run (spec/13 R263). -/
opaque imageCount : Nat

/-- Another Ianum 9100 whose device key made a signature over a report's body, if any (spec/13 R258). -/
opaque signer : List Byte → BitVec 1056 → Option (BitVec 64)

/-- Is a firmware digest on the list of the tenant that a key, by its identity, belongs to (spec/13 R258)? -/
opaque digestListed : Nat → BitVec 512 → Bool

/-- A key wrapped for a device, by the device's identity (spec/13 R258). -/
opaque wrapKey : BitVec 256 → BitVec 64 → List Byte

/-- The key that another device wrapped for this one, or none where it does not verify (spec/14 R271). -/
opaque unwrapKey : List Byte → Option Nat

/-- Image n of a firmware bundle: its bytes by offset, and their number (spec/13 R263). -/
opaque bundleImage : List (Nat × Byte) → Nat → List (Nat × Byte)
opaque imageLen : List (Nat × Byte) → Nat → Nat

/-- Do the signatures of a firmware bundle verify, and what is its version (spec/13 R263)? By byte and offset. -/
opaque bundleOk : List (Nat × Byte) → Bool
opaque bundleVersion : List (Nat × Byte) → Nat

/-- The payload of a management reply whose contents the standards, not the spec, give (spec/14 R274). -/
opaque pldmPayload : List Byte → List Byte

/-- A sensor's reading at a time (spec/14 R274). -/
opaque sensor : Nat → Nat → BitVec 32

end Sys2Proof.Config
end

