-- ==== Sys2Proof/Machine/Aes.lean ====
section
/-!
DEFINITION. AES with a 128-bit key (FIPS 197), and XTS-AES over one 64-byte line (IEEE 1619, spec/00 R3, spec/06 R111): the 256-bit
key is the data key, then the tweak key, and the data unit's number is the line's, PA[51:6] (notes/assumptions/52).
-/
namespace Sys2Proof.Machine

/-! ### Substitution tables, by quarters -/

/-- The S-box (FIPS 197, 5.1.1). -/
def aesS0 : List Byte := [
  0x63, 0x7C, 0x77, 0x7B, 0xF2, 0x6B, 0x6F, 0xC5, 0x30, 0x01, 0x67, 0x2B, 0xFE, 0xD7, 0xAB, 0x76,
  0xCA, 0x82, 0xC9, 0x7D, 0xFA, 0x59, 0x47, 0xF0, 0xAD, 0xD4, 0xA2, 0xAF, 0x9C, 0xA4, 0x72, 0xC0,
  0xB7, 0xFD, 0x93, 0x26, 0x36, 0x3F, 0xF7, 0xCC, 0x34, 0xA5, 0xE5, 0xF1, 0x71, 0xD8, 0x31, 0x15,
  0x04, 0xC7, 0x23, 0xC3, 0x18, 0x96, 0x05, 0x9A, 0x07, 0x12, 0x80, 0xE2, 0xEB, 0x27, 0xB2, 0x75]
def aesS1 : List Byte := [
  0x09, 0x83, 0x2C, 0x1A, 0x1B, 0x6E, 0x5A, 0xA0, 0x52, 0x3B, 0xD6, 0xB3, 0x29, 0xE3, 0x2F, 0x84,
  0x53, 0xD1, 0x00, 0xED, 0x20, 0xFC, 0xB1, 0x5B, 0x6A, 0xCB, 0xBE, 0x39, 0x4A, 0x4C, 0x58, 0xCF,
  0xD0, 0xEF, 0xAA, 0xFB, 0x43, 0x4D, 0x33, 0x85, 0x45, 0xF9, 0x02, 0x7F, 0x50, 0x3C, 0x9F, 0xA8,
  0x51, 0xA3, 0x40, 0x8F, 0x92, 0x9D, 0x38, 0xF5, 0xBC, 0xB6, 0xDA, 0x21, 0x10, 0xFF, 0xF3, 0xD2]
def aesS2 : List Byte := [
  0xCD, 0x0C, 0x13, 0xEC, 0x5F, 0x97, 0x44, 0x17, 0xC4, 0xA7, 0x7E, 0x3D, 0x64, 0x5D, 0x19, 0x73,
  0x60, 0x81, 0x4F, 0xDC, 0x22, 0x2A, 0x90, 0x88, 0x46, 0xEE, 0xB8, 0x14, 0xDE, 0x5E, 0x0B, 0xDB,
  0xE0, 0x32, 0x3A, 0x0A, 0x49, 0x06, 0x24, 0x5C, 0xC2, 0xD3, 0xAC, 0x62, 0x91, 0x95, 0xE4, 0x79,
  0xE7, 0xC8, 0x37, 0x6D, 0x8D, 0xD5, 0x4E, 0xA9, 0x6C, 0x56, 0xF4, 0xEA, 0x65, 0x7A, 0xAE, 0x08]
def aesS3 : List Byte := [
  0xBA, 0x78, 0x25, 0x2E, 0x1C, 0xA6, 0xB4, 0xC6, 0xE8, 0xDD, 0x74, 0x1F, 0x4B, 0xBD, 0x8B, 0x8A,
  0x70, 0x3E, 0xB5, 0x66, 0x48, 0x03, 0xF6, 0x0E, 0x61, 0x35, 0x57, 0xB9, 0x86, 0xC1, 0x1D, 0x9E,
  0xE1, 0xF8, 0x98, 0x11, 0x69, 0xD9, 0x8E, 0x94, 0x9B, 0x1E, 0x87, 0xE9, 0xCE, 0x55, 0x28, 0xDF,
  0x8C, 0xA1, 0x89, 0x0D, 0xBF, 0xE6, 0x42, 0x68, 0x41, 0x99, 0x2D, 0x0F, 0xB0, 0x54, 0xBB, 0x16]
/-- The inverse S-box. -/
def aesI0 : List Byte := [
  0x52, 0x09, 0x6A, 0xD5, 0x30, 0x36, 0xA5, 0x38, 0xBF, 0x40, 0xA3, 0x9E, 0x81, 0xF3, 0xD7, 0xFB,
  0x7C, 0xE3, 0x39, 0x82, 0x9B, 0x2F, 0xFF, 0x87, 0x34, 0x8E, 0x43, 0x44, 0xC4, 0xDE, 0xE9, 0xCB,
  0x54, 0x7B, 0x94, 0x32, 0xA6, 0xC2, 0x23, 0x3D, 0xEE, 0x4C, 0x95, 0x0B, 0x42, 0xFA, 0xC3, 0x4E,
  0x08, 0x2E, 0xA1, 0x66, 0x28, 0xD9, 0x24, 0xB2, 0x76, 0x5B, 0xA2, 0x49, 0x6D, 0x8B, 0xD1, 0x25]
def aesI1 : List Byte := [
  0x72, 0xF8, 0xF6, 0x64, 0x86, 0x68, 0x98, 0x16, 0xD4, 0xA4, 0x5C, 0xCC, 0x5D, 0x65, 0xB6, 0x92,
  0x6C, 0x70, 0x48, 0x50, 0xFD, 0xED, 0xB9, 0xDA, 0x5E, 0x15, 0x46, 0x57, 0xA7, 0x8D, 0x9D, 0x84,
  0x90, 0xD8, 0xAB, 0x00, 0x8C, 0xBC, 0xD3, 0x0A, 0xF7, 0xE4, 0x58, 0x05, 0xB8, 0xB3, 0x45, 0x06,
  0xD0, 0x2C, 0x1E, 0x8F, 0xCA, 0x3F, 0x0F, 0x02, 0xC1, 0xAF, 0xBD, 0x03, 0x01, 0x13, 0x8A, 0x6B]
def aesI2 : List Byte := [
  0x3A, 0x91, 0x11, 0x41, 0x4F, 0x67, 0xDC, 0xEA, 0x97, 0xF2, 0xCF, 0xCE, 0xF0, 0xB4, 0xE6, 0x73,
  0x96, 0xAC, 0x74, 0x22, 0xE7, 0xAD, 0x35, 0x85, 0xE2, 0xF9, 0x37, 0xE8, 0x1C, 0x75, 0xDF, 0x6E,
  0x47, 0xF1, 0x1A, 0x71, 0x1D, 0x29, 0xC5, 0x89, 0x6F, 0xB7, 0x62, 0x0E, 0xAA, 0x18, 0xBE, 0x1B,
  0xFC, 0x56, 0x3E, 0x4B, 0xC6, 0xD2, 0x79, 0x20, 0x9A, 0xDB, 0xC0, 0xFE, 0x78, 0xCD, 0x5A, 0xF4]
def aesI3 : List Byte := [
  0x1F, 0xDD, 0xA8, 0x33, 0x88, 0x07, 0xC7, 0x31, 0xB1, 0x12, 0x10, 0x59, 0x27, 0x80, 0xEC, 0x5F,
  0x60, 0x51, 0x7F, 0xA9, 0x19, 0xB5, 0x4A, 0x0D, 0x2D, 0xE5, 0x7A, 0x9F, 0x93, 0xC9, 0x9C, 0xEF,
  0xA0, 0xE0, 0x3B, 0x4D, 0xAE, 0x2A, 0xF5, 0xB0, 0xC8, 0xEB, 0xBB, 0x3C, 0x83, 0x53, 0x99, 0x61,
  0x17, 0x2B, 0x04, 0x7E, 0xBA, 0x77, 0xD6, 0x26, 0xE1, 0x69, 0x14, 0x63, 0x55, 0x21, 0x0C, 0x7D]

/-- A byte of a table of four quarters. -/
def aesAt (a b c d : List Byte) (x : Byte) : Byte :=
  let q := if x.toNat < 64 then a else if x.toNat < 128 then b else if x.toNat < 192 then c else d
  q.getD (x.toNat % 64) 0

/-- The S-box and its inverse. -/
def aesSub (x : Byte) : Byte := aesAt aesS0 aesS1 aesS2 aesS3 x
def aesInv (x : Byte) : Byte := aesAt aesI0 aesI1 aesI2 aesI3 x

/-! ### The block cipher: a block is 16 bytes, column by column -/

/-- Multiplication by x in the field of AES. -/
def aesX (b : Byte) : Byte := if b.toNat < 128 then b <<< 1 else (b <<< 1) ^^^ 0x1B

/-- Bytewise exclusive or. -/
def aesXor (a b : List Byte) : List Byte := List.zipWith (· ^^^ ·) a b

/-- The columns of a block. -/
def aesCols (b : List Byte) : List (List Byte) := (List.range 4).map fun c => (b.drop (4 * c)).take 4

/-- ShiftRows and its inverse. -/
def aesRows (b : List Byte) : List Byte := (List.range 16).map fun i => b.getD ((i + 4 * (i % 4)) % 16) 0
def aesUnrows (b : List Byte) : List Byte := (List.range 16).map fun i => b.getD ((i + 12 * (i % 4)) % 16) 0

/-- One column times (2, 3, 1, 1), and times (14, 11, 13, 9). -/
def aesMix (c : List Byte) : List Byte :=
  (List.range 4).map fun i =>
    let v (k : Nat) := c.getD ((i + k) % 4) 0
    aesX (v 0) ^^^ aesX (v 1) ^^^ v 1 ^^^ v 2 ^^^ v 3
def aesUnmix (c : List Byte) : List Byte :=
  (List.range 4).map fun i =>
    let v (k : Nat) := c.getD ((i + k) % 4) 0
    let x8 := aesX (aesX (aesX (v 0 ^^^ v 1 ^^^ v 2 ^^^ v 3)))
    x8 ^^^ aesX (aesX (v 0 ^^^ v 2)) ^^^ aesX (v 0 ^^^ v 1) ^^^ v 1 ^^^ v 2 ^^^ v 3

/-- The round constants. -/
def aesRcon : List Byte := [0x01, 0x02, 0x04, 0x08, 0x10, 0x20, 0x40, 0x80, 0x1B, 0x36]

/-- The next round key. -/
def aesNextKey (k : List Byte) (rc : Byte) : List Byte :=
  let w (i : Nat) := (k.drop (4 * i)).take 4
  let l := w 3
  let t := [aesSub (l.getD 1 0) ^^^ rc, aesSub (l.getD 2 0), aesSub (l.getD 3 0), aesSub (l.getD 0 0)]
  let a := aesXor (w 0) t
  let b := aesXor (w 1) a
  let c := aesXor (w 2) b
  a ++ b ++ c ++ aesXor (w 3) c

/-- The round keys that follow a key. -/
def aesKeys (k : List Byte) : List Byte → List (List Byte)
  | [] => []
  | rc :: r =>
    let n := aesNextKey k rc
    n :: aesKeys n r

/-- The rounds of encryption after the first key. -/
def aesRounds : List (List Byte) → List Byte → List Byte
  | [], b => b
  | [k], b => aesXor (aesRows (b.map aesSub)) k
  | k :: r, b => aesRounds r (aesXor ((aesCols (aesRows (b.map aesSub))).flatMap aesMix) k)

/-- Encrypt a block. -/
def aesEnc (key b : List Byte) : List Byte := aesRounds (aesKeys key aesRcon) (aesXor b key)

/-- The rounds of decryption, the round keys last first. -/
def aesUnrounds : List (List Byte) → List Byte → List Byte
  | [], b => b
  | [k], b => aesXor b k
  | k :: r, b => aesUnrounds r ((aesUnrows ((aesCols (aesXor b k)).flatMap aesUnmix)).map aesInv)

/-- Decrypt a block. -/
def aesDec (key b : List Byte) : List Byte :=
  match (aesKeys key aesRcon).reverse with
  | [] => b
  | l :: r => aesUnrounds (r ++ [key]) ((aesUnrows (aesXor b l)).map aesInv)

/-! ### XTS over a line of four blocks -/

/-- The next block's tweak: times x in the field of 2^128, the lowest byte first. -/
def xtsNext (t : Nat) : Nat := if t < 2 ^ 127 then 2 * t else (2 * t % 2 ^ 128) ^^^ 0x87

/-- The tweaks of a line's four blocks, under the tweak key. -/
def xtsTweaks (key2 : List Byte) (line : Nat) : List Nat :=
  let t0 := natOfBytes (aesEnc key2 (bytesOf 16 line))
  let t1 := xtsNext t0
  let t2 := xtsNext t1
  [t0, t1, t2, xtsNext t2]

/-- A line through XTS with a block function. -/
def xtsLine (f : List Byte → List Byte → List Byte) (key : BitVec 256) (line : Nat) (d : BitVec 512) : BitVec 512 :=
  let k1 := bytesOf 16 key.toNat
  let k2 := bytesOf 16 (key.toNat / 2 ^ 128)
  let bs := ((List.range 4).zip (xtsTweaks k2 line)).map fun p =>
    let t := bytesOf 16 p.2
    natOfBytes (aesXor (f k1 (aesXor (bytesOf 16 (d.toNat / 2 ^ (128 * p.1) % 2 ^ 128)) t)) t)
  BitVec.ofNat 512 (packElems 128 bs)

/-- Encrypt and decrypt a line. -/
def xtsEnc (key : BitVec 256) (line : Nat) (d : BitVec 512) : BitVec 512 := xtsLine aesEnc key line d
def xtsDec (key : BitVec 256) (line : Nat) (d : BitVec 512) : BitVec 512 := xtsLine aesDec key line d

end Sys2Proof.Machine
end

