-- ==== Sys2Proof/Machine/Ops.lean ====
section
/-!
DEFINITION. The named operations over the state: records, registers, physical memory, the fault log, fault records, and
taking and leaving an exception. Every access to a register or to memory goes through these.
-/
namespace Sys2Proof.Machine

/-! ### Records -/

def hartOf (s : State) (h : Nat) : Hart := aget {} s.harts h
def coreOf (s : State) (c : Nat) : CoreSt := aget {} s.cores c
def gangOf (s : State) (g : Nat) : Gang := aget {} s.gangs g
def dieOf (s : State) (d : Nat) : DieSt := aget {} s.dies d

def setHart (s : State) (h : Nat) (r : Hart) : State := { s with harts := aput s.harts h r }
def setCore (s : State) (c : Nat) (r : CoreSt) : State := { s with cores := aput s.cores c r }
def setGang (s : State) (g : Nat) (r : Gang) : State := { s with gangs := aput s.gangs g r }
def setDie (s : State) (d : Nat) (r : DieSt) : State := { s with dies := aput s.dies d r }

def updHart (s : State) (h : Nat) (f : Hart → Hart) : State := setHart s h (f (hartOf s h))
def updCore (s : State) (c : Nat) (f : CoreSt → CoreSt) : State := setCore s c (f (coreOf s c))
def updGang (s : State) (g : Nat) (f : Gang → Gang) : State := setGang s g (f (gangOf s g))
def updDie (s : State) (d : Nat) (f : DieSt → DieSt) : State := setDie s d (f (dieOf s d))
def updIo (s : State) (f : Io → Io) : State := { s with io := f s.io }

/-! ### Places: core = 24 row + column, hart = 8 core + slot (spec/01 R10, spec/02 R18) -/

def coreOfHart (h : Nat) : Nat := h / 8
def slotOfHart (h : Nat) : Nat := h % 8
def rowOfCore (c : Nat) : Nat := c / 24
def colOfCore (c : Nat) : Nat := c % 24
/-- The die of a core: 2 (row >= 8) + (col >= 12). -/
def dieOfCore (c : Nat) : Nat := (if 8 ≤ rowOfCore c then 2 else 0) + (if 12 ≤ colOfCore c then 1 else 0)
/-- The die-local core index (spec/12 R236). -/
def dieLocal (c : Nat) : Nat := rowOfCore c % 8 * 12 + colOfCore c % 12

/-- The seat of the gang that a hart belongs to; 0 where none. -/
def seatOfCore (s : State) (c : Nat) : Nat := (coreOf s c).gang.getD 0
def gangOfHart (s : State) (h : Nat) : Gang := gangOf s (seatOfCore s (coreOfHart h))

/-- The core of gang-relative index c (spec/02 R19). -/
def gangCore (g : Gang) (c : Nat) : Nat := 24 * (g.row0 + c / g.w) + (g.col0 + c % g.w)
/-- The number of cores of a gang. -/
def gangCores (g : Gang) : Nat := g.h * g.w
/-- The number of harts of a gang. -/
def gangSize (g : Gang) : Nat := g.h * g.w * g.part
/-- The hart key of gang hart index i: c P + g. -/
def gangHart (g : Gang) (i : Nat) : Nat := 8 * gangCore g (i / g.part) + i % g.part
/-- All harts of a gang in index order. -/
def gangHarts (g : Gang) : List Nat := (List.range (gangSize g)).map (gangHart g)
/-- All cores of a gang. -/
def gangCoreList (g : Gang) : List Nat := (List.range (gangCores g)).map (gangCore g)
/-- The gang hart index of a hart. -/
def ghartOf (s : State) (h : Nat) : Nat :=
  let c := coreOf s (coreOfHart h)
  c.cidx * c.part + slotOfHart h

/-- Lanes of a hart, L = 32 / P (spec/02 R19). -/
def lanesOf (s : State) (h : Nat) : Nat := 32 / (coreOf s (coreOfHart h)).part

/-! ### Registers of the current hart -/

def me (s : State) : Hart := hartOf s s.cur
def setMe (s : State) (h : Hart) : State := setHart s s.cur h
def updMe (s : State) (f : Hart → Hart) : State := updHart s s.cur f
def myCore (s : State) : Nat := coreOfHart s.cur
def mySlot (s : State) : Nat := slotOfHart s.cur

/-- Read an x register; x0 reads 0. -/
def hartX (h : Hart) (r : RegIx) : Word := if r.val = 0 then 0 else aget 0 h.x r.val
/-- Write an x register; a write to x0 is discarded. -/
def hartSetX (h : Hart) (r : RegIx) (v : Word) : Hart := if r.val = 0 then h else { h with x := aputC 0 h.x r.val v }

def rdX (s : State) (r : RegIx) : Word := hartX (me s) r
def wrX (s : State) (r : RegIx) (v : Word) : State := updMe s fun h => hartSetX h r v

/-- Read an f register, 64 bits. -/
def rdF (s : State) (r : RegIx) : Word := aget 0 (me s).f r.val
/-- `mstatus` with FS dirty. -/
def fsDirty (m : Word) : Word := m ||| 0x6000
/-- Write an f register; FS becomes dirty. -/
def wrF (s : State) (r : RegIx) (v : Word) : State :=
  updMe s fun h => { h with f := aputC 0 h.f r.val v, pr := { h.pr with mstatus := fsDirty h.pr.mstatus } }

/-- The 32-bit reading of an f register: an improperly boxed value is the canonical NaN. -/
def unboxS (v : Word) : Nat := if v.toNat / 2 ^ 32 = 2 ^ 32 - 1 then v.toNat % 2 ^ 32 else 0x7FC00000
/-- A 32-bit value boxed for an f register. -/
def boxS (n : Nat) : Word := w64 ((2 ^ 32 - 1) * 2 ^ 32 + n % 2 ^ 32)

/-- A vector register's bits. -/
def hartV (h : Hart) (r : Nat) : Nat := (aget 0 h.v r).toNat
/-- A vector register's format tag (spec/03 R47). -/
def hartTag (h : Hart) (r : Nat) : Nat := (aget 0x1F h.tags r).toNat
/-- A register's scale sidecar. -/
def hartSc (h : Hart) (r : Nat) : Nat := (aget 0 h.sc r).toNat
/-- A predicate's bits; p0 reads all-true (spec/02 R28). -/
def hartP (h : Hart) (n : Nat) : Nat := if n = 0 then 2 ^ 32768 - 1 else (aget 0 h.p n).toNat

def hartSetV (h : Hart) (r n : Nat) : Hart := { h with v := aputC 0 h.v r (BitVec.ofNat 32768 n) }
def hartSetTag (h : Hart) (r n : Nat) : Hart := { h with tags := aputC 0x1F h.tags r (BitVec.ofNat 8 n) }
def hartSetSc (h : Hart) (r n : Nat) : Hart := { h with sc := aputC 0 h.sc r (BitVec.ofNat 8192 n) }
/-- Write a predicate; a write to p0 is discarded. -/
def hartSetP (h : Hart) (n v : Nat) : Hart := if n = 0 then h else { h with p := aputC 0 h.p n (BitVec.ofNat 32768 v) }

/-- Update the Xebin CSRs of the current hart. -/
def updX (s : State) (f : XCsr → XCsr) : State := updMe s fun h => { h with xc := f h.xc }

/-- Or flags into `xvflags` of a hart (spec/04 R70). -/
def orXFlags (s : State) (h : Nat) (fl : Nat) : State :=
  updHart s h fun r => { r with xc := { r.xc with flags := r.xc.flags ||| BitVec.ofNat 6 fl } }

/-- The program counter of the next instruction in sequence. -/
def nextPc (s : State) : State := updMe s fun h => { h with pc := h.pc + 4 }

/-! ### Physical memory (spec/06 R100, R111) -/

/-- The end of HBM. -/
def hbmEnd : Nat := 0xC000000000
/-- The first address of host memory. -/
def hostBase : Nat := 0x8000000000000
/-- The first peer aperture address. -/
def peerBase : Nat := 0xC000000000000
/-- The first MMIO address. -/
def mmioBase : Nat := 0xF000000000000

/-- Is the address in HBM? -/
def isHbm (pa : Nat) : Bool := decide (pa < hbmEnd)
/-- Is the address in host memory? -/
def isHostMem (pa : Nat) : Bool := decide (hostBase ≤ pa) && decide (pa < peerBase)
/-- Is it a peer aperture? -/
def isPeer (pa : Nat) : Bool := decide (peerBase ≤ pa) && decide (pa < mmioBase)
/-- Does the address hold storage that an access can read and write? -/
def isStorage (pa : Nat) : Bool := isHbm pa || isHostMem pa

/-- The identity of the key in a slot; 0 where the slot is empty (spec/14 R271). -/
def keyId (s : State) (slot : Nat) : Nat := aget 0 s.io.keys slot

/-- The change of layout after which nothing has written a byte, if any (spec/06 R101). -/
def unspecAt (s : State) (pa : Nat) : Option Nat :=
  (s.unspec.find? fun e => decide (e.1 ≤ pa) && decide (pa < e.2.1)).map fun e => e.2.2

/-- Ranges without [lo, hi). -/
def cutRange (lo hi : Nat) (l : List (Nat × Nat × Nat)) : List (Nat × Nat × Nat) :=
  l.flatMap fun e =>
    (if e.1 < lo then [(e.1, min e.2.1 lo, e.2.2)] else []) ++ (if hi < e.2.1 then [(max e.1 hi, e.2.1, e.2.2)] else [])

/-- One stored byte. -/
def rawByte (s : State) (pa : Nat) : Byte :=
  match unspecAt s pa with
  | some g => Config.extentByte g pa
  | none => aget 0 s.mem pa
/-- The 64 stored bytes of a line. -/
def rawLine (s : State) (line : Nat) : BitVec 512 :=
  BitVec.ofNat 512 (natOfBytes ((List.range 64).map fun i => rawByte s (64 * line + i)))

/-- The identity that stands for no cipher: what the host sees of its own memory (spec/06 R111). -/
def clearKid : Nat := 2 ^ 64

/-- A line that is stored under one key, as another key reads it (spec/06 R111): the cipher of the one, and the inverse
cipher of the other. -/
def recipher (old kid line : Nat) (d : BitVec 512) : BitVec 512 :=
  let c := if old = clearKid then d else xtsEnc (Config.keyBits old) line d
  if kid = clearKid then c else xtsDec (Config.keyBits kid) line c

/-- A byte read under a key: a line stored under another key reads as the cipher gives (spec/06 R111). A line that was
never written under a key reads as stored, and so does any line under key identity 0, with which the device's own agents
reach memory. -/
def physByte (s : State) (kid pa : Nat) : Byte :=
  let old := aget 0 s.lineKey (pa / 64)
  if old = 0 ∨ kid = 0 ∨ old = kid then rawByte s pa
  else
    let l := recipher old kid (pa / 64) (rawLine s (pa / 64))
    BitVec.ofNat 8 (l.toNat >>> (8 * (pa % 64)))

/-- Store one byte. -/
def setRawByte (s : State) (pa : Nat) (b : Byte) : State :=
  { s with mem := aputC 0 s.mem pa b, unspec := cutRange pa (pa + 1) s.unspec }

/-- Make a line readable under a key before part of it is written. -/
def rekeyLine (s : State) (kid line : Nat) : State :=
  let old := aget 0 s.lineKey line
  if old = kid ∨ kid = 0 then s
  else
    let s1 : State := if old = 0 then s else
      let l := recipher old kid line (rawLine s line)
      (List.range 64).foldl (fun t i => setRawByte t (64 * line + i) (BitVec.ofNat 8 (l.toNat >>> (8 * i)))) s
    { s1 with lineKey := aputC 0 s1.lineKey line kid }

/-- A write performed in a granule ends every reservation on it (spec/07 R132): k granules from g. -/
def killResv (s : State) (g k : Nat) : State :=
  let hit (o : Option Nat) : Bool := match o with
    | some x => decide (g ≤ x) && decide (x < g + k)
    | none => false
  if s.harts.any (fun kv => hit kv.2.resv) then
    { s with harts := s.harts.map fun kv => if hit kv.2.resv then (kv.1, { kv.2 with resv := none }) else kv }
  else s

/-- The granules that n bytes from an address touch. -/
def granules (a n : Nat) : Nat := if n = 0 then 0 else (a % 64 + n + 63) / 64

/-- A byte written under a key. -/
def physSetByte (s : State) (kid pa : Nat) (b : Byte) : State := setRawByte (rekeyLine s kid (pa / 64)) pa b

/-- n bytes read under a key, little-endian. -/
def physRead (s : State) (kid pa n : Nat) : Nat := natOfBytes ((List.range n).map fun i => physByte s kid (pa + i))

/-- n bytes written under a key. -/
def physWrite (s : State) (kid pa n v : Nat) : State :=
  (List.range n).foldl (fun t i => physSetByte t kid (pa + i) (BitVec.ofNat 8 (v >>> (8 * i)))) s

/-- Set the dirty bit of an HBM byte written under an `xdirty` value (spec/06 R116, R117). Writes to the bitmap itself
are not tracked. -/
def markDirty (s : State) (xd : Word) (pa : Nat) : State :=
  let base := fieldOf xd.toNat 51 12 * 4096
  if bitOf xd.toNat 0 && isHbm pa && !(decide (base ≤ pa) && decide (pa < base + 0x1800000)) then
    let a := base + pa / 32768
    setRawByte s a (rawByte s a ||| BitVec.ofNat 8 (2 ^ (pa / 4096 % 8)))
  else s

/-- Is the 8-byte word at an address poisoned (spec/13 R261)? -/
def poisonedAt (s : State) (pa : Nat) : Bool := aget false s.poison (pa / 8)
/-- Poison a word, or clear its poison. -/
def setPoison (s : State) (pa : Nat) (b : Bool) : State := { s with poison := aputC false s.poison (pa / 8) b }

/-! ### The tenant's windows (spec/06 R109, R110) -/

/-- Word w of window n of a tenant. -/
def pwinWord (s : State) (tid n w : Nat) : Nat := (aget 0 s.io.pwin ((tid * 64 + n) * 2 + w)).toNat
/-- The key slot of a window. -/
def winKey (s : State) (tid n : Nat) : Nat := (aget 0 s.io.wkey (tid * 64 + n)).toNat

/-- Does window n of a tenant contain the frame and allow the kind of access? -/
def winAllows (s : State) (tid n frame : Nat) (wr : Bool) : Bool :=
  let a := pwinWord s tid n 0
  let b := pwinWord s tid n 1
  bitOf a 0 && bitOf a (if wr then 2 else 1) && decide (fieldOf a 51 12 ≤ frame) && decide (frame ≤ fieldOf b 51 12)

/-- The window check of a frame for a leaf's key: some window passes and the slot is loaded (spec/06 R110, spec/14
R271). -/
def winCheck (s : State) (tid frame key : Nat) (wr : Bool) : Bool :=
  keyId s key != 0 && (List.range 64).any fun n => winAllows s tid n frame wr && winKey s tid n == key

/-- The key slot that a walker read of a frame, or the device's own access to a context area, uses: that of the first
window that allows it. -/
def winSupply (s : State) (tid frame : Nat) (wr : Bool) : Option Nat :=
  ((List.range 64).find? fun n => winAllows s tid n frame wr && keyId s (winKey s tid n) != 0).map (winKey s tid)

/-- The key identity under which the device reaches a tenant's save area. -/
def areaKid (s : State) (tid pa : Nat) : Nat :=
  match winSupply s tid (pa / 4096) false with
  | some k => keyId s k
  | none => aget 0 s.lineKey (pa / 64)

/-- Read and write a tenant's save area: task queue, binding table, PKL area, fault log, images. -/
def areaRead (s : State) (tid pa n : Nat) : Nat := physRead s (areaKid s tid pa) pa n
def areaWrite (s : State) (tid pa n v : Nat) : State :=
  killResv (physWrite s (areaKid s tid pa) pa n v) (pa / 64) (granules pa n)

/-! ### Fault log and mailbox events (spec/13 R245, spec/14 R270) -/

/-- The size of a context save area. -/
def areaSize : Nat := 0x1913000
/-- Places in the save area. -/
def bindTableOff : Nat := 0x18B0000
def taskQOff : Nat := 0x18D0000
def pklOff : Nat := 0x18F0000
def faultLogOff : Nat := 0x1911000
def parkedRedOff : Nat := 0x1912000

/-- Queue a firmware-to-host entry: words 0 to 7. MAILBOX_EVENT_POST writes it to the ring. -/
def mailbox (s : State) (ws : List Word) : State := updIo s fun io => { io with fhWait := io.fhWait ++ [ws] }

/-- Word 0 of a mailbox entry: CODE, LEN, TAG. -/
def mbHead (code len tag : Nat) : Word := w64 (code + len * 2 ^ 16 + tag * 2 ^ 32)

/-- µs since the latest bind of a context. -/
def ctxTime (s : State) (ctxbase : Nat) : Nat := s.us - (aget (0, 0) s.io.contexts ctxbase).1

/-- Write a fault-log entry and post its event; a full log drops the entry (spec/13 R245). -/
def logFault (s : State) (ctxbase tid cause ghart src : Nat) (addr detail : Word) : State :=
  let b := ctxbase + faultLogOff
  let n := areaRead s tid b 8 % 2 ^ 32
  let used := areaRead s tid (b + 8) 8 % 2 ^ 32
  if (n + 2 ^ 32 - used) % 2 ^ 32 = 127 then
    areaWrite s tid (b + 16) 8 ((areaRead s tid (b + 16) 8 + 1) % 2 ^ 64)
  else
    let e := b + 32 + n % 127 * 32
    let w0 := cause % 64 + ghart % 256 * 2 ^ 6 + src % 8 * 2 ^ 14 + ctxTime s ctxbase % 2 ^ 32 * 2 ^ 32
    let s := areaWrite s tid e 8 w0
    let s := areaWrite s tid (e + 8) 8 addr.toNat
    let s := areaWrite s tid (e + 16) 8 detail.toNat
    let s := areaWrite s tid (e + 24) 8 0
    let s := areaWrite s tid b 8 ((n + 1) % 2 ^ 32)
    mailbox s [mbHead 0x8001 16 0, w64 ctxbase, w64 n]

/-! ### Exceptions -/

/-- How an instruction ends when it does not complete. -/
inductive Exc where
  | trap (s : State) (cause : Nat) (tval : Word)
  | wait (s : State)
  | pageFault (s : State) (va : Nat) (kind src : Nat)
  | stop (s : State)      -- an interruption between elements: what is done stands, and the instruction is not complete

/-- The same end over another state. -/
def Exc.map (f : State → State) : Exc → Exc
  | .trap s c v => .trap (f s) c v
  | .wait s => .wait (f s)
  | .pageFault s va k src => .pageFault (f s) va k src
  | .stop s => .stop (f s)

/-- Outcome of a body. -/
abbrev Res := Except Exc State

/-- The word of an instruction, for `stval`. -/
def wordOf (i : Instr) : Word := (((encode i).getD 0).toNat : Nat) |> w64

/-- Raise an illegal-instruction exception (spec/05 R76). -/
def illegal {α : Type} (s : State) (i : Instr) : Except Exc α := .error (.trap s 2 (wordOf i))

/-- Go on if a condition holds, else raise. -/
def orTrap (c : Bool) (s : State) (cause : Nat) (tval : Word) : Except Exc Unit :=
  if c then .ok () else .error (.trap s cause tval)

/-- Go on if a condition holds, else illegal instruction. -/
def orIllegal (c : Bool) (s : State) (i : Instr) : Except Exc Unit := orTrap c s 2 (wordOf i)

/-- `mstatus` fields. -/
def stSIE : Nat := 1
def stMIE : Nat := 3
def stSPIE : Nat := 5
def stMPIE : Nat := 7
def stSPP : Nat := 8

/-- Set bit k of a word. -/
def setBit64 (w : Word) (k : Nat) (b : Bool) : Word :=
  let m : Word := w64 (2 ^ k)
  if b then w ||| m else w &&& ~~~m

/-- The privilege code of MPP. -/
def privCode : Priv → Nat | .u => 0 | .s => 1 | .m => 3
/-- The privilege of a code. -/
def privOf (n : Nat) : Priv := if n = 0 then .u else if n = 1 then .s else .m

/-- A handler's address: `tvec` base, or base + 4 cause for an interrupt in vectored mode. -/
def vecTarget (tvec : Word) (cause : Nat) (irq : Bool) : Word :=
  let base := tvec &&& ~~~(3 : Word)
  if irq && tvec.toNat % 4 == 1 then base + w64 (4 * cause) else base

/-- The cause register's value. -/
def causeVal (cause : Nat) (irq : Bool) : Word := if irq then w64 (2 ^ 63 + cause) else w64 cause

/-- Entry to S-mode: `sepc`, `scause`, `stval`, SPP, SPIE, SIE and the pc (privileged architecture 1.12). A reservation
does not survive. -/
def enterS (h : Hart) (cause : Nat) (irq : Bool) (tval : Word) : Hart :=
  let st := h.pr.mstatus
  let st := setBit64 st stSPIE (bitOf st.toNat stSIE)
  let st := setBit64 st stSPP (decide (h.priv ≠ .u))
  let st := setBit64 st stSIE false
  { h with
    pr := { h.pr with mstatus := st, sepc := h.pc, scause := causeVal cause irq, stval := tval },
    priv := .s, pc := vecTarget h.pr.stvec cause irq, resv := none, wait := none }

/-- Entry to M-mode. -/
def enterM (h : Hart) (cause : Nat) (irq : Bool) (tval : Word) : Hart :=
  let st := h.pr.mstatus
  let st := setBit64 st stMPIE (bitOf st.toNat stMIE)
  let st := w64 (withField st.toNat 12 11 (privCode h.priv))
  let st := setBit64 st stMIE false
  { h with
    pr := { h.pr with mstatus := st, mepc := h.pc, mcause := causeVal cause irq, mtval := tval },
    priv := .m, pc := vecTarget h.pr.mtvec cause irq, resv := none, wait := none }

/-- Return from S-mode (SRET). -/
def leaveS (h : Hart) : Hart :=
  let st := h.pr.mstatus
  let p : Priv := if bitOf st.toNat stSPP then .s else .u
  let st := setBit64 st stSIE (bitOf st.toNat stSPIE)
  let st := setBit64 st stSPIE true
  let st := setBit64 st stSPP false
  let st := setBit64 st 17 false
  { h with pr := { h.pr with mstatus := st }, priv := p, pc := h.pr.sepc }

/-- Return from M-mode (MRET). -/
def leaveM (h : Hart) : Hart :=
  let st := h.pr.mstatus
  let p := privOf (fieldOf st.toNat 12 11)
  let st := setBit64 st stMIE (bitOf st.toNat stMPIE)
  let st := setBit64 st stMPIE true
  let st := w64 (withField st.toNat 12 11 0)
  let st := if p = .m then st else setBit64 st 17 false
  { h with pr := { h.pr with mstatus := st }, priv := p, pc := h.pr.mepc }

/-! ### Leave (spec/12 R243) -/

/-- A die's leave budget: at least 16 units. -/
def leaveBudget (die : Nat) : Nat := 16 + Config.leaveExtra die

/-- Does a request of some units fit now: the budget, and the rate of 64 units in a microsecond? In host-assisted power
mode every leave is granted at once (spec/12 Table 12-4). -/
def leaveFits (s : State) (die units : Nat) : Bool :=
  let d := dieOf s die
  let recent := (d.leaveRecent.filter fun r => r.1 == s.us).foldl (fun n r => n + r.2) 0
  bitOf s.io.mode.toNat 3 || (decide (d.leaveOut + units ≤ leaveBudget die) || d.leaveOut == 0) && decide (recent + units ≤ 64)

/-- Grant units on a die. -/
def grantLeave (s : State) (die units : Nat) : State :=
  updDie s die fun d =>
    { d with leaveOut := d.leaveOut + units, leaveRecent := (s.us, units) :: d.leaveRecent.filter fun r => r.1 == s.us }

/-- Release units on a die. -/
def releaseUnits (s : State) (die units : Nat) : State :=
  if units = 0 then s else updDie s die fun d => { d with leaveOut := d.leaveOut - units }

/-- Withdraw what a hart's instruction asked for or was granted: it asks again when it executes again. -/
def withdrawLeave (s : State) (h : Nat) : State :=
  let die := dieOfCore (coreOfHart h)
  let r := hartOf s h
  let s := if r.leaveOk = 0 then s else updHart (releaseUnits s die r.leaveOk) h fun r => { r with leaveOk := 0 }
  if r.ticket.isNone then s
  else
    updHart (updDie s die fun d => { d with leaveQ := d.leaveQ.filter fun q => q.1 != .hart h }) h
      fun r => { r with ticket := none }

/-- Ask leave for the current hart: granted already, granted at once, or a place in the die's order of arrival and a
wait. What it asked or was granted for another weight goes first. -/
def askLeave (s : State) (units : Nat) : Except Exc State :=
  let die := dieOfCore (myCore s)
  if (me s).leaveOk = units then .ok s
  else if (me s).ticket = some units then .error (.wait s)
  else
  let s := withdrawLeave s s.cur
  if ((dieOf s die).leaveQ.isEmpty || bitOf s.io.mode.toNat 3) && leaveFits s die units then
    .ok (updMe (grantLeave s die units) fun h => { h with leaveOk := units })
  else
    .error (.wait (updMe (updDie s die fun d => { d with leaveQ := d.leaveQ ++ [(.hart s.cur, units)] })
      fun h => { h with ticket := some units }))

/-- Withdraw a hart's waiting ACQ request at the home agent (spec/15 R278). -/
def withdrawAcq (s : State) (h : Nat) : State := { s with acqs := s.acqs.filter fun q => q.hart != h }

/-- Withdraw a hart's parked access, leave request, ACQ request and wait (spec/13 R248, R250). -/
def withdraw (s : State) (h : Nat) : State :=
  updHart (withdrawAcq (withdrawLeave s h) h) h fun r => { r with park := none, wait := none, vred := 0 }

/-- A hart stops for a quiescence: what it waits for or has parked is withdrawn, but that a VRED of which elements have been issued
is held, not abandoned. -/
def stopHart (s : State) (h : Nat) : State := if (hartOf s h).vred = 0 then withdraw s h else s

/-- The firmware stub takes a trap in M-mode and begins to end the hart's gang: every hart stops; the gang's agents finish
under R250 steps 1 to 3, and the end of the gang writes the fault log and the seat (spec/13 R244). A hart of no gang has
only entered M-mode. -/
def stubEnd (s : State) (h cause : Nat) (irq : Bool) (tval : Word) : State :=
  let pc := (hartOf s h).pc
  let s := updHart s h fun r => enterM r cause irq tval
  match (coreOf s (coreOfHart h)).gang with
  | none => s
  | some seat =>
    let g := gangOf s seat
    match g.state with
    | .ending _ _ _ _ => s
    | _ =>
      let s := setGang s seat { g with state := .ending cause (ghartOf s h) pc tval }
      (gangHarts g).foldl stopHart s

/-- Is a hart in debug mode: halted, and not released for a step? -/
def inDebug (h : Hart) : Bool := h.halted && !h.stepping

/-- Entry to debug mode: `dpc`, and the cause and privilege in `dcsr` (RISC-V debug 0.13). -/
def enterDebug (h : Hart) (cause : Nat) : Hart :=
  { h with
    halted := true, stepping := false, pbuf := none
    pr := { h.pr with
      dpc := h.pc, dcsr := w64 (withField (withField h.pr.dcsr.toNat 8 6 cause) 1 0 (privCode h.priv)) } }

/-- Return from debug mode to where `dpc` and `dcsr` say. -/
def leaveDebug (h : Hart) : Hart :=
  { h with pc := h.pr.dpc, priv := privOf (fieldOf h.pr.dcsr.toNat 1 0) }

/-- Does EBREAK enter debug mode at the hart's privilege? -/
def ebreakDebug (h : Hart) : Bool :=
  bitOf h.pr.dcsr.toNat (match h.priv with | .m => 15 | .s => 13 | .u => 12)

/-- Taking an interrupt, to M-mode or S-mode. What the hart waits for or has parked is withdrawn, and the saved pc is that
of the instruction it stood at (spec/13 R260, spec/03 R56). Where `stvec` is 0 the stub takes what would enter S-mode (spec/13
R244). -/
def takeInterrupt (s : State) (h cause : Nat) (m : Bool) : State :=
  let s := withdraw s h
  let r := hartOf s h
  if m then setHart s h (enterM r cause true 0)
  else if r.pr.stvec = 0 then stubEnd s h cause true 0
  else setHart s h (enterS r cause true 0)

/-- TAKING AN EXCEPTION (spec/13 R244; privileged architecture 1.12). From U or S, a delegated cause enters S-mode; where
`stvec` is 0, or the cause is not delegated, the firmware stub in M-mode ends the gang. An exception raised in M-mode
enters M-mode. In debug mode it ends the program buffer and changes nothing else (RISC-V debug 0.13). -/
def takeException (s : State) (h cause : Nat) (tval : Word) : State :=
  let s := withdraw s h
  let r := hartOf s h
  if inDebug r then updIo (setHart s h { r with pbuf := none }) fun io => { io with dmErr := 3 }
  else if r.priv = .m then setHart s h (enterM r cause false tval)
  else if bitOf r.pr.medeleg.toNat cause && r.pr.stvec != 0 then setHart s h (enterS r cause false tval)
  else stubEnd s h cause false tval

/-! ### Parking a page fault (spec/13 R246) -/

/-- Word 0 of a fault record. -/
def faultWord0 (kind src slot core tid asid : Nat) : Word :=
  w64 (1 + kind * 2 + src * 2 ^ 3 + slot * 2 ^ 8 + rowOfCore core * 2 ^ 11 + colOfCore core * 2 ^ 15 + tid * 2 ^ 20 +
    asid * 2 ^ 32)

/-- A fault joins the pending record of its page and access class, or makes a new record. Gives the token. `xfsmode`.SVC
selects the service; a slice miss (kind 3) is the host's, which fills slices (spec/13 R246, spec/06 R113). -/
def postFault (s : State) (c : ACtx) (va kind src : Nat) (w : Waiter) : State × Nat :=
  let wr := kind == 1
  match s.faults.find? (fun f => f.asid == c.asid && f.tid == c.tid && f.page == va / 4096 && f.write == wr) with
  | some f =>
    ({ s with faults := s.faults.map fun g => if g.token = f.token then { g with waiters := g.waiters ++ [(w, va)] } else g },
      f.token)
  | none =>
    let t := s.ctr % 2 ^ 32
    let f : FaultRec := {
      token := t, w0 := faultWord0 kind src c.slot c.core c.tid c.asid, va := w64 va, page := va / 4096,
      asid := c.asid, tid := c.tid, write := wr, host := c.svc || kind == 3, die := dieOfCore c.core, posted := false,
      waiters := [(w, va)], ctxbase := c.ctxbase }
    ({ s with faults := s.faults ++ [f], ctr := s.ctr + 1 }, t)

/-- The address space a hart's accesses use at a privilege. -/
def hartCtx (s : State) (h : Nat) : ACtx :=
  let r := hartOf s h
  let st := r.pr.mstatus.toNat
  { core := coreOfHart h, slot := slotOfHart h, asid := fieldOf r.xc.asid.toNat 15 0, tid := fieldOf r.xc.asid.toNat 27 16,
    priv := r.priv, sum := bitOf st 18, mxr := bitOf st 19, root := fieldOf r.pr.satp.toNat 43 3 * 32768,
    svc := bitOf r.xc.fsmode.toNat 0, dirty := r.xc.dirty, ctxbase := fieldOf r.xc.ctxbase.toNat 51 12 * 4096 }

/-- Park the current hart's access. -/
def parkMe (s : State) (va kind src : Nat) : State :=
  let (s, t) := postFault s (hartCtx s s.cur) va kind src (.hart s.cur)
  updMe s fun h => { h with park := some t }

/-! ### The end of an instruction -/

/-- A hart retires an instruction: `minstret` counts it unless inhibited. -/
def retire (h : Hart) : Hart :=
  { h with
    wait := none, stall := 0, leaveOk := 0,
    pr := if bitOf h.pr.mcountinhibit.toNat 2 then h.pr else { h.pr with minstret := h.pr.minstret + 1 } }

/-- The outcome of an instruction's body: it completes, traps, waits at its own address, parks, or is interrupted. -/
def finish (i : Instr) (r : Res) : Host.Outcome State Fault Refusal :=
  match r with
  | .ok s => .next (updMe s retire)
  | .error (.trap s c v) => .next (takeException (updMe s fun h => { h with wait := none, stall := 0 }) s.cur c v)
  | .error (.wait s) => .next (updMe s fun h => { h with wait := some i })
  | .error (.pageFault s va k src) => .next (parkMe s va k src)
  | .error (.stop s) => .next s

/-- A free value of a width, and the counter stepped. -/
def freshBits (s : State) (w : Nat) : BitVec w × State := (Config.freeBits w s.ctr, { s with ctr := s.ctr + 1 })

end Sys2Proof.Machine
end

