-- ==== Sys2Proof/Machine/Regs.lean ====
section
/-!
DEFINITION. The register windows as they read (spec/14 Tables 14-1 to 14-3, R269): over BAR0, and on the device side from
0xF_0000_0000_0000 for firmware (spec/06 R100).
-/
namespace Sys2Proof.Machine

/-- The value of an 8-byte aligned offset of BAR0 outside the dirty window; write-only and reserved fields read 0. -/
def readReg (s : State) (o : Nat) : Word :=
  if o = 0 then 0x524D
  else if o = 8 then 0x9100
  else if o = 0x10 then 0x00B0
  else if o = 0x18 then 0x0100
  else if o = 0x20 then Config.serial
  else if o = 0x1000 then s.io.mode.zeroExtend 64
  else if o = 0x1008 then w64 (s.io.tidTid.toNat + if s.io.tidBusy then 2 ^ 31 else 0)
  else if o = 0x1010 then s.io.retCtx
  else if o = 0x1018 then s.io.dsel
  else if 0x1100 ≤ o ∧ o < 0x1120 then w64 (s.io.layout.toNat >>> (64 * ((o - 0x1100) / 8)))
  else if 0x10000 ≤ o ∧ o < 0x12000 then aget 0 s.io.lq ((o - 0x10000) / 8)
  else if 0x20000 ≤ o ∧ o < 0x20068 then aget 0 s.io.mb (o - 0x20000)
  else if 0x30000 ≤ o ∧ o < 0x30200 then aget 0 s.io.hat ((o - 0x30000) / 8)
  else if 0x40000 ≤ o ∧ o < 0x41800 then aget 0 s.io.peer ((o - 0x40000) / 8)
  else if 0x100000 ≤ o ∧ o < 0x118000 then aget 0 s.binds ((o - 0x100000) / 8)
  else if 0x180000 ≤ o ∧ o < 0x186000 then aget 0 s.seatStat ((o - 0x180000) / 8)
  else if 0x400000 ≤ o ∧ o < 0x800000 then aget 0 s.io.pwin ((o - 0x400000) / 8)
  else if 0x800000 ≤ o ∧ o < 0x880000 then
    w64 ((List.range 4).foldl (fun n k => n + (aget 0 s.io.wkey ((o - 0x800000) / 2 + k)).toNat * 2 ^ (16 * k)) 0)
  else 0

/-- Is an aligned offset in the dirty window? -/
def inDirtyWindow (o : Nat) : Bool := decide (0x4000000 ≤ o) && decide (o < 0x6000000)

/-- A read in the dirty window: the bitmap word, which is cleared in the same step (spec/14 R269). -/
def harvest (s : State) (o : Nat) : State × Word :=
  let o := o - 0x4000000
  if 0x1800000 ≤ o then (s, 0)
  else
    let a := s.io.dsel.toNat + o
    (physWrite s 0 a 8 0, w64 (physRead s 0 a 8))

/-- A register as an aligned read finds it, and what the read changes. -/
def takeReg (s : State) (o : Nat) : State × Word := if inDirtyWindow o then harvest s o else (s, readReg s o)

/-- n bytes of the register windows from an offset. -/
def regBytes (s : State) (off n : Nat) : Nat :=
  natOfBytes ((List.range n).map fun i =>
    BitVec.ofNat 8 ((takeReg s ((off + i) / 8 * 8)).2.toNat >>> (8 * ((off + i) % 8))))

/-- What a read of n bytes of the windows changes: each register that it touches is read once. -/
def regTouch (s : State) (off n : Nat) : State :=
  (List.range ((off % 8 + n + 7) / 8)).foldl (fun t i => (takeReg t (off / 8 * 8 + 8 * i)).1) s

/-- A write of n bytes of the windows, one aligned register at a time: a part of a register is written with the rest as it reads.
The write takes effect in its own event, as the host's writes do. -/
def regPost (s : State) (off n v : Nat) : State :=
  updIo s fun io => { io with devQ := io.devQ ++ (List.range ((off % 8 + n + 7) / 8)).map fun k =>
    let o := off / 8 * 8 + 8 * k
    let old := if inDirtyWindow o then 0 else (readReg s o).toNat
    (o, natOfBytes ((List.range 8).map fun j =>
      if off ≤ o + j ∧ o + j < off + n then BitVec.ofNat 8 (v >>> (8 * (o + j - off))) else BitVec.ofNat 8 (old >>> (8 * j)))) }

end Sys2Proof.Machine
end

