-- ==== Sys2Proof/Machine/Translate.lean ====
section
/-!
DEFINITION. The virtual address map and translation (spec/06 R95 to R114): regions, the five-level walk with its caches,
the leaf's checks, partition windows and key slots.
-/
namespace Sys2Proof.Machine

/-- What an access does. -/
inductive AKind where | load | store | fetch
deriving DecidableEq, Repr

/-- What the access is for, where the leaf's memory type or layout matters (spec/06 R107). `sync` is a sync object, a
future or a queue, which need MT normal. -/
inductive Use where | plain | atomic | engine | copy | bank | sync
deriving DecidableEq, Repr

/-- How a translation fails. -/
inductive TrFail where
  | page (kind : Nat)     -- a page fault, with the record's KIND
  | access                -- an access fault
  | poison                -- the walk consumed a poisoned word
deriving DecidableEq, Repr

/-- The regions of spec/06 Table 6-1. -/
inductive Region where
  | global
  | local_ (loc : Loc)
  | bad
deriving DecidableEq, Repr

/-- The own-tile window, the own-SDM window and the gang window. -/
def ownTileVa : Nat := 0x0FFFF00000000000
def ownSdmVa : Nat := 0x0FFFF00000100000
def gangTileVa : Nat := 0x0FFFF10000000000

/-- The region of an address, for an access from a core (spec/06 R95, R96). -/
def regionOf (s : State) (core va : Nat) : Region :=
  if va / 2 ^ 60 ≠ 0 then .bad
  else if va / 2 ^ 59 = 0 then .global
  else if ownTileVa ≤ va ∧ va < ownTileVa + 0x100000 then .local_ (.tile core (va - ownTileVa))
  else if ownSdmVa ≤ va ∧ va < ownSdmVa + 0x10000 then .local_ (.sdm core (va - ownSdmVa))
  else if gangTileVa ≤ va ∧ va < gangTileVa + 0x8000000 then
    let c := (va - gangTileVa) / 0x100000
    match (coreOf s core).gang with
    | some seat =>
      let g := gangOf s seat
      if c < gangCores g then .local_ (.tile (gangCore g c) ((va - gangTileVa) % 0x100000)) else .bad
    | none => .bad
  else .bad

/-! ### Entries (spec/06 Table 6-4) -/

def pteV (p : Nat) : Bool := bitOf p 0
def pteR (p : Nat) : Bool := bitOf p 1
def pteW (p : Nat) : Bool := bitOf p 2
def pteX (p : Nat) : Bool := bitOf p 3
def pteU (p : Nat) : Bool := bitOf p 4
def pteA (p : Nat) : Bool := bitOf p 5
def pteD (p : Nat) : Bool := bitOf p 6
def pteMt (p : Nat) : Nat := fieldOf p 8 7
def pteBl (p : Nat) : Bool := bitOf p 9
def ptePpn (p : Nat) : Nat := fieldOf p 49 10
def pteContig (p : Nat) : Bool := bitOf p 50
def pteKey (p : Nat) : Nat := fieldOf p 63 51

/-- The slice of an address (spec/06 R112). -/
def sliceOf (asid va : Nat) : Nat :=
  let h := (asid % 64) ^^^ (asid / 64 % 64) ^^^ (asid / 4096 % 16)
  (List.range 7).foldl (fun h k => h ^^^ (fieldOf va (min (21 + 6 * k + 5) 59) (21 + 6 * k))) h

/-- Does a held translation cover the address? -/
def entHits (asid tid va : Nat) (e : TlbEnt) : Bool :=
  e.asid == asid && e.tid == tid && decide (e.va ≤ va) && decide (va < e.va + e.size)

/-- The index of an address at a level: 12 bits at level 4, 9 below. -/
def vaIdx (va lvl : Nat) : Nat := if lvl = 4 then fieldOf va 59 48 else fieldOf va (20 + 9 * lvl) (12 + 9 * lvl)

/-- The prefix of an address that a table of level `lvl` serves. -/
def vaPrefix (va lvl : Nat) : Nat := va >>> (12 + 9 * (lvl + 1))

/-- The CONTIG group of an entry: its sixteen entries, each read under the walker's key (spec/06 R108). -/
def groupPtes (s : State) (kid pteAddr : Nat) : List Nat :=
  (List.range 16).map fun i => physRead s kid (pteAddr / 128 * 128 + 8 * i) 8

/-- Is a CONTIG group consistent? -/
def groupOk (ps : List Nat) : Bool :=
  match ps with
  | [] => false
  | p0 :: _ =>
    let strip (p : Nat) := withField (withField p 49 10 0) 6 5 0
    ptePpn p0 % 16 == 0 && (List.range 16).all fun i =>
      let p := ps.getD i 0
      pteContig p && ptePpn p == ptePpn p0 + i && strip p == strip p0

/-- The outcome of a walk: a leaf with its level and address. -/
inductive WalkRes where
  | leaf (pte lvl addr : Nat)
  | fail (f : TrFail)
deriving DecidableEq, Repr

/-- One level of the walk and the levels below it (spec/06 R104). `lvl` counts down; each table read passes the windows
under the read permission. Pointer entries enter the die's page-walk cache, which keeps 64 of them, the oldest out first
(DESIGN CHOICE, notes/assumptions/16: spec/01 R13 gives it no size and no replacement). -/
def walkFrom : Nat → State → Nat → Nat → Nat → Nat → Nat → State × WalkRes
  | 0, s, _, _, _, _, _ => (s, .fail (.page 0))
  | lvl + 1, s, die, asid, tid, va, a =>
    let pa := a + 8 * vaIdx va lvl
    match winSupply s tid (pa / 4096) false with
    | none => (s, .fail .access)
    | some k =>
      if !isStorage pa then (s, .fail .access)
      else if poisonedAt s pa then (s, .fail .poison)
      else
        let p := physRead s (keyId s k) pa 8
        if !pteV p || (pteW p && !pteR p) then (s, .fail (.page 0))
        else if !pteR p && !pteX p then
          if lvl = 0 ∨ fieldOf p 9 4 ≠ 0 ∨ fieldOf p 63 50 ≠ 0 then (s, .fail (.page 0))
          else
            let t := ptePpn p * 4096
            let e : PwcEnt := ⟨asid, tid, lvl - 1, vaPrefix va (lvl - 1), t⟩
            let s := updDie s die fun d => { d with pwc := (e :: d.pwc).take 64 }
            walkFrom lvl s die asid tid va t
        else if lvl > 2 then (s, .fail (.page 0))
        else if ptePpn p % 2 ^ (9 * lvl) ≠ 0 then (s, .fail (.page 0))
        else if pteContig p && lvl != 0 then (s, .fail (.page 0))
        else if pteContig p then
          let g := groupPtes s (keyId s k) pa
          if groupOk g then (s, .leaf p lvl pa)
          else
            -- spec/06 R108: one of the group's entries, which one is unspecified
            let (r, s) := freshBits s 4
            let q := g.getD r.toNat 0
            if !pteV q || (pteW q && !pteR q) || (!pteR q && !pteX q) then (s, .fail (.page 0))
            else (s, .leaf q lvl (pa / 128 * 128 + 8 * r.toNat))
        else (s, .leaf p lvl pa)

/-- The walk of an address: from the deepest cached pointer, else from the root (spec/06 R104, R113). -/
def walk (s : State) (die : Nat) (c : ACtx) (va : Nat) : State × WalkRes :=
  let hit (lvl : Nat) : Option Nat :=
    ((dieOf s die).pwc.find? fun e => e.asid == c.asid && e.tid == c.tid && e.lvl == lvl && e.idx == vaPrefix va lvl).map
      (·.table)
  match hit 0 with
  | some t => walkFrom 1 s die c.asid c.tid va t
  | none =>
    match hit 1 with
    | some t => walkFrom 2 s die c.asid c.tid va t
    | none =>
      match hit 2 with
      | some t => walkFrom 3 s die c.asid c.tid va t
      | none =>
        match hit 3 with
        | some t => walkFrom 4 s die c.asid c.tid va t
        | none => walkFrom 5 s die c.asid c.tid va c.root

/-- Does the leaf's permission and U bit admit the access (spec/06 R106; privileged architecture 1.12)? -/
def leafAllows (c : ACtx) (k : AKind) (p : Nat) : Bool :=
  let perm := match k with
    | .load => pteR p || (pteX p && c.mxr)
    | .store => pteW p
    | .fetch => pteX p
  let mode := match c.priv with
    | .u => pteU p
    | .s => !pteU p || (c.sum && decide (k ≠ .fetch))
    | .m => true
  perm && mode

/-- The layout bit of an HBM address's extent (spec/06 R101). -/
def layoutBit (s : State) (pa : Nat) : Bool := bitOf s.io.layout.toNat (pa / 0xC0000000)

/-- The stack of an HBM address: by 256-byte granules, or in a bank-local extent by frames (spec/06 R101). -/
def stackOf (s : State) (pa : Nat) : Nat := (if layoutBit s pa then fieldOf pa 39 12 else fieldOf pa 39 8) % 12

/-- The home agent of an HBM address: the die and the controller of its stack (spec/06 R101). -/
def homeAgentOf (s : State) (pa : Nat) : Nat × Nat := (stackOf s pa / 3, stackOf s pa % 3)

/-- The checks of memory type, layout and physical range (spec/06 R100, R107). -/
def leafPlaceOk (s : State) (c : ACtx) (k : AKind) (u : Use) (p pa : Nat) : Bool :=
  let mt := pteMt p
  let mtOk := match u with
    | .plain => true
    | .atomic | .sync => mt == 0
    | .engine | .copy => mt == 0 || mt == 1
    | .bank => mt == 0 && pteBl p
  let mtOk := mtOk && (decide (k ≠ .fetch) || mt == 0)
  let place :=
    if isHbm pa then pteBl p == layoutBit s pa
    else if isHostMem pa then !pteBl p && s.io.linkUp
    else if isPeer pa then
      decide (u = .copy) &&
        (let n := (pa - peerBase) / 2 ^ 42
         bitOf (aget 0 s.io.peer (4 * n)).toNat 0 && (aget 0 s.io.peer (4 * n + 2)).toNat % 4096 == c.tid)
    else false
  mtOk && place

/-- Enter a translation into the core's micro-TLB (32 entries) and the die's slice (1,024), oldest out first. -/
def fillTlb (s : State) (core : Nat) (slice : Nat) (e : TlbEnt) : State :=
  let s := updCore s core fun r => { r with utlb := (e :: r.utlb.filter (fun x => x.va != e.va || x.asid != e.asid || x.tid != e.tid)).take 32 }
  updDie s (dieOfCore core) fun d =>
    let old := (aget [] d.slices slice).filter fun x => x.va != e.va || x.asid != e.asid || x.tid != e.tid
    { d with slices := aput d.slices slice ((e :: old).take 1024) }

/-- The outcome of the window check of a frame, held with the translation once it has been made (spec/06 R110). -/
def frameOk (s : State) (e : TlbEnt) (frame : Nat) : Bool × Bool :=
  match aget? e.frames frame with
  | some r => r
  | none => (winCheck s e.tid frame (pteKey e.pte.toNat) false, winCheck s e.tid frame (pteKey e.pte.toNat) true)

/-- Use a held leaf for an access: permission, A and D, range, layout, type, loaded key slot (spec/14 R271) and window. `none` asks for a fresh walk: the
entry has changed in memory since it was read (spec/06 R106). -/
def useLeaf (s : State) (c : ACtx) (k : AKind) (u : Use) (va slice : Nat) (e : TlbEnt) : Option (State × Except TrFail Loc) :=
  let p := e.pte.toNat
  let wr := decide (k = .store)
  let kind := if wr then 1 else if k = .fetch then 2 else 0
  if !leafAllows c k p then some (s, .error (.page kind))
  else
    let pa := ptePpn p * 4096 + (va - e.va)
    let frame := pa / 4096
    if !leafPlaceOk s c k u p pa || keyId s (pteKey p) == 0 then some (s, .error .access)
    else
      let (rd, ww) := frameOk s e frame
      let e := { e with frames := aput e.frames frame (rd, ww) }
      if !(if wr then ww else rd) then some (fillTlb s c.core slice e, .error .access)
      else if pteA p && (!wr || pteD p) then
        some (fillTlb s c.core slice e, .ok (.phys pa (pteMt p) (pteKey p)))
      else
        -- the walker's compare-and-set of A, or A and D
        let kid := match winSupply s c.tid (e.pteAddr / 4096) false with
          | some k => keyId s k
          | none => 0
        if physRead s kid e.pteAddr 8 ≠ p then none
        else
          let p' := p ||| 32 ||| (if wr then 64 else 0)
          let s := killResv (physWrite s kid e.pteAddr 8 p') (e.pteAddr / 64) 1
          some (fillTlb s c.core slice { e with pte := w64 p' }, .ok (.phys pa (pteMt p) (pteKey p)))

/-- Translate a global address. `fuel` bounds the restarts of R106. -/
def translateGlobal : Nat → State → ACtx → AKind → Use → Nat → Bool → State × Except TrFail Loc
  | 0, s, _, _, _, _, _ => (s, .error .access)
  | fuel + 1, s, c, k, u, va, fresh =>
    let die := dieOfCore c.core
    let slice := sliceOf c.asid va
    let held :=
      if fresh then none
      else match (coreOf s c.core).utlb.find? (entHits c.asid c.tid va) with
        | some e => some e
        | none => (aget [] (dieOf s die).slices slice).find? (entHits c.asid c.tid va)
    match held with
    | some e =>
      match useLeaf s c k u va slice e with
      | some r => r
      | none => translateGlobal fuel s c k u va true
    | none =>
      if bitOf s.io.mode.toNat 2 then (s, .error (.page 3))
      else
        match walk s die c va with
        | (s, .fail (.page _)) => (s, .error (.page (if k = .store then 1 else if k = .fetch then 2 else 0)))
        | (s, .fail f) => (s, .error f)
        | (s, .leaf p lvl addr) =>
          let size := 4096 * 512 ^ lvl
          let e : TlbEnt := ⟨c.asid, c.tid, va / size * size, size, w64 p, addr, []⟩
          match useLeaf s c k u va slice e with
          | some r => r
          | none => translateGlobal fuel s c k u va true

/-- The end of the register windows' device side: BAR0 is 128 MiB (spec/14 R264, Table 14-1). -/
def mmioEnd : Nat := mmioBase + 0x8000000

/-- Translate an access of an agent to one address (spec/06 R95 to R110). M-mode addresses are physical
(notes/assumptions/3); M-mode loads and stores reach the register windows (spec/06 R100). -/
def translate (s : State) (c : ACtx) (k : AKind) (u : Use) (va : Nat) : State × Except TrFail Loc :=
  match regionOf s c.core va with
  | .bad => (s, .error .access)
  | .local_ l =>
    if k = .fetch then (s, .error .access)
    else match u with
      | .bank | .sync => (s, .error .access)
      | _ => (s, .ok l)
  | .global =>
    if c.priv = .m then
      (s, if isHbm va || isHostMem va && s.io.linkUp then .ok (.phys va 0 8192)
        else if mmioBase ≤ va ∧ va < mmioEnd ∧ u = .plain ∧ k ≠ .fetch then .ok (.mmio (va - mmioBase))
        else .error .access)
    else translateGlobal 4 s c k u va false

end Sys2Proof.Machine
end

