-- ==== Sys2Proof/Machine/Access.lean ====
section
/-!
DEFINITION. Reading and writing storage (spec/06 R98 to R103, R116; spec/07 R118 to R139): sole writers, the scalar data
cache, write-combining buffers, reservations, poison, the address-range interlock, and a hart's own accesses.
-/
namespace Sys2Proof.Machine

/-! ### At the sole writer -/

/-- The 64-byte granule of a location. -/
def granOf (l : Loc) : Nat :=
  match l with
  | .phys pa _ _ => pa / 64
  | .tile c off => 2 ^ 60 + c * 2 ^ 15 + off / 64
  | .sdm c off => 2 ^ 61 + c * 2 ^ 15 + off / 64
  | .mmio off => 2 ^ 62 + off / 64

/-- Is a location in host memory? -/
def locHost (l : Loc) : Bool := match l with | .phys pa _ _ => isHostMem pa | _ => false

/-- The address or offset of a location. -/
def locOff (l : Loc) : Nat :=
  match l with
  | .phys pa _ _ => pa
  | .tile _ off => off
  | .sdm _ off => off
  | .mmio off => off

/-- Is the key of a location's page loaded (spec/14 R271)? Firmware's own accesses use none. -/
def locKeyed (s : State) (l : Loc) : Bool :=
  match l with
  | .phys _ _ key => decide (8192 ≤ key) || keyId s key != 0
  | _ => true

/-- Move a location by an offset. -/
def locAdd (l : Loc) (k : Nat) : Loc :=
  match l with
  | .phys pa mt key => .phys (pa + k) mt key
  | .tile c off => .tile c (off + k)
  | .sdm c off => .sdm c (off + k)
  | .mmio off => .mmio (off + k)

/-- Read n bytes of storage at the sole writer. -/
def homeRead (s : State) (l : Loc) (n : Nat) : Nat :=
  match l with
  | .phys pa _ key => physRead s (keyId s key) pa n
  | .tile c off => natOfBytes ((List.range n).map fun i => aget 0 (coreOf s c).tile (off + i))
  | .sdm c off => natOfBytes ((List.range n).map fun i => aget 0 (coreOf s c).sdm (off + i))
  | .mmio off => regBytes s off n

/-- What a read of n bytes changes beside what it returns: in the dirty window of the registers it clears (spec/14 R269). -/
def readEffect (s : State) (l : Loc) (n : Nat) : State :=
  match l with
  | .mmio off => regTouch s off n
  | _ => s

/-- Set n bytes of a byte map. -/
def memSet (m : Mem) (a n v : Nat) : Mem :=
  (List.range n).foldl (fun t i => aputC 0 t (a + i) (BitVec.ofNat 8 (v >>> (8 * i)))) m

/-- Is any 8-byte word of n bytes at a location poisoned (spec/13 R261)? -/
def locPoisoned (s : State) (l : Loc) (n : Nat) : Bool :=
  match l with
  | .phys pa _ _ => (List.range (n + 7)).any fun i => aget false s.poison ((pa + i) / 8) && decide ((pa + i) / 8 * 8 < pa + n)
  | .tile c off => (List.range (n + 7)).any fun i => aget false (coreOf s c).poisonT ((off + i) / 8) && decide ((off + i) / 8 * 8 < off + n)
  | .sdm c off => (List.range (n + 7)).any fun i => aget false (coreOf s c).poisonS ((off + i) / 8) && decide ((off + i) / 8 * 8 < off + n)
  | .mmio _ => false

/-- Mark or clear the poison of the word at a location. -/
def locSetPoison (s : State) (l : Loc) (b : Bool) : State :=
  match l with
  | .phys pa _ _ => setPoison s pa b
  | .tile c off => updCore s c fun r => { r with poisonT := aputC false r.poisonT (off / 8) b }
  | .sdm c off => updCore s c fun r => { r with poisonS := aputC false r.poisonS (off / 8) b }
  | .mmio _ => s

/-- The offset of a location's first byte within its 8-byte word. -/
def locAlign (l : Loc) : Nat := locOff l % 8

/-- A write that covers whole words ends their poison. -/
def healWords (s : State) (l : Loc) (n : Nat) : State :=
  if locAlign l = 0 ∧ n % 8 = 0 then
    (List.range (n / 8)).foldl (fun t i => if locPoisoned t (locAdd l (8 * i)) 8 then locSetPoison t (locAdd l (8 * i)) false else t) s
  else s

/-- Perform a write of n bytes at the sole writer: the bytes, the dirty bit, reservations and poison. -/
def homeWrite (s : State) (xd : Word) (l : Loc) (n v : Nat) : State :=
  let s := match l with
    | .phys pa _ key => markDirty (markDirty (physWrite s (keyId s key) pa n v) xd pa) xd (pa + n - 1)
    | .tile c off => updCore s c fun r => { r with tile := memSet r.tile off n v }
    | .sdm c off => updCore s c fun r => { r with sdm := memSet r.sdm off n v }
    | .mmio off => regPost s off n v
  healWords (killResv s (granOf l) (granules (locOff l) n)) l n

/-! ### The scalar data cache (spec/06 R102) -/

/-- Write a cache line's dirty bytes back to its home agent. -/
def writeBack (s : State) (line : Nat) (c : CLine) : State :=
  if c.dirty = 0 then s
  else
    let s := (List.range 64).foldl (fun t i =>
      if bitOf c.dirty.toNat i then physSetByte t (keyId t c.key) (64 * line + i) (BitVec.ofNat 8 (elemOf 8 c.data.toNat i)) else t) s
    let s := markDirty s c.xdirty (64 * line)
    let s := (List.range 8).foldl (fun t i =>
      if elemOf 8 c.dirty.toNat i = 255 then setPoison t (64 * line + 8 * i) false else t) s
    killResv s line 1

/-- Write back and drop the lines of a core's cache that satisfy a test. -/
def flushLines (s : State) (core : Nat) (p : Nat → CLine → Bool) : State :=
  let ls := (coreOf s core).dcache.filter fun kv => p kv.1 kv.2
  let s := ls.foldl (fun t kv => writeBack t kv.1 kv.2) s
  updCore s core fun r => { r with dcache := afilter r.dcache fun k c => !p k c }

/-- Write back the dirty lines of a core's cache that satisfy a test, keeping them. -/
def cleanLines (s : State) (core : Nat) (p : Nat → CLine → Bool) : State :=
  let ls := (coreOf s core).dcache.filter fun kv => p kv.1 kv.2
  let s := ls.foldl (fun t kv => writeBack t kv.1 kv.2) s
  updCore s core fun r => { r with dcache := r.dcache.map fun kv => if p kv.1 kv.2 then (kv.1, { kv.2 with dirty := 0 }) else kv }

/-- Drop the clean lines of a core's cache that satisfy a test. -/
def dropClean (s : State) (core : Nat) (p : Nat → CLine → Bool) : State :=
  updCore s core fun r => { r with dcache := afilter r.dcache fun k c => !(p k c && c.dirty == 0) }

/-- Put a line into a core's cache. -/
def setLine (s : State) (core line : Nat) (d : CLine) : State :=
  updCore s core fun r => { r with dcache := aput r.dcache line d }

/-- A line as its home agent supplies it. -/
def freshLine (s : State) (c : ACtx) (line key va : Nat) : CLine :=
  ⟨BitVec.ofNat 512 (physRead s (keyId s key) (64 * line) 64), 0, key, c.dirty, c.asid, c.tid, va / 64 * 64⟩

/-- A line with n bytes at offset o replaced. -/
def patchLine (d : CLine) (o n v : Nat) : BitVec 512 := BitVec.ofNat 512 (withField d.data.toNat (8 * (o + n) - 1) (8 * o) v)

/-- The mask of n bytes at offset o. -/
def byteMask (o n : Nat) : BitVec 64 := BitVec.ofNat 64 ((2 ^ n - 1) * 2 ^ o)

/-- Fetch a line into a core's cache, writing back what must leave: the same line under another key, or the lowest line
when all 512 places are taken. -/
def fillLine (s : State) (c : ACtx) (line key va : Nat) : State :=
  match aget? (coreOf s c.core).dcache line with
  | some l =>
    if l.key = key then s
    else
      let s := flushLines s c.core fun k _ => k == line
      setLine s c.core line (freshLine s c line key va)
  | none =>
    let s := match (coreOf s c.core).dcache with
      | [] => s
      | (k0, _) :: r => if r.length ≥ 511 then flushLines s c.core fun k _ => k == k0 else s
    setLine s c.core line (freshLine s c line key va)

/-- Is a location held by the scalar data cache: HBM with MT normal (spec/07 R120)? M-mode accesses are not cached. -/
def isCached (l : Loc) : Bool :=
  match l with
  | .phys pa mt key => mt == 0 && isHbm pa && decide (key < 8192)
  | _ => false

/-- The line and offset of a physical location. -/
def lineOf (l : Loc) : Nat × Nat :=
  match l with
  | .phys pa _ _ => (pa / 64, pa % 64)
  | _ => (0, 0)

/-- A scalar read of n bytes through the cache. -/
def cachedRead (s : State) (c : ACtx) (l : Loc) (va n : Nat) : State × Nat :=
  match l with
  | .phys pa _ key =>
    let s := fillLine s c (pa / 64) key va
    match aget? (coreOf s c.core).dcache (pa / 64) with
    | some d => (s, (d.data.toNat >>> (8 * (pa % 64))) % 2 ^ (8 * n))
    | none => (s, 0)
  | _ => (s, homeRead s l n)

/-- A scalar write of n bytes into the cache: the line is fetched and the bytes become dirty. -/
def cachedWrite (s : State) (c : ACtx) (l : Loc) (va n v : Nat) : State :=
  match l with
  | .phys pa _ key =>
    let s := fillLine s c (pa / 64) key va
    match aget? (coreOf s c.core).dcache (pa / 64) with
    | some d =>
      let o := pa % 64
      setLine s c.core (pa / 64) { d with data := patchLine d o n v, dirty := d.dirty ||| byteMask o n, xdirty := c.dirty }
    | none => s
  | _ => homeWrite s c.dirty l n v

/-- Drop the current core's line of a location, its dirty bytes written back first: what an atomic does (spec/07 R134). -/
def flushLoc (s : State) (core : Nat) (l : Loc) : State :=
  match l with
  | .phys pa _ _ => flushLines s core fun k _ => k == pa / 64
  | _ => s

/-! ### Vector and engine accesses: they look up the core's cache (spec/06 R102) -/

/-- Read n bytes, taking a dirty line from the core's cache. -/
def lookRead (s : State) (core : Nat) (l : Loc) (n : Nat) : Nat :=
  match l with
  | .phys pa _ _ =>
    match aget? (coreOf s core).dcache (pa / 64) with
    | some d =>
      if d.dirty ≠ 0 ∧ pa % 64 + n ≤ 64 then (d.data.toNat >>> (8 * (pa % 64))) % 2 ^ (8 * n) else homeRead s l n
    | none => homeRead s l n
  | _ => homeRead s l n

/-- What a vector or engine read does to the core's line of its location before it reads: a line with no dirty byte, or one held
under another key, goes, so that no later read of the core is older than this one (spec/07 R119). -/
def lookUp (s : State) (core : Nat) (l : Loc) : State :=
  match l with
  | .phys pa _ key =>
    match aget? (coreOf s core).dcache (pa / 64) with
    | some d => if d.key ≠ key ∨ d.dirty = 0 then flushLines s core fun k _ => k == pa / 64 else s
    | none => s
  | _ => s

/-- Write n bytes at the sole writer and update the core's matching line; a line under another key goes first. -/
def lookWrite (s : State) (c : ACtx) (l : Loc) (n v : Nat) : State :=
  let s := match l with
    | .phys pa _ key => flushLines s c.core fun k d => k == pa / 64 && d.key != key
    | _ => s
  let s := homeWrite s c.dirty l n v
  match l with
  | .phys pa _ _ =>
    match aget? (coreOf s c.core).dcache (pa / 64) with
    | some d =>
      let o := pa % 64
      setLine s c.core (pa / 64) { d with data := patchLine d o n v, dirty := d.dirty &&& ~~~(byteMask o n) }
    | none => s
  | _ => s

/-- The ranges that a piece uses. -/
def pieceRngs (p : Piece) : List Rng :=
  p.at_ :: match p.op with
    | .copy r | .axpy r _ | .row _ r => r
    | .fill _ | .scale _ | .gather _ | .combine => []

/-! ### Write-combining buffers (spec/07 R136) -/

/-- Perform a hart's buffered writes. -/
def drainWc (s : State) (h : Nat) : State :=
  let es := (hartOf s h).wc
  let s := es.foldl (fun t kv => homeWrite t kv.2.2.2 (.phys kv.1 1 kv.2.2.1) 1 kv.2.1.toNat) s
  updHart s h fun r => { r with wc := [] }

/-- Buffer n bytes. -/
def wcWrite (s : State) (h : Nat) (c : ACtx) (pa key n v : Nat) : State :=
  updHart s h fun r =>
    let put (m : AMap (Byte × Nat × Word)) (i : Nat) := aput m (pa + i) (BitVec.ofNat 8 (v >>> (8 * i)), key, c.dirty)
    { r with wc := (List.range n).foldl put r.wc }

/-- Read n bytes, the hart's buffered bytes first. -/
def wcRead (s : State) (h : Nat) (l : Loc) (pa n : Nat) : Nat :=
  natOfBytes ((List.range n).map fun i =>
    match aget? (hartOf s h).wc (pa + i) with
    | some e => e.1
    | none => BitVec.ofNat 8 (homeRead s (locAdd l i) 1))

/-! ### The address-range interlock (spec/07 R138, R139) -/

/-- The address the interlock compares: a gang window of the own core becomes the own tile address. -/
def aritVa (s : State) (core va : Nat) : Nat :=
  if gangTileVa ≤ va ∧ va < gangTileVa + 0x8000000 ∧ (va - gangTileVa) / 0x100000 = (coreOf s core).cidx then
    ownTileVa + (va - gangTileVa) % 0x100000
  else va

/-- Does an access of a hart to [va, va + n) meet one of its own entries, where either writes? Ranges are compared in
64-byte granules. -/
def aritBlocks (s : State) (core slot va n : Nat) (wr : Bool) : Bool :=
  let a := aritVa s core va
  n != 0 && (coreOf s core).arit.any fun kv =>
    let e := kv.2
    e.slot == slot && (wr || e.wr) && decide (e.base < e.limit) &&
      decide (a / 64 ≤ (e.limit - 1) / 64) && decide (e.base / 64 ≤ (a + n - 1) / 64)

/-- A free entry of the 32. -/
def aritFree (r : CoreSt) : Option Nat := (List.range 32).find? fun i => (aget? r.arit i).isNone
/-- The number of free entries. -/
def aritRoom (r : CoreSt) : Nat := 32 - r.arit.length
/-- Enter a range; gives its index. -/
def aritEnter (s : State) (core : Nat) (e : Arit) : State × Nat :=
  match aritFree (coreOf s core) with
  | some i => (updCore s core fun r => { r with arit := aput r.arit i { e with base := aritVa s core e.base, limit := aritVa s core e.base + (e.limit - e.base) } }, i)
  | none => (s, 0)
/-- Advance an entry's BASE. -/
def aritAdvance (s : State) (core i n : Nat) : State :=
  updCore s core fun r => match aget? r.arit i with
    | some e => { r with arit := aput r.arit i { e with base := e.base + n } }
    | none => r
/-- Free an entry. -/
def aritLeave (s : State) (core i : Nat) : State := updCore s core fun r => { r with arit := adel r.arit i }

/-! ### What a hart has under way -/

/-- Has nothing ever written a byte of [lo, hi), so that it reads 0? -/
def pristine (s : State) (lo hi : Nat) : Bool :=
  s.mem.all (fun kv => decide (kv.1 < lo) || decide (hi ≤ kv.1)) &&
    s.lineKey.all (fun kv => decide (64 * kv.1 + 64 ≤ lo) || decide (hi ≤ 64 * kv.1)) &&
    s.unspec.all fun e => decide (e.2.1 ≤ lo) || decide (hi ≤ e.1)

/-- The elements of a hart in the parked-reduction area (spec/13 Table 13-4): entry numbers. In an area that nothing has written no
entry is valid. -/
def parkedReds (s : State) (h : Nat) : List Nat :=
  let c := hartCtx s h
  if c.ctxbase = 0 then []
  else if pristine s (c.ctxbase + parkedRedOff) (c.ctxbase + parkedRedOff + 4096) then []
  else (List.range 64).filter fun i =>
    let w := areaRead s c.tid (c.ctxbase + parkedRedOff + 64 * i) 8
    bitOf w 0 && fieldOf w 15 9 == ghartOf s h

/-- Has a hart an element in the parked-reduction area? -/
def parkedRedOf (s : State) (h : Nat) : Bool := !(parkedReds s h).isEmpty

/-- The address of the element that an entry of a hart's parked-reduction area holds. -/
def parkedRedVa (s : State) (h i : Nat) : Nat :=
  let c := hartCtx s h
  areaRead s c.tid (c.ctxbase + parkedRedOff + 64 * i + 8) 8

/-- The nodes through which a chain run reaches memory: ports, address generators and the reduction tree (spec/07 R137). -/
def memNodes (sl : ChSlot) : List (Nat × Nat) := sl.nodes.filter fun n => n.1 == 2 || n.1 == 3 || n.1 == 6

/-- Is a slot's run under way? -/
def chLive (st : ChState) : Bool :=
  match st with
  | .running | .draining | .broken | .temporal => true
  | _ => false

/-- Is a run on a slot, or a run armed behind it, one that a hart issued? -/
def runOf (sl : ChSlot) (k : Nat) : Bool :=
  chLive sl.state && (match sl.ctx with | some c => c.slot == k | none => false)
def armOf (sl : ChSlot) (k : Nat) : Bool := match sl.arm with | some a => a.ctx.slot == k | none => false

/-- Has a hart transfers under way: copies, streams, refills, or a chain run, started or armed, with a node that reaches
memory (spec/07 R137)? -/
def hartTransfers (s : State) (h : Nat) : Bool :=
  let r := coreOf s (coreOfHart h)
  let k := slotOfHart h
  r.copies.any (fun kv => kv.2.slot == k) || r.arit.any (fun kv => kv.2.slot == k) ||
    r.refills.any (fun f => f.slot == k) ||
    r.streams.any (fun kv => (kv.2.state == 1 || kv.2.state == 2) &&
      (match kv.2.ctx with | some c => c.slot == k | none => false)) ||
    r.slots.any fun kv => (runOf kv.2 k || armOf kv.2 k) && !(memNodes kv.2).isEmpty

/-- Do two ranges share a 64-byte granule? -/
def sameGranule (lo hi lo' hi' : Nat) : Bool :=
  decide (lo < hi) && decide (lo' < hi') && decide (lo / 64 ≤ (hi' - 1) / 64) && decide (lo' / 64 ≤ (hi - 1) / 64)

/-- Does [va, va + n) meet a parked reduction of a hart? -/
def parkedMeets (s : State) (core slot va n : Nat) : Bool :=
  (parkedReds s (8 * core + slot)).any fun i =>
    let a := parkedRedVa s (8 * core + slot) i
    sameGranule a (a + 8) va (va + n)

/-- Does [va, va + n) meet a reduction of a hart that is not performed yet, sent or parked? -/
def redMeets (s : State) (core slot va n : Nat) : Bool :=
  (coreOf s core).redq.any (fun u => u.slot == slot && sameGranule u.va (u.va + 8) va (va + n)) ||
    parkedMeets s core slot va n

/-- Does [va, va + n) meet the range of a stream descriptor, where either writes? -/
def descMeets (s : State) (core : Nat) (d : AMap Word) (va n : Nat) (wr : Bool) : Bool :=
  let pt := patOf d
  let lo := aritVa s core (patRange pt).1
  (wr || pt.store) && sameGranule lo (lo + ((patRange pt).2 - (patRange pt).1)) (aritVa s core va) (aritVa s core va + n)

/-- Does [va, va + n) meet a port's range of a run that a hart has issued and that has not entered it into the interlock, a run
armed or held, where either writes? -/
def armMeets (s : State) (core slot va n : Nat) (wr : Bool) : Bool :=
  (coreOf s core).slots.any fun kv =>
    (kv.2.held && runOf kv.2 slot && kv.2.pats.any fun p => descMeets s core p.2 va n wr) || match kv.2.arm with
      | some a => a.ctx.slot == slot && a.pats.any fun p => descMeets s core p.2 va n wr
      | none => false

/-- Does [va, va + n) meet the range of a stream that a hart has issued and that has not started, where either writes? -/
def pendMeets (s : State) (core slot va n : Nat) (wr : Bool) : Bool :=
  (coreOf s core).streams.any fun kv => kv.2.state == 1 && (match kv.2.ctx with | some c => c.slot == slot | none => false) &&
    descMeets s core kv.2.desc va n wr

/-- Does [va, va + n) meet a transfer that a hart has issued: an entry of the interlock, a stream that has not started, an armed
run? -/
def xferMeets (s : State) (core slot va n : Nat) (wr : Bool) : Bool :=
  aritBlocks s core slot va n wr || pendMeets s core slot va n wr || armMeets s core slot va n wr

/-- Must an access of a hart to [va, va + n) wait for an earlier transfer or reduction of its own to the same bytes (spec/07 R137,
R138)? -/
def ownWaits (s : State) (core slot va n : Nat) (wr : Bool) : Bool :=
  xferMeets s core slot va n wr || redMeets s core slot va n

/-! ### A hart's own accesses -/

/-- Reductions of a hart that are not performed yet. -/
def hartReds (s : State) (h : Nat) : Bool :=
  (coreOf s (coreOfHart h)).redq.any (fun u => u.slot == slotOfHart h) || parkedRedOf s h

/-- May a strongly ordered access of a hart proceed (spec/07 R136)? -/
def strongReady (s : State) (h : Nat) : Bool := !hartTransfers s h && !hartReds s h

/-- Perform every earlier write of a hart: buffers and the core's dirty lines. -/
def performAll (s : State) (h : Nat) : State :=
  cleanLines (drainWc s h) (coreOfHart h) fun _ _ => true

/-- Access-fault and misalignment causes by kind. -/
def accessCause (k : AKind) : Nat := match k with | .fetch => 1 | .load => 5 | .store => 7
def alignCause (k : AKind) : Nat := match k with | .fetch => 0 | .load => 4 | .store => 6

/-- The context of an access of the current hart: MPRV lends the privilege of MPP to M-mode loads and stores. -/
def accessCtx (s : State) (k : AKind) : ACtx :=
  let c := hartCtx s s.cur
  let st := (me s).pr.mstatus.toNat
  if c.priv = .m ∧ k ≠ .fetch ∧ bitOf st 17 = true then { c with priv := privOf (fieldOf st 12 11) } else c

/-- Translate for the current hart, raising or parking as the access decides. -/
def myTranslate (s : State) (k : AKind) (u : Use) (va src : Nat) : Except Exc (State × Loc) :=
  match translate s (accessCtx s k) k u va with
  | (s, .ok l) => .ok (s, l)
  | (s, .error (.page kind)) => .error (.pageFault s va kind src)
  | (s, .error .access) => .error (.trap s (accessCause k) (w64 va))
  | (s, .error .poison) => .error (.trap s 51 (w64 va))

/-- What the place of an access asks before the access is performed: strong ordering (spec/07 R136), and register writes that
have not taken effect yet, which no register access passes. -/
def placeOrder (s : State) (l : Loc) : Except Exc State :=
  match l with
  | .phys _ 3 _ => if strongReady s s.cur then .ok (performAll s s.cur) else .error (.wait s)
  | .mmio _ => if s.io.devQ.isEmpty then .ok s else .error (.wait s)
  | _ => .ok s

/-- The waits and ordering an access makes before it is performed: the hart's own earlier accesses to the same bytes, and its
place. -/
def myOrder (s : State) (va n : Nat) (wr : Bool) (l : Loc) : Except Exc State :=
  if ownWaits s (myCore s) (mySlot s) va n wr then .error (.wait s) else placeOrder s l

/-- A scalar load of n bytes, naturally aligned (spec/06 R97, R102; spec/07 R119, R120, R136). -/
def scalarRead (s : State) (va n : Nat) : Except Exc (State × Nat) :=
  if va % n ≠ 0 then .error (.trap s 4 (w64 va))
  else do
    let (s, l) ← myTranslate s .load .plain va 24
    let s ← myOrder s va n false l
    if locPoisoned s l n then .error (.trap s 51 (w64 va))
    else match l with
      | .phys pa 1 _ => .ok (s, wcRead s s.cur l pa n)
      | _ => if isCached l then .ok (cachedRead s (hartCtx s s.cur) l va n) else .ok (readEffect s l n, homeRead s l n)

/-- A scalar store of n bytes, naturally aligned. -/
def scalarWrite (s : State) (va n v : Nat) : Except Exc State :=
  if va % n ≠ 0 then .error (.trap s 6 (w64 va))
  else do
    let (s, l) ← myTranslate s .store .plain va 24
    let s ← myOrder s va n true l
    let c := hartCtx s s.cur
    match l with
    | .phys pa 1 key => .ok (wcWrite s s.cur c pa key n v)
    | _ => if isCached l then .ok (cachedWrite s c l va n v) else .ok (homeWrite s c.dirty l n v)

/-- One element of a vector access: read. -/
def vecRead (s : State) (l : Loc) (n : Nat) : State × Nat :=
  match l with
  | .phys pa 1 _ => (s, wcRead s s.cur l pa n)
  | .mmio _ => (readEffect s l n, homeRead s l n)
  | _ =>
    let s := lookUp s (myCore s) l
    (s, lookRead s (myCore s) l n)

/-- One element of a vector access: write. -/
def vecWrite (s : State) (l : Loc) (n v : Nat) : State :=
  match l with
  | .phys pa 1 key => wcWrite s s.cur (hartCtx s s.cur) pa key n v
  | _ => lookWrite s (hartCtx s s.cur) l n v

/-- Read n bytes at an address for an instruction that reads a record, word by word across pages; the first that fails
decides. The bytes come as a vector read would give them, in the order that the pages' memory types ask. -/
def readRecord (s : State) (va n src : Nat) : Except Exc (State × Nat) :=
  if ownWaits s (myCore s) (mySlot s) va n false then .error (.wait s)
  else
    (List.range ((n + 7) / 8)).foldlM (fun (acc : State × Nat) i => do
      let (s, l) ← myTranslate acc.1 .load .plain (va + 8 * i) src
      let k := min 8 (n - 8 * i)
      let s ← placeOrder s l
      if locPoisoned s l k then .error (.trap s 51 (w64 (va + 8 * i)))
      else
        let (s, v) := vecRead s l k
        .ok (s, acc.2 + v * 2 ^ (64 * i))) (s, 0)

end Sys2Proof.Machine
end

