-- ==== Sys2Proof/Machine/Fetch.lean ====
section
/-!
DEFINITION. Fetching an instruction, pending interrupts, and whether a hart can move (spec/02 R18, R34; spec/06 R102).
-/
namespace Sys2Proof.Machine

/-- A line of the instruction cache. -/
def iHit (c : ACtx) (vline : Nat) (l : ILine) : Bool := l.asid == c.asid && l.tid == c.tid && l.vline == vline

/-- The word at an address, through the instruction cache: a line that is held is not coherent with stores. The cache keeps 1,024
lines, the oldest out first (DESIGN CHOICE, notes/assumptions/16: spec/01 R12 gives its size and no replacement). -/
def fetchLine (s : State) (c : ACtx) (va : Nat) (l : Loc) : State × Nat :=
  let o := va % 64
  match (coreOf s c.core).icache.find? (iHit c (va / 64)) with
  | some i => (s, (i.data.toNat >>> (8 * o)) % 2 ^ 32)
  | none =>
    match l with
    | .phys pa _ key =>
      let d := physRead s (keyId s key) (pa / 64 * 64) 64
      if key ≥ 8192 then (s, (d >>> (8 * o)) % 2 ^ 32)
      else
        let line : ILine := ⟨c.asid, c.tid, va / 64, BitVec.ofNat 512 d⟩
        (updCore s c.core fun r => { r with icache := (line :: r.icache).take 1024 }, (d >>> (8 * o)) % 2 ^ 32)
    | _ => (s, 0)

/-- Fetch the current hart's next word. -/
def fetch (s : State) : Except Exc (State × IWord) :=
  let va := (me s).pc.toNat
  if va % 4 ≠ 0 then .error (.trap s 0 (w64 va))
  else do
    let (s, l) ← myTranslate s .fetch .plain va 24
    if locPoisoned s l 4 then .error (.trap s 51 (w64 va))
    else
      let (s, w) := fetchLine s (hartCtx s s.cur) va l
      .ok (s, BitVec.ofNat 32 w)

/-- The interrupt a hart takes next, and whether it enters M-mode (privileged architecture 1.12): machine interrupts
first, then those delegated to S-mode. Within a mode, external, software, timer in the standard's order, then the rest by
rising number. -/
def nextIrq (h : Hart) : Option (Nat × Bool) :=
  let p := (h.pr.mip &&& h.pr.mie).toNat
  let d := h.pr.mideleg.toNat
  let order := [11, 3, 7, 9, 1, 5, 16, 17, 18, 19, 20, 21, 22, 23, 24, 25, 26, 27, 28, 29, 30, 31]
  let mOk := decide (h.priv ≠ .m) || bitOf h.pr.mstatus.toNat stMIE
  let sOk := decide (h.priv = .u) || (decide (h.priv = .s) && bitOf h.pr.mstatus.toNat stSIE)
  match (if mOk then order.find? fun k => bitOf p k && !bitOf d k else none) with
  | some k => some (k, true)
  | none =>
    match (if sOk then order.find? fun k => bitOf p k && bitOf d k else none) with
    | some k => some (k, false)
    | none => none

/-- May a hart move: it runs, is not halted, and its gang is not stopped (spec/02 R18, R42)? While a gang quiesces, a VRED of
which elements have been issued goes on to its end. -/
def canMove (s : State) (h : Nat) : Bool :=
  let r := hartOf s h
  let c := coreOf s (coreOfHart h)
  decide (r.run = .running) && (!r.halted || r.stepping || r.pbuf.isSome) && decide (slotOfHart h < c.part) &&
    match c.gang with
    | none => true
    | some seat =>
      match (gangOf s seat).state with
      | .running => true
      | .checkpoint k _ => k == h || r.vred != 0
      | .saving => r.vred != 0
      | .ending _ _ _ _ => r.vred != 0

/-- Does a hart hold a BCMD whose pieces are not all enqueued, or a VRED of which elements have been issued? It is held, not
abandoned (spec/15 R286, notes/assumptions/53). -/
def bauHeld (s : State) (h : Nat) : Bool := s.cmds.any (fun kv => kv.2.hart == h && !kv.2.todo.isEmpty) || (hartOf s h).vred != 0

/-- Is the hart's gang quiescing for a checkpoint? -/
def inCheckpoint (s : State) (h : Nat) : Bool :=
  match (coreOf s (coreOfHart h)).gang with
  | some seat => (match (gangOf s seat).state with | .checkpoint _ _ => true | _ => false)
  | none => false

/-- The interrupt that a hart takes now; a single step takes none unless `dcsr` allows it. -/
def irqFor (s : State) (h : Nat) : Option (Nat × Bool) :=
  let r := hartOf s h
  if canMove s h && !bauHeld s h && !inCheckpoint s h && !inDebug r && !(r.stepping && !bitOf r.pr.dcsr.toNat 11) then nextIrq r
  else none

end Sys2Proof.Machine
end

