-- ==== Sys2Proof/Machine/Operands.lean ====
section
/-!
DEFINITION. The operands of vector instructions: vtype, register groups, element activity, tags, scalar operands, scale
sidecars, and the checks in the order of spec/05 Table 5-9.
-/
namespace Sys2Proof.Machine

/-- What a vector instruction sees of its hart at issue: the hart's record, its lanes, and vtype taken apart. -/
structure VEnv where
  h : Hart
  lanes : Nat
  vl : Nat
  vstart : Nat
  lg : Nat
  fmt : Fmt
  blk : Nat
  pg : Nat
deriving DecidableEq, Repr

/-- vtype [9:0] taken apart (spec/03 Table 3-5): LG, format, BLK; none where it is illegal (spec/02 R26). -/
def vtypeOf (n : Nat) : Option (Nat × Fmt × Nat) :=
  let lg := fieldOf n 2 0
  let blk := fieldOf n 9 8
  match Fmt.ofCode (fieldOf n 7 3) with
  | some f => if n / 1024 = 0 ∧ lg ≤ 3 ∧ fmtBlkOk f blk = true then some (lg, f, blk) else none
  | none => none

/-- The tag made of a format and a BLK code, SC = 1 exactly when BLK is not 0 (spec/03 R47). -/
def tagOf (f : Fmt) (blk : Nat) : Nat := f.code + 32 * blk + (if blk = 0 then 0 else 128)

/-- The tag with SC = 0 (spec/03 R47; spec/17 R348). -/
def tagNoSc (f : Fmt) (blk : Nat) : Nat := f.code + 32 * blk

def VEnv.sew (e : VEnv) : Nat := fmtSew e.fmt
/-- Registers of a group of vtype's width. -/
def VEnv.grp (e : VEnv) : Nat := 2 ^ e.lg
/-- Bits of one register. -/
def VEnv.regBits (e : VEnv) : Nat := 1024 * e.lanes
/-- The vtype tag (spec/17 R347). -/
def VEnv.tag (e : VEnv) : Nat := tagOf e.fmt e.blk
/-- Registers of a group of another element width (spec/17 R349). -/
def VEnv.grpOf (e : VEnv) (dw : Nat) : Nat := max 1 (2 ^ e.lg * dw / e.sew)
/-- 1 for 4-bit elements, where one predicate bit governs two elements. -/
def VEnv.shift (e : VEnv) : Nat := if e.sew = 4 then 1 else 0

/-- The dynamic rounding mode. -/
def VEnv.rm (e : VEnv) : Rnd := rndOfCode e.h.xc.rm.toNat

/-- Bit j of predicate p; p0 reads all-true. -/
def VEnv.pbit (e : VEnv) (p j : Nat) : Bool := if p = 0 then true else bitOf (hartP e.h p) j

/-- Does the governing predicate cover element i? -/
def VEnv.governs (e : VEnv) (i : Nat) : Bool := e.pbit e.pg (i >>> e.shift)

/-- Is element i active (spec/02 R28)? -/
def VEnv.active (e : VEnv) (i : Nat) : Bool := decide (e.vstart ≤ i) && decide (i < e.vl) && e.governs i

/-- The active elements, ascending. -/
def VEnv.actives (e : VEnv) : List Nat := (List.range e.vl).filter e.active

/-! ### Register groups -/

/-- Is a group aligned to its size, of at most 8 registers (spec/05 R89, spec/17 R349)? -/
def groupOkAt (base size : Nat) : Bool := decide (size ≤ 8) && base % size == 0

/-- Do two groups share a register? -/
def overlaps (a na b nb : Nat) : Bool := decide (a < b + nb) && decide (b < a + na)

/-- The bits of a group, register `base` lowest. -/
def rdGroup (h : Hart) (regBits : Nat) : Nat → Nat → Nat
  | _, 0 => 0
  | base, n + 1 => hartV h base % 2 ^ regBits + rdGroup h regBits (base + 1) n * 2 ^ regBits

/-- Write the bits of a group. -/
def wrGroup (h : Hart) (regBits : Nat) : Nat → Nat → Nat → Hart
  | _, 0, _ => h
  | base, n + 1, g => wrGroup (hartSetV h base (g % 2 ^ regBits)) regBits (base + 1) n (g / 2 ^ regBits)

/-- Write the tag of every register of a group. -/
def setTags (h : Hart) : Nat → Nat → Nat → Hart
  | _, 0, _ => h
  | base, n + 1, t => setTags (hartSetTag h base t) (base + 1) n t

/-- Do all registers of a group carry a tag? -/
def tagsAre (h : Hart) : Nat → Nat → Nat → Bool
  | _, 0, _ => true
  | base, n + 1, t => hartTag h base == t && tagsAre h (base + 1) n t

/-- The bits of a group of the instruction's hart. -/
def VEnv.group (e : VEnv) (base n : Nat) : Nat := rdGroup e.h e.regBits base n

/-! ### Scale sidecars (spec/03 R49) -/

/-- Bytes of one scale. -/
def scaleBytes (f : Fmt) : Nat := if fmtIsPe f then 2 else 1
/-- Blocks of one lane. -/
def laneBlocks (f : Fmt) (blk : Nat) : Nat := 1024 / fmtSew f / (if fmtIsPe f then 16 else blockLen blk)

/-- Where the scale of block j of a group lies: register offset, lane, and byte within the lane's sidecar. -/
def scalePos (lanes : Nat) (f : Fmt) (blk j : Nat) : Nat × Nat × Nat :=
  let n := laneBlocks f blk
  (j / (n * lanes), j / n % lanes, j % n * scaleBytes f)

/-- Read the scale of block j. -/
def rdScale (h : Hart) (lanes base : Nat) (f : Fmt) (blk j : Nat) : Nat :=
  let (r, lane, b) := scalePos lanes f blk j
  (hartSc h (base + r) >>> (8 * (32 * lane + b))) % 2 ^ (8 * scaleBytes f)

/-- Write the scale of block j, and zero into the lane's bytes that hold no scale. -/
def wrScale (h : Hart) (lanes base : Nat) (f : Fmt) (blk j v : Nat) : Hart :=
  let (r, lane, b) := scalePos lanes f blk j
  let o := 32 * lane
  let used := laneBlocks f blk * scaleBytes f
  let n := hartSc h (base + r)
  let n := withField n (8 * (o + b) + 8 * scaleBytes f - 1) (8 * (o + b)) v
  let n := if used < 32 then withField n (8 * o + 255) (8 * (o + used)) 0 else n
  hartSetSc h (base + r) n

/-! ### Element values -/

/-- A w-bit integer pattern as an exact value. -/
def intVal (w bits : Nat) : FVal :=
  let z := sInt w bits
  .fin (decide (z < 0)) z.natAbs 0

/-- The block length that groups elements under one scale. -/
def blkOf (f : Fmt) (blk : Nat) : Nat := if fmtIsPe f then 16 else blockLen blk

/-- The exact value of an element pattern, given the scale of its block (spec/04 R60, R61, R63); `i` is its index within
the block. -/
def elemVal (f : Fmt) (blk bits scale i : Nat) : FVal :=
  match peBits f with
  | some m => peDecode m bits (scale % 256) (if bitOf scale (8 + i / 2) then 1 else 0)
  | none =>
    match fspec f with
    | some sp =>
      let v := fdecode sp (bits % 2 ^ (1 + sp.eb + sp.mb))
      if blk = 0 then v else if scale % 256 = 255 then .nan false else fscale v ((scale % 256 : Nat) - 127)
    | none => intVal (fmtSew f) bits

/-- The exact value of element i of a group that carries the tag of (format, BLK). -/
def groupVal (e : VEnv) (base : Nat) (f : Fmt) (blk g i : Nat) : FVal :=
  let b := blkOf f blk
  let sc := if b = 0 then 0 else rdScale e.h e.lanes base f blk (i / b)
  elemVal f blk (elemOf (fmtSew f) g i) sc (if b = 0 then 0 else i % b)

/-! ### Scalar operands (spec/05 R82, R84) -/

/-- The operand that the form selects. -/
inductive Opnd where
  | v (r : RegIx)
  | x (r : RegIx)
  | i (imm : BitVec 5)      -- sign-extended to SEW
  | u (imm : BitVec 5)      -- read unsigned
  | f (r : RegIx)
deriving DecidableEq, Repr

/-- The register of a VV form. -/
def Opnd.vreg : Opnd → Option Nat
  | .v r => some r.val
  | _ => none

/-- The SEW-bit pattern of the operand for element i; `g` is the group of a VV form. -/
def opBits (e : VEnv) (o : Opnd) (g i : Nat) : Nat :=
  match o with
  | .v _ => elemOf e.sew g i
  | .x r => (hartX e.h r).toNat % 2 ^ e.sew
  | .i imm => wrapInt e.sew imm.toInt
  | .u imm => imm.toNat
  | .f _ => 0

/-- The exact value of the operand for element i of a floating-point instruction. -/
def opVal (e : VEnv) (o : Opnd) (g i : Nat) : FVal :=
  match o with
  | .f r =>
    let w := aget 0 e.h.f r.val
    if e.sew = 64 then elemVal .fp64 0 w.toNat 0 0 else elemVal .fp32 0 (unboxS w) 0 0
  | _ => elemVal e.fmt 0 (opBits e o g i) 0 0

/-- The group of a VV operand, of vtype's width. -/
def opGroup (e : VEnv) (o : Opnd) : Nat :=
  match o with
  | .v r => e.group r.val e.grp
  | _ => 0

/-! ### Checks -/

/-- Is the hart's slot lent to a vector stage of a running chain (spec/08 R153)? -/
def lentTo (s : State) (h : Nat) : Bool :=
  (coreOf s (coreOfHart h)).slots.any fun kv =>
    let c := kv.2
    (decide (c.state = .running) || decide (c.state = .draining) || decide (c.state = .broken) || decide (c.state = .temporal)) &&
      c.nodes.any fun n => n.1 == 0 && n.2 == slotOfHart h

/-- Has the hart a matrix instruction, a refill or a BGAX sum outstanding, whose registers interlock (spec/09 R190, spec/10
R203, spec/11 R222)? -/
def regsBusy (s : State) (h : Nat) : Bool :=
  let c := coreOf s (coreOfHart h)
  (match c.engine with | some m => m.slot == slotOfHart h | none => false) || c.refills.any fun f => f.slot == slotOfHart h

/-- Wait while the hart's vector registers are interlocked. -/
def vecReady (s : State) : Except Exc Unit :=
  if lentTo s s.cur || regsBusy s s.cur then .error (.wait s) else .ok ()

/-- Step 4 of Table 5-9: the environment, or cause 24 where VILL is set. -/
def vecEnv (s : State) (i : Instr) (pg : Nat) : Except Exc VEnv :=
  let h := me s
  match vtypeOf h.xc.vtype.toNat with
  | some (lg, f, blk) => .ok ⟨h, lanesOf s s.cur, h.xc.vl.toNat, h.xc.vstart.toNat, lg, f, blk, pg⟩
  | none => .error (.trap s 24 (wordOf i))

/-- Step 5: the class, groups and the instruction's own conditions (`ok`), and `xvstart` = 0 where the instruction does not
restart. On a lent hart only a stage runs, which may take the elements of its row part by part. -/
def vecLegal (s : State) (i : Instr) (e : VEnv) (restartable ok : Bool) : Except Exc Unit :=
  orIllegal (ok && (restartable || e.vstart == 0 || lentTo s s.cur)) s i

/-- Step 6: the tags of source groups (base, size, tag), or cause 25. -/
def vecTags (s : State) (i : Instr) (e : VEnv) (ts : List (Nat × Nat × Nat)) : Except Exc Unit :=
  orTrap (ts.all fun t => tagsAre e.h t.1 t.2.1 t.2.2) s 25 (wordOf i)

/-- Is the governing predicate uniform over each block of `b` elements below vl (spec/02 R30)? -/
def uniformOver (e : VEnv) (b : Nat) : Bool :=
  b == 0 || (List.range e.vl).all fun i => e.governs i == e.governs (i / b * b)

/-- Step 7: a uniform predicate on a block-format destination. -/
def vecUniform (s : State) (i : Instr) (e : VEnv) (b : Nat) : Except Exc Unit := orIllegal (uniformOver e b) s i

/-- Is any element processed: vl > `xvstart` (spec/02 R31)? -/
def VEnv.some (e : VEnv) : Bool := decide (e.vstart < e.vl)

/-! ### Results -/

/-- Rewrite the listed elements of packed data in order, threading what the elements share. -/
def mapElems {σ : Type} (sew g : Nat) (is : List Nat) (f : Nat → Nat → σ → Nat × σ) (st : σ) : Nat × σ :=
  is.foldl (fun acc i =>
    let r := f i (elemOf sew acc.1 i) acc.2
    (setElem sew acc.1 i r.1, r.2)) (g, st)

/-- Write a destination group and, where an element is processed, its tags. -/
def wrVec (e : VEnv) (h : Hart) (base size g tag : Nat) : Hart :=
  if e.some then setTags (wrGroup h e.regBits base size g) base size tag else h

/-- A vector instruction completes: the hart's registers, `xvstart` = 0, the next pc. -/
def vecDone (s : State) (h : Hart) : Res :=
  .ok (setMe s { h with xc := { h.xc with vstart := 0 }, pc := h.pc + 4 })

end Sys2Proof.Machine
end

