-- ==== Sys2Proof/Machine/Order.lean ====
section
/-!
DEFINITION. Releases and acquires (spec/07 R122 to R132, R140, R145; spec/09 R190; spec/13 R249): what binds an address,
what a release waits for and performs, what an acquire invalidates.
-/
namespace Sys2Proof.Machine

/-! ### Bindings (spec/07 R126, Table 7-5) -/

/-- A binding: its entry, region base and length, and object. -/
structure Binding where
  entry : Nat
  base : Nat
  len : Nat
  obj : Nat
deriving DecidableEq, Repr

/-- The address of an entry of a context's binding table. -/
def bindAddr (c : ACtx) (n : Nat) : Nat := c.ctxbase + bindTableOff + 32 * n

/-- The bindings in force in a context; none where there is no context. -/
def bindings (s : State) (c : ACtx) : List Binding :=
  if c.ctxbase = 0 then []
  else
    let lo := bindAddr c 0
    let t := { s with mem := s.mem.filter fun kv => decide (lo ≤ kv.1) && decide (kv.1 < lo + 0x20000) }
    (List.range 4096).filterMap fun n =>
      let w := areaRead t c.tid (bindAddr c n) 8
      if bitOf w 0 then
        some ⟨n, fieldOf w 59 8 * 256, areaRead t c.tid (bindAddr c n + 8) 8, areaRead t c.tid (bindAddr c n + 16) 8⟩
      else none

/-- A set of addresses that a release or an acquire covers: a test of a range [lo, hi). -/
abbrev Cover := Nat → Nat → Bool

/-- Does a range meet one of the regions? -/
def meets (bs : List Binding) : Cover := fun lo hi => bs.any fun b => decide (lo < b.base + b.len) && decide (b.base < hi)

/-- Does a range hold an address in no binding? -/
def leaves (bs : List Binding) : Nat → Nat → Nat → Bool
  | 0, lo, hi => decide (lo < hi)
  | n + 1, lo, hi =>
    decide (lo < hi) && match bs.find? (fun b => decide (b.base ≤ lo) && decide (lo < b.base + b.len)) with
      | some b => leaves bs n (b.base + b.len) hi
      | none => true

/-- The addresses of the implicit objects. -/
def unboundCover (bs : List Binding) : Cover := leaves bs bs.length
/-- Every address. -/
def allCover : Cover := fun _ _ => true

/-- The regions that an object binds. -/
def objBindings (bs : List Binding) (obj : Nat) : List Binding := bs.filter fun b => b.obj == obj

/-! ### What a release waits for -/

/-- Does a descriptor store into a cover? -/
def storesIn (cov : Cover) (d : AMap Word) : Bool :=
  let p := patOf d
  p.store && cov (patRange p).1 (patRange p).2

/-- May the index nodes of a run still write into a cover, under some aims: a scattering address generator or a reduction tree
that has not fired its last row, over all that its indices reach (spec/08 Table 8-9)? -/
def indexWrites (sl : ChSlot) (aims : AMap Word) (cov : Cover) : Bool :=
  sl.nodes.zipIdx.any fun p =>
    let w0 := (aget 0 aims (4 * p.2)).toNat
    let w1 := (aget 0 aims (4 * p.2 + 1)).toNat
    let r : Option (Nat × Nat) :=
      if p.1.1 = 3 ∧ bitOf w1 5 = true then some (indexReach w0 (if bitOf w1 6 then 64 else 32))
      else if p.1.1 = 6 then some (indexReach w0 (fmtSew ((Fmt.ofCode (fieldOf w1 7 3)).getD .i32)))
      else none
    match r with
    | some r => cov r.1 r.2
    | none => false

/-- Has a hart a transfer whose writes a cover holds (spec/07 R129, R140): an interlock entry that writes, a store stream that has
not started, a run of its own, started or armed, that stores by index, or a port of an armed run that stores? -/
def transferBlocks (s : State) (h : Nat) (cov : Cover) : Bool :=
  let c := coreOf s (coreOfHart h)
  let k := slotOfHart h
  c.arit.any (fun kv => kv.2.wr && kv.2.slot == k && cov kv.2.base kv.2.limit) ||
    c.streams.any (fun kv => kv.2.state == 1 && storesIn cov kv.2.desc &&
      match kv.2.ctx with | some x => x.slot == k | none => false) ||
    c.slots.any fun kv =>
      (runOf kv.2 k && (indexWrites kv.2 kv.2.active cov || (kv.2.held && kv.2.pats.any fun p => storesIn cov p.2))) ||
        (armOf kv.2 k && (indexWrites kv.2 kv.2.pend cov || match kv.2.arm with
          | some a => a.pats.any fun p => storesIn cov p.2
          | none => false))

/-- Has a hart a reduction that is not performed, at an address that a cover holds? -/
def redBlocks (s : State) (h : Nat) (cov : Cover) : Bool :=
  (coreOf s (coreOfHart h)).redq.any (fun u => u.slot == slotOfHart h && cov u.va (u.va + 8)) ||
    (parkedReds s h).any fun i => cov (parkedRedVa s h i) (parkedRedVa s h i + 8)

/-- Has a hart a matrix instruction that is not complete? -/
def engineBlocks (s : State) (h : Nat) : Bool :=
  match (coreOf s (coreOfHart h)).engine with
  | some m => m.slot == slotOfHart h
  | none => false

/-! ### Release and acquire -/

/-- A test of cache lines by their virtual address. -/
def lineIn (cov : Cover) : Nat → CLine → Bool := fun _ c => cov c.va (c.va + 64)

/-- The release of a cover by a hart, at a scope that reaches beyond its core (`wide`) or not; it waits for what it must.
`xfers` says whether it orders transfers. -/
def releaseCover (s : State) (h : Nat) (cov : Cover) (wide xfers : Bool) : Except Exc State :=
  if (xfers && transferBlocks s h cov) || redBlocks s h cov || engineBlocks s h then .error (.wait s)
  else
    let s := drainWc s h
    .ok (if wide then cleanLines s (coreOfHart h) (lineIn cov) else s)

/-- A line whose clean bytes are read anew; its dirty bytes stay. -/
def refreshLine (s : State) (line : Nat) (c : CLine) : CLine :=
  let fresh := physRead s (keyId s c.key) (64 * line) 64
  let d := (List.range 64).foldl (fun n i => if bitOf c.dirty.toNat i then setElem 8 n i (elemOf 8 c.data.toNat i) else n) fresh
  { c with data := BitVec.ofNat 512 d }

/-- Invalidate what a core's cache holds of a cover and has not written: clean lines go, and a dirty line keeps only its
dirty bytes (spec/07 R131, R122). -/
def acquireCover (s : State) (core : Nat) (cov : Cover) : State :=
  let s := dropClean s core (lineIn cov)
  updCore s core fun r =>
    { r with dcache := r.dcache.map fun kv => if lineIn cov kv.1 kv.2 then (kv.1, refreshLine s kv.1 kv.2) else kv }

/-- Is a scope gang or wider? -/
def scopeWide : Scope → Bool
  | .hart | .core => false
  | _ => true

/-- FENCEX.rel for the current hart. -/
def fenceRel (s : State) (sc : Bool) (xfers : Bool) : Except Exc State :=
  releaseCover s s.cur (unboundCover (bindings s (hartCtx s s.cur))) sc xfers

/-- FENCEX.acq for the current hart. -/
def fenceAcq (s : State) (sc : Bool) : State :=
  if sc then acquireCover s (myCore s) (unboundCover (bindings s (hartCtx s s.cur))) else s

/-- Every earlier access of the current hart is performed: all transfers, reductions, buffers and dirty lines. -/
def fenceAll (s : State) (xfers : Bool) : Except Exc State :=
  if (xfers && hartTransfers s s.cur) || hartReds s s.cur || engineBlocks s s.cur then .error (.wait s)
  else .ok (performAll s s.cur)

/-- The release of BARA.rel and of a release at gang scope that covers every address, bound or not (spec/15 R281). -/
def releaseAll (s : State) : Except Exc State := releaseCover s s.cur allCover true true

/-- The acquire that invalidates the core's clean lines of every address (spec/15 R282). -/
def acquireAll (s : State) : State := acquireCover s (myCore s) allCover

/-- What the rl bit of an atomic at an address does (spec/07 R132). -/
def atomicRel (s : State) (va : Nat) : Except Exc State :=
  let bs := bindings s (hartCtx s s.cur)
  match bs.find? fun b => decide (b.base ≤ va) && decide (va < b.base + b.len) with
  | none => releaseCover s s.cur (unboundCover bs) true true
  | some b => releaseCover s s.cur (meets (objBindings bs b.obj)) true true

/-- What the aq bit of an atomic at an address does. -/
def atomicAcq (s : State) (va : Nat) : State :=
  let bs := bindings s (hartCtx s s.cur)
  match bs.find? fun b => decide (b.base ≤ va) && decide (va < b.base + b.len) with
  | none => acquireCover s (myCore s) (unboundCover bs)
  | some b => flushLines s (myCore s) (lineIn (meets (objBindings bs b.obj)))

end Sys2Proof.Machine
end

