-- ==== Sys2Proof/Machine/Barrier.lean ====
section
/-!
DEFINITION. Gang barriers (spec/03 R45; spec/15 R279 to R285): the barrier agent's operations, and the four instructions.
-/
namespace Sys2Proof.Machine

def gbExp (w : Nat) : Nat := fieldOf w 15 0
def gbArr (w : Nat) : Nat := fieldOf w 31 16
def gbPhase (w : Nat) : Nat := fieldOf w 63 32

/-- A barrier register of a gang. -/
def gbRead (s : State) (seat n : Nat) : Nat := (aget 0 (gangOf s seat).gb n).toNat
def gbWrite (s : State) (seat n w : Nat) : State := updGang s seat fun g => { g with gb := aputC 0 g.gb n (w64 w) }

/-- The Arrive rows of Table 15-3: the new register and the phase of arrival; `none` where EXP = 0. -/
def gbArrive (w : Nat) : Option (Nat × Nat) :=
  if gbExp w = 0 then none
  else if gbArr w + 1 < gbExp w then some (withField w 31 16 (gbArr w + 1), gbPhase w)
  else some (withField (withField w 31 16 0) 63 32 (gbPhase w + 1), gbPhase w)

/-- The barrier register that the current hart names: that of its gang; a hart of no gang has none, and reads 0. -/
def myGb (s : State) (n : Fin 4) : Nat :=
  match (coreOf s (myCore s)).gang with
  | some seat => gbRead s seat n.val
  | none => 0
def setMyGb (s : State) (n : Fin 4) (w : Nat) : State :=
  match (coreOf s (myCore s)).gang with
  | some seat => gbWrite s seat n.val w
  | none => s

/-- BARI (spec/15 R280). -/
def execBari (n : Fin 4) (a : RegIx) (s : State) : Host.Outcome State Fault Refusal :=
  let i : Instr := .bari n a
  finish i (do
    let v := (rdX s a).toNat
    let w := myGb s n
    orTrap (gbArr w == 0 && v != 0 && decide (v ≤ 65535)) s 29 (wordOf i)
    .ok (nextPc (setMyGb s n (withField w 15 0 v))))

/-- One arrival of the current hart: the release first, where it is one. -/
def arriveOp (i : Instr) (rel : Bool) (n : Fin 4) (s : State) : Except Exc (State × Nat) := do
  let s ← if rel then releaseAll s else .ok s
  match gbArrive (myGb s n) with
  | none => .error (.trap s 29 (wordOf i))
  | some (w, p) => .ok (setMyGb s n w, p)

/-- BARA (spec/15 R281). -/
def execBara (r : Bool) (n : Fin 4) (d : RegIx) (s : State) : Host.Outcome State Fault Refusal :=
  let i : Instr := .bara r n d
  finish i (do
    let (s, p) ← arriveOp i r n s
    .ok (nextPc (wrX s d (w64 p))))

/-- The test of BARW. -/
def barwOp (c : Bool) (n : Fin 4) (a : RegIx) (s : State) : Res :=
  if gbPhase (myGb s n) = (rdX s a).toNat % 2 ^ 32 then .error (.wait s)
  else .ok (nextPc (if c then acquireAll s else s))

/-- BARW (spec/15 R282). -/
def execBarw (c : Bool) (n : Fin 4) (a : RegIx) (s : State) : Host.Outcome State Fault Refusal :=
  finish (.barw c n a) (barwOp c n a s)

/-- BARAW: an arrival, unless the latch already holds this one, and the wait for the end of its phase. The latch is set with
the arrival and cleared with the return. -/
def barawOp (c : Bool) (n : Fin 4) (d : RegIx) (s : State) : Res := do
  let h := me s
  let latched := match h.latch with
    | some l => if l.addr = h.pc ∧ l.gb = n then some l.ph.toNat else none
    | none => none
  let (s, p) ← match latched with
    | some p => .ok (s, p)
    | none => do
      let s := updMe s fun h => { h with latch := none }
      let (s, p) ← arriveOp (.baraw c n d) c n s
      .ok (updMe s fun h => { h with latch := some ⟨h.pc, n, BitVec.ofNat 32 p⟩ }, p)
  let s := wrX s d (w64 p)
  if gbPhase (myGb s n) = p then .error (.wait s)
  else .ok (nextPc (updMe (if c then acquireAll s else s) fun h => { h with latch := none }))

/-- BARAW (spec/15 R283). -/
def execBaraw (c : Bool) (n : Fin 4) (d : RegIx) (s : State) : Host.Outcome State Fault Refusal :=
  finish (.baraw c n d) (barawOp c n d s)

/-- BARRIER_WAIT_RETURN: a hart that waits at a BARW or BARAW tests again. -/
def execBarrierWaitReturn (hart : Nat) (s : State) : Host.Outcome State Fault Refusal :=
  if !canMove s hart then .next s
  else
    let t := { s with cur := hart }
    match (hartOf s hart).wait with
    | some (.barw c n a) => finish (.barw c n a) (barwOp c n a t)
    | some (.baraw c n d) => finish (.baraw c n d) (barawOp c n d t)
    | _ => .next s

/-- The arrival of a copy on a barrier of its issuer's gang (spec/15 R285): false where EXP = 0, and it is dropped. -/
def copyArrive (s : State) (seat n : Nat) : State × Bool :=
  match gbArrive (gbRead s seat n) with
  | some (w, _) => (gbWrite s seat n w, true)
  | none => (s, false)

end Sys2Proof.Machine
end

