-- ==== Sys2Proof/Machine/Flags.lean ====
section
/-!
DEFINITION. Flags and the stochastic generator of an instruction that rounds (spec/04 R67, R70): what threads through its
elements starts from the hart's generator and ends in `xvflags` and `xsrseed`; and the flags of F and D in `fcsr`.
-/
namespace Sys2Proof.Machine

/-- The generator and no flags, as an instruction starts. -/
def numStart (h : Hart) : NumSt := ⟨h.xc.srseed.toNat, 0⟩

/-- Or the instruction's flags into `xvflags` and keep the stepped generator. -/
def numEnd (h : Hart) (st : NumSt) : Hart :=
  { h with xc := { h.xc with flags := h.xc.flags ||| BitVec.ofNat 6 st.flags, srseed := w64 st.seed } }

/-- Or exception flags into `fcsr`; FS becomes dirty. -/
def orFFlags (h : Hart) (fl : Nat) : Hart :=
  if fl = 0 then h
  else { h with fcsr := h.fcsr ||| BitVec.ofNat 8 (fl % 32), pr := { h.pr with mstatus := fsDirty h.pr.mstatus } }

/-- The flag bits that F and D raise, in `fflags` order (NX, UF, OF, DZ, NV): the same bits as `xvflags` [4:0]. -/
def ieeeFlags (fl : Nat) : Nat := fl % 32

/-- The bits of an active element in an integer instruction carry no flag: SAT alone (spec/04 R59). -/
def satFlag (b : Bool) : Nat := if b then flSAT else 0

end Sys2Proof.Machine
end

