-- ==== Sys2Proof/Machine/VecInt.lean ====
section
/-!
DEFINITION. The integer vector instructions (spec/17 R351 to R356). `body…` is the effect; `exec…` adds the register
interlock and the end of the instruction. A stage program runs the bodies (spec/08 R153).
-/
namespace Sys2Proof.Machine

/-- A vector instruction of a hart: the interlock, then its body. -/
def vexec (i : Instr) (body : State → Res) (s : State) : Host.Outcome State Fault Refusal :=
  finish i (do vecReady s; body s)

/-- Is the operand's group aligned? -/
def opAligned (e : VEnv) (o : Opnd) : Bool :=
  match o.vreg with
  | some r => groupOkAt r e.grp
  | none => true

/-- The tag requirement of a VV operand. -/
def opTags (e : VEnv) (o : Opnd) : List (Nat × Nat × Nat) :=
  match o.vreg with
  | some r => [(r, e.grp, e.tag)]
  | none => []

/-! ### Effects on SEW-bit patterns (spec/17 Table 17-3): SEW, old destination, a, b -/

def opAdd (_ _ a b : Nat) : Nat := a + b
def opSub (sew _ a b : Nat) : Nat := a + (2 ^ sew - b)
def opMul (_ _ a b : Nat) : Nat := a * b
def opMulh (u : Bool) (sew _ a b : Nat) : Nat :=
  if u then a * b / 2 ^ sew else wrapInt sew (sInt sew a * sInt sew b / (2 ^ sew : Nat))
def opMacc (_ old a b : Nat) : Nat := old + a * b
def opLt (u : Bool) (sew a b : Nat) : Bool := if u then decide (a < b) else decide (sInt sew a < sInt sew b)
def opMin (u : Bool) (sew _ a b : Nat) : Nat := if opLt u sew b a then b else a
def opMax (u : Bool) (sew _ a b : Nat) : Nat := if opLt u sew a b then b else a
def opShl (sew _ a b : Nat) : Nat := a * 2 ^ (b % sew)
def opShr (u : Bool) (sew _ a b : Nat) : Nat :=
  if u then a / 2 ^ (b % sew) else wrapInt sew (sInt sew a / (2 ^ (b % sew) : Nat))

/-- The elementwise integer instructions: integer formats, vtype tags, wrapped results, no flag (spec/17 R347, R351). -/
def intOp (i : Instr) (g : Fin 4) (b d : RegIx) (o : Opnd) (acc : Bool) (f : Nat → Nat → Nat → Nat → Nat) (s : State) :
    Res := do
  let e ← vecEnv s i g.val
  vecLegal s i e false
    (fmtIsInt e.fmt && groupOkAt b.val e.grp && groupOkAt d.val e.grp && opAligned e o)
  vecTags s i e ((b.val, e.grp, e.tag) :: (opTags e o ++ if acc then [(d.val, e.grp, e.tag)] else []))
  let ga := e.group b.val e.grp
  let gb := opGroup e o
  let r := mapElems e.sew (e.group d.val e.grp) e.actives
    (fun k old (_ : Unit) => (f e.sew old (elemOf e.sew ga k) (opBits e o gb k) % 2 ^ e.sew, ())) ()
  vecDone s (wrVec e e.h d.val e.grp r.1 e.tag)

/-! ### Comparison (spec/17 R352) -/

/-- A condition on SEW-bit patterns. -/
def cmpHolds (c : CmpCond) (u : Bool) (sew a b : Nat) : Bool :=
  match c with
  | .eq => a == b
  | .ne => a != b
  | .lt => opLt u sew a b
  | .le => !opLt u sew b a

/-- The predicate bits that the active elements write: for 4-bit elements bit j covers a pair, and holds when every
element of the pair below vl does. -/
def predResult (e : VEnv) (old : Nat) (cond : Nat → Bool) : Nat :=
  if e.shift = 1 then
    (e.actives.filter fun i => i % 2 == 0).foldl (fun n i =>
      withField n (i / 2) (i / 2) (if cond i && (decide (e.vl ≤ i + 1) || cond (i + 1)) then 1 else 0)) old
  else e.actives.foldl (fun n i => withField n i i (if cond i then 1 else 0)) old

def vcmpOp (i : Instr) (g : Fin 4) (b : RegIx) (o : Opnd) (u : Bool) (c : CmpCond) (p : Fin 8) (s : State) : Res := do
  let e ← vecEnv s i g.val
  vecLegal s i e false (fmtIsInt e.fmt && groupOkAt b.val e.grp && opAligned e o)
  vecTags s i e ((b.val, e.grp, e.tag) :: opTags e o)
  let ga := e.group b.val e.grp
  let gb := opGroup e o
  vecDone s (hartSetP e.h p.val (predResult e (hartP e.h p.val) fun k =>
    cmpHolds c u e.sew (elemOf e.sew ga k) (opBits e o gb k)))

/-! ### Narrowing and width change (spec/17 R353, R354) -/

/-- The integer format of a width. -/
def intFmt (w : Nat) : Fmt :=
  if w = 4 then .i4 else if w = 8 then .i8 else if w = 16 then .i16 else if w = 32 then .i32 else .i64

/-- An integer value rounded to an integer after division by 2^sh, and clamped to w bits: pattern, and whether it
clamped. -/
def clipTo (w : Nat) (u : Bool) (rm : Rnd) (draw : Nat) (x : Int) (sh : Nat) : Nat × Bool :=
  let (m, _) := roundInt rm draw (decide (x < 0)) x.natAbs (2 ^ sh)
  let r : Int := if x < 0 then -(m : Int) else m
  let lo : Int := if u then 0 else -((2 ^ (w - 1) : Nat) : Int)
  let hi : Int := if u then ((2 ^ w : Nat) : Int) - 1 else ((2 ^ (w - 1) : Nat) : Int) - 1
  if r < lo then (wrapInt w lo, true) else if hi < r then (wrapInt w hi, true) else (wrapInt w r, false)

def vclipOp (i : Instr) (g : Fin 4) (b d : RegIx) (o : Opnd) (u : Bool) (s : State) : Res := do
  let e ← vecEnv s i g.val
  let w2 := 2 * e.sew
  let n2 := 2 * e.grp
  vecLegal s i e false
    (fmtIsInt e.fmt && e.fmt != .i64 && groupOkAt b.val n2 && groupOkAt d.val e.grp && opAligned e o &&
      !overlaps d.val e.grp b.val n2)
  vecTags s i e ((b.val, n2, tagOf (intFmt w2) 0) :: opTags e o)
  let ga := e.group b.val n2
  let gb := opGroup e o
  let (r, st) := mapElems e.sew (e.group d.val e.grp) e.actives
    (fun k _ (st : NumSt) =>
      let bits := elemOf w2 ga k
      let x : Int := if u then bits else sInt w2 bits
      let seed := if e.rm = .sr then srNext st.seed else st.seed
      let (v, c) := clipTo e.sew u e.rm (if e.rm = .sr then srValue seed else 0) x (opBits e o gb k % w2)
      (v, ⟨seed, st.flags ||| satFlag c⟩)) (numStart e.h)
  vecDone s (numEnd (wrVec e e.h d.val e.grp r e.tag) st)

/-- VWCVT's target width. -/
def cvtBits : CvtWidth → Nat
  | .w8 => 8 | .w16 => 16 | .w32 => 32 | .w64 => 64

def bodyVwcvt (g : Fin 4) (b : RegIx) (w : CvtWidth) (u : Bool) (d : RegIx) (s : State) : Res := do
  let i : Instr := .vwcvt g b w u d
  let e ← vecEnv s i g.val
  let tw := cvtBits w
  let n := e.grpOf tw
  vecLegal s i e false
    (fmtIsInt e.fmt && tw != e.sew && groupOkAt b.val e.grp && groupOkAt d.val n && !overlaps d.val n b.val e.grp)
  vecTags s i e [(b.val, e.grp, e.tag)]
  let ga := e.group b.val e.grp
  let r := mapElems tw (e.group d.val n) e.actives
    (fun k _ (_ : Unit) =>
      let a := elemOf e.sew ga k
      (if u then a % 2 ^ tw else wrapInt tw (sInt e.sew a), ())) ()
  vecDone s (wrVec e e.h d.val n r.1 (tagOf (intFmt tw) 0))

/-- VWCVT (spec/17 R354). -/
def execVwcvt (g : Fin 4) (b : RegIx) (w : CvtWidth) (u : Bool) (d : RegIx) (s : State) :
    Host.Outcome State Fault Refusal := vexec (.vwcvt g b w u d) (bodyVwcvt g b w u d) s

/-! ### Count of earlier selected elements (spec/17 R355) -/

def bodyViota (g : Fin 4) (p : Fin 8) (d : RegIx) (s : State) : Res := do
  let i : Instr := .viota g p d
  let e ← vecEnv s i g.val
  vecLegal s i e false (fmtIsInt e.fmt && groupOkAt d.val e.grp)
  let (r, _) := mapElems e.sew (e.group d.val e.grp) e.actives
    (fun k _ (cnt : Nat) => (cnt % 2 ^ e.sew, if e.pbit p.val (k >>> e.shift) then cnt + 1 else cnt)) 0
  vecDone s (wrVec e e.h d.val e.grp r e.tag)

/-- VIOTA (spec/17 R355). -/
def execViota (g : Fin 4) (p : Fin 8) (d : RegIx) (s : State) : Host.Outcome State Fault Refusal :=
  vexec (.viota g p d) (bodyViota g p d) s

/-! ### Integer reduction (spec/17 R356) -/

/-- The operation's identity in SEW bits. -/
def redId (o : RedOp) (sew : Nat) : Nat :=
  match o with
  | .sum | .maxu | .or | .xor => 0
  | .min => 2 ^ (sew - 1) - 1
  | .max => 2 ^ (sew - 1)
  | .minu | .and => 2 ^ sew - 1

/-- Join two patterns. -/
def redJoin (o : RedOp) (sew a b : Nat) : Nat :=
  match o with
  | .sum => (a + b) % 2 ^ sew
  | .min => opMin false sew 0 a b
  | .max => opMax false sew 0 a b
  | .minu => opMin true sew 0 a b
  | .maxu => opMax true sew 0 a b
  | .and => a &&& b
  | .or => a ||| b
  | .xor => a ^^^ b

/-- The spans of elements that a reduction joins: all of them, or in a stage those of each 32-byte token (`per` elements)
(spec/08 R153). -/
def redSpans (vl per : Nat) : List (Nat × Nat) :=
  if per = 0 then [(0, vl)] else (List.range ((vl + per - 1) / per)).map fun t => (t * per, min vl ((t + 1) * per))

/-- VREDI over whole operands (`per` = 0), or per token. -/
def vrediOp (per : Nat) (g : Fin 4) (b : RegIx) (o : RedOp) (d : RegIx) (s : State) : Res := do
  let i : Instr := .vredi g b o d
  let e ← vecEnv s i g.val
  vecLegal s i e false (fmtIsInt e.fmt && groupOkAt b.val e.grp && !overlaps d.val 1 b.val e.grp)
  vecTags s i e [(b.val, e.grp, e.tag)]
  let ga := e.group b.val e.grp
  let one (sp : Nat × Nat) : Nat :=
    (e.actives.filter fun k => decide (sp.1 ≤ k) && decide (k < sp.2)).foldl
      (fun acc k => redJoin o e.sew acc (elemOf e.sew ga k)) (redId o e.sew)
  let spans := redSpans e.vl per
  let (r, _) := mapElems e.sew (e.group d.val 1) ((List.range spans.length).filter fun t => decide (e.vstart ≤ (spans.getD t (0, 0)).1))
    (fun t _ (_ : Unit) => (one (spans.getD t (0, 0)), ())) ()
  vecDone s (wrVec e e.h d.val 1 r e.tag)

def bodyVredi (g : Fin 4) (b : RegIx) (o : RedOp) (d : RegIx) (s : State) : Res := vrediOp 0 g b o d s

/-- VREDI (spec/17 R356). -/
def execVredi (g : Fin 4) (b : RegIx) (o : RedOp) (d : RegIx) (s : State) : Host.Outcome State Fault Refusal :=
  vexec (.vredi g b o d) (bodyVredi g b o d) s

/-! ### The forms -/

def bodyVaddVv (g : Fin 4) (b : RegIx) (a : RegIx) (d : RegIx) (s : State) : Res :=
  intOp (.vaddVv g b a d) g b d (.v a) false opAdd s

/-- VADD_VV (spec/17 R351). -/
def execVaddVv (g : Fin 4) (b : RegIx) (a : RegIx) (d : RegIx) (s : State) :
    Host.Outcome State Fault Refusal := vexec (.vaddVv g b a d) (bodyVaddVv g b a d) s

def bodyVaddVx (g : Fin 4) (b : RegIx) (a : RegIx) (d : RegIx) (s : State) : Res :=
  intOp (.vaddVx g b a d) g b d (.x a) false opAdd s

/-- VADD_VX (spec/17 R351). -/
def execVaddVx (g : Fin 4) (b : RegIx) (a : RegIx) (d : RegIx) (s : State) :
    Host.Outcome State Fault Refusal := vexec (.vaddVx g b a d) (bodyVaddVx g b a d) s

def bodyVaddVi (g : Fin 4) (b : RegIx) (a : BitVec 5) (d : RegIx) (s : State) : Res :=
  intOp (.vaddVi g b a d) g b d (.i a) false opAdd s

/-- VADD_VI (spec/17 R351). -/
def execVaddVi (g : Fin 4) (b : RegIx) (a : BitVec 5) (d : RegIx) (s : State) :
    Host.Outcome State Fault Refusal := vexec (.vaddVi g b a d) (bodyVaddVi g b a d) s

def bodyVsubVv (g : Fin 4) (b : RegIx) (a : RegIx) (d : RegIx) (s : State) : Res :=
  intOp (.vsubVv g b a d) g b d (.v a) false opSub s

/-- VSUB_VV (spec/17 R351). -/
def execVsubVv (g : Fin 4) (b : RegIx) (a : RegIx) (d : RegIx) (s : State) :
    Host.Outcome State Fault Refusal := vexec (.vsubVv g b a d) (bodyVsubVv g b a d) s

def bodyVsubVx (g : Fin 4) (b : RegIx) (a : RegIx) (d : RegIx) (s : State) : Res :=
  intOp (.vsubVx g b a d) g b d (.x a) false opSub s

/-- VSUB_VX (spec/17 R351). -/
def execVsubVx (g : Fin 4) (b : RegIx) (a : RegIx) (d : RegIx) (s : State) :
    Host.Outcome State Fault Refusal := vexec (.vsubVx g b a d) (bodyVsubVx g b a d) s

def bodyVsubVi (g : Fin 4) (b : RegIx) (a : BitVec 5) (d : RegIx) (s : State) : Res :=
  intOp (.vsubVi g b a d) g b d (.i a) false opSub s

/-- VSUB_VI (spec/17 R351). -/
def execVsubVi (g : Fin 4) (b : RegIx) (a : BitVec 5) (d : RegIx) (s : State) :
    Host.Outcome State Fault Refusal := vexec (.vsubVi g b a d) (bodyVsubVi g b a d) s

def bodyVmulVv (g : Fin 4) (b : RegIx) (a : RegIx) (d : RegIx) (s : State) : Res :=
  intOp (.vmulVv g b a d) g b d (.v a) false opMul s

/-- VMUL_VV (spec/17 R351). -/
def execVmulVv (g : Fin 4) (b : RegIx) (a : RegIx) (d : RegIx) (s : State) :
    Host.Outcome State Fault Refusal := vexec (.vmulVv g b a d) (bodyVmulVv g b a d) s

def bodyVmulVx (g : Fin 4) (b : RegIx) (a : RegIx) (d : RegIx) (s : State) : Res :=
  intOp (.vmulVx g b a d) g b d (.x a) false opMul s

/-- VMUL_VX (spec/17 R351). -/
def execVmulVx (g : Fin 4) (b : RegIx) (a : RegIx) (d : RegIx) (s : State) :
    Host.Outcome State Fault Refusal := vexec (.vmulVx g b a d) (bodyVmulVx g b a d) s

def bodyVmulVi (g : Fin 4) (b : RegIx) (a : BitVec 5) (d : RegIx) (s : State) : Res :=
  intOp (.vmulVi g b a d) g b d (.i a) false opMul s

/-- VMUL_VI (spec/17 R351). -/
def execVmulVi (g : Fin 4) (b : RegIx) (a : BitVec 5) (d : RegIx) (s : State) :
    Host.Outcome State Fault Refusal := vexec (.vmulVi g b a d) (bodyVmulVi g b a d) s

def bodyVmulhVv (g : Fin 4) (b : RegIx) (a : RegIx) (u : Bool) (d : RegIx) (s : State) : Res :=
  intOp (.vmulhVv g b a u d) g b d (.v a) false (opMulh u) s

/-- VMULH_VV (spec/17 R351). -/
def execVmulhVv (g : Fin 4) (b : RegIx) (a : RegIx) (u : Bool) (d : RegIx) (s : State) :
    Host.Outcome State Fault Refusal := vexec (.vmulhVv g b a u d) (bodyVmulhVv g b a u d) s

def bodyVmulhVx (g : Fin 4) (b : RegIx) (a : RegIx) (u : Bool) (d : RegIx) (s : State) : Res :=
  intOp (.vmulhVx g b a u d) g b d (.x a) false (opMulh u) s

/-- VMULH_VX (spec/17 R351). -/
def execVmulhVx (g : Fin 4) (b : RegIx) (a : RegIx) (u : Bool) (d : RegIx) (s : State) :
    Host.Outcome State Fault Refusal := vexec (.vmulhVx g b a u d) (bodyVmulhVx g b a u d) s

def bodyVmaccVv (g : Fin 4) (b : RegIx) (a : RegIx) (d : RegIx) (s : State) : Res :=
  intOp (.vmaccVv g b a d) g b d (.v a) true opMacc s

/-- VMACC_VV (spec/17 R351). -/
def execVmaccVv (g : Fin 4) (b : RegIx) (a : RegIx) (d : RegIx) (s : State) :
    Host.Outcome State Fault Refusal := vexec (.vmaccVv g b a d) (bodyVmaccVv g b a d) s

def bodyVmaccVx (g : Fin 4) (b : RegIx) (a : RegIx) (d : RegIx) (s : State) : Res :=
  intOp (.vmaccVx g b a d) g b d (.x a) true opMacc s

/-- VMACC_VX (spec/17 R351). -/
def execVmaccVx (g : Fin 4) (b : RegIx) (a : RegIx) (d : RegIx) (s : State) :
    Host.Outcome State Fault Refusal := vexec (.vmaccVx g b a d) (bodyVmaccVx g b a d) s

def bodyVmaccVi (g : Fin 4) (b : RegIx) (a : BitVec 5) (d : RegIx) (s : State) : Res :=
  intOp (.vmaccVi g b a d) g b d (.i a) true opMacc s

/-- VMACC_VI (spec/17 R351). -/
def execVmaccVi (g : Fin 4) (b : RegIx) (a : BitVec 5) (d : RegIx) (s : State) :
    Host.Outcome State Fault Refusal := vexec (.vmaccVi g b a d) (bodyVmaccVi g b a d) s

def bodyVminVv (g : Fin 4) (b : RegIx) (a : RegIx) (u : Bool) (d : RegIx) (s : State) : Res :=
  intOp (.vminVv g b a u d) g b d (.v a) false (opMin u) s

/-- VMIN_VV (spec/17 R351). -/
def execVminVv (g : Fin 4) (b : RegIx) (a : RegIx) (u : Bool) (d : RegIx) (s : State) :
    Host.Outcome State Fault Refusal := vexec (.vminVv g b a u d) (bodyVminVv g b a u d) s

def bodyVminVx (g : Fin 4) (b : RegIx) (a : RegIx) (u : Bool) (d : RegIx) (s : State) : Res :=
  intOp (.vminVx g b a u d) g b d (.x a) false (opMin u) s

/-- VMIN_VX (spec/17 R351). -/
def execVminVx (g : Fin 4) (b : RegIx) (a : RegIx) (u : Bool) (d : RegIx) (s : State) :
    Host.Outcome State Fault Refusal := vexec (.vminVx g b a u d) (bodyVminVx g b a u d) s

def bodyVminVi (g : Fin 4) (b : RegIx) (a : BitVec 5) (u : Bool) (d : RegIx) (s : State) : Res :=
  intOp (.vminVi g b a u d) g b d (.i a) false (opMin u) s

/-- VMIN_VI (spec/17 R351). -/
def execVminVi (g : Fin 4) (b : RegIx) (a : BitVec 5) (u : Bool) (d : RegIx) (s : State) :
    Host.Outcome State Fault Refusal := vexec (.vminVi g b a u d) (bodyVminVi g b a u d) s

def bodyVmaxVv (g : Fin 4) (b : RegIx) (a : RegIx) (u : Bool) (d : RegIx) (s : State) : Res :=
  intOp (.vmaxVv g b a u d) g b d (.v a) false (opMax u) s

/-- VMAX_VV (spec/17 R351). -/
def execVmaxVv (g : Fin 4) (b : RegIx) (a : RegIx) (u : Bool) (d : RegIx) (s : State) :
    Host.Outcome State Fault Refusal := vexec (.vmaxVv g b a u d) (bodyVmaxVv g b a u d) s

def bodyVmaxVx (g : Fin 4) (b : RegIx) (a : RegIx) (u : Bool) (d : RegIx) (s : State) : Res :=
  intOp (.vmaxVx g b a u d) g b d (.x a) false (opMax u) s

/-- VMAX_VX (spec/17 R351). -/
def execVmaxVx (g : Fin 4) (b : RegIx) (a : RegIx) (u : Bool) (d : RegIx) (s : State) :
    Host.Outcome State Fault Refusal := vexec (.vmaxVx g b a u d) (bodyVmaxVx g b a u d) s

def bodyVmaxVi (g : Fin 4) (b : RegIx) (a : BitVec 5) (u : Bool) (d : RegIx) (s : State) : Res :=
  intOp (.vmaxVi g b a u d) g b d (.i a) false (opMax u) s

/-- VMAX_VI (spec/17 R351). -/
def execVmaxVi (g : Fin 4) (b : RegIx) (a : BitVec 5) (u : Bool) (d : RegIx) (s : State) :
    Host.Outcome State Fault Refusal := vexec (.vmaxVi g b a u d) (bodyVmaxVi g b a u d) s

def bodyVshlVv (g : Fin 4) (b : RegIx) (a : RegIx) (d : RegIx) (s : State) : Res :=
  intOp (.vshlVv g b a d) g b d (.v a) false opShl s

/-- VSHL_VV (spec/17 R351). -/
def execVshlVv (g : Fin 4) (b : RegIx) (a : RegIx) (d : RegIx) (s : State) :
    Host.Outcome State Fault Refusal := vexec (.vshlVv g b a d) (bodyVshlVv g b a d) s

def bodyVshlVx (g : Fin 4) (b : RegIx) (a : RegIx) (d : RegIx) (s : State) : Res :=
  intOp (.vshlVx g b a d) g b d (.x a) false opShl s

/-- VSHL_VX (spec/17 R351). -/
def execVshlVx (g : Fin 4) (b : RegIx) (a : RegIx) (d : RegIx) (s : State) :
    Host.Outcome State Fault Refusal := vexec (.vshlVx g b a d) (bodyVshlVx g b a d) s

def bodyVshlVi (g : Fin 4) (b : RegIx) (a : BitVec 5) (d : RegIx) (s : State) : Res :=
  intOp (.vshlVi g b a d) g b d (.u a) false opShl s

/-- VSHL_VI (spec/17 R351). -/
def execVshlVi (g : Fin 4) (b : RegIx) (a : BitVec 5) (d : RegIx) (s : State) :
    Host.Outcome State Fault Refusal := vexec (.vshlVi g b a d) (bodyVshlVi g b a d) s

def bodyVshrVv (g : Fin 4) (b : RegIx) (a : RegIx) (u : Bool) (d : RegIx) (s : State) : Res :=
  intOp (.vshrVv g b a u d) g b d (.v a) false (opShr u) s

/-- VSHR_VV (spec/17 R351). -/
def execVshrVv (g : Fin 4) (b : RegIx) (a : RegIx) (u : Bool) (d : RegIx) (s : State) :
    Host.Outcome State Fault Refusal := vexec (.vshrVv g b a u d) (bodyVshrVv g b a u d) s

def bodyVshrVx (g : Fin 4) (b : RegIx) (a : RegIx) (u : Bool) (d : RegIx) (s : State) : Res :=
  intOp (.vshrVx g b a u d) g b d (.x a) false (opShr u) s

/-- VSHR_VX (spec/17 R351). -/
def execVshrVx (g : Fin 4) (b : RegIx) (a : RegIx) (u : Bool) (d : RegIx) (s : State) :
    Host.Outcome State Fault Refusal := vexec (.vshrVx g b a u d) (bodyVshrVx g b a u d) s

def bodyVshrVi (g : Fin 4) (b : RegIx) (a : BitVec 5) (u : Bool) (d : RegIx) (s : State) : Res :=
  intOp (.vshrVi g b a u d) g b d (.u a) false (opShr u) s

/-- VSHR_VI (spec/17 R351). -/
def execVshrVi (g : Fin 4) (b : RegIx) (a : BitVec 5) (u : Bool) (d : RegIx) (s : State) :
    Host.Outcome State Fault Refusal := vexec (.vshrVi g b a u d) (bodyVshrVi g b a u d) s

def bodyVcmpVv (g : Fin 4) (b : RegIx) (a : RegIx) (u : Bool) (c : CmpCond) (p : Fin 8) (s : State) : Res :=
  vcmpOp (.vcmpVv g b a u c p) g b (.v a) u c p s

/-- VCMP_VV (spec/17 R352). -/
def execVcmpVv (g : Fin 4) (b : RegIx) (a : RegIx) (u : Bool) (c : CmpCond) (p : Fin 8) (s : State) :
    Host.Outcome State Fault Refusal := vexec (.vcmpVv g b a u c p) (bodyVcmpVv g b a u c p) s

def bodyVcmpVx (g : Fin 4) (b : RegIx) (a : RegIx) (u : Bool) (c : CmpCond) (p : Fin 8) (s : State) : Res :=
  vcmpOp (.vcmpVx g b a u c p) g b (.x a) u c p s

/-- VCMP_VX (spec/17 R352). -/
def execVcmpVx (g : Fin 4) (b : RegIx) (a : RegIx) (u : Bool) (c : CmpCond) (p : Fin 8) (s : State) :
    Host.Outcome State Fault Refusal := vexec (.vcmpVx g b a u c p) (bodyVcmpVx g b a u c p) s

def bodyVcmpVi (g : Fin 4) (b : RegIx) (a : BitVec 5) (u : Bool) (c : CmpCond) (p : Fin 8) (s : State) : Res :=
  vcmpOp (.vcmpVi g b a u c p) g b (.i a) u c p s

/-- VCMP_VI (spec/17 R352). -/
def execVcmpVi (g : Fin 4) (b : RegIx) (a : BitVec 5) (u : Bool) (c : CmpCond) (p : Fin 8) (s : State) :
    Host.Outcome State Fault Refusal := vexec (.vcmpVi g b a u c p) (bodyVcmpVi g b a u c p) s

def bodyVclipVv (g : Fin 4) (b : RegIx) (a : RegIx) (u : Bool) (d : RegIx) (s : State) : Res :=
  vclipOp (.vclipVv g b a u d) g b d (.v a) u s

/-- VCLIP_VV (spec/17 R353). -/
def execVclipVv (g : Fin 4) (b : RegIx) (a : RegIx) (u : Bool) (d : RegIx) (s : State) :
    Host.Outcome State Fault Refusal := vexec (.vclipVv g b a u d) (bodyVclipVv g b a u d) s

def bodyVclipVx (g : Fin 4) (b : RegIx) (a : RegIx) (u : Bool) (d : RegIx) (s : State) : Res :=
  vclipOp (.vclipVx g b a u d) g b d (.x a) u s

/-- VCLIP_VX (spec/17 R353). -/
def execVclipVx (g : Fin 4) (b : RegIx) (a : RegIx) (u : Bool) (d : RegIx) (s : State) :
    Host.Outcome State Fault Refusal := vexec (.vclipVx g b a u d) (bodyVclipVx g b a u d) s

def bodyVclipVi (g : Fin 4) (b : RegIx) (a : BitVec 5) (u : Bool) (d : RegIx) (s : State) : Res :=
  vclipOp (.vclipVi g b a u d) g b d (.u a) u s

/-- VCLIP_VI (spec/17 R353). -/
def execVclipVi (g : Fin 4) (b : RegIx) (a : BitVec 5) (u : Bool) (d : RegIx) (s : State) :
    Host.Outcome State Fault Refusal := vexec (.vclipVi g b a u d) (bodyVclipVi g b a u d) s

end Sys2Proof.Machine
end

