-- ==== Sys2Proof/Machine/VecBit.lean ====
section
/-!
DEFINITION. The bit and select, permute and move, and scan vector instructions (spec/17 R357 to R361).
-/
namespace Sys2Proof.Machine

/-- VAND, VOR, VXOR: any format with BLK 0, RAW sources (spec/17 R347, R348, R357). -/
def bitOp (i : Instr) (g : Fin 4) (b d : RegIx) (o : Opnd) (f : Nat → Nat → Nat) (s : State) : Res := do
  let e ← vecEnv s i g.val
  vecLegal s i e false (e.blk == 0 && groupOkAt b.val e.grp && groupOkAt d.val e.grp && opAligned e o)
  let ga := e.group b.val e.grp
  let gb := opGroup e o
  let r := mapElems e.sew (e.group d.val e.grp) e.actives
    (fun k _ (_ : Unit) => (f (elemOf e.sew ga k) (opBits e o gb k), ())) ()
  vecDone s (wrVec e e.h d.val e.grp r.1 e.tag)

/-- VSEL: the predicate selects, every element below vl is written (spec/17 R350, R357). -/
def selOp (i : Instr) (g : Fin 4) (b d : RegIx) (o : Opnd) (s : State) : Res := do
  let e ← vecEnv s i g.val
  vecLegal s i e false (e.blk == 0 && groupOkAt b.val e.grp && groupOkAt d.val e.grp && opAligned e o)
  let ga := e.group b.val e.grp
  let gb := opGroup e o
  let r := mapElems e.sew (e.group d.val e.grp) (List.range e.vl)
    (fun k _ (_ : Unit) => (if e.governs k then elemOf e.sew ga k else opBits e o gb k, ())) ()
  vecDone s (wrVec e e.h d.val e.grp r.1 e.tag)

/-- The slide count: the whole of x(S1), or the immediate (spec/05 R82). -/
def slideCount (e : VEnv) (o : Opnd) : Nat :=
  match o with
  | .x r => (hartX e.h r).toNat
  | .u imm => imm.toNat
  | _ => 0

/-- The slides (spec/17 R358). -/
def slideOp (i : Instr) (g : Fin 4) (b d : RegIx) (o : Opnd) (up : Bool) (s : State) : Res := do
  let e ← vecEnv s i g.val
  vecLegal s i e false
    (e.blk == 0 && groupOkAt b.val e.grp && groupOkAt d.val e.grp && !overlaps d.val e.grp b.val e.grp)
  let ga := e.group b.val e.grp
  let n := slideCount e o
  let r := mapElems e.sew (e.group d.val e.grp) e.actives
    (fun k old (_ : Unit) =>
      (if up then (if n ≤ k then elemOf e.sew ga (k - n) else old)
        else if k + n < e.vl then elemOf e.sew ga (k + n) else 0, ())) ()
  vecDone s (wrVec e e.h d.val e.grp r.1 e.tag)

def bodyVperm (g : Fin 4) (b a d : RegIx) (s : State) : Res := do
  let i : Instr := .vperm g b a d
  let e ← vecEnv s i g.val
  vecLegal s i e false
    (e.blk == 0 && groupOkAt b.val e.grp && groupOkAt a.val e.grp && groupOkAt d.val e.grp &&
      !overlaps d.val e.grp b.val e.grp)
  let ga := e.group b.val e.grp
  let gx := e.group a.val e.grp
  let r := mapElems e.sew (e.group d.val e.grp) e.actives
    (fun k _ (_ : Unit) =>
      let n := elemOf e.sew gx k
      (if n < e.vl then elemOf e.sew ga n else 0, ())) ()
  vecDone s (wrVec e e.h d.val e.grp r.1 e.tag)

/-- VPERM (spec/17 R358). -/
def execVperm (g : Fin 4) (b a d : RegIx) (s : State) : Host.Outcome State Fault Refusal :=
  vexec (.vperm g b a d) (bodyVperm g b a d) s

/-- Pack values into elements 0, 1, … of packed data. -/
def packVals (sew : Nat) : Nat → Nat → List Nat → Nat
  | g, _, [] => g
  | g, k, v :: r => packVals sew (setElem sew g k v) (k + 1) r

/-- vl and `xvl` become k. -/
def setVl (h : Hart) (k : Nat) : Hart := { h with xc := { h.xc with vl := w64 k } }

/-- VCMPR (spec/17 R359). -/
def execVcmpr (g : Fin 4) (b : RegIx) (p : Fin 8) (d : RegIx) (s : State) : Host.Outcome State Fault Refusal :=
  vexec (.vcmpr g b p d) (fun s => do
    let i : Instr := .vcmpr g b p d
    let e ← vecEnv s i g.val
    vecLegal s i e false
      (e.blk == 0 && groupOkAt b.val e.grp && groupOkAt d.val e.grp && !overlaps d.val e.grp b.val e.grp)
    let ga := e.group b.val e.grp
    let vs := (e.actives.filter fun k => e.pbit p.val (k >>> e.shift)).map (elemOf e.sew ga)
    let r := packVals e.sew (e.group d.val e.grp) 0 vs
    vecDone s (setVl (wrVec e e.h d.val e.grp r e.tag) (if e.some then vs.length else e.vl))) s

/-- VXPND (spec/17 R359). -/
def execVxpnd (g : Fin 4) (b : RegIx) (p : Fin 8) (d : RegIx) (s : State) : Host.Outcome State Fault Refusal :=
  vexec (.vxpnd g b p d) (fun s => do
    let i : Instr := .vxpnd g b p d
    let e ← vecEnv s i g.val
    vecLegal s i e false
      (e.blk == 0 && groupOkAt b.val e.grp && groupOkAt d.val e.grp && !overlaps d.val e.grp b.val e.grp)
    let ga := e.group b.val e.grp
    let r := mapElems e.sew (e.group d.val e.grp) (e.actives.filter fun k => e.pbit p.val (k >>> e.shift))
      (fun _ _ (n : Nat) => (elemOf e.sew ga n, n + 1)) 0
    vecDone s (wrVec e e.h d.val e.grp r.1 e.tag)) s

/-- VSCAN (spec/17 R361). -/
def execVscan (g : Fin 4) (b a : RegIx) (u : Bool) (d : RegIx) (s : State) : Host.Outcome State Fault Refusal :=
  vexec (.vscan g b a u d) (fun s => do
    let i : Instr := .vscan g b a u d
    let e ← vecEnv s i g.val
    vecLegal s i e false
      (e.fmt == .i32 && groupOkAt d.val e.grp && !overlaps d.val e.grp b.val 1 && !overlaps d.val e.grp a.val 1)
    let x := e.group b.val 1
    let y := e.group a.val 1
    let hit (k : Nat) : Bool := if u then bitOf x k || bitOf y k else bitOf x k && bitOf y k
    let vs := e.actives.filter hit
    let r := packVals 32 (e.group d.val e.grp) 0 vs
    vecDone s (setVl (wrVec e e.h d.val e.grp r 0x02) (if e.some then vs.length else e.vl))) s

/-! ### Broadcast and the scalar moves (spec/17 R360) -/

/-- Broadcast an operand. -/
def bcstOp (i : Instr) (g : Fin 4) (d : RegIx) (o : Opnd) (s : State) : Res := do
  let e ← vecEnv s i g.val
  vecLegal s i e false (e.blk == 0 && groupOkAt d.val e.grp)
  let r := mapElems e.sew (e.group d.val e.grp) e.actives (fun k _ (_ : Unit) => (opBits e o 0 k, ())) ()
  vecDone s (wrVec e e.h d.val e.grp r.1 e.tag)

def bodyVbcstVx (g : Fin 4) (a d : RegIx) (s : State) : Res := bcstOp (.vbcstVx g a d) g d (.x a) s
def bodyVbcstVi (g : Fin 4) (a : BitVec 5) (d : RegIx) (s : State) : Res := bcstOp (.vbcstVi g a d) g d (.i a) s

/-- VBCST_VX (spec/17 R360). -/
def execVbcstVx (g : Fin 4) (a d : RegIx) (s : State) : Host.Outcome State Fault Refusal :=
  vexec (.vbcstVx g a d) (bodyVbcstVx g a d) s

/-- VBCST_VI (spec/17 R360). -/
def execVbcstVi (g : Fin 4) (a : BitVec 5) (d : RegIx) (s : State) : Host.Outcome State Fault Refusal :=
  vexec (.vbcstVi g a d) (bodyVbcstVi g a d) s

/-- VMVXS (spec/17 R360). -/
def execVmvxs (b : RegIx) (u : Bool) (d : RegIx) (s : State) : Host.Outcome State Fault Refusal :=
  vexec (.vmvxs b u d) (fun s => do
    let i : Instr := .vmvxs b u d
    let e ← vecEnv s i 0
    vecLegal s i e false true
    let a := elemOf e.sew (e.group b.val 1) 0
    vecDone s (hartSetX e.h d (if u then w64 a else sext64 e.sew a))) s

/-- VMVSX (spec/17 R360). -/
def execVmvsx (a d : RegIx) (s : State) : Host.Outcome State Fault Refusal :=
  vexec (.vmvsx a d) (fun s => do
    let i : Instr := .vmvsx a d
    let e ← vecEnv s i 0
    vecLegal s i e false (e.blk == 0)
    vecDone s (wrVec e e.h d.val 1 (setElem e.sew (e.group d.val 1) 0 (opBits e (.x a) 0 0)) e.tag)) s

/-! ### The forms -/

def bodyVandVv (g : Fin 4) (b : RegIx) (a : RegIx) (d : RegIx) (s : State) : Res :=
  bitOp (.vandVv g b a d) g b d (.v a) (fun x y => x &&& y) s

/-- VAND_VV (spec/17 R357). -/
def execVandVv (g : Fin 4) (b : RegIx) (a : RegIx) (d : RegIx) (s : State) :
    Host.Outcome State Fault Refusal := vexec (.vandVv g b a d) (bodyVandVv g b a d) s

def bodyVandVx (g : Fin 4) (b : RegIx) (a : RegIx) (d : RegIx) (s : State) : Res :=
  bitOp (.vandVx g b a d) g b d (.x a) (fun x y => x &&& y) s

/-- VAND_VX (spec/17 R357). -/
def execVandVx (g : Fin 4) (b : RegIx) (a : RegIx) (d : RegIx) (s : State) :
    Host.Outcome State Fault Refusal := vexec (.vandVx g b a d) (bodyVandVx g b a d) s

def bodyVandVi (g : Fin 4) (b : RegIx) (a : BitVec 5) (d : RegIx) (s : State) : Res :=
  bitOp (.vandVi g b a d) g b d (.i a) (fun x y => x &&& y) s

/-- VAND_VI (spec/17 R357). -/
def execVandVi (g : Fin 4) (b : RegIx) (a : BitVec 5) (d : RegIx) (s : State) :
    Host.Outcome State Fault Refusal := vexec (.vandVi g b a d) (bodyVandVi g b a d) s

def bodyVorVv (g : Fin 4) (b : RegIx) (a : RegIx) (d : RegIx) (s : State) : Res :=
  bitOp (.vorVv g b a d) g b d (.v a) (fun x y => x ||| y) s

/-- VOR_VV (spec/17 R357). -/
def execVorVv (g : Fin 4) (b : RegIx) (a : RegIx) (d : RegIx) (s : State) :
    Host.Outcome State Fault Refusal := vexec (.vorVv g b a d) (bodyVorVv g b a d) s

def bodyVorVx (g : Fin 4) (b : RegIx) (a : RegIx) (d : RegIx) (s : State) : Res :=
  bitOp (.vorVx g b a d) g b d (.x a) (fun x y => x ||| y) s

/-- VOR_VX (spec/17 R357). -/
def execVorVx (g : Fin 4) (b : RegIx) (a : RegIx) (d : RegIx) (s : State) :
    Host.Outcome State Fault Refusal := vexec (.vorVx g b a d) (bodyVorVx g b a d) s

def bodyVorVi (g : Fin 4) (b : RegIx) (a : BitVec 5) (d : RegIx) (s : State) : Res :=
  bitOp (.vorVi g b a d) g b d (.i a) (fun x y => x ||| y) s

/-- VOR_VI (spec/17 R357). -/
def execVorVi (g : Fin 4) (b : RegIx) (a : BitVec 5) (d : RegIx) (s : State) :
    Host.Outcome State Fault Refusal := vexec (.vorVi g b a d) (bodyVorVi g b a d) s

def bodyVxorVv (g : Fin 4) (b : RegIx) (a : RegIx) (d : RegIx) (s : State) : Res :=
  bitOp (.vxorVv g b a d) g b d (.v a) (fun x y => x ^^^ y) s

/-- VXOR_VV (spec/17 R357). -/
def execVxorVv (g : Fin 4) (b : RegIx) (a : RegIx) (d : RegIx) (s : State) :
    Host.Outcome State Fault Refusal := vexec (.vxorVv g b a d) (bodyVxorVv g b a d) s

def bodyVxorVx (g : Fin 4) (b : RegIx) (a : RegIx) (d : RegIx) (s : State) : Res :=
  bitOp (.vxorVx g b a d) g b d (.x a) (fun x y => x ^^^ y) s

/-- VXOR_VX (spec/17 R357). -/
def execVxorVx (g : Fin 4) (b : RegIx) (a : RegIx) (d : RegIx) (s : State) :
    Host.Outcome State Fault Refusal := vexec (.vxorVx g b a d) (bodyVxorVx g b a d) s

def bodyVxorVi (g : Fin 4) (b : RegIx) (a : BitVec 5) (d : RegIx) (s : State) : Res :=
  bitOp (.vxorVi g b a d) g b d (.i a) (fun x y => x ^^^ y) s

/-- VXOR_VI (spec/17 R357). -/
def execVxorVi (g : Fin 4) (b : RegIx) (a : BitVec 5) (d : RegIx) (s : State) :
    Host.Outcome State Fault Refusal := vexec (.vxorVi g b a d) (bodyVxorVi g b a d) s

def bodyVselVv (g : Fin 4) (b : RegIx) (a : RegIx) (d : RegIx) (s : State) : Res :=
  selOp (.vselVv g b a d) g b d (.v a) s

/-- VSEL_VV (spec/17 R357). -/
def execVselVv (g : Fin 4) (b : RegIx) (a : RegIx) (d : RegIx) (s : State) :
    Host.Outcome State Fault Refusal := vexec (.vselVv g b a d) (bodyVselVv g b a d) s

def bodyVselVx (g : Fin 4) (b : RegIx) (a : RegIx) (d : RegIx) (s : State) : Res :=
  selOp (.vselVx g b a d) g b d (.x a) s

/-- VSEL_VX (spec/17 R357). -/
def execVselVx (g : Fin 4) (b : RegIx) (a : RegIx) (d : RegIx) (s : State) :
    Host.Outcome State Fault Refusal := vexec (.vselVx g b a d) (bodyVselVx g b a d) s

def bodyVselVi (g : Fin 4) (b : RegIx) (a : BitVec 5) (d : RegIx) (s : State) : Res :=
  selOp (.vselVi g b a d) g b d (.i a) s

/-- VSEL_VI (spec/17 R357). -/
def execVselVi (g : Fin 4) (b : RegIx) (a : BitVec 5) (d : RegIx) (s : State) :
    Host.Outcome State Fault Refusal := vexec (.vselVi g b a d) (bodyVselVi g b a d) s

def bodyVslupVx (g : Fin 4) (b : RegIx) (a : RegIx) (d : RegIx) (s : State) : Res :=
  slideOp (.vslupVx g b a d) g b d (.x a) true s

/-- VSLUP_VX (spec/17 R358). -/
def execVslupVx (g : Fin 4) (b : RegIx) (a : RegIx) (d : RegIx) (s : State) :
    Host.Outcome State Fault Refusal := vexec (.vslupVx g b a d) (bodyVslupVx g b a d) s

def bodyVslupVi (g : Fin 4) (b : RegIx) (a : BitVec 5) (d : RegIx) (s : State) : Res :=
  slideOp (.vslupVi g b a d) g b d (.u a) true s

/-- VSLUP_VI (spec/17 R358). -/
def execVslupVi (g : Fin 4) (b : RegIx) (a : BitVec 5) (d : RegIx) (s : State) :
    Host.Outcome State Fault Refusal := vexec (.vslupVi g b a d) (bodyVslupVi g b a d) s

def bodyVsldnVx (g : Fin 4) (b : RegIx) (a : RegIx) (d : RegIx) (s : State) : Res :=
  slideOp (.vsldnVx g b a d) g b d (.x a) false s

/-- VSLDN_VX (spec/17 R358). -/
def execVsldnVx (g : Fin 4) (b : RegIx) (a : RegIx) (d : RegIx) (s : State) :
    Host.Outcome State Fault Refusal := vexec (.vsldnVx g b a d) (bodyVsldnVx g b a d) s

def bodyVsldnVi (g : Fin 4) (b : RegIx) (a : BitVec 5) (d : RegIx) (s : State) : Res :=
  slideOp (.vsldnVi g b a d) g b d (.u a) false s

/-- VSLDN_VI (spec/17 R358). -/
def execVsldnVi (g : Fin 4) (b : RegIx) (a : BitVec 5) (d : RegIx) (s : State) :
    Host.Outcome State Fault Refusal := vexec (.vsldnVi g b a d) (bodyVsldnVi g b a d) s

end Sys2Proof.Machine
end

