-- ==== Sys2Proof/Machine/VecFp.lean ====
section
/-!
DEFINITION. The floating-point vector instructions, the tree reductions and the conversions (spec/17 R362 to R368; spec/04).
-/
namespace Sys2Proof.Machine

/-- The formats of the floating-point class (spec/17 R347). -/
def isVecFp (f : Fmt) : Bool := f == .fp64 || f == .fp32 || f == .fp16 || f == .bf16

/-- The field layout of a floating-point format; FP32 stands for anything else, which the class checks shut out. -/
def specOf (f : Fmt) : FSpec := (fspec f).getD ⟨8, 23, 127, .ieee⟩

/-- What an operation gives for one element before rounding, from the rounding mode, a, b and the old destination. -/
abbrev FpFun := Rnd → FVal → FVal → FVal → FOut × Nat

/-- Is a value neither NaN nor infinite? -/
def isFinV (v : FVal) : Bool := match v with | .fin _ _ _ => true | _ => false

/-- The mode in which an element is rounded: one with a NaN or infinite input takes no draw (spec/04 R67;
notes/assumptions/55), and its result, where finite, is exact. -/
def drawMode (rm : Rnd) (fin : Bool) : Rnd := if rm = .sr ∧ fin = false then .rne else rm

/-- The floating-point instructions that round once into the vtype format under `xvrm` (spec/17 R362). -/
def fpOp (i : Instr) (g : Fin 4) (b d : RegIx) (o : Opnd) (acc : Bool) (f : FpFun) (s : State) : Res := do
  let e ← vecEnv s i g.val
  vecLegal s i e false (isVecFp e.fmt && groupOkAt b.val e.grp && groupOkAt d.val e.grp && opAligned e o)
  vecTags s i e ((b.val, e.grp, e.tag) :: (opTags e o ++ if acc then [(d.val, e.grp, e.tag)] else []))
  let ga := e.group b.val e.grp
  let gb := opGroup e o
  let (r, st) := mapElems e.sew (e.group d.val e.grp) e.actives
    (fun k old (st : NumSt) =>
      let a := elemVal e.fmt 0 (elemOf e.sew ga k) 0 0
      let b := opVal e o gb k
      let c := elemVal e.fmt 0 old 0 0
      let (x, fl) := f e.rm a b c
      narrowSt (specOf e.fmt) (drawMode e.rm (isFinV a && isFinV b && (!acc || isFinV c))) x (st.or fl)) (numStart e.h)
  vecDone s (numEnd (wrVec e e.h d.val e.grp r e.tag) st)

/-! ### Effects (spec/17 Table 17-4) -/

def fAdd : FpFun := fun rm a b _ => faddV rm a b
def fSub : FpFun := fun rm a b _ => faddV rm a (fneg b)
def fMul : FpFun := fun _ a b _ => fmulV a b
def fMa (n : Bool) : FpFun := fun rm a b c => ffmaV rm (if n then fneg a else a) b c
def fDiv : FpFun := fun _ a b _ => fdivV a b
def fSqrt : FpFun := fun _ a _ _ => fsqrtV a

/-- Minimum or maximum by spec/04 R68. -/
def fMinMax (mx : Bool) (a b : FVal) : FVal :=
  match a, b with
  | .nan _, .nan _ => .nan false
  | .nan _, b => b
  | a, .nan _ => a
  | a, b => if minTakesFirst a b != mx then a else b

def fMin : FpFun := fun _ a b _ => (foutOf (fMinMax false a b), sigFlags [a, b])
def fMax : FpFun := fun _ a b _ => (foutOf (fMinMax true a b), sigFlags [a, b])

/-! ### Estimates (spec/17 R363) -/

/-- A positive ratio rounded to nearest-even at 8 significant bits with an unbounded exponent: mantissa, exponent, and
whether it was exact. -/
def round8 (n d : Nat) : Nat × Int × Bool :=
  let q := ilog2 n d - 7
  let (lo, r, dd) := divPow n d q
  (if roundsUp .rne false 0 lo r dd then lo + 1 else lo, q, r == 0)

/-- An estimate's intermediate e, with the flags of the special cases, and whether e is the exact value. -/
abbrev EstFun := FVal → FOut × Nat × Bool

/-- 1 / sqrt(a). -/
def rsqEst : EstFun := fun a =>
  match a with
  | .nan _ => (.nan, sigFlags [a], true)
  | .inf s => if s then (.nan, flNV, true) else (.zero false, 0, true)
  | .fin s m e =>
    if m = 0 then (.inf s, flDZ, true)
    else if s then (.nan, flNV, true)
    else
      -- a = m1 * 2^e1 with e1 even; 1/sqrt(a) = sqrt(2^400 / m1) * 2^(-200 - e1/2)
      let m1 := if e % 2 = 0 then m else 2 * m
      let e1 := if e % 2 = 0 then e else e - 1
      let q := 2 ^ 400 / m1
      let r := isqrt q
      let ex := q * m1 == 2 ^ 400 && r * r == q
      let (g, k, x) := round8 (2 * r + if ex then 0 else 1) 2
      (dyad false g (k - 200 - e1 / 2), 0, ex && x)

/-- 2^f for a fraction f of 64 bits, as a multiple of 2^-128: the product of the square roots of 2 that f's bits name. -/
def exp2Go : Nat → Nat → Nat → Nat → Nat
  | 0, _, _, acc => acc
  | k + 1, f, root, acc =>
    let root := isqrt (root * 2 ^ 128)
    exp2Go k (f * 2 % 2 ^ 64) root (if f * 2 / 2 ^ 64 = 1 then acc * root / 2 ^ 128 else acc)

/-- 2^a. -/
def exp2Est : EstFun := fun a =>
  match a with
  | .nan _ => (.nan, sigFlags [a], true)
  | .inf s => if s then (.zero false, 0, true) else (.inf false, 0, true)
  | .fin s m e =>
    if m = 0 then (.rat false 1 1, 0, true)
    else if 0 ≤ e then
      -- an integer; beyond every format's range its size no longer matters
      let n := if 16 ≤ e then 5000 else min 5000 (m * 2 ^ e.toNat)
      (dyad false 1 (if s then -(n : Int) else n), 0, true)
    else
      let d := 2 ^ (-e).toNat
      let whole := m % d == 0
      let n := min 5000 (m / d)
      -- floor and the fraction above it, in units of 2^-64; a non-zero remainder below that is above the floor
      let fl : Int := if s then (if whole then -(n : Int) else -(n : Int) - 1) else n
      let fr := m % d * 2 ^ 64 / d
      let fr := if s && !whole then 2 ^ 64 - 1 - (if m % d * 2 ^ 64 % d = 0 then fr - 1 else fr) else fr
      let p := exp2Go 64 fr (2 ^ 129) (2 ^ 128)
      let (g, k, x) := round8 p (2 ^ 128)
      (dyad false g (k + fl), 0, whole && x)

/-- Is a magnitude below the smallest normal of a format? -/
def belowNormal (f : FSpec) (x : FOut) : Bool :=
  match x with
  | .rat _ n d => decide (ilog2 n d < 1 - (f.bias : Int))
  | _ => false

/-- The estimate instructions: e is rounded into the format; NX where the result is not the exact function's value, and
UF where it is tiny besides (notes/assumptions/22). -/
def estOp (i : Instr) (g : Fin 4) (b d : RegIx) (f : EstFun) (s : State) : Res := do
  let e ← vecEnv s i g.val
  vecLegal s i e false (isVecFp e.fmt && groupOkAt b.val e.grp && groupOkAt d.val e.grp)
  vecTags s i e [(b.val, e.grp, e.tag)]
  let ga := e.group b.val e.grp
  let sp := specOf e.fmt
  let (r, st) := mapElems e.sew (e.group d.val e.grp) e.actives
    (fun k _ (st : NumSt) =>
      let a := elemVal e.fmt 0 (elemOf e.sew ga k) 0 0
      let (x, fl, ex) := f a
      let fl := if ex then fl else fl ||| flNX ||| (if belowNormal sp x then flUF else 0)
      narrowSt sp (drawMode e.rm (isFinV a)) x (st.or fl)) (numStart e.h)
  vecDone s (numEnd (wrVec e e.h d.val e.grp r e.tag) st)

def bodyVfsqrt (g : Fin 4) (b d : RegIx) (s : State) : Res :=
  fpOp (.vfsqrt g b d) g b d (.i 0) false fSqrt s

/-- VFSQRT (spec/17 R362). -/
def execVfsqrt (g : Fin 4) (b d : RegIx) (s : State) : Host.Outcome State Fault Refusal :=
  vexec (.vfsqrt g b d) (bodyVfsqrt g b d) s

def bodyVfrsqe (g : Fin 4) (b d : RegIx) (s : State) : Res := estOp (.vfrsqe g b d) g b d rsqEst s

/-- VFRSQE (spec/17 R363). -/
def execVfrsqe (g : Fin 4) (b d : RegIx) (s : State) : Host.Outcome State Fault Refusal :=
  vexec (.vfrsqe g b d) (bodyVfrsqe g b d) s

def bodyVfexp2e (g : Fin 4) (b d : RegIx) (s : State) : Res := estOp (.vfexp2e g b d) g b d exp2Est s

/-- VFEXP2E (spec/17 R363). -/
def execVfexp2e (g : Fin 4) (b d : RegIx) (s : State) : Host.Outcome State Fault Refusal :=
  vexec (.vfexp2e g b d) (bodyVfexp2e g b d) s

/-! ### Comparison and sign (spec/17 R364, R365) -/

/-- A condition and its flags. -/
def fcmpHolds (c : FCmpCond) (a b : FVal) : Bool × Nat :=
  let un := isNaN a || isNaN b
  match c with
  | .eq => (!un && feqV a b, sigFlags [a, b])
  | .lt => (!un && fltV a b, if un then flNV else 0)
  | .le => (!un && (fltV a b || feqV a b), if un then flNV else 0)
  | .un => (un, sigFlags [a, b])

def vfcmpOp (i : Instr) (g : Fin 4) (b : RegIx) (o : Opnd) (c : FCmpCond) (p : Fin 8) (s : State) : Res := do
  let e ← vecEnv s i g.val
  vecLegal s i e false (isVecFp e.fmt && groupOkAt b.val e.grp && opAligned e o)
  vecTags s i e ((b.val, e.grp, e.tag) :: opTags e o)
  let ga := e.group b.val e.grp
  let gb := opGroup e o
  let one (k : Nat) := fcmpHolds c (elemVal e.fmt 0 (elemOf e.sew ga k) 0 0) (opVal e o gb k)
  let fl := e.actives.foldl (fun n k => n ||| (one k).2) 0
  vecDone s (numEnd (hartSetP e.h p.val (predResult e (hartP e.h p.val) fun k => (one k).1))
    ((numStart e.h).or fl))

/-- The sign that a mode gives, from a's and the old destination's. -/
def sgnOf (m : SgnMode) (sa sd : Nat) : Nat :=
  match m with
  | .copy => sd
  | .neg => 1 - sa
  | .xor => (sa + sd) % 2
  | .abs => 0

def bodyVfsgn (g : Fin 4) (b : RegIx) (m : SgnMode) (d : RegIx) (s : State) : Res := do
  let i : Instr := .vfsgn g b m d
  let e ← vecEnv s i g.val
  vecLegal s i e false (isVecFp e.fmt && groupOkAt b.val e.grp && groupOkAt d.val e.grp)
  vecTags s i e ((b.val, e.grp, e.tag) :: if m = .copy ∨ m = .xor then [(d.val, e.grp, e.tag)] else [])
  let ga := e.group b.val e.grp
  let k1 := e.sew - 1
  let r := mapElems e.sew (e.group d.val e.grp) e.actives
    (fun k old (_ : Unit) =>
      let a := elemOf e.sew ga k
      (if isNaN (elemVal e.fmt 0 a 0 0) then canonNaN (specOf e.fmt)
        else a % 2 ^ k1 + sgnOf m (a / 2 ^ k1) (old / 2 ^ k1) * 2 ^ k1, ())) ()
  vecDone s (wrVec e e.h d.val e.grp r.1 e.tag)

/-- VFSGN (spec/17 R365). -/
def execVfsgn (g : Fin 4) (b : RegIx) (m : SgnMode) (d : RegIx) (s : State) : Host.Outcome State Fault Refusal :=
  vexec (.vfsgn g b m d) (bodyVfsgn g b m d) s

/-! ### Tree reduction (spec/04 R74, spec/17 R366) -/

/-- One level of the tree: neighbours join where both are present. -/
def redLevel (j : Nat → Nat → NumSt → Nat × NumSt) : List (Option Nat) → NumSt → List (Option Nat) × NumSt
  | x :: y :: r, st =>
    let (v, st) := match x, y with
      | some a, some b => let (c, st) := j a b st; (some c, st)
      | some a, none => (some a, st)
      | none, y => (y, st)
    let (vs, st) := redLevel j r st
    (v :: vs, st)
  | l, st => (l, st)

/-- The tree: levels until one node is left. -/
def redTree (j : Nat → Nat → NumSt → Nat × NumSt) : Nat → List (Option Nat) → NumSt → Option Nat × NumSt
  | 0, l, st => ((l.head?).getD none, st)
  | k + 1, l, st =>
    match l with
    | [] => (none, st)
    | [x] => (x, st)
    | l =>
      let (l, st) := redLevel j l st
      redTree j k l st

/-- Join two element patterns under an operation. -/
def fredJoin (f : Fmt) (o : FRedOp) (rm : Rnd) (a b : Nat) (st : NumSt) : Nat × NumSt :=
  let x := elemVal f 0 a 0 0
  let y := elemVal f 0 b 0 0
  match o with
  | .sum =>
    let (r, fl) := faddV rm x y
    narrowSt (specOf f) rm r (st.or fl)
  | .min => ((narrow (specOf f) .rne 0 (foutOf (fMinMax false x y))).1, st.or (sigFlags [x, y]))
  | .max | .amax => ((narrow (specOf f) .rne 0 (foutOf (fMinMax true x y))).1, st.or (sigFlags [x, y]))

/-- VREDF over whole operands (`per` = 0), or per token. A lone active signalling NaN meets no join: it gives the canonical NaN and no
NV (DESIGN CHOICE, notes/assumptions/55). -/
def vredfOp (per : Nat) (g : Fin 4) (b : RegIx) (o : FRedOp) (rc : RndCode) (d : RegIx) (s : State) : Res := do
  let i : Instr := .vredf g b o rc d
  let e ← vecEnv s i g.val
  vecLegal s i e false (isVecFp e.fmt && groupOkAt b.val e.grp && !overlaps d.val 1 b.val e.grp)
  vecTags s i e [(b.val, e.grp, e.tag)]
  let ga := e.group b.val e.grp
  let rm := rndOf rc e.h.xc.rm.toNat
  let leaf (k : Nat) : Option Nat :=
    if e.active k then
      let a := elemOf e.sew ga k
      some (if o = .amax ∧ isNaN (elemVal e.fmt 0 a 0 0) = false then a % 2 ^ (e.sew - 1) else a)
    else none
  let spans := redSpans e.vl per
  let (r, st) := mapElems e.sew (e.group d.val 1) ((List.range spans.length).filter fun t => decide (e.vstart ≤ (spans.getD t (0, 0)).1))
    (fun t _ (st : NumSt) =>
      let sp := spans.getD t (0, 0)
      let (v, st) := redTree (fredJoin e.fmt o rm) 17 ((List.range (sp.2 - sp.1)).map fun k => leaf (sp.1 + k)) st
      let r := v.getD 0
      (if isNaN (elemVal e.fmt 0 r 0 0) then canonNaN (specOf e.fmt) else r, st)) (numStart e.h)
  vecDone s (if e.some then numEnd (wrVec e e.h d.val 1 r e.tag) st else e.h)

def bodyVredf (g : Fin 4) (b : RegIx) (o : FRedOp) (rc : RndCode) (d : RegIx) (s : State) : Res := vredfOp 0 g b o rc d s

/-- VREDF (spec/17 R366). -/
def execVredf (g : Fin 4) (b : RegIx) (o : FRedOp) (rc : RndCode) (d : RegIx) (s : State) :
    Host.Outcome State Fault Refusal := vexec (.vredf g b o rc d) (bodyVredf g b o rc d) s

/-! ### Conversion (spec/17 R367, R368) -/

/-- Is it one of the five block floating-point formats of the VFCVT target table? -/
def isBlk5 (f : Fmt) : Bool := f == .e4m3 || f == .e5m2 || f == .e2m3 || f == .e3m2 || f == .e2m1

/-- The target's block code (spec/17 R367). -/
def cvtBlk (src : Fmt) (blk : Nat) (t : Fmt) : Nat :=
  if fmtIsPe t then 1 else if isBlk5 t && isBlk5 src then blk else 0

/-- Convert one value to a format without a block: pattern, flags, draws. -/
def cvtOne (t : Fmt) (rm : Rnd) (v : FVal) (st : NumSt) : Nat × NumSt :=
  match fspec t with
  | some sp => narrowSt sp rm (foutOf v) (st.or (sigFlags [v]))
  | none => narrowIntSt (fmtSew t) true rm (foutOf v) st

/-- Convert one block: scale and patterns. -/
def cvtBlock (t : Fmt) (rm : Rnd) (vs : List FVal) (st : NumSt) : Nat × List Nat × NumSt :=
  let es := vs.map fun v => (v, true)
  match peBits t with
  | some m => peConvert m rm es st
  | none => blkConvert (specOf t) rm es st

/-- Write values into a group of a format as a conversion does: (index, value) for the active elements; blocks of a
block format count from element 0 and reach to `vl`. -/
def wrValues (h : Hart) (lanes base n : Nat) (t : Fmt) (blk : Nat) (rm : Rnd) (vl : Nat) (act : Nat → Bool)
    (val : Nat → FVal) (st : NumSt) : Hart × NumSt :=
  let w := fmtSew t
  let b := blkOf t blk
  let g := rdGroup h (1024 * lanes) base n
  if b = 0 then
    let (r, st) := mapElems w g ((List.range vl).filter act) (fun k _ st => cvtOne t rm (val k) st) st
    (wrGroup h (1024 * lanes) base n r, st)
  else
    let (g, h, st) := (List.range ((vl + b - 1) / b)).foldl (fun (acc : Nat × Hart × NumSt) j =>
      if act (j * b) then
        let k := min b (vl - j * b)
        let (sc, es, st) := cvtBlock t rm ((List.range k).map fun i => val (j * b + i)) acc.2.2
        (packInto' w acc.1 (j * b) es, wrScale acc.2.1 lanes base t blk j sc, st)
      else acc) (g, h, st)
    (wrGroup h (1024 * lanes) base n g, st)
where
  /-- Write consecutive elements. -/
  packInto' (w : Nat) : Nat → Nat → List Nat → Nat
    | g, _, [] => g
    | g, k, v :: r => packInto' w (setElem w g k v) (k + 1) r

/-- VFCVT. The destination may overlap the source where the containers are equal and no block scale, which depends on all elements of
a block, is chosen (spec/05 R89). -/
def bodyVfcvt (g : Fin 4) (b : RegIx) (t : Fmt) (rc : RndCode) (d : RegIx) (s : State) : Res := do
  let i : Instr := .vfcvt g b t rc d
  let e ← vecEnv s i g.val
  let dw := fmtSew t
  let n := e.grpOf dw
  let tb := cvtBlk e.fmt e.blk t
  vecLegal s i e false
    (e.fmt != .scw && e.fmt != .raw && !(fmtIsInt e.fmt && fmtIsInt t) && groupOkAt b.val e.grp && groupOkAt d.val n &&
      ((dw == e.sew && tb == 0) || !overlaps d.val n b.val e.grp))
  vecTags s i e [(b.val, e.grp, e.tag)]
  vecUniform s i e (blkOf t tb)
  let ga := e.group b.val e.grp
  let rm := rndOf rc e.h.xc.rm.toNat
  let (h, st) := wrValues e.h e.lanes d.val n t tb rm e.vl e.active (groupVal e b.val e.fmt e.blk ga) (numStart e.h)
  vecDone s (if e.some then numEnd (setTags h d.val n (tagOf t tb)) st else e.h)

/-- VFCVT (spec/17 R367, R368). -/
def execVfcvt (g : Fin 4) (b : RegIx) (t : Fmt) (rc : RndCode) (d : RegIx) (s : State) :
    Host.Outcome State Fault Refusal := vexec (.vfcvt g b t rc d) (bodyVfcvt g b t rc d) s

/-! ### The forms -/

def bodyVfaddVv (g : Fin 4) (b : RegIx) (a : RegIx) (d : RegIx) (s : State) : Res :=
  fpOp (.vfaddVv g b a d) g b d (.v a) false fAdd s

/-- VFADD_VV (spec/17 R362). -/
def execVfaddVv (g : Fin 4) (b : RegIx) (a : RegIx) (d : RegIx) (s : State) :
    Host.Outcome State Fault Refusal := vexec (.vfaddVv g b a d) (bodyVfaddVv g b a d) s

def bodyVfaddVf (g : Fin 4) (b : RegIx) (a : RegIx) (d : RegIx) (s : State) : Res :=
  fpOp (.vfaddVf g b a d) g b d (.f a) false fAdd s

/-- VFADD_VF (spec/17 R362). -/
def execVfaddVf (g : Fin 4) (b : RegIx) (a : RegIx) (d : RegIx) (s : State) :
    Host.Outcome State Fault Refusal := vexec (.vfaddVf g b a d) (bodyVfaddVf g b a d) s

def bodyVfaddVx (g : Fin 4) (b : RegIx) (a : RegIx) (d : RegIx) (s : State) : Res :=
  fpOp (.vfaddVx g b a d) g b d (.x a) false fAdd s

/-- VFADD_VX (spec/17 R362). -/
def execVfaddVx (g : Fin 4) (b : RegIx) (a : RegIx) (d : RegIx) (s : State) :
    Host.Outcome State Fault Refusal := vexec (.vfaddVx g b a d) (bodyVfaddVx g b a d) s

def bodyVfsubVv (g : Fin 4) (b : RegIx) (a : RegIx) (d : RegIx) (s : State) : Res :=
  fpOp (.vfsubVv g b a d) g b d (.v a) false fSub s

/-- VFSUB_VV (spec/17 R362). -/
def execVfsubVv (g : Fin 4) (b : RegIx) (a : RegIx) (d : RegIx) (s : State) :
    Host.Outcome State Fault Refusal := vexec (.vfsubVv g b a d) (bodyVfsubVv g b a d) s

def bodyVfsubVf (g : Fin 4) (b : RegIx) (a : RegIx) (d : RegIx) (s : State) : Res :=
  fpOp (.vfsubVf g b a d) g b d (.f a) false fSub s

/-- VFSUB_VF (spec/17 R362). -/
def execVfsubVf (g : Fin 4) (b : RegIx) (a : RegIx) (d : RegIx) (s : State) :
    Host.Outcome State Fault Refusal := vexec (.vfsubVf g b a d) (bodyVfsubVf g b a d) s

def bodyVfsubVx (g : Fin 4) (b : RegIx) (a : RegIx) (d : RegIx) (s : State) : Res :=
  fpOp (.vfsubVx g b a d) g b d (.x a) false fSub s

/-- VFSUB_VX (spec/17 R362). -/
def execVfsubVx (g : Fin 4) (b : RegIx) (a : RegIx) (d : RegIx) (s : State) :
    Host.Outcome State Fault Refusal := vexec (.vfsubVx g b a d) (bodyVfsubVx g b a d) s

def bodyVfmulVv (g : Fin 4) (b : RegIx) (a : RegIx) (d : RegIx) (s : State) : Res :=
  fpOp (.vfmulVv g b a d) g b d (.v a) false fMul s

/-- VFMUL_VV (spec/17 R362). -/
def execVfmulVv (g : Fin 4) (b : RegIx) (a : RegIx) (d : RegIx) (s : State) :
    Host.Outcome State Fault Refusal := vexec (.vfmulVv g b a d) (bodyVfmulVv g b a d) s

def bodyVfmulVf (g : Fin 4) (b : RegIx) (a : RegIx) (d : RegIx) (s : State) : Res :=
  fpOp (.vfmulVf g b a d) g b d (.f a) false fMul s

/-- VFMUL_VF (spec/17 R362). -/
def execVfmulVf (g : Fin 4) (b : RegIx) (a : RegIx) (d : RegIx) (s : State) :
    Host.Outcome State Fault Refusal := vexec (.vfmulVf g b a d) (bodyVfmulVf g b a d) s

def bodyVfmulVx (g : Fin 4) (b : RegIx) (a : RegIx) (d : RegIx) (s : State) : Res :=
  fpOp (.vfmulVx g b a d) g b d (.x a) false fMul s

/-- VFMUL_VX (spec/17 R362). -/
def execVfmulVx (g : Fin 4) (b : RegIx) (a : RegIx) (d : RegIx) (s : State) :
    Host.Outcome State Fault Refusal := vexec (.vfmulVx g b a d) (bodyVfmulVx g b a d) s

def bodyVfmaVv (g : Fin 4) (b : RegIx) (a : RegIx) (n : Bool) (d : RegIx) (s : State) : Res :=
  fpOp (.vfmaVv g b a n d) g b d (.v a) true (fMa n) s

/-- VFMA_VV (spec/17 R362). -/
def execVfmaVv (g : Fin 4) (b : RegIx) (a : RegIx) (n : Bool) (d : RegIx) (s : State) :
    Host.Outcome State Fault Refusal := vexec (.vfmaVv g b a n d) (bodyVfmaVv g b a n d) s

def bodyVfmaVf (g : Fin 4) (b : RegIx) (a : RegIx) (n : Bool) (d : RegIx) (s : State) : Res :=
  fpOp (.vfmaVf g b a n d) g b d (.f a) true (fMa n) s

/-- VFMA_VF (spec/17 R362). -/
def execVfmaVf (g : Fin 4) (b : RegIx) (a : RegIx) (n : Bool) (d : RegIx) (s : State) :
    Host.Outcome State Fault Refusal := vexec (.vfmaVf g b a n d) (bodyVfmaVf g b a n d) s

def bodyVfmaVx (g : Fin 4) (b : RegIx) (a : RegIx) (n : Bool) (d : RegIx) (s : State) : Res :=
  fpOp (.vfmaVx g b a n d) g b d (.x a) true (fMa n) s

/-- VFMA_VX (spec/17 R362). -/
def execVfmaVx (g : Fin 4) (b : RegIx) (a : RegIx) (n : Bool) (d : RegIx) (s : State) :
    Host.Outcome State Fault Refusal := vexec (.vfmaVx g b a n d) (bodyVfmaVx g b a n d) s

def bodyVfminVv (g : Fin 4) (b : RegIx) (a : RegIx) (d : RegIx) (s : State) : Res :=
  fpOp (.vfminVv g b a d) g b d (.v a) false fMin s

/-- VFMIN_VV (spec/17 R362). -/
def execVfminVv (g : Fin 4) (b : RegIx) (a : RegIx) (d : RegIx) (s : State) :
    Host.Outcome State Fault Refusal := vexec (.vfminVv g b a d) (bodyVfminVv g b a d) s

def bodyVfminVf (g : Fin 4) (b : RegIx) (a : RegIx) (d : RegIx) (s : State) : Res :=
  fpOp (.vfminVf g b a d) g b d (.f a) false fMin s

/-- VFMIN_VF (spec/17 R362). -/
def execVfminVf (g : Fin 4) (b : RegIx) (a : RegIx) (d : RegIx) (s : State) :
    Host.Outcome State Fault Refusal := vexec (.vfminVf g b a d) (bodyVfminVf g b a d) s

def bodyVfminVx (g : Fin 4) (b : RegIx) (a : RegIx) (d : RegIx) (s : State) : Res :=
  fpOp (.vfminVx g b a d) g b d (.x a) false fMin s

/-- VFMIN_VX (spec/17 R362). -/
def execVfminVx (g : Fin 4) (b : RegIx) (a : RegIx) (d : RegIx) (s : State) :
    Host.Outcome State Fault Refusal := vexec (.vfminVx g b a d) (bodyVfminVx g b a d) s

def bodyVfmaxVv (g : Fin 4) (b : RegIx) (a : RegIx) (d : RegIx) (s : State) : Res :=
  fpOp (.vfmaxVv g b a d) g b d (.v a) false fMax s

/-- VFMAX_VV (spec/17 R362). -/
def execVfmaxVv (g : Fin 4) (b : RegIx) (a : RegIx) (d : RegIx) (s : State) :
    Host.Outcome State Fault Refusal := vexec (.vfmaxVv g b a d) (bodyVfmaxVv g b a d) s

def bodyVfmaxVf (g : Fin 4) (b : RegIx) (a : RegIx) (d : RegIx) (s : State) : Res :=
  fpOp (.vfmaxVf g b a d) g b d (.f a) false fMax s

/-- VFMAX_VF (spec/17 R362). -/
def execVfmaxVf (g : Fin 4) (b : RegIx) (a : RegIx) (d : RegIx) (s : State) :
    Host.Outcome State Fault Refusal := vexec (.vfmaxVf g b a d) (bodyVfmaxVf g b a d) s

def bodyVfmaxVx (g : Fin 4) (b : RegIx) (a : RegIx) (d : RegIx) (s : State) : Res :=
  fpOp (.vfmaxVx g b a d) g b d (.x a) false fMax s

/-- VFMAX_VX (spec/17 R362). -/
def execVfmaxVx (g : Fin 4) (b : RegIx) (a : RegIx) (d : RegIx) (s : State) :
    Host.Outcome State Fault Refusal := vexec (.vfmaxVx g b a d) (bodyVfmaxVx g b a d) s

def bodyVfdivVv (g : Fin 4) (b : RegIx) (a : RegIx) (d : RegIx) (s : State) : Res :=
  fpOp (.vfdivVv g b a d) g b d (.v a) false fDiv s

/-- VFDIV_VV (spec/17 R362). -/
def execVfdivVv (g : Fin 4) (b : RegIx) (a : RegIx) (d : RegIx) (s : State) :
    Host.Outcome State Fault Refusal := vexec (.vfdivVv g b a d) (bodyVfdivVv g b a d) s

def bodyVfdivVf (g : Fin 4) (b : RegIx) (a : RegIx) (d : RegIx) (s : State) : Res :=
  fpOp (.vfdivVf g b a d) g b d (.f a) false fDiv s

/-- VFDIV_VF (spec/17 R362). -/
def execVfdivVf (g : Fin 4) (b : RegIx) (a : RegIx) (d : RegIx) (s : State) :
    Host.Outcome State Fault Refusal := vexec (.vfdivVf g b a d) (bodyVfdivVf g b a d) s

def bodyVfdivVx (g : Fin 4) (b : RegIx) (a : RegIx) (d : RegIx) (s : State) : Res :=
  fpOp (.vfdivVx g b a d) g b d (.x a) false fDiv s

/-- VFDIV_VX (spec/17 R362). -/
def execVfdivVx (g : Fin 4) (b : RegIx) (a : RegIx) (d : RegIx) (s : State) :
    Host.Outcome State Fault Refusal := vexec (.vfdivVx g b a d) (bodyVfdivVx g b a d) s

def bodyVfcmpVv (g : Fin 4) (b : RegIx) (a : RegIx) (c : FCmpCond) (p : Fin 8) (s : State) : Res :=
  vfcmpOp (.vfcmpVv g b a c p) g b (.v a) c p s

/-- VFCMP_VV (spec/17 R364). -/
def execVfcmpVv (g : Fin 4) (b : RegIx) (a : RegIx) (c : FCmpCond) (p : Fin 8) (s : State) :
    Host.Outcome State Fault Refusal := vexec (.vfcmpVv g b a c p) (bodyVfcmpVv g b a c p) s

def bodyVfcmpVf (g : Fin 4) (b : RegIx) (a : RegIx) (c : FCmpCond) (p : Fin 8) (s : State) : Res :=
  vfcmpOp (.vfcmpVf g b a c p) g b (.f a) c p s

/-- VFCMP_VF (spec/17 R364). -/
def execVfcmpVf (g : Fin 4) (b : RegIx) (a : RegIx) (c : FCmpCond) (p : Fin 8) (s : State) :
    Host.Outcome State Fault Refusal := vexec (.vfcmpVf g b a c p) (bodyVfcmpVf g b a c p) s

def bodyVfcmpVx (g : Fin 4) (b : RegIx) (a : RegIx) (c : FCmpCond) (p : Fin 8) (s : State) : Res :=
  vfcmpOp (.vfcmpVx g b a c p) g b (.x a) c p s

/-- VFCMP_VX (spec/17 R364). -/
def execVfcmpVx (g : Fin 4) (b : RegIx) (a : RegIx) (c : FCmpCond) (p : Fin 8) (s : State) :
    Host.Outcome State Fault Refusal := vexec (.vfcmpVx g b a c p) (bodyVfcmpVx g b a c p) s

end Sys2Proof.Machine
end

