-- ==== Sys2Proof/Machine/VecPred.lean ====
section
/-!
DEFINITION. The predicate instructions (spec/16 R324 to R326).
-/
namespace Sys2Proof.Machine

/-- The active elements that carry a predicate bit: every element, or every other one of 4-bit formats. -/
def predActives (e : VEnv) : List Nat := e.actives.filter fun i => i % 2 ^ e.shift == 0

/-- The lowest active element whose bit of a predicate is set. -/
def firstSet (e : VEnv) (p : Nat) : Option Nat := (predActives e).find? fun i => e.pbit p (i >>> e.shift)

/-- Write the bits of active elements of a predicate. -/
def predWrite (i : Instr) (g : Fin 4) (d : Fin 8) (f : VEnv → Nat → Bool) (s : State) : Res := do
  let e ← vecEnv s i g.val
  vecLegal s i e false true
  let r := (predActives e).foldl (fun n k => withField n (k >>> e.shift) (k >>> e.shift) (if f e k then 1 else 0))
    (hartP e.h d.val)
  vecDone s (hartSetP e.h d.val r)

/-- A PLOG operation on one bit (spec/16 Table 16-4). -/
def plogBit (f : PLogOp) (b a : Bool) : Bool :=
  match f with
  | .and => b && a
  | .or => b || a
  | .xor => b != a
  | .andn => b && !a
  | .orn => b || !a
  | .nand => !(b && a)
  | .nor => !(b || a)
  | .xnor => b == a

def bodyPlog (g : Fin 4) (b a : Fin 8) (f : PLogOp) (d : Fin 8) (s : State) : Res :=
  predWrite (.plog g b a f d) g d (fun e k =>
    plogBit f (e.pbit b.val (k >>> e.shift)) (e.pbit a.val (k >>> e.shift))) s

/-- PLOG (spec/16 R324). -/
def execPlog (g : Fin 4) (b a : Fin 8) (f : PLogOp) (d : Fin 8) (s : State) : Host.Outcome State Fault Refusal :=
  vexec (.plog g b a f d) (bodyPlog g b a f d) s

/-- PBRK (spec/16 R324; spec/02 R33): `f` is break-before. -/
def execPbrk (g : Fin 4) (p : Fin 8) (f : Bool) (d : Fin 8) (s : State) : Host.Outcome State Fault Refusal :=
  vexec (.pbrk g p f d) (predWrite (.pbrk g p f d) g d fun e k =>
    match firstSet e p.val with
    | none => true
    | some n => if f then decide (k < n) else decide (k ≤ n)) s

/-- A PSET form on one element. -/
def psetBit (f : PSetOp) (x k j : Nat) : Bool :=
  match f with
  | .all => true
  | .none => false
  | .firstN => decide (k < x)
  | .bits => decide (j < 64) && bitOf x j

def bodyPset (g : Fin 4) (a : RegIx) (f : PSetOp) (d : Fin 8) (s : State) : Res :=
  predWrite (.pset g a f d) g d (fun e k => psetBit f (hartX e.h a).toNat k (k >>> e.shift)) s

/-- PSET (spec/16 R324). -/
def execPset (g : Fin 4) (a : RegIx) (f : PSetOp) (d : Fin 8) (s : State) : Host.Outcome State Fault Refusal :=
  vexec (.pset g a f d) (bodyPset g a f d) s

def bodyPmovToPredicate (g : Fin 4) (b : RegIx) (d : Fin 8) (s : State) : Res :=
  predWrite (.pmovToPredicate g b d) g d (fun e k => bitOf (e.group b.val 1) (k >>> e.shift)) s

/-- PMOV to a predicate (spec/16 R324, R326). -/
def execPmovToPredicate (g : Fin 4) (b : RegIx) (d : Fin 8) (s : State) : Host.Outcome State Fault Refusal :=
  vexec (.pmovToPredicate g b d) (bodyPmovToPredicate g b d) s

def bodyPmovToVector (g : Fin 4) (p : Fin 8) (d : RegIx) (s : State) : Res := do
  let i : Instr := .pmovToVector g p d
  let e ← vecEnv s i g.val
  vecLegal s i e false true
  let r := (predActives e).foldl
    (fun n k => withField n (k >>> e.shift) (k >>> e.shift) (if e.pbit p.val (k >>> e.shift) then 1 else 0))
    (e.group d.val 1)
  vecDone s (wrVec e e.h d.val 1 r 0x1F)

/-- PMOV to a vector register (spec/16 R326). -/
def execPmovToVector (g : Fin 4) (p : Fin 8) (d : RegIx) (s : State) : Host.Outcome State Fault Refusal :=
  vexec (.pmovToVector g p d) (bodyPmovToVector g p d) s

/-- PCNT (spec/16 R325). -/
def execPcnt (g : Fin 4) (p : Fin 8) (d : RegIx) (s : State) : Host.Outcome State Fault Refusal :=
  vexec (.pcnt g p d) (fun s => do
    let i : Instr := .pcnt g p d
    let e ← vecEnv s i g.val
    vecLegal s i e false true
    vecDone s (hartSetX e.h d (w64 ((predActives e).filter fun k => e.pbit p.val (k >>> e.shift)).length))) s

/-- PFIRST (spec/16 R325). -/
def execPfirst (g : Fin 4) (p : Fin 8) (d : RegIx) (s : State) : Host.Outcome State Fault Refusal :=
  vexec (.pfirst g p d) (fun s => do
    let i : Instr := .pfirst g p d
    let e ← vecEnv s i g.val
    vecLegal s i e false true
    vecDone s (hartSetX e.h d (match firstSet e p.val with | some k => w64 k | none => w64 (2 ^ 64 - 1)))) s

end Sys2Proof.Machine
end

