-- ==== Sys2Proof/Machine/Stage.lean ====
section
/-!
DEFINITION. Stage programs (spec/08 R153): the instructions a vector stage admits, and running them on the lent hart.
-/
namespace Sys2Proof.Machine

/-- The effect of an instruction that a stage admits; reductions act on each token of `per` elements. -/
def stageBody (per : Nat) : Instr → Option (State → Res)
  | .vaddVv g b a d => some (bodyVaddVv g b a d)
  | .vaddVx g b a d => some (bodyVaddVx g b a d)
  | .vaddVi g b a d => some (bodyVaddVi g b a d)
  | .vsubVv g b a d => some (bodyVsubVv g b a d)
  | .vsubVx g b a d => some (bodyVsubVx g b a d)
  | .vsubVi g b a d => some (bodyVsubVi g b a d)
  | .vmulVv g b a d => some (bodyVmulVv g b a d)
  | .vmulVx g b a d => some (bodyVmulVx g b a d)
  | .vmulVi g b a d => some (bodyVmulVi g b a d)
  | .vmulhVv g b a u d => some (bodyVmulhVv g b a u d)
  | .vmulhVx g b a u d => some (bodyVmulhVx g b a u d)
  | .vmaccVv g b a d => some (bodyVmaccVv g b a d)
  | .vmaccVx g b a d => some (bodyVmaccVx g b a d)
  | .vmaccVi g b a d => some (bodyVmaccVi g b a d)
  | .vminVv g b a u d => some (bodyVminVv g b a u d)
  | .vminVx g b a u d => some (bodyVminVx g b a u d)
  | .vminVi g b a u d => some (bodyVminVi g b a u d)
  | .vmaxVv g b a u d => some (bodyVmaxVv g b a u d)
  | .vmaxVx g b a u d => some (bodyVmaxVx g b a u d)
  | .vmaxVi g b a u d => some (bodyVmaxVi g b a u d)
  | .vandVv g b a d => some (bodyVandVv g b a d)
  | .vandVx g b a d => some (bodyVandVx g b a d)
  | .vandVi g b a d => some (bodyVandVi g b a d)
  | .vorVv g b a d => some (bodyVorVv g b a d)
  | .vorVx g b a d => some (bodyVorVx g b a d)
  | .vorVi g b a d => some (bodyVorVi g b a d)
  | .vxorVv g b a d => some (bodyVxorVv g b a d)
  | .vxorVx g b a d => some (bodyVxorVx g b a d)
  | .vxorVi g b a d => some (bodyVxorVi g b a d)
  | .vshlVv g b a d => some (bodyVshlVv g b a d)
  | .vshlVx g b a d => some (bodyVshlVx g b a d)
  | .vshlVi g b a d => some (bodyVshlVi g b a d)
  | .vshrVv g b a u d => some (bodyVshrVv g b a u d)
  | .vshrVx g b a u d => some (bodyVshrVx g b a u d)
  | .vshrVi g b a u d => some (bodyVshrVi g b a u d)
  | .vcmpVv g b a u c p => some (bodyVcmpVv g b a u c p)
  | .vcmpVx g b a u c p => some (bodyVcmpVx g b a u c p)
  | .vcmpVi g b a u c p => some (bodyVcmpVi g b a u c p)
  | .vselVv g b a d => some (bodyVselVv g b a d)
  | .vselVx g b a d => some (bodyVselVx g b a d)
  | .vselVi g b a d => some (bodyVselVi g b a d)
  | .vclipVv g b a u d => some (bodyVclipVv g b a u d)
  | .vclipVx g b a u d => some (bodyVclipVx g b a u d)
  | .vclipVi g b a u d => some (bodyVclipVi g b a u d)
  | .vwcvt g b w u d => some (bodyVwcvt g b w u d)
  | .vredi g b o d => some (vrediOp per g b o d)
  | .plog g b a f d => some (bodyPlog g b a f d)
  | .pset g a .all d => some (bodyPset g a .all d)
  | .pset g a .none d => some (bodyPset g a .none d)
  | .pmovToVector g sel d => some (bodyPmovToVector g sel d)
  | .pmovToPredicate g b d => some (bodyPmovToPredicate g b d)
  | .vfaddVv g b a d => some (bodyVfaddVv g b a d)
  | .vfaddVf g b a d => some (bodyVfaddVf g b a d)
  | .vfaddVx g b a d => some (bodyVfaddVx g b a d)
  | .vfsubVv g b a d => some (bodyVfsubVv g b a d)
  | .vfsubVf g b a d => some (bodyVfsubVf g b a d)
  | .vfsubVx g b a d => some (bodyVfsubVx g b a d)
  | .vfmulVv g b a d => some (bodyVfmulVv g b a d)
  | .vfmulVf g b a d => some (bodyVfmulVf g b a d)
  | .vfmulVx g b a d => some (bodyVfmulVx g b a d)
  | .vfmaVv g b a n d => some (bodyVfmaVv g b a n d)
  | .vfmaVf g b a n d => some (bodyVfmaVf g b a n d)
  | .vfmaVx g b a n d => some (bodyVfmaVx g b a n d)
  | .vfminVv g b a d => some (bodyVfminVv g b a d)
  | .vfminVf g b a d => some (bodyVfminVf g b a d)
  | .vfminVx g b a d => some (bodyVfminVx g b a d)
  | .vfmaxVv g b a d => some (bodyVfmaxVv g b a d)
  | .vfmaxVf g b a d => some (bodyVfmaxVf g b a d)
  | .vfmaxVx g b a d => some (bodyVfmaxVx g b a d)
  | .vfdivVv g b a d => some (bodyVfdivVv g b a d)
  | .vfdivVf g b a d => some (bodyVfdivVf g b a d)
  | .vfdivVx g b a d => some (bodyVfdivVx g b a d)
  | .vfsqrt g b d => some (bodyVfsqrt g b d)
  | .vfrsqe g b d => some (bodyVfrsqe g b d)
  | .vfexp2e g b d => some (bodyVfexp2e g b d)
  | .vfcmpVv g b a c p => some (bodyVfcmpVv g b a c p)
  | .vfcmpVf g b a c p => some (bodyVfcmpVf g b a c p)
  | .vfcmpVx g b a c p => some (bodyVfcmpVx g b a c p)
  | .vfsgn g b m d => some (bodyVfsgn g b m d)
  | .vfcvt g b t r d => some (bodyVfcvt g b t r d)
  | .vredf g b o r d => some (vredfOp per g b o r d)
  | _ => none

/-- The vector register that a stage instruction writes. -/
def stageDest : Instr → Option Nat
  | .vaddVv _ _ _ d | .vaddVx _ _ _ d | .vaddVi _ _ _ d | .vsubVv _ _ _ d
  | .vsubVx _ _ _ d | .vsubVi _ _ _ d | .vmulVv _ _ _ d | .vmulVx _ _ _ d
  | .vmulVi _ _ _ d | .vmulhVv _ _ _ _ d | .vmulhVx _ _ _ _ d | .vmaccVv _ _ _ d
  | .vmaccVx _ _ _ d | .vmaccVi _ _ _ d | .vminVv _ _ _ _ d | .vminVx _ _ _ _ d
  | .vminVi _ _ _ _ d | .vmaxVv _ _ _ _ d | .vmaxVx _ _ _ _ d | .vmaxVi _ _ _ _ d
  | .vandVv _ _ _ d | .vandVx _ _ _ d | .vandVi _ _ _ d | .vorVv _ _ _ d
  | .vorVx _ _ _ d | .vorVi _ _ _ d | .vxorVv _ _ _ d | .vxorVx _ _ _ d
  | .vxorVi _ _ _ d | .vshlVv _ _ _ d | .vshlVx _ _ _ d | .vshlVi _ _ _ d
  | .vshrVv _ _ _ _ d | .vshrVx _ _ _ _ d | .vshrVi _ _ _ _ d | .vselVv _ _ _ d
  | .vselVx _ _ _ d | .vselVi _ _ _ d | .vclipVv _ _ _ _ d | .vclipVx _ _ _ _ d
  | .vclipVi _ _ _ _ d | .vwcvt _ _ _ _ d | .vredi _ _ _ d | .pmovToVector _ _ d
  | .vfaddVv _ _ _ d | .vfaddVf _ _ _ d | .vfaddVx _ _ _ d | .vfsubVv _ _ _ d
  | .vfsubVf _ _ _ d | .vfsubVx _ _ _ d | .vfmulVv _ _ _ d | .vfmulVf _ _ _ d
  | .vfmulVx _ _ _ d | .vfmaVv _ _ _ _ d | .vfmaVf _ _ _ _ d | .vfmaVx _ _ _ _ d
  | .vfminVv _ _ _ d | .vfminVf _ _ _ d | .vfminVx _ _ _ d | .vfmaxVv _ _ _ d
  | .vfmaxVf _ _ _ d | .vfmaxVx _ _ _ d | .vfdivVv _ _ _ d | .vfdivVf _ _ _ d
  | .vfdivVx _ _ _ d | .vfsqrt _ _ d | .vfrsqe _ _ d | .vfexp2e _ _ d
  | .vfsgn _ _ _ d | .vfcvt _ _ _ _ d | .vredf _ _ _ _ d => some d.val
  | _ => none

/-- Does a VX or VF form name an aim scalar, 1 to 3? -/
def stageScalarOk : Instr → Bool
  | .vaddVx _ _ a _ | .vsubVx _ _ a _ | .vmulVx _ _ a _ | .vmulhVx _ _ a _ _
  | .vmaccVx _ _ a _ | .vminVx _ _ a _ _ | .vmaxVx _ _ a _ _ | .vandVx _ _ a _
  | .vorVx _ _ a _ | .vxorVx _ _ a _ | .vshlVx _ _ a _ | .vshrVx _ _ a _ _
  | .vcmpVx _ _ a _ _ _ | .vselVx _ _ a _ | .vclipVx _ _ a _ _ | .vfaddVf _ _ a _
  | .vfaddVx _ _ a _ | .vfsubVf _ _ a _ | .vfsubVx _ _ a _ | .vfmulVf _ _ a _
  | .vfmulVx _ _ a _ | .vfmaVf _ _ a _ _ | .vfmaVx _ _ a _ _ | .vfminVf _ _ a _
  | .vfminVx _ _ a _ | .vfmaxVf _ _ a _ | .vfmaxVx _ _ a _ | .vfdivVf _ _ a _
  | .vfdivVx _ _ a _ | .vfcmpVf _ _ a _ _ | .vfcmpVx _ _ a _ _ => decide (1 ≤ a.val) && decide (a.val ≤ 3)
  | _ => true

/-- Is a rounding code, under `xvrm`, the stochastic one? -/
def isStoch (rc : RndCode) (vrm : Nat) : Bool := rc == .sr || (rc == .dyn && vrm == 5)

/-- Does a stage instruction round stochastically? -/
def stageRounds (vrm : Nat) : Instr → Bool
  | .vclipVv _ _ _ _ _ | .vclipVx _ _ _ _ _ | .vclipVi _ _ _ _ _ | .vfaddVv _ _ _ _
  | .vfaddVf _ _ _ _ | .vfaddVx _ _ _ _ | .vfsubVv _ _ _ _ | .vfsubVf _ _ _ _
  | .vfsubVx _ _ _ _ | .vfmulVv _ _ _ _ | .vfmulVf _ _ _ _ | .vfmulVx _ _ _ _
  | .vfmaVv _ _ _ _ _ | .vfmaVf _ _ _ _ _ | .vfmaVx _ _ _ _ _ | .vfminVv _ _ _ _
  | .vfminVf _ _ _ _ | .vfminVx _ _ _ _ | .vfmaxVv _ _ _ _ | .vfmaxVf _ _ _ _
  | .vfmaxVx _ _ _ _ | .vfdivVv _ _ _ _ | .vfdivVf _ _ _ _ | .vfdivVx _ _ _ _
  | .vfsqrt _ _ _ | .vfrsqe _ _ _ | .vfexp2e _ _ _ => vrm == 5
  | .vfcvt _ _ _ r _ => isStoch r vrm
  | .vredf _ _ o r _ => o == .sum && isStoch r vrm
  | _ => false

/-- The source block conversion of a stage instruction: does a block of its target take more than 32 bytes of the source
container (spec/08 R153)? -/
def stageBlockBad (f : Fmt) (blk : Nat) : Instr → Bool
  | .vfcvt _ _ t _ _ => decide (32 < blkOf t (cvtBlk f blk t) * fmtSew f / 8)
  | _ => false

/-- Is a word one that a stage admits (spec/08 R158)? -/
def stageWordOk (w : Nat) : Bool :=
  match decode (BitVec.ofNat 32 w) with
  | .ok i => (stageBody 0 i).isSome && stageScalarOk i
  | .error _ => false

/-- The lent hart as a firing sees it: the stage's vtype and scalars, vl = n, the run's rounding mode, the node's
generator. -/
def stageHart (h : Hart) (vt n vrm : Nat) (gen : Word) (sc : Nat → Word) : Hart :=
  let put (m : AMap Word) : AMap Word := [1, 2, 3].foldl (fun m k => aputC 0 m k (sc k)) m
  { h with
    xc := { h.xc with vl := w64 n, vtype := w64 vt, rm := BitVec.ofNat 3 vrm, flags := 0, vstart := 0, srseed := gen },
    x := put h.x, f := put h.f }

/-- The hart after a firing: the stage's vector and predicate registers, everything else as before. -/
def stageKeep (before after : Hart) : Hart :=
  { before with v := after.v, tags := after.tags, sc := after.sc, p := after.p }

/-- One pass of a stage program over the elements [lo, hi) of a row of n. Gives the state and the element counts with which
registers were last written, or the cause of a trap. -/
def stagePass (per n lo hi : Nat) : List Nat → State → AMap Nat → Except Nat (State × AMap Nat)
  | [], s, ls => .ok (s, ls)
  | w :: r, s, ls =>
    match decode (BitVec.ofNat 32 w) with
    | .error _ => .error 2
    | .ok i =>
      match stageBody per i with
      | none => .error 2
      | some f =>
        let h := me s
        match f (setMe s { h with xc := { h.xc with vl := w64 hi, vstart := BitVec.ofNat 17 lo } }) with
        | .error (.trap _ c _) => .error c
        | .error _ => .error 2
        | .ok t =>
          let n' := match i with
            | .vredi _ _ _ _ | .vredf _ _ _ _ _ => (n + per - 1) / per
            | _ => n
          stagePass per n lo hi r t (match stageDest i with | some d => aput ls d n' | none => ls)

/-- The instructions of a stage program. -/
def stageInstrs (words : List Nat) : List Instr := words.filterMap fun w =>
  match decode (BitVec.ofNat 32 w) with
  | .ok i => some i
  | .error _ => none

/-- Is an instruction a reduction? -/
def isRed : Instr → Bool
  | .vredi _ _ _ _ | .vredf _ _ _ _ _ => true
  | _ => false

/-- What an instruction writes: register, registers of its group, bits of an element. -/
def stageWrites (lg : Nat) (f : Fmt) (i : Instr) : Option (Nat × Nat × Nat) :=
  let grp (w : Nat) : Nat := max 1 (2 ^ lg * w / fmtSew f)
  (stageDest i).map fun d => match i with
    | .vwcvt _ _ w _ _ => (d, grp (cvtBits w), cvtBits w)
    | .vfcvt _ _ t _ _ => (d, grp (fmtSew t), fmtSew t)
    | .vredi _ _ _ _ | .vredf _ _ _ _ _ => (d, 1, fmtSew f)
    | _ => (d, 2 ^ lg, fmtSew f)

/-- The elements that a stage's instructions treat together: a token where one reduces, else the longest block that one converts
into, else one. -/
def stageUnit (per : Nat) (f : Fmt) (blk : Nat) (is : List Instr) : Nat :=
  if is.any isRed then per
  else is.foldl (fun n i => match i with
    | .vfcvt _ _ t _ _ => max n (blkOf t (cvtBlk f blk t))
    | _ => n) 1

/-- Does a stage draw element by element (spec/08 R163; spec/00 R8; notes/assumptions/57)? It does so where several of its
instructions round stochastically, and its elements do not meet: no reduction before another instruction, no predicate moved to a
register, no register written at two widths. -/
def stageSplits (vrm lg : Nat) (f : Fmt) (is : List Instr) : Bool :=
  let ws := is.filterMap (stageWrites lg f)
  decide (2 ≤ (is.filter (stageRounds vrm)).length) &&
    (is.dropWhile fun i => !isRed i).all isRed &&
    is.all (fun i => match i with | .pmovToVector _ _ _ => false | _ => true) &&
    ws.all fun a => ws.all fun b => a.2.2 == b.2.2 || !overlaps a.1 a.2.1 b.1 b.2.1

/-- The bits of `new` where it differs from `old`, those of `acc` elsewhere. -/
def takeChanged (old acc new : Nat) : Nat := acc ^^^ ((acc ^^^ new) &&& (new ^^^ old))

/-- The vector state of `acc` with what a pass from `old` to `new` changed. -/
def mergePass (old new acc : Hart) : Hart :=
  let rs := List.range 32
  let acc := rs.foldl (fun a r => hartSetV a r (takeChanged (hartV old r) (hartV a r) (hartV new r))) acc
  let acc := rs.foldl (fun a r => hartSetSc a r (takeChanged (hartSc old r) (hartSc a r) (hartSc new r))) acc
  (List.range 8).foldl (fun a n => hartSetP a n (takeChanged (hartP old n) (hartP a n) (hartP new n))) acc

/-- The passes of a split stage, unit by unit: what they change, with the generator and the flags after them. -/
def stageUnits (per n u : Nat) (words : List Nat) (s : State) : Nat → Nat → Hart → Except Nat Hart
  | 0, _, acc => .ok acc
  | k + 1, lo, acc =>
    if n ≤ lo then .ok acc
    else
      let h := me s
      match stagePass per n lo (min n (lo + u)) words (setMe s { h with xc := { h.xc with srseed := acc.xc.srseed, flags := acc.xc.flags } }) [] with
      | .error c => .error c
      | .ok (t, _) =>
        let a := mergePass h (me t) acc
        stageUnits per n u words s k (lo + u) { a with xc := { a.xc with srseed := (me t).xc.srseed, flags := (me t).xc.flags } }

/-- Run a stage program on a row of n elements of a vtype: the state, and the element counts with which registers were last
written, or the cause of a trap. -/
def stageRun (per n vrm : Nat) (vt : Nat × Fmt × Nat) (words : List Nat) (s : State) : Except Nat (State × AMap Nat) :=
  match stagePass per n 0 n words s [] with
  | .error c => .error c
  | .ok (t, ls) =>
    let is := stageInstrs words
    if stageSplits vrm vt.1 vt.2.1 is = false then .ok (t, ls)
    else match stageUnits per n (stageUnit per vt.2.1 vt.2.2 is) words s (n + 1) 0 (me s) with
      | .error c => .error c
      | .ok h => .ok (setMe t { h with tags := (me t).tags }, ls)

end Sys2Proof.Machine
end

