-- ==== Sys2Proof/Machine/Queue.lean ====
section
/-!
DEFINITION. Chaining queues (spec/08 R147 to R151; spec/16 R331 to R334): tokens, pointers, the packing of a producer, and
the four queue instructions.
-/
namespace Sys2Proof.Machine

/-! ### Tokens (spec/08 Tables 8-1, 8-2) -/

/-- A token: its payload and side field. -/
structure Tok where
  pay : Nat
  side : Nat
deriving DecidableEq, Repr

def Tok.kind (t : Tok) : Nat := fieldOf t.side 1 0
def Tok.last (t : Tok) : Bool := bitOf t.side 2
/-- Valid bytes of a data or scale token. -/
def Tok.bytes (t : Tok) : Nat := fieldOf t.side 7 3 + 1
/-- The subtype of a marker. -/
def Tok.sub (t : Tok) : Nat := t.pay % 256

def tkData : Nat := 0
def tkScale : Nat := 1
def tkConfig : Nat := 2
def tkMarker : Nat := 3
def mkBell : Nat := 1
def mkCheck : Nat := 2
def mkTail : Nat := 3
def mkBound : Nat := 4
def mkDetach : Nat := 5

def dataTok (pay n : Nat) (last : Bool) : Tok := ⟨pay, (if last then 4 else 0) + (n - 1) % 32 * 8⟩
def scaleTok (pay n : Nat) : Tok := ⟨pay, 1 + (n - 1) % 32 * 8⟩
def configTok (gen : Nat) : Tok := ⟨gen, 2 + 31 * 8⟩
def markTok (sub : Nat) : Tok := ⟨sub, 3⟩

/-! ### Pointers (spec/08 R150) -/

def qOf (c : CoreSt) (q : Nat) : Queue := aget {} c.q q
def setQ (c : CoreSt) (q : Nat) (r : Queue) : CoreSt := { c with q := aput c.q q r }
def rpOf (r : Queue) (j : Nat) : Nat := aget 0 r.rp j
/-- Occupancy for consumer j. -/
def qOcc (r : Queue) (j : Nat) : Nat := (r.tail + 512 - rpOf r j) % 512
/-- The consumers that hold the producer back: the attached ones that are not detached; RP0 alone where software drains. -/
def qReaders (r : Queue) : List Nat :=
  if r.cmask = 0 then [0]
  else (List.range 4).filter fun j => bitOf r.cmask.toNat j && !bitOf r.dmask.toNat j
/-- The largest occupancy. -/
def qOccMax (r : Queue) : Nat := ((qReaders r).map (qOcc r)).foldl max 0
/-- Slots that the producer may fill. -/
def qRoom (r : Queue) : Nat := 256 - qOccMax r
/-- Is the queue empty for every consumer that counts? -/
def qEmpty (r : Queue) : Bool := qOccMax r == 0

/-- The token at a counter. -/
def tokAt (c : CoreSt) (q ctr : Nat) : Tok :=
  let k := 256 * q + ctr % 256
  ⟨(aget 0 c.qpay k).toNat, (aget 0 c.qside k).toNat⟩
/-- Write the slot at a counter. -/
def tokPut (c : CoreSt) (q ctr : Nat) (t : Tok) : CoreSt :=
  let k := 256 * q + ctr % 256
  { c with qpay := aputC 0 c.qpay k (BitVec.ofNat 256 t.pay), qside := aputC 0 c.qside k (BitVec.ofNat 8 t.side) }
/-- The poisoned bytes of the slot at a counter: data that was only moved keeps its poison (spec/13 R261). -/
def poiAt (c : CoreSt) (q ctr : Nat) : Nat := (aget 0 c.qpoi (256 * q + ctr % 256)).toNat
/-- Set the poisoned bytes of the slot at a counter. -/
def setPoi (c : CoreSt) (q ctr m : Nat) : CoreSt := { c with qpoi := aputC 0 c.qpoi (256 * q + ctr % 256) (BitVec.ofNat 32 m) }
/-- The token at a counter with its poison, and writing both. -/
def tokPoiAt (c : CoreSt) (q ctr : Nat) : Tok × Nat := (tokAt c q ctr, poiAt c q ctr)
def tokPoiPut (c : CoreSt) (q ctr : Nat) (t : Tok × Nat) : CoreSt := setPoi (tokPut c q ctr t.1) q ctr t.2
/-- Append a token. -/
def tokAppend (c : CoreSt) (q : Nat) (t : Tok) : CoreSt :=
  let r := qOf c q
  setQ (setPoi (tokPut c q r.tail t) q r.tail 0) q { r with tail := (r.tail + 1) % 512 }
/-- Did the last data token of n tokens from a counter have LAST? None where there is no data token. -/
def lastOf (c : CoreSt) (q ctr n : Nat) : Option Bool :=
  ((List.range n).filterMap fun i =>
    let t := tokAt c q (ctr + i)
    if t.kind = 0 then some t.last else none).getLast?
/-- TAGSET ends when the queue has become empty, with nothing pending, after a token with LAST was taken (spec/16 R331). -/
def qSettle (r : Queue) : Queue :=
  if r.lastOut && qEmpty r && r.pfill == 0 then { r with tagset := false, lastOut := false } else r
/-- Advance consumer j by n slots. -/
def tokTake (c : CoreSt) (q j n : Nat) : CoreSt :=
  let r := qOf c q
  setQ c q (qSettle { r with
    rp := aput r.rp j ((rpOf r j + n) % 512), lastOut := (lastOf c q (rpOf r j) n).getD r.lastOut })

/-! ### Formats in tokens (spec/08 R149) -/

/-- Bytes of a block's elements; 0 where the format has no blocks. -/
def blockBytes (f : Fmt) (blk : Nat) : Nat := blkOf f blk * fmtSew f / 8
/-- Does a data token of the format need a scale token before it? -/
def tokScaled (f : Fmt) (blk : Nat) : Bool := blkOf f blk != 0
/-- Is the format one whose blocks fit a token? -/
def tokFmtOk (f : Fmt) (blk : Nat) : Bool := decide (blockBytes f blk ≤ 32)
/-- Blocks of a data token of n bytes. -/
def tokBlocks (f : Fmt) (blk n : Nat) : Nat := (n + blockBytes f blk - 1) / blockBytes f blk

/-- Data that a producer packs: bytes, and scales in block order where the format has them. -/
structure Pack where
  f : Fmt
  blk : Nat
  n : Nat            -- bytes
  data : Nat
  scales : Nat       -- scales, one after the other
  poi : Nat          -- poisoned bytes of the data, and of the scales
  poiS : Nat
deriving DecidableEq, Repr

/-- Slots that a token takes. -/
def Pack.per (p : Pack) : Nat := if tokScaled p.f p.blk then 2 else 1
/-- Tokens that the data makes behind `pf` pending bytes, the pending one included. -/
def Pack.toks (p : Pack) (pf : Nat) : Nat := (pf + p.n + 31) / 32

/-- Bytes k to k + m - 1 of a number. -/
def bytesAt (v k m : Nat) : Nat := (v >>> (8 * k)) % 2 ^ (8 * m)

/-- Write the pending token: its slot or its two slots at TAIL. -/
def pendPut (c : CoreSt) (q : Nat) (p : Pack) (data n scales : Nat) : CoreSt :=
  let r := qOf c q
  if tokScaled p.f p.blk then
    let c := tokPut c q r.tail (scaleTok scales (tokBlocks p.f p.blk n * scaleBytes p.f))
    tokPut c q (r.tail + 1) (dataTok data n false)
  else tokPut c q r.tail (dataTok data n false)

/-- Append the pending token of n bytes. -/
def pendAppend (c : CoreSt) (q : Nat) (scaled : Bool) (n : Nat) (last : Bool) : CoreSt :=
  let r := qOf c q
  let k := if scaled then r.tail + 1 else r.tail
  let c := tokPut c q k (dataTok (tokAt c q k).pay n last)
  setQ c q { r with tail := (r.tail + if scaled then 2 else 1) % 512, pfill := 0 }

/-- Pack bytes behind the pending token; what does not fit a token goes to the next. The token that holds the last byte
stays pending. The counter bounds the tokens. -/
def packInto : Nat → CoreSt → Nat → Pack → CoreSt
  | 0, c, _, _ => c
  | n + 1, c, q, p =>
    if p.n = 0 then c
    else
      let r := qOf c q
      let sc := tokScaled p.f p.blk
      if r.pfill = 32 then packInto n (pendAppend c q sc 32 false) q p
      else
        let m := min p.n (32 - r.pfill)
        let k := if sc then r.tail + 1 else r.tail
        let old := if r.pfill = 0 then 0 else (tokAt c q k).pay % 2 ^ (8 * r.pfill)
        let nb := if sc then tokBlocks p.f p.blk m else 0
        let ob := if sc then tokBlocks p.f p.blk r.pfill else 0
        let sb := scaleBytes p.f
        let oldS := if r.pfill = 0 then 0 else (tokAt c q r.tail).pay % 2 ^ (8 * sb * ob)
        let c := pendPut c q p (old + bytesAt p.data 0 m * 2 ^ (8 * r.pfill)) (r.pfill + m)
          (oldS + p.scales % 2 ^ (8 * sb * nb) * 2 ^ (8 * sb * ob))
        let oldP := if r.pfill = 0 then 0 else poiAt c q k % 2 ^ r.pfill
        let oldPS := if r.pfill = 0 then 0 else poiAt c q r.tail % 2 ^ (sb * ob)
        let c := if sc then setPoi c q r.tail (oldPS + p.poiS % 2 ^ (sb * nb) * 2 ^ (sb * ob)) else c
        let c := setPoi c q k (oldP + p.poi % 2 ^ m * 2 ^ r.pfill)
        let c := setQ c q { qOf c q with pfill := r.pfill + m }
        packInto n c q { p with
          n := p.n - m, data := p.data >>> (8 * m), scales := p.scales >>> (8 * sb * nb), poi := p.poi >>> m, poiS := p.poiS >>> (sb * nb) }

/-- Pack for a node or a load stream: a full token is appended at once, and with `last` the pending one too. `hold` keeps
a full token pending, for a producer that cannot know that more follows. -/
def emitPack (c : CoreSt) (q : Nat) (p : Pack) (last hold : Bool) : CoreSt :=
  let c := packInto (2 * p.n + 2) c q p
  let r := qOf c q
  if r.pfill ≠ 0 ∧ last = true then pendAppend c q (tokScaled p.f p.blk) r.pfill true
  else if r.pfill = 32 ∧ hold = false then pendAppend c q (tokScaled p.f p.blk) 32 false
  else c

/-- Room that a pack needs. -/
def packRoom (r : Queue) (p : Pack) : Bool := decide (p.toks r.pfill * p.per ≤ qRoom r)

/-! ### What can still fill a queue (spec/08 R151) -/

/-- Is the owning slot in a state that can still fill it? -/
def slotFills (c : CoreSt) (n : Nat) : Bool :=
  match (aget {} c.slots n).state with
  | .running | .draining | .temporal => true
  | _ => false

/-- CQ of a stream's descriptor and its direction. -/
def streamCq (st : Stream) : Nat := fieldOf (aget 0 st.desc 3).toNat 44 41
def streamStore (st : Stream) : Bool := bitOf (aget 0 st.desc 3).toNat 40

/-- Can a producer still fill the queue? -/
def qFillable (c : CoreSt) (q : Nat) : Bool :=
  let r := qOf c q
  if r.owned then slotFills c r.slot
  else r.tagset || r.pfill != 0 ||
    c.streams.any fun kv => (kv.2.state == 1 || kv.2.state == 2) && !streamStore kv.2 && streamCq kv.2 == q

/-! ### The instructions -/

/-- The scales of the first n bytes of a group, one after the other. -/
def groupScales (h : Hart) (lanes base : Nat) (f : Fmt) (blk n : Nat) : Nat :=
  (List.range (tokBlocks f blk n)).foldl
    (fun acc j => acc + rdScale h lanes base f blk j * 2 ^ (8 * scaleBytes f * j)) 0

/-- QPUSH (spec/16 R332). -/
def execQpush (q : Fin 16) (a : RegIx) (s : State) : Host.Outcome State Fault Refusal :=
  let i : Instr := .qpush q a
  vexec i (fun s => do
    let e ← vecEnv s i 0
    orIllegal (e.vstart == 0 && a.val % e.grp == 0) s i
    let core := myCore s
    let c := coreOf s core
    let r := qOf c q.val
    let sc := tokScaled e.fmt e.blk
    orTrap (!(r.owned && !r.swin)) s 28 (wordOf i)
    if e.vl = 0 then
      if r.pfill = 0 then .ok (nextPc s)
      else
        let scaled := r.tagset && bitOf r.qtag.toNat 7
        .ok (nextPc (setCore s core (pendAppend c q.val scaled r.pfill true)))
    else
      vecTags s i e [(a.val, e.grp, e.tag)]
      orTrap (!(r.tagset && r.qtag.toNat != e.tag)) s 28 (wordOf i)
      orTrap (!sc || (tokFmtOk e.fmt e.blk && (r.pfill == 0 || r.pfill == 32))) s 28 (wordOf i)
      let n := (e.vl * e.sew + 7) / 8
      let p : Pack := ⟨e.fmt, e.blk, n, e.group a.val e.grp % 2 ^ (e.vl * e.sew),
        if sc then groupScales e.h e.lanes a.val e.fmt e.blk n else 0, 0, 0⟩
      orTrap (decide (p.toks r.pfill * p.per ≤ 256)) s 28 (wordOf i)
      if !packRoom r p then .error (.wait s)
      else
        let c := packInto (2 * n + 2) c q.val p
        let c := if r.tagset then c else setQ c q.val { qOf c q.val with qtag := BitVec.ofNat 8 e.tag, tagset := true }
        .ok (nextPc (setCore s core c))) s

/-- Consume the markers and config tokens at the head for RP0 into MARK. The counter bounds the tokens. -/
def eatMarks : Nat → CoreSt → Nat → CoreSt
  | 0, c, _ => c
  | n + 1, c, q =>
    let r := qOf c q
    if qOcc r 0 = 0 then c
    else
      let t := tokAt c q (rpOf r 0)
      if t.kind = tkMarker then
        eatMarks n (tokTake (setQ c q { r with mark := BitVec.ofNat 3 t.sub }) q 0 1) q
      else if t.kind = tkConfig then eatMarks n (tokTake c q 0 1) q
      else c

/-- What a software consumer would take: slots passed, bytes, data, scales, whether LAST was among them, and the last
marker passed. -/
structure Taken where
  slots : Nat := 0
  bytes : Nat := 0
  data : Nat := 0
  scales : List (Nat × Nat) := []   -- byte offset of the data token, its scale token's payload
  scale : Nat := 0                  -- the latched scale token
  last : Bool := false
  met : Option Nat := none          -- the last marker met, and of those before a taken token
  mark : Option Nat := none
  scaleBad : Bool := false          -- the latched scale token is poisoned
  bad : Bool := false               -- a poisoned token is among them
deriving DecidableEq, Repr

/-- Take tokens from a counter while their bytes total at most `cap`, stopping after LAST. -/
def takeToks : Nat → CoreSt → Nat → Nat → Nat → Nat → Taken → Taken
  | 0, _, _, _, _, _, a => a
  | n + 1, c, q, ctr, pass, cap, a =>
    let t := tokAt c q ctr
    let next := (ctr + 1) % 512
    if t.kind = tkMarker then takeToks n c q next (pass + 1) cap { a with met := some t.sub }
    else if t.kind = tkConfig then takeToks n c q next (pass + 1) cap a
    else if t.kind = tkScale then
      takeToks n c q next (pass + 1) cap { a with scale := t.pay, scaleBad := poiAt c q ctr != 0 }
    else if a.bytes + t.bytes > cap then a
    else
      let a := { a with
        slots := pass + 1, bytes := a.bytes + t.bytes, data := a.data + t.pay % 2 ^ (8 * t.bytes) * 2 ^ (8 * a.bytes),
        scales := a.scales ++ [(a.bytes, a.scale)], last := t.last, mark := a.met,
        bad := a.bad || a.scaleBad || poiAt c q ctr % 2 ^ t.bytes != 0 }
      if t.last then a else takeToks n c q next (pass + 1) cap a

/-- Data bytes from a counter up to LAST, and whether LAST was met. -/
def bytesToLast : Nat → CoreSt → Nat → Nat → Nat → Nat × Bool
  | 0, _, _, _, b => (b, false)
  | n + 1, c, q, ctr, b =>
    let t := tokAt c q ctr
    if t.kind = tkData then
      (if t.last then (b + t.bytes, true) else bytesToLast n c q ((ctr + 1) % 512) (b + t.bytes))
    else bytesToLast n c q ((ctr + 1) % 512) b

/-- Write the scales of taken tokens to their sidecar positions. -/
def putScales (h : Hart) (lanes base : Nat) (f : Fmt) (blk : Nat) (a : Taken) : Hart :=
  a.scales.foldl (fun h p =>
    let n := min 32 (a.bytes - p.1)
    (List.range (tokBlocks f blk n)).foldl (fun h j =>
      wrScale h lanes base f blk (p.1 / blockBytes f blk + j)
        ((p.2 >>> (8 * scaleBytes f * j)) % 2 ^ (8 * scaleBytes f))) h) h

/-- QPOP and QPEEK (spec/16 R333). A poisoned token of those taken raises cause 51 (spec/13 R261); it has no address, and `stval` is a
free value. -/
def qpopOp (i : Instr) (q : Fin 16) (d : RegIx) (peek : Bool) (s : State) : Res := do
  let e ← vecEnv s i 0
  orIllegal (e.vstart == 0 && d.val % e.grp == 0) s i
  let core := myCore s
  let cap := (e.vl * e.sew + 7) / 8
  orTrap (decide (cap ≤ 8192)) s 28 (wordOf i)
  let r := qOf (coreOf s core) q.val
  orTrap (!(r.owned && !r.swout)) s 28 (wordOf i)
  let c := eatMarks 512 (coreOf s core) q.val
  let s0 := s
  let s := setCore s core c
  if e.vl = 0 then .ok (nextPc s)
  else
    let r := qOf c q.val
    let occ := qOcc r 0
    let (avail, lastIn) := bytesToLast occ c q.val (rpOf r 0) 0
    if occ = 0 ∧ qFillable c q.val = false then .error (.trap s0 28 (wordOf i))
    else if avail < cap ∧ lastIn = false then .error (.wait s)
    else
      orTrap (r.qtag.toNat == e.tag) s0 25 (wordOf i)
      let a := takeToks occ c q.val (rpOf r 0) 0 cap {}
      orTrap (a.slots != 0) s0 28 (wordOf i)
      let lost := freshBits s0 64
      orTrap (!a.bad) lost.2 51 lost.1
      let vl := a.bytes * 8 / e.sew
      let g := withField (e.group d.val e.grp) (8 * a.bytes - 1) 0 a.data
      let regs := (8 * a.bytes + e.regBits - 1) / e.regBits
      let h := setTags (wrGroup (me s) e.regBits d.val e.grp g) d.val regs r.qtag.toNat
      let h := if tokScaled e.fmt e.blk then putScales h e.lanes d.val e.fmt e.blk a else h
      let h := { h with xc := { h.xc with vl := w64 vl } }
      let c := if peek then c else
        let c := match a.mark with
          | some m => setQ c q.val { qOf c q.val with mark := BitVec.ofNat 3 m }
          | none => c
        tokTake c q.val 0 a.slots
      .ok (nextPc (setMe (setCore s core c) h))

/-- QPOP. -/
def execQpop (q : Fin 16) (d : RegIx) (s : State) : Host.Outcome State Fault Refusal :=
  vexec (.qpop q d) (qpopOp (.qpop q d) q d false) s

/-- QPEEK. -/
def execQpeek (q : Fin 16) (d : RegIx) (s : State) : Host.Outcome State Fault Refusal :=
  vexec (.qpeek q d) (qpopOp (.qpeek q d) q d true) s

/-- The word of QSTAT (spec/16 Table 16-6). -/
def qstatWord (c : CoreSt) (q : Nat) : Nat :=
  let r := qOf c q
  let (b, l) := bytesToLast (qOcc r 0) c q (rpOf r 0) 0
  qOccMax r + r.pfill * 2 ^ 9 + (if r.tagset then 2 ^ 15 else 0) + r.qtag.toNat * 2 ^ 16 + r.mark.toNat * 2 ^ 24 +
    (if r.owned then 2 ^ 27 else 0) + (if r.swin then 2 ^ 28 else 0) + (if r.swout then 2 ^ 29 else 0) +
    (if l then b * 2 ^ 32 else 0)

/-- QSTAT (spec/16 R334). -/
def execQstat (q : Fin 16) (d : RegIx) (s : State) : Host.Outcome State Fault Refusal :=
  finish (.qstat q d) (.ok (nextPc (wrX s d (w64 (qstatWord (coreOf s (myCore s)) q.val)))))

end Sys2Proof.Machine
end

