-- ==== Sys2Proof/Machine/VecMem.lean ====
section
/-!
DEFINITION. The vector memory instructions and atomics (spec/17 R371 to R377; spec/02 R32, R34; spec/06 R97; spec/07 R134,
R135; spec/10 R203).
-/
namespace Sys2Proof.Machine

/-! ### Accesses of one element -/

/-- Read n aligned bytes for an element: translation, order, poison. -/
def elRead (s : State) (va n : Nat) : Except Exc (State × Nat) := do
  if va % n ≠ 0 then .error (.trap s 4 (w64 va))
  else
    let (s, l) ← myTranslate s .load .plain va 24
    let s ← myOrder s va n false l
    if locPoisoned s l n then .error (.trap s 51 (w64 va)) else .ok (vecRead s l n)

/-- Write n aligned bytes for an element. -/
def elWrite (s : State) (va n v : Nat) : Except Exc State := do
  if va % n ≠ 0 then .error (.trap s 6 (w64 va))
  else
    let (s, l) ← myTranslate s .store .plain va 24
    let s ← myOrder s va n true l
    .ok (vecWrite s l n v)

/-- Read w bits from bit `lo` of byte `va`; a field that crosses a byte reads the next one too. -/
def elReadBits (s : State) (va lo w : Nat) : Except Exc (State × Nat) := do
  let (s, a) ← elRead s va 1
  if lo + w ≤ 8 then .ok (s, (a >>> lo) % 2 ^ w)
  else
    let (s, b) ← elRead s ((va + 1) % 2 ^ 64) 1
    .ok (s, ((a + 256 * b) >>> lo) % 2 ^ w)

/-- Replace bits [lo, lo + w) of the byte at a location by a masked write at the sole writer. -/
def maskWrite (s : State) (l : Loc) (lo w v : Nat) : State :=
  match l with
  | .phys _ 1 _ =>
    let s := drainWc s s.cur
    homeWrite s (hartCtx s s.cur).dirty l 1 (withField (homeRead s l 1) (lo + w - 1) lo v)
  | _ =>
    let (s, m) := vecRead s l 1
    vecWrite s l 1 (withField m (lo + w - 1) lo v)

/-- Write w bits from bit `lo` of byte `va`; a field that crosses a byte writes the next one too, once both translate. -/
def elWriteBits (s : State) (va lo w v : Nat) : Except Exc State := do
  let (s, l) ← myTranslate s .store .plain va 24
  let s ← myOrder s va 1 true l
  if lo + w ≤ 8 then .ok (maskWrite s l lo w v)
  else
    let va2 := (va + 1) % 2 ^ 64
    let (s, l2) ← myTranslate s .store .plain va2 24
    let s ← myOrder s va2 1 true l2
    let k := 8 - lo
    .ok (maskWrite (maskWrite s l lo k v) l2 0 (w - k) (v / 2 ^ k))

/-- Where element i of a unit-stride access lies: byte address, lowest bit, width in bits (spec/17 R371, spec/04 R64). -/
def elemPlace (f : Fmt) (base i : Nat) : Nat × Nat × Nat :=
  match peBits f with
  | some m =>
    let w := m + 1
    let bit := i % 16 * w
    ((base + i / 16 * 2 * w + bit / 8) % 2 ^ 64, bit % 8, w)
  | none =>
    let w := fmtSew f
    if w = 4 then ((base + i / 2) % 2 ^ 64, i % 2 * 4, 4) else ((base + i * (w / 8)) % 2 ^ 64, 0, w)

/-- Read an element at its place. -/
def readPlace (s : State) (f : Fmt) (p : Nat × Nat × Nat) : Except Exc (State × Nat) :=
  if fmtIsPe f || fmtSew f == 4 then elReadBits s p.1 p.2.1 p.2.2 else elRead s p.1 (p.2.2 / 8)

/-- Write an element at its place. -/
def writePlace (s : State) (f : Fmt) (p : Nat × Nat × Nat) (v : Nat) : Except Exc State :=
  if fmtIsPe f || fmtSew f == 4 then elWriteBits s p.1 p.2.1 p.2.2 v else elWrite s p.1 (p.2.2 / 8) v

/-- Make every check of a write of n aligned bytes, and write nothing. -/
def elProbe (s : State) (va n : Nat) : Except Exc State :=
  if va % n ≠ 0 then .error (.trap s 6 (w64 va))
  else do
    let (s, l) ← myTranslate s .store .plain va 24
    myOrder s va n true l

/-- Make every check of a write of an element at its place. -/
def probePlace (s : State) (f : Fmt) (p : Nat × Nat × Nat) : Except Exc State :=
  if fmtIsPe f || fmtSew f == 4 then do
    let s ← elProbe s p.1 1
    if p.2.1 + p.2.2 ≤ 8 then .ok s else elProbe s ((p.1 + 1) % 2 ^ 64) 1
  else elProbe s p.1 (p.2.2 / 8)

/-- Write element i of the current hart's group. -/
def setMyElem (s : State) (e : VEnv) (base sew i v : Nat) : State :=
  updMe s fun h =>
    let r := base + i * sew / e.regBits
    hartSetV h r (setElem sew (hartV h r) (i * sew % e.regBits / sew) v)

/-! ### The loop over elements -/

/-- Elements in ascending order, with interruption, faults and the shortening of the .ff forms (spec/02 R32, R34; spec/17
R371). `commit` writes what belongs to the elements done so far, the tags. -/
def vecRun (e : VEnv) (ff : Bool) (commit : State → State) (one : State → Nat → Except Exc State) :
    List Nat → Bool → State → Res
  | [], _, s => vecDone (commit s) (me (commit s))
  | k :: r, first, s =>
    let stopAt (s : State) (k : Nat) : State := updX (commit s) fun x => { x with vstart := BitVec.ofNat 17 k }
    if (match s.elemLimit with | some m => decide (m ≤ k) | none => false) then
      .error (.stop (if first then s else stopAt s k))
    else
      match one s k with
      | .ok s => vecRun e ff commit one r false s
      | .error x =>
        if first then .error x
        else
          let short (s : State) (va : Word) : Res :=
            let s := updX (commit s) fun x => { x with vl := w64 k, fault := va }
            vecDone s (me s)
          match x with
          | .pageFault t va _ _ => if ff then short t (w64 va) else .error (x.map fun s => stopAt s k)
          | .trap t c va => if ff && (c == 4 || c == 5) then short t va else .error (x.map fun s => stopAt s k)
          | x => .error (x.map fun s => stopAt s k)

/-- Write the tags of the destination group of a load. -/
def commitTags (e : VEnv) (base n tag : Nat) (s : State) : State :=
  if e.some then updMe s fun h => setTags h base n tag else s

/-- Is element i the first active one of its block? -/
def leadsBlock (e : VEnv) (b i : Nat) : Bool := i == max e.vstart (i / b * b)

/-- Bytes at which the scale of block j lies (spec/17 R372). -/
def scaleAddr (e : VEnv) (j : Nat) : Nat := (e.h.xc.sbase.toNat + j * scaleBytes e.fmt) % 2 ^ 64

/-- Load the active elements from places; with `sc`, each block's scale with its first active element. -/
def loadOp (i : Instr) (e : VEnv) (d : RegIx) (ff sc : Bool) (place : Nat → Nat × Nat × Nat) (s : State) : Res := do
  vecUniform s i e (blkOf e.fmt e.blk)
  let b := blkOf e.fmt e.blk
  let one (s : State) (k : Nat) : Except Exc State := do
    let (s, v) ← readPlace s e.fmt (place k)
    let v := inContainer e.fmt v
    if sc && leadsBlock e b k then
      let (s, x) ← elRead s (scaleAddr e (k / b)) (scaleBytes e.fmt)
      .ok (updMe (setMyElem s e d.val e.sew k v) fun h => wrScale h e.lanes d.val e.fmt e.blk (k / b) x)
    else .ok (setMyElem s e d.val e.sew k v)
  vecRun e ff (commitTags e d.val e.grp (if sc then e.tag else tagNoSc e.fmt e.blk)) one e.actives true s

/-- Store the active elements to places; with `sc`, each block's scale with its first active element, both checked before
either is written (spec/17 R371). -/
def storeOp (e : VEnv) (d : RegIx) (sc : Bool) (place : Nat → Nat × Nat × Nat) (s : State) : Res :=
  let b := blkOf e.fmt e.blk
  let g := e.group d.val e.grp
  let one (s : State) (k : Nat) : Except Exc State := do
    let v := inContainer e.fmt (elemOf e.sew g k)
    if sc && leadsBlock e b k then
      let s ← probePlace s e.fmt (place k)
      let s ← elProbe s (scaleAddr e (k / b)) (scaleBytes e.fmt)
      let s ← writePlace s e.fmt (place k) v
      elWrite s (scaleAddr e (k / b)) (scaleBytes e.fmt) (rdScale e.h e.lanes d.val e.fmt e.blk (k / b))
    else writePlace s e.fmt (place k) v
  vecRun e false id one e.actives true s

/-- The place of a byte-wide element at an address. -/
def placeAt (e : VEnv) (va : Nat) : Nat × Nat × Nat := (va % 2 ^ 64, 0, e.sew)

/-- Is the format one that strided and indexed accesses refuse: 4-bit or PE? -/
def subByte (f : Fmt) : Bool := fmtSew f == 4 || fmtIsPe f

/-- VLD (spec/17 R372). -/
def execVld (g : Fin 4) (a : RegIx) (f sc : Bool) (d : RegIx) (s : State) : Host.Outcome State Fault Refusal :=
  vexec (.vld g a f sc d) (fun s => do
    let i : Instr := .vld g a f sc d
    let e ← vecEnv s i g.val
    vecLegal s i e true (groupOkAt d.val e.grp && (!sc || e.blk != 0))
    loadOp i e d f sc (elemPlace e.fmt (hartX e.h a).toNat) s) s

/-- VLDS (spec/17 R372). -/
def execVlds (g : Fin 4) (b a : RegIx) (f sc : Bool) (d : RegIx) (s : State) : Host.Outcome State Fault Refusal :=
  vexec (.vlds g b a f sc d) (fun s => do
    let i : Instr := .vlds g b a f sc d
    let e ← vecEnv s i g.val
    vecLegal s i e true (groupOkAt d.val e.grp && (!sc || e.blk != 0) && !subByte e.fmt)
    loadOp i e d f sc (fun k => placeAt e ((hartX e.h a).toNat + k * (hartX e.h b).toNat)) s) s

/-- The index width of VLDX and VSTX. -/
def idxBits (i64 : Bool) : Nat := if i64 then 64 else 32

/-- VLDX (spec/17 R373). -/
def execVldx (g : Fin 4) (b a : RegIx) (f ix : Bool) (d : RegIx) (s : State) : Host.Outcome State Fault Refusal :=
  vexec (.vldx g b a f ix d) (fun s => do
    let i : Instr := .vldx g b a f ix d
    let e ← vecEnv s i g.val
    let w := idxBits ix
    let n := e.grpOf w
    vecLegal s i e true
      (e.blk == 0 && !subByte e.fmt && groupOkAt d.val e.grp && groupOkAt b.val n && !overlaps d.val e.grp b.val n)
    vecTags s i e [(b.val, n, tagOf (intFmt w) 0)]
    let gx := e.group b.val n
    loadOp i e d f false (fun k => placeAt e ((hartX e.h a).toNat + elemOf w gx k)) s) s

/-- VST (spec/17 R374). -/
def execVst (g : Fin 4) (a : RegIx) (sc : Bool) (d : RegIx) (s : State) : Host.Outcome State Fault Refusal :=
  vexec (.vst g a sc d) (fun s => do
    let i : Instr := .vst g a sc d
    let e ← vecEnv s i g.val
    vecLegal s i e true (groupOkAt d.val e.grp && (!sc || e.blk != 0))
    vecTags s i e (if sc then [(d.val, e.grp, e.tag)] else [])
    vecUniform s i e (if sc then blkOf e.fmt e.blk else 0)
    storeOp e d sc (elemPlace e.fmt (hartX e.h a).toNat) s) s

/-- VSTS (spec/17 R374). -/
def execVsts (g : Fin 4) (b a : RegIx) (sc : Bool) (d : RegIx) (s : State) : Host.Outcome State Fault Refusal :=
  vexec (.vsts g b a sc d) (fun s => do
    let i : Instr := .vsts g b a sc d
    let e ← vecEnv s i g.val
    vecLegal s i e true (groupOkAt d.val e.grp && (!sc || e.blk != 0) && !subByte e.fmt)
    vecTags s i e (if sc then [(d.val, e.grp, e.tag)] else [])
    vecUniform s i e (if sc then blkOf e.fmt e.blk else 0)
    storeOp e d sc (fun k => placeAt e ((hartX e.h a).toNat + k * (hartX e.h b).toNat)) s) s

/-- VSTX (spec/17 R374). -/
def execVstx (g : Fin 4) (b a : RegIx) (ix : Bool) (d : RegIx) (s : State) : Host.Outcome State Fault Refusal :=
  vexec (.vstx g b a ix d) (fun s => do
    let i : Instr := .vstx g b a ix d
    let e ← vecEnv s i g.val
    let w := idxBits ix
    let n := e.grpOf w
    vecLegal s i e true
      (e.blk == 0 && !subByte e.fmt && groupOkAt d.val e.grp && groupOkAt b.val n && !overlaps d.val e.grp b.val n)
    vecTags s i e [(b.val, n, tagOf (intFmt w) 0)]
    let gx := e.group b.val n
    storeOp e d false (fun k => placeAt e ((hartX e.h a).toNat + elemOf w gx k)) s) s

/-! ### Atomics (spec/07 R134, R135; spec/17 R376, R377) -/

/-- An update at the sole writer. -/
inductive AtOp where
  | add | fadd | min | max | minu | maxu | fmax | swap | or
deriving DecidableEq, Repr

/-- The new value of a word and the flags of the update. -/
def atNew (o : AtOp) (f : Fmt) (m d : Nat) : Nat × Nat :=
  let w := fmtSew f
  match o with
  | .add => ((m + d) % 2 ^ w, 0)
  | .fadd =>
    let (x, fl) := faddV .rne (elemVal f 0 m 0 0) (elemVal f 0 d 0 0)
    let (r, fl2) := narrow (specOf f) .rne 0 x
    (r, fl ||| fl2)
  | .min => (opMin false w 0 m d, 0)
  | .max => (opMax false w 0 m d, 0)
  | .minu => (opMin true w 0 m d, 0)
  | .maxu => (opMax true w 0 m d, 0)
  | .fmax =>
    let x := elemVal f 0 m 0 0
    let y := elemVal f 0 d 0 0
    ((narrow (specOf f) .rne 0 (foutOf (fMinMax true x y))).1, sigFlags [x, y])
  | .swap => (d, 0)
  | .or => (m ||| d, 0)

/-- Is the format one that the operation admits? -/
def atFmtOk (o : AtOp) (f : Fmt) : Bool :=
  match o with
  | .fadd | .fmax => f == .fp32 || f == .fp64
  | .swap => f == .i32 || f == .i64 || f == .fp32 || f == .fp64
  | _ => f == .i32 || f == .i64

def vamoAt : VAmoOp → AtOp
  | .add => .add | .fadd => .fadd | .min => .min | .max => .max | .minu => .minu | .maxu => .maxu | .fmax => .fmax
  | .swap => .swap

def vredAt : VRedOp → AtOp
  | .add => .add | .fadd => .fadd | .min => .min | .max => .max | .minu => .minu | .maxu => .maxu | .fmax => .fmax
  | .or => .or

/-- The checks that VAMO and VRED share: format, groups, tags (spec/05 R85, R89). -/
def atCheck (s : State) (i : Instr) (e : VEnv) (o : AtOp) (b d : RegIx) (restartable : Bool) : Except Exc Unit := do
  vecLegal s i e restartable
    (atFmtOk o e.fmt && groupOkAt d.val e.grp && groupOkAt b.val e.grp && !overlaps d.val e.grp b.val e.grp)
  vecTags s i e [(d.val, e.grp, e.tag), (b.val, e.grp, tagOf (intFmt e.sew) 0)]

/-- VAMO (spec/17 R376). -/
def execVamo (g : Fin 4) (b a : RegIx) (o : VAmoOp) (d : RegIx) (s : State) : Host.Outcome State Fault Refusal :=
  vexec (.vamo g b a o d) (fun s => do
    let i : Instr := .vamo g b a o d
    let e ← vecEnv s i g.val
    atCheck s i e (vamoAt o) b d true
    let gx := e.group b.val e.grp
    let gd := e.group d.val e.grp
    let n := e.sew / 8
    let one (s : State) (k : Nat) : Except Exc State := do
      let va := ((hartX e.h a).toNat + elemOf e.sew gx k) % 2 ^ 64
      if va % n ≠ 0 then .error (.trap s 6 (w64 va))
      else
        let (s, l) ← myTranslate s .store .atomic va 24
        let s ← myOrder s va n true l
        if locPoisoned s l n then .error (.trap s 51 (w64 va))
        else
          let s := flushLoc s (myCore s) l
          let m := homeRead s l n
          let (r, fl) := atNew (vamoAt o) e.fmt m (elemOf e.sew gd k)
          let s := homeWrite s (hartCtx s s.cur).dirty l n r
          .ok (orXFlags (setMyElem s e d.val e.sew k m) s.cur fl)
    vecRun e false (commitTags e d.val e.grp e.tag) one e.actives true s) s

/-- What the issue of a VRED finds of one element. -/
inductive RedIssue where
  | send (u : RedUpd)
  | park (va val : Nat)
deriving DecidableEq, Repr

/-- The address of a parked-reduction entry. -/
def parkedRedAddr (ctxbase i : Nat) : Nat := ctxbase + parkedRedOff + 64 * i

/-- The free entries of the parked-reduction area. -/
def freeReds (s : State) (c : ACtx) : List Nat :=
  (List.range 64).filter fun i => !bitOf (areaRead s c.tid (parkedRedAddr c.ctxbase i) 8) 0

/-- Park one element in an entry (spec/13 R249, Table 13-4). -/
def parkRed (s : State) (c : ACtx) (gh op : Nat) (f : Fmt) (va val entry : Nat) : State :=
  let (s, t) := postFault s c va 1 26 (.red c.ctxbase entry c)
  let p := parkedRedAddr c.ctxbase entry
  let s := areaWrite s c.tid p 8 (1 + op * 2 + f.code * 16 + gh % 128 * 2 ^ 9)
  let s := areaWrite s c.tid (p + 8) 8 va
  let s := areaWrite s c.tid (p + 16) 8 val
  areaWrite s c.tid (p + 24) 8 t

/-- The elements of a VRED up to the first that finds none of n free entries. -/
def redPrefix : Nat → List RedIssue → List RedIssue
  | _, [] => []
  | n, .send u :: r => .send u :: redPrefix n r
  | 0, .park _ _ :: _ => []
  | n + 1, .park va v :: r => .park va v :: redPrefix n r

/-- The elements that are to be parked, and the updates that are to be sent. -/
def redParks (us : List RedIssue) : List (Nat × Nat) := us.filterMap fun u => match u with | .park va v => some (va, v) | _ => none
def redSends (us : List RedIssue) : List RedUpd := us.filterMap fun u => match u with | .send r => some r | _ => none

/-- Park and send elements, for gang hart gh. -/
def issueReds (s : State) (c : ACtx) (gh op : Nat) (f : Fmt) (us : List RedIssue) : State :=
  let s := ((redParks us).zip (freeReds s c)).foldl (fun t p => parkRed t c gh op f p.1.1 p.1.2 p.2) s
  updCore s c.core fun r => { r with redq := r.redq ++ redSends us }

/-- VRED (spec/17 R377, spec/13 R249): every active element is checked at issue; then the updates are sent, and elements
with a page fault are parked. It stalls for entries of the parked-reduction area; one that needs more than the area holds parks
and sends as many of its elements as fit, and goes on from there (notes/assumptions/53). -/
def execVred (g : Fin 4) (b a : RegIx) (o : VRedOp) (d : RegIx) (s : State) : Host.Outcome State Fault Refusal :=
  vexec (.vred g b a o d) (fun s => do
    let i : Instr := .vred g b a o d
    let e ← vecEnv s i g.val
    atCheck s i e (vredAt o) b d false
    let gx := e.group b.val e.grp
    let gd := e.group d.val e.grp
    let n := e.sew / 8
    let c := accessCtx s .store
    let (s, us) ← (e.actives.drop (me s).vred).foldlM (fun (acc : State × List RedIssue) k => do
      let va := ((hartX e.h a).toNat + elemOf e.sew gx k) % 2 ^ 64
      if va % n ≠ 0 then .error (.trap acc.1 6 (w64 va))
      else if xferMeets acc.1 c.core c.slot va n true then .error (.wait acc.1)
      else match translate acc.1 c .store .atomic va with
        | (s, .ok l) =>
          if locPoisoned s l n then .error (.trap s 51 (w64 va))
          else if parkedMeets s c.core c.slot va n then .error (.wait s)
          else .ok (s, acc.2 ++ [.send ⟨c.slot, o.code, e.fmt.code, va, l, elemOf e.sew gd k, c⟩])
        | (s, .error (.page _)) => .ok (s, acc.2 ++ [.park va (elemOf e.sew gd k)])
        | (s, .error .access) => .error (.trap s 7 (w64 va))
        | (s, .error .poison) => .error (.trap s 51 (w64 va))) (s, [])
    let parks := (redParks us).length
    let free := (freeReds s c).length
    if parks ≤ free then
      let s := issueReds s c (ghartOf s s.cur) o.code e.fmt us
      vecDone s { me s with vred := 0 }
    else if parks ≤ 64 && (me s).vred == 0 then .error (.wait s)
    else
      let now := redPrefix free us
      .error (.wait (updMe (issueReds s c (ghartOf s s.cur) o.code e.fmt now) fun h => { h with vred := h.vred + now.length }))) s

/-- Perform one update of a VRED at its sole writer; its flags go to the hart, if that still runs (spec/07 R134). A poisoned word stays as it
is (notes/assumptions/23); a page whose key has gone is an access fault (spec/14 R271). -/
def performRed (s : State) (u : RedUpd) (h : Option Nat) : State :=
  match VRedOp.ofCode u.op, Fmt.ofCode u.fmt with
  | some o, some f =>
    let n := fmtSew f / 8
    if !locKeyed s u.loc then
      match h with
      | some h => takeException s h 7 (w64 u.va)
      | none => s
    else if locPoisoned s u.loc n then s
    else
      let s := flushLoc s u.ctx.core u.loc
      let (r, fl) := atNew (vredAt o) f (homeRead s u.loc n) u.val
      let s := homeWrite s u.ctx.dirty u.loc n r
      match h with
      | some h => orXFlags s h fl
      | none => s
  | _, _ => s

/-- A reduction-tree node's interlock entries go with the last of their updates (spec/07 R138). -/
def settleRt (s : State) (core : Nat) : State :=
  let q := (coreOf s core).redq
  updCore s core fun r => { r with arit := afilter r.arit fun _ e => !(e.src == 22 && q.all fun u =>
    u.slot != e.slot || decide (aritVa s core u.va < e.base) || decide (e.limit ≤ aritVa s core u.va)) }

/-- REDUCTION_UPDATE: the reduction tree of a core sends one combined update: every waiting element of the first
element's address, in order (spec/07 R135). -/
def execReductionUpdate (core : Nat) (s : State) : Host.Outcome State Fault Refusal :=
  match (coreOf s core).redq with
  | [] => .next s
  | u :: _ =>
    let same := (coreOf s core).redq.filter fun v => v.loc == u.loc
    let s := updCore s core fun r => { r with redq := r.redq.filter fun v => v.loc != u.loc }
    .next (settleRt (same.foldl (fun t v => performRed t v (some (8 * core + v.slot))) s) core)

/-! ### VLDSR (spec/10 R203, spec/17 R375) -/

/-- The place of element i of a window, with 4-bit elements in nibbles. -/
def winPlace (f : Fmt) (nb i : Nat) : Nat := (elemPlace f nb i).1

/-- VLDSR: the window slides in the register, and the refill follows in the background. -/
def execVldsr (b a d : RegIx) (s : State) : Host.Outcome State Fault Refusal :=
  vexec (.vldsr b a d) (fun s => do
    let i : Instr := .vldsr b a d
    let e ← vecEnv s i 0
    let n := (hartX e.h b).toNat
    vecLegal s i e false
      (e.blk == 0 && !fmtIsPe e.fmt && (e.sew != 4 || n % 2 == 0) && groupOkAt d.val e.grp)
    vecTags s i e [(d.val, e.grp, e.tag)]
    if !e.some || n == 0 then vecDone s e.h
    else
      let k := min n e.vl
      let nb := ((hartX e.h a).toNat + n * e.sew / 8) % 2 ^ 64
      let es := (List.range k).map fun j => e.vl - k + j
      let bytes := max 1 (e.sew / 8)
      let lo := winPlace e.fmt nb (e.vl - k)
      let hi := winPlace e.fmt nb (e.vl - 1) + bytes
      if ownWaits s (myCore s) (mySlot s) lo (hi - lo) false || aritRoom (coreOf s (myCore s)) == 0 then .error (.wait s)
      else
        let s := drainWc s s.cur
        let (s, locs) ← es.foldlM (fun (acc : State × List (Nat × Loc)) j => do
          let va := winPlace e.fmt nb j
          if va % bytes ≠ 0 then .error (.trap acc.1 4 (w64 va))
          else
            let (s, l) ← myTranslate acc.1 .load .engine va 23
            if locPoisoned s l bytes then .error (.trap s 51 (w64 va)) else .ok (s, acc.2 ++ [(j, l)])) (s, [])
        let g := e.group d.val e.grp
        let (r, _) := mapElems e.sew g (List.range (e.vl - k)) (fun j _ (_ : Unit) => (elemOf e.sew g (j + n), ())) ()
        let (s, ix) := aritEnter s (myCore s) ⟨false, true, 23, mySlot s, lo, hi⟩
        let s := updCore s (myCore s) fun c =>
          { c with refills := c.refills ++ [⟨mySlot s, d.val, [], locs, e.sew, some ix, 0⟩] }
        vecDone s (hartSetX (wrVec e (me s) d.val e.grp r e.tag) a (w64 nb))) s

/-- VLDSR_REFILL: the oldest refill of a core arrives: its elements are read and written, and the interlock ends
(spec/10 R203). Where the key of a page has gone, the hart takes an access fault, and the address in `stval` is a free value. -/
def execVldsrRefill (core : Nat) (s : State) : Host.Outcome State Fault Refusal :=
  match (coreOf s core).refills.find? fun f => !f.locs.isEmpty with
  | none => .next s
  | some f =>
    let h := 8 * core + f.slot
    let rb := 1024 * lanesOf s h
    let s := (f.locs.filter fun p => locKeyed s p.2).foldl (fun t p =>
      let t := lookUp t core p.2
      let bits := lookRead t core p.2 (max 1 (f.sew / 8))
      let v := if f.sew = 4 then (bits >>> (4 * (p.1 % 2))) % 16 else bits
      updHart t h fun x =>
        let r := f.vd + p.1 * f.sew / rb
        hartSetV x r (setElem f.sew (hartV x r) (p.1 * f.sew % rb / f.sew) v)) s
    let s := match f.arit with
      | some ix => aritLeave s core ix
      | none => s
    let s := updCore s core fun c => { c with refills := c.refills.erase f }
    let (va, t) := freshBits s 64
    .next (if f.locs.all fun p => locKeyed s p.2 then s else takeException t h 5 va)

end Sys2Proof.Machine
end

