-- ==== Sys2Proof/Machine/Port.lean ====
section
/-!
DEFINITION. Memory ports (spec/10 R199, R201; spec/08 R155): patterns, an engine's accesses to memory, and the two transfers
of a port: elements into a queue, and tokens out of one.
-/
namespace Sys2Proof.Machine

/-! ### An engine's accesses -/

/-- How an engine's access fails: a page fault to park, or a fault with a cause. -/
inductive Stop where
  | page (s : State) (va kind : Nat)
  | bad (s : State) (va cause : Nat)

/-- Is it the loss of the host link that makes an access fail (spec/14 R264)? -/
def linkLost (s : State) (c : ACtx) (k : AKind) (u : Use) (va : Nat) : Bool :=
  !s.io.linkUp && match (translate (updIo s fun io => { io with linkUp := true }) c k u va).2 with
    | .ok l => locHost l
    | .error _ => false

/-- Translate for an engine. An access to host memory with the link down has cause 50 (spec/08 R167). -/
def engLoc (s : State) (c : ACtx) (k : AKind) (u : Use) (va : Nat) : Except Stop (State × Loc) :=
  match translate s c k u va with
  | (s, .ok l) => .ok (s, l)
  | (s, .error (.page kind)) => .error (.page s va kind)
  | (s, .error .access) => .error (.bad s va (if linkLost s c k u va then 50 else accessCause k))
  | (s, .error .poison) => .error (.bad s va 51)

/-- Read n aligned bytes, and whether they are poisoned. -/
def engReadP (s : State) (c : ACtx) (va n : Nat) : Except Stop (State × Nat × Bool) :=
  if va % n ≠ 0 then .error (.bad s va 4)
  else do
    let (s, l) ← engLoc s c .load .engine va
    let s := lookUp s c.core l
    .ok (s, lookRead s c.core l n, locPoisoned s l n)

/-- Read n aligned bytes that are consumed: poison is cause 51. -/
def engRead (s : State) (c : ACtx) (va n : Nat) : Except Stop (State × Nat) := do
  let (s, v, bad) ← engReadP s c va n
  if bad then .error (.bad s va 51) else .ok (s, v)

/-- Write n aligned bytes. -/
def engWrite (s : State) (c : ACtx) (va n v : Nat) : Except Stop State :=
  if va % n ≠ 0 then .error (.bad s va 6)
  else do
    let (s, l) ← engLoc s c .store .engine va
    .ok (lookWrite s c l n v)

/-- Read w bits from bit `lo` of a byte; a field that crosses the byte reads the next one too. -/
def engReadBits (s : State) (c : ACtx) (va lo w : Nat) : Except Stop (State × Nat × Bool) := do
  let (s, a, p) ← engReadP s c va 1
  if lo + w ≤ 8 then .ok (s, (a >>> lo) % 2 ^ w, p)
  else
    let (s, b, q) ← engReadP s c (va + 1) 1
    .ok (s, ((a + 256 * b) >>> lo) % 2 ^ w, p || q)

/-- Replace w bits from bit `lo` of a byte. -/
def engWriteBits (s : State) (c : ACtx) (va lo w v : Nat) : Except Stop State := do
  let (s, l) ← engLoc s c .store .engine va
  let put (s : State) (l : Loc) (lo w v : Nat) : State :=
    let s := lookUp s c.core l
    lookWrite s c l 1 (withField (lookRead s c.core l 1) (lo + w - 1) lo v)
  if lo + w ≤ 8 then .ok (put s l lo w v)
  else
    let (s, l2) ← engLoc s c .store .engine (va + 1)
    let k := 8 - lo
    .ok (put (put s l lo k v) l2 0 (w - k) (v / 2 ^ k))

/-- Read an element at its place (spec/17 R371), and whether it is poisoned. -/
def engReadPlace (s : State) (c : ACtx) (f : Fmt) (p : Nat × Nat × Nat) : Except Stop (State × Nat × Bool) :=
  if fmtIsPe f || fmtSew f == 4 then engReadBits s c p.1 p.2.1 p.2.2
  else do
    let (s, v, bad) ← engReadP s c p.1 (p.2.2 / 8)
    .ok (s, inContainer f v, bad)

/-- Poison the word at an address that has just been written, where what was moved there was poisoned (spec/13 R261). -/
def engPoison (s : State) (c : ACtx) (va : Nat) (bad : Bool) : Except Stop State :=
  if bad then do
    let (s, l) ← engLoc s c .store .engine va
    .ok (locSetPoison s l true)
  else .ok s

/-- Write an element at its place, poisoned or not. -/
def engWritePlace (s : State) (c : ACtx) (f : Fmt) (p : Nat × Nat × Nat) (v : Nat) (bad : Bool) : Except Stop State := do
  let s ← if fmtIsPe f || fmtSew f == 4 then engWriteBits s c p.1 p.2.1 p.2.2 v
    else engWrite s c p.1 (p.2.2 / 8) (inContainer f v)
  engPoison s c p.1 bad

/-! ### Patterns (spec/10 Table 10-4) -/

/-- Elements that stand or fall together in a store: a block, or the two of a byte. -/
def patUnit (p : Pat) : Nat :=
  if blkOf p.f p.blk ≠ 0 then blkOf p.f p.blk else if fmtSew p.f = 4 then 2 else 1

/-- Is a descriptor valid (spec/10 R199)? A block that a token cannot hold is refused too (spec/08 R149). -/
def descOk (d : AMap Word) : Bool :=
  let w (i : Nat) := (aget 0 d i).toNat
  let p := patOf d
  let al : Int := if fmtIsPe p.f || fmtSew p.f == 4 then 1 else ((fmtSew p.f / 8 : Nat) : Int)
  fieldOf (w 3) 39 37 == 0 && !bitOf (w 3) 47 && fieldOf (w 3) 63 48 == 0 && w 7 == 0 &&
    (vtypeOf (fieldOf (w 3) 36 32 * 8 + p.blk * 256)).isSome &&
    p.rowelem != 0 && p.cnt0 != 0 && p.cnt1 != 0 && p.cnt2 != 0 && p.rowelem % patUnit p == 0 &&
    (p.base : Int) % al == 0 && (p.cnt0 == 1 || p.str0 % al == 0) && (p.cnt1 == 1 || p.str1 % al == 0) &&
    (p.cnt2 == 1 || p.str2 % al == 0) && tokFmtOk p.f p.blk

/-- A position in a pattern. -/
structure Pos where
  i0 : Nat
  i1 : Nat
  i2 : Nat
  off : Nat
deriving DecidableEq, Repr

/-- Has the pattern been passed? -/
def patDone (p : Pat) (x : Pos) : Bool := decide (p.cnt2 ≤ x.i2)

/-- The start of a row. -/
def rowBase (p : Pat) (i0 i1 i2 : Nat) : Nat :=
  (((p.base : Int) + i0 * p.str0 + i1 * p.str1 + i2 * p.str2) % (2 ^ 64 : Nat)).toNat

/-- The place of the element at a position. -/
def patPlace (p : Pat) (x : Pos) : Nat × Nat × Nat := elemPlace p.f (rowBase p x.i0 x.i1 x.i2) x.off

/-- The address of the scale of the block at a position: rows' scales follow each other. -/
def patScale (p : Pat) (x : Pos) : Nat :=
  let b := blkOf p.f p.blk
  let row := x.i0 + p.cnt0 * (x.i1 + p.cnt1 * x.i2)
  (p.sbase + (row * (p.rowelem / b) + x.off / b) * scaleBytes p.f) % 2 ^ 64

/-- The position k elements on, within a row or at its end. -/
def patStep (p : Pat) (x : Pos) (k : Nat) : Pos :=
  if x.off + k < p.rowelem then { x with off := x.off + k }
  else if x.i0 + 1 < p.cnt0 then { x with off := 0, i0 := x.i0 + 1 }
  else if x.i1 + 1 < p.cnt1 then { x with off := 0, i0 := 0, i1 := x.i1 + 1 }
  else { x with off := 0, i0 := 0, i1 := 0, i2 := x.i2 + 1 }

/-- A lower bound of the addresses that a pattern has still to pass: the rest of this row, and the rows behind it. -/
def patLow (p : Pat) (x : Pos) : Nat :=
  let rows := [(x.i0, x.i1, x.i2, x.off)] ++ (if x.i0 + 1 < p.cnt0 then [(x.i0 + 1, x.i1, x.i2, 0)] else []) ++
    (if x.i1 + 1 < p.cnt1 then [(0, x.i1 + 1, x.i2, 0)] else []) ++
    (if x.i2 + 1 < p.cnt2 then [(0, 0, x.i2 + 1, 0)] else [])
  (rows.map fun r => (patPlace p ⟨r.1, r.2.1, r.2.2.1, r.2.2.2⟩).1).foldl min (2 ^ 64)

/-- Advance BASE of the interlock entry of a port whose range completes in ascending order (spec/07 R138). -/
def portAdvance (s : State) (core src : Nat) (p : Pat) (x : Pos) : State :=
  if patDone p x ∨ (p.cnt0 > 1 ∧ p.str0 < 0) ∨ (p.cnt1 > 1 ∧ p.str1 < 0) ∨ (p.cnt2 > 1 ∧ p.str2 < 0) then s
  else match (coreOf s core).arit.find? fun kv => kv.2.src == src with
    | none => s
    | some kv =>
      let low := aritVa s core (patLow p x)
      if kv.2.base < low then updCore s core fun r => { r with arit := aput r.arit kv.1 { kv.2 with base := low } } else s

/-! ### Loads into a queue -/

/-- Elements of the next piece: within the row, and within the pending token. -/
def loadCount (p : Pat) (x : Pos) (pfill : Nat) : Nat :=
  let room := (if pfill = 32 then 32 else 32 - pfill) * 8 / fmtSew p.f
  min (p.rowelem - x.off) room

/-- The bytes of w-bit piece k, as a mask, where they are poisoned. -/
def poiMask (w k : Nat) (bad : Bool) : Nat := if bad then (2 ^ max 1 (w / 8) - 1) * 2 ^ (w * k / 8) else 0

/-- Read n elements from a position of a row, packed, and the poisoned bytes. -/
def loadElems (s : State) (c : ACtx) (p : Pat) (x : Pos) (n : Nat) : Except Stop (State × Nat × Nat) :=
  (List.range n).foldlM (fun (acc : State × Nat × Nat) k => do
    let (s, v, bad) ← engReadPlace acc.1 c p.f (patPlace p { x with off := x.off + k })
    .ok (s, acc.2.1 + v % 2 ^ fmtSew p.f * 2 ^ (fmtSew p.f * k), acc.2.2 ||| poiMask (fmtSew p.f) k bad)) (s, 0, 0)

/-- Read the scales of n elements from a position, packed, and the poisoned bytes. -/
def loadScales (s : State) (c : ACtx) (p : Pat) (x : Pos) (n : Nat) : Except Stop (State × Nat × Nat) :=
  let b := blkOf p.f p.blk
  if b = 0 then .ok (s, 0, 0)
  else (List.range (n / b)).foldlM (fun (acc : State × Nat × Nat) j => do
    let (s, v, bad) ← engReadP acc.1 c (patScale p { x with off := x.off + j * b }) (scaleBytes p.f)
    .ok (s, acc.2.1 + v * 2 ^ (8 * scaleBytes p.f * j), acc.2.2 ||| poiMask (8 * scaleBytes p.f) j bad)) (s, 0, 0)

/-- The piece of a load: state, what to pack, its elements. -/
def loadPiece (s : State) (c : ACtx) (p : Pat) (x : Pos) (pfill : Nat) : Except Stop (State × Pack × Nat) := do
  let n := loadCount p x pfill
  let (s, v, poi) ← loadElems s c p x n
  let (s, sc, poiS) ← loadScales s c p x n
  .ok (s, ⟨p.f, p.blk, n * fmtSew p.f / 8, v, sc, poi, poiS⟩, n)

/-! ### Stores out of a queue -/

/-- What a store of a token's blocks came to: state, elements written, the position after them, whether the next block
meets the bound, and the fault that stopped it. -/
structure StoreRun where
  s : State
  n : Nat
  x : Pos
  bound : Bool := false
  stop : Option Stop := none

/-- Does the next unit pass the bound, or lie past the pattern? -/
def unitBlocked (p : Pat) (x : Pos) : Bool :=
  let u := patUnit p
  let pl := patPlace p x
  patDone p x || decide (p.bound < pl.1 + rowBytes p u)

/-- Write one unit, its first k elements and then its scale, with the poisoned bytes of each. -/
def storeUnit (s : State) (c : ACtx) (p : Pat) (x : Pos) (k data scale poi poiS : Nat) : Except Stop State := do
  let w := fmtSew p.f
  let s ← (List.range k).foldlM (fun s k =>
    engWritePlace s c p.f (patPlace p { x with off := x.off + k }) (elemOf w data k) (poi &&& poiMask w k true != 0)) s
  if blkOf p.f p.blk = 0 then .ok s
  else do
    let s ← engWrite s c (patScale p x) (scaleBytes p.f) scale
    engPoison s c (patScale p x) (poiS % 2 ^ scaleBytes p.f != 0)

/-- Write the units of a token; a unit that LAST cuts short is written as far as it goes. The counter bounds them. -/
def storeUnits : Nat → State → ACtx → Pat → Pos → Nat → Nat → Nat → Nat → Nat → Nat → StoreRun
  | 0, s, _, _, x, _, _, _, _, _, n => { s := s, n := n, x := x }
  | k + 1, s, c, p, x, data, scales, poi, poiS, left, n =>
    let u := patUnit p
    if left = 0 then { s := s, n := n, x := x }
    else if unitBlocked p x then { s := s, n := n, x := x, bound := true }
    else match storeUnit s c p x (min u left) data scales poi poiS with
      | .ok s =>
        storeUnits k s c p (patStep p x u) (data >>> (fmtSew p.f * u)) (scales >>> (8 * scaleBytes p.f))
          (poi >>> (fmtSew p.f * u / 8)) (poiS >>> scaleBytes p.f) (left - u) (n + min u left)
      | .error e =>
        let s := match e with | .page s _ _ => s | .bad s _ _ => s
        { s := s, n := n, x := x, stop := some e }

/-- A token with its first bytes taken away. -/
def trimTok (t : Tok) (n : Nat) : Tok := dataTok (t.pay >>> (8 * n)) (t.bytes - n) t.last

/-- The head token of a store port without its first n bytes, and its scale token without its first b scales. -/
def trimHead (c : CoreSt) (p : Pat) (rp n b : Nat) : CoreSt :=
  let sc := tokScaled p.f p.blk
  let k := if sc then rp + 1 else rp
  let t := tokAt c p.cq k
  let d := setPoi (tokPut c p.cq k (trimTok t n)) p.cq k (poiAt c p.cq k >>> n)
  if sc then
    let m := scaleBytes p.f * b
    setPoi (tokPut d p.cq rp (scaleTok ((tokAt c p.cq rp).pay >>> (8 * m)) (tokBlocks p.f p.blk (t.bytes - n) * scaleBytes p.f)))
      p.cq rp (poiAt c p.cq rp >>> m)
  else d

end Sys2Proof.Machine
end

