-- ==== Sys2Proof/Machine/Stream.lean ====
section
/-!
DEFINITION. Software streams (spec/10 R199 to R202; spec/16 R337, R338).
-/
namespace Sys2Proof.Machine

def streamOf (c : CoreSt) (p : Nat) : Stream := aget {} c.streams p
def setStream (s : State) (core p : Nat) (r : Stream) : State :=
  updCore s core fun c => { c with streams := aput c.streams p r }

/-- Is a port's stream pending or running? -/
def streamBusy (c : CoreSt) (p : Nat) : Bool := (streamOf c p).state == 1 || (streamOf c p).state == 2

/-- SQCMD (spec/16 R337). It stalls while an earlier transfer of the hart to the same bytes has not started (spec/07 R137). -/
def execSqcmd (p : Fin 16) (a : RegIx) (s : State) : Host.Outcome State Fault Refusal :=
  let i : Instr := .sqcmd p a
  finish i (do
    let va := (rdX s a).toNat
    if va % 64 ≠ 0 then .error (.trap s 4 (w64 va))
    else
      let (s, r) ← readRecord s va 64 24
      let d := descWords r
      orTrap (descOk d) s 26 (w64 va)
      let c := coreOf s (myCore s)
      orTrap (!(qOf c (patOf d).cq).owned) s 28 (wordOf i)
      let (lo, hi) := patRange (patOf d)
      let st := (patOf d).store
      if streamBusy c p.val || pendMeets s (myCore s) (mySlot s) lo (hi - lo) st || armMeets s (myCore s) (mySlot s) lo (hi - lo) st
      then .error (.wait s)
      else
        let st : Stream := { desc := d, state := 1, ctx := some (hartCtx s s.cur) }
        .ok (nextPc (drainWc (setStream s (myCore s) p.val st) s.cur)))

/-- The word of Table 10-5. -/
def streamWord (r : Stream) : Nat := r.state + r.endc * 4 + r.cause * 16 + r.done % 2 ^ 32 * 2 ^ 32

/-- SQWAIT (spec/16 R338). -/
def execSqwait (p : Fin 16) (d : RegIx) (s : State) : Host.Outcome State Fault Refusal :=
  finish (.sqwait p d) (
    let c := coreOf s (myCore s)
    if streamBusy c p.val then .error (.wait s) else .ok (nextPc (wrX s d (w64 (streamWord (streamOf c p.val))))))

/-- Does a chain slot that is not IDLE name a port? -/
def portNamed (c : CoreSt) (p : Nat) : Bool :=
  c.slots.any fun kv => decide (kv.2.state ≠ .idle) && kv.2.nodes.any fun n => n.1 == 2 && n.2 == p

/-- End a stream. -/
def streamEnd (s : State) (core p : Nat) (endc cause : Nat) : State :=
  let s := match (coreOf s core).arit.find? fun kv => kv.2.src == p with
    | some kv => aritLeave s core kv.1
    | none => s
  let r := streamOf (coreOf s core) p
  setStream s core p { r with state := 3, endc := endc, cause := cause, park := none, fatal := false }

/-- End a stream on a fault; causes 31 and 50 are recorded in the fault log too (spec/13 R245). -/
def streamFault (s : State) (core p : Nat) (r : Stream) (cause va : Nat) : State :=
  let s := match r.ctx with
    | some c => if cause = 31 ∨ cause = 50 then logFault s c.ctxbase c.tid cause (ghartOf s (8 * core + c.slot)) 2 (w64 va) 0 else s
    | none => s
  streamEnd s core p 2 cause

/-- STREAM_START (spec/10 R200): the dispatcher starts a pending stream. -/
def execStreamStart (core : Nat) (port : Fin 16) (s : State) : Host.Outcome State Fault Refusal :=
  let c := coreOf s core
  let r := streamOf c port.val
  let p := patOf r.desc
  let (lo, hi) := patRange p
  match r.ctx with
  | none => .next s
  | some x =>
    if r.state ≠ 1 ∨ portNamed c port.val = true ∨ aritRoom c = 0 ∨ aritBlocks s core x.slot lo (hi - lo) p.store = true ∨
        redMeets s core x.slot lo (hi - lo) = true then
      .next s
    else
      let (s, _) := aritEnter s core ⟨p.store, !p.store, port.val, x.slot, lo, hi⟩
      let s := if p.store then s else updCore s core fun c =>
        setQ c p.cq { qOf c p.cq with qtag := BitVec.ofNat 8 (tagOf p.f p.blk), tagset := true }
      .next (setStream s core port.val { r with state := 2 })

/-- Park a stream. -/
def streamPark (s : State) (core p : Nat) (x : ACtx) (va kind : Nat) : State :=
  let (s, t) := postFault s x va kind p (.stream core p)
  setStream s core p { streamOf (coreOf s core) p with park := some t }

/-- How a stream's access fault ends it. -/
def streamStop (_ : State) (core p : Nat) (r : Stream) (x : ACtx) (e : Stop) : State :=
  match e with
  | .page t va kind => streamPark t core p x va kind
  | .bad t va cause => streamFault t core p r cause va

def posOf (r : Stream) : Pos := ⟨r.i0, r.i1, r.i2, r.off⟩
def withPos (r : Stream) (x : Pos) : Stream := { r with i0 := x.i0, i1 := x.i1, i2 := x.i2, off := x.off }

/-- A load stream appends its next piece. -/
def streamLoad (s : State) (core p : Nat) (r : Stream) (x : ACtx) : State :=
  let pt := patOf r.desc
  let q := qOf (coreOf s core) pt.cq
  if !decide ((if tokScaled pt.f pt.blk then 2 else 1) ≤ qRoom q) then s
  else match loadPiece s x pt (posOf r) q.pfill with
    | .error e => streamStop s core p r x e
    | .ok (s, k, n) =>
      let pos := patStep pt (posOf r) n
      let last := patDone pt pos
      let s := updCore s core fun c => emitPack c pt.cq k last false
      let s := portAdvance (setStream s core p { withPos r pos with done := r.done + n }) core p pt pos
      if last then streamEnd s core p 0 0 else s

/-- A store stream writes what it can of the head token; what is not written stays at the head. -/
def streamStore1 (s : State) (core p : Nat) (r : Stream) (x : ACtx) : State :=
  let pt := patOf r.desc
  let c := eatMarks 512 (coreOf s core) pt.cq
  let s := setCore s core c
  let q := qOf c pt.cq
  if qOcc q 0 = 0 then s
  else if q.qtag.toNat ≠ tagOf pt.f pt.blk then streamFault s core p r 25 0
  else
    let sc := tokScaled pt.f pt.blk
    let k := if sc then 1 else 0
    let t := tokAt c pt.cq (rpOf q 0 + k)
    let scales := if sc then (tokAt c pt.cq (rpOf q 0)).pay else 0
    let els := t.bytes * 8 / fmtSew pt.f
    let poi := poiAt c pt.cq (rpOf q 0 + k)
    let poiS := if sc then poiAt c pt.cq (rpOf q 0) else 0
    let run := storeUnits (els + 1) s x pt (posOf r) t.pay scales poi poiS els 0
    let nb := run.n * fmtSew pt.f / 8
    let s := updCore run.s core fun c =>
      if nb = t.bytes then tokTake c pt.cq 0 (1 + k)
      else trimHead c pt (rpOf q 0) nb (run.n / blkOf pt.f pt.blk)
    let r := { withPos r run.x with done := r.done + run.n }
    let s := portAdvance (setStream s core p r) core p pt run.x
    match run.stop with
    | some e => match e with
      | .page _ va kind => streamPark s core p x va kind
      | .bad _ va cause => streamFault s core p r cause va
    | none =>
      if run.bound then streamEnd s core p 1 0
      else if nb = t.bytes && t.last then streamEnd s core p 0 0 else s

/-- STREAM_TRANSFER (spec/10 R201): a running stream moves its next piece. -/
def execStreamTransfer (core : Nat) (port : Fin 16) (s : State) : Host.Outcome State Fault Refusal :=
  let r := streamOf (coreOf s core) port.val
  match r.ctx with
  | none => .next s
  | some x =>
    .next (if r.state ≠ 2 ∨ r.park.isSome = true then s
      else if r.fatal then streamFault s core port.val r 31 r.fva.toNat
      else if streamStore r then streamStore1 s core port.val r x else streamLoad s core port.val r x)

end Sys2Proof.Machine
end

