-- ==== Sys2Proof/Machine/ChainDesc.lean ====
section
/-!
DEFINITION. Chain slots, their nodes and edges, the descriptor with its checks (spec/08 R152, R157, R158), and aim blocks
(R156).
-/
namespace Sys2Proof.Machine

/-! ### Slots -/

def slotOf (s : State) (core k : Nat) : ChSlot := aget {} (coreOf s core).slots k
def setSlot (s : State) (core k : Nat) (r : ChSlot) : State :=
  updCore s core fun c => { c with slots := aput c.slots k r }
def updSlot (s : State) (core k : Nat) (f : ChSlot → ChSlot) : State := setSlot s core k (f (slotOf s core k))
def latchOf (sl : ChSlot) (n : Nat) : NodeLatch := aget {} sl.latch n
def setLatch (sl : ChSlot) (n : Nat) (l : NodeLatch) : ChSlot := { sl with latch := aput sl.latch n l }
def updLatch (s : State) (core k n : Nat) (f : NodeLatch → NodeLatch) : State :=
  updSlot s core k fun sl => setLatch sl n (f (latchOf sl n))

def nodeKind (sl : ChSlot) (n : Nat) : Nat := (sl.nodes.getD n (15, 0)).1
def nodeIx (sl : ChSlot) (n : Nat) : Nat := (sl.nodes.getD n (15, 0)).2
def nodeList (sl : ChSlot) : List Nat := List.range sl.nodes.length

/-- Node kinds (spec/08 Table 8-4). -/
def kVs : Nat := 0
def kMx : Nat := 1
def kMp : Nat := 2
def kAg : Nat := 3
def kSh : Nat := 4
def kFc : Nat := 5
def kRt : Nat := 6
def kLl : Nat := 7

/-- The codes of Table 8-10. -/
def chCode : ChState → Nat
  | .idle => 0 | .configured => 1 | .running => 2 | .draining => 3 | .broken => 4 | .temporal => 5 | .bound => 6
  | .detached => 7 | .faulted => 8

/-- Is a run under way: RUNNING, DRAINING, BROKEN or TEMPORAL? -/
def chActive (x : ChState) : Bool :=
  match x with
  | .running | .draining | .broken | .temporal => true
  | _ => false

/-! ### Edges: FROM, OPORT, TO, IPORT, CQ -/

abbrev Edge := Nat × Nat × Nat × Nat × Nat

/-- The ordinal by which an edge refers to a software end (notes/assumptions/56). -/
def softEnd : Nat := 31
def eFrom (e : Edge) : Nat := e.1
def eOut (e : Edge) : Nat := e.2.1
def eTo (e : Edge) : Nat := e.2.2.1
def eIn (e : Edge) : Nat := e.2.2.2.1
def eQ (e : Edge) : Nat := e.2.2.2.2

/-- Does software feed the edge's queue, or drain it (spec/08 R151)? A slot with 32 nodes has a node 31. -/
def softFrom (n : Nat) (e : Edge) : Bool := eFrom e == softEnd && decide (n ≤ softEnd)
def softTo (n : Nat) (e : Edge) : Bool := eTo e == softEnd && decide (n ≤ softEnd)

/-- The consumer number of an edge: its place among the edges of its queue (spec/08 R150). -/
def consumerOf (es : List Edge) (e : Edge) : Nat := ((es.filter fun x => eQ x == eQ e).findIdx? (· == e)).getD 0

/-- The inputs of a node: port, queue, consumer. -/
def inputsOf (sl : ChSlot) (n : Nat) : List (Nat × Nat × Nat) :=
  sl.edges.filterMap fun e => if eTo e = n then some (eIn e, eQ e, consumerOf sl.edges e) else none

/-- The queues that a node fills. -/
def outputsOf (sl : ChSlot) (n : Nat) : List Nat := (List.range 16).filter fun q => sl.edges.any fun e => eFrom e == n && eQ e == q

/-- The input of a port. -/
def inputAt (sl : ChSlot) (n port : Nat) : Option (Nat × Nat) :=
  ((inputsOf sl n).find? fun x => x.1 == port).map fun x => x.2

/-- The producer node of a queue; none where software feeds it. -/
def producerOf (sl : ChSlot) (q : Nat) : Option Nat :=
  (sl.edges.find? fun e => eQ e == q && !softFrom sl.nodes.length e).map eFrom

/-- The edges that have a consumer node. -/
def nodeEdges (sl : ChSlot) : List Edge := sl.edges.filter fun e => !softTo sl.nodes.length e

/-- The edges from a node to a node. -/
def innerEdges (sl : ChSlot) : List Edge := (nodeEdges sl).filter fun e => !softFrom sl.nodes.length e

/-- The inputs of a node that a node feeds. -/
def fedInputs (sl : ChSlot) (n : Nat) : List (Nat × Nat × Nat) := (inputsOf sl n).filter fun e => (producerOf sl e.2.1).isSome

/-- The queues of a slot, ascending. -/
def slotQs (sl : ChSlot) : List Nat := (List.range 16).filter fun q => sl.edges.any fun e => eQ e == q

/-- A source: a node that no node feeds, and that so begins the markers of its slot. A lane link that receives is fed by its
neighbour. -/
def isSource (sl : ChSlot) (n : Nat) : Bool := nodeKind sl n != kLl && (fedInputs sl n).isEmpty

/-- The nodes in an order in which producers stand before consumers; shorter than the nodes where the edges form a cycle.
The counter bounds the rounds. -/
def topoFrom (es : List Edge) : Nat → List Nat → List Nat → List Nat
  | 0, _, acc => acc
  | k + 1, left, acc =>
    let ready := left.filter fun n => es.all fun e => eTo e != n || !left.contains (eFrom e)
    topoFrom es k (left.filter fun n => !ready.contains n) (acc ++ ready)

def topo (n : Nat) (es : List Edge) : List Nat := topoFrom es (n + 1) (List.range n) []

/-- The nodes reachable from some nodes. -/
def reachFrom (es : List Edge) : Nat → List Nat → List Nat
  | 0, l => l
  | k + 1, l =>
    let next := ((es.filter fun e => l.contains (eFrom e)).map eTo).filter fun n => !l.contains n
    reachFrom es k (l ++ next.dedup)

/-! ### Lane links (spec/01 R12, spec/08 Table 8-4) -/

/-- The neighbour of a core at a port: ll0 to ll3 on the same die, 4 and 5 across a seam. -/
def llNeighbour (core ix : Nat) : Option Nat :=
  let r := rowOfCore core
  let c := colOfCore core
  let same (o : Nat) : Option Nat := if dieOfCore o = dieOfCore core then some o else none
  if ix = 0 then (if r % 8 = 0 then none else same (core - 24))
  else if ix = 1 then (if c % 12 = 11 then none else same (core + 1))
  else if ix = 2 then (if r % 8 = 7 then none else same (core + 24))
  else if ix = 3 then (if c % 12 = 0 then none else same (core - 1))
  else if ix = 4 then (if r = 7 then some (core + 24) else if r = 8 then some (core - 24) else none)
  else if ix = 5 then (if c = 11 then some (core + 1) else if c = 12 then some (core - 1) else none)
  else none

/-- The facing port. -/
def llFacing (ix : Nat) : Nat := if ix < 4 then (ix + 2) % 4 else ix

/-! ### The descriptor (spec/08 Tables 8-6 to 8-9) -/

/-- A descriptor taken apart. -/
structure ChDesc where
  hdr : AMap Word
  nodes : List (Nat × Nat)
  edges : List Edge
  stages : List (Nat × StageRec)

/-- A reader of n bytes at an offset. -/
abbrev Reader := Nat → Nat → Nat

def hdrNodes (rd : Reader) : Nat := rd 6 1
def hdrEdges (rd : Reader) : Nat := rd 7 1

/-- Is the header valid for a slot? -/
def hdrOk (rd : Reader) (k : Nat) : Bool :=
  rd 0 4 == 0x4E484358 && rd 4 2 == 0x0100 && decide (1 ≤ hdrNodes rd) && decide (hdrNodes rd ≤ 32) &&
    decide (hdrEdges rd ≤ 48) && rd 8 1 == k && rd 9 1 / 2 == 0 && rd 10 2 == 0 && rd 20 4 == 0 && rd 24 8 == 0

/-- The node records at an offset. -/
def rdNodes (rd : Reader) (o n : Nat) : List (Nat × Nat) :=
  (List.range n).map fun i => (fieldOf (rd (o + 16 * i) 8) 3 0, fieldOf (rd (o + 16 * i) 8) 15 8)

/-- The edge records at an offset. -/
def rdEdges (rd : Reader) (o n : Nat) : List Edge :=
  (List.range n).map fun i =>
    let w := rd (o + 8 * i) 8
    (fieldOf w 4 0, fieldOf w 7 5, fieldOf w 12 8, fieldOf w 15 13, fieldOf w 19 16)

/-- The largest INDEX of a kind; none for a reserved kind. -/
def maxIndex (part kind : Nat) : Option Nat :=
  match kind with
  | 0 => some (part - 1)
  | 1 => some 0
  | 2 => some 15
  | 3 => some 3
  | 4 => some 1
  | 5 => some 1
  | 6 => some 0
  | 7 => some 5
  | _ => none

/-- Has a kind the input port? -/
def hasIn (kind port : Nat) : Bool :=
  match kind with
  | 0 => decide (port < 8)
  | 1 => decide (port < 3)
  | 2 => port == 0
  | 3 => decide (port < 2)
  | 4 => decide (port < 2)
  | 5 => decide (port < 2)
  | 6 => decide (port < 2)
  | 7 => port == 0
  | _ => false

/-- Has a kind the output port? -/
def hasOut (kind port : Nat) : Bool :=
  match kind with
  | 0 => decide (port < 8)
  | 6 => false
  | 1 | 2 | 3 | 4 | 5 | 7 => port == 0
  | _ => false

/-- The other slots of a core that are not IDLE. -/
def otherSlots (c : CoreSt) (k : Nat) : List ChSlot :=
  (c.slots.filter fun kv => kv.1 != k && decide (kv.2.state ≠ .idle)).map (·.2)

/-- The unit that a node record names: on a corner core ll4 is one port, whichever seam it reaches (spec/01 R12). -/
def unitOf (x : Nat × Nat) : Nat × Nat := if x = (7, 5) then (7, 4) else x

/-- Are the node records at an offset valid (spec/08 R158)? -/
def nodesOk (c : CoreSt) (core k : Nat) (rd : Reader) (o n : Nat) : Bool :=
  let ns := rdNodes rd o n
  (List.range n).all (fun i =>
    let w := rd (o + 16 * i) 8
    let x := ns.getD i (15, 0)
    fieldOf w 7 4 == 0 && w / 65536 == 0 && rd (o + 16 * i + 8) 8 == 0 &&
      (match maxIndex c.part x.1 with | some m => decide (x.2 ≤ m) | none => false) &&
      (x.1 != kLl || (llNeighbour core x.2).isSome)) &&
    decide (ns.map unitOf).Nodup && (otherSlots c k).all fun sl => sl.nodes.all fun x => !(ns.map unitOf).contains (unitOf x)

/-- Are the two ends of an edge there: a port of a node each, or one software end with its port number 0? -/
def edgeEnds (ns : List (Nat × Nat)) (e : Edge) : Bool :=
  let kind (i : Nat) : Nat := (ns.getD i (15, 0)).1
  let sf := softFrom ns.length e
  let st := softTo ns.length e
  !(sf && st) && (if sf then eOut e == 0 else decide (eFrom e < ns.length) && hasOut (kind (eFrom e)) (eOut e)) &&
    (if st then eIn e == 0 else decide (eTo e < ns.length) && hasIn (kind (eTo e)) (eIn e))

/-- Are the edge records at an offset valid? A queue that software drains has no other consumer. -/
def edgesOk (c : CoreSt) (k : Nat) (ns : List (Nat × Nat)) (rd : Reader) (o n : Nat) : Bool :=
  let es := rdEdges rd o n
  let kind (i : Nat) : Nat := (ns.getD i (15, 0)).1
  (List.range n).all (fun i => rd (o + 8 * i) 8 / 2 ^ 20 == 0) &&
    es.all (fun e => edgeEnds ns e &&
      (softTo ns.length e || (es.filter fun x => eTo x == eTo e && eIn x == eIn e).length == 1) &&
      es.all (fun x => eQ x != eQ e || (eFrom x == eFrom e && eOut x == eOut e)) &&
      decide ((es.filter fun x => eQ x == eQ e).length ≤ if softTo ns.length e then 1 else 4)) &&
    (List.range ns.length).all (fun i => kind i != kLl ||
      (decide ((es.filter fun e => eFrom e == i).length ≤ 1) && decide ((es.filter fun e => eTo e == i).length ≤ 1))) &&
    (List.range ns.length).all (fun i => kind i != kVs || es.any fun e => eTo e == i) &&
    (topo ns.length es).length == ns.length &&
    (otherSlots c k).all fun sl => sl.edges.all fun x => es.all fun e => eQ e != eQ x

/-- One stage record: ordinal, record, its end. -/
def rdStage (rd : Reader) (o : Nat) : Option (Nat × StageRec × Nat) :=
  let w := rd o 8
  let ic := fieldOf w 15 8
  let bc := fieldOf w 19 16
  let pad := (2 * bc + 3) / 4 * 4
  let bs := (List.range bc).map fun j => rd (o + 8 + 2 * j) 2
  if w / 2 ^ 20 = 0 ∧ 1 ≤ ic ∧ ic ≤ 32 ∧ 1 ≤ bc ∧ bc ≤ 8 ∧ bs.all (fun b => b / 1024 == 0) = true ∧
      (pad = 2 * bc ∨ rd (o + 8 + 2 * bc) 2 = 0) then
    some (fieldOf w 7 0, ⟨bs.map fun b => (fieldOf b 4 0, fieldOf b 8 5, bitOf b 9),
      (List.range ic).map fun j => rd (o + 8 + pad + 4 * j) 4, o + 8 + pad⟩, o + 8 + pad + 4 * ic)
  else none

/-- k stage records from an offset, and their end. -/
def rdStages (rd : Reader) : Nat → Nat → Option (List (Nat × StageRec) × Nat)
  | 0, o => some ([], o)
  | k + 1, o =>
    match rdStage rd o with
    | none => none
    | some (n, r, o2) =>
      match rdStages rd k o2 with
      | none => none
      | some (l, e) => some ((n, r) :: l, e)

/-- The vector stages of some nodes, ascending. -/
def vsNodes (ns : List (Nat × Nat)) : List Nat := (List.range ns.length).filter fun i => (ns.getD i (15, 0)).1 == kVs

/-- Are stage records valid for the nodes and edges? -/
def stagesOk (ns : List (Nat × Nat)) (es : List Edge) (st : List (Nat × StageRec)) : Bool :=
  decide (st.map (·.1) = vsNodes ns) &&
    st.all fun r => r.2.words.all stageWordOk &&
      r.2.binds.all fun b => es.any fun e => eQ e == b.2.1 && (if b.2.2 then eFrom e == r.1 else eTo e == r.1)

/-- The header's words. -/
def hdrWords (rd : Reader) : AMap Word := (List.range 4).filterMap fun i =>
  let w := w64 (rd (8 * i) 8)
  if w = 0 then none else some (i, w)

/-- The whole check of a descriptor (spec/08 R158). -/
def rdDesc (c : CoreSt) (core k : Nat) (rd : Reader) : Option ChDesc :=
  let n := hdrNodes rd
  let m := hdrEdges rd
  let eo := 32 + 16 * n
  let so := eo + 8 * m
  if hdrOk rd k = true ∧ nodesOk c core k rd 32 n = true then
    let ns := rdNodes rd 32 n
    let es := rdEdges rd eo m
    if edgesOk c k ns rd eo m = true then
      match rdStages rd (vsNodes ns).length so with
      | none => none
      | some (st, e) =>
        if rd 16 4 = e ∧ stagesOk ns es st = true then some ⟨hdrWords rd, ns, es, st⟩ else none
    else none
  else none

/-- The location of n bytes that lie in the own tile memory or the own SDM. -/
def ownLoc (core va n : Nat) : Option Loc :=
  if ownTileVa ≤ va ∧ va + n ≤ ownTileVa + 0x100000 then some (.tile core (va - ownTileVa))
  else if ownSdmVa ≤ va ∧ va + n ≤ ownSdmVa + 0x10000 then some (.sdm core (va - ownSdmVa))
  else none

/-- A reader from a location. -/
def locReader (s : State) (l : Loc) : Reader := fun o n => homeRead s (locAdd l o) n

/-- The stage record of a node. -/
def stageOf (sl : ChSlot) (n : Nat) : Option StageRec := (sl.stages.find? fun r => r.1 == n).map (·.2)

/-- The instruction words with which a firing runs: for each the word that CHCFG read, or the one that stands in the descriptor
now, where software has changed it, whichever it turns out to be (spec/08 R157). A poisoned word is cause 51. -/
def stageWords (s : State) (core : Nat) (sl : ChSlot) (r : StageRec) : Except Nat (State × List Nat) :=
  match ownLoc core (sl.desc.toNat + r.off) (4 * r.words.length) with
  | none => .ok (s, r.words)
  | some l =>
    if locPoisoned s l (4 * r.words.length) then .error 51
    else .ok (r.words.zipIdx.foldl (fun (acc : State × List Nat) p =>
      let now := homeRead s (locAdd l (4 * p.2)) 4
      if now = p.1 then (acc.1, acc.2 ++ [p.1])
      else
        let (b, t) := freshBits acc.1 1
        (t, acc.2 ++ [if b = 1 then now else p.1])) (s, []))

/-- The stage records that the descriptor at DESC holds for a slot's nodes and edges; none where it is no longer one. -/
def readStages (s : State) (core : Nat) (sl : ChSlot) : Option (List (Nat × StageRec) × Nat) :=
  let so := 32 + 16 * sl.nodes.length + 8 * sl.edges.length
  if vsNodes sl.nodes = [] then some ([], so)
  else match ownLoc core sl.desc.toNat so with
    | none => none
    | some l => rdStages (locReader s l) (vsNodes sl.nodes).length so

/-- The pattern of a memory port's node, as its run reads it. -/
def portPat (sl : ChSlot) (n : Nat) : Option Pat := (sl.pats.find? fun p => p.1 == nodeIx sl n).map fun p => patOf p.2

/-! ### Aim blocks (spec/08 R156, Table 8-5) -/

/-- Word w of the entry of node n in a set of entries. -/
def aimW (es : AMap Word) (n w : Nat) : Nat := (aget 0 es (4 * n + w)).toNat

/-- Are the reserved words of an entry zero? -/
def aimReserved (kind : Nat) (w : Nat → Nat) : Bool :=
  match kind with
  | 0 => true
  | 1 | 3 | 4 | 6 => w 2 == 0 && w 3 == 0
  | 2 | 5 => w 1 == 0 && w 2 == 0 && w 3 == 0
  | _ => w 0 == 0 && w 1 == 0 && w 2 == 0 && w 3 == 0

/-- Does every word of a stage program pass the class and group rules under a vtype? Each body runs on no element. -/
def stageGroupsOk (s : State) (core g vt : Nat) (words : List Nat) : Bool :=
  let hk := 8 * core + g
  let t := setHart { s with cur := hk } hk (stageHart (hartOf s hk) vt 0 0 0 fun _ => 0)
  words.all fun w =>
    match decode (BitVec.ofNat 32 w) with
    | .error _ => false
    | .ok i =>
      match stageBody 1 i with
      | none => false
      | some f =>
        match f t with
        | .error (.trap _ 2 _) => false
        | _ => true

/-- Is an entry valid for a node? -/
def aimOk (s : State) (core : Nat) (sl : ChSlot) (n : Nat) (w : Nat → Nat) : Bool :=
  aimReserved (nodeKind sl n) w &&
    match nodeKind sl n with
    | 0 =>
      (vtypeOf (fieldOf (w 0) 11 0)).isSome &&
        (match stageOf sl n with
          | some r => stageGroupsOk s core (nodeIx sl n) (fieldOf (w 0) 11 0) r.words
          | none => true)
    | 1 => decide (fieldOf (w 0) 5 3 < 6) && decide (fieldOf (w 0) 8 6 < 6)
    | 3 =>
      match Fmt.ofCode (fieldOf (w 1) 4 0) with
      | some f => !subByte f && f != .scw && fmtBlkOk f 0
      | none => false
    | 5 => (Fmt.ofCode (fieldOf (w 0) 4 0)).isSome
    | 6 =>
      match VRedOp.ofCode (fieldOf (w 1) 2 0), Fmt.ofCode (fieldOf (w 1) 7 3) with
      | some o, some f => atFmtOk (vredAt o) f
      | _, _ => false
    | _ => true

/-- The entries of a block that was read as one number. -/
def aimWords (n r : Nat) : AMap Word := (List.range (4 * n)).filterMap fun i =>
  let w := w64 (elemOf 64 r i)
  if w = 0 then none else some (i, w)

/-- Is a whole block valid? -/
def aimBlockOk (s : State) (core : Nat) (sl : ChSlot) (es : AMap Word) : Bool :=
  (nodeList sl).all fun n => aimOk s core sl n (aimW es n)

end Sys2Proof.Machine
end

