-- ==== Sys2Proof/Machine/Matrix.lean ====
section
/-!
DEFINITION. The matrix engine (spec/09; spec/16 R316; spec/04 R73): tiles, control words, the down-converter, the checks at
issue, and what the engine does with an issued instruction.
-/
namespace Sys2Proof.Machine

/-! ### Tiles and control words (spec/09 R177, Table 9-3) -/

def tcwOf (c : CoreSt) (t : Nat) : Nat := (aget 0 c.tcw t).toNat
def tcwInt (w : Nat) : Bool := bitOf w 0
def tcwSpen (w : Nat) : Bool := bitOf w 1
def tcwSpn (w : Nat) : Nat := fieldOf w 7 2
/-- M of N:M. -/
def tcwSpm (w : Nat) : Nat := 4 * 2 ^ fieldOf w 9 8
def tcwMeta (w : Nat) : Nat := fieldOf w 14 10
def tcwDfmt (w : Nat) : Fmt := (Fmt.ofCode (fieldOf w 19 15)).getD .i8
def tcwDblk (w : Nat) : Nat := fieldOf w 21 20
def tcwDrm (w : Nat) : Nat := fieldOf w 24 22
def tcwFree (w : Nat) : Nat := fieldOf w 30 25
/-- Allocated columns of a tile. -/
def tcwCols (w : Nat) : Nat := 32 - tcwFree w
/-- The tag of the control word's accumulator type. -/
def tcwTag (w : Nat) : Nat := if tcwInt w then 0x02 else 0x09

def acTagOf (c : CoreSt) (t : Nat) : Nat := (aget 0x1F c.acTag t).toNat
def acBits (c : CoreSt) (t : Nat) : Nat := (aget 0 c.ac t).toNat
/-- Element (m, n) of a tile's bits. -/
def tileElem (g m n : Nat) : Nat := elemOf 32 g (32 * m + n)
def setTileElem (g m n v : Nat) : Nat := setElem 32 g (32 * m + n) v

def setTile (s : State) (core t g tag : Nat) : State :=
  updCore s core fun c =>
    { c with ac := aputC 0 c.ac t (BitVec.ofNat 32768 g), acTag := aputC 0x1F c.acTag t (BitVec.ofNat 8 tag) }

def setTcw (s : State) (core t w : Nat) : State :=
  updCore s core fun c => { c with tcw := aputC 0 c.tcw t (w64 w) }

/-- Does a tile carry its accumulator tag, or the cleared one? -/
def tileTagOk (c : CoreSt) (t : Nat) : Bool := acTagOf c t == tcwTag (tcwOf c t) || acTagOf c t == 0x1F

/-- Are a control word's fields ones that MTCW accepts (spec/09 R183)? -/
def tcwValid (w : Nat) : Bool :=
  !bitOf w 31 && w / 2 ^ 33 == 0 && decide (tcwFree w ≤ 32) && tcwDrm w != 7 &&
    (!tcwSpen w || (tcwSpn w != 0 && decide (tcwSpn w ≤ tcwSpm w))) &&
    match Fmt.ofCode (fieldOf w 19 15) with
    | some f => f != .scw && f != .raw && fmtBlkOk f (tcwDblk w)
    | none => false

/-! ### The down-converter (spec/09 R184) -/

/-- Convert the values of a row: patterns and scales. `bits` are the row's 32-bit elements. An integer that is only clamped meets
no rounding step, and takes no draw (notes/assumptions/55). -/
def downRow (isInt : Bool) (w : Nat) (rm : Rnd) (bits : List Nat) (st : NumSt) : List Nat × List Nat × NumSt :=
  let f := tcwDfmt w
  let blk := tcwDblk w
  let vals := bits.map fun b => elemVal (if isInt then .i32 else .fp32) 0 b 0 0
  let b := blkOf f blk
  if (isInt && f == .i32) || (!isInt && f == .fp32) then (bits, [], st)
  else if b = 0 then
    let one (acc : List Nat × NumSt) (v : FVal) : List Nat × NumSt :=
      if isInt && fmtIsInt f then
        let x : Int := match v with | .fin s m _ => if s then -(m : Int) else m | _ => 0
        let (r, c) := clipTo (fmtSew f) false .rne 0 x 0
        (r :: acc.1, acc.2.or (satFlag c))
      else
        let (r, st) := cvtOne f rm v acc.2
        (r :: acc.1, st)
    let (r, st) := vals.foldl one ([], st)
    (r.reverse, [], st)
  else
    (List.range ((vals.length + b - 1) / b)).foldl (fun (acc : List Nat × List Nat × NumSt) j =>
      let (sc, es, st) := cvtBlock f rm ((vals.drop (j * b)).take b) acc.2.2
      (acc.1 ++ es, acc.2.1 ++ [sc], st)) ([], [], st)

/-- The mode of DRM, 110 taking `xvrm` at issue. -/
def drmOf (w xvrm : Nat) : Rnd := if tcwDrm w = 6 then rndOfCode xvrm else rndOfCode (tcwDrm w)

/-- The tag of a down-converted row. -/
def downTag (w : Nat) : Nat := tagOf (tcwDfmt w) (tcwDblk w)

/-- The elements of row m of a tile, columns 0 to k - 1; unallocated columns read as zero. -/
def tileRow (c : CoreSt) (t m k : Nat) : List Nat :=
  let g := acBits c t
  (List.range k).map fun n => if n < tcwCols (tcwOf c t) then tileElem g m n else 0

/-! ### Sums of a K-pass (spec/04 R73) -/

/-- A running exact sum: a dyadic, the infinities and NaNs met, and whether all terms so far are negative zeros. -/
structure MxSum where
  m : Int := 0
  e : Int := 0
  nan : Bool := false
  pinf : Bool := false
  ninf : Bool := false
  allNegZero : Bool := true
  flags : Nat := 0

/-- Add a value. -/
def MxSum.add (a : MxSum) (v : FVal) : MxSum :=
  match v with
  | .nan _ => { a with nan := true }
  | .inf s => if s then { a with ninf := true } else { a with pinf := true }
  | .fin s m e =>
    if m = 0 then { a with allNegZero := a.allNegZero && s }
    else if a.m = 0 then { a with m := atExp s m e e, e := e, allNegZero := false }
    else
      let e0 := min a.e e
      { a with m := a.m * (2 ^ (a.e - e0).toNat : Nat) + atExp s m e e0, e := e0, allNegZero := false }

/-- Add a product. -/
def MxSum.addProd (a : MxSum) (x y : FVal) : MxSum :=
  let a := { a with flags := a.flags ||| sigFlags [x, y] }
  if isNaN x || isNaN y then { a with nan := true }
  else match mulExact x y with
    | some v => a.add v
    | none => { a with nan := true, flags := a.flags ||| flNV }

/-- The sum before its rounding, and the flags. -/
def MxSum.out (a : MxSum) : FOut × Nat :=
  if a.nan then (.nan, a.flags)
  else if a.pinf && a.ninf then (.nan, a.flags ||| flNV)
  else if a.pinf then (.inf false, a.flags)
  else if a.ninf then (.inf true, a.flags)
  else if a.m = 0 then (.zero a.allNegZero, a.flags)
  else (dyad (decide (a.m < 0)) a.m.natAbs a.e, a.flags)

/-- One pass into an FP32 accumulator: the new pattern and the flags. -/
def passFp (acc : Nat) (ps : List (FVal × FVal)) : Nat × Nat :=
  let a := elemVal .fp32 0 acc 0 0
  let s0 : MxSum := ({ flags := sigFlags [a] } : MxSum).add a
  let (x, fl) := (ps.foldl (fun s p => s.addProd p.1 p.2) s0).out
  -- the pass's own sum may be invalid besides, by opposite infinities among its products, whatever NaN it meets
  let own := ps.foldl (fun s p => s.addProd p.1 p.2) ({} : MxSum)
  let fl0 := own.flags ||| (if own.pinf && own.ninf then flNV else 0)
  let (r, fl2) := narrow (specOf .fp32) .rne 0 x
  (r, fl ||| fl0 ||| fl2)

/-- The integer of a value. -/
def intOfVal (v : FVal) : Int :=
  match v with
  | .fin s m e => if s then -((m * 2 ^ e.toNat : Nat) : Int) else (m * 2 ^ e.toNat : Nat)
  | _ => 0

/-- One pass into an INT32 accumulator: the new pattern, and whether it wrapped (spec/09 R189). -/
def passInt (acc : Nat) (ps : List (FVal × FVal)) : Nat × Bool :=
  let t : Int := sInt 32 acc + (ps.map fun p => intOfVal p.1 * intOfVal p.2).sum
  (wrapInt 32 t, decide (t < -(2 ^ 31 : Int)) || decide ((2 ^ 31 : Int) ≤ t))

/-- The passes of one element: factors by K position, `kp` positions a pass. The counter bounds the passes. -/
def passes (isInt : Bool) (kp : Nat) : Nat → Nat → List (List (FVal × FVal)) → Nat → Bool → Nat × Nat × Bool
  | 0, acc, _, fl, ovf => (acc, fl, ovf)
  | n + 1, acc, ks, fl, ovf =>
    match ks with
    | [] => (acc, fl, ovf)
    | ks =>
      let ps := (ks.take kp).flatten
      if isInt then
        let (r, o) := passInt acc ps
        passes isInt kp n r (ks.drop kp) (if o then fl ||| flOF else fl) (ovf || o)
      else
        let (r, f) := passFp acc ps
        passes isInt kp n r (ks.drop kp) (fl ||| f) ovf

/-! ### Operand formats (spec/09 R180, Table 9-1) -/

/-- The format of a tag, where SC = 1 exactly when BLK is not 0. -/
def tagFmt (t : Nat) : Option (Fmt × Nat) :=
  let blk := fieldOf t 6 5
  match Fmt.ofCode (fieldOf t 4 0) with
  | some f => if bitOf t 7 = (blk != 0) ∧ fmtBlkOk f blk = true then some (f, blk) else none
  | none => none

/-- The accumulator type of a pair: `some true` for INT32, none where Table 9-1 does not admit it. -/
def pairType (a b : Fmt) : Option Bool :=
  if isBlk5 a && isBlk5 b then some false
  else if fmtIsPe a && fmtIsPe b then some false
  else if (a == .bf16 && b == .bf16) || (a == .fp16 && b == .fp16) || (a == .fp32 && b == .fp32) then some false
  else if (a == .i8 || a == .i4) && (b == .i8 || b == .i4) then some true
  else none

/-- A group of a matrix instruction: a multiple of its size, up to 32. -/
def mxGroupOk (base size : Nat) : Bool := base % size == 0 && decide (base + size ≤ 32)

/-- The leave weight of a product by the wider container (spec/12 Table 12-5). -/
def mxWeight (sew : Nat) : Nat := if sew = 32 then 1 else if sew = 16 then 2 else if sew = 8 then 4 else 8

/-! ### What a chain holds (spec/09 R191) -/

/-- Does a chain run hold the engine? -/
def chainHoldsEngine (c : CoreSt) : Bool :=
  c.slots.any fun kv => kv.2.nodes.any (fun n => n.1 == 1) &&
    (decide (kv.2.state = .running) || decide (kv.2.state = .draining) || decide (kv.2.state = .temporal))

/-- The tile that a slot's matrix node uses. -/
def slotTile (sl : ChSlot) : Option Nat :=
  (sl.nodes.findIdx? fun n => n.1 == 1).map fun i => fieldOf (aget 0 sl.active (4 * i)).toNat 2 0

/-- Does a chain run hold a tile? -/
def chainHoldsTile (c : CoreSt) (t : Nat) : Bool :=
  c.slots.any fun kv => slotTile kv.2 == some t &&
    (decide (kv.2.state = .running) || decide (kv.2.state = .draining) || decide (kv.2.state = .temporal) ||
      decide (kv.2.state = .broken) || decide (kv.2.state = .bound))

/-! ### Issue (spec/16 R316) -/

/-- What a matrix instruction sees at issue. -/
structure MxEnv where
  h : Hart
  core : CoreSt
  lanes : Nat
  vl : Nat

/-- The interlock with the engine, then steps 2 and the `xvstart` check of step 3. -/
def mxEnv (s : State) (i : Instr) (enc : Bool) : Except Exc MxEnv := do
  let h := me s
  let c := coreOf s (myCore s)
  orIllegal enc s i
  if lentTo s s.cur || regsBusy s s.cur || c.engine.isSome then .error (.wait s)
  else match vtypeOf h.xc.vtype.toNat with
    | none => .error (.trap s 24 (wordOf i))
    | some _ => do
      orIllegal (h.xc.vstart == 0) s i
      .ok ⟨h, c, lanesOf s s.cur, h.xc.vl.toNat⟩

/-- Step 5: wait while a chain holds the engine or a tile. -/
def mxHeld (s : State) (e : MxEnv) (tiles : List Nat) : Except Exc Unit :=
  if chainHoldsEngine e.core || tiles.any (chainHoldsTile e.core) then .error (.wait s) else .ok ()

/-- Hand an instruction to the engine: it completes at the hart, and the engine performs it whole (spec/09 R190). -/
def mxIssue (s : State) (i : Instr) (e : MxEnv) (xs : Word) (weight : Nat) : Res :=
  let op : MxOp := ⟨mySlot s, i, e.vl, xs, e.h.xc.rm.toNat, weight⟩
  let s := updCore s (myCore s) fun c => { c with engine := some op }
  let h := me s
  vecDone s h

/-- The A operand: a register group, or a source tile. -/
inductive MxA where
  | regs (base : Nat)
  | tile (t : Nat)
deriving DecidableEq, Repr

/-- The tag of the A operand. -/
def mxATag (e : MxEnv) (a : MxA) : Nat :=
  match a with
  | .regs r => hartTag e.h r
  | .tile t => downTag (tcwOf e.core t)

/-- Bits of the metadata of one column, in whole bytes (spec/09 R188). -/
def metaStride (k w : Nat) : Nat := roundUp (k / tcwSpm w * tcwSpn w * (Nat.log2 (tcwSpm w))) 8

/-- The checks and the issue of MMA and MMAS (spec/09 R179, R180, R185, R188). -/
def mmaOp (i : Instr) (ga gb : Nat) (t : Nat) (a : MxA) (b : Nat) (sparse : Bool) (s : State) : Res := do
  let ne := match a with | .tile u => u != t | .regs _ => true
  let e ← mxEnv s i ne
  let w := tcwOf e.core t
  let m := 2 ^ ga
  let n := 2 ^ gb
  let row := 1024 * e.lanes
  let bt := hartTag e.h b
  let at_ := mxATag e a
  let sewOf (tag : Nat) : Nat := match Fmt.ofCode (fieldOf tag 4 0) with | some f => fmtSew f | none => 8
  let kb := if sparse then e.vl / tcwSpm w * tcwSpn w else e.vl
  let aOk := match a with
    | .regs r => mxGroupOk r m && !overlaps r m b n && decide (e.vl * sewOf at_ ≤ row)
    | .tile u => decide (e.vl ≤ tcwCols (tcwOf e.core u))
  let spOk := !sparse || (tcwSpen w && e.vl % tcwSpm w == 0 && decide (n * metaStride e.vl w ≤ row) &&
    !overlaps (tcwMeta w) 1 b n && (match a with | .regs r => !overlaps (tcwMeta w) 1 r m | .tile _ => true))
  orIllegal (aOk && mxGroupOk b n && decide (n ≤ tcwCols w) && decide (kb * sewOf bt ≤ row) && spOk) s i
  let regsOk := tagsAre e.h b n bt && (match a with | .regs r => tagsAre e.h r m at_ | .tile u => tileTagOk e.core u)
  let pair := match tagFmt at_, tagFmt bt with
    | some (fa, _), some (fb, _) => pairType fa fb
    | _, _ => none
  orTrap (regsOk && pair == some (tcwInt w) && tileTagOk e.core t) s 25 (wordOf i)
  mxHeld s e (t :: match a with | .tile u => [u] | .regs _ => [])
  let wt := mxWeight (max (sewOf at_) (sewOf bt))
  let s ← askLeave s wt
  mxIssue s i e 0 wt

/-- MMA (spec/09 R179). -/
def execMma (x y : Fin 6) (c : Fin 8) (a b : RegIx) (s : State) : Host.Outcome State Fault Refusal :=
  finish (.mma x y c a b) (mmaOp (.mma x y c a b) x.val y.val c.val (.regs a.val) b.val false s)

/-- MMA with A from a tile (spec/09 R185). -/
def execMmaTile (x y : Fin 6) (c t : Fin 8) (b : RegIx) (s : State) : Host.Outcome State Fault Refusal :=
  finish (.mmaTile x y c t b) (mmaOp (.mmaTile x y c t b) x.val y.val c.val (.tile t.val) b.val false s)

/-- MMAS (spec/09 R188). -/
def execMmas (x y : Fin 6) (c : Fin 8) (a b : RegIx) (s : State) : Host.Outcome State Fault Refusal :=
  finish (.mmas x y c a b) (mmaOp (.mmas x y c a b) x.val y.val c.val (.regs a.val) b.val true s)

/-- MMAS with A from a tile (spec/09 R188). -/
def execMmasTile (x y : Fin 6) (c t : Fin 8) (b : RegIx) (s : State) : Host.Outcome State Fault Refusal :=
  finish (.mmasTile x y c t b) (mmaOp (.mmasTile x y c t b) x.val y.val c.val (.tile t.val) b.val true s)

/-- MZERO (spec/09 R186). -/
def execMzero (c : Fin 8) (s : State) : Host.Outcome State Fault Refusal :=
  finish (.mzero c) (do
    let i : Instr := .mzero c
    let e ← mxEnv s i true
    mxHeld s e [c.val]
    mxIssue s i e 0 0)

/-- MRDA (spec/09 R186). -/
def execMrda (x : Fin 6) (c : Fin 8) (f : Fin 32) (d : RegIx) (s : State) : Host.Outcome State Fault Refusal :=
  finish (.mrda x c f d) (do
    let i : Instr := .mrda x c f d
    let e ← mxEnv s i (decide (f.val + 2 ^ x.val ≤ 32))
    orIllegal (mxGroupOk d.val (2 ^ x.val) && decide (e.vl ≤ 32)) s i
    orTrap (tileTagOk e.core c.val) s 25 (wordOf i)
    mxHeld s e [c.val]
    mxIssue s i e 0 0)

/-- MWRA (spec/09 R186). -/
def execMwra (x : Fin 6) (c : Fin 8) (f : Fin 32) (d : RegIx) (s : State) : Host.Outcome State Fault Refusal :=
  finish (.mwra x c f d) (do
    let i : Instr := .mwra x c f d
    let e ← mxEnv s i (decide (f.val + 2 ^ x.val ≤ 32))
    orIllegal (mxGroupOk d.val (2 ^ x.val) && decide (e.vl ≤ 32)) s i
    orTrap (tagsAre e.h d.val (2 ^ x.val) (tcwTag (tcwOf e.core c.val))) s 25 (wordOf i)
    mxHeld s e [c.val]
    mxIssue s i e 0 0)

/-! ### Spilled registers (spec/02 R39 to R41, spec/16 R336) -/

/-- The address of entry n of a hart's spill area. -/
def spillVa (h : Hart) (lanes n : Nat) : Nat := (h.xc.spill.toNat + n * 160 * lanes) % 2 ^ 64

/-- Parked registers that a core's chip holds. -/
def spillHeld (s : State) (core : Nat) : Nat :=
  (List.range 8).foldl (fun n g => n + ((hartOf s (8 * core + g)).spill.filter fun kv => !kv.2.inMem).length) 0

/-- Unallocated columns of a tile that stay so: an MTCW in the engine has taken its columns already (spec/02 R41). -/
def spillCols (c : CoreSt) (t : Nat) : Nat :=
  let f := tcwFree (tcwOf c t)
  match c.engine with
  | some op => match op.instr with
    | .mtcw u _ => if u.val = t then min f (tcwFree op.xs.toNat) else f
    | _ => f
  | none => f

/-- Parked registers that a core has room for: unallocated accumulator columns, and the register banks of slots that do
not run (notes/assumptions/14). -/
def spillRoom (s : State) (core : Nat) : Nat :=
  let c := coreOf s core
  let cols := (List.range 8).foldl (fun n t => n + spillCols c t) 0
  let idle := ((List.range c.part).filter fun g => decide ((hartOf s (8 * core + g)).run ≠ .running)).length
  cols * 128 / (160 * (32 / c.part)) + 32 * idle

/-- Write a parked register to its place in the spill area, in 32-byte pieces; all are translated before any is
written. -/
def spillOut (s : State) (va lanes : Nat) (e : Spill) : Except Exc State := do
  let (s, ls) ← (List.range (5 * lanes)).foldlM (fun (acc : State × List Loc) i => do
    let (s, l) ← myTranslate acc.1 .store .plain ((va + 32 * i) % 2 ^ 64) 24
    .ok (s, acc.2 ++ [l])) (s, [])
  let bits := e.reg.toNat % 2 ^ (1024 * lanes) + e.sc.toNat % 2 ^ (256 * lanes) * 2 ^ (1024 * lanes)
  .ok ((ls.zipIdx).foldl (fun t p => vecWrite t p.1 32 (elemOf 256 bits p.2)) s)

/-- Read a parked register from the spill area. -/
def spillIn (s : State) (va lanes : Nat) : Except Exc (State × Nat) :=
  (List.range (5 * lanes)).foldlM (fun (acc : State × Nat) i => do
    let a := (va + 32 * i) % 2 ^ 64
    let (s, l) ← myTranslate acc.1 .load .plain a 24
    if locPoisoned s l 32 then .error (.trap s 51 (w64 a))
    else
      let (s, v) := vecRead s l 32
      .ok (s, acc.2 + v * 2 ^ (256 * i))) (s, 0)

/-- The parked registers of a core that its chip holds: hart and entry. -/
def spillList (s : State) (core : Nat) : List (Nat × Nat) :=
  (List.range 8).flatMap fun g =>
    ((hartOf s (8 * core + g)).spill.filter fun kv => !kv.2.inMem).map fun kv => (8 * core + g, kv.1)

/-- Move the first k parked registers of a core to the spill area, under the privilege and the address space of the hart that
makes room; which ones go, and that, are the model's choice (notes/assumptions/14). -/
def spillEvict : List (Nat × Nat) → Nat → State → Except Exc State
  | _, 0, s => .ok s
  | [], _, s => .ok s
  | (h, n) :: r, k + 1, s => do
    let x := hartOf s h
    match aget? x.spill n with
    | none => spillEvict r k s
    | some e =>
      let s ← spillOut s (spillVa x (lanesOf s h) n) (lanesOf s h) e
      spillEvict r k (updHart s h fun x => { x with spill := aput x.spill n { e with inMem := true } })

/-- MTCW (spec/09 R183; spec/02 R41). -/
def execMtcw (c : Fin 8) (a : RegIx) (s : State) : Host.Outcome State Fault Refusal :=
  finish (.mtcw c a) (do
    let i : Instr := .mtcw c a
    let e ← mxEnv s i true
    let x := rdX s a
    orIllegal (tcwValid x.toNat) s i
    mxHeld s e [c.val]
    let after := spillRoom (setTcw s (myCore s) c.val x.toNat) (myCore s)
    let s ← spillEvict (spillList s (myCore s)) (spillHeld s (myCore s) - after) s
    mxIssue s i e x 0)

/-- A lent register, or one that an issued matrix instruction has yet to read, interlocks. -/
def spillReady (s : State) : Except Exc Unit :=
  if lentTo s s.cur || regsBusy s s.cur then .error (.wait s) else .ok ()

/-- SPLP (spec/02 R39, spec/16 R336). `xvstart` stays as it is, as with SPLR (notes/assumptions/14). -/
def execSplp (n : Fin 16) (a : RegIx) (s : State) : Host.Outcome State Fault Refusal :=
  finish (.splp n a) (do
    spillReady s
    let h := me s
    let e : Spill := ⟨false, aget 0 h.v a.val, aget 0 h.sc a.val, aget 0x1F h.tags a.val⟩
    let own := match aget? h.spill n.val with | some p => if p.inMem then 0 else 1 | none => 0
    if spillHeld s (myCore s) - own < spillRoom s (myCore s) then
      .ok (nextPc (updMe s fun h => { h with spill := aput h.spill n.val e }))
    else do
      let s ← spillOut s (spillVa h (lanesOf s s.cur) n.val) (lanesOf s s.cur) e
      .ok (nextPc (updMe s fun h => { h with spill := aput h.spill n.val ⟨true, 0, 0, e.tag⟩ })))

/-- SPLR (spec/02 R39, spec/16 R336). -/
def execSplr (n : Fin 16) (d : RegIx) (s : State) : Host.Outcome State Fault Refusal :=
  finish (.splr n d) (do
    spillReady s
    let h := me s
    let lanes := lanesOf s s.cur
    match aget? h.spill n.val with
    | none => .ok (nextPc (updMe s fun h => hartSetTag (hartSetSc (hartSetV h d.val 0) d.val 0) d.val 0x1F))
    | some p => do
      let (s, bits) ← if p.inMem then spillIn s (spillVa h lanes n.val) lanes
        else .ok (s, p.reg.toNat + p.sc.toNat * 2 ^ (1024 * lanes))
      .ok (nextPc (updMe s fun h =>
        let h := hartSetV h d.val (bits % 2 ^ (1024 * lanes))
        let h := hartSetSc h d.val (bits / 2 ^ (1024 * lanes))
        { hartSetTag h d.val p.tag.toNat with spill := adel h.spill n.val })))

/-! ### What the engine does (spec/09 R179 to R190) -/

/-- The value of K position k of a register row. -/
def rowVal (h : Hart) (lanes r : Nat) (f : Fmt) (blk k : Nat) : FVal :=
  let b := blkOf f blk
  let sc := if b = 0 then 0 else rdScale h lanes r f blk (k / b)
  elemVal f blk (elemOf (fmtSew f) (hartV h r) k) sc (if b = 0 then 0 else k % b)

/-- The exact sum of the kept elements that name one position (spec/09 R188); none where no element does. Opposite infinities
are invalid, which a signalling NaN stands for. -/
def sumVals (ys : List FVal) : Option FVal :=
  match ys with
  | [] => none
  | [y] => some y
  | ys =>
    let a := ys.foldl MxSum.add {}
    some (if a.pinf && a.ninf then .nan true
      else if a.nan then .nan (sigFlags ys != 0)
      else if a.pinf then .inf false
      else if a.ninf then .inf true
      else if a.m = 0 then .fin a.allNegZero 0 0
      else .fin (decide (a.m < 0)) a.m.natAbs a.e)

/-- One factor pair of a product at a position: a position that no kept element names contributes a zero of +0. -/
def mxPair (a : FVal) (b : Option FVal) : List (FVal × FVal) :=
  match b with
  | none => [(FVal.fin (fsignV a) 0 0, FVal.fin false 0 0)]
  | some y => [(a, y)]

/-- The factor of column n of B at K position k: a value, or for a compressed column the sum of the kept elements that name the
position (spec/09 R188). -/
def colVal (h : Hart) (lanes b n : Nat) (f : Fmt) (blk : Nat) (w : Nat) (sparse : Bool) (vl k : Nat) : Option FVal :=
  if !sparse then some (rowVal h lanes (b + n) f blk k)
  else
    let spm := tcwSpm w
    let spn := tcwSpn w
    let lg := Nat.log2 spm
    let grp := k / spm
    let bits := hartV h (tcwMeta w)
    sumVals ((List.range spn).filterMap fun j =>
      let p := n * metaStride vl w + (grp * spn + j) * lg
      if fieldOf bits (p + lg - 1) p = k % spm then some (rowVal h lanes (b + n) f blk (grp * spn + j)) else none)

/-- Perform a product. -/
def mmaPerform (s : State) (core : Nat) (op : MxOp) (ga gb t : Nat) (a : MxA) (b : Nat) (sparse : Bool) : State :=
  let hk := 8 * core + op.slot
  let h := hartOf s hk
  let c := coreOf s core
  let lanes := lanesOf s hk
  let w := tcwOf c t
  let m := 2 ^ ga
  let n := 2 ^ gb
  let st0 := numStart h
  let at_ := match a with | .regs r => hartTag h r | .tile u => downTag (tcwOf c u)
  match tagFmt at_, tagFmt (hartTag h b) with
  | some (fa, ba), some (fb, bb) =>
    if op.vl = 0 then s
    else
      -- the rows of A, converted in row-major order where they come from a tile
      let (rows, st) := (List.range m).foldl (fun (acc : List (List FVal) × NumSt) i =>
        match a with
        | .regs r => (acc.1 ++ [(List.range op.vl).map fun k => rowVal h lanes (r + i) fa ba k], acc.2)
        | .tile u =>
          let wu := tcwOf c u
          let (es, scs, st) := downRow (tcwInt wu) wu (drmOf wu op.rm) (tileRow c u i op.vl) acc.2
          let bl := blkOf fa ba
          (acc.1 ++ [es.zipIdx.map fun p =>
            elemVal fa ba p.1 (if bl = 0 then 0 else scs.getD (p.2 / bl) 0) (if bl = 0 then 0 else p.2 % bl)], st)) ([], st0)
      let kp := 1024 / max (fmtSew fa) (fmtSew fb)
      let isInt := tcwInt w
      let (g, fl, ovf) := (List.range m).foldl (fun (acc : Nat × Nat × Bool) i =>
        (List.range n).foldl (fun (acc : Nat × Nat × Bool) j =>
          let row := rows.getD i []
          let ks := row.zipIdx.map fun p => mxPair p.1 (colVal h lanes b j fb bb w sparse op.vl p.2)
          let (r, f, o) := passes isInt kp op.vl (tileElem acc.1 i j) ks 0 false
          (setTileElem acc.1 i j r, acc.2.1 ||| f, acc.2.2 || o)) acc) (acBits c t, st.flags, false)
      let s := setTile s core t g (tcwTag w)
      let s := if ovf then setTcw s core t (w ||| 2 ^ 32) else s
      updHart s hk fun h => numEnd h ⟨st.seed, fl⟩
  | _, _ => s

/-- Perform MRDA. -/
def mrdaPerform (s : State) (core : Nat) (op : MxOp) (n t first d : Nat) : State :=
  let hk := 8 * core + op.slot
  let c := coreOf s core
  let w := tcwOf c t
  let f := tcwDfmt w
  let lanes := lanesOf s hk
  if op.vl = 0 then s
  else
    let (h, st) := (List.range n).foldl (fun (acc : Hart × NumSt) j =>
      let (es, scs, st) := downRow (tcwInt w) w (drmOf w op.rm) (tileRow c t (first + j) op.vl) acc.2
      let g := es.zipIdx.foldl (fun g p => setElem (fmtSew f) g p.2 p.1) (hartV acc.1 (d + j))
      let h := hartSetV acc.1 (d + j) g
      let h := scs.zipIdx.foldl (fun h p => wrScale h lanes (d + j) f (tcwDblk w) p.2 p.1) h
      (hartSetTag h (d + j) (downTag w), st)) (hartOf s hk, numStart (hartOf s hk))
    setHart s hk (numEnd h st)

/-- Perform MWRA. -/
def mwraPerform (s : State) (core : Nat) (op : MxOp) (n t first r : Nat) : State :=
  let h := hartOf s (8 * core + op.slot)
  let c := coreOf s core
  let w := tcwOf c t
  if op.vl = 0 then s
  else
    let g := (List.range n).foldl (fun g j => (List.range (min op.vl (tcwCols w))).foldl (fun g k =>
      setTileElem g (first + j) k (elemOf 32 (hartV h (r + j)) k)) g) (acBits c t)
    setTile s core t g (tcwTag w)

/-- Perform MZERO. -/
def mzeroPerform (s : State) (core t : Nat) : State :=
  let c := coreOf s core
  let w := tcwOf c t
  let g := (List.range 32).foldl (fun g m => (List.range (tcwCols w)).foldl (fun g n => setTileElem g m n 0) g) (acBits c t)
  setTcw (setTile s core t g (tcwTag w)) core t (withField w 32 32 0)

/-- Perform an instruction that the engine holds. -/
def mxPerform (s : State) (core : Nat) (op : MxOp) : State :=
  match op.instr with
  | .mma x y c a b => mmaPerform s core op x.val y.val c.val (.regs a.val) b.val false
  | .mmaTile x y c t b => mmaPerform s core op x.val y.val c.val (.tile t.val) b.val false
  | .mmas x y c a b => mmaPerform s core op x.val y.val c.val (.regs a.val) b.val true
  | .mmasTile x y c t b => mmaPerform s core op x.val y.val c.val (.tile t.val) b.val true
  | .mzero c => mzeroPerform s core c.val
  | .mrda x c f d => mrdaPerform s core op (2 ^ x.val) c.val f.val d.val
  | .mwra x c f d => mwraPerform s core op (2 ^ x.val) c.val f.val d.val
  | .mtcw c _ => setTcw s core c.val op.xs.toNat
  | _ => s

/-- The engine of a core completes the instruction it holds, whole; its leave is released (spec/09 R190, spec/12 R243). -/
def engineComplete (s : State) (core : Nat) : State :=
  match (coreOf s core).engine with
  | none => s
  | some op =>
    let s := mxPerform s core op
    let s := releaseUnits s (dieOfCore core) op.weight
    updCore s core fun c => { c with engine := none }

/-- MATRIX_INSTRUCTION_COMPLETE (spec/09 R190). -/
def execMatrixInstructionComplete (core : Nat) (s : State) : Host.Outcome State Fault Refusal :=
  .next (engineComplete s core)

end Sys2Proof.Machine
end

