-- ==== Sys2Proof/Machine/Chain.lean ====
section
/-!
DEFINITION. Runs of chain slots (spec/08 R159 to R172; spec/15 R292 to R300): the plan of a run, drains, ends, and the chain
instructions but CHSAV and CHLD.
-/
namespace Sys2Proof.Machine

/-! ### Queues of a slot -/

/-- Discard every token of a queue. -/
def dropTokens (c : CoreSt) (q : Nat) : CoreSt :=
  let r := qOf c q
  setQ c q { r with rp := (List.range 4).foldl (fun m j => aput m j r.tail) r.rp, pfill := 0 }

/-- Is a token a bell, checkpoint or bound-stop marker? -/
def isStopMark (t : Tok) : Bool := t.kind == tkMarker && (t.sub == mkBell || t.sub == mkCheck || t.sub == mkBound)

/-- Discard the bell, checkpoint and bound-stop markers of a queue; a continued run meets none of an earlier stop (spec/08
R165). Pending bytes stay pending. -/
def purgeMarks (c : CoreSt) (q : Nat) : CoreSt :=
  let r := qOf c q
  let n := qOccMax r
  let start := (r.tail + 512 - n) % 512
  let all := (List.range n).map fun i => (i, tokPoiAt c q (start + i))
  let keep := all.filter fun p => !isStopMark p.2.1
  if keep.length = n then c
  else
    let pend := (List.range 2).map fun i => tokPoiAt c q (r.tail + i)
    let c := keep.zipIdx.foldl (fun c p => tokPoiPut c q (start + p.2) p.1.2) c
    let tail := start + keep.length
    let c := if r.pfill = 0 then c else pend.zipIdx.foldl (fun c p => tokPoiPut c q (tail + p.2) p.1) c
    let rp (j : Nat) : Nat := (tail + 512 - (keep.filter fun p => decide (n - qOcc r j ≤ p.1)).length) % 512
    setQ c q { r with tail := tail % 512, rp := (qReaders r).foldl (fun m j => aput m j (rp j)) r.rp }

/-- Apply a change to every queue of a slot. -/
def overQs (s : State) (core : Nat) (sl : ChSlot) (f : CoreSt → Nat → CoreSt) : State :=
  updCore s core fun c => (slotQs sl).foldl f c

/-! ### Chain groups (spec/08 R172) -/

/-- The core that a lane-link node reaches: the recorded peer, else the neighbour in the gang. -/
def llPeer (s : State) (core : Nat) (sl : ChSlot) (n : Nat) : Option Nat :=
  match (coreOf s core).gang with
  | none => none
  | some seat =>
    match aget? sl.peer n with
    | some c => some (gangCore (gangOf s seat) c)
    | none =>
      match llNeighbour core (nodeIx sl n) with
      | some o => if (coreOf s o).gang = some seat then some o else none
      | none => none

/-- The facing node of a lane-link node: core and ordinal. -/
def llFace (s : State) (core k n : Nat) : Option (Nat × Nat) :=
  let sl := slotOf s core k
  match llPeer s core sl n with
  | none => none
  | some o =>
    (((slotOf s o k).nodes.findIdx? fun x => x.1 == kLl && x.2 == llFacing (nodeIx sl n))).map fun m => (o, m)

/-- The cores joined to some cores by the links of a slot number. -/
def groupFrom (s : State) (k : Nat) : Nat → List Nat → List Nat
  | 0, l => l
  | n + 1, l =>
    let next := (l.flatMap fun c =>
      let sl := slotOf s c k
      (nodeList sl).filterMap fun m => if nodeKind sl m = kLl then (llFace s c k m).map (·.1) else none)
    groupFrom s k n (l ++ (next.filter fun c => !l.contains c).dedup)

/-- The members of a slot's chain group. -/
def chGroup (s : State) (core k : Nat) : List Nat :=
  if (slotOf s core k).nodes.any fun x => x.1 == kLl then groupFrom s k 128 [core] else [core]

/-- Is a core's gang being pre-empted or ended? -/
def gangLeaves (s : State) (core : Nat) : Bool :=
  match (coreOf s core).gang with
  | none => false
  | some seat => match (gangOf s seat).state with
    | .saving => true
    | .ending _ _ _ _ => true
    | _ => false

/-- Is a chain held by a debug halt of a hart lent to a stage of a run of its group (spec/08 R174)? A pre-emption ends the halt,
and so the hold (spec/13 R259). -/
def chHeld (s : State) (core k : Nat) : Bool :=
  !gangLeaves s core && (chGroup s core k).any fun c =>
    chActive (slotOf s c k).state && (slotOf s c k).nodes.any fun x => x.1 == kVs && (hartOf s (8 * c + x.2)).halted

/-! ### Ends of a run -/

/-- The interlock sources of a node (spec/07 Table 7-7). -/
def nodeSrc (kind ix : Nat) : Option Nat :=
  if kind = kMp then some ix else if kind = kAg then some (18 + ix) else if kind = kRt then some 22 else none

/-- Is an interlock source one of a slot's nodes? -/
def isOwnSrc (sl : ChSlot) (src : Nat) : Bool := sl.nodes.any fun x => nodeSrc x.1 x.2 == some src

/-- Release a run's leave, or withdraw its sequencer's request. -/
def chRelease (s : State) (core k : Nat) : State :=
  let sl := slotOf s core k
  let die := dieOfCore core
  let s := releaseUnits s die sl.leave
  let s := if sl.asked then updDie s die fun d => { d with leaveQ := d.leaveQ.filter fun q => q.1 != .seq core k } else s
  updSlot s core k fun sl => { sl with leave := 0, asked := false }

/-- The hart that issued a run. -/
def chHart (core : Nat) (sl : ChSlot) : Option Nat := sl.ctx.map fun c => 8 * core + c.slot

/-- The offset at which a node goes on within the head token of an input: elements, indices, bits or bytes used up. -/
def headUsed (kind : Nat) (l : NodeLatch) (port : Nat) : Nat :=
  if kind = kMx then (if port = 0 then l.i1 else if port = 1 then l.i2 else l.used)
  else if kind = kAg then (if port = 0 then l.off else l.used)
  else if kind = kSh then l.off
  else if kind = kMp then l.used
  else if port = 1 then l.used
  else 0

/-- The same, set. -/
def setHeadUsed (kind : Nat) (l : NodeLatch) (port v : Nat) : NodeLatch :=
  if kind = kMx then (if port = 0 then { l with i1 := v } else if port = 1 then { l with i2 := v } else { l with used := v })
  else if kind = kAg then (if port = 0 then { l with off := v } else { l with used := v })
  else if kind = kSh then { l with off := v }
  else if kind = kMp ∨ port = 1 then { l with used := v }
  else l

/-- Does consumer j of a queue stand detached? -/
def isDetached (c : CoreSt) (q j : Nat) : Bool := bitOf (qOf c q).dmask.toNat j

/-- Start a run with what its CHRUN captured. The QTAGs have been set. A detached consumer reattaches at TAIL, at the start of
what comes next (spec/08 Table 8-11). -/
def chStart (s : State) (core k : Nat) (a : ArmCap) : State :=
  let sl := slotOf s core k
  let c0 := coreOf s core
  let s := overQs s core sl fun c q =>
    let c := purgeMarks c q
    let r := qOf c q
    setQ c q { r with
      rp := (List.range 4).foldl (fun m j => if bitOf r.dmask.toNat j then aput m j r.tail else m) r.rp, dmask := 0 }
  let latch (n : Nat) : NodeLatch :=
    let l := (inputsOf sl n).foldl (fun l e => if isDetached c0 e.2.1 e.2.2 then setHeadUsed (nodeKind sl n) l e.1 0 else l) (latchOf sl n)
    { l with stop := 0, owe := 0, newAim := false, detached := false, park := none, gen := aget 0 a.seeds n }
  let peers := (nodeList sl).filterMap fun n =>
    if nodeKind sl n = kLl then
      match llPeer s core { sl with peer := [] } n with
      | some o => some (n, (coreOf s o).cidx)
      | none => none
    else none
  setSlot s core k { sl with
    state := .running, tmp := false, fin := false, stopped := false, node := 0, cause := 0, flags := 0, fage := 0,
    runopt := a.runopt, chto := a.chto, mcto := a.mcto, vrm := a.vrm, ctx := some a.ctx, widths := a.widths, need := a.need,
    pats := a.pats, held := a.pats != [], arm := none, afterDrain := 0, frozen := [], saved := [], boundNode := none,
    detachNode := none, bell := false, badLatch := [], mcIdle := [], peer := peers,
    latch := (nodeList sl).foldl (fun m n => aput m n (latch n)) sl.latch }

/-- Pending entries become the active ones. As with CHAIM in the state reached, every node then starts its entry anew,
but that a BOUND run keeps all progress save that of its port (spec/08 R160, R165; spec/15 R296). -/
def applyPend (sl : ChSlot) (st : ChState) (node : Nat) : ChSlot :=
  let sl := { sl with active := sl.pend, pend := [], pending := false }
  if st = .bound then
    let l := latchOf sl node
    setLatch sl node { l with i0 := 0, i1 := 0, i2 := 0, off := 0, done := false }
  else { sl with latch := [] }

/-- Free a slot's interlock entries. -/
def chFreeArit (s : State) (core : Nat) (sl : ChSlot) : State :=
  updCore s core fun c => { c with arit := afilter c.arit fun _ e => !isOwnSrc sl e.src }

/-- Set the QTAGs that a plan found. -/
def setPlan (s : State) (core : Nat) (tags : AMap Nat) : State :=
  updCore s core fun c => tags.foldl (fun c kv =>
    setQ c kv.1 { qOf c kv.1 with qtag := BitVec.ofNat 8 kv.2, tagset := true }) c

/-- Enter the interlock entries of a run's memory ports (spec/07 R138). -/
def enterPorts (s : State) (core slot : Nat) (pats : List (Nat × AMap Word)) : State :=
  pats.foldl (fun s p =>
    let t := patOf p.2
    let (lo, hi) := patRange t
    (aritEnter s core ⟨t.store, !t.store, p.1, slot, lo, hi⟩).1) s

/-- Do a run's patterns meet what its hart has issued before: transfers, or reductions that are not performed (spec/07 R137)? -/
def patsBlocked (s : State) (core slot : Nat) (pats : List (Nat × AMap Word)) : Bool :=
  pats.any fun t =>
    let p := patOf t.2
    let (lo, hi) := patRange p
    aritBlocks s core slot lo (hi - lo) p.store || pendMeets s core slot lo (hi - lo) p.store || redMeets s core slot lo (hi - lo)

/-- A held run enters its ports' ranges once its hart's earlier accesses to them are complete and the entries are free (spec/07
R138). -/
def chEnter (s : State) (core k : Nat) : State :=
  let sl := slotOf s core k
  match sl.ctx with
  | none => s
  | some x =>
    if !sl.held || patsBlocked s core x.slot sl.pats || decide (aritRoom (coreOf s core) < sl.pats.length) then s
    else enterPorts (setSlot s core k { sl with held := false }) core x.slot sl.pats

/-- The nodes that withhold a fault. -/
def parkedNodes (sl : ChSlot) : List Nat := (nodeList sl).filter fun n => (latchOf sl n).park.isSome

/-- The age of the oldest fault that a node withholds; 0 where there is none (spec/08 Table 8-14). -/
def oldestPark (sl : ChSlot) : Nat := ((parkedNodes sl).map fun n => (latchOf sl n).age).foldl max 0

/-- A run without a hart to stall asks its leave: granted at once, or a place in the die's order of arrival (spec/12
R243). -/
def chAsk (s : State) (core k : Nat) : State :=
  let sl := slotOf s core k
  let die := dieOfCore core
  if sl.leave = sl.need ∨ sl.asked = true then s
  else if ((dieOf s die).leaveQ.isEmpty || bitOf s.io.mode.toNat 3) && leaveFits s die sl.need then
    updSlot (grantLeave s die sl.need) core k fun sl => { sl with leave := sl.need }
  else
    updSlot (updDie s die fun d => { d with leaveQ := d.leaveQ ++ [(.seq core k, sl.need)] }) core k
      fun sl => { sl with asked := true }

/-- A BROKEN slot whose faults are all served becomes TEMPORAL: every node may fire again, and the markers of an earlier stop
go (spec/08 R169). -/
def chServed (s : State) (core k : Nat) : State :=
  let sl := slotOf s core k
  if sl.state ≠ .broken ∨ parkedNodes sl ≠ [] then s
  else
    let s := overQs s core sl purgeMarks
    chAsk (updSlot s core k fun sl => { sl with
      state := .temporal, frozen := [], boundNode := none, fage := 0, bell := false,
      latch := sl.latch.map fun kv => (kv.1, { kv.2 with stop := 0, owe := 0 }) }) core k

/-- A slot becomes BROKEN: its leave goes, and the rows in its queues are the saved ones. -/
def chBroken (s : State) (core k : Nat) : State :=
  let s := chRelease s core k
  let s := updSlot s core k fun sl =>
    let c := coreOf s core
    let occ := (nodeEdges sl).map fun e =>
      let j := consumerOf sl.edges e
      (4 * eQ e + j, qOcc (qOf c (eQ e)) j)
    { sl with state := .broken, afterDrain := 0, saved := occ.foldl (fun m p => aput m p.1 p.2) [] }
  chServed s core k

/-! ### The plan of a run (spec/08 R163) -/

/-- What CHRUN finds: QTAGs by queue, patterns by port, leave units, seeds by node, and the hart's generator after them. -/
structure RunPlan where
  tags : AMap Nat
  pats : List (Nat × AMap Word)
  need : Nat
  seeds : AMap Word
  seed : Nat

/-- A tag's format and block code. -/
def qFmt (t : Nat) : Fmt × Nat := ((Fmt.ofCode (fieldOf t 4 0)).getD .raw, fieldOf t 6 5)

/-- Do the blocks of a tag fit a token? -/
def tagFits (t : Nat) : Bool := let f := qFmt t; tokFmtOk f.1 f.2

/-- The tags of a stage's input-bound registers at the start of a firing. -/
def bindTags (h : Hart) (r : StageRec) (lg : Nat) (tags : AMap Nat) : Hart :=
  r.binds.foldl (fun h b => if b.2.2 then h else
    match aget? tags b.2.1 with
    | some t => setTags h b.1 (2 ^ lg) t
    | none => h) h

/-- Check a stage as two successive firings would meet its tags: the tags that the first firing leaves in the output-bound
registers, or a cause. Element values do not matter, so both run on zeros. -/
def stageTags (s : State) (core : Nat) (sl : ChSlot) (es : AMap Word) (n vrm : Nat) (tags : AMap Nat) :
    Except Nat (List (Nat × Nat)) :=
  match stageOf sl n with
  | none => .error 26
  | some r =>
      let vt := fieldOf (aimW es n 0) 11 0
      match vtypeOf vt with
      | none => .error 26
      | some (lg, f, blk) =>
        let hk := 8 * core + nodeIx sl n
        let per := 256 / fmtSew f
        let ins := r.binds.filter fun b => !b.2.2
        if (stageInstrs r.words).any (stageBlockBad f blk) = true then .error 26
        else if ins.any fun b => (aget? tags b.2.1).isNone then .ok []
        else
          let ones : AMap VReg := (List.range 7).map fun i => (i + 1, BitVec.allOnes 32768)
          let h0 := stageHart { hartOf s hk with v := [], sc := [], p := ones } vt per vrm 1 fun w => w64 (aimW es n w)
          let fire (h : Hart) : Except Nat Hart :=
            match stagePass per per 0 per r.words (setHart { s with cur := hk } hk (bindTags h r lg tags)) [] with
            | .ok (t, _) => .ok { h0 with tags := (hartOf t hk).tags }
            | .error 25 => .error 25
            | .error _ => .ok h
          match fire h0 with
          | .error c => .error c
          | .ok h1 =>
            match fire h1 with
            | .error c => .error c
            | .ok _ => .ok ((r.binds.filter fun b => b.2.2).map fun b => (b.2.1, hartTag h1 b.1))

/-- Check one node against the QTAGs of its inputs and give the QTAGs of its outputs (spec/08 R163). -/
def nodeTags (s : State) (core k : Nat) (sl : ChSlot) (es : AMap Word) (pats : List (Nat × AMap Word)) (vrm n : Nat)
    (tags : AMap Nat) : Except Nat (List (Nat × Nat)) :=
  let w := aimW es n
  let inTag (p : Nat) : Option Nat := match inputAt sl n p with | some (q, _) => aget? tags q | none => none
  let is (p t : Nat) : Bool := match inTag p with | some u => u == t | none => true
  let out (t : Nat) : List (Nat × Nat) := (outputsOf sl n).map fun q => (q, t)
  let c := coreOf s core
  let kind := nodeKind sl n
  if kind = kVs then stageTags s core sl es n vrm tags
  else if kind = kMx then
    let t := fieldOf (w 0) 2 0
    let tw := tcwOf c t
    let sparse := bitOf (w 0) 9
    if decide (tcwCols tw < 2 ^ fieldOf (w 0) 8 6) || (sparse && !tcwSpen tw) then .error 26
    else
      let pairOk := match inTag 0, inTag 1 with
        | some a, some b =>
          (match tagFmt a, tagFmt b with
            | some (fa, _), some (fb, _) => pairType fa fb == some (tcwInt tw)
            | _, _ => false)
        | _, _ => true
      if pairOk && tileTagOk c t then .ok (out (downTag tw)) else .error 25
  else if kind = kMp then
    match pats.find? fun p => p.1 == nodeIx sl n with
    | none => .error 26
    | some p =>
      let t := patOf p.2
      let tag := tagOf t.f t.blk
      if t.store then (if is 0 tag then .ok [] else .error 25) else .ok (out tag)
  else if kind = kAg then
    let f := (Fmt.ofCode (fieldOf (w 1) 4 0)).getD .i8
    let ix := tagOf (intFmt (idxBits (bitOf (w 1) 6))) 0
    if is 0 ix && (!bitOf (w 1) 5 || is 1 (tagOf f 0)) then .ok (if bitOf (w 1) 5 then [] else out (tagOf f 0)) else .error 25
  else if kind = kSh then .ok (out (tagOf .i32 0))
  else if kind = kFc then
    let tag := tagOf ((Fmt.ofCode (fieldOf (w 0) 4 0)).getD .i8) 0
    if is 0 tag then .ok (out tag) else .error 25
  else if kind = kRt then
    let f := (Fmt.ofCode (fieldOf (w 1) 7 3)).getD .i32
    if is 0 (tagOf (intFmt (fmtSew f)) 0) && is 1 (tagOf f 0) then .ok [] else .error 25
  else
    -- a lane link: what its neighbour sends, where that is known
    match llFace s core k n with
    | some (o, m) =>
      match inputAt (slotOf s o k) m 0 with
      | some (q, _) =>
        let r := qOf (coreOf s o) q
        if r.tagset then .ok (out r.qtag.toNat) else .ok []
      | none => .ok []
    | none => .ok []

/-- Does a node round stochastically? -/
def nodeStoch (s : State) (core : Nat) (sl : ChSlot) (es : AMap Word) (vrm n : Nat) : Bool :=
  if nodeKind sl n = kVs then
    match stageOf sl n with
    | some r => (stageInstrs r.words).any (stageRounds vrm)
    | none => false
  else if nodeKind sl n = kMx then
    outputsOf sl n != [] && drmOf (tcwOf (coreOf s core) (fieldOf (aimW es n 0) 2 0)) vrm == Rnd.sr
  else false

/-- The leave that a run asks (spec/12 Table 12-5). -/
def runWeight (sl : ChSlot) (tags : AMap Nat) : Nat :=
  match (nodeList sl).find? fun n => nodeKind sl n == kMx with
  | some n =>
    let sew (p : Nat) : Nat := match inputAt sl n p with
      | some (q, _) => (match aget? tags q with | some t => fmtSew (qFmt t).1 | none => 8)
      | none => 8
    4 + mxWeight (max (sew 0) (sew 1))
  | none => if 8 ≤ (sl.nodes.filter fun x => x.1 == kMp).length then 4 else 0

/-- The plan of a run with some entries, or the cause and value of the trap. -/
def runPlan (s : State) (core k : Nat) (sl : ChSlot) (es : AMap Word) (pats : List (Nat × AMap Word)) (vrm seed : Nat) :
    Except Nat RunPlan :=
  let step (acc : Except Nat (AMap Nat)) (n : Nat) : Except Nat (AMap Nat) :=
    match acc with
    | .error c => .error c
    | .ok tags =>
      match nodeTags s core k sl es pats vrm n tags with
      | .error c => .error c
      | .ok l => if l.all fun p => tagFits p.2 then .ok (l.foldl (fun m p => aput m p.1 p.2) tags) else .error 26
  -- a queue that software feeds has the tag of the first QPUSH, if there was one
  let fed := (slotQs sl).filterMap fun q =>
    let r := qOf (coreOf s core) q
    if r.swin && r.tagset then some (q, r.qtag.toNat) else none
  match (topo sl.nodes.length sl.edges).foldl step (.ok fed) with
  | .error c => .error c
  | .ok tags =>
    let (seeds, seed) := (nodeList sl).foldl (fun (acc : AMap Word × Nat) n =>
      if nodeStoch s core sl es vrm n then
        let x := srNext acc.2
        (aput acc.1 n (w64 x), x)
      else acc) ([], seed)
    .ok ⟨tags, pats, runWeight sl tags, seeds, seed⟩

/-- Read a pattern descriptor for an engine. -/
def engPat (s : State) (x : ACtx) (va : Nat) : Except Stop (State × AMap Word) :=
  (List.range 8).foldlM (fun (acc : State × AMap Word) i => do
    let (s, w) ← engRead acc.1 x (va + 8 * i) 8
    .ok (s, if w = 0 then acc.2 else aput acc.2 i (w64 w))) (s, [])

/-- An armed run that was restored from an image reads its patterns and makes its plan when it starts; the state and the
cause where that fails. -/
def replan (s : State) (core k : Nat) (a : ArmCap) : State × Except Nat ArmCap :=
  let sl := slotOf s core k
  let es := sl.active
  let (s, r) := ((nodeList sl).filter fun n => nodeKind sl n == kMp).foldl
    (fun (acc : State × Except Nat (List (Nat × AMap Word))) n =>
      match acc.2 with
      | .error _ => acc
      | .ok l =>
        match engPat acc.1 a.ctx (aimW es n 0) with
        | .error (.page s _ _) => (s, .error 31)
        | .error (.bad s _ c) => (s, .error c)
        | .ok (s, d) =>
          let fed := inputsOf sl n != []
          if descOk d && (patOf d).store == fed then (s, .ok (l ++ [(nodeIx sl n, d)])) else (s, .error 26)) (s, .ok [])
  match r with
  | .error c => (s, .error c)
  | .ok pats =>
    match runPlan s core k sl es pats a.vrm 1 with
    | .error c => (s, .error c)
    | .ok p => (s, .ok { a with tags := p.tags, pats := pats, need := p.need })

/-- Start a run: its QTAGs, patterns and interlock entries, which may have to wait. One that is to complete temporally goes
straight to the checkpoint state (spec/08 R163). -/
def chLaunch (s : State) (core k : Nat) (a : ArmCap) : State :=
  let go (s : State) (a : ArmCap) : State :=
    let s := chEnter (chStart (setPlan s core a.tags) core k a) core k
    if bitOf (aget 0 (slotOf s core k).hdr 1).toNat 8 || a.runopt == 1 then chBroken s core k else chAsk s core k
  if a.pats = [] ∧ (slotOf s core k).nodes.any (fun x => x.1 == kMp) = true then
    match replan s core k a with
    | (s, .ok a) => go s a
    | (s, .error c) => updSlot s core k fun sl => { sl with state := .faulted, fin := true, cause := c, arm := none }
  else go s a

/-- End a run (spec/08 R162, Table 8-11): its leave, its interlock entries, its flags and `xtemporal`; a normal end resets
every node's progress. A pending aim becomes active, and an armed run starts. -/
def chEnd (s : State) (core k : Nat) (st : ChState) (node cause : Nat) : State :=
  let s := chRelease s core k
  let sl := slotOf s core k
  let s := chFreeArit s core sl
  let wasTemporal := decide (sl.state = .temporal)
  let normal := decide (st = .configured)
  let stopped := normal && decide (sl.state = .draining)
  let s := match chHart core sl with
    | none => s
    | some h =>
      let s := orXFlags s h sl.flags
      if normal && wasTemporal then updHart s h fun r => { r with xc := { r.xc with temporal := r.xc.temporal + 1 } } else s
  let sl := { sl with
    state := st, fin := true, tmp := normal && wasTemporal, stopped := stopped, node := node, cause := cause,
    afterDrain := 0, frozen := [], saved := [], boundNode := none, detachNode := none, fage := 0, mcIdle := [], bell := false,
    held := false, pats := if st = .bound then sl.pats else [],
    latch := if normal && !stopped then [] else sl.latch.map fun kv => (kv.1, { kv.2 with park := none, age := 0 }) }
  if st = .faulted then setSlot s core k { sl with arm := none }
  else
    let s := if sl.pending && st != .bound then overQs s core sl dropTokens else s
    let sl := if sl.pending then applyPend sl st node else sl
    let s := setSlot s core k sl
    match sl.arm with
    | none => s
    | some a => chLaunch s core k a

/-! ### Drains (spec/08 R167) -/

/-- Begin a drain of one slot: F withholds a fault, D is reachable from F, and every other node freezes. `after` is 4 for
BROKEN, 8 for FAULTED. -/
def drainSlot (s : State) (core k after : Nat) (extra : List Nat) : State :=
  let sl := slotOf s core k
  if sl.state ≠ .running ∧ sl.state ≠ .draining then s
  else
    let f := extra ++ parkedNodes sl
    let d := (reachFrom (innerEdges sl) 32 f).filter fun n => !f.contains n
    setSlot s core k { sl with
      state := .draining, afterDrain := max sl.afterDrain after,
      frozen := (nodeList sl).filter fun n => !d.contains n }

/-- Begin a drain of a whole group. -/
def drainGroup (s : State) (core k after : Nat) (extra : List Nat) : State :=
  (chGroup s core k).foldl (fun s c => drainSlot s c k after (if c = core then extra else [])) s

/-- A node's run fails with a cause: a drain that ends FAULTED, or from BROKEN or TEMPORAL the end at once. The other members
of a group end FAULTED with the same cause; which node they name is unspecified. Causes 31 and 50 are recorded in the
fault log (spec/13 R245, Table 13-1). -/
def chFault (s : State) (core k n cause va : Nat) : State :=
  let s := match (slotOf s core k).ctx with
    | some c => if cause = 31 ∨ cause = 50 then
        logFault s c.ctxbase c.tid cause (ghartOf s (8 * core + c.slot)) 3 (w64 va) 0 else s
    | none => s
  (chGroup s core k).foldl (fun s c =>
    let (nn, s) := if c = core then (n, s) else let (b, s) := freshBits s 5; (b.toNat, s)
    match (slotOf s c k).state with
    | .running | .draining =>
      let s := drainSlot s c k 8 (if c = core then [n] else [])
      updSlot s c k fun sl => if sl.cause = 0 then { sl with node := nn, cause := cause } else sl
    | .broken | .temporal => chEnd s c k .faulted nn cause
    | _ => s) s

/-- Park a node's access; a limit of 0 drains at once (spec/03 Table 3-6). -/
def chPark (s : State) (core k n src va kind : Nat) : State :=
  let sl := slotOf s core k
  match sl.ctx with
  | none => s
  | some c =>
    let (s, t) := postFault s c va kind src (.node core k n)
    let s := updLatch s core k n fun l => { l with park := some t, age := 0 }
    if sl.chto = 0 ∧ (sl.state = .running ∨ (sl.state = .draining ∧ sl.afterDrain = 0)) then drainGroup s core k 4 [] else s

/-- The reply to a record that a node waits on (spec/13 R247). -/
def nodeReply (s : State) (core k n token : Nat) (va : Nat) (fatal : Bool) : State :=
  if (latchOf (slotOf s core k) n).park ≠ some token then s
  else
    let s := updLatch s core k n fun l => { l with park := none, age := 0 }
    if fatal then chFault s core k n 31 va
    else chServed (updSlot s core k fun sl => { sl with fage := oldestPark sl }) core k

/-! ### The instructions -/

/-- The rule that an instruction to a slot that another hart owns raises cause 28 (spec/15 R292). -/
def chOwner (s : State) (i : Instr) (k : Nat) : Except Exc Unit :=
  let sl := slotOf s (myCore s) k
  orTrap (!(sl.owned && sl.owner != mySlot s)) s 28 (wordOf i)

/-- The slots that a hart owns. -/
def ownedBy (c : CoreSt) (g : Nat) : Nat := (c.slots.filter fun kv => kv.2.owned && kv.2.owner == g).length

/-- Discard a slot's tokens, pointers and latches, and give its queues back (spec/08 R159). -/
def chDiscard (s : State) (core k : Nat) : State :=
  let sl := slotOf s core k
  let s := overQs s core sl fun c q => setQ c q {}
  setSlot s core k {}

/-- CHCFG (spec/08 R158, R159; spec/15 R295). -/
def execChcfg (n : Fin 4) (a : RegIx) (s : State) : Host.Outcome State Fault Refusal :=
  let i : Instr := .chcfg n a
  finish i (do
    let core := myCore s
    let sl := slotOf s core n.val
    chOwner s i n.val
    if chActive sl.state then .error (.wait s)
    else
      let va := (rdX s a).toNat
      if va = 0 then
        orTrap sl.owned s 28 (wordOf i)
        .ok (nextPc (chDiscard s core n.val))
      else
        let c := coreOf s core
        orTrap (sl.owned || decide (ownedBy c (mySlot s) < 2)) s 28 (wordOf i)
        let bad : Except Exc State := .error (.trap s 26 (w64 va))
        match ownLoc core va 32 with
        | none => bad
        | some l =>
          let size := homeRead s (locAdd l 16) 4
          if va % 32 ≠ 0 ∨ (ownLoc core va size).isNone then bad
          else if locPoisoned s l size then .error (.trap s 51 (w64 va))
          else match rdDesc c core n.val (locReader s l) with
            | none => bad
            | some d =>
              if d.nodes.any fun x => x.1 == kMp && streamBusy c x.2 then .error (.wait s)
              else
                let s := chDiscard s core n.val
                let new : ChSlot := {
                  state := .configured, owned := true, owner := mySlot s, desc := w64 va, hdr := d.hdr, nodes := d.nodes,
                  edges := d.edges, stages := d.stages }
                let s := setSlot s core n.val new
                .ok (nextPc (overQs s core new fun c q =>
                  setQ c q { owned := true, slot := n.val,
                             swin := d.edges.any fun e => eQ e == q && softFrom d.nodes.length e,
                             swout := d.edges.any fun e => eQ e == q && softTo d.nodes.length e,
                             cmask := BitVec.ofNat 4 (2 ^ ((nodeEdges new).filter fun e => eQ e == q).length - 1) })))

/-- The source emissions of a pending aim are due once each source has passed its LAST (spec/08 R160); CHAIM itself only
records the block. -/
def chaimApply (sl : ChSlot) (es : AMap Word) : ChSlot :=
  let sl := { sl with aimgen := (sl.aimgen + 1) % 256 }
  match sl.state with
  | .running | .draining => { sl with pend := es, pending := true }
  | st => applyPend { sl with pend := es, aimed := true } st sl.node

/-- CHAIM (spec/08 R156, R160; spec/15 R293). -/
def execChaim (n : Fin 4) (a : RegIx) (s : State) : Host.Outcome State Fault Refusal :=
  let i : Instr := .chaim n a
  finish i (do
    let core := myCore s
    let sl := slotOf s core n.val
    chOwner s i n.val
    match sl.state with
    | .idle | .faulted => .error (.trap s 28 (wordOf i))
    | .broken | .temporal => .error (.wait s)
    | st => do
      if (st = .running ∨ st = .draining) ∧ sl.pending = true then .error (.wait s)
      else
        let va := (rdX s a).toNat
        orTrap (va % 32 == 0) s 26 (w64 va)
        let (s, r) ← readRecord s va (32 * sl.nodes.length) 24
        let es := aimWords sl.nodes.length r
        orTrap (aimBlockOk s core sl es) s 26 (w64 va)
        let s := if st = .configured ∨ st = .detached then overQs s core sl dropTokens else s
        .ok (nextPc (updSlot s core n.val fun sl => chaimApply sl es)))

/-- The pattern descriptors of the ports, read as the hart's loads: a bad one raises cause 26 with its address. -/
def readPats (s : State) (sl : ChSlot) (es : AMap Word) : Except Exc (State × List (Nat × AMap Word)) :=
  ((nodeList sl).filter fun n => nodeKind sl n == kMp).foldlM (fun (acc : State × List (Nat × AMap Word)) n => do
    let va := aimW es n 0
    let s := acc.1
    orTrap (va % 64 == 0) s 26 (w64 va)
    let (s, r) ← readRecord s va 64 24
    let d := descWords r
    let fed := inputsOf sl n != []
    orTrap (descOk d && (patOf d).store == fed && (outputsOf sl n != []) == !fed) s 26 (w64 va)
    .ok (s, acc.2 ++ [(nodeIx sl n, d)])) (s, [])

/-- Must a run wait for what its harts have issued before it: a matrix instruction, where the run holds the engine (spec/09 R190,
R191), or one that interlocks the registers of a hart whose lanes the run borrows (spec/08 R153)? -/
def runWaits (s : State) (core : Nat) (sl : ChSlot) : Bool :=
  (sl.nodes.any (fun n => n.1 == kMx) && (coreOf s core).engine.isSome) ||
    (vsNodes sl.nodes).any fun m => regsBusy s (8 * core + nodeIx sl m)

/-- CHRUN (spec/08 R162, R163; spec/15 R298). -/
def execChrun (n : Fin 4) (a : RegIx) (s : State) : Host.Outcome State Fault Refusal :=
  let i : Instr := .chrun n a
  finish i (do
    let core := myCore s
    let sl := slotOf s core n.val
    chOwner s i n.val
    let opt := rdX s a
    orTrap (decide (opt.toNat < 2)) s 28 (wordOf i)
    let arming := (decide (sl.state = .running) || decide (sl.state = .draining)) && sl.pending && sl.arm.isNone
    match sl.state with
    | .idle | .faulted => .error (.trap s 28 (wordOf i))
    | st => do
      orTrap (decide (st ≠ .configured) || sl.aimed) s 28 (wordOf i)
      if !arming && (chActive st || runWaits s core sl) then .error (.wait s)
      else
        let es := if arming then sl.pend else sl.active
        let (s, pats) ← readPats s sl es
        let h := me s
        match runPlan s core n.val sl es pats h.xc.rm.toNat h.xc.srseed.toNat with
        | .error c => .error (.trap s c (if c = 26 then sl.desc else wordOf i))
        | .ok p => do
          let c := hartCtx s s.cur
          let armed := pats.any fun t =>
            let (lo, hi) := patRange (patOf t.2)
            armMeets s core c.slot lo (hi - lo) (patOf t.2).store
          if armed || (!arming && (patsBlocked s core c.slot pats || decide (aritRoom (coreOf s core) < pats.length))) then
            .error (.wait s)
          else
            let s ← if arming || p.need == 0 then .ok (withdrawLeave s s.cur) else askLeave s p.need
            let widths := (vsNodes sl.nodes).map fun m => (m, (hartOf s (8 * core + nodeIx sl m)).xc.grant)
            let cap : ArmCap :=
              ⟨opt, h.xc.chto.toNat, h.xc.mcto.toNat, h.xc.rm.toNat, c, widths, p.seeds, p.need, p.tags, pats⟩
            let s := drainWc (updX s fun x => { x with srseed := w64 p.seed }) s.cur
            if arming then .ok (nextPc (updSlot s core n.val fun sl => { sl with arm := some cap }))
            else .ok (nextPc (chLaunch (updSlot s core n.val fun sl => { sl with leave := p.need }) core n.val cap)))

/-- Word 0 of the slot record (spec/08 Table 8-10). -/
def slotWord (sl : ChSlot) : Nat :=
  let b (x : Bool) (k : Nat) : Nat := if x then 2 ^ k else 0
  chCode sl.state + b sl.tmp 4 + b sl.fin 5 + b sl.stopped 6 + sl.node % 32 * 2 ^ 8 + sl.cause % 64 * 2 ^ 13 + b sl.aimed 19 +
    b sl.pending 20 + b sl.arm.isSome 21 + b sl.owned 22 + sl.owner % 8 * 2 ^ 23 + b sl.bell 26

/-- The status word that CHWAIT and CHST return; 0 in IDLE. -/
def slotStatus (sl : ChSlot) : Word := if sl.state = .idle then 0 else w64 (slotWord sl % 2 ^ 19)

/-- CHWAIT (spec/08 R161; spec/15 R300). -/
def execChwait (n : Fin 4) (d : RegIx) (s : State) : Host.Outcome State Fault Refusal :=
  let i : Instr := .chwait n d
  finish i (do
    chOwner s i n.val
    let sl := slotOf s (myCore s) n.val
    if chActive sl.state then .error (.wait s) else .ok (nextPc (wrX s d (slotStatus sl))))

/-- CHST (spec/08 R161; spec/15 R300). -/
def execChst (n : Fin 4) (d : RegIx) (s : State) : Host.Outcome State Fault Refusal :=
  let i : Instr := .chst n d
  finish i (do
    chOwner s i n.val
    .ok (nextPc (wrX s d (slotStatus (slotOf s (myCore s) n.val)))))

/-- Every source of a slot owes a marker. -/
def oweMarks (s : State) (core k sub : Nat) : State :=
  updSlot s core k fun sl =>
    { sl with latch := (nodeList sl).foldl (fun m n =>
        let l := latchOf sl n
        if isSource sl n && !l.done && l.stop == 0 then aput m n { l with owe := sub } else m) sl.latch }

/-- CHDRN (spec/15 R296): the checkpoint markers are due, and every member of the group becomes DRAINING. -/
def execChdrn (n : Fin 4) (s : State) : Host.Outcome State Fault Refusal :=
  let i : Instr := .chdrn n
  finish i (do
    chOwner s i n.val
    let core := myCore s
    if (slotOf s core n.val).state ≠ .running then .ok (nextPc s)
    else .ok (nextPc ((chGroup s core n.val).foldl (fun s c =>
      if (slotOf s c n.val).state = .running then
        oweMarks (updSlot s c n.val fun sl => { sl with state := .draining }) c n.val mkCheck
      else s) s)))

/-- CHBRK (spec/08 R170; spec/15 R294): every node freezes, and the slot is BROKEN at once; a drain that is to end FAULTED
ends so. -/
def execChbrk (n : Fin 4) (s : State) : Host.Outcome State Fault Refusal :=
  let i : Instr := .chbrk n
  finish i (do
    chOwner s i n.val
    let core := myCore s
    let st := (slotOf s core n.val).state
    if st ≠ .running ∧ st ≠ .draining then .ok (nextPc s)
    else .ok (nextPc ((chGroup s core n.val).foldl (fun s c =>
      let sl := slotOf s c n.val
      if sl.state = .running ∨ sl.state = .draining then
        (if sl.afterDrain = 8 then chEnd s c n.val .faulted sl.node sl.cause else chBroken s c n.val)
      else s) s)))

end Sys2Proof.Machine
end

