-- ==== Sys2Proof/Machine/ChainNodes.lean ====
section
/-!
DEFINITION. What one firing of each node kind does (spec/08 R153 to R155; spec/19 R384, R385). A firing is none where the node
cannot fire.
-/
namespace Sys2Proof.Machine

/-! ### Rows and elements at the head of an input -/

/-- Data tokens taken from a queue: the slots they stand in, each token's payload, bytes and scales, whether LAST is among
them, and whether a marker or config token ends them. -/
structure Row where
  slots : Nat := 0
  toks : List (Nat × Nat × Nat) := []
  last : Bool := false
  cut : Bool := false

/-- Data tokens from a counter, at most `max`. The first argument is the tokens the queue holds. -/
def scanRow : Nat → CoreSt → Nat → Nat → Nat → Nat → Nat → Row → Row
  | 0, _, _, _, _, _, _, r => r
  | n + 1, c, q, ctr, max, pass, sc, r =>
    if r.toks.length = max then r
    else
      let t := tokAt c q ctr
      if t.kind = tkMarker ∨ t.kind = tkConfig then { r with cut := true }
      else if t.kind = tkScale then scanRow n c q ((ctr + 1) % 512) max (pass + 1) t.pay r
      else
        let r := { r with slots := pass + 1, toks := r.toks ++ [(t.pay % 2 ^ (8 * t.bytes), t.bytes, sc)], last := t.last }
        if t.last then r else scanRow n c q ((ctr + 1) % 512) max (pass + 1) sc r

/-- The row at the head of consumer j of a queue. -/
def rowAt (c : CoreSt) (q j max : Nat) : Row :=
  let r := qOf c q
  scanRow (qOcc r j) c q (rpOf r j) max 0 0 {}

/-- Elements taken from an input that may stop within a token: patterns with the scale and place of their block, the slots
freed, the elements used of the head that is left, whether a token with LAST was used up. -/
structure Els where
  vals : List (Nat × Nat × Nat) := []
  slots : Nat := 0
  used : Nat := 0
  last : Bool := false

/-- Take up to `want` elements from a counter, the first `used` of the head token being used already. -/
def scanEls : Nat → CoreSt → Nat → Nat → Nat → Nat → Nat → (sew b sb : Nat) → Els → Els
  | 0, _, _, _, _, _, _, _, _, _, e => e
  | n + 1, c, q, ctr, want, pass, sc, sew, b, sb, e =>
    if e.vals.length = want then e
    else
      let t := tokAt c q ctr
      if t.kind = tkMarker ∨ t.kind = tkConfig then e
      else if t.kind = tkScale then scanEls n c q ((ctr + 1) % 512) want (pass + 1) t.pay sew b sb e
      else
        let total := t.bytes * 8 / sew
        let k := min (total - e.used) (want - e.vals.length)
        let vs := (List.range k).map fun i =>
          let x := e.used + i
          (elemOf sew t.pay x, if b = 0 then 0 else (sc >>> (8 * sb * (x / b))) % 2 ^ (8 * sb), if b = 0 then 0 else x % b)
        if e.used + k = total then
          let e := { e with vals := e.vals ++ vs, slots := pass + 1, used := 0, last := t.last }
          if t.last then e else scanEls n c q ((ctr + 1) % 512) want (pass + 1) sc sew b sb e
        else { e with vals := e.vals ++ vs, used := e.used + k }

/-- Elements of a format at consumer j of a queue. -/
def elsAt (c : CoreSt) (q j used want : Nat) (f : Fmt) (blk : Nat) : Els :=
  let r := qOf c q
  scanEls (qOcc r j) c q (rpOf r j) want 0 0 (fmtSew f) (blkOf f blk) (scaleBytes f) { used := used }

/-- Bits at consumer j of a queue. -/
def bitsAt (c : CoreSt) (q j used want : Nat) : Els :=
  let r := qOf c q
  scanEls (qOcc r j) c q (rpOf r j) want 0 0 1 0 1 { used := used }

/-! ### Taking and emitting -/

/-- Consumer j of a queue passes n slots: saved rows are used up first, and the consumer holds nobody back now. -/
def chTake (s : State) (core k q j n : Nat) : State :=
  if n = 0 then s
  else
    let s := updCore s core fun c => tokTake c q j n
    updSlot s core k fun sl => { sl with
      saved := (let m := aget 0 sl.saved (4 * q + j); if m = 0 then sl.saved else aput sl.saved (4 * q + j) (m - n)),
      mcIdle := adel sl.mcIdle (4 * q + j) }

/-- Has every output queue of a node room for a pack? -/
def chRoom (s : State) (core : Nat) (qs : List Nat) (p : Pack) : Bool :=
  qs.all fun q => packRoom (qOf (coreOf s core) q) p

/-- Append a pack to output queues; a queue whose tag CHRUN could not know takes it from its first data. -/
def chEmit (s : State) (core : Nat) (qs : List Nat) (p : Pack) (tag : Nat) (last hold : Bool) : State :=
  updCore s core fun c => qs.foldl (fun c q =>
    let c := if (qOf c q).tagset then c else setQ c q { qOf c q with qtag := BitVec.ofNat 8 tag, tagset := true }
    emitPack c q p last hold) c

/-- Or flags into those of a run. -/
def chFlags (s : State) (core k fl : Nat) : State := updSlot s core k fun sl => { sl with flags := sl.flags ||| fl % 64 }

/-- May a node fire at all: not finished, parked, stopped, switched, detached or frozen? -/
def nodeFree (sl : ChSlot) (n : Nat) : Bool :=
  let l := latchOf sl n
  !l.done && l.park.isNone && l.stop == 0 && !l.newAim && !l.detached && !sl.frozen.contains n

/-- A pack of elements. -/
def packOf (f : Fmt) (blk : Nat) (vals scales : List Nat) : Pack :=
  ⟨f, blk, (vals.length * fmtSew f + 7) / 8, packElems (fmtSew f) vals, packElems (8 * scaleBytes f) scales, 0, 0⟩

/-- A pack of n zero bytes: what room is asked for. -/
def blankPack (f : Fmt) (blk n : Nat) : Pack := ⟨f, blk, n, 0, 0, 0, 0⟩

/-! ### Vector stages (spec/08 R153) -/

/-- Put a row into a bound register: its bytes, its scales, and the queue's tag on the register group. -/
def loadRow (h : Hart) (lanes v lg tag : Nat) (r : Row) : Hart :=
  let (f, blk) := qFmt tag
  let (g, n) := r.toks.foldl (fun (acc : Nat × Nat) t => (acc.1 + t.1 * 2 ^ (8 * acc.2), acc.2 + t.2.1)) (0, 0)
  let h := hartSetV h v (withField (hartV h v) (8 * n - 1) 0 g)
  let h := setTags h v (2 ^ lg) tag
  if tokScaled f blk then
    (r.toks.foldl (fun (acc : Hart × Nat) t =>
      ((List.range (tokBlocks f blk t.2.1)).foldl (fun h j =>
        wrScale h lanes v f blk (acc.2 / blockBytes f blk + j) ((t.2.2 >>> (8 * scaleBytes f * j)) % 2 ^ (8 * scaleBytes f))) acc.1,
        acc.2 + t.2.1)) (h, 0)).1
  else h

/-- Data bytes of a row. -/
def rowLen (r : Row) : Nat := (r.toks.map fun t => t.2.1).sum

/-- The data that a firing appends from an output-bound register. -/
def outPack (h : Hart) (lanes v n : Nat) : Pack :=
  let (f, blk) := qFmt (hartTag h v)
  let bits := n * fmtSew f
  let regs := (bits + 1024 * lanes - 1) / (1024 * lanes)
  let nb := (bits + 7) / 8
  ⟨f, blk, nb, rdGroup h (1024 * lanes) v regs % 2 ^ bits, if tokScaled f blk then groupScales h lanes v f blk nb else 0, 0, 0⟩

/-- A firing of a vector stage. -/
def fireVs (s : State) (core k n : Nat) : Option State :=
  let sl := slotOf s core k
  match stageOf sl n with
  | none => some (chFault s core k n 26 0)
  | some r =>
    let vt := fieldOf (aimW sl.active n 0) 11 0
    match vtypeOf vt with
    | none => some (chFault s core k n 24 0)
    | some (lg, f, blk) =>
      let c := coreOf s core
      let w := aget 1 sl.widths n
      let l := latchOf sl n
      let edges := inputsOf sl n
      -- the k-th binding of a queue names the k-th of the node's edges on it
      let ins := (r.binds.filter fun b => !b.2.2).zipIdx.filterMap fun p =>
        let nth := (((r.binds.filter fun b => !b.2.2).take p.2).filter fun b => b.2.1 == p.1.2.1).length
        ((edges.filter fun e => e.2.1 == p.1.2.1)[nth]?).map fun e => (p.1.1, e.1, e.2.1, e.2.2)
      let ended (port : Nat) : Bool := bitOf l.lasts.toNat port
      let rows0 := ins.map fun x => (x, rowAt c x.2.2.1 x.2.2.2 w)
      -- a row that a marker cuts short cuts the others to its length
      let m := rows0.foldl (fun m p => if p.2.cut then min m p.2.toks.length else m) w
      let rows := ins.map fun x => (x, rowAt c x.2.2.1 x.2.2.2 m)
      let open_ := rows.filter fun p => !ended p.1.2.1
      if ins = [] ∨ m = 0 ∨ open_.any (fun p => p.2.toks.length != m && !p.2.last) = true then none
      else
        let len := (open_.map fun p => rowLen p.2).foldl max 0
        if open_.length ≠ rows.length ∨ open_.any (fun p => rowLen p.2 != len) = true then some (chFault s core k n 28 0)
        else
          let hk := 8 * core + nodeIx sl n
          let h := hartOf s hk
          let lanes := lanesOf s hk
          let cnt := len * 8 / fmtSew f
          let h1 := stageHart h vt cnt sl.vrm l.gen fun i => w64 (aimW sl.active n i)
          let h1 := rows.foldl (fun h p => loadRow h lanes p.1.1 lg (qOf c p.1.2.2.1).qtag.toNat p.2) h1
          match (do
            let (s, ws) ← stageWords s core sl r
            stageRun (256 / fmtSew f) cnt sl.vrm (lg, f, blk) ws (setHart { s with cur := hk } hk h1)) with
          | .error cause => some (chFault s core k n cause 0)
          | .ok (t, lens) =>
            let ha := hartOf t hk
            let last := rows.all fun p => p.2.last
            let outs := (r.binds.filter fun b => b.2.2).map fun b =>
              (b.2.1, outPack ha lanes b.1 (aget cnt lens b.1), hartTag ha b.1)
            if outs.any fun o => !chRoom s core [o.1] o.2.1 then none
            else
              let s := setHart { t with cur := s.cur } hk (stageKeep h ha)
              let s := rows.foldl (fun s p => chTake s core k p.1.2.2.1 p.1.2.2.2 p.2.slots) s
              let s := outs.foldl (fun s o => chEmit s core [o.1] o.2.1 o.2.2 last false) s
              let lasts := rows.foldl (fun m p => if p.2.last then m ||| 2 ^ p.1.2.1 else m) l.lasts.toNat
              let s := updLatch s core k n fun l =>
                { l with gen := ha.xc.srseed, lasts := BitVec.ofNat 8 lasts, done := last }
              some (chFlags s core k ha.xc.flags.toNat)

/-! ### The matrix node (spec/08 R154, spec/19 R384) -/

/-- The elements of an operand port. -/
def mxEls (c : CoreSt) (sl : ChSlot) (n port used want : Nat) : Els :=
  match inputAt sl n port with
  | none => {}
  | some (q, j) => let (f, blk) := qFmt (qOf c q).qtag.toNat; elsAt c q j used want f blk

/-- Take what was scanned from a port. -/
def mxTake (s : State) (core k n port : Nat) (e : Els) : State :=
  match inputAt (slotOf s core k) n port with
  | none => s
  | some (q, j) =>
    let s := chTake s core k q j e.slots
    updLatch s core k n fun l =>
      let l := setHeadUsed kMx l port e.used
      if e.last then { l with lasts := l.lasts ||| BitVec.ofNat 8 (2 ^ port) } else l

/-- Values of taken elements. -/
def elVals (f : Fmt) (blk : Nat) (e : Els) : List FVal := e.vals.map fun v => elemVal f blk v.1 v.2.1 v.2.2

/-- Emit the tile: its M rows down-converted row-major, each padded to whole blocks; then it is zeroed. None without room. -/
def mxEmit (s : State) (core k n : Nat) : Option State :=
  let sl := slotOf s core k
  let w := aimW sl.active n
  let t := fieldOf (w 0) 2 0
  let c := coreOf s core
  let tw := tcwOf c t
  let m := 2 ^ fieldOf (w 0) 5 3
  let nn := 2 ^ fieldOf (w 0) 8 6
  let f := tcwDfmt tw
  let b := blkOf f (tcwDblk tw)
  let pad := if b = 0 then 0 else roundUp nn b - nn
  let outs := outputsOf sl n
  if outs = [] then some (updLatch s core k n fun l => { l with done := true })
  else
    let (es, scs, st) := (List.range m).foldl (fun (acc : List Nat × List Nat × NumSt) i =>
      let (e, sc, st) := downRow (tcwInt tw) tw (drmOf tw sl.vrm) (tileRow c t i nn) acc.2.2
      (acc.1 ++ e ++ List.replicate pad 0, acc.2.1 ++ sc, st)) ([], [], ⟨(latchOf sl n).gen.toNat, 0⟩)
    let p := packOf f (tcwDblk tw) es scs
    if chRoom s core outs p then
      let s := mzeroPerform (chEmit s core outs p (downTag tw) true false) core t
      let s := updLatch s core k n fun l => { l with gen := w64 st.seed, done := true }
      some (chFlags s core k st.flags)
    else none

/-- The tail of an operation: tokens behind the final pass are discarded up to LAST; then the tile is emitted. -/
def mxTail (s : State) (core k n : Nat) : Option State :=
  let sl := slotOf s core k
  let l := latchOf sl n
  let ports := ([0, 1, 2].filter fun p => (inputAt sl n p).isSome && !bitOf l.lasts.toNat p)
  let es := ports.map fun p => (p, mxEls (coreOf s core) sl n p (headUsed kMx l p) 65536)
  let some_ := es.any fun p => p.2.slots != 0
  let s := es.foldl (fun s p => mxTake s core k n p.1 p.2) s
  if es.all fun p => p.2.last then
    match mxEmit s core k n with
    | some t => some t
    | none => if some_ then some s else none
  else if some_ then some s else none

/-- The factor of a compressed column at a K position (spec/09 R188): the sum of the kept elements that name it. -/
def keptVal (col : List FVal) (metaBits spm spn kk : Nat) : Option FVal :=
  let lg := Nat.log2 spm
  sumVals ((List.range spn).filterMap fun j =>
    let p := kk / spm * spn + j
    if (metaBits >>> (p * lg)) % 2 ^ lg = kk % spm then col[p]? else none)

/-- Has LAST been taken on every input of the matrix node? -/
def mxEnded (sl : ChSlot) (n : Nat) : Bool :=
  [0, 1, 2].all fun p => (inputAt sl n p).isNone || bitOf (latchOf sl n).lasts.toNat p

/-- A firing of the matrix node: one K-pass, once all of its chunks are present. The final pass takes LAST, where it stands at
its end, and then the tile is emitted in the same firing, which waits for its room. -/
def fireMx (s : State) (core k n : Nat) : Option State :=
  let sl := slotOf s core k
  let l := latchOf sl n
  let w := aimW sl.active n
  let t := fieldOf (w 0) 2 0
  let m := 2 ^ fieldOf (w 0) 5 3
  let nn := 2 ^ fieldOf (w 0) 8 6
  let sparse := bitOf (w 0) 9
  let kAll := w 1
  let c := coreOf s core
  let tw := tcwOf c t
  match inputAt sl n 0, inputAt sl n 1 with
  | some (qa, _), some (qb, _) =>
    if l.tail || kAll == 0 then mxTail s core k n
    else
      let (fa, ba) := qFmt (qOf c qa).qtag.toNat
      let (fb, bb) := qFmt (qOf c qb).qtag.toNat
      let kp := 1024 / max (fmtSew fa) (fmtSew fb)
      let k0 := l.i0 * kp
      let kk := min kp (kAll - k0)
      let spm := tcwSpm tw
      let spn := tcwSpn tw
      let kb := if sparse then kk / spm * spn else kk
      let mBytes := roundUp (kb * Nat.log2 spm) 8 / 8
      let ea := mxEls c sl n 0 l.i1 (m * kk)
      let eb := mxEls c sl n 1 l.i2 (nn * kb)
      let em := match inputAt sl n 2 with
        | some (q, j) => if sparse then elsAt c q j l.used (nn * mBytes) .i8 0 else {}
        | none => {}
      if ea.vals.length < m * kk ∨ eb.vals.length < nn * kb ∨ (sparse = true ∧ em.vals.length < nn * mBytes) then none
      else
        let va := elVals fa ba ea
        let vb := elVals fb bb eb
        let isInt := tcwInt tw
        let (g, fl, ovf) := (List.range m).foldl (fun (acc : Nat × Nat × Bool) i =>
          (List.range nn).foldl (fun (acc : Nat × Nat × Bool) j =>
            let row := (va.drop (i * kk)).take kk
            let col := (vb.drop (j * kb)).take kb
            let mb := natOfBytes (((em.vals.drop (j * mBytes)).take mBytes).map fun v => BitVec.ofNat 8 v.1)
            let ks := row.zipIdx.map fun p =>
              mxPair p.1 (if sparse then keptVal col mb spm spn p.2 else col[p.2]?)
            let (r, f, o) := passes isInt kp 1 (tileElem acc.1 i j) ks 0 false
            (setTileElem acc.1 i j r, acc.2.1 ||| f, acc.2.2 || o)) acc) (acBits c t, 0, false)
        let s := setTile s core t g (tcwTag tw)
        let s := if ovf then setTcw s core t (tw ||| 2 ^ 32) else s
        let s := mxTake (mxTake s core k n 0 ea) core k n 1 eb
        let s := if sparse then mxTake s core k n 2 em else s
        let s := updLatch s core k n fun l => { l with i0 := l.i0 + 1, tail := decide (kAll ≤ k0 + kk) }
        let s := chFlags s core k fl
        if (latchOf (slotOf s core k) n).tail && mxEnded (slotOf s core k) n then mxEmit s core k n else some s
  | _, _ => none

/-! ### Memory ports (spec/08 R155, R165) -/

/-- A position kept in a latch. -/
def latchPos (l : NodeLatch) : Pos := ⟨l.i0, l.i1, l.i2, l.off⟩
def setLatchPos (l : NodeLatch) (x : Pos) : NodeLatch := { l with i0 := x.i0, i1 := x.i1, i2 := x.i2, off := x.off }

/-- How an access stops a node. -/
def chStop (core k n src : Nat) (e : Stop) : State :=
  match e with
  | .page s va kind => chPark s core k n src va kind
  | .bad s va cause => chFault s core k n cause va

/-- Free the interlock entry of a source. -/
def srcFree (s : State) (core src : Nat) : State :=
  updCore s core fun c => { c with arit := afilter c.arit fun _ e => e.src != src }

/-- Does an access meet an entry of the issuing hart that is not one of this run's own? -/
def ownBlocks (s : State) (core : Nat) (sl : ChSlot) (slot va n : Nat) (wr : Bool) : Bool :=
  aritBlocks (updCore s core fun c => { c with arit := afilter c.arit fun _ e => !isOwnSrc sl e.src }) core slot va n wr

/-- The same for the elements at some addresses, which wait for the hart's reductions too. -/
def elsBlocked (s : State) (core : Nat) (sl : ChSlot) (slot : Nat) (vas : List Nat) (n : Nat) (wr : Bool) : Bool :=
  vas.any fun va => ownBlocks s core sl slot va n wr || redMeets s core slot va n

/-- A load port emits its next piece. -/
def fireLoad (s : State) (core k n : Nat) (x : ACtx) (p : Pat) : Option State :=
  let sl := slotOf s core k
  let l := latchOf sl n
  let port := nodeIx sl n
  let outs := outputsOf sl n
  let pos := latchPos l
  let pf := match outs with | q :: _ => (qOf (coreOf s core) q).pfill | [] => 0
  let cnt := loadCount p pos pf
  if !chRoom s core outs (blankPack p.f p.blk (cnt * fmtSew p.f / 8)) then none
  else match loadPiece s x p pos pf with
    | .error e => some (chStop core k n port e)
    | .ok (s, pk, m) =>
      let pos := patStep p pos m
      let last := patDone p pos
      let s := chEmit s core outs pk (tagOf p.f p.blk) last false
      let s := updLatch s core k n fun l => { setLatchPos l pos with done := last }
      let s := portAdvance s core port p pos
      some (if last then srcFree s core port else s)

/-- Is a store port's next unit past its bound or its pattern? -/
def portBlocked (p : Pat) (l : NodeLatch) : Bool := unitBlocked p (latchPos l)

/-- A store port writes what it can of its head token. -/
def fireStore (s : State) (core k n : Nat) (x : ACtx) (p : Pat) : Option State :=
  let sl := slotOf s core k
  let l := latchOf sl n
  let port := nodeIx sl n
  match inputAt sl n 0 with
  | none => none
  | some (q, j) =>
    let r := rowAt (coreOf s core) q j 1
    match r.toks with
    | [] => none
    | (pay, bytes, sc) :: _ =>
      if portBlocked p l then none
      else
        let els := bytes * 8 / fmtSew p.f - l.used
        let b := blkOf p.f p.blk
        let c := coreOf s core
        let m := if b = 0 then 0 else scaleBytes p.f * (l.used / b)
        let poi := poiAt c q (rpOf (qOf c q) j + r.slots - 1) >>> (fmtSew p.f * l.used / 8)
        let poiS := if b = 0 then 0 else poiAt c q (rpOf (qOf c q) j + r.slots - 2) >>> m
        let run := storeUnits (els + 1) s x p (latchPos l) (pay >>> (fmtSew p.f * l.used)) (sc >>> (8 * m)) poi poiS els 0
        let all := run.n == els
        let s := if all then chTake run.s core k q j r.slots else run.s
        let s := updLatch s core k n fun l =>
          { setLatchPos l run.x with used := if all then 0 else l.used + run.n, done := all && r.last }
        let s := portAdvance s core port p run.x
        some (match run.stop with
          | some (.page _ va kind) => chPark s core k n port va kind
          | some (.bad _ va cause) => chFault s core k n cause va
          | none => if all && r.last then srcFree s core port else s)

/-- A firing of a memory port. -/
def fireMp (s : State) (core k n : Nat) : Option State :=
  let sl := slotOf s core k
  match sl.ctx, portPat sl n with
  | some x, some p => if p.store then fireStore s core k n x p else fireLoad s core k n x p
  | _, _ => none

/-! ### Address generators (spec/08 R155, spec/19 R385) -/

/-- The addresses of the elements that indices name. -/
def ixVas (base : Nat) (e : Els) : List Nat := e.vals.map fun v => (base + v.1) % 2 ^ 64

/-- The interlock entry of an index token's accesses. -/
def ixArit (wr rd : Bool) (src slot n : Nat) (vas : List Nat) : Arit :=
  ⟨wr, rd, src, slot, vas.foldl min (2 ^ 64), vas.foldl max 0 + n⟩

/-- Read elements until one fails. -/
def gatherVals (s : State) (x : ACtx) (n : Nat) (vas : List Nat) : State × List Nat × Option Stop :=
  vas.foldl (fun acc va =>
    match acc.2.2 with
    | some _ => acc
    | none =>
      match engRead acc.1 x va n with
      | .ok (s, v) => (s, acc.2.1 ++ [v], none)
      | .error e => (acc.1, acc.2.1, some e)) (s, [], none)

/-- Write elements until one fails; gives how many were written. -/
def scatterVals (s : State) (x : ACtx) (n : Nat) (ps : List (Nat × Nat)) : State × Nat × Option Stop :=
  ps.foldl (fun acc p =>
    match acc.2.2 with
    | some _ => acc
    | none =>
      match engWrite acc.1 x p.1 n p.2 with
      | .ok s => (s, acc.2.1 + 1, none)
      | .error e => (acc.1, acc.2.1, some e)) (s, 0, none)

/-- Element addresses in groups: the first of a size, the others of another. The counter bounds the groups. -/
def tokGroups : Nat → Nat → Nat → List Nat → List (List Nat)
  | 0, _, _, _ => []
  | k + 1, a, b, l => if l = [] then [] else l.take a :: tokGroups k b b (l.drop a)

/-- Enter one interlock entry for each index token in flight (spec/07 R138). -/
def enterToks (s : State) (core : Nat) (wr rd : Bool) (src slot n : Nat) (gs : List (List Nat)) : State :=
  gs.foldl (fun s vas => (aritEnter s core (ixArit wr rd src slot n vas)).1) s

/-- A firing of an address generator that scatters: the elements of its head index token. What a fault leaves unwritten stays. -/
def fireScatter (s : State) (core k n : Nat) (x : ACtx) (q j : Nat) : Option State :=
  let sl := slotOf s core k
  let l := latchOf sl n
  let w := aimW sl.active n
  let src := 18 + nodeIx sl n
  let f := (Fmt.ofCode (fieldOf (w 1) 4 0)).getD .i8
  let ixf := intFmt (idxBits (bitOf (w 1) 6))
  let nb := fmtSew f / 8
  let c := coreOf s core
  let row := rowAt c q j 1
  let vas := ixVas (w 0) (elsAt c q j l.off ((row.toks.map fun t => t.2.1 * 8 / fmtSew ixf).sum - l.off) ixf 0)
  let s0 := srcFree s core src
  match inputAt sl n 1 with
  | none => none
  | some (qv, jv) =>
    let ev := elsAt c qv jv l.used vas.length f 0
    if row.toks = [] ∨ aritRoom (coreOf s0 core) = 0 ∨ ev.vals.length < vas.length ∨ elsBlocked s0 core sl x.slot vas nb true = true
    then none
    else
      let (s1, m, stop) := scatterVals s0 x nb (vas.zip (ev.vals.map fun v => v.1))
      let ev := elsAt c qv jv l.used m f 0
      let s1 := chTake s1 core k qv jv ev.slots
      match stop with
      | none =>
        let s1 := chTake s1 core k q j row.slots
        some (updLatch s1 core k n fun l => { l with i0 := l.i0 + m, off := 0, used := ev.used, done := row.last })
      | some e =>
        let s1 := updLatch s1 core k n fun l => { l with i0 := l.i0 + m, off := l.off + m, used := ev.used }
        let s1 := enterToks s1 core true false src x.slot nb [vas.drop m]
        some (match e with
          | .page _ va kind => chPark s1 core k n src va kind
          | .bad _ va cause => chFault s1 core k n cause va)

/-- A firing of an address generator that gathers: the elements of its next value token, from as many index tokens as that takes.
A fault withholds the whole value token, and the index tokens that it needs stay (spec/19 R385). -/
def fireGather (s : State) (core k n : Nat) (x : ACtx) (q j : Nat) : Option State :=
  let sl := slotOf s core k
  let l := latchOf sl n
  let w := aimW sl.active n
  let src := 18 + nodeIx sl n
  let f := (Fmt.ofCode (fieldOf (w 1) 4 0)).getD .i8
  let ixf := intFmt (idxBits (bitOf (w 1) 6))
  let nb := fmtSew f / 8
  let c := coreOf s core
  let per := 256 / fmtSew f
  let ix := elsAt c q j l.off per ixf 0
  let vas := ixVas (w 0) ix
  let toks := 256 / fmtSew ixf
  let gs := tokGroups 33 (toks - l.off) toks vas
  let s0 := srcFree s core src
  let outs := outputsOf sl n
  if (vas.length < per ∧ ix.last = false) ∨ aritRoom (coreOf s0 core) < gs.length ∨ elsBlocked s0 core sl x.slot vas nb false = true ∨
      chRoom s core outs (blankPack f 0 (vas.length * nb)) = false then none
  else
    let (s1, vs, stop) := gatherVals s0 x nb vas
    match stop with
    | none =>
      let s1 := chEmit s1 core outs (packOf f 0 vs []) (tagOf f 0) ix.last false
      let s1 := chTake s1 core k q j ix.slots
      some (updLatch s1 core k n fun l => { l with i0 := l.i0 + vs.length, off := ix.used, done := ix.last })
    | some e =>
      let s1 := enterToks s1 core false true src x.slot nb gs
      some (match e with
        | .page _ va kind => chPark s1 core k n src va kind
        | .bad _ va cause => chFault s1 core k n cause va)

/-- A firing of an address generator. -/
def fireAg (s : State) (core k n : Nat) : Option State :=
  let sl := slotOf s core k
  match sl.ctx, inputAt sl n 0 with
  | some x, some (q, j) => if bitOf (aimW sl.active n 1) 5 then fireScatter s core k n x q j else fireGather s core k n x q j
  | _, _ => none

/-! ### The sparse header (spec/08 R155) -/

/-- The set bits of a number below a width. -/
def bitsOf (w v : Nat) : List Nat := (List.range w).filter fun i => bitOf v i

/-- A firing of a sparse header: 64 bits of its head tokens, or with TREE the leaf word of its next set bit. Bits beyond
an input's tokens count as 0. -/
def fireSh (s : State) (core k n : Nat) : Option State :=
  let sl := slotOf s core k
  let l := latchOf sl n
  let w := aimW sl.active n
  let c := coreOf s core
  let ins := (inputsOf sl n).map fun e => (e, rowAt c e.2.1 e.2.2 1)
  let ended (p : Nat) : Bool := bitOf l.lasts.toNat p
  if ins = [] ∨ ins.any (fun p => p.2.toks == [] && !ended p.1.1) = true ∨ ins.all (fun p => ended p.1.1) = true then none
  else
    let word (p : (Nat × Nat × Nat) × Row) : Nat := (p.2.toks.map fun t => t.1).sum
    let len := (ins.map fun p => (p.2.toks.map fun t => t.2.1).sum).foldl max 0
    let bits := if bitOf (w 0) 0 then ins.foldl (fun v p => v ||| word p) 0
      else ins.foldl (fun v p => v &&& word p) (2 ^ 256 - 1)
    let outs := outputsOf sl n
    let last := ins.all fun p => p.2.last || ended p.1.1
    let finishTok (s : State) : State :=
      let s := ins.foldl (fun s p => chTake s core k p.1.2.1 p.1.2.2 p.2.slots) s
      let lasts := ins.foldl (fun m p => if p.2.last then m ||| 2 ^ p.1.1 else m) l.lasts.toNat
      let s := updLatch s core k n fun l =>
        { l with i0 := l.i0 + 8 * len, off := 0, lasts := BitVec.ofNat 8 lasts, done := last }
      chEmit s core outs (blankPack .i32 0 0) (tagOf .i32 0) last true
    let probe (m : Nat) : Bool := chRoom s core outs (blankPack .i32 0 (4 * m))
    if bitOf (w 0) 1 then
      match (bitsOf (8 * len) bits).find? fun b => decide (l.off ≤ b) with
      | none => if probe 0 then some (finishTok s) else none
      | some b =>
        match sl.ctx with
        | none => none
        | some x =>
          if !probe 64 then none
          else match engRead s x ((w 1 + 8 * (l.i0 + b)) % 2 ^ 64) 8 with
            | .error e =>
              -- the spec gives a sparse header no source code: any of the five bits
              let (v, s1) := freshBits (match e with | .page t _ _ => t | .bad t _ _ => t) 5
              some (match e with
                | .page _ va kind => chPark s1 core k n v.toNat va kind
                | .bad _ va cause => chFault s1 core k n cause va)
            | .ok (s, leaf) =>
              let vs := (bitsOf 64 leaf).map fun i => 64 * (l.i0 + b) + i
              let s := chEmit s core outs (packOf .i32 0 vs []) (tagOf .i32 0) false true
              some (updLatch s core k n fun l => { l with off := b + 1 })
    else if 8 * len ≤ l.off then (if probe 0 then some (finishTok s) else none)
    else if !probe 64 then none
    else
      let vs := (bitsOf 64 ((bits >>> l.off) % 2 ^ min 64 (8 * len - l.off))).map fun i => l.i0 + l.off + i
      let s := chEmit s core outs (packOf .i32 0 vs []) (tagOf .i32 0) false true
      some (updLatch s core k n fun l => { l with off := l.off + 64 })

/-! ### The filter (spec/08 R155) -/

/-- A firing of a filter: its head data token and as many mask bits; bits beyond the mask's LAST count as 0. -/
def fireFc (s : State) (core k n : Nat) : Option State :=
  let sl := slotOf s core k
  let l := latchOf sl n
  let c := coreOf s core
  match inputAt sl n 0, inputAt sl n 1 with
  | some (qd, jd), some (qm, jm) =>
    let row := rowAt c qd jd 1
    let f := (Fmt.ofCode (fieldOf (aimW sl.active n 0) 4 0)).getD .i8
    let cnt := (row.toks.map fun t => t.2.1 * 8 / fmtSew f).sum
    let ended := bitOf l.lasts.toNat 1
    let em := if ended then {} else bitsAt c qm jm l.used cnt
    if row.toks = [] ∨ (em.vals.length < cnt ∧ em.last = false ∧ ended = false) then none
    else
      let pay := (row.toks.map fun t => t.1).sum
      let vs := ((List.range cnt).filter fun i => ((em.vals[i]?).map fun v => v.1) == some 1).map fun i => elemOf (fmtSew f) pay i
      let outs := outputsOf sl n
      if !chRoom s core outs (blankPack f 0 ((cnt * fmtSew f + 7) / 8)) then none
      else
        -- at the end of the data the mask's head token is used up with it
        let rest := if row.last && em.used != 0 then 1 else 0
        let s := chTake (chTake s core k qd jd row.slots) core k qm jm (em.slots + rest)
        let s := chEmit s core outs (packOf f 0 vs []) (tagOf f 0) row.last true
        some (updLatch s core k n fun l =>
          { l with used := if rest = 1 then 0 else em.used, done := row.last,
                   lasts := if em.last then l.lasts ||| 2 else l.lasts, i0 := l.i0 + cnt })
  | _, _ => none

/-! ### The reduction tree (spec/08 R155, spec/17 R377, spec/13 R249) -/

/-- A firing of the reduction tree: the elements of its head index token, checked before any is sent, as a VRED. -/
def fireRt (s : State) (core k n : Nat) : Option State :=
  let sl := slotOf s core k
  let l := latchOf sl n
  let w := aimW sl.active n
  let f := (Fmt.ofCode (fieldOf (w 1) 7 3)).getD .i32
  let nb := fmtSew f / 8
  match sl.ctx, inputAt sl n 0, inputAt sl n 1 with
  | some x, some (q, j), some (qv, jv) =>
    let c := coreOf s core
    let row := rowAt c q j 1
    let ix := elsAt c q j 0 (row.toks.map fun t => t.2.1 * 8 / fmtSew f).sum (intFmt (fmtSew f)) 0
    let vas := ixVas (w 0) ix
    let ev := elsAt c qv jv l.used vas.length f 0
    if row.toks = [] ∨ ev.vals.length < vas.length ∨ aritRoom c = 0 ∨
        vas.any (fun va => ownBlocks s core sl x.slot va nb true) = true then none
    else
      let op := fieldOf (w 1) 2 0
      let step (acc : State × List RedIssue × Option (Nat × Nat)) (p : Nat × Nat) : State × List RedIssue × Option (Nat × Nat) :=
        match acc.2.2 with
        | some _ => acc
        | none =>
          if p.1 % nb ≠ 0 then (acc.1, acc.2.1, some (6, p.1))
          else match translate acc.1 x .store .atomic p.1 with
            | (s, .ok loc) =>
              if locPoisoned s loc nb then (s, acc.2.1, some (51, p.1))
              else (s, acc.2.1 ++ [.send ⟨x.slot, op, f.code, p.1, loc, p.2, x⟩], none)
            | (s, .error (.page _)) => (s, acc.2.1 ++ [.park p.1 p.2], none)
            | (s, .error .access) => (s, acc.2.1, some (7, p.1))
            | (s, .error .poison) => (s, acc.2.1, some (51, p.1))
      let (s1, us, bad) := (vas.zip (ev.vals.map fun v => v.1)).foldl step (s, [], none)
      match bad with
      | some (cause, va) => some (chFault s1 core k n cause va)
      | none =>
        let parks := us.filterMap fun u => match u with | .park va v => some (va, v) | _ => none
        let free := freeReds s1 x
        if free.length < parks.length then none
        else
          let gh := ghartOf s1 (8 * core + x.slot)
          let s1 := (parks.zip free).foldl (fun t p => parkRed t x gh op f p.1.1 p.1.2 p.2) s1
          let sends := us.filterMap fun u => match u with | .send r => some r | _ => none
          let s1 := if sends = [] then s1
            else enterToks s1 core true true 22 x.slot nb [sends.map fun u => u.va]
          let s1 := updCore s1 core fun r => { r with redq := r.redq ++ sends }
          let s1 := chTake (chTake s1 core k q j row.slots) core k qv jv ev.slots
          some (updLatch s1 core k n fun l => { l with used := ev.used, i0 := l.i0 + vas.length, done := row.last })
  | _, _, _ => none

/-! ### Lane links (spec/08 R172, R173) -/

/-- A firing of a sending lane link: its head token goes unchanged to the facing node's queue. Spatially the receiver is
RUNNING or DRAINING with its node open; the temporal sequencer moves it to a receiver that is RUNNING or TEMPORAL. A stop
marker and a config token leave their trace at both ends. -/
def fireLl (s : State) (core k n : Nat) : Option State :=
  let sl := slotOf s core k
  match inputAt sl n 0, llFace s core k n with
  | some (q, j), some (o, m) =>
    let peer := slotOf s o k
    let open_ := !peer.frozen.contains m && (latchOf peer m).stop == 0
    let ok := match sl.state, peer.state with
      | .temporal, .running | .temporal, .temporal => true
      | .running, .running | .draining, .draining | .draining, .running | .running, .draining => open_
      | _, _ => false
    let c := coreOf s core
    let r := qOf c q
    let outs := outputsOf peer m
    if !ok || qOcc r j == 0 || outs.any fun u => decide (qRoom (qOf (coreOf s o) u) < 1) then none
    else
      let (t, poi) := tokPoiAt c q (rpOf r j)
      let s := chTake s core k q j 1
      let s := updCore s o fun c => outs.foldl (fun c u =>
        let c := if (qOf c u).tagset then c else setQ c u { qOf c u with qtag := r.qtag, tagset := true }
        setPoi (tokAppend c u t) u (qOf c u).tail poi) c
      let mark (l : NodeLatch) : NodeLatch :=
        let l := if t.kind = tkData ∧ t.last = true then { l with done := true } else l
        let l := if isStopMark t && t.sub != mkBound then { l with stop := t.sub } else l
        if t.kind = tkConfig then { l with newAim := true } else l
      some (updLatch (updLatch s core k n mark) o k m mark)
  | _, _ => none

/-! ### Any node -/

/-- One firing by the node's kind. -/
def fireKind (s : State) (core k n : Nat) : Option State :=
  match nodeKind (slotOf s core k) n with
  | 0 => fireVs s core k n
  | 1 => fireMx s core k n
  | 2 => fireMp s core k n
  | 3 => fireAg s core k n
  | 4 => fireSh s core k n
  | 5 => fireFc s core k n
  | 6 => fireRt s core k n
  | 7 => fireLl s core k n
  | _ => none

/-- Did a firing that led from s to t use a poisoned token? Ports and links only move data (spec/13 R261). -/
def tookPoison (s t : State) (core k n : Nat) : Bool :=
  let sl := slotOf s core k
  let kind := nodeKind sl n
  let c := coreOf s core
  kind != kMp && kind != kLl && (inputsOf sl n).any fun e =>
    let r0 := rpOf (qOf c e.2.1) e.2.2
    let passed := (rpOf (qOf (coreOf t core) e.2.1) e.2.2 + 512 - r0) % 512
    let head := if headUsed kind (latchOf (slotOf t core k) n) e.1 = 0 then 0 else 2
    (List.range (min (passed + head) (qOcc (qOf c e.2.1) e.2.2))).any fun i => poiAt c e.2.1 (r0 + i) != 0

/-- What a check of the input tags that CHRUN could not know gives at a firing: a stage checks its own as it runs (spec/08
R163). -/
def lateTags (s : State) (core k n : Nat) : Option Nat :=
  let sl := slotOf s core k
  if nodeKind sl n = kVs ∨ nodeKind sl n = kLl ∨ inputsOf sl n = [] then none
  else
    let tags : AMap Nat := (slotQs sl).filterMap fun q =>
      let r := qOf (coreOf s core) q
      if r.tagset then some (q, r.qtag.toNat) else none
    match nodeTags s core k sl sl.active sl.pats sl.vrm n tags with
    | .error c => some c
    | .ok _ => none

/-- A firing with the checks that precede its use of data: a wrong tag and a poisoned token end the run (spec/08 R163, spec/13
R261). -/
def fireChecked (s : State) (core k n : Nat) : Option State :=
  match fireKind s core k n with
  | none => none
  | some t =>
    match lateTags s core k n with
    | some c => some (chFault s core k n c 0)
    | none => some (if tookPoison s t core k n then chFault s core k n 51 0 else t)

/-- A memory port of a run restored without its pattern reads it again; what that comes to where it fails. -/
def readPat (s : State) (core k n : Nat) : Except State State :=
  let sl := slotOf s core k
  match sl.ctx with
  | none => .ok s
  | some x =>
    match engPat s x (aimW sl.active n 0) with
    | .error e => .error (chStop core k n (nodeIx sl n) e)
    | .ok (s, d) =>
      if descOk d && (patOf d).store == (inputsOf sl n != []) then
        .ok (updSlot s core k fun sl => { sl with pats := sl.pats ++ [(nodeIx sl n, d)] })
      else .error (chFault s core k n 26 (aimW sl.active n 0))

/-- The memory ports of a slot that have no pattern. -/
def patless (sl : ChSlot) : List Nat := (nodeList sl).filter fun n => nodeKind sl n == kMp && (portPat sl n).isNone

/-- One firing of a node that may fire, whatever drives it: the run's patterns are there, and its ports are entered. -/
def fireOpen (s : State) (core k n : Nat) : Option State :=
  let sl := slotOf s core k
  let l := latchOf sl n
  if l.park.isSome || sl.frozen.contains n || l.stop != 0 || (!nodeFree sl n && nodeKind sl n != kLl) then none
  else match patless sl with
    | m :: _ =>
      if (latchOf sl m).park.isSome then none
      else match readPat s core k m with
        | .ok t => some t
        | .error t => some t
    | [] =>
      let s := chEnter s core k
      if (slotOf s core k).held then none else fireChecked s core k n

/-! ### The bell (spec/08 R171, spec/13 R251) -/

/-- Has a queue data for a consumer that counts? -/
def qHasData (c : CoreSt) (q : Nat) : Bool :=
  let r := qOf c q
  (qReaders r).any fun j => (List.range (qOcc r j)).any fun i =>
    let t := tokAt c q (rpOf r j + i)
    t.kind == tkData || t.kind == tkScale

/-- Are the queues of a slot empty, those with a software end apart, which software alone fills or drains? -/
def slotClear (s : State) (core k : Nat) : Bool :=
  (slotQs (slotOf s core k)).all fun q =>
    let r := qOf (coreOf s core) q
    r.swin || r.swout || !qHasData (coreOf s core) q

/-- The same of a whole group. -/
def groupClear (s : State) (core k : Nat) : Bool := (chGroup s core k).all fun c => slotClear s c k

/-- Can a node of a group that owes no marker fire? -/
def groupBusy (s : State) (core k : Nat) : Bool :=
  (chGroup s core k).any fun c => (nodeList (slotOf s c k)).any fun n =>
    (latchOf (slotOf s c k) n).owe == 0 && (fireOpen s c k n).isSome

/-- One firing of a node, whatever drives it. A source that owes a marker fires no more, but that before a bell or a checkpoint the
sources still make what the rows under way lack, so that the queues can empty (notes/assumptions/30). -/
def fireNode (s : State) (core k n : Nat) : Option State :=
  let l := latchOf (slotOf s core k) n
  if l.owe = 0 then fireOpen s core k n
  else if l.owe ≠ mkBound ∧ groupClear s core k = false ∧ groupBusy s core k = false then fireOpen s core k n
  else none

/-- Do a slot's nodes fire spatially now: RUNNING or DRAINING, no bell, its leave held, no debug halt in its group? -/
def chSpatial (s : State) (core k : Nat) : Bool :=
  let sl := slotOf s core k
  (decide (sl.state = .running) || decide (sl.state = .draining)) && !sl.bell && sl.leave == sl.need && !chHeld s core k

/-- A spatial firing of a node of a kind; without one nothing changes. -/
def fireEvent (s : State) (core k n kind : Nat) : State :=
  if chSpatial s core k && nodeKind (slotOf s core k) n == kind then (fireNode s core k n).getD s else s

/-- STAGE_FIRING (spec/08 R153). -/
def execStageFiring (core : Nat) (slot : Fin 4) (node : Nat) (s : State) : Host.Outcome State Fault Refusal :=
  .next (fireEvent s core slot.val node kVs)

/-- MATRIX_NODE_PASS (spec/19 R384). -/
def execMatrixNodePass (core : Nat) (slot : Fin 4) (node : Nat) (s : State) : Host.Outcome State Fault Refusal :=
  .next (fireEvent s core slot.val node kMx)

/-- MEMORY_PORT_FIRING (spec/08 R155). -/
def execMemoryPortFiring (core : Nat) (slot : Fin 4) (node : Nat) (s : State) : Host.Outcome State Fault Refusal :=
  .next (fireEvent s core slot.val node kMp)

/-- ADDRESS_GENERATOR_FIRING (spec/08 R155, spec/19 R385). -/
def execAddressGeneratorFiring (core : Nat) (slot : Fin 4) (node : Nat) (s : State) : Host.Outcome State Fault Refusal :=
  .next (fireEvent s core slot.val node kAg)

/-- SPARSE_HEADER_FIRING (spec/08 R155). -/
def execSparseHeaderFiring (core : Nat) (slot : Fin 4) (node : Nat) (s : State) : Host.Outcome State Fault Refusal :=
  .next (fireEvent s core slot.val node kSh)

/-- FILTER_FIRING (spec/08 R155). -/
def execFilterFiring (core : Nat) (slot : Fin 4) (node : Nat) (s : State) : Host.Outcome State Fault Refusal :=
  .next (fireEvent s core slot.val node kFc)

/-- REDUCTION_TREE_FIRING (spec/08 R155). -/
def execReductionTreeFiring (core : Nat) (slot : Fin 4) (node : Nat) (s : State) : Host.Outcome State Fault Refusal :=
  .next (fireEvent s core slot.val node kRt)

/-- LANE_LINK_TRANSFER (spec/08 R172). -/
def execLaneLinkTransfer (core : Nat) (slot : Fin 4) (node : Nat) (s : State) : Host.Outcome State Fault Refusal :=
  .next (fireEvent s core slot.val node kLl)

end Sys2Proof.Machine
end

