-- ==== Sys2Proof/Machine/ChainEvents.lean ====
section
/-!
DEFINITION. What happens to a run besides its firings (spec/08 R160, R162, R165 to R172; spec/15 R296): markers, the tail of a
configuration period, bound stops, detaches, drains, ends, and the temporal sequencer.
-/
namespace Sys2Proof.Machine

/-! ### Who can still do something -/

/-- Can a node fire, whatever drives it? -/
def canFire (s : State) (core k n : Nat) : Bool := (fireNode s core k n).isSome

/-- Can no node of a slot fire? -/
def chQuiet (s : State) (core k : Nat) : Bool :=
  (nodeList (slotOf s core k)).all fun n => !canFire s core k n

/-- Has a node fired its last row? A tensor without tokens ends with its producer. -/
def nodeFinished (c : CoreSt) (sl : ChSlot) : Nat → Nat → Bool
  | 0, _ => false
  | d + 1, n =>
    let l := latchOf sl n
    l.done || (inputsOf sl n != [] && (inputsOf sl n).all fun e =>
      !bitOf l.lasts.toNat e.1 && qOcc (qOf c e.2.1) e.2.2 == 0 &&
        match producerOf sl e.2.1 with
        | some m => nodeFinished c sl d m
        | none => false)

/-- Has every node of a slot fired its last row? -/
def allFinished (s : State) (core k : Nat) : Bool :=
  let sl := slotOf s core k
  (nodeList sl).all fun n => nodeFinished (coreOf s core) sl 33 n

/-! ### Markers -/

/-- Insert a token before the pending one of a queue. -/
def tokInsert (c : CoreSt) (q : Nat) (t : Tok) : CoreSt :=
  let r := qOf c q
  if r.pfill = 0 then tokAppend c q t
  else
    let a := tokPoiAt c q r.tail
    let b := tokPoiAt c q (r.tail + 1)
    let c := tokPoiPut (tokPoiPut c q (r.tail + 1) a) q (r.tail + 2) b
    let c := tokPoiPut c q r.tail (t, 0)
    setQ c q { r with tail := (r.tail + 1) % 512 }

/-- Have queues room for n more tokens besides a pending one? -/
def markRoom (c : CoreSt) (qs : List Nat) (n : Nat) : Bool :=
  qs.all fun q => decide (n + (if (qOf c q).pfill = 0 then 0 else 2) ≤ qRoom (qOf c q))

/-- Append markers to queues. -/
def forward (s : State) (core : Nat) (qs : List Nat) (ts : List Tok) : State :=
  updCore s core fun c => qs.foldl (fun c q => ts.foldl (fun c t => tokInsert c q t) c) c

/-- Is a token a marker of a subtype? -/
def isMark (sub : Nat) (t : Tok) : Bool := t.kind == tkMarker && t.sub == sub

/-- Where a marker of a subtype stands for consumer j of a queue. -/
def findMark (c : CoreSt) (q j sub : Nat) : Option Nat :=
  let r := qOf c q
  (List.range (qOcc r j)).find? fun i => isMark sub (tokAt c q (rpOf r j + i))

/-- The token at the head for consumer j. -/
def headTok (c : CoreSt) (q j : Nat) : Option Tok :=
  let r := qOf c q
  if qOcc r j = 0 then none else some (tokAt c q (rpOf r j))

/-- A bell or a checkpoint marker has reached a node, which passes it on and stops; a source emits the marker that it owes. Behind
the marker nothing stays: the node has fired every row that precedes it, and a source emits it once the queues are empty (spec/08
R171, spec/13 R251, spec/15 R296; notes/assumptions/30). -/
def passStop (s : State) (core k n sub : Nat) : State :=
  let sl := slotOf s core k
  let l := latchOf sl n
  let c := coreOf s core
  let outs := outputsOf sl n
  if !chSpatial s core k || l.stop != 0 || sl.frozen.contains n || !markRoom c outs 1 then s
  else if isSource sl n then
    (if l.owe = sub ∧ groupClear s core k = true ∧ groupBusy s core k = false then
      updLatch (forward s core outs [markTok sub]) core k n fun l => { l with owe := 0, stop := sub }
    else s)
  else
    let ins := fedInputs sl n
    let at_ (e : Nat × Nat × Nat) : Option Nat := findMark c e.2.1 e.2.2 sub
    let ended (e : Nat × Nat × Nat) : Bool := bitOf l.lasts.toNat e.1 ||
      (match producerOf sl e.2.1 with
        | some m => nodeFinished c sl 33 m
        | none => false)
    let met (e : Nat × Nat × Nat) : Bool := at_ e == some 0
    if l.park.isSome || nodeKind sl n == kLl || ins.all (fun e => (at_ e).isNone) || !ins.all (fun e => met e || ended e) ||
        canFire s core k n then s
    else
      let s := ins.foldl (fun s e => if at_ e = some 0 then chTake s core k e.2.1 e.2.2 1 else s) s
      updLatch (forward s core outs [markTok sub]) core k n fun l => { l with stop := sub }

/-- CHECKPOINT_MARKER_AT_NODE (spec/15 R296). -/
def execCheckpointMarkerAtNode (core : Nat) (slot : Fin 4) (node : Nat) (s : State) : Host.Outcome State Fault Refusal :=
  .next (passStop s core slot.val node mkCheck)

/-- BELL_AT_NODE (spec/08 R171). -/
def execBellAtNode (core : Nat) (slot : Fin 4) (node : Nat) (s : State) : Host.Outcome State Fault Refusal :=
  .next (passStop s core slot.val node mkBell)

/-- Pre-emption injects a bell at every source of a running slot's group. -/
def chBell (s : State) (core k : Nat) : State :=
  (chGroup s core k).foldl (fun s c =>
    if (slotOf s c k).state = .running ∧ (slotOf s c k).bell = false then oweMarks s c k mkBell else s) s

/-- At resume a run frozen by a bell goes on (spec/08 R171). -/
def chResume (s : State) (core k : Nat) : State :=
  let sl := slotOf s core k
  let s := overQs s core sl purgeMarks
  updSlot s core k fun sl => { sl with
    bell := false, latch := sl.latch.map fun kv => (kv.1, { kv.2 with stop := 0, owe := 0 }) }

/-! ### The end of a configuration period (spec/08 R160) -/

/-- TAIL_CONFIG_AT_NODE: a source past its LAST emits a tail marker and a config token; a node that has both on all inputs
changes to its pending entry and forwards one of each. -/
def execTailConfigAtNode (core : Nat) (slot : Fin 4) (node : Nat) (s : State) : Host.Outcome State Fault Refusal :=
  let k := slot.val
  let sl := slotOf s core k
  let l := latchOf sl node
  let c := coreOf s core
  let outs := outputsOf sl node
  let on := match sl.state with | .running | .draining | .temporal => true | _ => false
  let toks := [markTok mkTail, configTok sl.aimgen]
  .next (
    if !on || chHeld s core k || !sl.pending || l.newAim || nodeKind sl node == kLl || !markRoom c outs 2 ||
        !decide (node < sl.nodes.length) then s
    else if isSource sl node then
      (if l.done then updLatch (forward s core outs toks) core k node fun l => { l with newAim := true } else s)
    else
      let ins := fedInputs sl node
      let ready (e : Nat × Nat × Nat) : Bool :=
        let r := qOf c e.2.1
        decide (2 ≤ qOcc r e.2.2) && isMark mkTail (tokAt c e.2.1 (rpOf r e.2.2)) &&
          (tokAt c e.2.1 (rpOf r e.2.2 + 1)).kind == tkConfig
      if ins.all ready then
        let s := ins.foldl (fun s e => chTake s core k e.2.1 e.2.2 2) s
        updLatch (forward s core outs toks) core k node fun l => { l with newAim := true, done := true }
      else s)

/-! ### The bound of a store port (spec/08 R165) -/

/-- Is a node a store port whose next unit is past its bound, with data at its head? -/
def atBound (s : State) (core k n : Nat) : Bool :=
  let sl := slotOf s core k
  nodeKind sl n == kMp && nodeFree sl n &&
    match inputAt sl n 0, portPat sl n with
    | some (q, j), some p => (rowAt (coreOf s core) q j 1).toks != [] && portBlocked p (latchOf sl n)
    | _, _ => false

/-- BOUND_STOP: at a store port at its bound every source comes to owe a bound-stop marker; a source emits it and stops; a
node that has it at the head of its inputs passes it on, and the port discards it. -/
def execBoundStop (core : Nat) (slot : Fin 4) (node : Nat) (s : State) : Host.Outcome State Fault Refusal :=
  let k := slot.val
  let sl := slotOf s core k
  let l := latchOf sl node
  let c := coreOf s core
  let outs := outputsOf sl node
  let on := match sl.state with | .running | .draining | .temporal => true | _ => false
  let heads := (fedInputs sl node).filter fun e => match headTok c e.2.1 e.2.2 with | some t => isMark mkBound t | none => false
  .next (
    if !on || chHeld s core k then s
    else if sl.boundNode.isNone && atBound s core k node then
      oweMarks (updSlot s core k fun sl => { sl with boundNode := some node }) core k mkBound
    else if isSource sl node && l.owe == mkBound && markRoom c outs 1 then
      updLatch (forward s core outs [markTok mkBound]) core k node fun l => { l with owe := 0, stop := mkBound }
    else if heads != [] && heads.length == (fedInputs sl node).length && nodeKind sl node != kLl && markRoom c outs 1 then
      forward (heads.foldl (fun s e => chTake s core k e.2.1 e.2.2 1) s) core outs [markTok mkBound]
    else s)

/-! ### Detach of a multicast consumer (spec/08 R166) -/

/-- Does a producer wait on consumer j of a queue: could it fire if j took everything, and not as j stands? -/
def waitsOn (s : State) (core k q j : Nat) : Bool :=
  let sl := slotOf s core k
  let r := qOf (coreOf s core) q
  let only (d : BitVec 4) : State := updCore s core fun c => setQ c q { r with dmask := d }
  let all := r.cmask
  match producerOf sl q with
  | none => false
  | some p =>
    bitOf r.cmask.toNat j && !bitOf r.dmask.toNat j && decide (2 ≤ ((nodeEdges sl).filter fun e => eQ e == q).length) &&
      !canFire (only (all ^^^ BitVec.ofNat 4 (2 ^ j))) core k p && canFire (only all) core k p

/-- The node of consumer j of a queue. -/
def consumerNode (sl : ChSlot) (q j : Nat) : Option Nat :=
  ((nodeEdges sl).find? fun e => eQ e == q && consumerOf sl.edges e == j).map eTo

/-- MULTICAST_DETACH: a consumer that has held its producer back for the captured `xmcto` (0 acts as 1) is detached. -/
def execMulticastDetach (core : Nat) (slot : Fin 4) (queue : Fin 16) (consumer : Fin 4) (s : State) :
    Host.Outcome State Fault Refusal :=
  let k := slot.val
  let q := queue.val
  let j := consumer.val
  let sl := slotOf s core k
  let on := match sl.state with | .running | .draining | .temporal => true | _ => false
  .next (
    if !on || chHeld s core k || !(slotQs sl).contains q || !waitsOn s core k q j ||
        !decide (max 1 sl.mcto ≤ aget 0 sl.mcIdle (4 * q + j)) then s
    else match consumerNode sl q j with
      | none => s
      | some m =>
        let s := updCore s core fun c => setQ c q { qOf c q with dmask := (qOf c q).dmask ||| BitVec.ofNat 4 (2 ^ j) }
        let s := updLatch s core k m fun l => { l with detached := true }
        updSlot s core k fun sl => { sl with detachNode := some (sl.detachNode.getD m) })

/-! ### Drains, freezes and ends -/

/-- CHAIN_FAULT_TIMEOUT (spec/08 R167): a fault has been parked for the captured `xchto`. -/
def execChainFaultTimeout (core : Nat) (slot : Fin 4) (s : State) : Host.Outcome State Fault Refusal :=
  let k := slot.val
  let sl := slotOf s core k
  .next (
    if (sl.state = .running ∨ (sl.state = .draining ∧ sl.afterDrain = 0)) ∧ parkedNodes sl ≠ [] ∧ sl.chto ≤ sl.fage ∧
        chHeld s core k = false then drainGroup s core k 4 []
    else s)

/-- ROLL_CALL_REPORT (spec/08 R167, R171): a drain of a slot is complete when no node can fire any more; a bell freeze when
every node has passed the bell and the queues are empty. -/
def execRollCallReport (core : Nat) (slot : Fin 4) (s : State) : Host.Outcome State Fault Refusal :=
  let k := slot.val
  let sl := slotOf s core k
  .next (
    if sl.state = .broken then chServed s core k
    else if chHeld s core k || !chQuiet s core k then s
    else if sl.state = .draining ∧ sl.afterDrain = 8 then chEnd s core k .faulted sl.node sl.cause
    else if sl.state = .draining ∧ sl.afterDrain = 4 then chBroken s core k
    else if sl.state = .running ∧ sl.bell = false ∧ slotClear s core k = true ∧
        (nodeList sl).any (fun n => (latchOf sl n).stop == mkBell) = true ∧
        (nodeList sl).all (fun n => (latchOf sl n).stop == mkBell || nodeFinished (coreOf s core) sl 33 n) = true then
      updSlot s core k fun sl => { sl with bell := true }
    else s)

/-- Reductions of a run that are not performed yet. -/
def chReds (s : State) (core : Nat) (sl : ChSlot) : Bool :=
  sl.nodes.any (fun x => x.1 == kRt) && match sl.ctx with
    | some c => (coreOf s core).redq.any fun u => u.slot == c.slot
    | none => false

/-- Does a node only wait for the interlock: could it fire if no entry stood in its way? -/
def waitsArit (s : State) (core k n : Nat) : Bool :=
  !canFire s core k n && canFire (updCore s core fun c => { c with arit := [], redq := [] }) core k n

/-- Can nothing more come to a slot from its own nodes or over its links: no node of its group can fire, or waits only for the
interlock, a fault or a marker's room? -/
def groupStill (s : State) (core k : Nat) : Bool :=
  (chGroup s core k).all fun c => chQuiet s c k && parkedNodes (slotOf s c k) == [] &&
    (nodeList (slotOf s c k)).all fun n => !waitsArit s c k n

/-- May software still feed a slot: a software-fed queue whose consumer has not met LAST? -/
def softOpen (s : State) (core k : Nat) : Bool :=
  let sl := slotOf s core k
  (nodeList sl).any fun n => !(latchOf sl n).detached && (inputsOf sl n).any fun e =>
    (qOf (coreOf s core) e.2.1).swin && !bitOf (latchOf sl n).lasts.toNat e.1 && !(latchOf sl n).done

/-- Does a source still owe a marker that its queues have room for? -/
def oweRoom (s : State) (core k : Nat) : Bool :=
  let sl := slotOf s core k
  (nodeList sl).any fun n => (latchOf sl n).owe != 0 && markRoom (coreOf s core) (outputsOf sl n) 1

/-- CHAIN_RUN_END (spec/08 R162, R165, R166; spec/15 R296). A source behind a full queue keeps the bound-stop marker that it has
not emitted; the run ends BOUND all the same. -/
def execChainRunEnd (core : Nat) (slot : Fin 4) (s : State) : Host.Outcome State Fault Refusal :=
  let k := slot.val
  let sl := slotOf s core k
  let on := match sl.state with | .running | .temporal => true | .draining => sl.afterDrain == 0 | _ => false
  let aimed := !sl.pending || (nodeList sl).all fun n => (latchOf sl n).newAim
  let fin := allFinished s core k
  .next (
    if !on || sl.bell || sl.held || chHeld s core k || chReds s core sl || parkedNodes sl != [] then s
    else if fin && (aimed || decide (sl.state = .draining)) then chEnd s core k .configured 0 0
    else if !chQuiet s core k || oweRoom s core k || (nodeList sl).any (waitsArit s core k) then s
    else match sl.boundNode, sl.detachNode with
      | some b, _ => chEnd s core k .bound b 0
      | none, some d => if groupStill s core k && !softOpen s core k then chEnd s core k .detached d 0 else s
      | none, none =>
        if sl.state = .draining ∧ slotClear s core k = true ∧
            (nodeList sl).all (fun n => (latchOf sl n).stop == mkCheck || nodeFinished (coreOf s core) sl 33 n) = true then
          chEnd s core k .configured 0 0
        else s)

/-! ### The temporal sequencer (spec/08 R169) -/

/-- Has a node a saved row at an input? -/
def hasSaved (sl : ChSlot) (n : Nat) : Bool := (inputsOf sl n).any fun e => aget 0 sl.saved (4 * e.2.1 + e.2.2) != 0

/-- TEMPORAL_FIRING: the lowest-ordinal node that can fire with a saved row, else the lowest that can fire. The sequencer
waits for its leave and for every parked fault. -/
def execTemporalFiring (core : Nat) (slot : Fin 4) (s : State) : Host.Outcome State Fault Refusal :=
  let k := slot.val
  let sl := slotOf s core k
  .next (
    if decide (sl.state ≠ .temporal) || sl.leave != sl.need || parkedNodes sl != [] || chHeld s core k then s
    else
      let ns := (nodeList sl).filter (hasSaved sl) ++ nodeList sl
      (ns.findSome? fun n => fireNode s core k n).getD s)

/-- LANE_LINK_DOWN (spec/08 R167): a link of a running chain goes down, any of those that it uses. -/
def execLaneLinkDown (core : Nat) (slot : Fin 4) (s : State) : Host.Outcome State Fault Refusal :=
  let sl := slotOf s core slot.val
  let lls := (nodeList sl).filter fun n => nodeKind sl n == kLl
  .next (
    if lls = [] ∨ chActive sl.state = false then s
    else
      let (b, s) := freshBits s 5
      chFault s core slot.val (lls.getD (b.toNat % lls.length) 0) 50 0)

/-! ### Time -/

/-- A microsecond count passes for the timers of a slot (spec/08 Table 8-14, R166, R174). -/
def chTickSlot (s : State) (core k us : Nat) : State :=
  let sl := slotOf s core k
  if chHeld s core k then s
  else
    let ps := parkedNodes sl
    let s := if ps = [] then s else updSlot s core k fun sl =>
      let sl := ps.foldl (fun sl n => setLatch sl n { latchOf sl n with age := min ((latchOf sl n).age + us) (2 ^ 32 - 1) }) sl
      { sl with fage := oldestPark sl }
    let on := match sl.state with | .running | .draining | .temporal => true | _ => false
    if !on then s
    else (slotQs sl).foldl (fun s q => (List.range 4).foldl (fun s j =>
      if waitsOn s core k q j then
        updSlot s core k fun sl => { sl with mcIdle := aput sl.mcIdle (4 * q + j) (aget 0 sl.mcIdle (4 * q + j) + us) }
      else s) s) s

/-- Time passes for every chain of a core. -/
def chTick (s : State) (core us : Nat) : State :=
  (coreOf s core).slots.foldl (fun s kv => if kv.2.state = .idle then s else chTickSlot s core kv.1 us) s

end Sys2Proof.Machine
end

