-- ==== Sys2Proof/Machine/ChainImage.lean ====
section
/-!
DEFINITION. The images of chain slots and queues (spec/08 R150, R168, R175; spec/13 R252), and CHSAV and CHLD (spec/15 R297,
R299). Images are lists of (word number, word); a word that is not listed is 0.
-/
namespace Sys2Proof.Machine

/-- Words of an image. -/
abbrev Words := List (Nat × Nat)

/-- Shift a list of words. -/
def wordsAt (o : Nat) (ws : Words) : Words := ws.map fun p => (o + p.1, p.2)

/-- A word of an image that has been read. -/
abbrev WordsOf := Nat → Nat

/-! ### Latches (Table 8-12; the fields are the model's) -/

def latchWords (kind : Nat) (peer : Option Nat) (l : NodeLatch) : Words :=
  let b (x : Bool) (k : Nat) : Nat := if x then 2 ^ k else 0
  let i0 := if kind = kLl then (match peer with | some c => c + 1 | none => 0) else l.i0
  [(0, i0 % 2 ^ 32 + l.i1 % 2 ^ 32 * 2 ^ 32), (1, l.i2 % 2 ^ 32 + l.off % 2 ^ 32 * 2 ^ 32), (2, l.gen.toNat),
    (3, l.used % 2 ^ 16 + l.lasts.toNat * 2 ^ 16 + b l.tail 24 + b l.done 25 + l.stop % 8 * 2 ^ 26 + l.owe % 8 * 2 ^ 29 +
      b l.newAim 32 + b l.detached 33)]

def latchFrom (w : WordsOf) : NodeLatch :=
  { i0 := fieldOf (w 0) 31 0, i1 := fieldOf (w 0) 63 32, i2 := fieldOf (w 1) 31 0, off := fieldOf (w 1) 63 32, gen := w64 (w 2),
    used := fieldOf (w 3) 15 0, lasts := BitVec.ofNat 8 (fieldOf (w 3) 23 16), tail := bitOf (w 3) 24, done := bitOf (w 3) 25,
    stop := fieldOf (w 3) 28 26, owe := fieldOf (w 3) 31 29, newAim := bitOf (w 3) 32, detached := bitOf (w 3) 33 }

/-! ### The slot image (Table 8-12), the slot record (Tables 8-10, 8-14), a queue record (Table 8-3) -/

/-- Does the readout mask name a node? -/
def rmaskHas (sl : ChSlot) (n : Nat) : Bool := bitOf (aget 0 sl.hdr 1).toNat (32 + n)

/-- The words of a slot image. Where a latch fails SEC-DED, readout gives the latches that the mask names, and the others
read as zero. -/
def slotImage (sl : ChSlot) : Words :=
  sl.hdr.map (fun kv => (kv.1, kv.2.toNat)) ++
    sl.nodes.zipIdx.map (fun p => (4 + 2 * p.2, p.1.1 + p.1.2 * 256)) ++
    sl.edges.zipIdx.map (fun p =>
      (68 + p.2, eFrom p.1 + eOut p.1 * 2 ^ 5 + eTo p.1 * 2 ^ 8 + eIn p.1 * 2 ^ 13 + eQ p.1 * 2 ^ 16)) ++
    sl.active.map (fun kv => (128 + kv.1, kv.2.toNat)) ++ sl.pend.map (fun kv => (256 + kv.1, kv.2.toNat)) ++
    (nodeList sl).flatMap fun n =>
      if sl.badLatch ≠ [] ∧ rmaskHas sl n = false then []
      else wordsAt (384 + 4 * n) (latchWords (nodeKind sl n) (aget? sl.peer n) (latchOf sl n))

def slotRecord (sl : ChSlot) : Words :=
  let runopt := match sl.arm with | some a => a.runopt | none => sl.runopt
  [(0, slotWord sl), (1, sl.desc.toNat), (2, runopt.toNat),
    (3, sl.chto % 2 ^ 16 + sl.mcto % 2 ^ 16 * 2 ^ 16 + sl.vrm % 8 * 2 ^ 32), (4, sl.flags % 64), (5, sl.fage % 2 ^ 32),
    (6, sl.aimgen % 256)]

def queueRecord (r : Queue) : Words :=
  let b (x : Bool) (k : Nat) : Nat := if x then 2 ^ k else 0
  [(0, r.tail % 512 + rpOf r 0 % 512 * 2 ^ 9 + rpOf r 1 % 512 * 2 ^ 18 + rpOf r 2 % 512 * 2 ^ 27 + rpOf r 3 % 512 * 2 ^ 36 +
      r.cmask.toNat * 2 ^ 45 + r.dmask.toNat * 2 ^ 49 + r.pfill % 64 * 2 ^ 53),
    (1, r.qtag.toNat + b r.tagset 8 + r.mark.toNat * 2 ^ 9 + r.slot % 4 * 2 ^ 12 + b r.owned 14 + b r.swin 15 + b r.swout 16)]

def queueFrom (w : WordsOf) : Queue :=
  { tail := fieldOf (w 0) 8 0, rp := (List.range 4).filterMap fun j =>
      let v := fieldOf (w 0) (17 + 9 * j) (9 + 9 * j)
      if v = 0 then none else some (j, v),
    cmask := BitVec.ofNat 4 (fieldOf (w 0) 48 45), dmask := BitVec.ofNat 4 (fieldOf (w 0) 52 49), pfill := fieldOf (w 0) 58 53,
    qtag := BitVec.ofNat 8 (fieldOf (w 1) 7 0), tagset := bitOf (w 1) 8, mark := BitVec.ofNat 3 (fieldOf (w 1) 11 9),
    slot := fieldOf (w 1) 13 12, owned := bitOf (w 1) 14, swin := bitOf (w 1) 15, swout := bitOf (w 1) 16 }

/-- The side fields of a queue, 32 words. -/
def sideWords (c : CoreSt) (q : Nat) : Words :=
  (List.range 32).map fun i => (i, natOfBytes ((List.range 8).map fun b => aget 0 c.qside (256 * q + 8 * i + b)))

/-- The payloads of a queue, 1,024 words. -/
def payWords (c : CoreSt) (q : Nat) : Words :=
  (List.range 256).flatMap fun t => (List.range 4).map fun i => (4 * t + i, elemOf 64 (aget 0 c.qpay (256 * q + t)).toNat i)

/-- Load side fields and payloads of a queue. -/
def setTokens (c : CoreSt) (q : Nat) (side pay : WordsOf) : CoreSt :=
  (List.range 256).foldl (fun c t =>
    { c with
      qpoi := aputC 0 c.qpoi (256 * q + t) 0
      qside := aputC 0 c.qside (256 * q + t) (BitVec.ofNat 8 (side (t / 8) >>> (8 * (t % 8)))),
      qpay := aputC 0 c.qpay (256 * q + t) (BitVec.ofNat 256 (packElems 64 ((List.range 4).map fun i => pay (4 * t + i)))) }) c

/-- A state of Table 8-10. -/
def chStateOf (n : Nat) : ChState :=
  match n with
  | 1 => .configured | 2 => .running | 3 => .draining | 4 => .broken | 5 => .temporal | 6 => .bound | 7 => .detached
  | 8 => .faulted | _ => .idle

/-- A reader of bytes over words. -/
def wordsReader (w : WordsOf) : Reader := fun o n =>
  natOfBytes ((List.range n).map fun i => BitVec.ofNat 8 (w ((o + i) / 8) >>> (8 * ((o + i) % 8))))

/-- The entries of an area of an image. -/
def aimFrom (w : WordsOf) (o n : Nat) : AMap Word := (List.range (4 * n)).filterMap fun i =>
  if w (o + i) = 0 then none else some (i, w64 (w (o + i)))

/-- A slot from its image and its record. What the image does not hold of a run under way follows from the rest. -/
def slotFrom (w r : WordsOf) : ChSlot :=
  let n := hdrNodes (wordsReader w)
  let nodes := rdNodes (wordsReader w) 0x20 n
  let w0 := r 0
  { state := chStateOf (fieldOf w0 3 0), tmp := bitOf w0 4, fin := bitOf w0 5, stopped := bitOf w0 6, node := fieldOf w0 12 8,
    cause := fieldOf w0 18 13, aimed := bitOf w0 19, pending := bitOf w0 20, owned := bitOf w0 22, owner := fieldOf w0 25 23,
    bell := bitOf w0 26, desc := w64 (r 1), runopt := w64 (r 2), chto := fieldOf (r 3) 15 0, mcto := fieldOf (r 3) 31 16,
    vrm := fieldOf (r 3) 34 32, flags := fieldOf (r 4) 5 0, fage := fieldOf (r 5) 31 0, aimgen := fieldOf (r 6) 7 0,
    hdr := hdrWords (wordsReader w), nodes := nodes, edges := rdEdges (wordsReader w) 0x220 (hdrEdges (wordsReader w)),
    active := aimFrom w 128 n, pend := aimFrom w 256 n,
    latch := (List.range n).map fun i =>
      let l := latchFrom fun j => w (384 + 4 * i + j)
      (i, if (nodes.getD i (15, 0)).1 = kLl then { l with i0 := 0 } else l),
    peer := (List.range n).filterMap fun i =>
      let c := fieldOf (w (384 + 4 * i)) 31 0
      if (nodes.getD i (15, 0)).1 = kLl ∧ c ≠ 0 then some (i, c - 1) else none }

/-! ### CHSAV and CHLD -/

/-- The words of the area that CHSAV writes (spec/15 R299). -/
def chArea (c : CoreSt) (sl : ChSlot) : Words :=
  let img := slotImage sl
  let val (ws : Words) (i : Nat) : Nat := match ws.find? fun p => p.1 == i with | some p => p.2 | none => 0
  (List.range 512).map (fun i => (i, val img i)) ++ (List.range 8).map (fun i => (512 + i, val (slotRecord sl) i)) ++
    (slotQs sl).zipIdx.flatMap fun p =>
      wordsAt (520 + 1058 * p.2) (queueRecord (qOf c p.1) ++ wordsAt 2 (sideWords c p.1) ++ wordsAt 34 (payWords c p.1))

/-- Store words for the current hart, all translated before any is written. -/
def storeWords (s : State) (va : Nat) (ws : Words) : Except Exc State := do
  if ownWaits s (myCore s) (mySlot s) va (8 * ws.length) true then .error (.wait s)
  else
    let (s, ls) ← ws.foldlM (fun (acc : State × List (Loc × Nat)) p => do
      let (s, l) ← myTranslate acc.1 .store .plain (va + 8 * p.1) 24
      let s ← placeOrder s l
      .ok (s, acc.2 ++ [(l, p.2)])) (s, [])
    .ok (ls.foldl (fun s p => vecWrite s p.1 8 p.2) s)

/-- Latches that a readout finds uncorrectable are logged (spec/13 R252). -/
def logReadout (s : State) (core : Nat) (sl : ChSlot) : State :=
  match chHart core sl, sl.ctx with
  | some h, some c => (sl.badLatch.filter (rmaskHas sl)).foldl (fun s _ => logFault s c.ctxbase c.tid 51 (ghartOf s h) 3 sl.desc 0) s
  | _, _ => s

/-- CHSAV (spec/08 R176; spec/15 R299). -/
def execChsav (n : Fin 4) (a : RegIx) (s : State) : Host.Outcome State Fault Refusal :=
  let i : Instr := .chsav n a
  finish i (do
    chOwner s i n.val
    let core := myCore s
    let sl := slotOf s core n.val
    if chActive sl.state then .error (.wait s)
    else
      let va := (rdX s a).toNat
      if va % 4096 ≠ 0 then .error (.trap s 6 (w64 va))
      else do
        let s ← storeWords s va (chArea (coreOf s core) sl)
        .ok (nextPc (if decide (sl.state = .faulted) && sl.badLatch != [] then logReadout s core sl else s)))

/-- A slot with the stage records that stand at its DESC, where they are valid; no image holds them. -/
def withStages (s : State) (core : Nat) (sl : ChSlot) : ChSlot :=
  match readStages s core sl with
  | some (st, _) => { sl with stages := st }
  | none => sl

/-- Does an area's descriptor pass the checks of a descriptor, its stage records being those at DESC? -/
def chldOk (s : State) (core k : Nat) (sl : ChSlot) (w : WordsOf) : Bool :=
  let c := coreOf s core
  let rd := wordsReader w
  hdrOk rd k && nodesOk c core k rd 0x20 sl.nodes.length && edgesOk c k sl.nodes rd 0x220 sl.edges.length &&
    (match readStages s core sl with
       | none => false
       | some (st, e) => rd 16 4 == e && stagesOk sl.nodes sl.edges st) &&
    (!sl.aimed || aimBlockOk s core sl sl.active) &&
    (slotQs sl).all fun q => qEmpty (qOf c q) && (qOf c q).pfill == 0

/-- CHLD (spec/08 R176; spec/15 R297). -/
def execChld (n : Fin 4) (a : RegIx) (s : State) : Host.Outcome State Fault Refusal :=
  let i : Instr := .chld n a
  finish i (do
    chOwner s i n.val
    let core := myCore s
    let old := slotOf s core n.val
    if chActive old.state then .error (.wait s)
    else do
      orTrap (decide (old.state = .idle) || decide (old.state = .configured)) s 28 (wordOf i)
      orTrap (old.owned || decide (ownedBy (coreOf s core) (mySlot s) < 2)) s 28 (wordOf i)
      let va := (rdX s a).toNat
      if va % 4096 ≠ 0 then .error (.trap s 4 (w64 va))
      else do
        let (s, r) ← readRecord s va 0x1040 24
        let w : WordsOf := elemOf 64 r
        let sl := withStages s core (slotFrom w fun j => w (512 + j))
        let bad : Except Exc State := .error (.trap s 26 (w64 va))
        let own (s : State) (sl : ChSlot) : State := setSlot (chDiscard s core n.val) core n.val { sl with owned := true, owner := mySlot s }
        match sl.state with
        | .running | .draining | .broken | .temporal => bad
        | .idle => .ok (nextPc (own s {}))
        | _ =>
          if !chldOk s core n.val sl w then bad
          else if sl.nodes.any fun x => x.1 == kMp && streamBusy (coreOf s core) x.2 then .error (.wait s)
          else do
            let (s, qs) ← (slotQs sl).zipIdx.foldlM (fun (acc : State × List (Nat × Nat)) p => do
              let (s, r) ← readRecord acc.1 (va + 0x1040 + p.2 * 0x2110) 0x2110 24
              .ok (s, acc.2 ++ [(p.1, r)])) (s, [])
            let s := own s sl
            .ok (nextPc (updCore s core fun c => qs.foldl (fun c p =>
              let w : WordsOf := elemOf 64 p.2
              let c := setTokens c p.1 (fun j => w (2 + j)) (fun j => w (34 + j))
              setQ c p.1 { queueFrom w with owned := true, slot := n.val }) c)))

end Sys2Proof.Machine
end

