-- ==== Sys2Proof/Machine/Csr.lean ====
section
/-!
DEFINITION. The control and status registers (spec/03 R50 to R54, Tables 3-4 to 3-6; spec/00 R3, RISC-V privileged
architecture 1.12 and debug 0.13): what a number names, who may reach it, what a read gives and a write changes.
-/
namespace Sys2Proof.Machine

/-! ### Fields -/

/-- Replace the bits of a mask. -/
def maskIn (old new mask : Word) : Word := (old &&& ~~~mask) ||| (new &&& mask)

/-- The writable bits of `mstatus`: SIE, MIE, SPIE, MPIE, SPP, MPP, FS, MPRV, SUM, MXR, TVM, TW, TSR. -/
def mstatusMask : Word := 0x7E79AA
/-- The bits of `mstatus` that `sstatus` shows: SIE, SPIE, SPP, FS, SUM, MXR. -/
def sstatusMask : Word := 0xC6122
/-- The interrupts that exist: the standard six and 16 (spec/13 R260). -/
def mieMask : Word := 0x10AAA
/-- The interrupts that may be delegated. -/
def midelegMask : Word := 0x10222
/-- The exceptions that may be delegated: the standard ones and those of spec/13 R244. -/
def medelegMask : Word := w64 (0x3FF + 2 ^ 12 + 2 ^ 13 + 2 ^ 15 + 0xFF * 2 ^ 24 + 0xF * 2 ^ 48)

/-- `mstatus` as read: SD follows FS, and UXL and SXL read 2. -/
def mstatusRead (m : Word) : Word :=
  let sd : Word := if fieldOf m.toNat 14 13 = 3 then w64 (2 ^ 63) else 0
  m ||| sd ||| w64 (2 * 2 ^ 32 + 2 * 2 ^ 34)

/-- `sstatus` as read. -/
def sstatusRead (m : Word) : Word :=
  let sd : Word := if fieldOf m.toNat 14 13 = 3 then w64 (2 ^ 63) else 0
  (m &&& sstatusMask) ||| sd ||| w64 (2 * 2 ^ 32)

/-- `mstatus` after a write; a reserved MPP leaves the field. -/
def mstatusWrite (old new : Word) : Word :=
  let m := maskIn old new mstatusMask
  if fieldOf new.toNat 12 11 = 2 then maskIn m old 0x1800 else m

/-- A trap vector: mode 2 and 3 do not exist. -/
def tvecWrite (new : Word) : Word := new &&& ~~~(2 : Word)

/-- The privilege that a CSR number needs: its bits [9:8]. -/
def csrPriv (n : Nat) : Nat := n / 256 % 4
/-- Does the number lie in the read-only quarter? -/
def csrReadOnly (n : Nat) : Bool := n / 1024 == 3

/-- The machine counters and their enables. -/
def cntEnabled (h : Hart) (k : Nat) : Bool :=
  match h.priv with
  | .m => true
  | .s => bitOf h.pr.mcounteren.toNat k
  | .u => bitOf h.pr.mcounteren.toNat k && bitOf h.pr.scounteren.toNat k

/-- The CSRs whose value is a field of the hart's privileged state, read as stored. -/
def csrPlain (p : PCsr) (n : Nat) : Option Word :=
  match n with
  | 0x105 => some p.stvec
  | 0x106 => some p.scounteren
  | 0x10A => some p.senvcfg
  | 0x140 => some p.sscratch
  | 0x141 => some p.sepc
  | 0x142 => some p.scause
  | 0x143 => some p.stval
  | 0x180 => some p.satp
  | 0x302 => some p.medeleg
  | 0x303 => some p.mideleg
  | 0x304 => some p.mie
  | 0x305 => some p.mtvec
  | 0x306 => some p.mcounteren
  | 0x30A => some p.menvcfg
  | 0x320 => some p.mcountinhibit
  | 0x340 => some p.mscratch
  | 0x341 => some p.mepc
  | 0x342 => some p.mcause
  | 0x343 => some p.mtval
  | 0x344 => some p.mip
  | _ => none

/-- The Xebin CSRs (spec/03 Tables 3-4 and 3-6, R53). -/
def csrXebin (s : State) (n : Nat) : Option Word :=
  let x := (me s).xc
  let c := coreOf s (myCore s)
  match n with
  | 0x800 => some x.vl
  | 0x801 => some x.vtype
  | 0x802 => some (x.rm.zeroExtend 64)
  | 0x803 => some (x.flags.zeroExtend 64)
  | 0x804 => some x.sbase
  | 0x805 => some (x.vstart.zeroExtend 64)
  | 0x806 => some x.fault
  | 0x807 => some x.cpyseq
  | 0x808 => some x.spill
  | 0x809 => some x.srseed
  | 0xCC0 => some (w64 x.grant)
  | 0xCC1 => some (w64 (ghartOf s s.cur))
  | 0xCC2 => some (w64 (gangSize (gangOfHart s s.cur)))
  | 0xCC3 => some (w64 (lanesOf s s.cur))
  | 0xCC4 => some (w64 (128 * lanesOf s s.cur))
  | 0xCC5 => some x.leave
  | 0xCC6 => some (w64 c.cidx)
  | 0xCC7 => some x.temporal
  | 0x5C0 => some x.ctxbase
  | 0x5C1 => some x.asid
  | 0x5C2 => some x.dirty
  | 0x5C3 => some (x.chto.zeroExtend 64)
  | 0x5C4 => some (x.mcto.zeroExtend 64)
  | 0x5C5 => some (x.wdog.zeroExtend 64)
  | 0x5C6 => some x.fsmode
  | _ => none

/-- Is the number one that reads 0 and ignores writes: identity registers, physical memory protection without entries (of RV64, which
has no odd pmpcfg), event counters and triggers that do not exist? -/
def csrZero (n : Nat) : Bool :=
  n == 0xF11 || n == 0xF12 || n == 0xF13 || n == 0xF15 || (decide (0x3A0 ≤ n) && decide (n < 0x3B0) && n % 2 == 0) ||
    (decide (0x3B0 ≤ n) && decide (n ≤ 0x3EF)) ||
    (decide (0xB03 ≤ n) && decide (n ≤ 0xB1F)) || (decide (0x323 ≤ n) && decide (n ≤ 0x33F)) ||
    (decide (0x7A0 ≤ n) && decide (n ≤ 0x7A3)) || n == 0x7A8 || n == 0x5A8

/-- The cycle counter: a free value while it counts, as `mcycle` holds it while it is inhibited. -/
def cycleRead (s : State) : State × Word :=
  if bitOf (me s).pr.mcountinhibit.toNat 0 then (s, (me s).pr.mcycle) else (let (v, t) := freshBits s 64; (t, v))

/-- Read a CSR: the state (a free value steps the counter) and the value; `none` where the access is illegal. -/
def csrRead (s : State) (n : Nat) : Option (State × Word) :=
  let h := me s
  let p := h.pr
  let fp := fieldOf p.mstatus.toNat 14 13 != 0
  if privCode h.priv < csrPriv n then none
  else match n with
  | 0x001 => if fp then some (s, w64 (fieldOf h.fcsr.toNat 4 0)) else none
  | 0x002 => if fp then some (s, w64 (fieldOf h.fcsr.toNat 7 5)) else none
  | 0x003 => if fp then some (s, h.fcsr.zeroExtend 64) else none
  | 0x100 => some (s, sstatusRead p.mstatus)
  | 0x300 => some (s, mstatusRead p.mstatus)
  | 0x104 => some (s, p.mie &&& p.mideleg)
  | 0x144 => some (s, p.mip &&& p.mideleg)
  | 0x180 => if h.priv = .s ∧ bitOf p.mstatus.toNat 20 = true then none else some (s, p.satp)
  | 0x301 => some (s, 0x8000000000941129)
  | 0xF14 => some (s, w64 s.cur)
  | 0xC00 => if cntEnabled h 0 then some (cycleRead s) else none
  | 0xC01 => if cntEnabled h 1 then (let (v, t) := freshBits s 64; some (t, v)) else none
  | 0xC02 => if cntEnabled h 2 then some (s, p.minstret) else none
  | 0xB00 => some (cycleRead s)
  | 0xB02 => some (s, p.minstret)
  | 0x7B0 => if inDebug h then some (s, p.dcsr) else none
  | 0x7B1 => if inDebug h then some (s, p.dpc) else none
  | 0x7B2 => if inDebug h then some (s, p.dscratch0) else none
  | 0x7B3 => if inDebug h then some (s, p.dscratch1) else none
  | _ =>
    match csrXebin s n with
    | some v => some (s, v)
    | none =>
      match csrPlain p n with
      | some v => some (s, v)
      | none =>
        if csrZero n then some (s, 0)
        else if 0xC03 ≤ n ∧ n ≤ 0xC1F then (if cntEnabled h (n - 0xC00) then some (s, 0) else none)
        else none

/-- Is a CSR one that no instruction may write (spec/03 R50)? -/
def csrNoWrite (n : Nat) : Bool := csrReadOnly n || n == 0x800 || n == 0x801

/-- Update the privileged CSRs of the current hart. -/
def updP (s : State) (f : PCsr → PCsr) : State := updMe s fun h => { h with pr := f h.pr }

/-- Write a user Xebin CSR. -/
def csrWriteUser (x : XCsr) (n : Nat) (v : Word) : XCsr :=
  match n with
  | 0x802 => if v.toNat % 8 ≤ 5 then { x with rm := BitVec.ofNat 3 v.toNat } else x
  | 0x803 => { x with flags := BitVec.ofNat 6 v.toNat }
  | 0x804 => { x with sbase := v &&& ~~~(0xF : Word) }
  | 0x805 => { x with vstart := BitVec.ofNat 17 v.toNat }
  | 0x806 => { x with fault := v }
  | 0x807 => { x with cpyseq := v }
  | 0x808 => { x with spill := v &&& ~~~(0x3F : Word) }
  | 0x809 => { x with srseed := v }
  | _ => x

/-- Write a supervisor Xebin CSR; fields marked RO take M-mode writes only. -/
def csrWriteSuper (x : XCsr) (m : Bool) (n : Nat) (v : Word) : XCsr :=
  match n with
  | 0x5C0 => if m then { x with ctxbase := v &&& 0xFFFFFFFFFF000 } else x
  | 0x5C1 => if m then { x with asid := v &&& 0xFFFFFFF } else x
  | 0x5C2 => if m then { x with dirty := v &&& 0xFFFFFFFFFF001 } else x
  | 0x5C3 => { x with chto := BitVec.ofNat 16 v.toNat }
  | 0x5C4 => { x with mcto := BitVec.ofNat 16 v.toNat }
  | 0x5C5 => { x with wdog := BitVec.ofNat 32 v.toNat }
  | 0x5C6 => if m then { x with fsmode := v &&& 1 } else x
  | _ => x

/-- Write a privileged CSR. The pending bits that software writes are SSIP, and 16 by writing 0 (spec/13 R260); in M-mode
STIP and SEIP too. A write of `minstret` sets the value that the next instruction reads. -/
def csrWritePriv (p : PCsr) (n : Nat) (v : Word) : PCsr :=
  match n with
  | 0x100 => { p with mstatus := maskIn p.mstatus v sstatusMask }
  | 0x104 => { p with mie := maskIn p.mie v (p.mideleg &&& mieMask) }
  | 0x105 => { p with stvec := tvecWrite v }
  | 0x106 => { p with scounteren := v &&& 0xFFFFFFFF }
  | 0x10A => { p with senvcfg := v &&& 1 }
  | 0x140 => { p with sscratch := v }
  | 0x141 => { p with sepc := v &&& ~~~(3 : Word) }
  | 0x142 => { p with scause := v }
  | 0x143 => { p with stval := v }
  | 0x144 =>
    let w := maskIn p.mip v (p.mideleg &&& 2)
    { p with mip := if bitOf p.mideleg.toNat 16 then w &&& (v ||| ~~~(0x10000 : Word)) else w }
  | 0x180 => if fieldOf v.toNat 63 60 = 15 then { p with satp := v } else p
  | 0x300 => { p with mstatus := mstatusWrite p.mstatus v }
  | 0x302 => { p with medeleg := v &&& medelegMask }
  | 0x303 => { p with mideleg := v &&& midelegMask }
  | 0x304 => { p with mie := v &&& mieMask }
  | 0x305 => { p with mtvec := tvecWrite v }
  | 0x306 => { p with mcounteren := v &&& 0xFFFFFFFF }
  | 0x30A => { p with menvcfg := v &&& 1 }
  | 0x320 => { p with mcountinhibit := v &&& 5 }
  | 0x340 => { p with mscratch := v }
  | 0x341 => { p with mepc := v &&& ~~~(3 : Word) }
  | 0x342 => { p with mcause := v }
  | 0x343 => { p with mtval := v }
  | 0x344 =>
    let w := maskIn p.mip v 0x222
    { p with mip := w &&& (v ||| ~~~(0x10000 : Word)) }
  | 0xB00 => { p with mcycle := v }
  | 0xB02 => { p with minstret := if bitOf p.mcountinhibit.toNat 2 then v else v - 1 }
  | 0x7B0 => { p with dcsr := maskIn p.dcsr v 0xBE17 }
  | 0x7B1 => { p with dpc := v &&& ~~~(3 : Word) }
  | 0x7B2 => { p with dscratch0 := v }
  | 0x7B3 => { p with dscratch1 := v }
  | _ => p

/-- Where a write to `mcountinhibit` stops the cycle counter, `mcycle` holds what it reads then. -/
def cycleStop (s : State) (v : Word) : State :=
  if bitOf v.toNat 0 then
    let (t, c) := cycleRead s
    updP t fun p => { p with mcycle := c }
  else s

/-- Write a CSR that may be written. -/
def csrWrite (s : State) (n : Nat) (v : Word) : State :=
  match n with
  | 0x001 => updMe s fun h =>
      { h with fcsr := BitVec.ofNat 8 (withField h.fcsr.toNat 4 0 v.toNat), pr := { h.pr with mstatus := fsDirty h.pr.mstatus } }
  | 0x002 => updMe s fun h =>
      { h with fcsr := BitVec.ofNat 8 (withField h.fcsr.toNat 7 5 v.toNat), pr := { h.pr with mstatus := fsDirty h.pr.mstatus } }
  | 0x003 => updMe s fun h =>
      { h with fcsr := BitVec.ofNat 8 v.toNat, pr := { h.pr with mstatus := fsDirty h.pr.mstatus } }
  | n =>
    if 0x800 ≤ n ∧ n ≤ 0x809 then updX s fun x => csrWriteUser x n v
    else if 0x5C0 ≤ n ∧ n ≤ 0x5C6 then updX s fun x => csrWriteSuper x (decide ((me s).priv = .m)) n v
    else updP (if n = 0x320 then cycleStop s v else s) fun p => csrWritePriv p n v

/-- The value that a CSR instruction writes. -/
def csrNew (op : CsrOp) (old src : Word) : Word :=
  match op with
  | .rw => src
  | .rs => old ||| src
  | .rc => old &&& ~~~src

/-- Does the instruction write: CSRRW always, the others with a source that is not x0 or 0? -/
def csrWrites (op : CsrOp) (src : RegIx) : Bool := op == .rw || src.val != 0

/-- Does the CSR hold what a matrix instruction of the hart has yet to write (spec/09 R190)? -/
def csrEngine (n : Nat) : Bool := n == 0x803 || n == 0x809

/-- The source operand: a register, or the 5-bit immediate. -/
def csrSource (s : State) (imm : Bool) (src : RegIx) : Word := if imm then w64 src.val else rdX s src

/-- CSR_ACCESS (spec/03 R50). -/
def execCsrAccess (op : CsrOp) (imm : Bool) (csr : BitVec 12) (rd src : RegIx) (s : State) :
    Host.Outcome State Fault Refusal :=
  let i : Instr := .csrAccess op imm csr rd src
  finish i (do
    let n := csr.toNat
    orIllegal (!(csrWrites op src && csrNoWrite n)) s i
    if csrEngine n && engineBlocks s s.cur then .error (.wait s)
    else match csrRead s n with
      | none => illegal s i
      | some (s, old) =>
        let v := csrNew op old (csrSource s imm src)
        let s := if csrWrites op src then csrWrite s n v else s
        .ok (nextPc (wrX s rd old)))

end Sys2Proof.Machine
end

