-- ==== Sys2Proof/Machine/Sync.lean ====
section
/-!
DEFINITION. Sync objects and bindings (spec/07 R124 to R129; spec/15 R278, R290, R291; spec/16 R335, R344), FENCEX and BFENCE
(spec/07 R131, R142; spec/15 R287, R288, R307), and monitors (spec/16 R317 to R319).
-/
namespace Sys2Proof.Machine

/-! ### The object at its home agent -/

/-- Translate the object at an address: 16-byte alignment, global space, MT normal. -/
def objLoc (s : State) (a : Nat) : Except Exc (State × Loc) := do
  if a % 16 ≠ 0 then .error (.trap s 6 (w64 a))
  else
    let (s, l) ← myTranslate s .store .sync a 24
    let s ← myOrder s a 16 true l
    .ok (s, l)

/-- MODE and SHR of word 0 (spec/07 Table 7-4). -/
def objMode (w : Nat) : Nat := fieldOf w 1 0
def objShr (w : Nat) : Nat := fieldOf w 31 16
/-- Is word 0 one that raises cause 29: MODE 11, or MODE 10 with SHR = 0? -/
def objBad (w : Nat) : Bool := objMode w == 3 || (objMode w == 2 && objShr w == 0)

/-- Word 0 after a grant; `none` where it is not granted (spec/07 R128). -/
def objGrant (shared : Bool) (w : Nat) : Option Nat :=
  if shared then
    (if objMode w ≠ 1 ∧ objShr w < 65535 then some (withField (withField w 31 16 (objShr w + 1)) 1 0 2) else none)
  else if objMode w = 0 then some (withField w 1 0 1)
  else none

/-- Words 0 and 1 after a release; `none` where it raises cause 29 (spec/16 R335). -/
def objRelease (w0 rsn : Nat) : Option (Nat × Nat) :=
  if objBad w0 ∨ objMode w0 = 0 then none
  else if objMode w0 = 1 then some (withField w0 1 0 0, (rsn + 1) % 2 ^ 64)
  else
    let k := objShr w0 - 1
    some (withField (withField w0 31 16 k) 1 0 (if k = 0 then 0 else 2), rsn)

/-- The cache effect of a grant: the core holds no line of the object's regions from before it. -/
def objAcquire (s : State) (h obj : Nat) : State :=
  flushLines s (coreOfHart h) (lineIn (meets (objBindings (bindings s (hartCtx s h)) obj)))

/-- The register that the waiting ACQ of a hart writes. -/
def acqDest (s : State) (h : Nat) : Option RegIx :=
  match (hartOf s h).wait with
  | some (.acq _ _ _ d) => some d
  | _ => none

/-- Grant one waiting request: the object, the register, the next pc, the cache effect. -/
def grantReq (s : State) (q : AcqReq) (w : Nat) : State :=
  let l : Loc := .phys q.obj 0 q.key
  let rsn := homeRead s (locAdd l 8) 8
  let s := homeWrite s (hartCtx s q.hart).dirty l 8 w
  let s := { s with acqs := s.acqs.filter fun r => r.hart != q.hart }
  let s := match acqDest s q.hart with
    | some d => updHart s q.hart fun h => retire (hartSetX { h with pc := h.pc + 4 } d (w64 rsn))
    | none => s
  objAcquire s q.hart q.va

/-- Grant an object to its waiting requests in their order of arrival, up to the first that does not fit. The counter
bounds the requests. -/
def grantWaiting : Nat → State → Nat → State
  | 0, s, _ => s
  | n + 1, s, obj =>
    match s.acqs.find? fun q => q.obj == obj with
    | none => s
    | some q =>
      let w := homeRead s (.phys q.obj 0 q.key) 8
      if !locKeyed s (.phys q.obj 0 q.key) then
        grantWaiting n (takeException (withdrawAcq s q.hart) q.hart 7 (w64 q.va)) obj
      else if objBad w then s
      else match objGrant q.shared w with
        | some w' => grantWaiting n (grantReq s q w') obj
        | none => s

/-- SYNC_OBJECT_GRANT (spec/07 R128). -/
def execSyncObjectGrant (obj : Nat) (s : State) : Host.Outcome State Fault Refusal :=
  .next (grantWaiting s.acqs.length s obj)

/-- The physical address and key slot of an object's location. -/
def objPlace (l : Loc) : Nat × Nat :=
  match l with
  | .phys pa _ key => (pa, key)
  | .tile c off => (2 ^ 60 + c * 2 ^ 20 + off, 0)
  | .sdm c off => (2 ^ 61 + c * 2 ^ 20 + off, 0)
  | .mmio off => (2 ^ 62 + off, 0)

/-- Has the current hart a request waiting at the home agent? -/
def acqWaits (s : State) : Bool := s.acqs.any fun q => q.hart == s.cur

/-- The scopes that ACQ and REL take (spec/07 R123). -/
def objScope : Scope → Bool
  | .core | .gang | .die | .pkg | .sys => true
  | _ => false

/-- ACQ (spec/15 R278). -/
def execAcq (sc : Scope) (m : AcqMode) (a d : RegIx) (s : State) : Host.Outcome State Fault Refusal :=
  let i : Instr := .acq sc m a d
  finish i (do
    orIllegal (objScope sc) s i
    if acqWaits s then .error (.wait s)
    else
      let va := (rdX s a).toNat
      let (s, l) ← objLoc s va
      if locPoisoned s l 16 then .error (.trap s 51 (w64 va))
      else
        let s := flushLoc s (myCore s) l
        let w := homeRead s l 8
        if objBad w then .error (.trap s 29 (w64 va))
        else
          let (pa, key) := objPlace l
          let ahead := s.acqs.any fun q => q.obj == pa
          let shared := m == .shared
          let take (w' : Nat) : Res :=
            let rsn := homeRead s (locAdd l 8) 8
            let s := homeWrite s (hartCtx s s.cur).dirty l 8 w'
            .ok (nextPc (wrX (objAcquire s s.cur va) d (w64 rsn)))
          if m = .try then
            match objGrant false w with
            | some w' => take w'
            | none => .ok (nextPc (wrX s d (w64 (2 ^ 64 - 1))))
          else
            let wait : Res := .error (.wait { s with acqs := s.acqs ++ [⟨s.cur, pa, key, va, shared⟩] })
            if ahead then wait
            else match objGrant shared w with
              | some w' => take w'
              | none => wait)

/-- REL (spec/16 R335). -/
def execRel (sc : Scope) (a : RegIx) (s : State) : Host.Outcome State Fault Refusal :=
  let i : Instr := .rel sc a
  finish i (do
    orIllegal (objScope sc) s i
    let va := (rdX s a).toNat
    let (s, l) ← objLoc s va
    let cov := meets (objBindings (bindings s (hartCtx s s.cur)) va)
    let s ← releaseCover s s.cur cov true true
    let s := flushLoc s (myCore s) l
    if locPoisoned s l 16 then .error (.trap s 51 (w64 va))
    else match objRelease (homeRead s l 8) (homeRead s (locAdd l 8) 8) with
      | none => .error (.trap s 29 (w64 va))
      | some (w0, rsn) =>
        let s := homeWrite s (hartCtx s s.cur).dirty l 16 (w0 + rsn * 2 ^ 64)
        .ok (nextPc (grantWaiting s.acqs.length s (objPlace l).1)))

/-! ### Bindings -/

/-- Write a context's save area for a hart, with its dirty bit. -/
def areaWriteD (s : State) (c : ACtx) (pa n v : Nat) : State := markDirty (areaWrite s c.tid pa n v) c.dirty pa

/-- BINDR (spec/07 R125, spec/15 R290). -/
def execBindr (b a d : RegIx) (s : State) : Host.Outcome State Fault Refusal :=
  finish (.bindr b a d) (do
    let base := (rdX s a).toNat
    let len := (rdX s b).toNat
    let obj := (rdX s d).toNat
    let c := hartCtx s s.cur
    orTrap (base % 256 == 0 && len % 256 == 0 && len != 0) s 6 (w64 base)
    orTrap (decide (base + len ≤ 2 ^ 59)) s 7 (w64 base)
    let bs := bindings s c
    let free := (List.range 4096).find? fun n => bs.all fun x => x.entry != n
    orTrap (!meets bs base (base + len)) s 7 (w64 base)
    match free with
    | none => .error (.trap s 7 (w64 base))
    | some n =>
      orTrap (obj % 16 == 0) s 6 (w64 base)
      orTrap (decide (obj < 2 ^ 59)) s 7 (w64 base)
      let e := bindAddr c n
      .ok (nextPc (if c.ctxbase = 0 then s
        else areaWriteD s c e 32 (1 + base + len * 2 ^ 64 + obj * 2 ^ 128))))

/-- UNBINDR (spec/07 R127, spec/16 R344). -/
def execUnbindr (a : RegIx) (s : State) : Host.Outcome State Fault Refusal :=
  finish (.unbindr a) (
    let base := (rdX s a).toNat
    let c := hartCtx s s.cur
    match (bindings s c).find? fun b => b.base == base with
    | none => .error (.trap s 7 (w64 base))
    | some b =>
      let s := flushLines s (myCore s) (lineIn (meets [b]))
      .ok (nextPc (areaWriteD s c (bindAddr c b.entry) 32 0)))

/-! ### Fences -/

/-- Is a BAU command or a BGAX sum that a BFENCE covers still under way? -/
def bauPending (s : State) (gang : Bool) : Bool :=
  let seat := (coreOf s (myCore s)).gang
  (s.cmds.any fun kv => kv.2.hart == s.cur || (gang && some kv.2.seat == seat)) ||
    (if gang then
      (gangCoreList (gangOfHart s s.cur)).any fun c => (coreOf s c).refills.any fun f => f.locs.isEmpty
     else (coreOf s (myCore s)).refills.any fun f => f.slot == mySlot s && f.locs.isEmpty)

/-- BFENCE: wait for the commands it covers, whose retirement has invalidated the cores' lines of their destinations; it is a
release at bank scope, which performs what the hart's write-combining buffers hold (spec/07 R136, R142); then it raises the
hart's pending error, if any. -/
def bfenceOp (gang : Bool) (s : State) : Res :=
  if bauPending s gang then .error (.wait s)
  else
    let s := drainWc s s.cur
    let h := me s
    if h.bev then .error (.trap (updMe s fun h => { h with bev := false, beva := 0 }) 51 h.beva)
    else .ok (nextPc s)

/-- BFENCE (spec/15 R287, R288). -/
def execBfence (g : Bool) (s : State) : Host.Outcome State Fault Refusal := finish (.bfence g) (bfenceOp g s)

/-- The kind and scope pairs that FENCEX takes (spec/15 Table 15-7). -/
def fencexOk (sc : Scope) (k : FenceKind) : Bool :=
  match k with
  | .full => true
  | .acq | .rel => sc != .bank
  | .eng => sc == .hart

/-- FENCEX (spec/07 R131, spec/15 R307). -/
def execFencex (sc : Scope) (k : FenceKind) (s : State) : Host.Outcome State Fault Refusal :=
  let i : Instr := .fencex sc k
  finish i (do
    orIllegal (fencexOk sc k) s i
    match k with
    | .full =>
      if sc = .bank then bfenceOp false s
      else do
        let s ← fenceAll s true
        .ok (nextPc (fenceAcq s (scopeWide sc)))
    | .acq => .ok (nextPc (fenceAcq s (scopeWide sc)))
    | .rel => do
        let s ← fenceRel s (scopeWide sc) true
        .ok (nextPc s)
    | .eng => if hartTransfers s s.cur then .error (.wait s) else .ok (nextPc s))

/-! ### Monitors -/

/-- What the monitored word is used as: a global page must be MT normal, a local window is as it is. -/
def monUse (s : State) (va : Nat) : Use :=
  match regionOf s (myCore s) va with
  | .local_ _ => .plain
  | _ => .sync

/-- MONARM (spec/16 R318). -/
def execMonarm (a : RegIx) (s : State) : Host.Outcome State Fault Refusal :=
  finish (.monarm a) (do
    let va := (rdX s a).toNat
    if va % 8 ≠ 0 then .error (.trap s 4 (w64 va))
    else
      let (s, _) ← myTranslate s .load (monUse s va) va 24
      .ok (nextPc (updMe s fun h => { h with maddr := w64 va, mv := true })))

/-- MWAIT: read the armed word at its sole writer, the core's own line of it written back first; wait while it equals x(a). The
return is an acquire at pkg scope of whatever the write it observed released (spec/07 R122, R145). -/
def mwaitOp (a d : RegIx) (s : State) : Res := do
  let h := me s
  orIllegal h.mv s (.mwait a d)
  let va := h.maddr.toNat
  let (s, l) ← myTranslate s .load (monUse s va) va 24
  let s ← myOrder s va 8 false l
  if locPoisoned s l 8 then .error (.trap s 51 (w64 va))
  else
    let s := flushLoc s (myCore s) l
    let w := w64 (homeRead s l 8)
    if w = rdX s a then .error (.wait s) else .ok (nextPc (wrX (acquireAll s) d w))

/-- MWAIT (spec/16 R319). -/
def execMwait (a d : RegIx) (s : State) : Host.Outcome State Fault Refusal := finish (.mwait a d) (mwaitOp a d s)

/-- MWAIT_WAKE: a hart that waits at an MWAIT reads the word again. -/
def execMwaitWake (hart : Nat) (s : State) : Host.Outcome State Fault Refusal :=
  match (hartOf s hart).wait with
  | some (.mwait a d) =>
    if canMove s hart && (hartOf s hart).park.isNone then
      let s := { s with cur := hart }
      finish (.mwait a d) (mwaitOp a d s)
    else .next s
  | _ => .next s

end Sys2Proof.Machine
end

