-- ==== Sys2Proof/Machine/Future.lean ====
section
/-!
DEFINITION. Futures, resolution walks and the task queue (spec/10 R210 to R213, R404; spec/15 R308 to R312; spec/16 R342,
R343).
-/
namespace Sys2Proof.Machine

/-! ### Cells -/

/-- Translate a cell or a continuation record: its alignment, global space, MT normal. -/
def cellLoc (s : State) (k : AKind) (a al : Nat) : Except Exc (State × Loc) := do
  if a % al ≠ 0 then .error (.trap s 6 (w64 a))
  else
    let (s, l) ← match myTranslate s k .sync a 24 with
      | .error (.trap t 5 v) => .error (.trap t 7 v)
      | r => r
    let s ← myOrder s a al (decide (k = .store)) l
    if locPoisoned s l al then .error (.trap s 51 (w64 a)) else .ok (flushLoc s (myCore s) l, l)

/-- STATE of word 0 and the address that HEAD names. -/
def cellState (w : Nat) : Nat := fieldOf w 1 0
def cellHead (w : Nat) : Nat := w / 16 * 16

/-- FUTINIT (spec/10 R211, spec/15 R308). -/
def execFutinit (a : RegIx) (s : State) : Host.Outcome State Fault Refusal :=
  let i : Instr := .futinit a
  finish i (do
    let (s, l) ← cellLoc s .store (rdX s a).toNat 16
    let w := homeRead s l 8
    orTrap (cellState w != 3 && !(cellState w == 0 && cellHead w != 0)) s 28 (wordOf i)
    .ok (nextPc (homeWrite s (hartCtx s s.cur).dirty l 16 0)))

/-- FUTRD (spec/15 R310): on a resolved cell it acquires all that the resolution released, bound and unbound (spec/15 R311). -/
def execFutrd (b a d : RegIx) (s : State) : Host.Outcome State Fault Refusal :=
  let i : Instr := .futrd b a d
  finish i (do
    let c := (rdX s a).toNat
    let k := (rdX s b).toNat
    orTrap (c % 16 == 0) s 6 (w64 c)
    orTrap (k % 32 == 0) s 6 (w64 k)
    let (s, l) ← cellLoc s .store c 16
    let (s, lk) ← cellLoc s .store k 32
    let w := homeRead s l 8
    let st := cellState w
    orTrap (st != 3) s 28 (wordOf i)
    if st ≠ 0 then .ok (nextPc (wrX (acquireAll s) d (w64 st)))
    else
      let x := hartCtx s s.cur
      let s := homeWrite s x.dirty lk 8 (cellHead w)
      let s := homeWrite s x.dirty (locAdd lk 28) 4 (fieldOf x.ctxbase 43 12)
      let s := homeWrite s x.dirty l 8 (w % 16 + k)
      .ok (nextPc (wrX s d 0)))

/-- FUTQRY (spec/15 R309). -/
def execFutqry (a d : RegIx) (s : State) : Host.Outcome State Fault Refusal :=
  finish (.futqry a d) (do
    let (s, l) ← cellLoc s .load (rdX s a).toNat 16
    let w := homeRead s l 8
    let s := if cellState w = 1 then acquireAll s else s
    .ok (nextPc (wrX s d (w64 w))))

/-- Resolve an EMPTY cell: VALUE, STATE, and the walk of its list (spec/10 R212). -/
def resolveCell (s : State) (c : ACtx) (l : Loc) (w state value : Nat) : State :=
  let s := homeWrite s c.dirty l 16 (state + value * 2 ^ 64)
  if cellHead w = 0 then s
  else { s with walks := s.walks ++ [{ id := s.ctr, next := cellHead w, ctx := c }], ctr := s.ctr + 1 }

/-- FUTWR (spec/10 R212, spec/15 R311): its release covers every earlier write of the hart. -/
def execFutwr (b a : RegIx) (s : State) : Host.Outcome State Fault Refusal :=
  let i : Instr := .futwr b a
  finish i (do
    let va := (rdX s a).toNat
    let (s, l) ← cellLoc s .store va 16
    let s ← releaseAll s
    let w := homeRead s l 8
    orTrap (cellState w != 3) s 28 (wordOf i)
    orTrap (cellState w == 0) s 27 (w64 va)
    .ok (nextPc (resolveCell s (hartCtx s s.cur) l w 1 (rdX s b).toNat)))

/-! ### The task queue -/

/-- HEAD and TAIL of a context's task queue. -/
def taskHead (s : State) (tid ctxbase : Nat) : Nat := areaRead s tid (ctxbase + taskQOff) 8
def taskTail (s : State) (tid ctxbase : Nat) : Nat := areaRead s tid (ctxbase + taskQOff + 8) 8
/-- Slots of a task queue. -/
def taskSlots : Nat := 8191
/-- The address of the slot that a count names. -/
def taskSlot (ctxbase n : Nat) : Nat := ctxbase + taskQOff + 16 + n % taskSlots * 16
/-- Records in a task queue. -/
def taskCount (s : State) (tid ctxbase : Nat) : Nat := (taskTail s tid ctxbase + 2 ^ 64 - taskHead s tid ctxbase) % 2 ^ 64

/-- Push a record; `none` on a full queue. -/
def taskPush (s : State) (tid : Nat) (xd : Word) (ctxbase entry arg : Nat) : Option State :=
  if taskCount s tid ctxbase ≥ taskSlots then none
  else
    let t := taskTail s tid ctxbase
    let p := taskSlot ctxbase t
    let s := markDirty (areaWrite s tid p 16 (entry + arg * 2 ^ 64)) xd p
    let q := ctxbase + taskQOff + 8
    some (markDirty (areaWrite s tid q 8 ((t + 1) % 2 ^ 64)) xd q)

/-- Pop the oldest record: ENTRY and ARG; `none` on an empty queue. -/
def taskPop (s : State) (tid : Nat) (xd : Word) (ctxbase : Nat) : Option (State × Nat × Nat) :=
  if taskCount s tid ctxbase = 0 then none
  else
    let h := taskHead s tid ctxbase
    let p := taskSlot ctxbase h
    let entry := areaRead s tid p 8
    let arg := areaRead s tid (p + 8) 8
    let q := ctxbase + taskQOff
    some (markDirty (areaWrite s tid q 8 ((h + 1) % 2 ^ 64)) xd q, entry, arg)

/-- Is ENTRY one that a push accepts? -/
def entryOk (entry : Nat) : Bool := entry != 0 && entry % 4 == 0

/-- TSPAWN (spec/16 R342). -/
def execTspawn (a : RegIx) (s : State) : Host.Outcome State Fault Refusal :=
  let i : Instr := .tspawn a
  finish i (do
    let va := (rdX s a).toNat
    if va % 16 ≠ 0 then .error (.trap s 4 (w64 va))
    else
      let (s, r) ← readRecord s va 16 24
      orTrap (entryOk (r % 2 ^ 64)) s 28 (wordOf i)
      let s ← fenceRel s true true
      let c := hartCtx s s.cur
      match taskPush s c.tid c.dirty c.ctxbase (r % 2 ^ 64) (r / 2 ^ 64) with
      | some s => .ok (nextPc s)
      | none => .error (.wait s))

/-- TNEXT (spec/16 R343): the continuation runs in U-mode. -/
def execTnext (w : Bool) (d : RegIx) (s : State) : Host.Outcome State Fault Refusal :=
  finish (.tnext w d) (
    let c := hartCtx s s.cur
    match taskPop s c.tid c.dirty c.ctxbase with
    | some (s, entry, arg) =>
      let s := acquireAll s
      .ok (updMe (wrX s d (w64 arg)) fun h => { h with pc := w64 entry, priv := .u })
    | none => if w then .error (.wait s) else .ok (nextPc s))

/-! ### Resolution walks -/

/-- How a walker's reach for a record ends. -/
inductive WalkEnd where
  | ok (s : State) (l : Loc)
  | page (s : State) (va kind : Nat)
  | bad (s : State) (va : Nat)

/-- Translate a record for a walker. -/
def walkLoc (s : State) (c : ACtx) (k : AKind) (va : Nat) : WalkEnd :=
  if va % 32 ≠ 0 then .bad s va
  else match translate s c k .sync va with
    | (s, .ok l) => if locPoisoned s l 32 then .bad s va else .ok s l
    | (s, .error (.page kind)) => .page s va kind
    | (s, .error _) => .bad s va

def setWalk (s : State) (w : Walk) : State := { s with walks := s.walks.map fun v => if v.id = w.id then w else v }
def dropWalk (s : State) (id : Nat) : State := { s with walks := s.walks.filter fun v => v.id != id }

/-- End a walk on a fault, with its log entry. -/
def walkFail (s : State) (w : Walk) (va : Nat) : State :=
  logFault (dropWalk s w.id) w.ctx.ctxbase w.ctx.tid 31 0xFF 6 (w64 va) 0

/-- Park a walk. -/
def walkPark (s : State) (w : Walk) (va kind : Nat) : State :=
  let (s, t) := postFault s w.ctx va kind 26 (.walk w.id)
  setWalk s { w with park := some t }

/-- Go on to the next record, or end. -/
def walkOn (s : State) (w : Walk) (next : Nat) : State :=
  if next = 0 then dropWalk s w.id else setWalk s { w with next := next, todo := none }

/-- Push for a walk: CTX, ENTRY, ARG and the record's address; a context that does not exist drops it. -/
def walkPush (s : State) (w : Walk) (ctx entry arg va next : Nat) : State :=
  let base := ctx * 4096
  match aget? s.io.contexts base with
  | none => walkOn (logFault s w.ctx.ctxbase w.ctx.tid 52 0xFF 6 (w64 va) (w64 ctx)) w next
  | some c =>
    match taskPush s c.2 w.ctx.dirty base entry arg with
    | some s => walkOn s w next
    | none => setWalk s { w with next := next, todo := some (ctx, entry, arg, va) }

/-- Count one record: decrement JOIN of its target, and push at zero. -/
def walkCount (s : State) (w : Walk) (r : Loc) (t : Loc) : State :=
  let next := homeRead s r 8
  let ctx := homeRead s (locAdd r 28) 4
  let n := (homeRead s (locAdd t 24) 4 + (2 ^ 32 - 1)) % 2 ^ 32
  let entry := homeRead s (locAdd t 8) 8
  let arg := homeRead s (locAdd t 16) 8
  let s := homeWrite s w.ctx.dirty (locAdd t 24) 4 n
  if n = 0 then walkPush s w ctx entry arg w.next next else walkOn s w next

/-- One step of a walk (spec/10 R212). -/
def walkStep (s : State) (w : Walk) : State :=
  match w.fatal, w.todo with
  | some va, _ => walkFail s w va
  | none, some (ctx, entry, arg, va) => walkPush s w ctx entry arg va w.next
  | none, none =>
      match walkLoc s w.ctx .load w.next with
      | .bad s va => walkFail s w va
      | .page s va kind => walkPark s w va kind
      | .ok s r =>
        let entry := homeRead s (locAdd r 8) 8
        let tva := if entry = 0 then homeRead s (locAdd r 16) 8 else w.next
        match walkLoc s w.ctx .store tva with
        | .bad s va => walkFail s w va
        | .page s va kind => walkPark s w va kind
        | .ok s t => walkCount s w r t

/-- FUTURE_WALK_STEP. -/
def execFutureWalkStep (walk : Nat) (s : State) : Host.Outcome State Fault Refusal :=
  match s.walks.find? fun w => w.id == walk with
  | some w => .next (if w.park.isNone then walkStep s w else s)
  | none => .next s

end Sys2Proof.Machine
end

