-- ==== Sys2Proof/Machine/Copy.lean ====
section
/-!
DEFINITION. Copies and event queues (spec/10 R194 to R198, R204 to R206; spec/15 R285, R301 to R306; spec/14 R273).
-/
namespace Sys2Proof.Machine

/-! ### The request (spec/10 Table 10-2) -/

def cpyReq (w : Nat) : Nat := fieldOf w 20 0
def cpyUtag (w : Nat) : Nat := fieldOf w 47 32
/-- TNUM, and TKIND in bit 2. -/
def cpyTgt (w : Nat) : Nat := fieldOf w 50 48
/-- Are the bits that must be 0 zero? -/
def cpyReqOk (w : Nat) (isRec : Bool) : Bool :=
  fieldOf w 31 21 == 0 && fieldOf w 63 51 == 0 && (isRec || fieldOf w 63 32 == 0)

/-! ### Translating a range by pages -/

/-- The pages of [va, va + n): the first byte of each and its offset. -/
def pagesOf (va n : Nat) : List (Nat × Nat) :=
  if n = 0 then []
  else
    let k := (va + n - 1) / 4096 - va / 4096 + 1
    (List.range k).map fun i => if i = 0 then (va, 0) else ((va / 4096 + i) * 4096, (va / 4096 + i) * 4096 - va)

/-- The lowest fault of a range: its offset, address and kind. -/
structure RangeFault where
  off : Nat
  va : Nat
  fail : TrFail
deriving DecidableEq, Repr

/-- Translate the pages of a range up to the first that fails. -/
def transPages (c : ACtx) (k : AKind) : List (Nat × Nat) → State → State × List Held × Option RangeFault
  | [], s => (s, [], none)
  | (va, off) :: r, s =>
    match translate s c k .copy va with
    | (s, .ok l) =>
      let (s, hs, f) := transPages c k r s
      (s, ⟨va, l⟩ :: hs, f)
    | (s, .error f) => (s, [], some ⟨off, va, f⟩)

/-- Is a location a peer aperture? -/
def locPeer (l : Loc) : Bool := match l with | .phys pa _ _ => isPeer pa | _ => false
/-- May the other range of a peer copy lie there: HBM, or the own tile memory (spec/15 R302)? -/
def peerMate (core : Nat) (l : Loc) : Bool :=
  match l with
  | .phys pa _ _ => isHbm pa
  | .tile c _ => c == core
  | .sdm _ _ | .mmio _ => false

/-- The first page of a range that may not face a peer aperture. -/
def mateFault (core base : Nat) (hs : List Held) : Option RangeFault :=
  (hs.find? fun h => !peerMate core h.loc).map fun h => ⟨h.va - base, h.va, .access⟩

/-- The earlier of two faults of one range. -/
def minFault (a b : Option RangeFault) : Option RangeFault :=
  match a, b with
  | some x, some y => some (if x.off ≤ y.off then x else y)
  | some x, none => some x
  | none, y => y

def isPageFail (f : TrFail) : Bool := match f with | .page _ => true | _ => false

/-- The deciding fault (spec/10 R195), and whether it is the source's. -/
def decideFault (fs fd : Option RangeFault) : Option (RangeFault × Bool) :=
  match fs, fd with
  | none, none => none
  | some x, none => some (x, true)
  | none, some y => some (y, false)
  | some x, some y =>
    if x.off < y.off then some (x, true)
    else if y.off < x.off then some (y, false)
    else if isPageFail x.fail && !isPageFail y.fail then some (y, false)
    else some (x, true)

/-- The location of a byte in held translations. -/
def heldLoc (hs : List Held) (va : Nat) : Option Loc :=
  (hs.find? fun h => decide (h.va ≤ va) && decide (va < h.va / 4096 * 4096 + 4096)).map fun h => locAdd h.loc (va - h.va)

/-! ### Issue -/

/-- Records of an engine that are in use. -/
def engRecords (c : CoreSt) (e : Nat) : Nat := (c.copies.filter fun kv => kv.1 / 32 == e).length
/-- A free record of an engine. -/
def engFree (c : CoreSt) (e : Nat) : Nat := ((List.range 32).find? fun i => (aget? c.copies (32 * e + i)).isNone).getD 0

/-- An event queue of the current hart's gang; a hart of no gang has none. -/
def gangEvq (g : Gang) (n : Nat) : EvQ := aget {} g.evq n
def evqLog (q : EvQ) : Nat := fieldOf q.conf.toNat 4 0
def evqBase (q : EvQ) : Nat := fieldOf q.conf.toNat 59 5 * 32
def myEvq (s : State) (n : Nat) : EvQ :=
  match (coreOf s (myCore s)).gang with
  | some seat => gangEvq (gangOf s seat) n
  | none => {}
def setEvq (s : State) (seat n : Nat) (q : EvQ) : State := updGang s seat fun g => { g with evq := aput g.evq n q }

/-- The grant of a request under the faults found (spec/10 R195). -/
def cutGrant (grant stamp : Nat) (fs fd : Option RangeFault) : Nat :=
  let lim := match fs with | some x => min grant x.off | none => grant
  let lim := match fd with | some y => min lim (y.off - stamp) | none => lim
  if lim < 64 then 0 else lim - lim % 64

/-- Enter a granted copy. -/
def enterCopy (s : State) (w grant src dst : Nat) (isS isRec isFut : Bool) (stampLen : Nat) (held : List Held) : State :=
  let core := myCore s
  let slot := mySlot s
  let e := slot % 2
  let stamp := if isS then (me s).xc.cpyseq else 0
  let (s, as) := aritEnter s core ⟨false, true, 16 + e, slot, src, src + grant⟩
  -- the cell of a .fut copy stays free for FUTRD while the copy is under way (notes/assumptions/54)
  let (s, ad) := aritEnter s core ⟨true, false, 16 + e, slot, dst, dst + grant + if isFut then 0 else stampLen⟩
  let k : Copy := {
    opt := (if isS then 1 else 0) + (if isRec then 2 else 0) + (if isFut then 4 else 0), slot := slot,
    tgt := if isRec then cpyTgt w else 0, stamp := stamp, rem := grant, src := src, dst := dst,
    utag := if isRec then cpyUtag w else 0, dst0 := dst, grant := grant, src0 := src, span := grant, ctx := hartCtx s s.cur, held := held,
    weight := if grant ≥ 0x40000 then 1 else 0, aritS := as, aritD := ad, peer := held.any fun h => locPeer h.loc }
  let s := updCore s core fun c => { c with copies := aput c.copies (32 * e + engFree c e) k }
  if isS then updX s fun x => { x with cpyseq := x.cpyseq + 1 } else s

/-- CPY and CPYS (spec/10 R195, spec/15 R301, R302). -/
def cpyOp (i : Instr) (b a d : RegIx) (isS isRec isFut : Bool) (s : State) : Res := do
  let w := (rdX s d).toNat
  let src := (rdX s b).toNat
  let dst := (rdX s a).toNat
  let al := if isFut then 16 else if isS then 8 else 1
  let st := if isFut then 16 else if isS then 8 else 0
  let core := myCore s
  let e := mySlot s % 2
  orIllegal (cpyReqOk w isRec) s i
  orTrap (dst % al == 0 && cpyReq w % al == 0) s 6 (w64 dst)
  orTrap (!(isRec && decide (cpyTgt w < 4) && evqLog (myEvq s (cpyTgt w % 4)) == 0)) s 28 (wordOf i)
  let used := engRecords (coreOf s core) e
  if used ≥ 32 then .error (.wait s)
  else
    let req := min (cpyReq w) 0x100000
    let req := if used > 24 then min req 0x10000 else req
    do
      let c := hartCtx s s.cur
      let (s, hs, fs) := transPages c .load (pagesOf src req) s
      let (s, hd, fd) := transPages c .store (pagesOf dst (req + st)) s
      let fd := if hs.any (fun h => locPeer h.loc) then minFault fd (mateFault core dst hd) else fd
      let fs := if hd.any (fun h => locPeer h.loc) then minFault fs (mateFault core src hs) else fs
      let grant := if fs.isNone && fd.isNone then req else cutGrant req st fs fd
      let s := if grant ≥ 0x40000 then s else withdrawLeave s s.cur
      let zero (s : State) (va : Word) : State := nextPc (updX (wrX s d 0) fun x => { x with vl := 0, fault := va })
      match decideFault fs fd with
      | some (f, isSrc) =>
        if f.off = 0 ∧ isPageFail f.fail = false then
          .error (.trap (updX s fun x => { x with fault := w64 f.va })
            (if f.fail = .poison then 51 else if isSrc then 5 else 7) (w64 f.va))
        else if grant = 0 then
          match f.fail with
          | .page kind =>
            let (s, t) := postFault s c f.va kind (16 + e) (.probe s.cur)
            .ok (zero (updMe s fun h => { h with probe := some t }) (w64 f.va))
          | _ => .ok (zero s (w64 f.va))
        else cpyGo s grant w src dst st (hs ++ hd) (some f.va)
      | none => if grant = 0 then .ok (zero s (me s).xc.fault) else cpyGo s grant w src dst st (hs ++ hd) none
where
  cpyGo (s : State) (grant w src dst st : Nat) (held : List Held) (fault : Option Nat) : Res := do
    let core := myCore s
    let slot := mySlot s
    if ownWaits s core slot src grant false || ownWaits s core slot dst (grant + st) true ||
        decide (aritRoom (coreOf s core) < 2) then .error (.wait s)
    else
      let s ← if grant ≥ 0x40000 then askLeave s 1 else .ok s
      let s := drainWc s s.cur
      let s := updX (wrX s d (w64 grant)) fun x =>
        { x with vl := w64 grant, fault := match fault with | some va => w64 va | none => x.fault }
      .ok (nextPc (enterCopy s w grant src dst isS isRec isFut st held))

/-- CPY. -/
def execCpy (b a : RegIx) (r : Bool) (d : RegIx) (s : State) : Host.Outcome State Fault Refusal :=
  finish (.cpy b a r d) (cpyOp (.cpy b a r d) b a d false r false s)

/-- CPYS. -/
def execCpys (b a : RegIx) (f r : Bool) (d : RegIx) (s : State) : Host.Outcome State Fault Refusal :=
  finish (.cpys b a f r d) (cpyOp (.cpys b a f r d) b a d true r f s)

/-- CPYW (spec/10 R197). -/
def execCpyw (s : State) : Host.Outcome State Fault Refusal :=
  finish .cpyw (
    if (coreOf s (myCore s)).copies.any fun kv => kv.2.slot == mySlot s then .error (.wait s) else .ok (nextPc s))

/-! ### The engine -/

def setCopy (s : State) (core r : Nat) (k : Copy) : State := updCore s core fun c => { c with copies := aput c.copies r k }

/-- The location of a byte of a copy: held at the grant, or translated afresh after a restore. A page whose key has gone is an
access fault (spec/14 R271). -/
def copyLoc (s : State) (k : Copy) (kind : AKind) (va : Nat) : State × Except TrFail Loc :=
  match heldLoc k.held va with
  | some l => (s, if locKeyed s l then .ok l else .error .access)
  | none => translate s k.ctx kind .copy va

/-- The locations of n bytes, by pages; the first that fails. -/
def copyLocs (s : State) (k : Copy) (kind : AKind) (va n : Nat) : State × List Held × Option RangeFault :=
  (pagesOf va n).foldl (fun acc p =>
    match acc.2.2 with
    | some _ => acc
    | none =>
      match copyLoc acc.1 k kind p.1 with
      | (s, .ok l) => (s, acc.2.1 ++ [⟨p.1, l⟩], none)
      | (s, .error f) => (s, acc.2.1, some ⟨p.2, p.1, f⟩)) (s, [], none)

/-- Park a copy. -/
def copyPark (s : State) (core r : Nat) (k : Copy) (va kind : Nat) : State :=
  let (s, t) := postFault s k.ctx va kind (16 + r / 32) (.copy core r)
  setCopy s core r { k with park := some t }

/-- Free a copy's record, its interlock entries and its leave. -/
def copyFree (s : State) (core r : Nat) (k : Copy) : State :=
  let s := releaseUnits s (dieOfCore core) k.weight
  let s := aritLeave (aritLeave s core k.aritS) core k.aritD
  updCore s core fun c => { c with copies := adel c.copies r }

/-- The gang hart index of a copy's issuer. -/
def copyGhart (s : State) (core : Nat) (k : Copy) : Nat := ghartOf s (8 * core + k.slot)

/-- Log a copy (SRC 1). -/
def copyLog (s : State) (core : Nat) (k : Copy) (cause : Nat) : State :=
  logFault s k.ctx.ctxbase k.ctx.tid cause (copyGhart s core k) 1 (w64 k.dst0) 0

/-- Where the writes of a copy's strip begin, or end, whose nominal edge is an address: an aligned 8-byte word of the destination
is written in one turn, by the strip that meets it first (spec/07 R130, R133). -/
def stripEdge (k : Copy) (a : Nat) : Nat :=
  if a = k.dst ∧ k.src = k.src0 then a else min (roundUp a 8) (k.dst + k.rem)

/-- Move n bytes to destination address `dva`: bytes in order, poison with its words. A peer's bytes are free values, and
bytes written to a peer leave the package. -/
def moveBytes (s : State) (k : Copy) (core : Nat) (hs hd : List Held) (dva n : Nat) : State :=
  let a := aritVa s core k.src0
  let sva := k.src + (dva - k.dst)
  let lost (t : State) (i : Nat) : Bool := match heldLoc hs (sva + i) with
    | some l => locPoisoned t l 1
    | none => false
  (List.range n).foldl (fun t i =>
    match heldLoc hs (sva + i), heldLoc hd (dva + i) with
    | some ls, some ld =>
      let d := aritVa t core (dva + i)
      let free := locPeer ls || (decide (a ≤ d) && decide (d < a + k.span))
      let bad := lost t i
      let (v, t) := if free then (let (b, t) := freshBits t 8; (b.toNat, t))
        else
          let t := lookUp t core ls
          (lookRead t core ls 1, t)
      if locPeer ld then t
      else
        let t := lookWrite t k.ctx ld 1 v
        let t := if locAlign ld = 7 ∧ i ≥ 7 ∧ (List.range 8).any (fun j => lost t (i - j)) = false then
          locSetPoison t ld false else t
        if bad then locSetPoison t ld true else t
    | _, _ => t) s

/-- A strip that failed: it parks, or the copy ends on an access fault. -/
def stripFail (s : State) (core r : Nat) (k : Copy) (f : RangeFault) : State :=
  match f.fail with
  | .page kind => copyPark s core r k f.va kind
  | _ => copyFree (copyLog s core k 31) core r k

/-- COPY_STRIP: move the next strip of 64 bytes (spec/10 R196). -/
def copyStrip (s : State) (core r : Nat) (k : Copy) : State :=
  let n := min 64 k.rem
  let lo := stripEdge k k.dst
  let hi := stripEdge k (k.dst + n)
  let (s, hs, fs) := copyLocs s k .load (k.src + (lo - k.dst)) (hi - lo)
  match fs with
  | some f => stripFail s core r k f
  | none =>
    let (s, hd, fd) := copyLocs s k .store lo (hi - lo)
    match fd with
    | some f => stripFail s core r k f
    | none =>
      let bad := (List.range (hi - lo)).any fun i => match heldLoc hs (k.src + (lo - k.dst) + i) with
        | some l => locPoisoned s l 1
        | none => false
      let s := moveBytes s k core hs hd lo (hi - lo)
      let s := aritAdvance (aritAdvance s core k.aritS n) core k.aritD n
      setCopy s core r
        { k with rem := k.rem - n, src := k.src + n, dst := k.dst + n, status := if bad then 2 else k.status,
                 peer := k.peer || (hs ++ hd).any fun h => locPeer h.loc }

/-- COPY_STRIP. -/
def execCopyStrip (core rec_ : Nat) (s : State) : Host.Outcome State Fault Refusal :=
  match aget? (coreOf s core).copies rec_ with
  | some k =>
    .next (if k.fatal then copyFree (copyLog s core k 31) core rec_ k
      else if k.park.isSome || k.rem == 0 then s else copyStrip s core rec_ k)
  | none => .next s

/-- Step 1 of R196: the stamp, or the resolution of the cell with STATUS 1 where it is not EMPTY. -/
def copyStamp (s : State) (k : Copy) : State × Nat :=
  if !bitOf k.opt 0 then (s, k.status)
  else match copyLoc s k .store k.dst with
    | (s, .ok l) =>
      if locPeer l then (s, k.status)
      else if bitOf k.opt 2 then
        let s := flushLoc s k.ctx.core l
        let w := homeRead s l 8
        if cellState w = 0 then (resolveCell s k.ctx l w (if k.status = 2 then 2 else 1) k.stamp.toNat, k.status)
        else (s, 1)
      else (lookWrite s k.ctx l 8 k.stamp.toNat, k.status)
    | (s, .error _) => (s, k.status)

/-- Log the STATUS of a copy that posts no record. -/
def copyStatusLog (s : State) (core : Nat) (k : Copy) : State :=
  if k.status = 1 then copyLog s core k 27 else if k.status = 2 then copyLog s core k 51 else s

/-- Complete a copy whose bytes are performed (spec/10 R196, spec/15 R285). -/
def copyComplete (s : State) (core r : Nat) (k : Copy) : State :=
  match (if bitOf k.opt 0 then copyLoc s k .store k.dst else (s, .error .access)) with
  | (s, .error (.page kind)) => copyPark s core r k k.dst kind
  | (s, _) =>
    let (s, st) := copyStamp s k
    let k := { k with status := st }
    if bitOf k.opt 1 && decide (k.tgt < 4) then setCopy s core r { k with stage := 2 }
    else
      let s := copyStatusLog s core k
      let s :=
        if bitOf k.opt 1 then
          let (s, ok) := match (coreOf s core).gang with
            | some seat => copyArrive s seat (k.tgt % 4)
            | none => (s, false)
          if ok then s else copyLog s core k 29
        else s
      copyFree s core r k

/-- COPY_COMPLETION: once every byte is performed, and acknowledged where the copy goes to a peer (spec/14 R273). -/
def execCopyCompletion (core rec_ : Nat) (s : State) : Host.Outcome State Fault Refusal :=
  match aget? (coreOf s core).copies rec_ with
  | some k =>
    .next (if k.rem == 0 && k.stage == 0 && k.park.isNone && (!k.peer || k.acked) then copyComplete s core rec_ k else s)
  | none => .next s

/-- PEER_ACK: the remote side acknowledges the last byte of a peer copy. -/
def execPeerAck (core rec_ : Nat) (s : State) : Host.Outcome State Fault Refusal :=
  match aget? (coreOf s core).copies rec_ with
  | some k => .next (if k.peer && k.rem == 0 then setCopy s core rec_ { k with acked := true } else s)
  | none => .next s

/-- A copy whose remaining bytes cannot be moved: cause 50 is logged, and it completes with STATUS 2 (spec/14 R273). -/
def copyAbort (s : State) (core rec_ : Nat) (k : Copy) : State :=
  setCopy (copyLog s core k 50) core rec_ { k with rem := 0, dst := k.dst + k.rem, acked := true, status := 2, park := none }

/-- PEER_CONNECTION_FAIL: a peer copy ends with STATUS 2, and cause 50 is logged. -/
def execPeerConnectionFail (core rec_ : Nat) (s : State) : Host.Outcome State Fault Refusal :=
  match aget? (coreOf s core).copies rec_ with
  | some k =>
    .next (if k.peer && !k.acked && k.stage == 0 then copyAbort s core rec_ k else s)
  | none => .next s

/-! ### Event queues -/

/-- What a post finds: done, a wait for room, or a fault of the ring's page. -/
inductive PostEnd where
  | done (s : State)
  | full (s : State)
  | page (s : State) (va kind : Nat)

/-- Post a record of four words to an event queue of a gang (spec/10 R205). -/
def evqPost (s : State) (c : ACtx) (seat n : Nat) (ws : Nat × Nat × Nat × Nat) : PostEnd :=
  let q := gangEvq (gangOf s seat) n
  if evqLog q = 0 then .done s
  else
    let size := 2 ^ evqLog q
    let va := evqBase q + q.tail % size * 32
    match translate s c .store .sync va with
    | (s, .error (.page kind)) => .page s va kind
    | (s, .error _) => .done s
    | (s, .ok l) =>
      let s := lookUp s c.core l
      if lookRead s c.core l 8 ≠ 0 ∨ (q.tail + 2 ^ 32 - q.head) % 2 ^ 32 ≥ size then .full s
      else
        let s := lookWrite s c l 32 (ws.1 + ws.2.1 * 2 ^ 64 + ws.2.2.1 * 2 ^ 128 + ws.2.2.2 * 2 ^ 192)
        .done (setEvq s seat n { q with tail := (q.tail + 1) % 2 ^ 32 })

/-- Word 0 of a completion record (spec/10 Table 10-6). -/
def complWord (kind status ghart utag : Nat) : Nat := kind + status * 2 ^ 8 + ghart % 128 * 2 ^ 16 + utag * 2 ^ 32

/-- EVENT_QUEUE_POST: a copy posts its completion record. -/
def execEventQueuePost (core rec_ : Nat) (s : State) : Host.Outcome State Fault Refusal :=
  match aget? (coreOf s core).copies rec_, (coreOf s core).gang with
  | some k, some seat =>
    if k.stage ≠ 2 ∨ k.park.isSome then .next s
    else if k.fatal then .next (copyFree (copyLog s core k 31) core rec_ k)
    else
      match evqPost s k.ctx seat (k.tgt % 4)
          (complWord 1 k.status (copyGhart s core k) k.utag, k.dst0, k.grant, k.stamp.toNat) with
      | .done s => .next (copyFree s core rec_ k)
      | .full s => .next s
      | .page s va kind => .next (copyPark s core rec_ k va kind)
  | _, _ => .next s

/-- The ring's pages, each to be global normal memory. -/
def evqCheck (s : State) (base size : Nat) : Except Exc State :=
  (pagesOf base size).foldlM (fun s p =>
    match translate s (accessCtx s .store) .store .sync p.1 with
    | (s, .ok _) => .ok s
    | (s, .error (.page kind)) => .error (.pageFault s p.1 kind 24)
    | (s, .error _) => .error (.trap s 7 (w64 base))) s

/-- EVQCFG (spec/10 R204, spec/15 R305). -/
def execEvqcfg (n : Fin 4) (a : RegIx) (s : State) : Host.Outcome State Fault Refusal :=
  let i : Instr := .evqcfg n a
  finish i (do
    let va := (rdX s a).toNat
    if va % 16 ≠ 0 then .error (.trap s 4 (w64 va))
    else
      let (s, r) ← readRecord s va 16 24
      let w := r % 2 ^ 64
      let lg := fieldOf w 4 0
      orTrap (decide (lg ≤ 16) && fieldOf w 63 60 == 0 && r / 2 ^ 64 == 0) s 28 (wordOf i)
      let s ← if lg = 0 then .ok s else evqCheck s (fieldOf w 59 5 * 32) (2 ^ lg * 32)
      .ok (nextPc (match (coreOf s (myCore s)).gang with
        | some seat => setEvq s seat n.val ⟨w64 w, 0, 0⟩
        | none => s)))

/-- EVQPOP (spec/10 R206, spec/15 R306): it returns the slot's address, and is an acquire of what the post released. -/
def execEvqpop (n : Fin 4) (d : RegIx) (s : State) : Host.Outcome State Fault Refusal :=
  let i : Instr := .evqpop n d
  finish i (do
    let q := myEvq s n.val
    orTrap (evqLog q != 0) s 28 (wordOf i)
    if q.head = q.tail then .ok (nextPc (wrX s d 0))
    else
      let va := evqBase q + q.head % 2 ^ evqLog q * 32
      let s := acquireAll s
      let s := match (coreOf s (myCore s)).gang with
        | some seat => setEvq s seat n.val { q with head := (q.head + 1) % 2 ^ 32 }
        | none => s
      .ok (nextPc (wrX s d (w64 va))))

end Sys2Proof.Machine
end

