-- ==== Sys2Proof/Machine/System.lean ====
section
/-!
DEFINITION. The RISC-V ordering and system instructions with words of their own rows: FENCE (spec/07 R132), FENCE.I (spec/06
R102), SFENCE.VMA (spec/06 R114), ECALL (spec/02 R23), the taking of an interrupt, and the invalidation of translations
(spec/16 R339 to R341).
-/
namespace Sys2Proof.Machine

/-- FENCE: I, O, R, W are bits 3 to 0 of each set. It orders no transfer. FENCE.TSO is FENCE rw,rw, which its sets
already say. -/
def execFence (fm pred succ : BitVec 4) (s : State) : Host.Outcome State Fault Refusal :=
  finish (.fence fm pred succ) (do
    let s ← if (pred &&& 5).toNat ≠ 0 then fenceAll s false else .ok s
    let s := if (succ &&& 10).toNat ≠ 0 then fenceAcq s true else s
    .ok (nextPc s))

/-- FENCE.I: the hart's earlier stores are performed, and the core's instruction cache is emptied. -/
def execFenceI (s : State) : Host.Outcome State Fault Refusal :=
  finish .fenceI (
    let s := performAll s s.cur
    let s := updCore s (myCore s) fun c => { c with icache := [] }
    .ok (nextPc s))

/-- ECALL: with x17 = 0 in U-mode the hart ends; else an environment call of its mode. -/
def execEcall (s : State) : Host.Outcome State Fault Refusal :=
  finish .ecall (
    let h := me s
    match h.priv with
    | .u => if hartX h 17 = 0 then .ok (nextPc (updMe s fun h => { h with run := .ended })) else .error (.trap s 8 0)
    | .s => .error (.trap s 9 0)
    | .m => .error (.trap s 11 0))

/-- ASYNC_INTERRUPT: a hart takes the interrupt that is next, if any (spec/02 R34, spec/13 R260). -/
def execAsyncInterrupt (hart : Nat) (s : State) : Host.Outcome State Fault Refusal :=
  match irqFor s hart with
  | some (cause, m) => .next (takeInterrupt s hart cause m)
  | none => .next s

/-! ### Invalidation of translations -/

/-- Does an entry map a byte of [lo, hi)? A CONTIG entry counts as its whole group. -/
def tlbIn (asid tid lo hi : Nat) (e : TlbEnt) : Bool :=
  let c := pteContig e.pte.toNat
  let a := if c then e.va / 65536 * 65536 else e.va
  let n := if c then 65536 else e.size
  e.asid == asid && e.tid == tid && decide (a < hi) && decide (lo < a + n)

/-- Does a pointer entry lead to a byte of [lo, hi)? -/
def pwcIn (asid tid lo hi : Nat) (e : PwcEnt) : Bool :=
  let n := 2 ^ (12 + 9 * (e.lvl + 1))
  e.asid == asid && e.tid == tid && decide (e.idx * n < hi) && decide (lo < (e.idx + 1) * n)

/-- Is a cache line of (ASID, tenant) in [lo, hi)? -/
def lineInRange (asid tid lo hi : Nat) (c : CLine) : Bool :=
  c.asid == asid && c.tid == tid && decide (c.va < hi) && decide (lo < c.va + 64)

/-- Remove every translation and pointer of a range, and every cache line of it, everywhere. -/
def invalidateRange (s : State) (asid tid lo hi : Nat) : State :=
  let s := s.cores.foldl (fun t kv => flushLines t kv.1 fun _ c => lineInRange asid tid lo hi c) s
  let core (c : CoreSt) : CoreSt := { c with utlb := c.utlb.filter fun e => !tlbIn asid tid lo hi e }
  let die (d : DieSt) : DieSt :=
    { d with
      slices := d.slices.map fun kv => (kv.1, kv.2.filter fun e => !tlbIn asid tid lo hi e)
      pwc := d.pwc.filter fun e => !pwcIn asid tid lo hi e }
  { s with cores := s.cores.map fun kv => (kv.1, core kv.2), dies := s.dies.map fun kv => (kv.1, die kv.2) }

/-- The range of an invalidation: [base down, base + length up) in 4 KiB pages, or all of global space. -/
def invalRange (base len : Nat) : Nat × Nat :=
  if len = 0 then (0, 2 ^ 59) else (base / 4096 * 4096, roundUp (base + len) 4096)

/-- Start an invalidation; it waits while the hart has 8 outstanding. -/
def startInval (s : State) (asid : Nat) (r : Nat × Nat) : Except Exc State :=
  if (me s).inval.length ≥ 8 then .error (.wait s)
  else .ok (updMe s fun h => { h with inval := h.inval ++ [(asid, r.1, r.2)] })

/-- Does a copy hold a translation of a page that meets [lo, hi)? -/
def copyHolds (asid tid lo hi : Nat) (k : Copy) : Bool :=
  k.ctx.asid == asid && k.ctx.tid == tid &&
    k.held.any fun e => decide (e.va / 4096 * 4096 < hi) && decide (lo < e.va / 4096 * 4096 + 4096)

/-- Does a piece use a page that meets [lo, hi) (spec/11 R215)? -/
def pieceHolds (s : State) (asid tid lo hi : Nat) (p : Piece) : Bool :=
  (match aget? s.cmds p.cmd with | some c => c.asid == asid && c.tid == tid | none => false) &&
    (pieceRngs p).any fun r => decide (r.va / 4096 * 4096 < hi) && decide (lo < r.va / 4096 * 4096 + 4096)

/-- Is nothing under way that uses a translation that is to be removed: granted copies and bank pieces of the range, and
refills and reductions, of whatever range? -/
def noInFlight (s : State) (asid tid lo hi : Nat) : Bool :=
  s.banks.all (fun kv => kv.2.all fun p => !pieceHolds s asid tid lo hi p) &&
  s.cmds.all (fun kv => kv.2.todo.all fun p => !pieceHolds s asid tid lo hi p.2) && s.cores.all fun kv =>
    kv.2.refills.isEmpty && kv.2.redq.isEmpty && kv.2.copies.all fun k => !copyHolds asid tid lo hi k.2

/-- Perform the buffered stores of the harts of an address space, and withdraw their waiting ACQ requests in [lo, hi): the ACQ
executes again and translates anew (spec/06 R114, spec/16 R340). -/
def settleRange (s : State) (asid tid lo hi : Nat) : State :=
  let ours (s : State) (h : Nat) : Bool := (hartCtx s h).asid == asid && (hartCtx s h).tid == tid
  let s := s.harts.foldl (fun t kv => if kv.2.wc ≠ [] ∧ ours s kv.1 = true then drainWc t kv.1 else t) s
  { s with acqs := s.acqs.filter fun q => !(ours s q.hart && decide (q.va < hi) && decide (lo < q.va + 16)) }

/-- Complete the first outstanding invalidation of a hart, once no access under way uses what it removes. -/
def completeInval (s : State) (hart : Nat) : State :=
  match (hartOf s hart).inval with
  | [] => s
  | (asid, lo, hi) :: r =>
    let tid := (hartCtx s hart).tid
    if noInFlight s asid tid lo hi then
      updHart (invalidateRange (settleRange s asid tid lo hi) asid tid lo hi) hart fun h => { h with inval := r }
    else s

/-- INVALIDATION_COMPLETE (spec/16 R340): once the accesses that used removed translations have been performed. -/
def execInvalidationComplete (hart : Nat) (s : State) : Host.Outcome State Fault Refusal :=
  .next (completeInval s hart)

/-- SFENCE.VMA: a TLBIR over its operands for the hart's own ASID, then TLBSYNC; a wait marked as TLBSYNC has sent its
invalidation. Illegal in U-mode, and in S-mode under TVM. -/
def execSfenceVma (rs1 rs2 : RegIx) (s : State) : Host.Outcome State Fault Refusal :=
  let i : Instr := .sfenceVma rs1 rs2
  let h := me s
  if h.priv = .u ∨ (h.priv = .s ∧ bitOf h.pr.mstatus.toNat 20 = true) then finish i (illegal s i)
  else if h.wait = some .tlbsync then
    finish .tlbsync (if h.inval.isEmpty then .ok (nextPc s) else .error (.wait s))
  else
    let r := if rs1.val = 0 then (0, 2 ^ 59) else invalRange (rdX s rs1).toNat (rdX s rs2).toNat
    match startInval s (hartCtx s s.cur).asid r with
    | .error e => finish i (.error e)
    | .ok s => finish .tlbsync (.error (.wait s))

end Sys2Proof.Machine
end

