-- ==== Sys2Proof/Machine/NearMem.lean ====
section
/-!
DEFINITION. Bank arithmetic (spec/11 R214 to R222; spec/15 R286 to R289): the command, its pieces, the bank queues, and
the bank gather.
-/
namespace Sys2Proof.Machine

/-! ### Banks -/

/-- The bank of a physical address in a bank-local extent: 512 stack + bank (spec/11 R214). -/
def bankOf (pa : Nat) : Nat :=
  let f := fieldOf pa 39 12
  512 * (f % 12) + f / 12 % 512

/-- A bank's queue. -/
def bankQ (s : State) (b : Nat) : List Piece := aget [] s.banks b
def setBankQ (s : State) (b : Nat) (q : List Piece) : State := { s with banks := aputC [] s.banks b q }

/-! ### Formats and arithmetic (spec/11 R217) -/

/-- The BAU format of a code. -/
def bauFmt (n : Nat) : Option Fmt :=
  match n with
  | 0x09 => some .fp32
  | 0x0A => some .fp16
  | 0x0B => some .bf16
  | 0x02 => some .i32
  | _ => none

/-- Bytes of an element. -/
def bauBytes (f : Fmt) : Nat := fmtSew f / 8
/-- The row stride of a table. -/
def rowStride (f : Fmt) (len : Nat) : Nat := roundUp (len * bauBytes f) 64

/-- A result rounded once into a format under RNE, no flags kept. -/
def rne (f : Fmt) (x : FOut) : Nat := (narrow (specOf f) .rne 0 x).1
/-- The value of an FP32 pattern. -/
def f32v (n : Nat) : FVal := elemVal .fp32 0 n 0 0

/-- FILL, AXPY and SCALE of one element. -/
def bauFill (f : Fmt) (alpha : Nat) : Nat := if f = .i32 then alpha else rne f (foutOf (f32v alpha))
def bauAxpy (f : Fmt) (alpha src dst : Nat) : Nat :=
  if f = .i32 then (alpha * src + dst) % 2 ^ 32
  else rne f (ffmaV .rne (f32v alpha) (elemVal f 0 src 0 0) (elemVal f 0 dst 0 0)).1
def bauScale (f : Fmt) (alpha dst : Nat) : Nat :=
  if f = .i32 then alpha * dst % 2 ^ 32 else rne f (fmulV (f32v alpha) (elemVal f 0 dst 0 0)).1

/-- The REDUCE tree over all elements (spec/04 R74); the wrapping sum for I32. -/
def bauReduce (f : Fmt) (vs : List Nat) : Nat :=
  if f = .i32 then vs.foldl (· + ·) 0 % 2 ^ 32
  else
    let n := 2 ^ (Nat.log2 (vs.length - 1) + 1)
    let leaves := vs.map some ++ List.replicate (n - vs.length) none
    match (redTree (fredJoin f .sum .rne) vs.length leaves ⟨0, 0⟩).1 with
    | some v => rne f (foutOf (elemVal f 0 v 0 0))
    | none => 0

/-- One fused FP32 step of a weighted sum. -/
def accStep (w : Nat) (f : Fmt) (r acc : Nat) : Nat := rne .fp32 (ffmaV .rne (f32v w) (elemVal f 0 r 0 0) (f32v acc)).1

/-! ### Ranges -/

/-- Translate a range page by page; the first page that fails decides. -/
def bauRange (s : State) (k : AKind) (va n : Nat) : Except Exc (State × List Rng) :=
  (pageCuts va n).foldlM (fun (acc : State × List Rng) p => do
    let (s, l) ← myTranslate acc.1 k .bank p.1 25
    match l with
    | .phys pa _ key => .ok (s, acc.2 ++ [⟨p.1, pa, p.2, key⟩])
    | _ => .error (.trap s (accessCause k) (w64 p.1))) (s, [])
where
  /-- The parts of [va, va + n) in each page. -/
  pageCuts (va n : Nat) : List (Nat × Nat) :=
    if n = 0 then []
    else
      (List.range ((va + n - 1) / 4096 - va / 4096 + 1)).map fun i =>
        let lo := max va ((va / 4096 + i) * 4096)
        (lo, min (va + n) ((va / 4096 + i + 1) * 4096) - lo)

/-- The place of byte `off` of a list of ranges. -/
def rngAt : List Rng → Nat → Option Loc
  | [], _ => none
  | r :: rs, off => if off < r.len then some (.phys (r.pa + off) 0 r.key) else rngAt rs (off - r.len)

/-- An element read at the bank; whether its word is poisoned. -/
def rngRead (s : State) (rs : List Rng) (off n : Nat) : Nat × Bool :=
  match rngAt rs off with
  | some l => (homeRead s l n, locPoisoned s l n)
  | none => (0, false)

/-- The part [off, off + n) of a list of ranges. -/
def rngCut : List Rng → Nat → Nat → List Rng
  | [], _, _ => []
  | r :: rs, off, n =>
    if r.len ≤ off then rngCut rs (off - r.len) n
    else
      let k := min n (r.len - off)
      ⟨r.va + off, r.pa + off, k, r.key⟩ :: if n ≤ k then [] else rngCut rs 0 (n - k)

/-- Is a physical line in one of the ranges? -/
def lineInRngs (rs : List Rng) (line : Nat) : Bool :=
  rs.any fun r => decide (r.pa < 64 * line + 64) && decide (64 * line < r.pa + r.len)

/-- The ARIT and write-back steps of spec/07 R141: the hart's earlier transfers and reductions on the operands come first. -/
def bauIssue (s : State) (wr rd : List Rng) : Except Exc State :=
  if wr.any (fun r => ownWaits s (myCore s) (mySlot s) r.va r.len true) ||
      rd.any (fun r => ownWaits s (myCore s) (mySlot s) r.va r.len false) then .error (.wait s)
  else
    let s := drainWc s s.cur
    .ok (flushLines s (myCore s) fun k _ => lineInRngs (wr ++ rd) k)

/-! ### Pieces -/

/-- What is left of a piece's work: what element i becomes, and whether it consumes a poisoned word; `none` where the
piece writes no element. -/
def pieceElem (s : State) (p : Piece) (f : Fmt) (i : Nat) : Option Nat × Bool :=
  let e := bauBytes f
  let (old, badD) := rngRead s [p.at_] (i * e) e
  match p.op with
  | .fill v => (some (bauFill f v), false)
  | .copy src => (some (rngRead s src (i * e) e).1, false)
  | .axpy src alpha =>
    let (x, bad) := rngRead s src (i * e) e
    (some (bauAxpy f alpha x old), bad || badD)
  | .scale alpha => (some (bauScale f alpha old), badD)
  | .gather _ => (none, badD)
  | .combine => (none, false)
  | .row c g =>
    let (x, bad) := rngRead s g (i * e) e
    (some (bauAxpy f c x old), bad || badD)

/-- Store an element of a piece. -/
def storeElem (s : State) (p : Piece) (f : Fmt) (i v : Nat) : State :=
  match rngAt [p.at_] (i * bauBytes f) with
  | some l => homeWrite s 0 l (bauBytes f) v
  | none => s

/-- The elements of a piece in order, up to one at which it stops: the number done, and the state. -/
def pieceRun (f : Fmt) (p : Piece) (stop : Option Nat) : Nat → Nat → State → State × Nat × Bool
  | 0, i, s => (s, i, false)
  | n + 1, i, s =>
    let (v, bad) := pieceElem s p f i
    if bad || stop == some i then (s, i, true)
    else
      let (v, s) :=
        if p.lo ≤ i ∧ i < p.hi then
          let (b, s) := freshBits s (8 * bauBytes f)
          (v.map fun _ => b.toNat, s)
        else (v, s)
      pieceRun f p stop n (i + 1) (match v with | some v => storeElem s p f i v | none => s)

/-- The poison of the words that a piece wrote whole: a COPY moves it, anything else ends it (spec/13 R261). -/
def piecePoison (s : State) (p : Piece) (n : Nat) : State :=
  let lo := roundUp p.at_.pa 8
  (List.range ((p.at_.pa + n - lo) / 8)).foldl (fun t i =>
    let bad := match p.op with
      | .copy src => (List.range 8).any fun k => (rngRead t src (lo - p.at_.pa + 8 * i + k) 1).2
      | _ => false
    if poisonedAt t (lo + 8 * i) = bad then t else setPoison t (lo + 8 * i) bad) s

/-- The elements of a piece. -/
def pieceLen (p : Piece) (f : Fmt) : Nat :=
  match p.op with
  | .combine => 0
  | _ => p.at_.len / bauBytes f

/-- Refresh every line of a set of ranges in a core's cache, its dirty bytes kept. -/
def refreshRngs (s : State) (core : Nat) (rs : List Rng) : State :=
  let s := dropClean s core fun k _ => lineInRngs rs k
  updCore s core fun r =>
    { r with dcache := r.dcache.map fun kv => if lineInRngs rs kv.1 then (kv.1, refreshLine s kv.1 kv.2) else kv }

/-- A piece that stopped: the error is pending at the issuer, or logged where one is pending already (spec/15 R288). -/
def bauError (s : State) (c : BauCmd) : State :=
  let h := hartOf s c.hart
  if h.bev then
    let x := hartCtx s c.hart
    logFault s x.ctxbase x.tid 51 (ghartOf s c.hart) 4 c.descVa 0
  else setHart s c.hart { h with bev := true, beva := c.descVa }

/-- The cores that may hold lines of a command's destinations: those of its gang, and the issuer's. -/
def bauCores (s : State) (c : BauCmd) : List Nat :=
  let own := coreOfHart c.hart
  match (coreOf s own).gang with
  | some seat => gangCoreList (gangOf s seat)
  | none => [own]

/-- A piece retires: its dirty bit, its command's count, and with the last piece the leave, and the cores' lines of the
destinations (spec/11 R221, spec/07 R142). -/
def pieceRetire (s : State) (p : Piece) (c : BauCmd) (wrote bad : Bool) : State :=
  let s := if wrote then markDirty s c.xdirty p.at_.pa else s
  let s := if bad then bauError s c else s
  let c := { c with left := c.left - 1, stopped := c.stopped || bad }
  if c.left = 0 ∧ c.todo = [] then
    let s := releaseUnits { s with cmds := adel s.cmds p.cmd } (dieOfCore (coreOfHart c.hart)) c.weight
    (bauCores s c).foldl (fun t k => refreshRngs t k c.dst) s
  else { s with cmds := aput s.cmds p.cmd c }

/-- Are the key slots of a piece's places loaded? -/
def pieceKeyed (s : State) (p : Piece) : Bool := (pieceRngs p).all fun r => locKeyed s (.phys r.pa 0 r.key)

/-- A source piece of a REDUCE keeps what it reads. -/
def pieceGot (s : State) (p : Piece) (f : Fmt) (c : BauCmd) : BauCmd :=
  match p.op with
  | .gather off =>
    { c with got := aput c.got off ((List.range (pieceLen p f)).map fun i => (rngRead s [p.at_] (i * bauBytes f) (bauBytes f)).1) }
  | _ => c

/-- The combining piece of a REDUCE writes dst[0], unless a source piece stopped. -/
def combineRun (s : State) (p : Piece) (f : Fmt) (c : BauCmd) (stop : Bool) : State × Bool × Bool :=
  if c.stopped then (s, false, false)
  else if stop then (s, false, true)
  else (storeElem s p f 0 (bauReduce f (c.got.flatMap fun kv => kv.2)), true, false)

/-- BAU_PIECE: the piece at the head of a bank's queue executes and retires; a combining piece waits for the source
pieces (spec/11 R219 to R221). A piece under a key slot that has been emptied does nothing, and its issuer takes an access fault
(spec/14 R271). -/
def execBauPiece (bank : Nat) (s : State) : Host.Outcome State Fault Refusal :=
  match bankQ s bank with
  | [] => .next s
  | p :: q =>
    match aget? s.cmds p.cmd, bauFmt p.fmt with
    | some c, some f =>
      let comb := decide (p.op = .combine)
      if comb && decide (c.left ≠ 1) then .next s
      else if !pieceKeyed s p then
        let s := { setBankQ s bank q with bankErr := adel s.bankErr bank }
        .next (takeException (pieceRetire s p { c with stopped := true } false false) c.hart 7 (w64 p.at_.va))
      else
        let stop := (aget? s.bankErr bank).map (· - 1)
        let s := { setBankQ s bank q with bankErr := adel s.bankErr bank }
        if comb then
          let (s, wrote, bad) := combineRun s p f c stop.isSome
          .next (pieceRetire s p c wrote bad)
        else
          let (s, n, bad) := pieceRun f p stop (pieceLen p f) 0 s
          let reads := match p.op with | .gather _ => true | _ => false
          let writes := !reads && decide (0 < n)
          let s := if writes then piecePoison s p (n * bauBytes f) else s
          .next (pieceRetire s p (pieceGot s p f c) writes bad)
    | _, _ => .next (setBankQ s bank q)

/-! ### BCMD -/

/-- Move pieces from a command into the bank queues, up to the first whose queue is full (spec/11 R219). -/
def enqueue : List (Nat × Piece) → State → State × List (Nat × Piece)
  | [], s => (s, [])
  | (b, p) :: r, s =>
    if (bankQ s b).length ≥ 32 then (s, (b, p) :: r) else enqueue r (setBankQ s b (bankQ s b ++ [p]))

/-- Go on enqueuing a command. -/
def bauEnqueue (s : State) (id : Nat) (c : BauCmd) : State × Bool :=
  let (s, r) := enqueue c.todo s
  ({ s with cmds := aput s.cmds id { c with todo := r } }, r.isEmpty)

/-- The elements of the destination that lie in the source of a COPY or AXPY, where the ranges differ: [lo, hi). -/
def overlapElems (op dst src n e : Nat) : Nat × Nat :=
  if (op = 1 ∨ op = 2) ∧ src ≠ dst then
    if src ≤ dst then (0, if dst < src + n * e then (src + n * e - dst + e - 1) / e else 0)
    else if src < dst + n * e then ((src - dst) / e, n)
    else (0, 0)
  else (0, 0)

/-- The checks of spec/11 R218 on the descriptor's words. -/
def bauDescOk (w0 dst src w3 : Nat) : Bool :=
  let op := fieldOf w0 3 0
  let len := fieldOf w0 28 16
  let alpha := w0 / 2 ^ 32
  let n := w3 % 2 ^ 32
  match bauFmt (fieldOf w0 8 4) with
  | none => false
  | some f =>
    let e := bauBytes f
    fieldOf w0 15 9 == 0 && fieldOf w0 31 29 == 0 && w3 / 2 ^ 32 == 0 && decide (op ≤ 5) &&
      !(op == 5 && f == .i32) && (src == 0 || !(op == 0 || op == 3)) && (alpha == 0 || !(op == 1 || op == 4)) &&
      (if op = 5 then decide (1 ≤ len) && decide (len ≤ 4096) else len == 0) &&
      dst % e == 0 && src % e == 0 &&
      (if op = 5 then decide (n ≤ 4096) else decide (n * e ≤ 2 ^ 24))

/-- A piece for each range of a destination: the element offset of each range is known from those before it. -/
def cutPieces (id fmt e lo hi : Nat) (mk : Nat → Rng → PieceOp) : Nat → List Rng → List (Nat × Piece)
  | _, [] => []
  | i, r :: rs =>
    (bankOf r.pa, ⟨id, fmt, mk (i * e) r, r, lo - i, min (hi - i) (r.len / e)⟩) ::
      cutPieces id fmt e lo hi mk (i + r.len / e) rs

/-- What BCMD needs of an SCAXPY: the destination ranges of each pair in order, with its coefficient. -/
def scRows (s : State) (f : Fmt) (alpha dst src len n : Nat) (pairs : List Rng) :
    Except Exc (State × List (Nat × List Rng)) :=
  (List.range n).foldlM (fun (acc : State × List (Nat × List Rng)) j => do
    let s := acc.1
    let b := (List.range 8).map fun k =>
      match rngAt pairs (8 * j + k) with
      | some l => (lookRead s (myCore s) l 1, locPoisoned s l 1)
      | none => (0, false)
    if b.any (·.2) then .error (.trap s 51 (w64 (src + 8 * j)))
    else
      let r := natOfBytes (b.map fun x => BitVec.ofNat 8 x.1)
      let c := rne .fp32 (fmulV (f32v alpha) (f32v (r / 2 ^ 32))).1
      let (s, d) ← bauRange s .store (dst + r % 2 ^ 32 * rowStride f len) (len * bauBytes f)
      .ok (s, acc.2 ++ [(c, d)])) (s, [])

/-- The operand ranges of a command, translated: sources, destinations, and the pieces. -/
def bauPlan (s : State) (id op fcode : Nat) (f : Fmt) (alpha dst src len n : Nat) :
    Except Exc (State × List Rng × List Rng × List (Nat × Piece)) := do
  let e := bauBytes f
  if op = 5 then
    let (s, pairs) ← bauRange s .load src (8 * n)
    let (s, g) ← bauRange s .load (roundUp (src + 8 * n) 64) (len * e)
    let (s, rows) ← scRows s f alpha dst src len n pairs
    let ps := rows.flatMap fun r => cutPieces id fcode e 0 0 (fun off d => .row r.1 (rngCut g off d.len)) 0 r.2
    .ok (s, pairs ++ g, rows.flatMap (·.2), ps)
  else
    let (s, sr) ← if op = 1 ∨ op = 2 ∨ op = 4 then bauRange s .load src (n * e) else .ok (s, [])
    let (s, d) ← bauRange s .store dst (if op = 4 then e else n * e)
    let (lo, hi) := overlapElems op dst src n e
    let ps := match op with
      | 0 => cutPieces id fcode e 0 0 (fun _ _ => .fill alpha) 0 d
      | 1 => cutPieces id fcode e lo hi (fun off r => .copy (rngCut sr off r.len)) 0 d
      | 2 => cutPieces id fcode e lo hi (fun off r => .axpy (rngCut sr off r.len) alpha) 0 d
      | 3 => cutPieces id fcode e 0 0 (fun _ _ => .scale alpha) 0 d
      | _ => cutPieces id fcode e 0 0 (fun off _ => .gather (off / e)) 0 sr ++
          cutPieces id fcode e 0 0 (fun _ _ => .combine) 0 d
    .ok (s, sr, d, ps)

/-- BCMD (spec/11 R216 to R219; the order of checks is spec/15 R286's). A BCMD that waits for room in a queue goes on
where it stopped. -/
def execBcmd (a : RegIx) (s : State) : Host.Outcome State Fault Refusal :=
  let i : Instr := .bcmd a
  finish i (
    match s.cmds.find? fun kv => kv.2.hart == s.cur && !kv.2.todo.isEmpty with
    | some (id, c) =>
      match bauEnqueue s id c with
      | (s, true) => .ok (nextPc s)
      | (s, false) => .error (.wait s)
    | none => do
      let va := (rdX s a).toNat
      orTrap (va % 32 == 0) s 30 (w64 va)
      let (s, r) ← readRecord s va 32 25
      let w0 := r % 2 ^ 64
      let dst := fieldOf r 127 64
      let src := fieldOf r 191 128
      let w3 := r >>> 192
      orTrap (bauDescOk w0 dst src w3) s 30 (w64 va)
      let n := w3 % 2 ^ 32
      let fcode := fieldOf w0 8 4
      match bauFmt fcode with
      | none => .error (.trap s 30 (w64 va))
      | some f =>
        if n = 0 then .ok (nextPc s)
        else do
          let id := s.ctr
          let (s, sr, d, ps) ← bauPlan s id (fieldOf w0 3 0) fcode f (w0 / 2 ^ 32) dst src (fieldOf w0 28 16) n
          let s ← askLeave s 2
          let s ← bauIssue s d sr
          let x := hartCtx s s.cur
          let c : BauCmd := {
            seat := seatOfCore s (myCore s), hart := s.cur, asid := x.asid, tid := x.tid, descVa := w64 va,
            left := ps.length, dst := d, xdirty := x.dirty, weight := 2, todo := ps }
          let s := updMe { s with ctr := s.ctr + 1 } fun h => { h with leaveOk := 0 }
          match bauEnqueue s id c with
          | (s, true) => .ok (nextPc s)
          | (s, false) => .error (.wait s))

/-! ### BGAX -/

/-- The weighted sum of rows for each element: `rows` are the ranges of the listed rows, with their weights. -/
def gatherSum (s : State) (f : Fmt) (len : Nat) (rows : List (Nat × List Rng)) : List (Nat × Nat) :=
  (List.range len).map fun e =>
    (e, rows.foldl (fun acc r => accStep r.1 f (rngRead s r.2 (e * bauBytes f) (bauBytes f)).1 acc) 0)

/-- The first poisoned word of the ranges, as an address. -/
def poisonedRng (s : State) (rs : List Rng) : Option Nat :=
  rs.findSome? fun r => ((List.range ((r.len + 7) / 8)).find? fun i =>
    locPoisoned s (.phys (r.pa + 8 * i) 0 r.key) (min 8 (r.len - 8 * i))).map fun i => r.va + 8 * i

/-- Has a hart a piece that is not retired at the bank of one of the ranges? -/
def piecesAhead (s : State) (h : Nat) (rs : List Rng) : Bool :=
  rs.any fun r => (bankQ s (bankOf r.pa)).any fun p =>
    match aget? s.cmds p.cmd with
    | some c => c.hart == h
    | none => false

/-- BGAX (spec/11 R222; spec/15 R289). The rows are read once the hart's earlier pieces at their banks have retired; the
sum is on its way until BGAX_SUM_ARRIVAL. -/
def execBgax (b a d : RegIx) (s : State) : Host.Outcome State Fault Refusal :=
  let i : Instr := .bgax b a d
  finish i (do
    vecReady s
    let e ← vecEnv s i 0
    let cap := 32 * e.lanes
    let vs := b.val
    vecLegal s i e false (e.fmt == .fp32 && e.blk == 0 && vs % 2 == 0 && groupOkAt d.val e.grp &&
      !overlaps d.val e.grp vs 2 && decide (e.vl ≤ cap))
    vecTags s i e [(vs, 1, tagOf .i32 0), (vs + 1, 1, tagOf .fp32 0)]
    let va := (rdX s a).toNat
    orTrap (va % 16 == 0) s 30 (w64 va)
    let (s, r) ← readRecord s va 16 25
    let base := r % 2 ^ 64
    let w1 := r / 2 ^ 64
    let len := fieldOf w1 12 0
    let nrows := w1 / 2 ^ 32
    match bauFmt (fieldOf w1 17 13) with
    | none => .error (.trap s 30 (w64 va))
    | some f =>
      orTrap (f != .i32 && base % 64 == 0 && fieldOf w1 31 18 == 0 && decide (1 ≤ len) && decide (len ≤ 4096) && nrows != 0 &&
        decide (len ≤ cap * 2 ^ e.lg)) s 30 (w64 va)
      let gi := e.group vs 1
      let gw := e.group (vs + 1) 1
      let idx := (List.range e.vl).map fun k => elemOf 32 gi k
      orTrap (idx.all fun n => decide (n < nrows)) s 30 (w64 va)
      let (s, rows) ← idx.foldlM (fun (acc : State × List (List Rng)) n => do
        let (s, rs) ← bauRange acc.1 .load (base + n * rowStride f len) (len * bauBytes f)
        Except.ok (s, acc.2 ++ [rs])) (s, [])
      if e.vl = 0 then vecDone s (me s)
      else do
        let s ← askLeave s 2
        let all := rows.flatten
        let s ← bauIssue s [] all
        if piecesAhead s s.cur all then .error (.wait s)
        else match poisonedRng s all with
          | some pv => .error (.trap s 51 (w64 pv))
          | none =>
            let ws := (List.range e.vl).map fun k => elemOf 32 gw k
            let f : Refill := {
              slot := mySlot s, vd := d.val, vals := gatherSum s f len (ws.zip rows), locs := [], sew := 32,
              arit := none, weight := 2 }
            let s := updCore s (myCore s) fun c => { c with refills := c.refills ++ [f] }
            vecDone s (setTags { me s with leaveOk := 0 } d.val e.grp (tagOf .fp32 0)))

/-- BGAX_SUM_ARRIVAL: the oldest sum of a core arrives at its register group, and its leave is released. -/
def execBgaxSumArrival (core : Nat) (s : State) : Host.Outcome State Fault Refusal :=
  match (coreOf s core).refills.find? fun f => f.locs.isEmpty with
  | none => .next s
  | some f =>
    let h := 8 * core + f.slot
    let rb := 1024 * lanesOf s h
    let s := f.vals.foldl (fun t p => updHart t h fun x =>
      let r := f.vd + p.1 * 32 / rb
      hartSetV x r (setElem 32 (hartV x r) (p.1 * 32 % rb / 32) p.2)) s
    let s := releaseUnits s (dieOfCore core) f.weight
    .next (updCore s core fun c => { c with refills := c.refills.erase f })

end Sys2Proof.Machine
end

