-- ==== Sys2Proof/Machine/Pkl.lean ====
section
/-!
DEFINITION. Product-key lookup (spec/11 R223 to R233; spec/16 R327 to R330): configurations, batches, tickets, and the steps
of a query. Configurations and batch records stand in the gang's PKL area (spec/11 R224).
-/
namespace Sys2Proof.Machine

/-! ### The PKL area -/

/-- Configuration slot n of a context. -/
def pklSlot (ctxbase n : Nat) : Nat := ctxbase + pklOff + 64 * n
/-- Batch record t of gang hart h. -/
def pklRec (ctxbase h t : Nat) : Nat := ctxbase + pklOff + 0x1000 + (h * 8 + t) * 128

/-- A configuration's fields (spec/11 Table 11-5). -/
structure PklCfg where
  keyA : Nat
  keyB : Nat
  vbase : Nat
  n : Nat
  half : Nat
  k : Nat
  wmode : Nat
  vlen : Nat
  vfmt : Nat
deriving DecidableEq, Repr

/-- The fields of a 64-byte configuration. -/
def pklCfgOf (r : Nat) : PklCfg :=
  let w3 := fieldOf r 255 192
  { keyA := fieldOf r 63 0, keyB := fieldOf r 127 64, vbase := fieldOf r 191 128, n := fieldOf w3 12 0,
    half := fieldOf w3 21 13, k := fieldOf w3 27 22, wmode := fieldOf w3 29 28, vlen := fieldOf w3 42 30,
    vfmt := fieldOf w3 47 43 }

/-- The value format of a configuration: the three floating-point BAU formats. -/
def pklFmt (n : Nat) : Option Fmt := if n = 2 then none else bauFmt n

/-- The checks of spec/11 R224. -/
def pklCfgOk (r : Nat) : Bool :=
  let c := pklCfgOf r
  r >>> 240 == 0 && decide (1 ≤ c.n) && decide (c.n ≤ 4096) && decide (1 ≤ c.half) && decide (c.half ≤ 256) &&
    decide (1 ≤ c.k) && decide (c.k ≤ 32) && c.wmode != 3 && decide (1 ≤ c.vlen) && decide (c.vlen ≤ 4096) &&
    (pklFmt c.vfmt).isSome && decide (c.k ≤ c.n) && c.keyA % 64 == 0 && c.keyB % 64 == 0 && c.vbase % 64 == 0

/-- PKLCFG (spec/11 R224, spec/16 R327). -/
def execPklcfg (u : Fin 12) (a : RegIx) (s : State) : Host.Outcome State Fault Refusal :=
  finish (.pklcfg u a) (do
    let va := (rdX s a).toNat
    orTrap (va % 64 == 0) s 30 (w64 va)
    let (s, r) ← readRecord s va 64 25
    orTrap (pklCfgOk r) s 30 (w64 va)
    let c := hartCtx s s.cur
    .ok (nextPc (if c.ctxbase = 0 then s else areaWriteD s c (pklSlot c.ctxbase u.val) 64 r)))

/-- A batch descriptor's fields (spec/11 Table 11-6). -/
def pklQcount (r : Nat) : Nat := fieldOf r 207 192
def pklEvq (r : Nat) : Nat := fieldOf r 209 208
def pklPost (r : Nat) : Bool := bitOf r 210
def pklUtag (r : Nat) : Nat := fieldOf r 239 224

/-- The status word of a batch (spec/11 Table 11-7). -/
def pklStatus (state result cause qdone : Nat) : Nat := state + result * 4 + cause % 64 * 16 + qdone % 2 ^ 32 * 2 ^ 32
def pklState (w : Nat) : Nat := fieldOf w 1 0
def pklDone (w : Nat) : Nat := fieldOf w 63 32

/-- The ticket of record t of gang hart h (spec/16 Table 16-5). -/
def pklTicket (u t h gen : Nat) : Nat := u + t * 2 ^ 4 + h % 128 * 2 ^ 7 + gen % 2 ^ 50 * 2 ^ 14

/-- PKLQ (spec/11 R225, spec/16 R328, R329). -/
def execPklq (u : Fin 12) (a d : RegIx) (s : State) : Host.Outcome State Fault Refusal :=
  let i : Instr := .pklq u a d
  finish i (do
    let va := (rdX s a).toNat
    orTrap (va % 32 == 0) s 30 (w64 va)
    let (s, r) ← readRecord s va 32 25
    let c := hartCtx s s.cur
    let cfg := areaRead s c.tid (pklSlot c.ctxbase u.val) 64
    orTrap (c.ctxbase != 0 && (pklCfgOf cfg).n != 0 && pklQcount r != 0 && fieldOf r 223 211 == 0 && fieldOf r 255 240 == 0)
      s 30 (w64 va)
    orTrap (!pklPost r || evqLog (myEvq s (pklEvq r)) != 0) s 28 (wordOf i)
    let h := ghartOf s s.cur
    match (List.range 8).find? fun t => !bitOf (areaRead s c.tid (pklRec c.ctxbase h t + 0x70) 8) 0 with
    | none => .error (.wait s)
    | some t => do
      let s ← askLeave s 4
      let b := pklRec c.ctxbase h t
      let gen := (areaRead s c.tid (b + 0x68) 8 / 2 ^ 14 + 1) % 2 ^ 50
      let k := pklTicket u.val t h gen
      let s := areaWriteD s c b 128
        (r + cfg * 2 ^ 256 + pklStatus 1 0 0 0 * 2 ^ 768 + k * 2 ^ 832 + 2 ^ 896)
      let j : PklJob := { seat := seatOfCore s (myCore s), recPa := b, ctx := c, weight := 4 }
      let s := { s with pkl := aput s.pkl u.val (aget [] s.pkl u.val ++ [j]) }
      .ok (nextPc (wrX (updMe s fun h => { h with leaveOk := 0 }) d (w64 k))))

/-! ### The steps of a query (spec/11 R226 to R230) -/

/-- A score with its row. -/
abbrev Score := Nat × Nat

/-- Does the first FP32 score rank before the second (spec/11 R228)? -/
def ranksFirst (x y : Score) : Bool :=
  let a := f32v x.1
  let b := f32v y.1
  if isNaN a || isNaN b then (if isNaN a && isNaN b then decide (x.2 < y.2) else isNaN b)
  else if fltV b a then true
  else if fltV a b then false
  else if fsignV a != fsignV b then fsignV b
  else decide (x.2 < y.2)

/-- Insert a score into a list in rank order. -/
def rankInsert (x : Score) : List Score → List Score
  | [] => [x]
  | y :: r => if ranksFirst x y then x :: y :: r else y :: rankInsert x r

/-- The k best of some scores, best first. -/
def kBest (k : Nat) (l : List Score) : List Score := l.foldl (fun acc x => (rankInsert x acc).take k) []

/-- Terms of the exponential series: the sum of y^j / j! at scale 2^256. -/
def expSeries : Nat → Nat → Nat → Nat → Nat
  | 0, _, _, acc => acc
  | n + 1, y, term, acc =>
    let t := term * y / 2 ^ 256 / (64 - n)
    expSeries n y t (acc + t)

/-- exp of a value that is not above 0, to 240 bits: enough that one rounding of it is that of the exact value. -/
def expNeg (v : FVal) : FOut :=
  match v with
  | .nan _ => .nan
  | .inf s => if s then .zero false else .inf false
  | .fin _ m e =>
    let (n, d) := magOf (.fin false m e)
    if 104 * d ≤ n then .rat false 1 (2 ^ 160)
    else
      let y := n * 2 ^ 256 / (d * 256)
      let one := 2 ^ 256
      let x := expSeries 64 y one one
      let sq := fun (z : Nat) => z * z / one
      .rat false one (sq (sq (sq (sq (sq (sq (sq (sq x))))))))

/-- Is it a NaN or an infinity? -/
def notFinite (n : Nat) : Bool := isNaN (f32v n) || isInf (f32v n)

/-- The sum of FP32 patterns in order, one rounding per addition. -/
def sumInOrder : List Nat → Nat
  | [] => 0
  | x :: r => r.foldl (fun t y => rne .fp32 (faddV .rne (f32v t) (f32v y)).1) x

/-- The canonical NaN of FP32. -/
def nan32 : Nat := 0x7FC00000

/-- The weights of the scores in rank order (spec/11 R229). -/
def pklWeights (mode : Nat) (sc : List Nat) : List Nat :=
  match mode with
  | 0 => sc
  | 1 =>
    let m := sc.headD 0
    if notFinite m then sc.map fun _ => nan32
    else
      let ex := sc.map fun x =>
        rne .fp32 (expNeg (f32v (rne .fp32 (faddV .rne (f32v x) (fneg (f32v m))).1)))
      let t := sumInOrder ex
      ex.map fun x => rne .fp32 (fdivV (f32v x) (f32v t)).1
  | _ =>
    let t := sumInOrder (sc.map fun x => if isNaN (f32v x) then x else x % 2 ^ 31)
    if notFinite t then sc.map fun _ => nan32
    else if t % 2 ^ 31 = 0 then sc.map fun _ => 0
    else sc.map fun x => rne .fp32 (fdivV (f32v x) (f32v t)).1

/-- n bytes at a global address of a batch, on pages with MT normal and BL = 1. -/
def pklSpan (s : State) (c : ACtx) (k : AKind) (va n : Nat) : Except Stop (State × List Rng) :=
  (bauRange.pageCuts va n).foldlM (fun (acc : State × List Rng) p => do
    let (s, l) ← engLoc acc.1 c k .bank p.1
    match l with
    | .phys pa _ key => .ok (s, acc.2 ++ [⟨p.1, pa, p.2, key⟩])
    | _ => .error (.bad s p.1 (accessCause k))) (s, [])

/-- An element of e bytes at an offset of the ranges; it may cross from one page into the next. -/
def pklElem (s : State) (rs : List Rng) (off e : Nat) : Nat :=
  natOfBytes ((List.range e).map fun i => BitVec.ofNat 8 (rngRead s rs (off + i) 1).1)

/-- Write up to 8 bytes at a physical address, line by line. -/
def pklStore (s : State) (c : ACtx) (pa key n v : Nat) : State :=
  let k := min n (64 - pa % 64)
  let s := lookWrite s c (.phys pa 0 key) k (v % 2 ^ (8 * k))
  if n = k then s else lookWrite s c (.phys (pa + k) 0 key) (n - k) (v / 2 ^ (8 * k))

/-- Write an element of e bytes at an offset of the ranges, page by page. -/
def pklSet (s : State) (c : ACtx) (rs : List Rng) (off e v : Nat) : State :=
  ((rngCut rs off e).foldl (fun (acc : State × Nat) r =>
    (pklStore acc.1 c r.pa r.key r.len (v / 2 ^ (8 * acc.2) % 2 ^ (8 * r.len)), acc.2 + r.len)) (s, 0)).1

/-- n elements of e bytes at an address, as patterns. -/
def pklRow (s : State) (c : ACtx) (va n e : Nat) : Except Stop (State × List Nat) := do
  let (s, rs) ← pklSpan s c .load va (n * e)
  match poisonedRng s rs with
  | some pv => .error (.bad s pv 51)
  | none => .ok (s, (List.range n).map fun i => pklElem s rs (i * e) e)

/-- Write n elements of e bytes at an address. -/
def pklPut (s : State) (c : ACtx) (va e : Nat) (vs : List Nat) : Except Stop State := do
  let (s, rs) ← pklSpan s c .store va (vs.length * e)
  .ok (((List.range vs.length).zip vs).foldl (fun t p => pklSet t c rs (p.1 * e) e p.2) s)

/-- The scores of a half query against a table (spec/11 R227). -/
def pklScores (s : State) (c : ACtx) (base half n : Nat) (q : List Nat) : Except Stop (State × List Score) :=
  (List.range n).foldlM (fun (acc : State × List Score) i => do
    let (s, row) ← pklRow acc.1 c (base + i * roundUp (2 * half) 64) half 2
    let v := (q.zip row).foldl (fun a p =>
      rne .fp32 (ffmaV .rne (elemVal .bf16 0 p.1 0 0) (elemVal .bf16 0 p.2 0 0) (f32v a)).1) 0
    .ok (s, acc.2 ++ [(v, i)])) (s, [])

/-- One query of a batch: its writes (spec/11 R227 to R230). -/
def pklQueryRun (s : State) (c : ACtx) (g : PklCfg) (desc q : Nat) : Except Stop State := do
  let (s, qs) ← pklRow s c (fieldOf desc 63 0 + q * roundUp (4 * g.half) 64) (2 * g.half) 2
  let (s, sa) ← pklScores s c g.keyA g.half g.n (qs.take g.half)
  let (s, sb) ← pklScores s c g.keyB g.half g.n (qs.drop g.half)
  let ta := kBest g.k sa
  let tb := kBest g.k sb
  let cand := ta.flatMap fun x => tb.map fun y =>
    (rne .fp32 (faddV .rne (f32v x.1) (f32v y.1)).1, x.2 * g.n + y.2)
  let best := kBest g.k cand
  let ws := pklWeights g.wmode (best.map (·.1))
  let s ← pklPut s c (fieldOf desc 191 128 + 8 * g.k * q) 8 ((best.zip ws).map fun p => p.1.2 + p.2 * 2 ^ 32)
  let f := (pklFmt g.vfmt).getD .fp32
  let (s, rows) ← best.foldlM (fun (acc : State × List (List Nat)) p => do
    let (s, r) ← pklRow acc.1 c (g.vbase + p.2 * rowStride f g.vlen) g.vlen (bauBytes f)
    Except.ok (s, acc.2 ++ [r])) (s, [])
  let out := (List.range g.vlen).map fun e => (ws.zip rows).foldl (fun acc p => accStep p.1 f (p.2.getD e 0) acc) 0
  pklPut s c (fieldOf desc 127 64 + q * roundUp (4 * g.vlen) 64) 4 out

/-! ### Batches -/

/-- Replace the job at the head of a unit's queue; `none` drops it. -/
def setJob (s : State) (u : Nat) (j : Option PklJob) : State :=
  let r := (aget [] s.pkl u).drop 1
  { s with pkl := aputC [] s.pkl u (match j with | some j => j :: r | none => r) }

/-- The status word of a job's batch. -/
def jobStatus (s : State) (j : PklJob) : Nat := areaRead s j.ctx.tid (j.recPa + 0x60) 8
def setJobStatus (s : State) (j : PklJob) (w : Nat) : State := areaWriteD s j.ctx (j.recPa + 0x60) 8 w

/-- The gang hart index of a job's submitter. -/
def jobHart (s : State) (j : PklJob) : Nat := fieldOf (areaRead s j.ctx.tid (j.recPa + 0x68) 8) 13 7

/-- Park a job. -/
def jobPark (s : State) (u : Nat) (j : PklJob) (va kind : Nat) : State :=
  let (s, t) := postFault s j.ctx va kind 25 (.pkl u)
  setJob s u (some { j with park := some t })

/-- A batch is done: the status word and the leave. -/
def pklDoneWith (s : State) (u : Nat) (j : PklJob) (result cause : Nat) : State :=
  let s := setJobStatus s j (pklStatus 3 result cause (pklDone (jobStatus s j)))
  releaseUnits (setJob s u none) (dieOfCore j.ctx.core) j.weight

/-- A batch ends: with POST its completion record goes first, which frees the ticket; it waits for room (spec/11 R225, R231,
R232). -/
def pklEnd (s : State) (u : Nat) (j : PklJob) (result cause : Nat) : State :=
  let desc := areaRead s j.ctx.tid j.recPa 32
  if pklPost desc then
    let j := { j with fin := some (result, cause) }
    match evqPost s j.ctx j.seat (pklEvq desc)
        (complWord 2 (if result = 2 then 2 else 0) (jobHart s j) (pklUtag desc), fieldOf desc 127 64, pklQcount desc, 0) with
    | .done s => pklDoneWith (areaWriteD s j.ctx (j.recPa + 0x70) 8 0) u j result cause
    | .full s => setJob s u (some j)
    | .page s va kind => jobPark s u j va kind
  else pklDoneWith s u j result cause

/-- Log a fatal fault of a batch (SRC 5). -/
def pklLog (s : State) (j : PklJob) (va : Word) : State := logFault s j.ctx.ctxbase j.ctx.tid 31 (jobHart s j) 5 va 0

/-- A fault declared fatal ends a batch at its current query; on the completion record's page, the record is dropped. -/
def pklFatal (s : State) (u : Nat) (j : PklJob) (va : Word) : State :=
  match j.fin with
  | some (r, c) => pklDoneWith (pklLog s j va) u j r c
  | none => pklEnd (pklLog s j va) u { j with fatal := none } 1 31

/-- The next query of a batch, or its end. -/
def pklNext (s : State) (u : Nat) (j : PklJob) : State :=
  let desc := areaRead s j.ctx.tid j.recPa 32
  let g := pklCfgOf (areaRead s j.ctx.tid (j.recPa + 0x20) 64)
  let q := pklDone (jobStatus s j)
  let n := pklQcount desc
  if n ≤ q then pklEnd s u j 0 0
  else match pklQueryRun s j.ctx g desc q with
    | .ok s =>
      let s := setJobStatus s j (pklStatus 2 0 0 (q + 1))
      if q + 1 < n then s else pklEnd s u j 0 0
    | .error (.page _ va kind) => jobPark (setJobStatus s j (pklStatus 2 0 0 q)) u j va kind
    | .error (.bad _ _ cause) => pklEnd s u j (if cause = 51 then 2 else 1) cause

/-- PKL_QUERY: the batch at the head of a unit performs its next query, or ends (spec/11 R226, R232). -/
def execPklQuery (u : Fin 12) (s : State) : Host.Outcome State Fault Refusal :=
  match aget [] s.pkl u.val with
  | [] => .next s
  | j :: _ =>
    if j.park.isSome then .next s
    else match j.fatal, j.fin with
      | some (_, va), _ => .next (pklFatal s u.val j va)
      | none, some (r, c) => .next (pklEnd s u.val j r c)
      | none, none => .next (pklNext s u.val j)

/-- The index and output ranges of the queries of a batch that are complete. -/
def pklOutputs (s : State) (c : ACtx) (b : Nat) : Cover :=
  let desc := areaRead s c.tid b 32
  let g := pklCfgOf (areaRead s c.tid (b + 0x20) 64)
  let n := pklQcount desc
  fun lo hi =>
    (decide (lo < fieldOf desc 191 128 + 8 * g.k * n) && decide (fieldOf desc 191 128 < hi)) ||
      (decide (lo < fieldOf desc 127 64 + n * roundUp (4 * g.vlen) 64) && decide (fieldOf desc 127 64 < hi))

/-- PKLGET (spec/11 R231, spec/16 R330): the status of a ticket; done, for the submitter, it frees the ticket and makes the
outputs visible (spec/07 R144). -/
def execPklget (w : Bool) (a d : RegIx) (s : State) : Host.Outcome State Fault Refusal :=
  finish (.pklget w a d) (
    let k := (rdX s a).toNat
    let c := hartCtx s s.cur
    let h := fieldOf k 13 7
    let b := pklRec c.ctxbase h (fieldOf k 6 4)
    let known := c.ctxbase != 0 && bitOf (areaRead s c.tid (b + 0x70) 8) 0 && areaRead s c.tid (b + 0x68) 8 == k
    if !known then .ok (nextPc (wrX s d 0))
    else
      let st := areaRead s c.tid (b + 0x60) 8
      if w && pklState st != 3 then .error (.wait s)
      else
        let s := if pklState st = 3 ∧ h = ghartOf s s.cur then
            acquireCover (areaWriteD s c (b + 0x70) 8 0) (myCore s) (pklOutputs s c b) else s
        .ok (nextPc (wrX s d (w64 st))))

end Sys2Proof.Machine
end

