-- ==== Sys2Proof/Machine/Sha.lean ====
section
/-!
DEFINITION. SHA-512 (FIPS 180-4), the digest of a context image (spec/03 Table 3-8) and of a firmware image (spec/13 R263), over a sparse byte map.
-/
namespace Sys2Proof.Machine

/-- The initial hash value. -/
def shaInit : List (BitVec 64) := [
  0x6A09E667F3BCC908, 0xBB67AE8584CAA73B, 0x3C6EF372FE94F82B, 0xA54FF53A5F1D36F1,
  0x510E527FADE682D1, 0x9B05688C2B3E6C1F, 0x1F83D9ABFB41BD6B, 0x5BE0CD19137E2179]

/-- The round constants. -/
def shaKs : List (BitVec 64) := [
  0x428A2F98D728AE22, 0x7137449123EF65CD, 0xB5C0FBCFEC4D3B2F, 0xE9B5DBA58189DBBC,
  0x3956C25BF348B538, 0x59F111F1B605D019, 0x923F82A4AF194F9B, 0xAB1C5ED5DA6D8118,
  0xD807AA98A3030242, 0x12835B0145706FBE, 0x243185BE4EE4B28C, 0x550C7DC3D5FFB4E2,
  0x72BE5D74F27B896F, 0x80DEB1FE3B1696B1, 0x9BDC06A725C71235, 0xC19BF174CF692694,
  0xE49B69C19EF14AD2, 0xEFBE4786384F25E3, 0x0FC19DC68B8CD5B5, 0x240CA1CC77AC9C65,
  0x2DE92C6F592B0275, 0x4A7484AA6EA6E483, 0x5CB0A9DCBD41FBD4, 0x76F988DA831153B5,
  0x983E5152EE66DFAB, 0xA831C66D2DB43210, 0xB00327C898FB213F, 0xBF597FC7BEEF0EE4,
  0xC6E00BF33DA88FC2, 0xD5A79147930AA725, 0x06CA6351E003826F, 0x142929670A0E6E70,
  0x27B70A8546D22FFC, 0x2E1B21385C26C926, 0x4D2C6DFC5AC42AED, 0x53380D139D95B3DF,
  0x650A73548BAF63DE, 0x766A0ABB3C77B2A8, 0x81C2C92E47EDAEE6, 0x92722C851482353B,
  0xA2BFE8A14CF10364, 0xA81A664BBC423001, 0xC24B8B70D0F89791, 0xC76C51A30654BE30,
  0xD192E819D6EF5218, 0xD69906245565A910, 0xF40E35855771202A, 0x106AA07032BBD1B8,
  0x19A4C116B8D2D0C8, 0x1E376C085141AB53, 0x2748774CDF8EEB99, 0x34B0BCB5E19B48A8,
  0x391C0CB3C5C95A63, 0x4ED8AA4AE3418ACB, 0x5B9CCA4F7763E373, 0x682E6FF3D6B2B8A3,
  0x748F82EE5DEFB2FC, 0x78A5636F43172F60, 0x84C87814A1F0AB72, 0x8CC702081A6439EC,
  0x90BEFFFA23631E28, 0xA4506CEBDE82BDE9, 0xBEF9A3F7B2C67915, 0xC67178F2E372532B,
  0xCA273ECEEA26619C, 0xD186B8C721C0C207, 0xEADA7DD6CDE0EB1E, 0xF57D4F7FEE6ED178,
  0x06F067AA72176FBA, 0x0A637DC5A2C898A6, 0x113F9804BEF90DAE, 0x1B710B35131C471B,
  0x28DB77F523047D84, 0x32CAAB7B40C72493, 0x3C9EBE0A15C9BEBC, 0x431D67C49C100D4C,
  0x4CC5D4BECB3E42B6, 0x597F299CFC657E2A, 0x5FCB6FAB3AD6FAEC, 0x6C44198C4A475817]

def shaRotr (x : BitVec 64) (n : Nat) : BitVec 64 := (x >>> n) ||| (x <<< (64 - n))

/-- The rest of the message schedule: each new word from the last sixteen, newest first. -/
def shaSched : Nat → List (BitVec 64) → List (BitVec 64)
  | 0, w => w
  | n + 1, w =>
    let a := w.getD 14 0
    let b := w.getD 1 0
    let s0 := shaRotr a 1 ^^^ shaRotr a 8 ^^^ (a >>> 7)
    let s1 := shaRotr b 19 ^^^ shaRotr b 61 ^^^ (b >>> 6)
    shaSched n ((w.getD 15 0 + s0 + w.getD 6 0 + s1) :: w)

/-- The working variables of a round. -/
structure ShaVars where
  a : BitVec 64
  b : BitVec 64
  c : BitVec 64
  d : BitVec 64
  e : BitVec 64
  f : BitVec 64
  g : BitVec 64
  h : BitVec 64
deriving DecidableEq, Repr

def shaRound (v : ShaVars) (kw : BitVec 64 × BitVec 64) : ShaVars :=
  let s1 := shaRotr v.e 14 ^^^ shaRotr v.e 18 ^^^ shaRotr v.e 41
  let ch := (v.e &&& v.f) ^^^ (~~~v.e &&& v.g)
  let t1 := v.h + s1 + ch + kw.1 + kw.2
  let s0 := shaRotr v.a 28 ^^^ shaRotr v.a 34 ^^^ shaRotr v.a 39
  let maj := (v.a &&& v.b) ^^^ (v.a &&& v.c) ^^^ (v.b &&& v.c)
  ⟨t1 + (s0 + maj), v.a, v.b, v.c, v.d + t1, v.e, v.f, v.g⟩

/-- One block of 16 words. -/
def shaBlock (h : ShaVars) (w : List (BitVec 64)) : ShaVars :=
  let v := (shaKs.zip (shaSched 64 w.reverse).reverse).foldl shaRound h
  ⟨h.a + v.a, h.b + v.b, h.c + v.c, h.d + v.d, h.e + v.e, h.f + v.f, h.g + v.g, h.h + v.h⟩

/-- A word, most significant byte first, from the bytes of a map at an address. -/
def shaWord (m : AMap Byte) (a : Nat) : BitVec 64 :=
  BitVec.ofNat 64 ((List.range 8).foldl (fun n i => n * 256 + (aget (0 : Byte) m (a + i)).toNat) 0)

/-- Hash n blocks of 128 bytes from an address on. Bytes below the address are dropped as it rises. -/
def shaBlocks : Nat → AMap Byte → Nat → ShaVars → ShaVars
  | 0, _, _, h => h
  | n + 1, m, a, h =>
    let m := m.dropWhile fun kv => decide (kv.1 < a)
    shaBlocks n m (a + 128) (shaBlock h ((List.range 16).map fun i => shaWord m (a + 8 * i)))

/-- The bytes of a map below address `stop`, and the padding of n hashed bytes that end there: 80 hex, zeros, and the number of bits
in the last 16 bytes before `last`. -/
def shaPad (m : AMap Byte) (stop last n : Nat) : AMap Byte :=
  m.filter (fun kv => decide (kv.1 < stop)) ++ (stop, 0x80) ::
    ((bytesOf 16 (8 * n)).reverse.zipIdx.map fun b => (last - 16 + b.2, b.1))

/-- SHA-512 of the n bytes at an address of a map (FIPS 180-4). The digest's first byte is the lowest byte of the result. -/
def sha512 (m : AMap Byte) (a n : Nat) : Nat :=
  let h0 : ShaVars := match shaInit with
    | [p, q, r, s, t, u, v, w] => ⟨p, q, r, s, t, u, v, w⟩
    | _ => ⟨0, 0, 0, 0, 0, 0, 0, 0⟩
  let k := (n + 144) / 128
  let h := shaBlocks k (shaPad m (a + n) (a + 128 * k) n) a h0
  natOfBytes ([h.a, h.b, h.c, h.d, h.e, h.f, h.g, h.h].flatMap fun w => (bytesOf 8 w.toNat).reverse)

end Sys2Proof.Machine
end

