-- ==== Sys2Proof/Machine/VecTag.lean ====
section
/-!
DEFINITION. Format tags moved to and from x registers, and the set-length instructions (spec/17 R369, R370; spec/02 R24 to
R26).
-/
namespace Sys2Proof.Machine

/-- VTAGG (spec/17 R369). -/
def execVtagg (b d : RegIx) (s : State) : Host.Outcome State Fault Refusal :=
  vexec (.vtagg b d) (fun s => do
    let e ← vecEnv s (.vtagg b d) 0
    vecDone s (hartSetX e.h d (w64 (hartTag e.h b.val)))) s

/-- Is an 8-bit tag one that VTAGS accepts (spec/17 R369)? -/
def tagValid (t : Nat) : Bool :=
  let blk := fieldOf t 6 5
  match Fmt.ofCode (fieldOf t 4 0) with
  | some f => (blk == 0 || fmtBlockable f) && (!fmtIsPe f || blk == 1) && (blk != 0 || !bitOf t 7)
  | none => false

/-- VTAGS (spec/17 R369). -/
def execVtags (a d : RegIx) (s : State) : Host.Outcome State Fault Refusal :=
  vexec (.vtags a d) (fun s => do
    let i : Instr := .vtags a d
    let e ← vecEnv s i 0
    let x := (hartX e.h a).toNat
    orIllegal (x / 256 == 0 && tagValid x) s i
    vecDone s (hartSetTag e.h d.val x)) s

/-- The gang's current grant. -/
def gangGrant (s : State) : Nat := (gangOfHart s s.cur).grant

/-- The application vector length: x(xs1), or with x0 the maximum or the old vl. -/
def avlOf (h : Hart) (a d : RegIx) (vlmax : Nat) : Nat :=
  if a.val = 0 then (if d.val = 0 then h.xc.vl.toNat else vlmax) else (hartX h a).toNat

/-- vl for an application vector length (spec/02 R25). -/
def vlFor (avl vlmax blk : Nat) : Nat :=
  let vl := min avl vlmax
  let b := blockLen blk
  if blk ≠ 0 ∧ b ≤ vl then vl - vl % b else vl

/-- A set-length instruction with vtype `vt`: the current grant becomes the applied grant, and vl, `xvtype`, rd and
`xvstart` are written (spec/02 R24, R25; spec/03 R51). -/
def setLength (s : State) (vt : Nat) (a d : RegIx) : Res :=
  let h := me s
  let g := gangGrant s
  match vtypeOf vt with
  | none =>
    vecDone s (hartSetX { h with xc := { h.xc with grant := g, vl := 0, vtype := 0x8000000000000000 } } d 0)
  | some (lg, f, blk) =>
    let vlmax := 1024 * g / fmtSew f * 2 ^ lg
    let vl := vlFor (avlOf h a d vlmax) vlmax (if fmtIsPe f then 1 else blk)
    vecDone s (hartSetX { h with xc := { h.xc with grant := g, vl := w64 vl, vtype := w64 vt } } d (w64 vl))

/-- VSETVL (spec/17 R370). -/
def execVsetvl (b a d : RegIx) (s : State) : Host.Outcome State Fault Refusal :=
  vexec (.vsetvl b a d) (fun s => setLength s (rdX s b).toNat a d) s

/-- VSETVLI (spec/17 R370). -/
def execVsetvli (i : BitVec 12) (a d : RegIx) (s : State) : Host.Outcome State Fault Refusal :=
  vexec (.vsetvli i a d) (fun s => setLength s i.toNat a d) s

end Sys2Proof.Machine
end

