-- ==== Sys2Proof/Machine/Image.lean ====
section
/-!
DEFINITION. The context image (spec/03 R55 to R58, Tables 3-7 to 3-10; spec/15 Table 15-4; spec/16 Table 16-3): its bytes, the
checks of a load, and the restore. An image is a sparse byte map by offset.
-/
namespace Sys2Proof.Machine

/-! ### Save areas in bulk -/

/-- The part of a map below a key, from a key on, and between two. -/
def below {α : Type} (m : AMap α) (k : Nat) : AMap α := m.takeWhile fun kv => decide (kv.1 < k)
def fromKey {α : Type} (m : AMap α) (k : Nat) : AMap α := m.dropWhile fun kv => decide (kv.1 < k)
def between {α : Type} (m : AMap α) (lo hi : Nat) : AMap α := below (fromKey m lo) hi

/-- Shift the keys of a map up. -/
def shiftUp {α : Type} (k : Nat) (m : AMap α) : AMap α := m.map fun kv => (kv.1 + k, kv.2)

/-- The key identity that a page of a save area is written under. -/
def pageKid (s : State) (tid a : Nat) : Nat := areaKid s tid a

/-- A map of offsets below a length in its canonical form. -/
def canonMap (len : Nat) (m : Mem) : Mem :=
  if Memory.wf m && m.all fun kv => decide (kv.1 < len) then m
  else m.foldl (fun t kv => if kv.1 < len then aputC 0 t kv.1 kv.2 else t) []

/-- Replace len bytes of a save area at a 64-byte aligned address by a map of offsets; a byte that is not listed becomes 0.
No poison and no unspecified byte is left. -/
def areaPut (s : State) (tid base len : Nat) (m : Mem) : State :=
  let m := canonMap len m
  let hi := base + len
  let lines := (List.range (len / 64)).filterMap fun i =>
    let k := pageKid s tid (base + 64 * i)
    if k = 0 then none else some (base / 64 + i, k)
  { s with
    mem := below s.mem base ++ shiftUp base m ++ fromKey s.mem hi,
    lineKey := below s.lineKey (base / 64) ++ lines ++ fromKey s.lineKey (hi / 64),
    poison := below s.poison (base / 8) ++ fromKey s.poison (hi / 8)
    unspec := cutRange base hi s.unspec }

/-- The bytes of len bytes of a save area, by offset, as the tenant's key reads them. -/
def areaGet (s : State) (tid base len : Nat) : Mem :=
  let plain := (between s.lineKey (base / 64) ((base + len) / 64)).all fun kv =>
    let k := pageKid s tid (64 * kv.1)
    kv.2 == k || k == 0
  if plain && s.unspec.all (fun e => decide (base + len ≤ e.1) || decide (e.2.1 ≤ base)) then
    (between s.mem base (base + len)).map fun kv => (kv.1 - base, kv.2)
  else
    (List.range len).filterMap fun i =>
      let b := physByte s (pageKid s tid (base + i)) (base + i)
      if b = 0 then none else some (i, b)

/-- A part of a map: n bytes at an offset, as a number. -/
def mapNat (m : Mem) (o n : Nat) : Nat :=
  (between m o (o + n)).foldl (fun acc kv => acc + kv.2.toNat * 2 ^ (8 * (kv.1 - o))) 0

/-- The non-zero bytes of a number, at an offset. -/
def natMap : Nat → Nat → Nat → Mem
  | 0, _, _ => []
  | n + 1, o, v =>
    if v = 0 then []
    else if v % 256 = 0 then natMap n (o + 1) (v / 256)
    else (o, BitVec.ofNat 8 v) :: natMap n (o + 1) (v / 256)

/-! ### Places (spec/03 Table 3-7) -/

/-- The size of a core image. -/
def imageSize : Nat := 0x18B000
/-- The physical address of core image c. -/
def imageAt (ctxbase c : Nat) : Nat := ctxbase + c * imageSize

/-! ### Building an image -/

/-- A field: offset, bytes, value. -/
abbrev Field := Nat × Nat × Nat

/-- The Xebin CSRs in the order of Table 3-9: 0x800 to 0x809. -/
def userCsrs (x : XCsr) : List Nat :=
  [x.vl.toNat, x.vtype.toNat, x.rm.toNat, x.flags.toNat, x.sbase.toNat, x.vstart.toNat, x.fault.toNat, x.cpyseq.toNat,
    x.spill.toNat, x.srseed.toNat]
/-- 0x5C0 to 0x5C6. -/
def superCsrs (x : XCsr) : List Nat :=
  [x.ctxbase.toNat, x.asid.toNat, x.dirty.toNat, x.chto.toNat, x.mcto.toNat, x.wdog.toNat, x.fsmode.toNat]
/-- The supervisor CSRs of the privileged architecture, in the order of Table 3-9. -/
def privCsrs (p : PCsr) : List Nat :=
  [(sstatusRead p.mstatus).toNat, (p.mie &&& p.mideleg).toNat, p.stvec.toNat, p.scounteren.toNat, p.sscratch.toNat,
    p.sepc.toNat, p.scause.toNat, p.stval.toNat, (p.mip &&& p.mideleg).toNat, p.satp.toNat, p.senvcfg.toNat]

/-- Words of 8 bytes from an offset on. -/
def words8 (o : Nat) (ws : List Nat) : List Field := ws.zipIdx.map fun p => (o + 8 * p.2, 8, p.1)

/-- A hart record (spec/03 Table 3-9, spec/15 Table 15-4, spec/16 Table 16-3). A hart in M-mode is not a context's. -/
def hartFields (o : Nat) (h : Hart) : List Field :=
  let use := if h.run = .idle then 0 else 8
  let fin := if h.run = .ended then 4 else 0
  let latch := match h.latch with
    | some l => [(o + 0x10, 8, l.addr.toNat), (o + 0x18, 8, 1 + l.gb.val * 2 + l.ph.toNat * 2 ^ 32)]
    | none => []
  let h := if inDebug h then leaveDebug h else h
  [(o, 8, h.pc.toNat), (o + 8, 8, privCode h.priv % 2 + fin + use)] ++ latch ++
    [(o + 0x20, 8, if h.bev then h.beva.toNat / 32 * 32 + 1 else 0), (o + 0x28, 8, h.maddr.toNat), (o + 0x30, 8, if h.mv then 1 else 0)] ++
    words8 (o + 0x100) ((List.range 32).map fun r => if r = 0 then 0 else (aget 0 h.x r).toNat) ++
    words8 (o + 0x200) ((List.range 32).map fun r => (aget 0 h.f r).toNat) ++
    [(o + 0x300, 8, h.fcsr.toNat)] ++ words8 (o + 0x308) (userCsrs h.xc) ++
    words8 (o + 0x358) [h.xc.grant, h.xc.leave.toNat, h.xc.temporal.toNat] ++ words8 (o + 0x380) (superCsrs h.xc) ++
    (List.range 32).map (fun r => (o + 0x400 + r, 1, hartTag h r)) ++
    h.spill.map (fun kv => (o + 0x420 + kv.1, 1, if kv.2.inMem then 3 else 1)) ++ words8 (o + 0x480) (privCsrs h.pr)

/-- An interlock entry (spec/07 Table 7-7). -/
def aritWords (e : Arit) : List Nat :=
  let b (x : Bool) (k : Nat) : Nat := if x then 2 ^ k else 0
  [1 + b e.wr 1 + b e.rd 2 + e.src % 32 * 2 ^ 4 + e.slot % 8 * 2 ^ 9, e.base % 2 ^ 60, e.limit % 2 ^ 60, 0]

/-- A copy record (spec/10 Table 10-3). A copy whose stamp is written, and whose completion record is not, keeps only the
record to post; one to a peer that has not acknowledged it is moved again as a whole. -/
def copyWords (e : Nat) (k : Copy) : List Nat :=
  let opt := if k.stage = 2 then k.opt % 4 / 2 * 2 else k.opt
  let moved := if k.peer && !k.acked && k.stage == 0 then k.src - k.src0 else 0
  [1 + opt % 8 * 2 + e % 2 * 2 ^ 4 + k.slot % 8 * 2 ^ 5 + k.tgt % 8 * 2 ^ 8 + k.stamp.toNat % 2 ^ 16 * 2 ^ 16 +
      (k.rem + moved) % 2 ^ 21 * 2 ^ 32,
    k.src - moved, k.dst - moved, k.utag % 2 ^ 16 + k.stamp.toNat / 2 ^ 16 * 2 ^ 16]

/-- A stream record (spec/10 R202). -/
def streamWords (r : Stream) : List Nat :=
  (List.range 8).map (fun i => (aget 0 r.desc i).toNat) ++
    [streamWord r, r.i0 % 2 ^ 32 + r.i1 % 2 ^ 32 * 2 ^ 32, r.i2 % 2 ^ 32 + r.off % 2 ^ 32 * 2 ^ 32]

/-- The stream record of a port. Between streams its descriptor is that of the run whose slot names the port. -/
def portWords (c : CoreSt) (p : Nat) : List Nat :=
  let r : Stream := aget {} c.streams p
  let own := (c.slots.flatMap fun kv => if chActive kv.2.state then kv.2.pats else []).find? fun t => t.1 == p
  match own with
  | some t => streamWords (if r.state = 1 ∨ r.state = 2 then r else { r with desc := t.2 })
  | none => streamWords r

/-- The gang records of core 0 (spec/03 Table 3-10). -/
def gangFields (s : State) (g : Gang) (o : Nat) : List Field :=
  words8 o ((List.range 4).map fun n => (aget 0 g.gb n).toNat) ++
    words8 (o + 0x80) ((List.range 4).flatMap fun n =>
      let q := gangEvq g n
      [q.conf.toNat, q.head + q.tail * 2 ^ 32]) ++
    words8 (o + 0xC0) [taskHead s g.tid g.ctxbase, taskTail s g.tid g.ctxbase]

/-- The core and gang records (spec/03 Table 3-10). -/
def coreFields (s : State) (g : Gang) (c : CoreSt) : List Field :=
  let o := 0x9000
  (if c.cidx = 0 then gangFields s g o else []) ++
    (List.range 8).map (fun t => (o + 0x20 + t, 1, (aget 0x1F c.acTag t).toNat)) ++
    c.tcw.map (fun kv => (o + 0x40 + 8 * kv.1, 8, kv.2.toNat)) ++
    c.slots.flatMap (fun kv => (slotRecord kv.2).map fun w => (o + 0x100 + 64 * kv.1 + 8 * w.1, 8, w.2)) ++
    c.q.flatMap (fun kv => (queueRecord kv.2).map fun w => (o + 0x200 + 16 * kv.1 + 8 * w.1, 8, w.2)) ++
    c.arit.flatMap (fun kv => words8 (o + 0x400 + 32 * kv.1) (aritWords kv.2)) ++
    c.copies.flatMap (fun kv => words8 (o + 0x800 + 32 * kv.1) (copyWords (kv.1 / 32) kv.2)) ++
    (List.range 16).flatMap (fun p => words8 (o + 0x1000 + 128 * p) (portWords c p)) ++
    c.qside.map (fun kv => (o + 0x1800 + kv.1, 1, kv.2.toNat)) ++
    c.slots.flatMap (fun kv => (slotImage kv.2).map fun w => (0xC000 + 0x1000 * kv.1 + 8 * w.1, 8, w.2))

/-- The vector state of a hart slot: predicates, registers, sidecars, spill data. -/
def vecFields (h : Hart) (g lanes : Nat) : List Field :=
  (List.range 7).map (fun n => (0x10000 + n * 0x1000 + g * 128 * lanes, 128 * lanes, hartP h (n + 1))) ++
    h.v.map (fun kv => (0x17000 + g * 4096 * lanes + kv.1 * 128 * lanes, 128 * lanes, kv.2.toNat)) ++
    h.sc.map (fun kv => (0x37000 + g * 1024 * lanes + kv.1 * 32 * lanes, 32 * lanes, kv.2.toNat)) ++
    h.spill.flatMap (fun kv =>
      if kv.2.inMem then []
      else
        let o := 0x47000 + (g * 16 + kv.1) * 160 * lanes
        [(o, 128 * lanes, kv.2.reg.toNat), (o + 128 * lanes, 32 * lanes, kv.2.sc.toNat)])

/-- Fields as a byte map. -/
def fieldsMap (fs : List Field) : Mem :=
  fs.foldl (fun m f => (natMap f.2.1 f.1 (f.2.2 % 2 ^ (8 * f.2.1))).foldl (fun m kv => aput m kv.1 kv.2) m) []

/-- The bytes of a core image from 0x1000 on. -/
def imageBody (s : State) (g : Gang) (core : Nat) : Mem :=
  let c := coreOf s core
  let harts := (List.range c.part).flatMap fun k =>
    hartFields (0x1000 + 0x1000 * k) (hartOf s (8 * core + k)) ++ vecFields (hartOf s (8 * core + k)) k (32 / c.part)
  let acs := c.ac.map fun kv => (0x3F000 + 0x1000 * kv.1, 4096, kv.2.toNat)
  let pays := c.qpay.map fun kv => (0x5B000 + 0x2000 * (kv.1 / 256) + 32 * (kv.1 % 256), 32, kv.2.toNat)
  fieldsMap (harts ++ coreFields s g c ++ acs ++ pays) ++ shiftUp 0x7B000 c.sdm ++ shiftUp 0x8B000 c.tile

/-- The header (spec/03 Table 3-8) over a body; FLAGS [0] stands in core 0's image, [1] ends a pre-emption, [2] a
checkpoint. -/
def imageHead (g : Gang) (part cidx : Nat) (preempt : Bool) (body : Mem) : Mem :=
  let flags := (if cidx = 0 then 1 else 0) + (if preempt then 2 else 4)
  fieldsMap [(0, 4, 0x43584E49), (4, 2, 0x0100), (6, 2, 0x00B0), (8, 4, imageSize), (0xC, 1, part), (0xD, 1, cidx),
    (0xE, 1, g.h + g.w * 16), (0xF, 1, flags), (0x10, 4, g.asid + g.tid * 2 ^ 16), (0x40, 64, sha512 body 0x1000 0x18A000)]

/-- Write the image of every core of a gang (spec/03 R55, R57). -/
def saveImages (s : State) (seat : Nat) (preempt : Bool) : State :=
  let g := gangOf s seat
  (gangCoreList g).foldl (fun t core =>
    let c := coreOf t core
    let body := imageBody t g core
    areaPut t g.tid (imageAt g.ctxbase c.cidx) imageSize (imageHead g c.part c.cidx preempt body ++ body)) s

/-! ### Checks of a load (spec/03 R58) -/

/-- Is an `xvtype` value reserved? -/
def vtypeBad (n : Nat) : Bool := n != 2 ^ 63 && (vtypeOf n).isNone

/-- Is a hart record one that a load refuses? -/
def hartBad (m : Mem) (o lanes : Nat) : Bool :=
  let st := mapNat m (o + 8) 8
  let grant := mapNat m (o + 0x358) 8
  vtypeBad (mapNat m (o + 0x310) 8) || !(List.range 32).all (fun r => tagValid (mapNat m (o + 0x400 + r) 1)) ||
    !(List.range 16).all (fun n => decide (mapNat m (o + 0x420 + n) 1 < 4)) || decide (2 ≤ fieldOf st 1 0) ||
    (bitOf st 3 && (grant == 0 || decide (lanes < grant)))

/-- Holds a slot record a run that cannot complete temporally: a FAULTED one (spec/08 Table 8-11)? -/
def runStuck (m : Mem) (k : Nat) : Bool := mapNat m (0x9100 + 64 * k) 8 % 16 == 8

/-- Does a core image pass the checks, for partition P and a region of n cores and some shape? -/
def imageOk (m : Mem) (part n region : Nat) : Bool :=
  let shape := mapNat m 0xE 1
  mapNat m 0 4 == 0x43584E49 && mapNat m 4 2 == 0x0100 && mapNat m 6 2 == 0x00B0 && mapNat m 8 4 == imageSize &&
    mapNat m 0xC 1 == part && fieldOf shape 3 0 * fieldOf shape 7 4 == n &&
    (shape == region || !(List.range 4).any (runStuck m)) &&
    mapNat m 0x40 64 == sha512 (fromKey m 0x1000) 0x1000 0x18A000 &&
    (List.range part).all (fun g => !hartBad m (0x1000 + 0x1000 * g) (32 / part)) &&
    (List.range 8).all fun t =>
      let a := mapNat m (0x9020 + t) 1
      a == 2 || a == 9 || a == 0x1F

/-- The images of a gang's context, by core index. -/
def readImages (s : State) (g : Gang) : List Mem :=
  (List.range (gangCores g)).map fun c => areaGet s g.tid (imageAt g.ctxbase c) imageSize

/-- Do all images pass? -/
def imagesOk (s : State) (g : Gang) : Bool := (readImages s g).all fun m => imageOk m g.part (gangCores g) (g.h + g.w * 16)

/-! ### Restore (spec/03 R58) -/

/-- The machine-level state with which the firmware stub starts a hart: every cause of spec/13 R244 delegated, and interrupt
16. -/
def stubPr : PCsr := { medeleg := w64 (0x1FF + 0xFF * 2 ^ 24 + 0xF * 2 ^ 48), mideleg := 0x10000 }

/-- A map from 0 to n − 1 without the default. -/
def listMap {α : Type} [DecidableEq α] (d : α) (n : Nat) (f : Nat → α) : AMap α :=
  (List.range n).filterMap fun i => if f i = d then none else some (i, f i)

/-- A word of an image. -/
def mw (m : Mem) (o : Nat) : Word := w64 (mapNat m o 8)

/-- The Xebin CSRs of a hart record. An `xvrm` of 110 or 111 is loaded as it is, and rounds as SR (notes/assumptions/36). -/
def xcsrFrom (m : Mem) (o : Nat) : XCsr :=
  { vl := mw m (o + 0x308), vtype := mw m (o + 0x310), rm := BitVec.ofNat 3 (mapNat m (o + 0x318) 8),
    flags := BitVec.ofNat 6 (mapNat m (o + 0x320) 8), sbase := mw m (o + 0x328) &&& ~~~(0xF : Word),
    vstart := BitVec.ofNat 17 (mapNat m (o + 0x330) 8), fault := mw m (o + 0x338), cpyseq := mw m (o + 0x340),
    spill := mw m (o + 0x348) &&& ~~~(0x3F : Word), srseed := mw m (o + 0x350), grant := mapNat m (o + 0x358) 8,
    leave := mw m (o + 0x360), temporal := mw m (o + 0x368), ctxbase := mw m (o + 0x380) &&& 0xFFFFFFFFFF000,
    asid := mw m (o + 0x388) &&& 0xFFFFFFF, dirty := mw m (o + 0x390) &&& 0xFFFFFFFFFF001,
    chto := BitVec.ofNat 16 (mapNat m (o + 0x398) 8), mcto := BitVec.ofNat 16 (mapNat m (o + 0x3A0) 8),
    wdog := BitVec.ofNat 32 (mapNat m (o + 0x3A8) 8), fsmode := mw m (o + 0x3B0) &&& 1 }

/-- The privileged CSRs of a hart record, over the machine-level state of the hart. -/
def prFrom (b : PCsr) (m : Mem) (o : Nat) : PCsr :=
  let p := { b with
    mstatus := maskIn b.mstatus (mw m (o + 0x480)) sstatusMask
    mie := maskIn b.mie (mw m (o + 0x488)) (b.mideleg &&& mieMask)
    mip := maskIn b.mip (mw m (o + 0x4C0)) b.mideleg }
  [(0x105, 0x490), (0x106, 0x498), (0x140, 0x4A0), (0x141, 0x4A8), (0x142, 0x4B0), (0x143, 0x4B8), (0x180, 0x4C8),
    (0x10A, 0x4D0)].foldl (fun p e => csrWritePriv p e.1 (mw m (o + e.2))) p

/-- The spill entries of a slot; the image holds no tag of a spilled register, which becomes a free value. -/
def spillFrom (s : State) (m : Mem) (g lanes : Nat) : State × AMap Spill :=
  (List.range 16).foldl (fun (acc : State × AMap Spill) n =>
    let b := mapNat m (0x1420 + 0x1000 * g + n) 1
    if b % 2 = 0 then acc
    else
      let (t, s) := freshBits acc.1 8
      let o := 0x47000 + (g * 16 + n) * 160 * lanes
      let e : Spill := if bitOf b 1 then ⟨true, 0, 0, t⟩
        else ⟨false, BitVec.ofNat 32768 (mapNat m o (128 * lanes)), BitVec.ofNat 8192 (mapNat m (o + 128 * lanes) (32 * lanes)), t⟩
      (s, aput acc.2 n e)) (s, [])

/-- Restore a hart, over the state `b` it has. -/
def hartFrom (s : State) (b : Hart) (m : Mem) (g lanes : Nat) : State × Hart :=
  let o := 0x1000 + 0x1000 * g
  let st := mapNat m (o + 8) 8
  let lv := mapNat m (o + 0x18) 8
  let be := mapNat m (o + 0x20) 8
  let (s, sp) := spillFrom s m g lanes
  (s, {
    run := if !bitOf st 3 then .idle else if bitOf st 2 then .ended else .running
    pc := mw m o, priv := privOf (fieldOf st 1 0)
    x := listMap 0 32 fun r => if r = 0 then 0 else mw m (o + 0x100 + 8 * r)
    f := listMap 0 32 fun r => mw m (o + 0x200 + 8 * r)
    fcsr := BitVec.ofNat 8 (mapNat m (o + 0x300) 8)
    v := listMap 0 32 fun r => BitVec.ofNat 32768 (mapNat m (0x17000 + g * 4096 * lanes + r * 128 * lanes) (128 * lanes))
    tags := listMap 0x1F 32 fun r => BitVec.ofNat 8 (mapNat m (o + 0x400 + r) 1)
    sc := listMap 0 32 fun r => BitVec.ofNat 8192 (mapNat m (0x37000 + g * 1024 * lanes + r * 32 * lanes) (32 * lanes))
    p := listMap 0 8 fun n =>
      if n = 0 then 0 else BitVec.ofNat 32768 (mapNat m (0x10000 + (n - 1) * 0x1000 + g * 128 * lanes) (128 * lanes))
    halted := b.halted, xc := xcsrFrom m o, spill := sp
    pr :=
      let p := prFrom b.pr m o
      if b.halted then { p with dpc := mw m o, dcsr := w64 (withField p.dcsr.toNat 1 0 (fieldOf st 1 0)) } else p
    latch := if bitOf lv 0 then some ⟨mw m (o + 0x10), ⟨lv / 2 % 4, Nat.mod_lt _ (by decide)⟩, BitVec.ofNat 32 (lv / 2 ^ 32)⟩ else none
    bev := bitOf be 0, beva := if bitOf be 0 then w64 (be / 32 * 32) else 0
    maddr := mw m (o + 0x28), mv := bitOf (mapNat m (o + 0x30) 8) 0 })

/-- An interlock entry of an image. -/
def aritFrom (m : Mem) (o : Nat) : Option Arit :=
  let w := mapNat m o 8
  if bitOf w 0 then some ⟨bitOf w 1, bitOf w 2, fieldOf w 8 4, fieldOf w 11 9, mapNat m (o + 8) 8 % 2 ^ 60, mapNat m (o + 16) 8 % 2 ^ 60⟩
  else none

/-- The entries that are in use. -/
def someMap {α : Type} (n : Nat) (f : Nat → Option α) : AMap α := (List.range n).filterMap fun i => (f i).map fun v => (i, v)

/-- The interlock entry of a transfer: by source, slot and first byte. -/
def aritFind (a : AMap Arit) (src slot base : Nat) (wr : Bool) : Nat :=
  match a.find? fun kv => kv.2.src == src && kv.2.slot == slot && kv.2.base == base && kv.2.wr == wr with
  | some kv => kv.1
  | none => 32

/-- A copy of an image. The record does not hold what its completion reports, which becomes free values. -/
def copyFrom (s : State) (m : Mem) (core r : Nat) (arit : AMap Arit) : State × Option Copy :=
  let o := 0x9800 + 32 * r
  let w := mapNat m o 8
  if !bitOf w 0 then (s, none)
  else
    let slot := fieldOf w 7 5
    let src := mapNat m (o + 8) 8
    let dst := mapNat m (o + 16) 8
    let w3 := mapNat m (o + 24) 8
    let rem := fieldOf w 52 32
    let va (x : Nat) := aritVa s core x
    let (d0, s) := freshBits s 64
    let (gr, s) := freshBits s 21
    (s, some {
      opt := fieldOf w 3 1, slot := slot, tgt := fieldOf w 10 8, stamp := w64 (fieldOf w 31 16 + w3 / 2 ^ 16 * 2 ^ 16), rem := rem,
      src := src, dst := dst, utag := w3 % 2 ^ 16, dst0 := d0.toNat, grant := gr.toNat, src0 := src, span := rem,
      ctx := hartCtx s (8 * core + slot), held := [], aritS := aritFind arit (16 + r / 32) slot (va src) false,
      aritD := aritFind arit (16 + r / 32) slot (va dst) true })

/-- A stream of an image. Its issuer is that of its interlock entry; one that has none yet belongs to an unstated slot. -/
def streamFrom (s : State) (m : Mem) (core p : Nat) (arit : AMap Arit) : State × Stream :=
  let o := 0xA000 + 128 * p
  let w := mapNat m (o + 64) 8
  let st := fieldOf w 1 0
  let (b, s) := freshBits s 3
  let slot := match arit.find? fun kv => kv.2.src == p with
    | some kv => kv.2.slot
    | none => b.toNat % max 1 (coreOf s core).part
  (s, {
    desc := listMap 0 8 fun i => mw m (o + 8 * i), state := st, endc := fieldOf w 3 2, cause := fieldOf w 9 4,
    done := fieldOf w 63 32, i0 := mapNat m (o + 72) 4, i1 := mapNat m (o + 76) 4, i2 := mapNat m (o + 80) 4,
    off := mapNat m (o + 84) 4,
    ctx := if st = 1 ∨ st = 2 then some (hartCtx s (8 * core + slot)) else none })

/-- A chain slot of an image, with what its run needs from the rest of the core. -/
def chainFrom (s : State) (m : Mem) (core k : Nat) : State :=
  let w : WordsOf := fun i => mapNat m (0xC000 + 0x1000 * k + 8 * i) 8
  let r : WordsOf := fun i => mapNat m (0x9100 + 64 * k + 8 * i) 8
  if r 0 % 16 = 0 ∧ bitOf (r 0) 22 = false then s
  else
    let sl := slotFrom w r
    let c := coreOf s core
    let ctx := hartCtx s (8 * core + sl.owner)
    let tags : AMap Nat := (slotQs sl).map fun q => (q, (qOf c q).qtag.toNat)
    let widths : AMap Nat := (vsNodes sl.nodes).map fun n => (n, (hartOf s (8 * core + nodeIx sl n)).xc.grant)
    let occ := (nodeEdges sl).map fun e =>
      let j := consumerOf sl.edges e
      (4 * eQ e + j, qOcc (qOf c (eQ e)) j)
    let live := sl.state == .broken || sl.state == .temporal
    let need := runWeight sl tags
    let pats := (sl.nodes.filter fun x => x.1 == kMp).filterMap fun x =>
      let st : Stream := aget {} c.streams x.2
      if st.state = 1 ∨ st.state = 2 then none else some (x.2, st.desc)
    let unentered := (nodeList sl).any fun n => nodeKind sl n == kMp && !(latchOf sl n).done &&
      c.arit.all fun kv => kv.2.src != nodeIx sl n
    setSlot s core k { withStages s core sl with
      ctx := some ctx, widths := widths, need := need
      pats := if chActive sl.state then pats else []
      held := chActive sl.state && unentered
      saved := if live then occ.foldl (fun m p => aput m p.1 p.2) [] else []
      detachNode := (nodeList sl).find? fun n => (latchOf sl n).detached
      arm := if bitOf (r 0) 21 then some {
          runopt := sl.runopt, chto := sl.chto, mcto := sl.mcto, vrm := sl.vrm, ctx := ctx, widths := widths, seeds := [],
          need := need, tags := [], pats := [] } else none }

/-- Restore a core, its harts first. -/
def coreFrom (s : State) (m : Mem) (core : Nat) : State :=
  let part := (coreOf s core).part
  let s := (List.range part).foldl (fun s g =>
    let (s, h) := hartFrom s (hartOf s (8 * core + g)) m g (32 / part)
    setHart s (8 * core + g) h) s
  let arit := someMap 32 fun i => aritFrom m (0x9400 + 32 * i)
  let (s, copies) := (List.range 64).foldl (fun (acc : State × AMap Copy) r =>
    match copyFrom acc.1 m core r arit with
    | (s, some k) => (s, acc.2 ++ [(r, k)])
    | (s, none) => (s, acc.2)) (s, [])
  let (s, streams) := (List.range 16).foldl (fun (acc : State × AMap Stream) p =>
    if (between m (0xA000 + 128 * p) (0xA080 + 128 * p)).isEmpty then acc
    else
      let (s, r) := streamFrom acc.1 m core p arit
      (s, acc.2 ++ [(p, r)])) (s, [])
  let s := updCore s core fun c => { c with
    ac := listMap 0 8 fun t => BitVec.ofNat 32768 (mapNat m (0x3F000 + 0x1000 * t) 4096)
    acTag := listMap 0x1F 8 fun t => BitVec.ofNat 8 (mapNat m (0x9020 + t) 1)
    tcw := listMap 0 8 fun t => mw m (0x9040 + 8 * t)
    q := someMap 16 fun q =>
      let o := 0x9200 + 16 * q
      if (between m o (o + 16)).isEmpty then none else some (queueFrom fun i => mapNat m (o + 8 * i) 8)
    qpay := listMap 0 4096 fun i => BitVec.ofNat 256 (mapNat m (0x5B000 + 32 * i) 32)
    qside := listMap 0 4096 fun i => BitVec.ofNat 8 (mapNat m (0xA800 + i) 1)
    qpoi := []
    arit := arit, copies := copies, streams := streams, slots := []
    sdm := (between m 0x7B000 0x8B000).map fun kv => (kv.1 - 0x7B000, kv.2)
    tile := (fromKey m 0x8B000).map fun kv => (kv.1 - 0x8B000, kv.2) }
  (List.range 4).foldl (fun s k => chainFrom s m core k) s

/-- The gang records of core 0's image. -/
def gangFrom (g : Gang) (m : Mem) : Gang :=
  if !bitOf (mapNat m 0xF 1) 0 then g
  else
    { g with
      gb := listMap 0 4 fun n => mw m (0x9000 + 8 * n)
      evq := someMap 4 fun n =>
        let o := 0x9080 + 16 * n
        if (between m o (o + 16)).isEmpty then none
        else some ⟨mw m o, mapNat m (o + 8) 4, mapNat m (o + 12) 4⟩ }

/-- How a run goes on in a region of another shape: one with lane links in TEMPORAL; one without them either way, as spec/08 R171
and spec/13 R256 differ (notes/assumptions/58). -/
def resumeOther (s : State) (core k : Nat) : State :=
  if (slotOf s core k).nodes.any fun x => x.1 == kLl then chBroken (chResume s core k) core k
  else
    let (b, s) := freshBits s 1
    let s := chResume s core k
    if b = 0 then chAsk s core k else chBroken s core k

/-- Runs go on after a save or a restore (spec/08 R171, spec/13 R256). -/
def resumeChains (s : State) (g : Gang) (same : Bool) : State :=
  (gangCoreList g).foldl (fun s core => (List.range 4).foldl (fun s k =>
    let sl := slotOf s core k
    match sl.state with
    | .running =>
      if !sl.bell then s
      else if same then chAsk (chResume s core k) core k
      else resumeOther s core k
    | .broken => chServed s core k
    | .temporal => chAsk s core k
    | _ => s) s) s

/-- The batch records of a context that hold anything; every other one reads as zero. -/
def pklTouched (s : State) (ctxbase : Nat) : List Nat :=
  let lo := pklRec ctxbase 0 0
  let hi := pklRec ctxbase 128 0
  if s.unspec.any (fun e => decide (e.1 < hi) && decide (lo < e.2.1)) then List.range 1024
  else
    (((between s.mem lo hi).map fun kv => (kv.1 - lo) / 128) ++
      (between s.lineKey (lo / 64) (hi / 64)).map fun kv => (64 * kv.1 - lo) / 128).dedup

/-- The records of the batches of a gang that a quiescence stopped. -/
def pklHeld (s : State) (seat : Nat) : List Nat :=
  let g := gangOf s seat
  (pklTouched s g.ctxbase).filter fun n =>
    decide (n < gangSize g * 8) && fieldOf (areaRead s g.tid (pklRec g.ctxbase (n / 8) (n % 8) + 0x70) 8) 1 0 == 3

/-- The batches of a gang that a quiescence stopped are submitted again (spec/11 R233). At a restore they take their leave anew,
without a wait (notes/assumptions/35). -/
def pklResubmit (s : State) (seat : Nat) (leave : Bool) : State :=
  let g := gangOf s seat
  (pklHeld s seat).foldl (fun s n =>
    let b := pklRec g.ctxbase (n / 8) (n % 8)
    let u := areaRead s g.tid (b + 0x68) 8 % 16
    let s := areaWrite s g.tid (b + 0x70) 8 1
    let c := hartCtx s (gangHart g (n / 8))
    let j : PklJob := { seat := seat, recPa := b, ctx := c, weight := 4 }
    let s := if leave then s else grantLeave s (dieOfCore c.core) 4
    { s with pkl := aput s.pkl u (aget [] s.pkl u ++ [j]) }) s

/-- Restore every core of a gang from its images, which have passed the checks. -/
def restoreImages (s : State) (seat : Nat) : State :=
  let g := gangOf s seat
  let ms := readImages s g
  let s := setGang s seat (gangFrom g (ms.headD []))
  ((gangCoreList g).zip ms).foldl (fun s p => coreFrom s p.2 p.1) s

/-- Is the shape of the saved images that of the region? -/
def sameShape (s : State) (g : Gang) : Bool := mapNat ((readImages s g).headD []) 0xE 1 == g.h + g.w * 16

end Sys2Proof.Machine
end

