-- ==== Sys2Proof/Machine/Context.lean ====
section
/-!
DEFINITION. Quiescing a gang (spec/13 R250, R251), checkpoints (spec/13 R253 to R255, spec/15 R304), the lane partition
(spec/02 R20, spec/16 R315) and range invalidation (spec/16 R339, R341).
-/
namespace Sys2Proof.Machine

/-! ### Quiescence -/

/-- A quiescence stops the PKL batches of a gang; each is held in its record (spec/11 R233), with its leave, as it is not done
(spec/12 R243). -/
def pklStop (s : State) (seat : Nat) : State :=
  let mine := s.pkl.flatMap fun kv => kv.2.filter fun j => j.seat == seat
  let s := mine.foldl (fun s j => areaWrite s j.ctx.tid (j.recPa + 0x70) 8 3) s
  { s with pkl := s.pkl.filterMap fun kv =>
      let r := kv.2.filter fun j => j.seat != seat
      if r.isEmpty then none else some (kv.1, r) }

/-- The leave of the stopped batches of a gang whose cores fall free is released. -/
def pklLeave (s : State) (seat : Nat) : State :=
  let g := gangOf s seat
  (pklHeld s seat).foldl (fun s n => releaseUnits s (dieOfCore (coreOfHart (gangHart g (n / 8)))) 4) s

/-- A BCMD that is held goes on enqueuing; when it has enqueued its last piece it is complete (spec/15 R286). -/
def bauFinish (s : State) (seat : Nat) : State :=
  (s.cmds.filter fun kv => kv.2.seat == seat && !kv.2.todo.isEmpty).foldl (fun s kv =>
    match bauEnqueue s kv.1 kv.2 with
    | (s, true) => updHart s kv.2.hart fun h => retire { h with pc := h.pc + 4 }
    | (s, false) => s) s

/-- Bells for every run of a gang that has none yet (spec/13 R250). -/
def bellAll (s : State) (g : Gang) : State :=
  (gangCoreList g).foldl (fun s c => (List.range 4).foldl (fun s k => if (slotOf s c k).state = .idle then s else chBell s c k) s) s

/-- Is a core of a gang quiet: chains frozen, no refill, sum, matrix work or reduction on its way? -/
def coreQuiet (s : State) (c : Nat) : Bool :=
  let r := coreOf s c
  r.slots.all (fun kv => (kv.2.state != .running || kv.2.bell) && kv.2.state != .draining) && r.refills.isEmpty &&
    r.engine.isNone && r.redq.isEmpty

/-- Is a gang quiesced (spec/03 R57, spec/13 R250)? -/
def quiesced (s : State) (seat : Nat) : Bool :=
  let g := gangOf s seat
  (gangCoreList g).all (coreQuiet s) && s.cmds.all (fun kv => kv.2.seat != seat) &&
    s.pkl.all (fun kv => kv.2.all fun j => j.seat != seat) &&
    (gangHarts g).all fun h => (hartOf s h).inval.isEmpty && (hartOf s h).vred == 0

/-- Steps 1 to 3 of spec/13 R250, as far as they go at once; with every hart's buffered writes performed at the end. -/
def quiesce (s : State) (seat : Nat) : State :=
  let g := gangOf s seat
  let s := bauFinish (pklStop (bellAll s g) seat) seat
  if quiesced s seat then (gangHarts g).foldl drainWc s else s

/-- Every hart of a gang stops: what it waits for or has parked is withdrawn (spec/13 R248, R250). A hart that holds a BCMD
stays at it. -/
def stopHarts (s : State) (g : Gang) : State := (gangHarts g).foldl stopHart s

/-- The gang runs on. -/
def runOn (s : State) (seat : Nat) (same : Bool) : State :=
  let s := updGang s seat fun g => { g with state := .running }
  pklResubmit (resumeChains s (gangOf s seat) same) seat true

/-- The leave that a core's copies and runs hold is released; what they were is dropped. -/
def dropWork (s : State) (core : Nat) : State :=
  let c := coreOf s core
  let u := c.copies.foldl (fun n kv => n + kv.2.weight) 0 + c.slots.foldl (fun n kv => n + kv.2.leave) 0
  let s := releaseUnits s (dieOfCore core) u
  updDie s (dieOfCore core) fun d => { d with leaveQ := d.leaveQ.filter fun q => match q.1 with | .seq c _ => c != core | _ => true }

/-- The state of the gang of the current hart as a CTXSV or CTXLD finds it: quiescing begins with its first execution. -/
def ctxStep (s : State) (seat : Nat) (load : Bool) : State :=
  let g := gangOf s seat
  let s := match g.state with
    | .running => stopHarts (setGang s seat { g with state := .checkpoint s.cur load }) g
    | _ => s
  quiesce s seat

/-- The harts of a gang that wait at a CTXSV (spec/13 R254). -/
def ctxsvHarts (s : State) (g : Gang) : List Nat := (gangHarts g).filter fun h => decide ((hartOf s h).wait = some .ctxsv)

/-- Harts whose CTXSV is done go on behind it. -/
def ctxsvDone (s : State) (hs : List Nat) : State := hs.foldl (fun s h => updHart s h fun r => retire { r with pc := r.pc + 4 }) s

/-- CTXSV (spec/13 R253, R254; spec/15 R304): every CTXSV of the gang that meets the quiescence goes on with the one image. -/
def execCtxsv (s : State) : Host.Outcome State Fault Refusal :=
  finish .ctxsv (
    if (me s).priv = .u then illegal s .ctxsv
    else match (coreOf s (myCore s)).gang with
      | none => .ok (nextPc s)
      | some seat =>
        let s := ctxStep s seat false
        if quiesced s seat then
          let met := (ctxsvHarts s (gangOf s seat)).filter fun h => h != s.cur
          .ok (runOn (saveImages (ctxsvDone (nextPc s) met) seat false) seat true)
        else .error (.wait s))

/-- CTXLD (spec/13 R253, R255): a failed check changes nothing and raises cause 49. -/
def execCtxld (s : State) : Host.Outcome State Fault Refusal :=
  finish .ctxld (
    if (me s).priv = .u then illegal s .ctxld
    else match (coreOf s (myCore s)).gang with
      | none => .error (.trap s 49 (me s).xc.ctxbase)
      | some seat =>
        let s := ctxStep s seat true
        let g := gangOf s seat
        if !quiesced s seat then .error (.wait s)
        else if imagesOk s g then
          let same := sameShape s g
          .ok (runOn (restoreImages ((gangCoreList g).foldl dropWork s) seat) seat same)
        else .error (.trap (runOn s seat true) 49 (me s).xc.ctxbase))

/-! ### Lane partition -/

/-- What LPART does to a hart slot (spec/02 R20, spec/16 R315). -/
def lpartHart (lanes : Nat) (h : Hart) : Hart :=
  { h with
    v := [], tags := [], sc := [], p := [], spill := [], latch := none, bev := false, beva := 0, maddr := 0, mv := false,
    xc := { h.xc with vl := 0, vtype := 0x8000000000000000, grant := lanes, vstart := 0 } }

/-- The lane partition of a core becomes P. -/
def lpartOp (s : State) (core part : Nat) : State :=
  let s := updCore s core fun c => { c with part := part }
  (List.range 8).foldl (fun s k => updHart s (8 * core + k) (lpartHart (32 / part))) s

/-- LPART: in M-mode, with every other slot of the core idle (spec/02 R20). -/
def execLpart (n : Fin 4) (s : State) : Host.Outcome State Fault Refusal :=
  finish (.lpart n) (do
    let core := myCore s
    orIllegal (decide ((me s).priv = .m) && (List.range 8).all fun k =>
      k == mySlot s || decide ((hartOf s (8 * core + k)).run = .idle)) s (.lpart n)
    .ok (nextPc (lpartOp s core (2 ^ n.val))))

/-! ### Range invalidation -/

/-- TLBIR (spec/16 R339). -/
def execTlbir (b a d : RegIx) (s : State) : Host.Outcome State Fault Refusal :=
  finish (.tlbir b a d) (do
    orIllegal (decide ((me s).priv ≠ .u)) s (.tlbir b a d)
    let s ← startInval s ((rdX s d).toNat % 2 ^ 16) (invalRange (rdX s a).toNat (rdX s b).toNat)
    .ok (nextPc s))

/-- TLBSYNC (spec/16 R341). -/
def execTlbsync (s : State) : Host.Outcome State Fault Refusal :=
  finish .tlbsync (do
    orIllegal (decide ((me s).priv ≠ .u)) s .tlbsync
    if (me s).inval.isEmpty then .ok (nextPc s) else .error (.wait s))

end Sys2Proof.Machine
end

