-- ==== Sys2Proof/Machine/Sched.lean ====
section
/-!
DEFINITION. Scheduling and power (spec/12 R234 to R243): launch queues, the seating chart, dispatch, the start and the end of a
gang, the scheduling policy, grants and leave.
-/
namespace Sys2Proof.Machine

/-! ### Launch records (spec/12 Table 12-1), as a number of 64 bytes -/

def lrEntry (r : Nat) : Nat := fieldOf r 63 0
def lrArg (r : Nat) : Nat := fieldOf r 127 64
def lrCtxbase (r : Nat) : Nat := fieldOf r 191 128
def lrAsid (r : Nat) : Nat := fieldOf r 223 192
def lrTid (r : Nat) : Nat := fieldOf r 219 208
def lrH (r : Nat) : Nat := fieldOf r 227 224
def lrW (r : Nat) : Nat := fieldOf r 231 228
def lrPart (r : Nat) : Nat := fieldOf r 233 232
def lrPrio (r : Nat) : Nat := fieldOf r 242 240
def lrGcap (r : Nat) : Nat := fieldOf r 255 248
def lrSatp (r : Nat) : Nat := fieldOf r 319 256
def lrDirty (r : Nat) : Nat := fieldOf r 383 320
def lrFsmode (r : Nat) : Bool := bitOf r 384
def lrResume (r : Nat) : Bool := bitOf r 385
def lrPin (r : Nat) : Bool := bitOf r 386
def lrRow (r : Nat) : Nat := fieldOf r 403 400
def lrCol (r : Nat) : Nat := fieldOf r 408 404

/-- Has a launch record a reserved byte or field that is not zero (spec/12 R235)? -/
def lrBad (r : Nat) : Bool :=
  fieldOf r 223 220 != 0 || fieldOf r 239 234 != 0 || fieldOf r 247 243 != 0 || fieldOf r 399 387 != 0 ||
    fieldOf r 511 409 != 0
/-- Does SHAPE give h and w from 1 to 4? -/
def lrShapeOk (r : Nat) : Bool := decide (1 ≤ lrH r) && decide (lrH r ≤ 4) && decide (1 ≤ lrW r) && decide (lrW r ≤ 4)

/-! ### Seats (spec/12 Tables 12-2 and 12-3); seat = 768 die + k -/

/-- Word w of a seat's bind record. -/
def bindW (s : State) (seat w : Nat) : Nat := (aget 0 s.binds (4 * seat + w)).toNat
/-- What a write leaves of a word: reserved fields are read-only (spec/00 R5, Table 12-2). -/
def bindMask (w v : Nat) : Nat :=
  if w = 0 then withField v 31 27 0 else if w = 1 then fieldOf v 51 6 * 64 else v
def setBindW (s : State) (seat w v : Nat) : State := { s with binds := aputC 0 s.binds (4 * seat + w) (w64 (bindMask w v)) }

def seatWord (s : State) (seat : Nat) : Nat := (aget 0 s.seatStat seat).toNat
/-- STATE: 0 empty, 1 waiting, 2 running, 3 ended. -/
def seatState (s : State) (seat : Nat) : Nat := fieldOf (seatWord s seat) 1 0
def seatHow (s : State) (seat : Nat) : Nat := fieldOf (seatWord s seat) 3 2
def seatSeq (s : State) (seat : Nat) : Nat := fieldOf (seatWord s seat) 63 32
/-- Write a seat's status word: STATE, ENDHOW, CAUSE, SEQ. -/
def setSeat (s : State) (seat st how cause seq : Nat) : State :=
  { s with seatStat := aputC 0 s.seatStat seat (w64 (st + how * 4 + cause % 64 * 16 + seq % 2 ^ 32 * 2 ^ 32)) }

def bindValid (w0 : Nat) : Bool := bitOf w0 0
def bindPreempt (w0 : Nat) : Bool := bitOf w0 1
def bindPart (w0 : Nat) : Nat := 2 ^ fieldOf w0 3 2
def bindPrio (w0 : Nat) : Nat := fieldOf w0 19 17
def bindGcap (w0 : Nat) : Nat := fieldOf w0 25 20
def bindResume (w0 : Nat) : Bool := bitOf w0 26
def bindSeq (w0 : Nat) : Nat := fieldOf w0 63 32

/-- A region of the grid. -/
structure Rgn where
  row0 : Nat
  col0 : Nat
  h : Nat
  w : Nat
deriving DecidableEq, Repr

def bindRgn (w0 : Nat) : Rgn := ⟨fieldOf w0 11 8, fieldOf w0 16 12, fieldOf w0 5 4 + 1, fieldOf w0 7 6 + 1⟩
def rgnOk (g : Rgn) : Bool := decide (g.row0 + g.h ≤ 16) && decide (g.col0 + g.w ≤ 24)
/-- The cores of a region, in the order of their gang-relative index (spec/02 R19). -/
def rgnCores (g : Rgn) : List Nat := (List.range (g.h * g.w)).map fun c => 24 * (g.row0 + c / g.w) + (g.col0 + c % g.w)

/-- The first seat of an origin (spec/12 R236). -/
def seatBase (row col : Nat) : Nat :=
  768 * ((if 8 ≤ row then 2 else 0) + (if 12 ≤ col then 1 else 0)) + 8 * (row % 8 * 12 + col % 12)

/-- Does a region hold no unavailable position: its dies have a spare for each core that is to be replaced (spec/01 R11)? -/
def rgnAvail (s : State) (g : Rgn) : Bool :=
  let bad := (rgnCores g).filter fun c => s.io.retiring.contains c
  (List.range 4).all fun d => decide ((bad.filter fun c => dieOfCore c == d).length ≤ (dieOf s d).spares)

/-- The launch record that a bind record names: the 64 bytes at LREF. -/
def launchRec (s : State) (seat : Nat) : Nat := physRead s 0 (fieldOf (bindW s seat 1) 51 6 * 64) 64

/-- The base of the save area that a launch record names: `xctxbase` holds bits [51:12]. -/
def lrBase (r : Nat) : Nat := lrCtxbase r / 4096 % 2 ^ 40 * 4096

/-- The save area of the gang that runs or waits at a seat. -/
def seatCtxbase (s : State) (seat : Nat) : Nat :=
  match aget? s.gangs seat with
  | some g => g.ctxbase
  | none => lrBase (launchRec s seat)

/-- The seats with a waiting record. -/
def waitingSeats (s : State) : List Nat := (s.seatStat.map (·.1)).filter fun k => seatState s k == 1

/-- Is one waiting record better than another: higher PRIO, then lower SEQ (spec/12 R238)? -/
def better (s : State) (a b : Nat) : Bool :=
  let pa := bindPrio (bindW s a 0)
  let pb := bindPrio (bindW s b 0)
  decide (pb < pa) || (pa == pb && decide (seatSeq s a < seatSeq s b))

/-- The waiting record that a free core is reserved for. -/
def reservedFor (s : State) (core : Nat) : Option Nat :=
  if (coreOf s core).gang.isSome then none
  else
    ((waitingSeats s).filter fun k => (rgnCores (bindRgn (bindW s k 0))).contains core).foldl (fun o k =>
      match o with
      | none => some k
      | some b => some (if better s k b then k else b)) none

/-! ### The end of a gang (spec/02 R23, spec/06 R103, spec/12 R239, spec/13 R244, R250) -/

/-- Every buffer and dirty line of a gang's cores is written back. -/
def settle (s : State) (seat : Nat) : State :=
  let g := gangOf s seat
  (gangCoreList g).foldl (fun s c => flushLines s c fun _ _ => true) ((gangHarts g).foldl drainWc s)

/-- The cores of a gang fall free, and its seat ends. -/
def freeSeat (s : State) (seat how cause : Nat) : State :=
  let g := gangOf s seat
  let s := (gangCoreList g).foldl (fun s c =>
    let s := dropWork s c
    let s := updCore s c fun r => { r with gang := none, copies := [], streams := [], arit := [], slots := [] }
    { s with harts := s.harts.filter fun kv => coreOfHart kv.1 != c }) s
  setSeat { s with gangs := adel s.gangs seat } seat 3 how cause (seatSeq s seat)

/-- Is a core's part of a gang over: no run, copy, stream, refill, matrix work or reduction on its way? -/
def coreDone (s : State) (c : Nat) : Bool :=
  let r := coreOf s c
  r.slots.all (fun kv => kv.2.state != .running && kv.2.state != .draining && kv.2.state != .broken && kv.2.state != .temporal) &&
    r.copies.isEmpty && r.streams.all (fun kv => kv.2.state != 1 && kv.2.state != 2) && r.refills.isEmpty &&
    r.engine.isNone && r.redq.isEmpty

/-- Has a gang ended (spec/02 R23)? -/
def gangDone (s : State) (seat : Nat) : Bool :=
  let g := gangOf s seat
  (gangHarts g).all (fun h => decide ((hartOf s h).run = .ended) && (hartOf s h).inval.isEmpty) &&
    (gangCoreList g).all (coreDone s) && s.cmds.all (fun kv => kv.2.seat != seat) &&
    s.pkl.all fun kv => kv.2.all fun j => j.seat != seat

/-- The PKL records of a gang's context that hold word `v` are freed. -/
def pklFree (s : State) (tid ctxbase : Nat) (v : Option Nat) : State :=
  (pklTouched s ctxbase).foldl (fun s n =>
    let a := pklRec ctxbase (n / 8) (n % 8) + 0x70
    let w := areaRead s tid a 8
    if w ≠ 0 ∧ (v.isNone ∨ v = some w) then areaWrite s tid a 8 0 else s) s

/-- GANG_END: by itself (spec/02 R23), or by the firmware stub (spec/13 R244). -/
def execGangEnd (seat : Nat) (s : State) : Host.Outcome State Fault Refusal :=
  match aget? s.gangs seat with
  | none => .next s
  | some g =>
    match g.state with
    | .running => .next (if gangDone s seat then freeSeat (settle s seat) seat 0 0 else s)
    | .ending cause ghart pc tval =>
      let s := quiesce s seat
      if quiesced s seat then
        let s := pklFree (pklLeave (settle s seat) seat) g.tid g.ctxbase (some 3)
        .next (freeSeat (logFault s g.ctxbase g.tid cause ghart 0 pc tval) seat 2 cause)
      else .next s
    | _ => .next s

/-! ### Launch queues (spec/12 R234, spec/14 R272) -/

/-- Is some management core left to run firmware (spec/13 R262, spec/14 R275)? -/
def fwRuns (s : State) : Bool := s.io.mgcDown != 0xF

def lqWord (s : State) (q w : Nat) : Nat := (aget 0 s.io.lq (4 * q + w)).toNat
def lqLog (s : State) (q : Nat) : Nat := fieldOf (lqWord s q 1) 3 0
def lqTid (s : State) (q : Nat) : Nat := fieldOf (lqWord s q 1) 27 16
def lqEn (s : State) (q : Nat) : Bool := bitOf (lqWord s q 1) 31
def lqWp (s : State) (q : Nat) : Nat := lqWord s q 2
def lqRp (s : State) (q : Nat) : Nat := lqWord s q 3

/-- Does a LAUNCHREFUSED event of a queue wait for room (spec/14 R270)? -/
def lqHeld (s : State) (q : Nat) : Bool :=
  s.io.fhWait.any fun ws => (ws.headD 0).toNat % 2 ^ 16 == 0x8002 && (ws.getD 1 0).toNat == q

/-- The record at a queue's read pointer, where the queue is enabled and has one. -/
def lqHead (s : State) (q : Nat) : Option Nat :=
  if lqEn s q && lqRp s q != lqWp s q && !lqHeld s q then
    some (physRead s 0 (fieldOf (lqWord s q 0) 51 6 * 64 + lqRp s q % 2 ^ lqLog s q * 64) 64)
  else none

/-- Consume a queue's record. -/
def lqPop (s : State) (q : Nat) : State :=
  updIo s fun io => { io with lq := aputC 0 io.lq (4 * q + 3) (w64 ((lqRp s q + 1) % 2 ^ 32)) }

/-- Why firmware refuses a launch record: 0 tenant, 1 a reserved byte, 2 SHAPE. -/
def lrRefused (s : State) (q r : Nat) : Option Nat :=
  if lrTid r ≠ lqTid s q then some 0 else if lrBad r then some 1 else if !lrShapeOk r then some 2 else none

/-- Is a seat free for a new record: its status is ended or empty, no record that dispatch has yet to see stands in it, and no gang
of it is to be seated again? -/
def seatFree (s : State) (seat : Nat) : Bool :=
  seatState s seat != 1 && seatState s seat != 2 && !s.io.requeue.contains seat &&
    (!bindValid (bindW s seat 0) || bindSeq (bindW s seat 0) == seatSeq s seat)

/-- May a region be seated at a priority: no unavailable position, no reservation of higher priority (spec/12 R240)? -/
def mayPlace (s : State) (prio : Nat) (g : Rgn) : Bool :=
  rgnOk g && rgnAvail s g && (rgnCores g).all fun c =>
    match reservedFor s c with
    | some k => decide (bindPrio (bindW s k 0) ≤ prio)
    | none => true

/-- The seat and region for a launch record: the lowest origin in row-major order, or ORIGIN under PIN. -/
def placeFor (s : State) (r prio : Nat) : Option (Nat × Rgn) :=
  let seatAt (g : Rgn) : Option (Nat × Rgn) :=
    let b := seatBase g.row0 g.col0
    ((List.range 8).find? fun k => seatFree s (b + k)).map fun k => (b + k, g)
  if lrPin r then seatAt ⟨lrRow r, lrCol r, lrH r, lrW r⟩
  else
    (List.range 384).findSome? fun o =>
      let g : Rgn := ⟨o / 24, o % 24, lrH r, lrW r⟩
      if mayPlace s prio g then seatAt g else none

/-- Where firmware keeps its copy of the launch record of a seat, in HBM. -/
def lrefPa (seat : Nat) : Nat := (Config.lrefAt seat).toNat % (hbmEnd / 64) * 64

/-- Firmware writes a copy of the launch record, and a bind record: words 1 to 3, then word 0 (spec/12 R236). -/
def seatRecord (s : State) (seat : Nat) (g : Rgn) (r prio : Nat) (resume : Bool) : State :=
  let seq := s.io.seqNo + 1
  let s := physWrite (updIo s fun io => { io with seqNo := seq }) 0 (lrefPa seat) 64 r
  let s := setBindW s seat 1 (lrefPa seat)
  let s := setBindW s seat 2 (lrEntry r)
  let s := setBindW s seat 3 (lrArg r)
  setBindW s seat 0 (1 + lrPart r * 4 + (g.h - 1) * 2 ^ 4 + (g.w - 1) * 2 ^ 6 + g.row0 * 2 ^ 8 + g.col0 * 2 ^ 12 +
    prio * 2 ^ 17 + min 63 (lrGcap r) * 2 ^ 20 + (if resume then 2 ^ 26 else 0) + seq % 2 ^ 32 * 2 ^ 32)

/-- The queues that have a record. -/
def lqKeys (s : State) : List Nat := ((s.io.lq.map fun kv => kv.1 / 4).dedup).filter fun q => (lqHead s q).isSome

/-- Is queue a served before queue b: higher priority of its record, then the next in rotation (spec/12 R240)? -/
def lqBefore (s : State) (a b : Nat) : Bool :=
  let pa := lrPrio ((lqHead s a).getD 0)
  let pb := lrPrio ((lqHead s b).getD 0)
  let turn (q : Nat) : Nat := (q + 256 - aget 0 s.io.lqRr pa) % 256
  decide (pb < pa) || (pa == pb && decide (turn a < turn b))

/-- LAUNCH_RECORD_CONSUME: firmware in hardware scheduling mode takes the next record of a queue, and refuses it or seats it
(spec/12 R234, R235, R240). -/
def execLaunchRecordConsume (q : Fin 256) (s : State) : Host.Outcome State Fault Refusal :=
  match (if bitOf s.io.mode.toNat 0 || s.io.recovery || !fwRuns s then none else lqHead s q.val) with
  | none => .next s
  | some r =>
    match lrRefused s q.val r with
    | some reason =>
      .next (mailbox (lqPop s q.val) [mbHead 0x8002 24 0, w64 q.val, w64 (lqRp s q.val % 2 ^ lqLog s q.val), w64 reason])
    | none =>
      let fit (k : Nat) : Option (Nat × Rgn) :=
        match lqHead s k with
        | some r => if (lrRefused s k r).isNone then placeFor s r (lrPrio r) else none
        | none => none
      if (lqKeys s).any fun k => k != q.val && lqBefore s k q.val && (fit k).isSome then .next s
      else match fit q.val with
        | none => .next s
        | some (seat, g) =>
          let s := seatRecord (lqPop s q.val) seat g r (lrPrio r) (lrResume r)
          .next (updIo s fun io => { io with lqRr := aput io.lqRr (lrPrio r) (q.val + 1) })

/-! ### Dispatch (spec/12 R237, R238) -/

/-- Does dispatch refuse a bind record with cause 29? -/
def bindRefused (s : State) (seat : Nat) : Bool :=
  let w0 := bindW s seat 0
  let w1 := bindW s seat 1
  let r := launchRec s seat
  let g := bindRgn w0
  let part := bindPart w0
  !(rgnOk g && rgnAvail s g) || bindGcap w0 == 0 || decide (32 / part < bindGcap w0) || fieldOf w0 31 27 != 0 ||
    fieldOf w1 5 0 != 0 || fieldOf w1 63 52 != 0 || bindW s seat 2 != lrEntry r || bindW s seat 3 != lrArg r ||
    lrH r != g.h || lrW r != g.w || lrSatp r / 2 ^ 60 != 15 || lrBad r ||
    s.seatStat.any fun kv => kv.1 != seat && (seatState s kv.1 == 1 || seatState s kv.1 == 2) &&
      seatCtxbase s kv.1 == lrBase r

/-- BIND_RECORD_PUBLISH: dispatch sees VALID = 1 with a new SEQ. -/
def execBindRecordPublish (seat : Nat) (s : State) : Host.Outcome State Fault Refusal :=
  let w0 := bindW s seat 0
  if !bindValid w0 || bindSeq w0 == seatSeq s seat || seatState s seat == 1 || seatState s seat == 2 || s.io.recovery then .next s
  else if bindRefused s seat then .next (setSeat s seat 3 3 29 (bindSeq w0))
  else
    let r := launchRec s seat
    let base := lrBase r
    let s := setSeat s seat 1 0 0 (bindSeq w0)
    let s := updIo s fun io =>
      { io with contexts := if (aget? io.contexts base).isSome then io.contexts else aput io.contexts base (s.us, lrTid r) }
    let s := { s with waitUs := aput s.waitUs seat 0 }
    -- a record that is published with PREEMPT = 1 is withdrawn at once (spec/12 R239)
    .next (if bindPreempt w0 then setSeat s seat 3 3 0 (bindSeq w0) else s)

/-- May a waiting record start: every core of its region is free, reserved for it and powered (spec/12 R238)? -/
def mayStart (s : State) (seat : Nat) : Bool :=
  let g := bindRgn (bindW s seat 0)
  seatState s seat == 1 && rgnAvail s g && (rgnCores g).all fun c => reservedFor s c == some seat && (dieOf s (dieOfCore c)).powered

/-- Zero-on-bind of one core, by a spare where it is to be replaced, and the LPART of the firmware stub (spec/06 R115,
spec/12 R238). -/
def bindCore (s : State) (seat part cidx core : Nat) : State :=
  let spare := s.io.retiring.contains core
  let s := if spare then
      updIo (updDie s (dieOfCore core) fun d => { d with spares := d.spares - 1 }) fun io =>
        { io with retiring := io.retiring.filter fun c => c != core }
    else s
  let old := coreOf s core
  let s := setCore s core { gang := some seat, cidx := cidx, icache := if spare then [] else old.icache,
                            utlb := if spare then [] else old.utlb }
  lpartOp { s with harts := s.harts.filter fun kv => coreOfHart kv.1 != core } core part

/-- The supervisor CSRs that dispatch loads from the launch record. -/
def launchCsrs (r : Nat) (h : Hart) : Hart :=
  { h with
    pr := { h.pr with satp := w64 (lrSatp r) }
    xc := { h.xc with
      ctxbase := w64 (lrCtxbase r) &&& 0xFFFFFFFFFF000, asid := w64 (lrAsid r) &&& 0xFFFFFFF,
      dirty := w64 (lrDirty r) &&& 0xFFFFFFFFFF001, fsmode := if lrFsmode r then 1 else 0 } }

/-- What an agent keeps of its hart, with the address space the hart has now. -/
def reCtx (s : State) (c : ACtx) : ACtx :=
  let n := hartCtx s (8 * c.core + c.slot)
  { c with asid := n.asid, tid := n.tid, root := n.root, svc := n.svc, dirty := n.dirty, ctxbase := n.ctxbase }

/-- The agents of a restored core act in the address space that dispatch loaded. -/
def reCore (s : State) (core : Nat) : State :=
  updCore s core fun r => { r with
    copies := r.copies.map fun kv => (kv.1, { kv.2 with ctx := reCtx s kv.2.ctx })
    streams := r.streams.map fun kv => (kv.1, { kv.2 with ctx := kv.2.ctx.map (reCtx s) })
    slots := r.slots.map fun kv => (kv.1, { kv.2 with
      ctx := kv.2.ctx.map (reCtx s), arm := kv.2.arm.map fun a => { a with ctx := reCtx s a.ctx } }) }

/-- The start state of a hart (spec/02 Table 2-1). -/
def freshHart (g : Gang) (r i : Nat) (entry arg : Nat) (h : Hart) : Hart :=
  let slot := i % g.part
  let x : AMap Word := [(2, w64 (ownSdmVa + (slot + 1) * (65536 / g.part))), (10, w64 i), (11, w64 (gangSize g)),
    (12, w64 arg), (13, w64 (i / g.part))]
  launchCsrs r { h with
    run := .running, pc := w64 entry, priv := .u, pr := stubPr
    x := x.foldl (fun m kv => aputC 0 m kv.1 kv.2) []
    xc := { vl := 0, grant := g.grant, srseed := w64 (i + 1) } }

/-- Does a waiter stand for an entry of a context's parked-reduction area? -/
def isRedOf (ctxbase e : Nat) : Waiter → Bool
  | .red b n _ => b == ctxbase && n == e
  | _ => false

/-- Parked reductions whose record is not pending here are posted afresh (spec/13 R248, R249, R257). -/
def repostReds (s : State) (seat : Nat) : State :=
  let g := gangOf s seat
  (List.range 64).foldl (fun s e =>
    let a := parkedRedAddr g.ctxbase e
    let w := areaRead s g.tid a 8
    let t := areaRead s g.tid (a + 24) 4
    if !bitOf w 0 || s.faults.any (fun f => f.token == t && f.waiters.any fun w => isRedOf g.ctxbase e w.1) then s
    else
      let h := gangHart g (fieldOf w 15 9 % gangSize g)
      let c := hartCtx s h
      let (s, t) := postFault s c (areaRead s g.tid (a + 8) 8) 1 26 (.red g.ctxbase e c)
      areaWrite s g.tid (a + 24) 8 t) s

/-- Make a gang's context known as bound now. -/
def bindContext (s : State) (ctxbase tid : Nat) : State :=
  updIo s fun io => { io with contexts := aput io.contexts ctxbase (s.us, tid) }

/-- The gang of a bind record. The grant is min(GCAP, L), or, on a die over its budget, one that the controller's firmware
assigns (spec/12 R242). -/
def newGang (s : State) (seat : Nat) : State × Gang :=
  let w0 := bindW s seat 0
  let r := launchRec s seat
  let g := bindRgn w0
  let part := bindPart w0
  let cap := min (bindGcap w0) (32 / part)
  let (v, s) := freshBits s 6
  (s, { row0 := g.row0, col0 := g.col0, h := g.h, w := g.w, part := part, gcap := bindGcap w0,
        grant := if v = 0 ∨ cap < v.toNat then cap else v.toNat, grantAt := s.us, prio := bindPrio w0, seq := bindSeq w0,
        ctxbase := lrBase r, asid := lrAsid r % 2 ^ 16, tid := lrTid r, startUs := s.us })

/-- GANG_START (spec/12 R238). -/
def execGangStart (seat : Nat) (s : State) : Host.Outcome State Fault Refusal :=
  if !mayStart s seat then .next s
  else
    let w0 := bindW s seat 0
    let r := launchRec s seat
    let (s, g) := newGang s seat
    let s := bindContext (setGang s seat g) g.ctxbase g.tid
    let s := (List.range (gangCores g)).foldl (fun s c => bindCore s seat g.part c (gangCore g c)) s
    if bindResume w0 then
      if !imagesOk s g then .next (freeSeat s seat 3 49)
      else
        let same := sameShape s g
        let s := (gangHarts g).foldl (fun s h => updHart s h fun x => { x with pr := stubPr }) s
        let s := restoreImages s seat
        let s := (gangHarts g).foldl (fun s h => updHart s h (launchCsrs r)) s
        let s := (gangCoreList g).foldl reCore s
        let s := setSeat (repostReds s seat) seat 2 0 0 (seatSeq s seat)
        .next (pklResubmit (resumeChains s g same) seat false)
    else
      let s := pklFree s g.tid g.ctxbase none
      let s := (List.range (gangSize g)).foldl (fun s i =>
        updHart s (gangHart g i) (freshHart g r i (bindW s seat 2) (bindW s seat 3))) s
      .next (setSeat s seat 2 0 0 (seatSeq s seat))

/-! ### Pre-emption (spec/12 R239, spec/13 R250, R254) -/

/-- The effect of PREEMPT = 1 or VALID = 0 in a seat's record. -/
def preemptSeat (s : State) (seat : Nat) : State :=
  if seatState s seat = 1 then setSeat s seat 3 3 0 (seatSeq s seat)
  else if seatState s seat ≠ 2 then s
  else
    let g := gangOf s seat
    match g.state with
    | .running => stopHarts (setGang s seat { g with state := .saving }) g
    | .checkpoint _ _ => setGang (ctxsvDone s (ctxsvHarts s g)) seat { g with state := .saving }
    | _ => s

/-- PREEMPT_REQUEST: a write of VALID and PREEMPT, bits 0 and 1 of `ctl`, to a seat's record. -/
def execPreemptRequest (seat : Nat) (ctl : Word) (s : State) : Host.Outcome State Fault Refusal :=
  let s := setBindW s seat 0 (withField (bindW s seat 0) 1 0 ctl.toNat)
  let w0 := bindW s seat 0
  .next (if bindPreempt w0 || !bindValid w0 then preemptSeat s seat else s)

/-- PREEMPT_QUIESCED: the gang goes on towards quiescence; once it is quiet its image is written and its cores fall free. -/
def execPreemptQuiesced (seat : Nat) (s : State) : Host.Outcome State Fault Refusal :=
  match aget? s.gangs seat with
  | none => .next s
  | some g =>
    if g.state ≠ .saving then .next s
    else
      let s := quiesce s seat
      .next (if quiesced s seat then freeSeat (saveImages (pklLeave (settle s seat) seat) seat true) seat 1 0 else s)

/-! ### Policy (spec/12 R240) -/

/-- Does a waiting record of a priority or above meet a region? -/
def blocks (s : State) (g : Gang) : Bool :=
  (waitingSeats s).any fun k =>
    let w0 := bindW s k 0
    decide (g.prio ≤ bindPrio w0) && (rgnCores (bindRgn w0)).any fun c => (gangCoreList g).contains c

/-- SCHEDULING_QUANTUM: a gang that has run for 10 ms and blocks a waiting record of equal or higher priority is pre-empted;
once it is saved, it is seated again with RESUME = 1 and a new SEQ. -/
def execSchedulingQuantum (seat : Nat) (s : State) : Host.Outcome State Fault Refusal :=
  if bitOf s.io.mode.toNat 0 || !fwRuns s then .next s
  else match aget? s.gangs seat with
  | some g =>
    if g.state = .running ∧ seatState s seat = 2 ∧ g.startUs + 10000 ≤ s.us ∧ blocks s g = true then
      let s := updIo s fun io => { io with requeue := io.requeue ++ [seat] }
      .next (preemptSeat (setBindW s seat 0 (withField (bindW s seat 0) 1 1 1)) seat)
    else .next s
  | none =>
    if !s.io.requeue.contains seat then .next s
    else if seatState s seat ≠ 3 ∨ seatHow s seat ≠ 1 then
      .next (updIo s fun io => { io with requeue := io.requeue.filter fun k => k != seat })
    else
      let r := launchRec s seat
      let t := updIo s fun io => { io with requeue := io.requeue.filter fun k => k != seat }
      match placeFor t r (lrPrio r) with
      | some (k, g) => .next (seatRecord t k g r (lrPrio r) true)
      | none => .next s

/-- PRIORITY_AGING: a record that has waited 50 ms since it was last aged rises by 1, up to 7. -/
def execPriorityAging (seat : Nat) (s : State) : Host.Outcome State Fault Refusal :=
  let w0 := bindW s seat 0
  .next (if seatState s seat = 1 ∧ bindPrio w0 < 7 ∧ 50000 ≤ aget 0 s.waitUs seat ∧ bitOf s.io.mode.toNat 0 = false ∧
      fwRuns s = true then
    setBindW { s with waitUs := aput s.waitUs seat (aget 0 s.waitUs seat - 50000) } seat 0 (withField w0 19 17 (bindPrio w0 + 1))
  else s)

/-! ### Grants and leave (spec/12 R242, R243, spec/14 R275) -/

/-- Set a gang's grant: 1 to min(GCAP, L), at most once in 10 µs. -/
def setGrant (s : State) (seat grant : Nat) (down : Bool) : State :=
  match aget? s.gangs seat with
  | none => s
  | some g =>
    if 1 ≤ grant ∧ grant ≤ min g.gcap (32 / g.part) ∧ g.grantAt ≤ s.us ∧ (down = false ∨ grant < g.grant) then
      setGang s seat { g with grant := grant, grantAt := s.us + 10 }
    else s

/-- GRANT_CHANGE. -/
def execGrantChange (seat grant : Nat) (s : State) : Host.Outcome State Fault Refusal := .next (setGrant s seat grant false)

/-- THERMAL_GRANT_LIMIT: at a junction of 100 °C the power controller lowers a grant. -/
def execThermalGrantLimit (seat grant : Nat) (s : State) : Host.Outcome State Fault Refusal := .next (setGrant s seat grant true)

/-- LEAVE_GRANT: the oldest waiting request of a die, where it fits. -/
def execLeaveGrant (die : Fin 4) (s : State) : Host.Outcome State Fault Refusal :=
  match (dieOf s die.val).leaveQ with
  | [] => .next s
  | (who, units) :: r =>
    if !leaveFits s die.val units then .next s
    else
      let s := grantLeave (updDie s die.val fun d => { d with leaveQ := r }) die.val units
      match who with
      | .hart h => .next (updHart s h fun x => { x with leaveOk := units, ticket := none })
      | .seq c k => .next (updSlot s c k fun sl => { sl with leave := units, asked := false })

end Sys2Proof.Machine
end

