-- ==== Sys2Proof/Machine/FaultSvc.lean ====
section
/-!
DEFINITION. Fault service (spec/13 R246 to R249, spec/14 R270): posting of fault records, replies, host-assisted walks; and the
hart watchdog (spec/13 R260).
-/
namespace Sys2Proof.Machine

/-! ### Rings of the mailbox block (spec/14 Table 14-3) -/

/-- A register of the mailbox block. -/
def mbReg (s : State) (off : Nat) : Nat := (aget 0 s.io.mb off).toNat
def setMbReg (s : State) (off v : Nat) : State := updIo s fun io => { io with mb := aputC 0 io.mb off (w64 v) }

/-- A ring: the offsets of its BASE, CTL, WP and RP. -/
structure MbRing where
  base : Nat
  ctl : Nat
  wp : Nat
  rp : Nat

def hfRing : MbRing := ⟨0x000, 0x008, 0x010, 0x018⟩
def fhRing : MbRing := ⟨0x020, 0x028, 0x030, 0x038⟩
def frRing : MbRing := ⟨0x048, 0x050, 0x058, 0x060⟩

def ringEn (s : State) (r : MbRing) : Bool := bitOf (mbReg s r.ctl) 31
def ringLog (s : State) (r : MbRing) : Nat := fieldOf (mbReg s r.ctl) 3 0
/-- Entries between the pointers. -/
def ringUsed (s : State) (r : MbRing) : Nat := (mbReg s r.wp + 2 ^ 32 - mbReg s r.rp) % 2 ^ 32
/-- Is a ring enabled with room for an entry? -/
def ringRoom (s : State) (r : MbRing) : Bool := ringEn s r && decide (ringUsed s r < 2 ^ ringLog s r)
/-- The address of the entry that a count names. -/
def ringAt (s : State) (r : MbRing) (n size : Nat) : Nat := fieldOf (mbReg s r.base) 51 6 * 64 + n % 2 ^ ringLog s r * size

/-- Go on with n bytes of HBM that one of the device's own agents reaches; an address without storage stops the run. -/
def needHbm (pa n : Nat) (r : Host.Outcome State Fault Refusal) : Host.Outcome State Fault Refusal :=
  if pa + n ≤ hbmEnd then r else .fault (.noStorage pa)

/-! ### Posting -/

/-- Mark a record as posted. -/
def markPosted (s : State) (token : Nat) : State :=
  { s with faults := s.faults.map fun f => if f.token = token then { f with posted := true } else f }

/-- The record of a die that is posted next: to its firmware queue, or to the host ring, which takes the records of all dies in
their order. -/
def nextToPost (s : State) (die : Nat) : Option FaultRec :=
  match s.faults.find? fun f => !f.posted && !f.host && f.die == die with
  | some f => some f
  | none =>
    match s.faults.find? fun f => !f.posted && f.host with
    | some f => if f.die = die then some f else none
    | none => none

/-- FAULT_RECORD_POST (spec/13 R246, Table 13-3; spec/14 R270). -/
def execFaultRecordPost (die : Fin 4) (s : State) : Host.Outcome State Fault Refusal :=
  match nextToPost s die.val with
  | none => .next s
  | some f =>
    if f.host then
      if ringRoom s frRing then
        let wp := mbReg s frRing.wp
        let a := ringAt s frRing wp 32
        let s' := physWrite s 0 (a + 8) 24 (f.va.toNat + f.token * 2 ^ 64)
        let s' := physWrite s' 0 a 8 f.w0.toNat
        needHbm a 32 (.next (markPosted (setMbReg s' frRing.wp ((wp + 1) % 2 ^ 32)) f.token))
      else .next s
    else .next { markPosted s f.token with fwQueue := s.fwQueue ++ [(f.die, f.token)] }

/-! ### Replies (spec/13 R247) -/

/-- The hart of a running gang of a context with a gang hart index. -/
def ctxHart (s : State) (ctxbase gh : Nat) : Option Nat :=
  (s.gangs.find? fun kv => kv.2.ctxbase == ctxbase && decide (gh < gangSize kv.2)).map fun kv => gangHart kv.2 gh

/-- Drop a parked reduction, and log it with cause 48 (spec/13 R249). -/
def dropRed (s : State) (tid ctxbase e : Nat) : State :=
  let a := parkedRedAddr ctxbase e
  let w := areaRead s tid a 8
  let va := areaRead s tid (a + 8) 8
  let v := areaRead s tid (a + 16) 8
  logFault (areaWrite s tid a 8 0) ctxbase tid 48 (fieldOf w 15 9) 6 (w64 va) (w64 v)

/-- Replay a parked reduction at the home agent; a new page fault posts a new record, and one that has no place in memory any
more is dropped. -/
def replayRed (s : State) (ctxbase e : Nat) (c : ACtx) : State :=
  let a := parkedRedAddr ctxbase e
  let w := areaRead s c.tid a 8
  let va := areaRead s c.tid (a + 8) 8
  match translate s c .store .atomic va with
  | (s, .ok l) =>
    let u : RedUpd := ⟨c.slot, fieldOf w 3 1, fieldOf w 8 4, va, l, areaRead s c.tid (a + 16) 8, c⟩
    let s := areaWrite s c.tid a 8 0
    performRed s u (ctxHart s ctxbase (fieldOf w 15 9))
  | (s, .error (.page _)) =>
    let (s, t) := postFault s c va 1 26 (.red ctxbase e c)
    areaWrite s c.tid (a + 24) 8 t
  | (s, .error _) => dropRed s c.tid ctxbase e

/-- What a reply does to one parked access. -/
def replyOne (s : State) (token : Nat) (fatal : Bool) (w : Waiter) (va : Nat) : State :=
  match w with
  | .hart h =>
    if (hartOf s h).park ≠ some token then s
    else if fatal then takeException (updHart s h fun x => { x with stall := 0 }) h 31 (w64 va)
    else updHart s h fun x => { x with park := none }
  | .probe h => if (hartOf s h).probe = some token then updHart s h fun x => { x with probe := none } else s
  | .copy core r =>
    match aget? (coreOf s core).copies r with
    | some k => if k.park = some token then setCopy s core r { k with park := none, fatal := fatal } else s
    | none => s
  | .stream core p =>
    let r := streamOf (coreOf s core) p
    if r.park = some token then setStream s core p { r with park := none, fatal := fatal, fva := if fatal then w64 va else r.fva }
    else s
  | .node core k n => nodeReply s core k n token va fatal
  | .walk id =>
    match s.walks.find? fun x => x.id == id && x.park == some token with
    | some x => setWalk s { x with park := none, fatal := if fatal then some va else none }
    | none => s
  | .pkl u =>
    match aget [] s.pkl u with
    | j :: _ => if j.park = some token then setJob s u (some { j with park := none, fatal := if fatal then some (31, w64 va) else none }) else s
    | [] => s
  | .red ctxbase e c =>
    let a := parkedRedAddr ctxbase e
    if bitOf (areaRead s c.tid a 8) 0 && areaRead s c.tid (a + 24) 4 == token then
      (if fatal then dropRed s c.tid ctxbase e else replayRed s ctxbase e c)
    else s

/-- A reply: TOKEN in [31:0], FATAL in bit 32. One that names no pending record is ignored. A reply is honoured from either service,
whichever the record's context has selected (DESIGN CHOICE, notes/assumptions/40). -/
def replyOp (s : State) (v : Word) : State :=
  let token := v.toNat % 2 ^ 32
  match s.faults.find? fun f => f.token == token with
  | none => s
  | some f =>
    let s := { s with faults := s.faults.filter (fun g => g.token != token), fwQueue := s.fwQueue.filter fun q => q.2 != token }
    f.waiters.foldl (fun s w => replyOne s token (bitOf v.toNat 32) w.1 w.2) s

/-- FAULT_REPLY. -/
def execFaultReply (reply : Word) (s : State) : Host.Outcome State Fault Refusal := .next (replyOp s reply)

/-- HOST_SLICE_FILL (spec/06 R113): the host writes a translation of the record's address space into a slice of the die, and
the access is retried. The entry has no place in memory where its A and D bits could be set. -/
def execHostSliceFill (token va : Nat) (level : Fin 5) (pte : Word) (s : State) : Host.Outcome State Fault Refusal :=
  match s.faults.find? fun f => f.token == token with
  | none => .next s
  | some f =>
    if !bitOf s.io.mode.toNat 2 || decide (2 < level.val) then .next s
    else
      let size := 4096 * 512 ^ level.val
      let base := va / size * size
      let e : TlbEnt := ⟨f.asid, f.tid, base, size, pte, 2 ^ 52, []⟩
      let other (x : TlbEnt) : Bool := x.va != base || x.asid != f.asid || x.tid != f.tid
      let slice := sliceOf f.asid va
      let s := { s with cores := s.cores.map fun kv => (kv.1, { kv.2 with utlb := kv.2.utlb.filter other }) }
      let s := updDie s f.die fun d =>
        { d with slices := aput d.slices slice ((e :: (aget [] d.slices slice).filter other).take 1024) }
      .next (replyOp s (w64 (token % 2 ^ 32)))

/-- WATCHDOG_EXPIRY (spec/13 R260): bit 16 of `sip` is set, and the interrupt is taken when it is enabled. -/
def execWatchdogExpiry (hart : Nat) (s : State) : Host.Outcome State Fault Refusal :=
  let h := hartOf s hart
  .next (if h.run = .running ∧ h.halted = false ∧ h.xc.wdog ≠ 0 ∧ h.xc.wdog.toNat ≤ h.stall then
    updHart s hart fun x => { x with pr := { x.pr with mip := x.pr.mip ||| 0x10000 } }
  else s)

end Sys2Proof.Machine
end

