-- ==== Sys2Proof/Machine/DebugEv.lean ====
section
/-!
DEFINITION. External debug (spec/13 R248, R259; RISC-V debug 0.13): halt, resume, single step, abstract commands and the program
buffer. The debug module is proxied by the management cores (spec/01 R14).
-/
namespace Sys2Proof.Machine

/-- May a hart be halted now: it runs, or has been released for one step, holds no BCMD that is being enqueued, and is not the issuer
of a checkpoint under way? -/
def mayHalt (s : State) (h : Nat) : Bool :=
  let r := hartOf s h
  decide (r.run = .running) && !inDebug r && !bauHeld s h &&
    match (coreOf s (coreOfHart h)).gang with
    | some seat => (match (gangOf s seat).state with | .checkpoint k _ => k != h | _ => true)
    | none => true

/-- DEBUG_HALT: what the hart waits for or has parked is withdrawn. -/
def execDebugHalt (hart : Nat) (s : State) : Host.Outcome State Fault Refusal :=
  .next (if mayHalt s hart then updHart (withdraw s hart) hart fun h => enterDebug h 3 else s)

/-- Is a hart halted, with no program buffer in progress? -/
def debugIdle (s : State) (h : Nat) : Bool :=
  let r := hartOf s h
  decide (r.run = .running) && inDebug r && r.pbuf.isNone

/-- A hart leaves debug mode for one instruction, or for good. -/
def debugGo (s : State) (h : Nat) (one : Bool) : State :=
  if !debugIdle s h then s
  else updHart s h fun r => if one then { leaveDebug r with stepping := true } else { leaveDebug r with halted := false }

/-- DEBUG_RESUME; with the step bit of `dcsr` set it is a single step. -/
def execDebugResume (hart : Nat) (s : State) : Host.Outcome State Fault Refusal :=
  .next (debugGo s hart (bitOf (hartOf s hart).pr.dcsr.toNat 2))

/-- DEBUG_SINGLE_STEP. -/
def execDebugSingleStep (hart : Nat) (s : State) : Host.Outcome State Fault Refusal := .next (debugGo s hart true)

/-- Set the debug module's data and error. -/
def setDm (s : State) (d : Word) (e : Nat) : State := updIo s fun io => { io with dmData := d, dmErr := BitVec.ofNat 3 e }
def dmError (s : State) (e : Nat) : State := updIo s fun io => { io with dmErr := BitVec.ofNat 3 e }

/-- An abstract access to a CSR, with the privilege of debug mode; the counter of retired instructions takes the value that is
written. -/
def debugCsr (s : State) (hart n : Nat) (write : Bool) (v : Word) : State :=
  let was := s.cur
  let old := (hartOf s hart).priv
  let t := updHart { s with cur := hart } hart fun h => { h with priv := .m }
  let back (t : State) : State := updHart { t with cur := was } hart fun h => { h with priv := old }
  if write then
    if csrNoWrite n || (csrRead t n).isNone then dmError s 3
    else
      let t := csrWrite t n v
      let t := if n = 0xB02 then updHart t hart fun h => { h with pr := { h.pr with minstret := v } } else t
      dmError (back t) 0
  else match csrRead t n with
    | some (t, r) => setDm (back t) r 0
    | none => dmError s 3

/-- DEBUG_ABSTRACT_COMMAND: a read goes to the data registers; a hart that is not halted gives error 4. -/
def execDebugAbstractCommand (hart : Nat) (reg : DbgReg) (write : Bool) (value : Word) (s : State) :
    Host.Outcome State Fault Refusal :=
  if !debugIdle s hart then .next (dmError s 4)
  else
    let h := hartOf s hart
    .next (match reg with
      | .x n => if write then dmError (setHart s hart (hartSetX h n value)) 0 else setDm s (hartX h n) 0
      | .f n =>
        if write then dmError (setHart s hart { h with f := aputC 0 h.f n.val value }) 0 else setDm s (aget 0 h.f n.val) 0
      | .csr n => debugCsr s hart n.toNat write value)

/-- DEBUG_PROGRAM_BUFFER: the hart executes the word in debug mode at its next turn (Step.lean). -/
def execDebugProgramBuffer (hart : Nat) (w : IWord) (s : State) : Host.Outcome State Fault Refusal :=
  .next (if debugIdle s hart then dmError (updHart s hart fun h => { h with pbuf := some w }) 0 else dmError s 4)

end Sys2Proof.Machine
end

