-- ==== Sys2Proof/Machine/ErrorEv.lean ====
section
/-!
DEFINITION. Errors and spares (spec/13 R261, R262), the management cores (spec/13 R262), bring-up and power (spec/13 R263, spec/14
R275), and the loss of the host link (spec/14 R264).
-/
namespace Sys2Proof.Machine

/-! ### Errors -/

/-- An hour, in µs. -/
def hourUs : Nat := 3600000000

/-- CORRECTED_ERROR in a structure of a die, by its number: it counts in the die's error counter of that structure, by the hour. -/
def execCorrectedError (place : DiePart) (s : State) : Host.Outcome State Fault Refusal :=
  .next (updDie s place.die.val fun d =>
    let c : CorrCount := aget {} d.corr place.part
    let n : CorrCount := if c.since + hourUs ≤ s.us then { count := 1, since := s.us } else { c with count := c.count + 1 }
    { d with corr := aput d.corr place.part n })

/-- The gangs with a core on a die. -/
def gangsOn (s : State) (die : Nat) : List Gang :=
  (s.gangs.filter fun kv => (gangCoreList kv.2).any fun c => dieOfCore c == die).map (·.2)

/-- CORRECTED_ERROR_THRESHOLD: a structure's count above 1,024 in the hour is logged, once, in the context of each gang on the die. -/
def execCorrectedErrorThreshold (place : DiePart) (s : State) : Host.Outcome State Fault Refusal :=
  let die := place.die
  let c := aget {} (dieOf s die.val).corr place.part
  if c.count ≤ 1024 ∨ c.logged = true then .next s
  else
    let s := updDie s die.val fun d => { d with corr := aput d.corr place.part { c with logged := true } }
    .next ((gangsOn s die.val).foldl (fun s g =>
      let (a, s) := freshBits s 64
      logFault s g.ctxbase g.tid 51 0xFF 7 a (w64 c.count)) s)

/-- A core has an uncorrectable error: a spare replaces it at the next bind that names its position. -/
def retireCore (s : State) (core : Nat) : State :=
  updIo s fun io => if io.retiring.contains core then io else { io with retiring := io.retiring ++ [core] }

/-- The gang of a core ends with ENDHOW 2 and cause 51, stopped as the stub stops it. -/
def errorEnd (s : State) (core : Nat) : State :=
  match (coreOf s core).gang with
  | none => s
  | some seat =>
    let g := gangOf s seat
    match g.state with
    | .ending _ _ _ _ => s
    | _ => stopHarts (setGang s seat { g with state := .ending 51 0xFF 0 0 }) g

/-- UNCORRECTABLE_ERROR (spec/13 R252, R261; spec/11 R221, R232). -/
def execUncorrectableError (loc : ErrLoc) (s : State) : Host.Outcome State Fault Refusal :=
  .next (match loc with
    | .phys pa => if isStorage pa then setPoison s pa true else s
    | .tile core off => if core < 384 ∧ off < 0x100000 then retireCore (locSetPoison s (.tile core off) true) core else s
    | .sdm core off => if core < 384 ∧ off < 0x10000 then retireCore (locSetPoison s (.sdm core off) true) core else s
    | .coreState core => if core < 384 then errorEnd (retireCore s core) core else s
    | .piece bank elem => if bankQ s bank = [] then s else { s with bankErr := aput s.bankErr bank (elem + 1) }
    | .pkl u =>
      match aget [] s.pkl u with
      | j :: _ => if j.fin.isNone then pklEnd s u { j with park := none, fatal := none } 2 51 else s
      | [] => s
    | .readout core k n =>
      let sl := slotOf s core k
      match sl.state, sl.ctx with
      | .faulted, some c =>
        let s := retireCore (updSlot s core k fun x => { x with badLatch := if x.badLatch.contains n then x.badLatch else x.badLatch ++ [n] }) core
        logFault s c.ctxbase c.tid 51 (ghartOf s (8 * core + c.slot)) 3 sl.desc 0
      | _, _ => s)

/-- HBM_CHANNEL_SPARING: a stack has one spare pseudo-channel; what accesses see does not change. -/
def execHbmChannelSparing (stack : Fin 12) (channel : Fin 32) (s : State) : Host.Outcome State Fault Refusal :=
  .next (updIo s fun io =>
    if (aget? io.spareChan stack.val).isSome then io else { io with spareChan := aput io.spareChan stack.val (channel.val + 1) })

/-! ### Management cores -/

/-- Does a management core live? -/
def mgcLive (io : Io) (d : Nat) : Bool := io.booted && decide (d < 4) && !bitOf io.mgcDown.toNat d

/-- MGC_HEARTBEAT. -/
def execMgcHeartbeat (mgc : Nat) (s : State) : Host.Outcome State Fault Refusal :=
  .next (updIo s fun io => if mgcLive io mgc then { io with mgcLast := aput io.mgcLast mgc s.us } else io)

/-- Who takes over from a management core: its mate, or the lowest-numbered live one. -/
def mgcHeir (io : Io) (d : Nat) : Nat :=
  if mgcLive io (d ^^^ 1) then d ^^^ 1 else ((List.range 4).find? fun k => mgcLive io k).getD d

/-- MGC_TAKEOVER: after three missed heartbeats the supervisor resets a management core, and its duties go to another. -/
def execMgcTakeover (mgc : Nat) (s : State) : Host.Outcome State Fault Refusal :=
  .next (updIo s fun io =>
    if mgcLive io mgc && decide (aget 0 io.mgcLast mgc + 3000 ≤ s.us) then
      let io := { io with mgcDown := io.mgcDown ||| BitVec.ofNat 4 (2 ^ mgc), takeoverUs := some s.us }
      let heir := mgcHeir io mgc
      { io with mgcDuty := (List.range 4).foldl (fun m d => if aget d m d = mgc then aput m d heir else m) io.mgcDuty }
    else io)

/-! ### Bring-up and power -/

/-- POWER_ON: every volatile store starts at its reset value, and the ROM checks the stored bundle: its signatures, and its version
against the fused rollback counter. Where a check fails the supervisor stays in recovery, and no image runs. Retired positions and
spares that are in use are volatile too: each die has its 4 spares again (DESIGN CHOICE, notes/assumptions/41). The stored bundle is
the one of the last update, or one that another agent has put there while the power was off (notes/assumptions/41). -/
def execPowerOn (flash : Option (List (Nat × Byte))) (s : State) : Host.Outcome State Fault Refusal :=
  let b := flash.getD s.io.bundle
  let ok := Config.bundleOk b && decide (s.io.rollback ≤ Config.bundleVersion b)
  .next { State.reset with
    agenda := s.agenda, ctr := s.ctr
    io := { booted := ok, recovery := !ok, rollback := s.io.rollback, bundle := b, running := if ok then b else [] } }

/-- RESET_RELEASE: the compute dies leave reset once the ROM's checks have passed. -/
def execResetRelease (s : State) : Host.Outcome State Fault Refusal :=
  if s.io.released then .next s
  else
    let s := updIo s fun io => { io with released := true, mgcLast := if io.booted then (List.range 4).map fun d => (d, s.us) else [] }
    .next (if s.io.booted then (List.range 4).foldl (fun s d => updDie s d fun x => { x with powered := true }) s else s)

/-- THERMAL_SHUTDOWN: compute-die power is removed at 105 °C: what the compute dies hold is lost, and their management cores are down
(spec/01 Table 1-2). -/
def execThermalShutdown (s : State) : Host.Outcome State Fault Refusal :=
  .next { s with
    harts := [], cores := [], gangs := [], dies := [], binds := [], seatStat := [], waitUs := [], faults := [], fwQueue := [],
    walks := [], banks := [], cmds := [], bankErr := [], pkl := [], acqs := []
    io := { s.io with requeue := [], mgcDown := 0xF } }

/-! ### The link -/

/-- HOST_LINK_TRAINING: after firmware has started. -/
def execHostLinkTraining (s : State) : Host.Outcome State Fault Refusal :=
  .next (updIo s fun io => if io.booted && io.released then { io with linkUp := true } else io)

/-- An access of a hart to host memory that the loss of the link ends: the hart, the cause of its access fault, the address where it
is known, and the fault-log SRC. -/
structure LostAccess where
  hart : Nat
  cause : Nat
  va : Option Nat
  src : Nat

/-- The accesses of harts to host memory that are under way in a core: waiting ACQ requests, refills, reductions and buffered
stores. -/
def coreLost (s : State) (core : Nat) (r : CoreSt) : List LostAccess :=
  (s.acqs.filter fun q => coreOfHart q.hart == core && isHostMem q.obj).map (fun q => ⟨q.hart, 7, some q.va, 0⟩) ++
    (r.refills.filter fun f => f.locs.any fun l => locHost l.2).map (fun f => ⟨8 * core + f.slot, 5, none, 0⟩) ++
    (r.redq.filter fun u => locHost u.loc).map (fun u => ⟨8 * core + u.slot, 7, some u.va, 6⟩) ++
    (List.range 8).filterMap fun k =>
      ((hartOf s (8 * core + k)).wc.find? fun kv => isHostMem kv.1).map fun _ => ⟨8 * core + k, 7, none, 0⟩

/-- End the accesses of a core to host memory: its copies complete with STATUS 2, and what its harts have under way is dropped. -/
def dropHost (s : State) (core : Nat) : State :=
  let r := coreOf s core
  let s := r.copies.foldl (fun s kv =>
    if kv.2.stage == 0 && decide (0 < kv.2.rem) && kv.2.held.any fun h => locHost h.loc then copyAbort s core kv.1 kv.2 else s) s
  let s := r.refills.foldl (fun s f =>
    if f.locs.any fun l => locHost l.2 then
      let s := match f.arit with | some ix => aritLeave s core ix | none => s
      let s := releaseUnits s (dieOfCore core) f.weight
      updCore s core fun c => { c with refills := c.refills.erase f }
    else s) s
  let s := settleRt (updCore s core fun c => { c with redq := c.redq.filter fun u => !locHost u.loc }) core
  let s := { s with acqs := s.acqs.filter fun q => !(coreOfHart q.hart == core && isHostMem q.obj) }
  (List.range 8).foldl (fun s k =>
    if (hartOf s (8 * core + k)).wc = [] then s
    else updHart s (8 * core + k) fun h => { h with wc := h.wc.filter fun kv => !isHostMem kv.1 }) s

/-- One access per hart. -/
def onePer : List LostAccess → List LostAccess
  | [] => []
  | a :: r => a :: (onePer r).filter fun b => b.hart != a.hart

/-- A hart's lost access: cause 50 is logged in its context, and the hart takes an access fault; an address that the machine does not
keep is a free value. -/
def loseAccess (s : State) (a : LostAccess) : State :=
  let (v, s) := freshBits s 64
  let va : Word := match a.va with | some x => w64 x | none => v
  let c := hartCtx s a.hart
  takeException (logFault s c.ctxbase c.tid 50 (ghartOf s a.hart) a.src va 0) a.hart a.cause va

/-- LINK_DOWN: every access to host memory under way ends as an access fault at its source, and cause 50 is logged in each
context affected (spec/14 R264). A later access fails its translation; that of a chain's node or a stream has cause 50 (spec/08
R167). -/
def execLinkDown (s : State) : Host.Outcome State Fault Refusal :=
  let lost := onePer (s.cores.flatMap fun kv => coreLost s kv.1 kv.2)
  let s := (s.cores.map (·.1)).foldl dropHost (updIo s fun io => { io with linkUp := false, hostQ := [] })
  .next (lost.foldl loseAccess s)

end Sys2Proof.Machine
end

