-- ==== Sys2Proof/Machine/Mailbox.lean ====
section
/-!
DEFINITION. The mailbox (spec/14 R270, R271, Table 14-4): posting of replies and events, and the host's commands with the security
engine's key slots (spec/13 R258, R263).
-/
namespace Sys2Proof.Machine

/-! ### Bytes of physical memory for the firmware, under its own key (notes/assumptions/6) -/

def fwReadBytes (s : State) (pa n : Nat) : List Byte := (List.range n).map fun i => physByte s 0 (pa + i)
def fwWriteBytes (s : State) (pa : Nat) (bs : List Byte) : State :=
  ((List.range bs.length).zip bs).foldl (fun t p => physSetByte t 0 (pa + p.1) p.2) s
/-- Is a range storage? -/
def rangeOk (pa n : Nat) : Bool := decide (pa + n ≤ hbmEnd) || (decide (hostBase ≤ pa) && decide (pa + n ≤ peerBase))

/-! ### Posting -/

/-- MAILBOX_EVENT_POST: the oldest waiting entry goes to the firmware-to-host ring, where it is enabled and has room. -/
def execMailboxEventPost (s : State) : Host.Outcome State Fault Refusal :=
  match s.io.fhWait with
  | [] => .next s
  | ws :: rest =>
    if !ringRoom s fhRing then .next s
    else
      let wp := mbReg s fhRing.wp
      let a := ringAt s fhRing wp 64
      let word (i : Nat) : Nat := (ws.getD i 0).toNat
      let s' := updIo s fun io => { io with fhWait := rest }
      let s' := (List.range 7).foldl (fun t i => physWrite t 0 (a + 8 * (i + 1)) 8 (word (i + 1))) s'
      let s' := physWrite s' 0 a 8 (word 0)
      needHbm a 64 (.next (setMbReg s' fhRing.wp ((wp + 1) % 2 ^ 32)))

/-! ### Commands -/

/-- The command at the read pointer of the host-to-firmware ring: its eight words. -/
def mbCommand (s : State) : Option (List Nat) :=
  if s.io.booted && s.io.released && fwRuns s && ringEn s hfRing && mbReg s hfRing.wp != mbReg s hfRing.rp then
    let a := ringAt s hfRing (mbReg s hfRing.rp) 64
    some ((List.range 8).map fun i => physRead s 0 (a + 8 * i) 8)
  else none

/-- A REPLY: status and further words. -/
def mbReply (s : State) (c : List Nat) (status : Nat) (ws : List Nat) : State :=
  mailbox s (mbHead 0x8000 (8 * (ws.length + 1)) (fieldOf (c.headD 0) 63 32) :: w64 status :: ws.map w64)

/-- Take the command at the read pointer if it has a code: firmware advances HFRP, performs it and replies. A payload shorter than
the command's operands is a bad operand. -/
def mbRun (s : State) (isCode : Nat → Bool) (len : Nat) (f : State → List Nat → State × Nat × List Nat) :
    Host.Outcome State Fault Refusal :=
  match mbCommand s with
  | none => .next s
  | some c =>
    if !isCode (c.headD 0 % 2 ^ 16) then .next s
    else
      let t := setMbReg s hfRing.rp ((mbReg s hfRing.rp + 1) % 2 ^ 32)
      let (t, status, ws) := if fieldOf (c.headD 0) 31 16 < len then (t, 2, []) else f t c
      needHbm (ringAt s hfRing (mbReg s hfRing.rp) 64) 64 (.next (mbReply t c status ws))

/-- The SHA-512 digest of an image of the bundle that runs (spec/13 R263). -/
def runningDigest (s : State) (i : Nat) : Nat := sha512 (Config.bundleImage s.io.running i) 0 (Config.imageLen s.io.running i)

/-- The report of spec/13 R263 for a nonce and a tenant: its fields in the rule's order, packed (DESIGN CHOICE,
notes/assumptions/44), and the signature over them. -/
def attestation (s : State) (tid : Nat) (nonce : List Byte) : List Byte :=
  let body := bytesOf 4 0x9100 ++ bytesOf 2 0x00B0 ++
    (List.range Config.imageCount).flatMap (fun i => bytesOf 64 (runningDigest s i)) ++
    bytesOf 8 s.io.rollback ++ bytesOf 2 tid ++ nonce
  body ++ bytesOf 132 (Config.signature body).toNat

/-- The bytes of a report but for its signature, and with it. -/
def reportBody : Nat := 6 + 64 * Config.imageCount + 8 + 2 + 64
def reportLen : Nat := reportBody + 132

/-- The device whose engine signed a report, if any: this one, or another Ianum 9100. -/
def reportDevice (r : List Byte) : Option (BitVec 64) :=
  let body := r.take reportBody
  let sig := BitVec.ofNat 1056 (natOfBytes (r.drop reportBody))
  if sig = Config.signature body then some Config.serial else Config.signer body sig

/-- Is every firmware digest of a report on the list of the tenant that a key belongs to (spec/13 R258)? -/
def reportListed (key : Nat) (r : List Byte) : Bool :=
  (List.range Config.imageCount).all fun i =>
    Config.digestListed key (BitVec.ofNat 512 (natOfBytes ((r.drop (6 + 64 * i)).take 64)))

/-- The key that a wrapped key holds for this device: one of its own, or one that another device wrapped (spec/13 R258). The identity
of a foreign key is none of this device's. -/
def unwrapKey (s : State) (w : List Byte) : Option Nat :=
  let own : List Nat := (List.range s.io.keyCtr).map (· + 1) ++ s.io.keys.map fun (kv : Nat × Nat) => kv.2
  match own.find? fun k => w == Config.wrapKey (Config.keyBits k) Config.serial with
  | some k => some k
  | none => (Config.unwrapKey w).map fun n => clearKid + 1 + n

/-- ATTEST. The tenant that the report names is not an operand (notes/assumptions/6). -/
def execAttest (s : State) : Host.Outcome State Fault Refusal :=
  mbRun s (· == 1) 24 fun s c =>
    let nonce := c.getD 1 0
    let buf := c.getD 2 0
    if !rangeOk nonce 64 then (s, 2, [])
    else
      let (t, s) := freshBits s 12
      let r := attestation s t.toNat (fwReadBytes s nonce 64)
      if r.length > c.getD 3 0 || !rangeOk buf r.length then (s, 2, []) else (fwWriteBytes s buf r, 0, [])

/-- RETIRECORE. -/
def execRetirecore (s : State) : Host.Outcome State Fault Refusal :=
  mbRun s (· == 2) 8 fun s c =>
    let w := c.getD 1 0
    if w / 2 ^ 9 ≠ 0 ∨ 24 ≤ fieldOf w 8 4 then (s, 2, []) else (retireCore s (24 * fieldOf w 3 0 + fieldOf w 8 4), 0, [])

/-- HEARTBEAT: the mask of live management cores, and the ms since the last takeover, which is a free value before one. -/
def execHeartbeat (s : State) : Host.Outcome State Fault Refusal :=
  mbRun s (· == 3) 0 fun s _ =>
    let mask := (List.range 4).foldl (fun n d => if mgcLive s.io d then n + 2 ^ d else n) 0
    match s.io.takeoverUs with
    | some t => (s, 0, [mask, (s.us - t) / 1000])
    | none =>
      let (v, s) := freshBits s 64
      (s, 0, [mask, v.toNat])

/-- Load a key slot, or empty it with identity 0. -/
def setKey (s : State) (slot id : Nat) : State := updIo s fun io => { io with keys := aputC 0 io.keys slot id }

/-- Does an enabled partition window or host access table entry name a key slot? -/
def keyNamed (s : State) (slot : Nat) : Bool :=
  s.io.pwin.any (fun kv => kv.1 % 2 == 0 && bitOf kv.2.toNat 0 && (aget 0 s.io.wkey (kv.1 / 2)).toNat == slot) ||
    (List.range 16).any fun e => bitOf (aget 0 s.io.hat (4 * e)).toNat 0 && (aget 0 s.io.hat (4 * e + 2)).toNat % 8192 == slot

/-- KEYGEN: an empty slot takes a fresh key. -/
def execKeygen (s : State) : Host.Outcome State Fault Refusal :=
  mbRun s (· == 4) 8 fun s c =>
    let k := c.getD 1 0
    if 8192 ≤ k then (s, 2, [])
    else if keyId s k ≠ 0 then (s, 1, [])
    else
      let id := s.io.keyCtr + 1
      (setKey (updIo s fun io => { io with keyCtr := id }) k id, 0, [])

/-- The stores that a key slot's lines and buffers hold are performed, and the lines leave the caches. -/
def settleKey (s : State) (k : Nat) : State :=
  let s := (s.cores.map (·.1)).foldl (fun s c => flushLines s c fun _ l => l.key == k) s
  (s.harts.map (·.1)).foldl (fun s h => if (hartOf s h).wc.any fun kv => kv.2.2.1 == k then drainWc s h else s) s

/-- KEYERASE: refused while an enabled window or entry names the slot. Stores that cores have made under the slot are performed
first; a later access under it takes an access fault. -/
def execKeyerase (s : State) : Host.Outcome State Fault Refusal :=
  mbRun s (· == 5) 8 fun s c =>
    let k := c.getD 1 0
    if 8192 ≤ k then (s, 2, []) else if keyNamed s k then (s, 1, []) else (setKey (settleKey s k) k 0, 0, [])

/-- KEYEXPORT: a loaded slot's key, wrapped for the device of a report that verifies (spec/13 R258). -/
def execKeyexport (s : State) : Host.Outcome State Fault Refusal :=
  mbRun s (· == 6) 32 fun s c =>
    let k := c.getD 1 0
    let rep := c.getD 2 0
    let out := c.getD 3 0
    if 8192 ≤ k ∨ rangeOk rep reportLen = false then (s, 2, [])
    else
      let r := fwReadBytes s rep reportLen
      match (if keyId s k = 0 ∨ reportListed (keyId s k) r = false then none else reportDevice r) with
      | none => (s, 1, [])
      | some dev =>
        let w := Config.wrapKey (Config.keyBits (keyId s k)) dev
        if w.length > c.getD 4 0 || !rangeOk out w.length then (s, 2, []) else (fwWriteBytes s out w, 0, [])

/-- KEYIMPORT: an empty slot takes a wrapped key that verifies. -/
def execKeyimport (s : State) : Host.Outcome State Fault Refusal :=
  mbRun s (· == 7) 24 fun s c =>
    let k := c.getD 1 0
    let src := c.getD 2 0
    let n := c.getD 3 0
    if 8192 ≤ k ∨ rangeOk src n = false then (s, 2, [])
    else if keyId s k ≠ 0 then (s, 1, [])
    else match unwrapKey s (fwReadBytes s src (min n 0x100000)) with
      | some id => (setKey s k id, 0, [])
      | none => (s, 1, [])

/-- MAILBOX_RESERVED_CODE: status 2. -/
def execMailboxReservedCode (s : State) : Host.Outcome State Fault Refusal :=
  mbRun s (fun n => n == 0 || decide (8 ≤ n)) 0 fun s _ => (s, 2, [])

end Sys2Proof.Machine
end

