-- ==== Sys2Proof/Machine/HostEv.lean ====
section
/-!
DEFINITION. What the host does over the link (spec/14 R264 to R272): CXL.mem accesses, the dirty window, and the registers of BAR0
(Tables 14-1 to 14-3). Requests are served in link order; each event serves the request at the head if it is of its kind.
-/
namespace Sys2Proof.Machine

/-! ### Requests -/

/-- What a write to an offset of BAR0 does. -/
inductive RegKind where
  | mode | tidinv | retire | layout | lqWp | lqCtl | ringCtl | readPtr | plain
deriving DecidableEq, Repr

/-- The kind of an 8-byte aligned offset. -/
def regKind (o : Nat) : RegKind :=
  if o = 0x1000 then .mode
  else if o = 0x1008 then .tidinv
  else if o = 0x1010 then .retire
  else if 0x1100 ≤ o ∧ o < 0x1120 then .layout
  else if 0x10000 ≤ o ∧ o < 0x12000 then (if o / 8 % 4 = 2 then .lqWp else if o / 8 % 4 = 3 then .plain else .lqCtl)
  else if o = 0x20000 ∨ o = 0x20008 ∨ o = 0x20020 ∨ o = 0x20028 ∨ o = 0x20048 ∨ o = 0x20050 then .ringCtl
  else if o = 0x20038 ∨ o = 0x20060 then .readPtr
  else .plain

/-- The next register write of a kind, without it in the state: the host's at the head of the link's requests, else the oldest of the
device's side (spec/14 Table 14-1). With whether it is the device's, its offset and its value. -/
def nextWrite (s : State) (k : RegKind) : Option (State × Bool × Nat × Nat) :=
  let mine : Option (State × Bool × Nat × Nat) :=
    match s.io.devQ with
    | (o, v) :: r => if regKind o == k then some (updIo s fun io => { io with devQ := r }, true, o, v) else none
    | [] => none
  match s.io.hostQ with
  | .regWrite off v :: r =>
    let o := off / 8 * 8
    if s.io.linkUp && regKind o == k then some (updIo s fun io => { io with hostQ := r }, false, o, v.toNat) else mine
  | _ => mine

/-- Serve the next write of a kind; `f` is told whether it is the device's. -/
def onAnyWrite (s : State) (k : RegKind) (f : State → Bool → Nat → Nat → State) : Host.Outcome State Fault Refusal :=
  match nextWrite s k with
  | some (s, dev, o, v) => .next (f s dev o v)
  | none => .next s

/-- Serve the next write of a kind, which acts alike from either side. -/
def onWrite (s : State) (k : RegKind) (f : State → Nat → Nat → State) : Host.Outcome State Fault Refusal :=
  onAnyWrite s k fun s _ o v => f s o v

/-- Read data returns to the host. -/
def hostAnswer (s : State) (v : Word) : State := updIo s fun io => { io with hostOut := io.hostOut ++ [v] }

/-! ### Memory (spec/14 R265, Table 14-5) -/

def hatWord (s : State) (e w : Nat) : Nat := (aget 0 s.io.hat (4 * e + w)).toNat

/-- The first enabled entry that holds a frame. -/
def hatEntry (s : State) (frame : Nat) : Option Nat :=
  (List.range 16).find? fun e =>
    bitOf (hatWord s e 0) 0 && decide (fieldOf (hatWord s e 0) 51 12 ≤ frame) && decide (frame ≤ fieldOf (hatWord s e 1) 51 12)

/-- The key slot under which the host may access an address; none on a miss, a forbidden kind or an empty slot. -/
def hatKey (s : State) (pa : Nat) (wr : Bool) : Option Nat :=
  match hatEntry s (pa / 4096) with
  | some e =>
    let k := hatWord s e 2 % 8192
    if isHbm pa && bitOf (hatWord s e 0) (if wr then 2 else 1) && keyId s k != 0 then some k else none
  | none => none

/-- A miss goes to the mailbox. -/
def hatMiss (s : State) (pa : Nat) (wr : Bool) : State := mailbox s [mbHead 0x8003 16 0, w64 pa, if wr then 1 else 0]

/-- The `xdirty` values of the contexts whose tenant has an enabled window with the frame of an address (spec/06 R116). -/
def frameDirty (s : State) (pa : Nat) : List Word :=
  (s.gangs.filterMap fun kv =>
    let g := kv.2
    let own := (List.range 64).any fun n =>
      let a := pwinWord s g.tid n 0
      bitOf a 0 && decide (fieldOf a 51 12 ≤ pa / 4096) && decide (pa / 4096 ≤ fieldOf (pwinWord s g.tid n 1) 51 12)
    if own then some (hartOf s (gangHart g 0)).xc.dirty else none).dedup

/-- A host write of a word to HBM, performed at its home agent and tracked for each context that has the frame (spec/07 R146). -/
def hostHbmWrite (s : State) (key pa v : Nat) : State :=
  (frameDirty s pa).foldl (fun t xd => markDirty t xd pa) (homeWrite s 0 (.phys pa 0 key) 8 v)

/-- A host write of a word to its own memory, at the host-memory port (spec/07 R146), in the clear (spec/06 R111). -/
def hostOwnWrite (s : State) (pa v : Nat) : State := setPoison (killResv (physWrite s clearKid pa 8 v) (pa / 64) 1) pa false

/-- HOST_MEMORY_ACCESS: an aligned word at its home agent, or at the host-memory port. -/
def execHostMemoryAccess (s : State) : Host.Outcome State Fault Refusal :=
  match s.io.linkUp, s.io.hostQ with
  | true, .memRead a :: r =>
    let s := updIo s fun io => { io with hostQ := r }
    let pa := a / 8 * 8
    .next (if isHostMem pa then hostAnswer s (w64 (physRead s clearKid pa 8))
      else match hatKey s pa false with
        | some k => hostAnswer s (w64 (homeRead s (.phys pa 0 k) 8))
        | none => hostAnswer (hatMiss s pa false) (-1))
  | true, .memWrite a v :: r =>
    let s := updIo s fun io => { io with hostQ := r }
    let pa := a / 8 * 8
    .next (if isHostMem pa then hostOwnWrite s pa v.toNat
      else match hatKey s pa true with
        | some k => hostHbmWrite s k pa v.toNat
        | none => hatMiss s pa true)
  | _, _ => .next s

/-- DIRTY_HARVEST_READ (spec/14 R269): the bitmap word is returned and cleared in one step. -/
def execDirtyHarvestRead (s : State) : Host.Outcome State Fault Refusal :=
  match s.io.linkUp, s.io.hostQ with
  | true, .regRead off :: r =>
    let o := off / 8 * 8
    if !inDirtyWindow o then .next s
    else
      let (s, w) := harvest (updIo s fun io => { io with hostQ := r }) o
      .next (hostAnswer s w)
  | _, _ => .next s

/-! ### Control registers (spec/14 Table 14-2) -/

/-- MODE_WRITE: only while no gang is bound in the package (spec/12 R241). -/
def execModeWrite (s : State) : Host.Outcome State Fault Refusal :=
  onWrite s .mode fun s _ v => if s.gangs = [] then updIo s fun io => { io with mode := BitVec.ofNat 6 v } else s

/-- Remove every translation of a tenant. -/
def dropTenant (s : State) (tid : Nat) : State :=
  { s with
    cores := s.cores.map fun kv => (kv.1, { kv.2 with utlb := kv.2.utlb.filter fun e => e.tid != tid })
    dies := s.dies.map fun kv => (kv.1, { kv.2 with
      slices := kv.2.slices.map fun x => (x.1, x.2.filter fun e => e.tid != tid)
      pwc := kv.2.pwc.filter fun e => e.tid != tid }) }

/-- TIDINV (spec/14 R267): ignored while BUSY reads 1. -/
def execTidinv (s : State) : Host.Outcome State Fault Refusal :=
  onWrite s .tidinv fun s _ v =>
    if s.io.tidBusy then s
    else
      let s := updIo s fun io => { io with tidTid := BitVec.ofNat 12 v, tidBusy := bitOf v 31 }
      if bitOf v 31 then dropTenant s (v % 2 ^ 12) else s

/-- Is no access under way that uses a translation of a tenant: granted copies, bank pieces, refills and reductions? -/
def tenantIdle (s : State) (tid : Nat) : Bool :=
  s.cmds.all (fun kv => kv.2.tid != tid) && s.cores.all fun kv =>
    kv.2.copies.all (fun k => k.2.ctx.tid != tid || k.2.held.isEmpty) && kv.2.redq.all (fun u => u.ctx.tid != tid) &&
      kv.2.refills.all fun f => (hartCtx s (8 * kv.1 + f.slot)).tid != tid

/-- TIDINV_DRAINED: the buffered stores and the dirty lines of the tenant are written back, and BUSY reads 0. -/
def execTidinvDrained (s : State) : Host.Outcome State Fault Refusal :=
  let tid := s.io.tidTid.toNat
  if !s.io.tidBusy || !tenantIdle s tid then .next s
  else
    let s := (s.harts.map (·.1)).foldl (fun s h => if (hartCtx s h).tid = tid then drainWc s h else s) s
    let s := { s with acqs := s.acqs.filter fun q => (hartCtx s q.hart).tid != tid }
    let s := (s.cores.map (·.1)).foldl (fun s c => flushLines s c fun _ l => l.tid == tid) s
    .next (updIo s fun io => { io with tidBusy := false })

/-- Retire a context: its parked reductions are dropped and logged, its fault records discarded, and it exists no more. -/
def retireContext (s : State) (base : Nat) : State :=
  match aget? s.io.contexts base with
  | none => s
  | some c =>
    let s := (List.range 64).foldl (fun s e => if bitOf (areaRead s c.2 (parkedRedAddr base e) 8) 0 then dropRed s c.2 base e else s) s
    let gone := (s.faults.filter fun f => f.ctxbase == base).map (·.token)
    updIo { s with
        faults := s.faults.filter (fun f => f.ctxbase != base), fwQueue := s.fwQueue.filter fun q => !gone.contains q.2 }
      fun io => { io with contexts := adel io.contexts base }

/-- RETIRE (spec/14 R268): refused while a seat waits or runs with that CTXBASE. -/
def execRetire (s : State) : Host.Outcome State Fault Refusal :=
  onWrite s .retire fun s _ v =>
    let base := v / 4096 % 2 ^ 40 * 4096
    let s := updIo s fun io => { io with retCtx := w64 base }
    let live := s.seatStat.any fun kv => (seatState s kv.1 == 1 || seatState s kv.1 == 2) && seatCtxbase s kv.1 == base
    if bitOf v 0 && !live then retireContext s base else s

/-- An extent whose layout changes (spec/06 R101): every byte of it is unspecified until it is written (notes/assumptions/43). -/
def scrambleExtent (s : State) (x : Nat) : State :=
  let lo := x * 0xC0000000
  let hi := lo + 0xC0000000
  { s with
    mem := below s.mem lo ++ fromKey s.mem hi
    lineKey := below s.lineKey (lo / 64) ++ fromKey s.lineKey (hi / 64)
    poison := below s.poison (lo / 8) ++ fromKey s.poison (hi / 8)
    unspec := cutRange lo hi s.unspec ++ [(lo, hi, s.ctr)]
    ctr := s.ctr + 1 }

/-- EXTENT_LAYOUT_WRITE: after a change the extent's contents are unspecified. -/
def execExtentLayoutWrite (s : State) : Host.Outcome State Fault Refusal :=
  onWrite s .layout fun s o v =>
    let k := (o - 0x1100) / 8
    let old := s.io.layout.toNat
    let new := withField old (64 * k + 63) (64 * k) v
    let s := (List.range 64).foldl (fun s i =>
      if bitOf old (64 * k + i) == bitOf new (64 * k + i) then s else scrambleExtent s (64 * k + i)) s
    updIo s fun io => { io with layout := BitVec.ofNat 256 new }

/-! ### Launch queues (spec/14 R272) -/

def setLq (s : State) (q w v : Nat) : State := updIo s fun io => { io with lq := aputC 0 io.lq (4 * q + w) (w64 v) }

/-- LAUNCH_QUEUE_WP_WRITE: a write that advances WP past RP + 2^LOGN is ignored. -/
def execLaunchQueueWpWrite (s : State) : Host.Outcome State Fault Refusal :=
  onWrite s .lqWp fun s o v =>
    let q := (o - 0x10000) / 32
    let wp := v % 2 ^ 32
    if (wp + 2 ^ 32 - lqRp s q) % 2 ^ 32 ≤ 2 ^ lqLog s q then setLq s q 2 wp else s

/-- LAUNCH_QUEUE_CONTROL: words 0 and 1; while EN = 1 only a write that clears EN takes effect, and clears EN alone. -/
def execLaunchQueueControl (s : State) : Host.Outcome State Fault Refusal :=
  onWrite s .lqCtl fun s o v =>
    let q := (o - 0x10000) / 32
    let w := o / 8 % 4
    let new := if w = 0 then v &&& 0xFFFFFFFFFFFC0 else v &&& 0x8FFF000F
    if !lqEn s q then setLq s q w new
    else if w = 1 ∧ bitOf v 31 = false then setLq s q 1 (lqWord s q 1 &&& 0x7FFFFFFF)
    else s

/-! ### Mailbox rings (spec/14 R270) -/

/-- MAILBOX_RING_CONTROL: BASE and CTL of a ring; while EN = 1 only a write to CTL that clears EN takes effect, and clears EN
alone. -/
def execMailboxRingControl (s : State) : Host.Outcome State Fault Refusal :=
  onWrite s .ringCtl fun s o v =>
    let r := o - 0x20000
    let isCtl := r == 0x08 || r == 0x28 || r == 0x50
    let ctl := if isCtl then r else r + 8
    if !bitOf (mbReg s ctl) 31 then setMbReg s r (if isCtl then v &&& 0x8000000F else v &&& 0xFFFFFFFFFFFC0)
    else if isCtl && !bitOf v 31 then setMbReg s ctl (mbReg s ctl &&& 0x7FFFFFFF)
    else s

/-- HOST_READ_POINTER_WRITE: FHRP or FRRP. -/
def execHostReadPointerWrite (s : State) : Host.Outcome State Fault Refusal :=
  onWrite s .readPtr fun s o v => setMbReg s (o - 0x20000) (v % 2 ^ 32)

/-! ### Other registers -/

/-- A word of a bind record: from the host only in host-assisted scheduling mode (spec/12 R236, R241). While the record runs only
PREEMPT and VALID take effect (spec/12 R239). -/
def writeBind (s : State) (dev : Bool) (seat w v : Nat) : State :=
  if !dev && !bitOf s.io.mode.toNat 0 then s
  else if seatState s seat = 2 then
    if w ≠ 0 then s
    else
      let s := setBindW s seat 0 (withField (bindW s seat 0) 1 0 v)
      if bindPreempt v || !bindValid v then preemptSeat s seat else s
  else
    let s := setBindW s seat w v
    if w = 0 ∧ (bindPreempt v = true ∨ bindValid v = false) then preemptSeat s seat else s

/-- Write a word of the window key slots: four slots of 2 bytes. -/
def writeKeySlots (s : State) (i v : Nat) : State :=
  updIo s fun io => { io with
    wkey := (List.range 4).foldl (fun m k => aputC 0 m (4 * i + k) (BitVec.ofNat 13 (v >>> (16 * k)))) io.wkey }

/-- A register with no behaviour of its own but its mask; RO and reserved fields ignore the write (spec/00 R5). -/
def writePlain (s : State) (dev : Bool) (o v : Nat) : State :=
  if o = 0x1018 then updIo s fun io => { io with dsel := w64 (v &&& 0xFFFFFFFFFF000) }
  else if o = 0x20010 then setMbReg s 0x10 (v % 2 ^ 32)
  else if o = 0x20040 then replyOp s (w64 v)
  else if 0x30000 ≤ o ∧ o < 0x30200 then
    let w := o / 8 % 4
    let m := if w = 0 then 0xFFFFFFFFFF007 else if w = 1 then 0xFFFFFFFFFF000 else if w = 2 then 0x1FFF else 0
    updIo s fun io => { io with hat := aputC 0 io.hat ((o - 0x30000) / 8) (w64 (v &&& m)) }
  else if 0x40000 ≤ o ∧ o < 0x41800 then updIo s fun io => { io with peer := aputC 0 io.peer ((o - 0x40000) / 8) (w64 v) }
  else if 0x100000 ≤ o ∧ o < 0x118000 then writeBind s dev ((o - 0x100000) / 32) (o / 8 % 4) v
  else if 0x400000 ≤ o ∧ o < 0x800000 then
    updIo s fun io => { io with
      pwin := aputC 0 io.pwin ((o - 0x400000) / 8) (w64 (v &&& (if o / 8 % 2 = 0 then 0xFFFFFFFFFF007 else 0xFFFFFFFFFF000))) }
  else if 0x800000 ≤ o ∧ o < 0x880000 then writeKeySlots s ((o - 0x800000) / 8) v
  else s

/-- REGISTER_WRITE. -/
def execRegisterWrite (s : State) : Host.Outcome State Fault Refusal := onAnyWrite s .plain writePlain

/-! ### Register reads -/

/-- A request arrives: before the link has trained BAR0 reads as all ones, and nothing else answers (spec/14 R275). -/
def hostArrive (s : State) (r : HostReq) : State :=
  if s.io.linkUp then updIo s fun io => { io with hostQ := io.hostQ ++ [r] }
  else match r with
    | .regRead _ => hostAnswer s (-1)
    | _ => s

/-- Serve a register read at the head of the requests. -/
def hostRegRead (s : State) : State :=
  match s.io.linkUp, s.io.hostQ with
  | true, .regRead off :: r =>
    let o := off / 8 * 8
    if inDirtyWindow o then s else hostAnswer (updIo s fun io => { io with hostQ := r }) (readReg s o)
  | _, _ => s

end Sys2Proof.Machine
end

