-- ==== Sys2Proof/Machine/Mgmt.lean ====
section
/-!
DEFINITION. Management (spec/14 R274): PLDM over MCTP. The spec names the commands; their codes, states and payloads are those of
the PLDM standards it cites by name, and are presumed (notes/assumptions/8). A message is the MCTP message type (1), the PLDM header
of three bytes, and the payload. A message that arrives waits at the head of `mctpIn`; each event serves the head if it is of its
command.
-/
namespace Sys2Proof.Machine

def b8 (n : Nat) : Byte := BitVec.ofNat 8 n

/-- Is a message of a PLDM type and command, as a request or a response? -/
def pldmIs (m : List Byte) (request : Bool) (type cmd : Nat) : Bool :=
  (m.getD 0 0).toNat == 1 && bitOf (m.getD 1 0).toNat 7 == request && (m.getD 2 0).toNat % 64 == type && (m.getD 3 0).toNat == cmd

/-- A field of a message's payload, little-endian. -/
def pldmArg (m : List Byte) (o n : Nat) : Nat := natOfBytes ((List.range n).map fun i => m.getD (4 + o + i) 0)

/-- The header of the response to a request. -/
def pldmHead (m : List Byte) : List Byte := [1, m.getD 1 0 &&& 0x1F, m.getD 2 0, m.getD 3 0]

def mctpSend (s : State) (m : List Byte) : State := updIo s fun io => { io with mctpOut := io.mctpOut ++ [m] }

/-- Serve the request at the head, if it is of a type and command, once the ROM has run; the answer is a completion code and a
payload. -/
def pldmServe (s : State) (type cmd : Nat) (f : State → List Byte → State × Nat × List Byte) : Host.Outcome State Fault Refusal :=
  match s.io.mctpIn with
  | [] => .next s
  | m :: r =>
    if !(s.io.booted || s.io.recovery) || !pldmIs m true type cmd then .next s
    else
      let (s, code, p) := f (updIo s fun io => { io with mctpIn := r }) m
      .next (mctpSend s (pldmHead m ++ b8 code :: p))

/-- Outside the firmware update commands, a device in recovery answers that it is not ready (spec/13 R263). -/
def unlessRecovery (s : State) (p : List Byte) : State × Nat × List Byte := if s.io.recovery then (s, 4, []) else (s, 0, p)

/-! ### Base -/

/-- GET_TID. -/
def execGetTid (s : State) : Host.Outcome State Fault Refusal :=
  pldmServe s 0 2 fun s _ => unlessRecovery s [s.io.tid]
/-- GET_PLDM_VERSION. -/
def execGetPldmVersion (s : State) : Host.Outcome State Fault Refusal :=
  pldmServe s 0 3 fun s m => unlessRecovery s (Config.pldmPayload m)
/-- GET_PLDM_TYPES: base, monitoring, firmware update and OEM. -/
def execGetPldmTypes (s : State) : Host.Outcome State Fault Refusal :=
  pldmServe s 0 4 fun s _ => unlessRecovery s [0x25, 0, 0, 0, 0, 0, 0, 0x80]
/-- The commands of a type, as a bit map of 32 bytes. -/
def pldmCommandMap (type : Nat) : List Byte :=
  let cmds := if type = 0 then [2, 3, 4, 5] else if type = 2 then [0x11, 0x51]
    else if type = 5 then [0x10, 0x13, 0x14, 0x15, 0x16, 0x17, 0x18, 0x1A, 0x1B, 0x1D] else if type = 0x3F then [1] else []
  (List.range 32).map fun i => b8 ((cmds.filter fun c => c / 8 == i).foldl (fun n c => n + 2 ^ (c % 8)) 0)
/-- GET_PLDM_COMMANDS. -/
def execGetPldmCommands (s : State) : Host.Outcome State Fault Refusal :=
  pldmServe s 0 5 fun s m => unlessRecovery s (pldmCommandMap (pldmArg m 0 1))

/-! ### Monitoring -/

/-- GET_PDR. -/
def execGetPdr (s : State) : Host.Outcome State Fault Refusal :=
  pldmServe s 2 0x51 fun s m => unlessRecovery s (Config.pldmPayload m)
/-- GET_SENSOR_READING: a 32-bit reading of a sensor, which is enabled and normal. -/
def execGetSensorReading (s : State) : Host.Outcome State Fault Refusal :=
  pldmServe s 2 0x11 fun s m =>
    unlessRecovery s ([5, 0, 0, 1, 1, 1] ++ bytesOf 4 (Config.sensor (pldmArg m 0 2) s.us).toNat)

/-! ### Firmware update: 0 idle, 1 learn components, 2 ready, 3 download, 4 verify, 5 apply -/

/-- Move the update agent. -/
def fwTo (s : State) (st : Nat) : State := updIo s fun io => { io with fwState := st, fwPrev := io.fwState, fwAsked := false }

/-- REQUEST_UPDATE: from idle. -/
def execRequestUpdate (s : State) : Host.Outcome State Fault Refusal :=
  pldmServe s 5 0x10 fun s m =>
    if s.io.fwState ≠ 0 then (s, 0x81, [])
    else (updIo (fwTo s 1) fun io => { io with fwOff := 0, fwSize := 0, fwData := [], fwApplied := false }, 0, Config.pldmPayload m)
/-- PASS_COMPONENT_TABLE: the last one ends the learning of components. -/
def execPassComponentTable (s : State) : Host.Outcome State Fault Refusal :=
  pldmServe s 5 0x13 fun s m =>
    if s.io.fwState ≠ 1 then (s, 0x84, []) else (if bitOf (pldmArg m 0 1) 2 then fwTo s 2 else s, 0, [0, 0])
/-- UPDATE_COMPONENT: the size of the image is in bytes 9 to 12 of the payload. -/
def execUpdateComponent (s : State) : Host.Outcome State Fault Refusal :=
  pldmServe s 5 0x14 fun s m =>
    if s.io.fwState ≠ 2 then (s, 0x84, [])
    else (updIo (fwTo s 3) fun io => { io with fwSize := pldmArg m 9 4, fwOff := 0, fwData := [] }, 0, [0, 0] ++ bytesOf 4 0 ++ bytesOf 2 0)

/-- Send a message of the device's own. -/
def fwAsk (s : State) (cmd : Nat) (p : List Byte) : State := mctpSend s ([1, 0x80, 5, b8 cmd] ++ p)

/-- REQUEST_FIRMWARE_DATA: the device asks for the next part of the image, at most 64 bytes, and takes the answer. -/
def execRequestFirmwareData (s : State) : Host.Outcome State Fault Refusal :=
  if s.io.fwState ≠ 3 ∨ s.io.fwSize ≤ s.io.fwOff then .next s
  else if !s.io.fwAsked then
    .next (updIo (fwAsk s 0x15 (bytesOf 4 s.io.fwOff ++ bytesOf 4 (min 64 (s.io.fwSize - s.io.fwOff)))) fun io =>
      { io with fwAsked := true })
  else match s.io.mctpIn with
    | m :: r =>
      if !pldmIs m false 5 0x15 then .next s
      else
        let s := updIo s fun io => { io with mctpIn := r, fwAsked := false }
        let d := (m.drop 5).take (min 64 (s.io.fwSize - s.io.fwOff))
        .next (if (m.getD 4 0) ≠ 0 then s
          else updIo s fun io => { io with
            fwData := ((List.range d.length).zip d).foldl (fun t p => aputC 0 t (io.fwOff + p.1) p.2) io.fwData
            fwOff := io.fwOff + d.length })
    | [] => .next s

/-- TRANSFER_COMPLETE: the whole image has arrived. -/
def execTransferComplete (s : State) : Host.Outcome State Fault Refusal :=
  .next (if s.io.fwState = 3 ∧ s.io.fwSize ≤ s.io.fwOff then fwTo (fwAsk s 0x16 [0]) 4 else s)
/-- VERIFY_COMPLETE: the image's signatures and its version; a failed image goes no further. -/
def execVerifyComplete (s : State) : Host.Outcome State Fault Refusal :=
  .next (if s.io.fwState ≠ 4 ∨ s.io.fwAsked = true then s
    else if Config.bundleOk s.io.fwData && decide (s.io.rollback ≤ Config.bundleVersion s.io.fwData) then fwTo (fwAsk s 0x17 [0]) 5
    else updIo (fwAsk s 0x17 [1]) fun io => { io with fwAsked := true })
/-- APPLY_COMPLETE. -/
def execApplyComplete (s : State) : Host.Outcome State Fault Refusal :=
  .next (if s.io.fwState = 5 then updIo (fwTo (fwAsk s 0x18 [0, 0, 0]) 2) fun io => { io with fwApplied := true } else s)
/-- ACTIVATE_FIRMWARE: the applied image is the bundle of the next power-on. -/
def execActivateFirmware (s : State) : Host.Outcome State Fault Refusal :=
  pldmServe s 5 0x1A fun s _ =>
    if s.io.fwState ≠ 2 then (s, 0x84, [])
    else if !s.io.fwApplied then (s, 0x85, [])
    else (updIo (fwTo s 0) fun io => { io with bundle := io.fwData, fwApplied := false }, 0, [0, 0])
/-- GET_STATUS: the state, the previous state, and no auxiliary state. -/
def execGetStatus (s : State) : Host.Outcome State Fault Refusal :=
  pldmServe s 5 0x1B fun s _ => (s, 0, [b8 s.io.fwState, b8 s.io.fwPrev, 3, 0, 0, 0] ++ bytesOf 4 0)
/-- CANCEL_UPDATE: back to idle. -/
def execCancelUpdate (s : State) : Host.Outcome State Fault Refusal :=
  pldmServe s 5 0x1D fun s _ =>
    if s.io.fwState = 0 then (s, 0x80, [])
    else (updIo (fwTo s 0) fun io => { io with fwData := [], fwOff := 0, fwSize := 0, fwApplied := false }, 0, 0 :: bytesOf 8 0)

/-! ### Other messages -/

/-- Is a message a request that some event serves, or an answer that the update agent waits for? -/
def pldmKnown (m : List Byte) : Bool :=
  [(0, 2), (0, 3), (0, 4), (0, 5), (2, 0x51), (2, 0x11), (5, 0x10), (5, 0x13), (5, 0x14), (5, 0x1A), (5, 0x1B), (5, 0x1D),
    (0x3F, 1)].any (fun c => pldmIs m true c.1 c.2) || pldmIs m false 5 0x15

/-- Any other message is not supported: a request is answered so, and an answer is dropped (spec/14 R274). -/
def pldmOther (s : State) : State :=
  match s.io.mctpIn with
  | [] => s
  | m :: r =>
    if pldmKnown m then s
    else
      let s := updIo s fun io => { io with mctpIn := r }
      if bitOf (m.getD 1 0).toNat 7 then mctpSend s (pldmHead m ++ [5]) else s

/-! ### Attestation -/

/-- PLDM_OEM_ATTESTATION: a report over the 64-byte nonce of the request. -/
def execPldmOemAttestation (s : State) : Host.Outcome State Fault Refusal :=
  pldmServe s 0x3F 1 fun s m =>
    let (t, s) := freshBits s 12
    unlessRecovery s (attestation s t.toNat ((List.range 64).map fun i => m.getD (4 + i) 0))

end Sys2Proof.Machine
end

