-- ==== Sys2Proof/Machine/Ring.lean ====
section
/-!
DEFINITION. Message rings (spec/10 R207 to R209; spec/16 R320 to R323).
-/
namespace Sys2Proof.Machine

/-! ### Bytes at an address -/

/-- Translate n bytes at an address for the current hart, byte by byte. -/
def byteLocs (s : State) (k : AKind) (va n : Nat) : Except Exc (State × List Loc) :=
  if ownWaits s (myCore s) (mySlot s) va n (decide (k = .store)) then .error (.wait s)
  else
    (List.range n).foldlM (fun (acc : State × List Loc) i => do
      let a := (va + i) % 2 ^ 64
      let (s, l) ← myTranslate acc.1 k .plain a 24
      let s ← placeOrder s l
      if k = .load ∧ locPoisoned s l 1 = true then .error (.trap s 51 (w64 a)) else .ok (s, acc.2 ++ [l])) (s, [])

/-- Read n bytes of any alignment. -/
def readBytes (s : State) (va n : Nat) : Except Exc (State × Nat) := do
  let (s, ls) ← byteLocs s .load va n
  let (s, bs) := ls.foldl (fun (acc : State × List Byte) l =>
    let (s, v) := vecRead acc.1 l 1
    (s, acc.2 ++ [BitVec.ofNat 8 v])) (s, [])
  .ok (s, natOfBytes bs)

/-- Write n bytes of any alignment, once all of them translate. -/
def writeBytes (s : State) (va n v : Nat) : Except Exc State := do
  let (s, ls) ← byteLocs s .store va n
  .ok (ls.zipIdx.foldl (fun t p => vecWrite t p.1 1 (elemOf 8 v p.2)) s)

/-! ### The descriptor (spec/10 Table 10-7) -/

/-- A ring's descriptor as read. -/
structure Ring where
  base : Nat
  logsz : Nat
  nak : Bool
  init : Bool
  tail : Nat
  head : Nat
  resv : Bool      -- a reserved bit is set
deriving DecidableEq, Repr

def ringOf (r : Nat) : Ring :=
  let w1 := elemOf 64 r 1
  let w2 := elemOf 64 r 2
  ⟨elemOf 64 r 0, fieldOf w1 4 0, bitOf w1 5, bitOf w1 6, fieldOf w2 31 0, fieldOf w2 63 32,
    w1 / 128 != 0 || elemOf 64 r 3 != 0⟩

/-- A tile location, if the address lies in the own or a gang tile window. -/
def tileAt (s : State) (va : Nat) : Option Loc :=
  match regionOf s (myCore s) va with
  | .local_ (.tile c o) => some (.tile c o)
  | _ => none

/-- The descriptor's location: its alignment, then its place (spec/16 R320). -/
def ringLoc (s : State) (va : Nat) : Except Exc Loc :=
  if va % 32 ≠ 0 then .error (.trap s 6 (w64 va))
  else match tileAt s va with
    | none => .error (.trap s 7 (w64 va))
    | some l =>
      if ownWaits s (myCore s) (mySlot s) va 32 true then .error (.wait s)
      else if locPoisoned s l 32 then .error (.trap s 51 (w64 va)) else .ok l

/-- Write TAIL and HEAD. -/
def setPtrs (s : State) (l : Loc) (tail head : Nat) : State :=
  homeWrite s 0 (locAdd l 16) 8 (tail % 2 ^ 32 + head % 2 ^ 32 * 2 ^ 32)

/-- MSGRING (spec/10 R207). -/
def execMsgring (a : RegIx) (s : State) : Host.Outcome State Fault Refusal :=
  let i : Instr := .msgring a
  finish i (do
    let l ← ringLoc s (rdX s a).toNat
    let r := ringOf (homeRead s l 32)
    orTrap (decide (8 ≤ r.logsz) && decide (r.logsz ≤ 20) && r.base % 2 ^ r.logsz == 0 && (tileAt s r.base).isSome && !r.resv)
      s 28 (wordOf i)
    let s := setPtrs s l 0 0
    .ok (nextPc (homeWrite s 0 (locAdd l 8) 8 (r.logsz + (if r.nak then 32 else 0) + 64))))

/-- Bytes of a record with a payload of n bytes. -/
def recBytes (n : Nat) : Nat := 8 + roundUp n 8

/-- A record's header. -/
def recHeader (len kind : Nat) : Nat := len % 2 ^ 24 + kind * 2 ^ 24

/-- MSGSND (spec/10 R208, spec/16 R321). As a release at gang scope it is not performed before the hart's matrix instructions
are complete (spec/09 R190), and it performs what the write-combining buffers hold (spec/07 R136). -/
def execMsgsnd (b a d : RegIx) (s : State) : Host.Outcome State Fault Refusal :=
  let i : Instr := .msgsnd b a d
  finish i (do
    let l ← ringLoc s (rdX s a).toNat
    let r := ringOf (homeRead s l 32)
    let len := (rdX s d).toNat
    orTrap r.init s 28 (wordOf i)
    orTrap (len != 0 && decide (len < 2 ^ 24)) s 28 (wordOf i)
    let size := 2 ^ r.logsz
    let need := recBytes len
    orTrap (decide (need ≤ size)) s 28 (wordOf i)
    let (s, pay) ← readBytes s (rdX s b).toNat len
    if engineBlocks s s.cur then .error (.wait s)
    else
    let off := r.tail % size
    let used := (r.tail + 2 ^ 32 - r.head) % 2 ^ 32
    let pad := if off + need > size then size - off else 0
    if pad + need > size - used then
      if r.nak then .ok (nextPc (updX (wrX s d 0) fun x => { x with vl := 0 })) else .error (.wait s)
    else match tileAt s r.base with
      | none => .error (.trap s 7 (w64 r.base))
      | some base =>
        let s := drainWc s s.cur
        let s := if pad = 0 then s else homeWrite s 0 (locAdd base off) 8 (recHeader (pad - 8) 2)
        let off := if pad = 0 then off else 0
        let s := homeWrite s 0 (locAdd base (off + 8)) (need - 8) pay
        let s := homeWrite s 0 (locAdd base off) 8 (recHeader len 1)
        let s := setPtrs s l (r.tail + pad + need) r.head
        .ok (nextPc (updX (wrX s d (w64 len)) fun x => { x with vl := w64 len })))

/-- HEAD after the pad records. The counter bounds them. -/
def skipPads : Nat → State → Loc → Nat → Nat → Nat → Nat
  | 0, _, _, _, _, head => head
  | n + 1, s, base, size, tail, head =>
    if head = tail then head
    else
      let w := homeRead s (locAdd base (head % size)) 8
      if fieldOf w 31 24 = 2 then skipPads n s base size tail ((head + recBytes (fieldOf w 23 0)) % 2 ^ 32) else head

/-- MSGRCV (spec/10 R209, spec/16 R322). -/
def execMsgrcv (b a d : RegIx) (s : State) : Host.Outcome State Fault Refusal :=
  let i : Instr := .msgrcv b a d
  finish i (do
    let l ← ringLoc s (rdX s a).toNat
    let r := ringOf (homeRead s l 32)
    let cap := (rdX s d).toNat
    orTrap r.init s 28 (wordOf i)
    orTrap (decide (cap < 2 ^ 24)) s 28 (wordOf i)
    match tileAt s r.base with
    | none => .error (.trap s 7 (w64 r.base))
    | some base =>
      let size := 2 ^ r.logsz
      let head := skipPads 2 s base size r.tail r.head
      let s := if head = r.head then s else setPtrs s l r.tail head
      if head = r.tail then
        if r.nak then .ok (nextPc (wrX s d (w64 (2 ^ 64 - 1)))) else .error (.wait s)
      else
        let o := head % size
        let len := fieldOf (homeRead s (locAdd base o) 8) 23 0
        if cap < len then .ok (nextPc (wrX s d (w64 (len + 2 ^ 63))))
        else
          let s ← writeBytes s (rdX s b).toNat len (homeRead s (locAdd base (o + 8)) len)
          let s := setPtrs s l r.tail (head + recBytes len)
          .ok (nextPc (updX (wrX (acquireAll s) d (w64 len)) fun x => { x with vl := w64 len })))

end Sys2Proof.Machine
end

