-- ==== Sys2Proof/Machine/Scalar.lean ====
section
/-!
DEFINITION. The scalar RISC-V instructions of the profile (spec/00 Table 0-1, spec/05 R77; RISC-V unprivileged ISA): RV64I, M,
F, D, Zba, Zbb, loads and stores, and the A extension at the sole writer (spec/07 R132, R134).
-/
namespace Sys2Proof.Machine

/-! ### Integer operations -/

/-- A 32-bit result sign-extended. -/
def sext32 (n : Nat) : Word := sext64 32 n

/-- A 12-bit immediate sign-extended. -/
def imm12 (i : BitVec 12) : Word := i.signExtend 64

/-- Signed division with the standard's corners: by zero all ones, and the overflow wraps. -/
def sdivW (w a b : Nat) : Nat :=
  let x := sInt w a
  let y := sInt w b
  if y = 0 then 2 ^ w - 1 else wrapInt w (x.tdiv y)

/-- Signed remainder: by zero the dividend. -/
def sremW (w a b : Nat) : Nat :=
  let x := sInt w a
  let y := sInt w b
  if y = 0 then a % 2 ^ w else wrapInt w (x.tmod y)

/-- Unsigned division and remainder. -/
def udivW (w a b : Nat) : Nat := if b % 2 ^ w = 0 then 2 ^ w - 1 else a % 2 ^ w / (b % 2 ^ w)
def uremW (w a b : Nat) : Nat := if b % 2 ^ w = 0 then a % 2 ^ w else a % 2 ^ w % (b % 2 ^ w)

/-- Rotate left in w bits. -/
def rolW (w a k : Nat) : Nat := (a % 2 ^ w * 2 ^ (k % w) + a % 2 ^ w / 2 ^ (w - k % w)) % 2 ^ w

/-- OP operations (RV64I, M, Zba, Zbb). -/
def regOp (o : RegOp) (x y : Word) : Word :=
  let a := x.toNat
  let b := y.toNat
  match o with
  | .add => x + y
  | .sub => x - y
  | .sll => x <<< (b % 64)
  | .slt => if x.slt y then 1 else 0
  | .sltu => if x.ult y then 1 else 0
  | .xor => x ^^^ y
  | .srl => x >>> (b % 64)
  | .sra => x.sshiftRight (b % 64)
  | .or => x ||| y
  | .and => x &&& y
  | .mul => x * y
  | .mulh => w64 (wrapInt 64 (x.toInt * y.toInt / (2 ^ 64 : Nat)))
  | .mulhsu => w64 (wrapInt 64 (x.toInt * (b : Int) / (2 ^ 64 : Nat)))
  | .mulhu => w64 (a * b / 2 ^ 64)
  | .div => w64 (sdivW 64 a b)
  | .divu => w64 (udivW 64 a b)
  | .rem => w64 (sremW 64 a b)
  | .remu => w64 (uremW 64 a b)
  | .sh1add => (x <<< 1) + y
  | .sh2add => (x <<< 2) + y
  | .sh3add => (x <<< 3) + y
  | .andn => x &&& ~~~y
  | .orn => x ||| ~~~y
  | .xnor => ~~~(x ^^^ y)
  | .max => if x.slt y then y else x
  | .maxu => if x.ult y then y else x
  | .min => if y.slt x then y else x
  | .minu => if y.ult x then y else x
  | .rol => w64 (rolW 64 a (b % 64))
  | .ror => w64 (rolW 64 a (64 - b % 64))

/-- OP-32 operations. -/
def regWOp (o : RegWOp) (x y : Word) : Word :=
  let a := x.toNat % 2 ^ 32
  let b := y.toNat % 2 ^ 32
  match o with
  | .addw => sext32 (a + b)
  | .subw => sext32 (a + 2 ^ 32 - b)
  | .sllw => sext32 (a * 2 ^ (b % 32))
  | .srlw => sext32 (a / 2 ^ (b % 32))
  | .sraw => sext32 (wrapInt 32 (sInt 32 a / (2 ^ (b % 32) : Nat)))
  | .mulw => sext32 (a * b)
  | .divw => sext32 (sdivW 32 a b)
  | .divuw => sext32 (udivW 32 a b)
  | .remw => sext32 (sremW 32 a b)
  | .remuw => sext32 (uremW 32 a b)
  | .addUw => w64 a + y
  | .sh1addUw => (w64 a <<< 1) + y
  | .sh2addUw => (w64 a <<< 2) + y
  | .sh3addUw => (w64 a <<< 3) + y
  | .rolw => sext32 (rolW 32 a (b % 32))
  | .rorw => sext32 (rolW 32 a (32 - b % 32))

/-- OP-IMM operations. -/
def immOp (o : ImmOp) (x : Word) (imm : Word) : Word :=
  match o with
  | .addi => x + imm
  | .slti => if x.slt imm then 1 else 0
  | .sltiu => if x.ult imm then 1 else 0
  | .xori => x ^^^ imm
  | .ori => x ||| imm
  | .andi => x &&& imm

/-- Shifts by an immediate. -/
def shImmOp (o : ShImmOp) (x : Word) (k : Nat) : Word :=
  match o with
  | .slli => x <<< k
  | .srli => x >>> k
  | .srai => x.sshiftRight k
  | .rori => w64 (rolW 64 x.toNat (64 - k))
  | .slliUw => w64 (x.toNat % 2 ^ 32) <<< k

/-- Word shifts by an immediate. -/
def shImmWOp (o : ShImmWOp) (x : Word) (k : Nat) : Word :=
  let a := x.toNat % 2 ^ 32
  match o with
  | .slliw => sext32 (a * 2 ^ k)
  | .srliw => sext32 (a / 2 ^ k)
  | .sraiw => sext32 (wrapInt 32 (sInt 32 a / (2 ^ k : Nat)))
  | .roriw => sext32 (rolW 32 a (32 - k))

/-- Leading zeros of a w-bit number. -/
def clzW (w n : Nat) : Nat := if n % 2 ^ w = 0 then w else w - 1 - Nat.log2 (n % 2 ^ w)
/-- Trailing zeros. -/
def ctzW (w n : Nat) : Nat := ((List.range w).find? fun i => bitOf n i).getD w
/-- Set bits. -/
def cpopW (w n : Nat) : Nat := ((List.range w).filter fun i => bitOf n i).length

/-- Zbb operations of one operand. -/
def unOp (o : UnOp) (x : Word) : Word :=
  let a := x.toNat
  match o with
  | .clz => w64 (clzW 64 a)
  | .ctz => w64 (ctzW 64 a)
  | .cpop => w64 (cpopW 64 a)
  | .clzw => w64 (clzW 32 a)
  | .ctzw => w64 (ctzW 32 a)
  | .cpopw => w64 (cpopW 32 a)
  | .sextB => sext64 8 a
  | .sextH => sext64 16 a
  | .zextH => w64 (a % 2 ^ 16)
  | .orcB => w64 (packElems 8 ((List.range 8).map fun i => if elemOf 8 a i = 0 then 0 else 255))
  | .rev8 => w64 (packElems 8 ((List.range 8).map fun i => elemOf 8 a (7 - i)))

/-- Is a branch taken? -/
def brTaken (o : BrOp) (x y : Word) : Bool :=
  match o with
  | .beq => x == y
  | .bne => x != y
  | .blt => x.slt y
  | .bge => !x.slt y
  | .bltu => x.ult y
  | .bgeu => !x.ult y

/-- Jump, or raise at a target that is no multiple of 4 (spec/05 R76). -/
def jumpTo (s : State) (t : Word) : Except Exc State :=
  if t.toNat % 4 ≠ 0 then .error (.trap s 0 t) else .ok (updMe s fun h => { h with pc := t })

/-! ### Floating point (F and D) -/

/-- The format of a precision. -/
def precFmt : FPrec → Fmt
  | .s => .fp32
  | .d => .fp64

/-- An operand's bits, unboxed. -/
def fBits (s : State) (p : FPrec) (r : RegIx) : Nat :=
  match p with
  | .s => unboxS (rdF s r)
  | .d => (rdF s r).toNat

/-- An operand's value. -/
def fVal (s : State) (p : FPrec) (r : RegIx) : FVal := elemVal (precFmt p) 0 (fBits s p r) 0 0

/-- A result boxed for the register. -/
def fBox (p : FPrec) (n : Nat) : Word :=
  match p with
  | .s => boxS n
  | .d => w64 n

/-- Write a floating-point result with its flags. -/
def fDone (s : State) (p : FPrec) (rd : RegIx) (n fl : Nat) : Res :=
  .ok (nextPc (updMe (wrF s rd (fBox p n)) fun h => orFFlags h (ieeeFlags fl)))

/-- Write an integer result with its flags. -/
def fDoneX (s : State) (rd : RegIx) (v : Word) (fl : Nat) : Res :=
  .ok (nextPc (updMe (wrX s rd v) fun h => orFFlags h (ieeeFlags fl)))

/-- Is the floating-point unit off: FS = 0 in `mstatus` (privileged architecture 1.12)? -/
def fsOff (s : State) : Bool := fieldOf (me s).pr.mstatus.toNat 14 13 == 0

/-- The rounding mode of a static field, 111 taking `frm`; an invalid mode in `frm` is illegal. -/
def fRound (s : State) (i : Instr) (rm : FRm) : Except Exc Rnd :=
  let n := if rm.toNat = 7 then fieldOf (me s).fcsr.toNat 7 5 else rm.toNat
  if n ≤ 4 then .ok (rndOfCode n) else illegal s i

/-- Round a result into a precision. -/
def fNarrow (p : FPrec) (rm : Rnd) (x : FOut) : Nat × Nat := narrow (specOf (precFmt p)) rm 0 x

/-- Width and signedness of an FCVT integer type. -/
def fIntTy : FIntTy → Nat × Bool
  | .w => (32, true) | .wu => (32, false) | .l => (64, true) | .lu => (64, false)

/-- A value as an integer under F and D: out of range and NaN give the nearest bound, NaN the largest, with NV. -/
def fToInt (w : Nat) (sg : Bool) (rm : Rnd) (v : FVal) : Nat × Nat :=
  match v with
  | .nan _ => (if sg then 2 ^ (w - 1) - 1 else 2 ^ w - 1, flNV)
  | v =>
    let (r, fl) := narrowInt w sg rm 0 (foutOf v)
    (r, if fl &&& flNV = 0 then fl else flNV)

/-- FCLASS's ten bits. -/
def fClass (f : FSpec) (bits : Nat) : Nat :=
  let v := fdecode f bits
  let sub := bits / 2 ^ f.mb % 2 ^ f.eb == 0
  match v with
  | .nan s => if s then 2 ^ 8 else 2 ^ 9
  | .inf s => if s then 1 else 2 ^ 7
  | .fin s m _ =>
    if m = 0 then (if s then 2 ^ 3 else 2 ^ 4)
    else if sub then (if s then 2 ^ 2 else 2 ^ 5)
    else if s then 2 else 2 ^ 6

/-- Sign injection, minimum and maximum: the result bits and flags. -/
def fMisc (o : FMiscOp) (p : FPrec) (a b : Nat) : Nat × Nat :=
  let k := match p with | .s => 31 | .d => 63
  let sgn (n : Nat) := n / 2 ^ k % 2
  let put (s : Nat) := a % 2 ^ k + s * 2 ^ k
  let x := elemVal (precFmt p) 0 a 0 0
  let y := elemVal (precFmt p) 0 b 0 0
  match o with
  | .sgnj => (put (sgn b), 0)
  | .sgnjn => (put (1 - sgn b), 0)
  | .sgnjx => (put ((sgn a + sgn b) % 2), 0)
  | .min => ((fNarrow p .rne (foutOf (fMinMax false x y))).1, sigFlags [x, y])
  | .max => ((fNarrow p .rne (foutOf (fMinMax true x y))).1, sigFlags [x, y])

/-- A fused operation's exact result. -/
def fFma (o : FmaOp) (rm : Rnd) (a b c : FVal) : FOut × Nat :=
  match o with
  | .madd => ffmaV rm a b c
  | .msub => ffmaV rm a b (fneg c)
  | .nmsub => ffmaV rm (fneg a) b c
  | .nmadd => ffmaV rm (fneg a) b (fneg c)

/-- A two-operand operation's exact result. -/
def fArith (o : FArithOp) (rm : Rnd) (a b : FVal) : FOut × Nat :=
  match o with
  | .add => faddV rm a b
  | .sub => faddV rm a (fneg b)
  | .mul => fmulV a b
  | .div => fdivV a b

/-- A comparison: FEQ is quiet, FLT and FLE signal. -/
def fCmp (o : FCmpOp) (a b : FVal) : Bool × Nat :=
  match o with
  | .eq => fcmpHolds .eq a b
  | .lt => fcmpHolds .lt a b
  | .le => fcmpHolds .le a b

/-- Is the instruction one that needs the floating-point unit? -/
def baseIsFp : BaseInstr → Bool
  | .fma _ _ _ _ _ _ _ | .farith _ _ _ _ _ _ | .fsqrt _ _ _ _ | .fmisc _ _ _ _ _ | .fcmp _ _ _ _ _ | .fclass _ _ _
  | .fcvtToInt _ _ _ _ _ | .fcvtFromInt _ _ _ _ _ | .fcvtFF _ _ _ _ | .fmvToX _ _ _ | .fmvFromX _ _ _ => true
  | _ => false

/-! ### Loads and stores -/

/-- Bytes of a load and its extension. -/
def loadShape : LoadKind → Nat × Bool
  | .lb => (1, true) | .lh => (2, true) | .lw => (4, true) | .ld => (8, true)
  | .lbu => (1, false) | .lhu => (2, false) | .lwu => (4, false) | .flw => (4, false) | .fld => (8, false)

/-- SCALAR_LOAD (spec/06 R97, R102). -/
def execScalarLoad (k : LoadKind) (rd rs1 : RegIx) (imm : BitVec 12) (s : State) : Host.Outcome State Fault Refusal :=
  let i : Instr := .scalarLoad k rd rs1 imm
  finish i (do
    orIllegal (!((k == .flw || k == .fld) && fsOff s)) s i
    let (n, sg) := loadShape k
    let (s, v) ← scalarRead s (rdX s rs1 + imm12 imm).toNat n
    match k with
    | .flw => .ok (nextPc (wrF s rd (boxS v)))
    | .fld => .ok (nextPc (wrF s rd (w64 v)))
    | _ => .ok (nextPc (wrX s rd (if sg then sext64 (8 * n) v else w64 v))))

/-- Bytes of a store. -/
def storeBytes : StoreKind → Nat
  | .sb => 1 | .sh => 2 | .sw => 4 | .sd => 8 | .fsw => 4 | .fsd => 8

/-- SCALAR_STORE (spec/06 R97, R102). -/
def execScalarStore (k : StoreKind) (rs2 rs1 : RegIx) (imm : BitVec 12) (s : State) : Host.Outcome State Fault Refusal :=
  let i : Instr := .scalarStore k rs2 rs1 imm
  finish i (do
    let fp := k == .fsw || k == .fsd
    orIllegal (!(fp && fsOff s)) s i
    let v := (if fp then rdF s rs2 else rdX s rs2).toNat
    let s ← scalarWrite s (rdX s rs1 + imm12 imm).toNat (storeBytes k) v
    .ok (nextPc s))

/-! ### The A extension -/

/-- The value an AMO writes. -/
def amoNew (o : AmoOp) (w m d : Nat) : Nat :=
  match o with
  | .swap => d
  | .add => (m + d) % 2 ^ w
  | .xor => m ^^^ d
  | .and => m &&& d
  | .or => m ||| d
  | .min => opMin false w 0 m d
  | .max => opMax false w 0 m d
  | .minu => opMin true w 0 m d
  | .maxu => opMax true w 0 m d

/-- The release and acquire parts around an atomic. -/
def amoRelease (s : State) (rl : Bool) (va : Nat) : Except Exc State := if rl then atomicRel s va else .ok s
def amoAcquire (s : State) (aq : Bool) (va : Nat) : State := if aq then atomicAcq s va else s

/-- SCALAR_AMO (spec/07 R132, R134). -/
def execScalarAmo (op : AmoOp) (dbl aq rl : Bool) (rd rs1 rs2 : RegIx) (s : State) : Host.Outcome State Fault Refusal :=
  let i : Instr := .scalarAmo op dbl aq rl rd rs1 rs2
  finish i (do
    let n := if dbl then 8 else 4
    let va := (rdX s rs1).toNat
    let d := (rdX s rs2).toNat % 2 ^ (8 * n)
    if va % n ≠ 0 then .error (.trap s 6 (w64 va))
    else
      let (s, l) ← myTranslate s .store .atomic va 24
      let s ← myOrder s va n true l
      if locPoisoned s l n then .error (.trap s 51 (w64 va))
      else
        let s ← amoRelease s rl va
        let s := flushLoc s (myCore s) l
        let m := homeRead s l n
        let s := homeWrite s (hartCtx s s.cur).dirty l n (amoNew op (8 * n) m d)
        .ok (nextPc (wrX (amoAcquire s aq va) rd (sext64 (8 * n) m))))

/-- LR (spec/07 R132; spec/06 R102): the reservation covers the 64-byte granule. -/
def execLr (dbl aq rl : Bool) (rd rs1 : RegIx) (s : State) : Host.Outcome State Fault Refusal :=
  let i : Instr := .lr dbl aq rl rd rs1
  finish i (do
    let n := if dbl then 8 else 4
    let va := (rdX s rs1).toNat
    if va % n ≠ 0 then .error (.trap s 4 (w64 va))
    else
      let (s, l) ← myTranslate s .load .atomic va 24
      let s ← myOrder s va n false l
      if locPoisoned s l n then .error (.trap s 51 (w64 va))
      else
        let s ← amoRelease s rl va
        let s := flushLoc s (myCore s) l
        let m := homeRead s l n
        let s := updMe (amoAcquire s aq va) fun h => { h with resv := some (granOf l) }
        .ok (nextPc (wrX s rd (sext64 (8 * n) m))))

/-- SC (spec/07 R132): it succeeds, with 0, while the reservation on its granule stands; else it writes 1 and stores
nothing. Either way the reservation ends. -/
def execSc (dbl aq rl : Bool) (rd rs1 rs2 : RegIx) (s : State) : Host.Outcome State Fault Refusal :=
  let i : Instr := .sc dbl aq rl rd rs1 rs2
  finish i (do
    let n := if dbl then 8 else 4
    let va := (rdX s rs1).toNat
    let d := (rdX s rs2).toNat % 2 ^ (8 * n)
    if va % n ≠ 0 then .error (.trap s 6 (w64 va))
    else
      let (s, l) ← myTranslate s .store .atomic va 24
      let s ← myOrder s va n true l
      let s ← amoRelease s rl va
      let s := flushLoc s (myCore s) l
      if (me s).resv = some (granOf l) then
        let s := homeWrite s (hartCtx s s.cur).dirty l n d
        let s := updMe (amoAcquire s aq va) fun h => { h with resv := none }
        .ok (nextPc (wrX s rd 0))
      else
        .ok (nextPc (wrX (updMe s fun h => { h with resv := none }) rd 1)))

/-! ### The base instructions -/

/-- The instructions that raise, return or wait: EBREAK, MRET, SRET, WFI (privileged architecture 1.12). WFI may complete
at once, and does. -/
def baseSystem (i : Instr) (b : BaseInstr) (s : State) : Res :=
  let h := me s
  let st := h.pr.mstatus.toNat
  match b with
  | .ebreak =>
    if inDebug h then .error (.stop s)
    else if ebreakDebug h then .error (.stop (updMe s fun h => enterDebug h 1))
    else .error (.trap s 3 h.pc)
  | .mret => if h.priv = .m then .ok (updMe (withdrawLeave s s.cur) leaveM) else illegal s i
  | .sret =>
    if h.priv = .u ∨ (h.priv = .s ∧ bitOf st 22 = true) then illegal s i else .ok (updMe (withdrawLeave s s.cur) leaveS)
  | _ => .ok (nextPc s)

/-- The floating-point instructions. -/
def baseFp (i : Instr) (b : BaseInstr) (s : State) : Res :=
  match b with
  | .fma o p rd a b c rm => do
    let r ← fRound s i rm
    let (x, fl) := fFma o r (fVal s p a) (fVal s p b) (fVal s p c)
    let (n, fl2) := fNarrow p r x
    fDone s p rd n (fl ||| fl2)
  | .farith o p rd a b rm => do
    let r ← fRound s i rm
    let (x, fl) := fArith o r (fVal s p a) (fVal s p b)
    let (n, fl2) := fNarrow p r x
    fDone s p rd n (fl ||| fl2)
  | .fsqrt p rd a rm => do
    let r ← fRound s i rm
    let (x, fl) := fsqrtV (fVal s p a)
    let (n, fl2) := fNarrow p r x
    fDone s p rd n (fl ||| fl2)
  | .fmisc o p rd a b =>
    let (n, fl) := fMisc o p (fBits s p a) (fBits s p b)
    fDone s p rd n fl
  | .fcmp o p rd a b =>
    let (v, fl) := fCmp o (fVal s p a) (fVal s p b)
    fDoneX s rd (if v then 1 else 0) fl
  | .fclass p rd a => fDoneX s rd (w64 (fClass (specOf (precFmt p)) (fBits s p a))) 0
  | .fcvtToInt t p rd a rm => do
    let r ← fRound s i rm
    let (w, sg) := fIntTy t
    let (n, fl) := fToInt w sg r (fVal s p a)
    fDoneX s rd (sext64 w n) fl
  | .fcvtFromInt t p rd a rm => do
    let r ← fRound s i rm
    let (w, sg) := fIntTy t
    let x := (rdX s a).toNat % 2 ^ w
    let z : Int := if sg then sInt w x else x
    let (n, fl) := fNarrow p r (dyad (decide (z < 0)) z.natAbs 0)
    fDone s p rd n fl
  | .fcvtFF p rd a rm => do
    let r ← fRound s i rm
    let src : FPrec := match p with | .s => .d | .d => .s
    let v := fVal s src a
    let (n, fl) := fNarrow p r (foutOf v)
    fDone s p rd n (fl ||| sigFlags [v])
  | .fmvToX p rd a =>
    fDoneX s rd (match p with | .s => sext64 32 (rdF s a).toNat | .d => rdF s a) 0
  | .fmvFromX p rd a => fDone s p rd (rdX s a).toNat 0
  | _ => .ok (nextPc s)

/-- BASE_ISA_INSTRUCTION (spec/05 R77). -/
def execBaseIsaInstruction (b : BaseInstr) (s : State) : Host.Outcome State Fault Refusal :=
  let i : Instr := .baseIsaInstruction b
  finish i (do
    let pc := (me s).pc
    orIllegal (!(baseIsFp b && fsOff s)) s i
    match b with
    | .lui rd imm => .ok (nextPc (wrX s rd ((imm ++ (0 : BitVec 12)).signExtend 64)))
    | .auipc rd imm => .ok (nextPc (wrX s rd (pc + (imm ++ (0 : BitVec 12)).signExtend 64)))
    | .jal rd imm => do
      let s ← jumpTo s (pc + (imm ++ (0 : BitVec 1)).signExtend 64)
      .ok (wrX s rd (pc + 4))
    | .jalr rd rs1 imm => do
      let s ← jumpTo s ((rdX s rs1 + imm12 imm) &&& ~~~(1 : Word))
      .ok (wrX s rd (pc + 4))
    | .branch o a b imm =>
      if brTaken o (rdX s a) (rdX s b) then jumpTo s (pc + (imm ++ (0 : BitVec 1)).signExtend 64) else .ok (nextPc s)
    | .opImm o rd a imm => .ok (nextPc (wrX s rd (immOp o (rdX s a) (imm12 imm))))
    | .shImm o rd a k => .ok (nextPc (wrX s rd (shImmOp o (rdX s a) k.toNat)))
    | .addiw rd a imm => .ok (nextPc (wrX s rd (sext32 (rdX s a + imm12 imm).toNat)))
    | .shImmW o rd a k => .ok (nextPc (wrX s rd (shImmWOp o (rdX s a) k.toNat)))
    | .op o rd a b => .ok (nextPc (wrX s rd (regOp o (rdX s a) (rdX s b))))
    | .opW o rd a b => .ok (nextPc (wrX s rd (regWOp o (rdX s a) (rdX s b))))
    | .unary o rd a => .ok (nextPc (wrX s rd (unOp o (rdX s a))))
    | .ebreak | .mret | .sret | .wfi => baseSystem i b s
    | _ => baseFp i b s)

/-- HINT (spec/05 R77): a no-op. -/
def execHint (w : IWord) (s : State) : Host.Outcome State Fault Refusal := finish (.hint w) (.ok (nextPc s))

/-- ILLEGAL_INSTRUCTION (spec/05 R76). -/
def execIllegalInstruction (w : IWord) (s : State) : Host.Outcome State Fault Refusal :=
  finish (.illegalInstruction w) (.error (.trap s 2 (w64 w.toNat)))

end Sys2Proof.Machine
end

