-- ==== Sys2Proof/Machine/Dispatch.lean ====
section
/-!
DEFINITION. The dispatch: one arm per constructor of Instr.
-/
namespace Sys2Proof.Machine

/-- What an instruction, or an event, does. -/
def exec (i : Instr) (s : State) : Host.Outcome State Fault Refusal :=
  match i with
  | .vaddVv g b a d => Sys2Proof.Machine.execVaddVv g b a d s
  | .vaddVx g b a d => Sys2Proof.Machine.execVaddVx g b a d s
  | .vaddVi g b a d => Sys2Proof.Machine.execVaddVi g b a d s
  | .vsubVv g b a d => Sys2Proof.Machine.execVsubVv g b a d s
  | .vsubVx g b a d => Sys2Proof.Machine.execVsubVx g b a d s
  | .vsubVi g b a d => Sys2Proof.Machine.execVsubVi g b a d s
  | .vmulVv g b a d => Sys2Proof.Machine.execVmulVv g b a d s
  | .vmulVx g b a d => Sys2Proof.Machine.execVmulVx g b a d s
  | .vmulVi g b a d => Sys2Proof.Machine.execVmulVi g b a d s
  | .vmulhVv g b a u d => Sys2Proof.Machine.execVmulhVv g b a u d s
  | .vmulhVx g b a u d => Sys2Proof.Machine.execVmulhVx g b a u d s
  | .vmaccVv g b a d => Sys2Proof.Machine.execVmaccVv g b a d s
  | .vmaccVx g b a d => Sys2Proof.Machine.execVmaccVx g b a d s
  | .vmaccVi g b a d => Sys2Proof.Machine.execVmaccVi g b a d s
  | .vminVv g b a u d => Sys2Proof.Machine.execVminVv g b a u d s
  | .vminVx g b a u d => Sys2Proof.Machine.execVminVx g b a u d s
  | .vminVi g b a u d => Sys2Proof.Machine.execVminVi g b a u d s
  | .vmaxVv g b a u d => Sys2Proof.Machine.execVmaxVv g b a u d s
  | .vmaxVx g b a u d => Sys2Proof.Machine.execVmaxVx g b a u d s
  | .vmaxVi g b a u d => Sys2Proof.Machine.execVmaxVi g b a u d s
  | .vandVv g b a d => Sys2Proof.Machine.execVandVv g b a d s
  | .vandVx g b a d => Sys2Proof.Machine.execVandVx g b a d s
  | .vandVi g b a d => Sys2Proof.Machine.execVandVi g b a d s
  | .vorVv g b a d => Sys2Proof.Machine.execVorVv g b a d s
  | .vorVx g b a d => Sys2Proof.Machine.execVorVx g b a d s
  | .vorVi g b a d => Sys2Proof.Machine.execVorVi g b a d s
  | .vxorVv g b a d => Sys2Proof.Machine.execVxorVv g b a d s
  | .vxorVx g b a d => Sys2Proof.Machine.execVxorVx g b a d s
  | .vxorVi g b a d => Sys2Proof.Machine.execVxorVi g b a d s
  | .vshlVv g b a d => Sys2Proof.Machine.execVshlVv g b a d s
  | .vshlVx g b a d => Sys2Proof.Machine.execVshlVx g b a d s
  | .vshlVi g b a d => Sys2Proof.Machine.execVshlVi g b a d s
  | .vshrVv g b a u d => Sys2Proof.Machine.execVshrVv g b a u d s
  | .vshrVx g b a u d => Sys2Proof.Machine.execVshrVx g b a u d s
  | .vshrVi g b a u d => Sys2Proof.Machine.execVshrVi g b a u d s
  | .vcmpVv g b a u c p => Sys2Proof.Machine.execVcmpVv g b a u c p s
  | .vcmpVx g b a u c p => Sys2Proof.Machine.execVcmpVx g b a u c p s
  | .vcmpVi g b a u c p => Sys2Proof.Machine.execVcmpVi g b a u c p s
  | .vselVv g b a d => Sys2Proof.Machine.execVselVv g b a d s
  | .vselVx g b a d => Sys2Proof.Machine.execVselVx g b a d s
  | .vselVi g b a d => Sys2Proof.Machine.execVselVi g b a d s
  | .vclipVv g b a u d => Sys2Proof.Machine.execVclipVv g b a u d s
  | .vclipVx g b a u d => Sys2Proof.Machine.execVclipVx g b a u d s
  | .vclipVi g b a u d => Sys2Proof.Machine.execVclipVi g b a u d s
  | .vwcvt g b w u d => Sys2Proof.Machine.execVwcvt g b w u d s
  | .vredi g b o d => Sys2Proof.Machine.execVredi g b o d s
  | .vslupVx g b a d => Sys2Proof.Machine.execVslupVx g b a d s
  | .vslupVi g b a d => Sys2Proof.Machine.execVslupVi g b a d s
  | .vsldnVx g b a d => Sys2Proof.Machine.execVsldnVx g b a d s
  | .vsldnVi g b a d => Sys2Proof.Machine.execVsldnVi g b a d s
  | .vperm g b a d => Sys2Proof.Machine.execVperm g b a d s
  | .vcmpr g b sel d => Sys2Proof.Machine.execVcmpr g b sel d s
  | .vxpnd g b sel d => Sys2Proof.Machine.execVxpnd g b sel d s
  | .viota g sel d => Sys2Proof.Machine.execViota g sel d s
  | .vbcstVx g a d => Sys2Proof.Machine.execVbcstVx g a d s
  | .vbcstVi g a d => Sys2Proof.Machine.execVbcstVi g a d s
  | .vmvxs b u d => Sys2Proof.Machine.execVmvxs b u d s
  | .vmvsx a d => Sys2Proof.Machine.execVmvsx a d s
  | .vscan g b a u d => Sys2Proof.Machine.execVscan g b a u d s
  | .plog g b a f d => Sys2Proof.Machine.execPlog g b a f d s
  | .pbrk g sel f d => Sys2Proof.Machine.execPbrk g sel f d s
  | .pcnt g sel d => Sys2Proof.Machine.execPcnt g sel d s
  | .pfirst g sel d => Sys2Proof.Machine.execPfirst g sel d s
  | .pset g a f d => Sys2Proof.Machine.execPset g a f d s
  | .pmovToVector g sel d => Sys2Proof.Machine.execPmovToVector g sel d s
  | .pmovToPredicate g b d => Sys2Proof.Machine.execPmovToPredicate g b d s
  | .vfaddVv g b a d => Sys2Proof.Machine.execVfaddVv g b a d s
  | .vfaddVf g b a d => Sys2Proof.Machine.execVfaddVf g b a d s
  | .vfaddVx g b a d => Sys2Proof.Machine.execVfaddVx g b a d s
  | .vfsubVv g b a d => Sys2Proof.Machine.execVfsubVv g b a d s
  | .vfsubVf g b a d => Sys2Proof.Machine.execVfsubVf g b a d s
  | .vfsubVx g b a d => Sys2Proof.Machine.execVfsubVx g b a d s
  | .vfmulVv g b a d => Sys2Proof.Machine.execVfmulVv g b a d s
  | .vfmulVf g b a d => Sys2Proof.Machine.execVfmulVf g b a d s
  | .vfmulVx g b a d => Sys2Proof.Machine.execVfmulVx g b a d s
  | .vfmaVv g b a n d => Sys2Proof.Machine.execVfmaVv g b a n d s
  | .vfmaVf g b a n d => Sys2Proof.Machine.execVfmaVf g b a n d s
  | .vfmaVx g b a n d => Sys2Proof.Machine.execVfmaVx g b a n d s
  | .vfminVv g b a d => Sys2Proof.Machine.execVfminVv g b a d s
  | .vfminVf g b a d => Sys2Proof.Machine.execVfminVf g b a d s
  | .vfminVx g b a d => Sys2Proof.Machine.execVfminVx g b a d s
  | .vfmaxVv g b a d => Sys2Proof.Machine.execVfmaxVv g b a d s
  | .vfmaxVf g b a d => Sys2Proof.Machine.execVfmaxVf g b a d s
  | .vfmaxVx g b a d => Sys2Proof.Machine.execVfmaxVx g b a d s
  | .vfdivVv g b a d => Sys2Proof.Machine.execVfdivVv g b a d s
  | .vfdivVf g b a d => Sys2Proof.Machine.execVfdivVf g b a d s
  | .vfdivVx g b a d => Sys2Proof.Machine.execVfdivVx g b a d s
  | .vfsqrt g b d => Sys2Proof.Machine.execVfsqrt g b d s
  | .vfrsqe g b d => Sys2Proof.Machine.execVfrsqe g b d s
  | .vfexp2e g b d => Sys2Proof.Machine.execVfexp2e g b d s
  | .vfcmpVv g b a c p => Sys2Proof.Machine.execVfcmpVv g b a c p s
  | .vfcmpVf g b a c p => Sys2Proof.Machine.execVfcmpVf g b a c p s
  | .vfcmpVx g b a c p => Sys2Proof.Machine.execVfcmpVx g b a c p s
  | .vfsgn g b m d => Sys2Proof.Machine.execVfsgn g b m d s
  | .vfcvt g b t r d => Sys2Proof.Machine.execVfcvt g b t r d s
  | .vredf g b o r d => Sys2Proof.Machine.execVredf g b o r d s
  | .vtagg b d => Sys2Proof.Machine.execVtagg b d s
  | .vtags a d => Sys2Proof.Machine.execVtags a d s
  | .vsetvl b a d => Sys2Proof.Machine.execVsetvl b a d s
  | .vsetvli im a d => Sys2Proof.Machine.execVsetvli im a d s
  | .vld g a f sel d => Sys2Proof.Machine.execVld g a f sel d s
  | .vlds g b a f sel d => Sys2Proof.Machine.execVlds g b a f sel d s
  | .vldx g b a f im d => Sys2Proof.Machine.execVldx g b a f im d s
  | .vldsr b a d => Sys2Proof.Machine.execVldsr b a d s
  | .vst g a sel d => Sys2Proof.Machine.execVst g a sel d s
  | .vsts g b a sel d => Sys2Proof.Machine.execVsts g b a sel d s
  | .vstx g b a im d => Sys2Proof.Machine.execVstx g b a im d s
  | .vamo g b a o d => Sys2Proof.Machine.execVamo g b a o d s
  | .vred g b a o d => Sys2Proof.Machine.execVred g b a o d s
  | .cpy b a r d => Sys2Proof.Machine.execCpy b a r d s
  | .cpys b a f r d => Sys2Proof.Machine.execCpys b a f r d s
  | .cpyw => Sys2Proof.Machine.execCpyw s
  | .sqcmd p a => Sys2Proof.Machine.execSqcmd p a s
  | .sqwait p d => Sys2Proof.Machine.execSqwait p d s
  | .mma x y c a b => Sys2Proof.Machine.execMma x y c a b s
  | .mmaTile x y c sel b => Sys2Proof.Machine.execMmaTile x y c sel b s
  | .mmas x y c a b => Sys2Proof.Machine.execMmas x y c a b s
  | .mmasTile x y c sel b => Sys2Proof.Machine.execMmasTile x y c sel b s
  | .mzero c => Sys2Proof.Machine.execMzero c s
  | .mrda x c f d => Sys2Proof.Machine.execMrda x c f d s
  | .mwra x c f d => Sys2Proof.Machine.execMwra x c f d s
  | .mtcw c a => Sys2Proof.Machine.execMtcw c a s
  | .chcfg n a => Sys2Proof.Machine.execChcfg n a s
  | .chaim n a => Sys2Proof.Machine.execChaim n a s
  | .chrun n a => Sys2Proof.Machine.execChrun n a s
  | .chwait n d => Sys2Proof.Machine.execChwait n d s
  | .chst n d => Sys2Proof.Machine.execChst n d s
  | .chdrn n => Sys2Proof.Machine.execChdrn n s
  | .chbrk n => Sys2Proof.Machine.execChbrk n s
  | .chsav n a => Sys2Proof.Machine.execChsav n a s
  | .chld n a => Sys2Proof.Machine.execChld n a s
  | .qpush q a => Sys2Proof.Machine.execQpush q a s
  | .qpop q d => Sys2Proof.Machine.execQpop q d s
  | .qpeek q d => Sys2Proof.Machine.execQpeek q d s
  | .qstat q d => Sys2Proof.Machine.execQstat q d s
  | .acq sel m a d => Sys2Proof.Machine.execAcq sel m a d s
  | .rel sel a => Sys2Proof.Machine.execRel sel a s
  | .bindr b a d => Sys2Proof.Machine.execBindr b a d s
  | .unbindr a => Sys2Proof.Machine.execUnbindr a s
  | .fencex sel k => Sys2Proof.Machine.execFencex sel k s
  | .bari n a => Sys2Proof.Machine.execBari n a s
  | .bara r n d => Sys2Proof.Machine.execBara r n d s
  | .barw c n a => Sys2Proof.Machine.execBarw c n a s
  | .baraw c n d => Sys2Proof.Machine.execBaraw c n d s
  | .monarm a => Sys2Proof.Machine.execMonarm a s
  | .mwait a d => Sys2Proof.Machine.execMwait a d s
  | .bfence g => Sys2Proof.Machine.execBfence g s
  | .futinit a => Sys2Proof.Machine.execFutinit a s
  | .futrd b a d => Sys2Proof.Machine.execFutrd b a d s
  | .futwr b a => Sys2Proof.Machine.execFutwr b a s
  | .futqry a d => Sys2Proof.Machine.execFutqry a d s
  | .tspawn a => Sys2Proof.Machine.execTspawn a s
  | .tnext w d => Sys2Proof.Machine.execTnext w d s
  | .msgring a => Sys2Proof.Machine.execMsgring a s
  | .msgsnd b a d => Sys2Proof.Machine.execMsgsnd b a d s
  | .msgrcv b a d => Sys2Proof.Machine.execMsgrcv b a d s
  | .evqcfg n a => Sys2Proof.Machine.execEvqcfg n a s
  | .evqpop n d => Sys2Proof.Machine.execEvqpop n d s
  | .bcmd a => Sys2Proof.Machine.execBcmd a s
  | .bgax b a d => Sys2Proof.Machine.execBgax b a d s
  | .pklcfg u a => Sys2Proof.Machine.execPklcfg u a s
  | .pklq u a d => Sys2Proof.Machine.execPklq u a d s
  | .pklget w a d => Sys2Proof.Machine.execPklget w a d s
  | .lpart n => Sys2Proof.Machine.execLpart n s
  | .ctxsv => Sys2Proof.Machine.execCtxsv s
  | .ctxld => Sys2Proof.Machine.execCtxld s
  | .tlbir b a d => Sys2Proof.Machine.execTlbir b a d s
  | .tlbsync => Sys2Proof.Machine.execTlbsync s
  | .splp e a => Sys2Proof.Machine.execSplp e a s
  | .splr e d => Sys2Proof.Machine.execSplr e d s
  | .ecall => Sys2Proof.Machine.execEcall s
  | .fence fm pred succ => Sys2Proof.Machine.execFence fm pred succ s
  | .fenceI => Sys2Proof.Machine.execFenceI s
  | .sfenceVma rs1 rs2 => Sys2Proof.Machine.execSfenceVma rs1 rs2 s
  | .scalarAmo op dbl aq rl rd rs1 rs2 => Sys2Proof.Machine.execScalarAmo op dbl aq rl rd rs1 rs2 s
  | .lr dbl aq rl rd rs1 => Sys2Proof.Machine.execLr dbl aq rl rd rs1 s
  | .sc dbl aq rl rd rs1 rs2 => Sys2Proof.Machine.execSc dbl aq rl rd rs1 rs2 s
  | .csrAccess op imm csr rd src => Sys2Proof.Machine.execCsrAccess op imm csr rd src s
  | .hint w => Sys2Proof.Machine.execHint w s
  | .faultRecordPost die => Sys2Proof.Machine.execFaultRecordPost die s
  | .faultReply reply => Sys2Proof.Machine.execFaultReply reply s
  | .hostSliceFill token va level pte => Sys2Proof.Machine.execHostSliceFill token va level pte s
  | .asyncInterrupt hart => Sys2Proof.Machine.execAsyncInterrupt hart s
  | .watchdogExpiry hart => Sys2Proof.Machine.execWatchdogExpiry hart s
  | .grantChange seat grant => Sys2Proof.Machine.execGrantChange seat grant s
  | .leaveGrant die => Sys2Proof.Machine.execLeaveGrant die s
  | .syncObjectGrant obj => Sys2Proof.Machine.execSyncObjectGrant obj s
  | .mwaitWake hart => Sys2Proof.Machine.execMwaitWake hart s
  | .barrierWaitReturn hart => Sys2Proof.Machine.execBarrierWaitReturn hart s
  | .invalidationComplete hart => Sys2Proof.Machine.execInvalidationComplete hart s
  | .matrixInstructionComplete core => Sys2Proof.Machine.execMatrixInstructionComplete core s
  | .copyStrip core rec => Sys2Proof.Machine.execCopyStrip core rec s
  | .copyCompletion core rec => Sys2Proof.Machine.execCopyCompletion core rec s
  | .eventQueuePost core rec => Sys2Proof.Machine.execEventQueuePost core rec s
  | .streamStart core port => Sys2Proof.Machine.execStreamStart core port s
  | .streamTransfer core port => Sys2Proof.Machine.execStreamTransfer core port s
  | .vldsrRefill core => Sys2Proof.Machine.execVldsrRefill core s
  | .reductionUpdate core => Sys2Proof.Machine.execReductionUpdate core s
  | .stageFiring core slot node => Sys2Proof.Machine.execStageFiring core slot node s
  | .matrixNodePass core slot node => Sys2Proof.Machine.execMatrixNodePass core slot node s
  | .memoryPortFiring core slot node => Sys2Proof.Machine.execMemoryPortFiring core slot node s
  | .addressGeneratorFiring core slot node => Sys2Proof.Machine.execAddressGeneratorFiring core slot node s
  | .sparseHeaderFiring core slot node => Sys2Proof.Machine.execSparseHeaderFiring core slot node s
  | .filterFiring core slot node => Sys2Proof.Machine.execFilterFiring core slot node s
  | .reductionTreeFiring core slot node => Sys2Proof.Machine.execReductionTreeFiring core slot node s
  | .laneLinkTransfer core slot node => Sys2Proof.Machine.execLaneLinkTransfer core slot node s
  | .tailConfigAtNode core slot node => Sys2Proof.Machine.execTailConfigAtNode core slot node s
  | .checkpointMarkerAtNode core slot node => Sys2Proof.Machine.execCheckpointMarkerAtNode core slot node s
  | .bellAtNode core slot node => Sys2Proof.Machine.execBellAtNode core slot node s
  | .boundStop core slot node => Sys2Proof.Machine.execBoundStop core slot node s
  | .chainFaultTimeout core slot => Sys2Proof.Machine.execChainFaultTimeout core slot s
  | .multicastDetach core slot queue consumer => Sys2Proof.Machine.execMulticastDetach core slot queue consumer s
  | .rollCallReport core slot => Sys2Proof.Machine.execRollCallReport core slot s
  | .chainRunEnd core slot => Sys2Proof.Machine.execChainRunEnd core slot s
  | .temporalFiring core slot => Sys2Proof.Machine.execTemporalFiring core slot s
  | .bauPiece bank => Sys2Proof.Machine.execBauPiece bank s
  | .bgaxSumArrival core => Sys2Proof.Machine.execBgaxSumArrival core s
  | .pklQuery unit => Sys2Proof.Machine.execPklQuery unit s
  | .futureWalkStep walk => Sys2Proof.Machine.execFutureWalkStep walk s
  | .gangEnd seat => Sys2Proof.Machine.execGangEnd seat s
  | .launchRecordConsume q => Sys2Proof.Machine.execLaunchRecordConsume q s
  | .bindRecordPublish seat => Sys2Proof.Machine.execBindRecordPublish seat s
  | .gangStart seat => Sys2Proof.Machine.execGangStart seat s
  | .preemptRequest seat ctl => Sys2Proof.Machine.execPreemptRequest seat ctl s
  | .preemptQuiesced seat => Sys2Proof.Machine.execPreemptQuiesced seat s
  | .schedulingQuantum seat => Sys2Proof.Machine.execSchedulingQuantum seat s
  | .priorityAging seat => Sys2Proof.Machine.execPriorityAging seat s
  | .debugHalt hart => Sys2Proof.Machine.execDebugHalt hart s
  | .debugResume hart => Sys2Proof.Machine.execDebugResume hart s
  | .debugSingleStep hart => Sys2Proof.Machine.execDebugSingleStep hart s
  | .debugAbstractCommand hart reg write value => Sys2Proof.Machine.execDebugAbstractCommand hart reg write value s
  | .debugProgramBuffer hart w => Sys2Proof.Machine.execDebugProgramBuffer hart w s
  | .correctedError place => Sys2Proof.Machine.execCorrectedError place s
  | .correctedErrorThreshold place => Sys2Proof.Machine.execCorrectedErrorThreshold place s
  | .uncorrectableError loc => Sys2Proof.Machine.execUncorrectableError loc s
  | .hbmChannelSparing stack channel => Sys2Proof.Machine.execHbmChannelSparing stack channel s
  | .mgcHeartbeat mgc => Sys2Proof.Machine.execMgcHeartbeat mgc s
  | .mgcTakeover mgc => Sys2Proof.Machine.execMgcTakeover mgc s
  | .thermalGrantLimit seat grant => Sys2Proof.Machine.execThermalGrantLimit seat grant s
  | .thermalShutdown => Sys2Proof.Machine.execThermalShutdown s
  | .powerOn flash => Sys2Proof.Machine.execPowerOn flash s
  | .resetRelease => Sys2Proof.Machine.execResetRelease s
  | .linkDown => Sys2Proof.Machine.execLinkDown s
  | .peerAck core rec => Sys2Proof.Machine.execPeerAck core rec s
  | .peerConnectionFail core rec => Sys2Proof.Machine.execPeerConnectionFail core rec s
  | .hostMemoryAccess => Sys2Proof.Machine.execHostMemoryAccess s
  | .dirtyHarvestRead => Sys2Proof.Machine.execDirtyHarvestRead s
  | .modeWrite => Sys2Proof.Machine.execModeWrite s
  | .tidinv => Sys2Proof.Machine.execTidinv s
  | .tidinvDrained => Sys2Proof.Machine.execTidinvDrained s
  | .retire => Sys2Proof.Machine.execRetire s
  | .extentLayoutWrite => Sys2Proof.Machine.execExtentLayoutWrite s
  | .launchQueueWpWrite => Sys2Proof.Machine.execLaunchQueueWpWrite s
  | .launchQueueControl => Sys2Proof.Machine.execLaunchQueueControl s
  | .mailboxRingControl => Sys2Proof.Machine.execMailboxRingControl s
  | .registerWrite => Sys2Proof.Machine.execRegisterWrite s
  | .attest => Sys2Proof.Machine.execAttest s
  | .retirecore => Sys2Proof.Machine.execRetirecore s
  | .heartbeat => Sys2Proof.Machine.execHeartbeat s
  | .keygen => Sys2Proof.Machine.execKeygen s
  | .keyerase => Sys2Proof.Machine.execKeyerase s
  | .keyexport => Sys2Proof.Machine.execKeyexport s
  | .keyimport => Sys2Proof.Machine.execKeyimport s
  | .mailboxReservedCode => Sys2Proof.Machine.execMailboxReservedCode s
  | .mailboxEventPost => Sys2Proof.Machine.execMailboxEventPost s
  | .getTid => Sys2Proof.Machine.execGetTid s
  | .getPldmVersion => Sys2Proof.Machine.execGetPldmVersion s
  | .getPldmTypes => Sys2Proof.Machine.execGetPldmTypes s
  | .getPldmCommands => Sys2Proof.Machine.execGetPldmCommands s
  | .getPdr => Sys2Proof.Machine.execGetPdr s
  | .getSensorReading => Sys2Proof.Machine.execGetSensorReading s
  | .requestUpdate => Sys2Proof.Machine.execRequestUpdate s
  | .passComponentTable => Sys2Proof.Machine.execPassComponentTable s
  | .updateComponent => Sys2Proof.Machine.execUpdateComponent s
  | .requestFirmwareData => Sys2Proof.Machine.execRequestFirmwareData s
  | .transferComplete => Sys2Proof.Machine.execTransferComplete s
  | .verifyComplete => Sys2Proof.Machine.execVerifyComplete s
  | .applyComplete => Sys2Proof.Machine.execApplyComplete s
  | .activateFirmware => Sys2Proof.Machine.execActivateFirmware s
  | .getStatus => Sys2Proof.Machine.execGetStatus s
  | .cancelUpdate => Sys2Proof.Machine.execCancelUpdate s
  | .pldmOemAttestation => Sys2Proof.Machine.execPldmOemAttestation s
  | .scalarLoad k rd rs1 imm => Sys2Proof.Machine.execScalarLoad k rd rs1 imm s
  | .scalarStore k rs2 rs1 imm => Sys2Proof.Machine.execScalarStore k rs2 rs1 imm s
  | .baseIsaInstruction b => Sys2Proof.Machine.execBaseIsaInstruction b s
  | .illegalInstruction w => Sys2Proof.Machine.execIllegalInstruction w s
  | .hostLinkTraining => Sys2Proof.Machine.execHostLinkTraining s
  | .laneLinkDown core slot => Sys2Proof.Machine.execLaneLinkDown core slot s
  | .hostReadPointerWrite => Sys2Proof.Machine.execHostReadPointerWrite s

end Sys2Proof.Machine
end

