-- ==== Sys2Proof/Machine/Step.lean ====
section
/-!
DEFINITION. One step of the machine: the turn at the head of the agenda, or, with an empty agenda, the next piece of work that the
package has (notes/assumptions/10).
-/
namespace Sys2Proof.Machine

/-- The state of an outcome, changed. -/
def mapNext (f : State → State) (o : Host.Outcome State Fault Refusal) : Host.Outcome State Fault Refusal :=
  match o with
  | .next s => .next (f s)
  | .fault e => .fault e
  | .refused r => .refused r

/-! ### A hart's turn -/

/-- Execute the word that a hart stands at. -/
def runWord (w : IWord) (s : State) : Host.Outcome State Fault Refusal :=
  match decode w with
  | .ok i => exec i s
  | .error _ => exec (.illegalInstruction w) s

/-- Fetch, decode and execute one instruction. -/
def runHart (s : State) : Host.Outcome State Fault Refusal :=
  match fetch s with
  | .error e => finish (.illegalInstruction 0) (.error e)
  | .ok (s, w) => runWord w s

/-- After a turn of a hart that the debug module has released for one step: it is halted again once the instruction is over
(spec/13 R259). -/
def stepOver (h : Nat) (s : State) : State :=
  let r := hartOf s h
  if r.stepping && r.wait.isNone && r.park.isNone && !bauHeld s h then setHart s h (enterDebug r 4) else s

/-- After a program-buffer word: the hart is in debug mode as before; a word that waits is tried again. -/
def bufferOver (h : Nat) (old : Hart) (s : State) : State :=
  updHart s h fun r =>
    { r with pc := old.pc, priv := old.priv, wait := none, park := none,
             pbuf := if r.wait.isSome || r.park.isSome || bauHeld s h then old.pbuf else none }

/-- May a hart issue a CTXSV into the quiescence that another hart's CTXSV has begun (spec/13 R254)? -/
def mayMeet (s : State) (h : Nat) : Bool :=
  let r := hartOf s h
  let c := coreOf s (coreOfHart h)
  decide (r.run = .running) && !r.halted && decide (slotOfHart h < c.part) && decide (r.priv ≠ .u) && r.wait.isNone &&
    match c.gang with
    | none => false
    | some seat => match (gangOf s seat).state with
      | .checkpoint k load => !load && k != h
      | _ => false

/-- Such a hart waits at its CTXSV with the other; at any other instruction it stays stopped. -/
def meetSave (s : State) : State :=
  match fetch s with
  | .error _ => s
  | .ok (t, w) => match decode w with
    | .ok .ctxsv => updMe t fun h => { h with wait := some .ctxsv }
    | _ => s

/-- A hart's turn: a program-buffer word, a pending interrupt, or an instruction. A hart whose access is parked makes no move of its
own. -/
def hartTurn (s : State) (h : Nat) : Host.Outcome State Fault Refusal :=
  let s := { s with cur := h, rr := h }
  let r := hartOf s h
  if !canMove s h then .next (if mayMeet s h then meetSave s else s)
  else match (if inDebug r then r.pbuf else none) with
    | some w => mapNext (bufferOver h r) (runWord w (setHart s h { r with priv := .m }))
    | none =>
      if (irqFor s h).isSome then mapNext (stepOver h) (exec (.asyncInterrupt h) s)
      else if r.park.isSome then .next s
      else mapNext (stepOver h) (runHart s)

/-! ### Time -/

/-- Time passes for a hart: the watchdog counts while it is not ready, and `xleave` the clocks of a denied request (spec/03 R53,
spec/13 R260): 1,700 clocks for each whole microsecond that passes while the request waits (DESIGN CHOICE,
notes/assumptions/9). A halt of its chain group holds the count (spec/08 R174). -/
def tickHart (s : State) (us h : Nat) : State :=
  let r := hartOf s h
  let stalled := r.wait.isSome || r.park.isSome
  let core := coreOfHart h
  let held := (List.range 4).any fun k => chActive (slotOf s core k).state &&
    (slotOf s core k).nodes.any (fun x => x.1 == kVs && x.2 == slotOfHart h) && chHeld s core k
  if !canMove s h || r.halted then s
  else setHart s h { r with
    stall := if stalled && !held then r.stall + us else r.stall
    xc := if r.ticket.isSome then { r.xc with leave := r.xc.leave + w64 (1700 * us) } else r.xc }

/-- Time passes. -/
def tick (s : State) (us : Nat) : State :=
  let s := { s with us := s.us + us }
  let s := (s.harts.map (·.1)).foldl (fun s h => tickHart s us h) s
  let s := (s.cores.map (·.1)).foldl (fun s c => chTick s c us) s
  { s with waitUs := (waitingSeats s).foldl (fun m k => aput m k (aget 0 m k + us)) s.waitUs }

/-! ### Turns -/

/-- Is a row of the table an event: one that no word encodes? -/
def isEvent (i : Instr) : Bool :=
  match i with
  | .illegalInstruction _ => false
  | i => (encode i).isNone

/-- Perform a turn. -/
def turn (s : State) (t : Turn) : Host.Outcome State Fault Refusal :=
  match t with
  | .hart h => hartTurn s h
  | .part h k => mapNext (fun t => { t with elemLimit := none }) (hartTurn { s with elemLimit := some k } h)
  | .event i => if isEvent i then exec i s else .next s
  | .host r => .next (hostArrive s r)
  | .mctp m => .next (updIo s fun io => { io with mctpIn := io.mctpIn ++ [m] })
  | .evictLine core line => .next (flushLines s core fun l _ => l == line)
  | .evictTlb core => .next (updCore s core fun c => { c with utlb := [] })
  | .evictSlice die slice => .next (updDie s die fun d => { d with slices := adel d.slices slice })
  | .evictI core => .next (updCore s core fun c => { c with icache := [] })
  | .drainWc h => .next (drainWc s h)
  | .tick us => .next (tick s us)

/-! ### Work that the package finds by itself -/

/-- The events of a chain slot. -/
def slotWork (s : State) (core : Nat) (k : Fin 4) : List Instr :=
  let sl := slotOf s core k.val
  (nodeList sl).flatMap (fun n =>
    [.tailConfigAtNode core k n, .checkpointMarkerAtNode core k n, .bellAtNode core k n, .boundStop core k n,
      .stageFiring core k n, .matrixNodePass core k n, .memoryPortFiring core k n, .addressGeneratorFiring core k n,
      .sparseHeaderFiring core k n, .filterFiring core k n, .reductionTreeFiring core k n, .laneLinkTransfer core k n]) ++
    [.temporalFiring core k, .rollCallReport core k, .chainRunEnd core k, .chainFaultTimeout core k] ++
    (sl.edges.map fun e => .multicastDetach core k (Fin.ofNat 16 (eQ e)) (Fin.ofNat 4 (consumerOf sl.edges e)))

/-- The events of a core. -/
def coreWork (s : State) (core : Nat) : List Instr :=
  let c := coreOf s core
  [.matrixInstructionComplete core, .vldsrRefill core, .bgaxSumArrival core, .reductionUpdate core] ++
    c.copies.flatMap (fun kv => [.copyStrip core kv.1, .copyCompletion core kv.1, .eventQueuePost core kv.1]) ++
    c.streams.flatMap (fun kv => [.streamStart core (Fin.ofNat 16 kv.1), .streamTransfer core (Fin.ofNat 16 kv.1)]) ++
    c.slots.flatMap fun kv => slotWork s core (Fin.ofNat 4 kv.1)

/-- The events of a seat. -/
def seatWork (seat : Nat) : List Instr :=
  [.bindRecordPublish seat, .gangStart seat, .gangEnd seat, .preemptQuiesced seat, .priorityAging seat, .schedulingQuantum seat]

/-- The events of a register write. -/
def writeWork : List Instr :=
  [.modeWrite, .tidinv, .retire, .extentLayoutWrite, .launchQueueWpWrite, .launchQueueControl, .mailboxRingControl, .registerWrite,
    .hostReadPointerWrite]

/-- The events that serve the host's request at the head, and the oldest register write of the device's side. -/
def hostWork (s : State) : List Instr :=
  (match s.io.hostQ with
    | [] => []
    | .memRead _ :: _ => [.hostMemoryAccess]
    | .memWrite _ _ :: _ => [.hostMemoryAccess]
    | .regRead _ :: _ => [.dirtyHarvestRead]
    | .regWrite _ _ :: _ => writeWork) ++ if s.io.devQ = [] then [] else writeWork

/-- The events of the management plane. -/
def mgmtWork (s : State) : List Instr :=
  (if s.io.fhWait = [] then [] else [.mailboxEventPost]) ++
    (if (mbCommand s).isNone then [] else
      [.attest, .retirecore, .heartbeat, .keygen, .keyerase, .keyexport, .keyimport, .mailboxReservedCode]) ++
    (if s.io.mctpIn = [] then [] else
      [.getTid, .getPldmVersion, .getPldmTypes, .getPldmCommands, .getPdr, .getSensorReading, .requestUpdate, .passComponentTable,
        .updateComponent, .activateFirmware, .getStatus, .cancelUpdate, .pldmOemAttestation]) ++
    (if s.io.fwState = 0 then [] else [.requestFirmwareData, .transferComplete, .verifyComplete, .applyComplete]) ++
    (if s.io.tidBusy then [.tidinvDrained] else []) ++
    (s.io.lq.map fun kv => .launchRecordConsume (Fin.ofNat 256 (kv.1 / 4)))

/-- The seats that hold a record or a status. -/
def seatsUsed (s : State) : List Nat :=
  let a : List Nat := s.binds.map fun (kv : Nat × Word) => kv.1 / 4
  let b : List Nat := s.seatStat.map fun (kv : Nat × Word) => kv.1
  (a ++ b).dedup

/-- All events that may have something to do now. -/
def work (s : State) : List Instr :=
  hostWork s ++ mgmtWork s ++
    (s.faults.map fun f => .faultRecordPost (Fin.ofNat 4 f.die)) ++
    (s.walks.map fun w => .futureWalkStep w.id) ++
    (s.cores.flatMap fun kv => coreWork s kv.1) ++
    (s.banks.map fun kv => .bauPiece kv.1) ++
    (s.pkl.map fun kv => .pklQuery (Fin.ofNat 12 kv.1)) ++
    (s.dies.flatMap fun kv => kv.2.corr.map fun c => .correctedErrorThreshold ⟨Fin.ofNat 4 kv.1, c.1⟩) ++
    (s.dies.filterMap fun kv => if kv.2.leaveQ = [] then none else some (.leaveGrant (Fin.ofNat 4 kv.1))) ++
    (s.acqs.map fun q => .syncObjectGrant q.obj) ++
    (s.harts.flatMap fun kv => (if kv.2.inval = [] then [] else [.invalidationComplete kv.1]) ++
      if kv.2.xc.wdog = 0 then [] else [.watchdogExpiry kv.1]) ++
    (seatsUsed s).flatMap seatWork

/-- Does an outcome differ from the state in more than whose turn it was? -/
def moved (s : State) (o : Host.Outcome State Fault Refusal) : Bool :=
  match o with
  | .next t => decide ({ t with cur := s.cur, rr := s.rr } ≠ s)
  | _ => true

/-- The harts, those after the one that moved last first. -/
def hartOrder (s : State) : List Nat :=
  let ks := s.harts.map (·.1)
  (ks.filter fun k => decide (s.rr < k)) ++ ks.filter fun k => decide (k ≤ s.rr)

/-- With an empty agenda: the first event that has an effect; then what the host or the platform's controller waits for; then the
next hart that can move; and where nothing moves, the cores write back their dirty lines, and then a microsecond passes. -/
def autoTurn (s : State) : Host.Outcome State Fault Refusal :=
  match (work s).findSome? fun i => let o := exec i s; if moved s o then some o else none with
  | some o => o
  | none =>
    let t := pldmOther (hostRegRead s)
    if t ≠ s then .next t
    else match (hartOrder s).findSome? fun h => let o := hartTurn s h; if moved s o then some o else none with
      | some o => o
      | none =>
        let t := (s.cores.map (·.1)).foldl (fun s c => cleanLines s c fun _ _ => true) s
        .next (if t ≠ s then t else tick s 1)

/-- One step. -/
def step (s : State) : Host.Outcome State Fault Refusal :=
  match s.agenda with
  | [] => autoTurn s
  | t :: r => turn { s with agenda := r } t

/-- The state with an instruction's word stored where the next step fetches it: hart 0 runs in M-mode at physical address
0, which holds the word, and moves next (notes/assumptions/13). -/
def State.withFetchWord (s : State) (nbits w : Nat) : State :=
  let s := physWrite s 0 0 4 (w % 2 ^ nbits % 2 ^ 32)
  let s := setPoison s 0 false
  let s := updHart s 0 fun h =>
    { h with run := .running, halted := false, stepping := false, pbuf := none, park := none, priv := .m, pc := 0,
             pr := { h.pr with mie := 0 } }
  let s := updCore s 0 fun c => { c with gang := none, icache := [] }
  { s with agenda := [.hart 0] }

end Sys2Proof.Machine
end

