-- ==== Sys2Proof/WellFormed.lean ====
section
/-!
DEFINITION. When an instruction is well formed: its operands are ones that its encoding admits (spec/05), and an event names agents
that exist (spec/01 R10, R11).
-/
namespace Sys2Proof

/-- Is the static rounding field of a base instruction one that is valid: not 101 or 110? -/
def rmFieldOk : BaseInstr → Bool
  | .fma _ _ _ _ _ _ rm => rm != 5 && rm != 6
  | .farith _ _ _ _ _ rm => rm != 5 && rm != 6
  | .fsqrt _ _ _ rm => rm != 5 && rm != 6
  | .fcvtToInt _ _ _ _ rm => rm != 5 && rm != 6
  | .fcvtFromInt _ _ _ _ rm => rm != 5 && rm != 6
  | .fcvtFF _ _ _ rm => rm != 5 && rm != 6
  | .lui _ _ => true
  | .auipc _ _ => true
  | .jal _ _ => true
  | .jalr _ _ _ => true
  | .branch _ _ _ _ => true
  | .opImm _ _ _ _ => true
  | .shImm _ _ _ _ => true
  | .addiw _ _ _ => true
  | .shImmW _ _ _ _ => true
  | .op _ _ _ _ => true
  | .opW _ _ _ _ => true
  | .unary _ _ _ => true
  | .fmisc _ _ _ _ _ => true
  | .fcmp _ _ _ _ _ => true
  | .fclass _ _ _ => true
  | .fmvToX _ _ _ => true
  | .fmvFromX _ _ _ => true
  | .ebreak => true
  | .mret => true
  | .sret => true
  | .wfi => true

/-- Is the place of an error one that exists? -/
def errLocOk : ErrLoc → Bool
  | .phys pa => decide (pa < 0xC000000000) || (decide (0x8000000000000 ≤ pa) && decide (pa < 0xC000000000000))
  | .tile core off => decide (core < 384) && decide (off < 0x100000)
  | .sdm core off => decide (core < 384) && decide (off < 0x10000)
  | .coreState core => decide (core < 384)
  | .piece bank _ => decide (bank < 6144)
  | .pkl unit => decide (unit < 12)
  | .readout core slot node => decide (core < 384) && decide (slot < 4) && decide (node < 32)

/-- Is an instruction well formed? -/
def Instr.wellFormed : Instr → Bool
  | .vaddVv _ _ _ _ => true
  | .vaddVx _ _ _ _ => true
  | .vaddVi _ _ _ _ => true
  | .vsubVv _ _ _ _ => true
  | .vsubVx _ _ _ _ => true
  | .vsubVi _ _ _ _ => true
  | .vmulVv _ _ _ _ => true
  | .vmulVx _ _ _ _ => true
  | .vmulVi _ _ _ _ => true
  | .vmulhVv _ _ _ _ _ => true
  | .vmulhVx _ _ _ _ _ => true
  | .vmaccVv _ _ _ _ => true
  | .vmaccVx _ _ _ _ => true
  | .vmaccVi _ _ _ _ => true
  | .vminVv _ _ _ _ _ => true
  | .vminVx _ _ _ _ _ => true
  | .vminVi _ _ _ _ _ => true
  | .vmaxVv _ _ _ _ _ => true
  | .vmaxVx _ _ _ _ _ => true
  | .vmaxVi _ _ _ _ _ => true
  | .vandVv _ _ _ _ => true
  | .vandVx _ _ _ _ => true
  | .vandVi _ _ _ _ => true
  | .vorVv _ _ _ _ => true
  | .vorVx _ _ _ _ => true
  | .vorVi _ _ _ _ => true
  | .vxorVv _ _ _ _ => true
  | .vxorVx _ _ _ _ => true
  | .vxorVi _ _ _ _ => true
  | .vshlVv _ _ _ _ => true
  | .vshlVx _ _ _ _ => true
  | .vshlVi _ _ _ _ => true
  | .vshrVv _ _ _ _ _ => true
  | .vshrVx _ _ _ _ _ => true
  | .vshrVi _ _ _ _ _ => true
  | .vcmpVv _ _ _ _ _ _ => true
  | .vcmpVx _ _ _ _ _ _ => true
  | .vcmpVi _ _ _ _ _ _ => true
  | .vselVv _ _ _ _ => true
  | .vselVx _ _ _ _ => true
  | .vselVi _ _ _ _ => true
  | .vclipVv _ _ _ _ _ => true
  | .vclipVx _ _ _ _ _ => true
  | .vclipVi _ _ _ _ _ => true
  | .vwcvt _ _ _ _ _ => true
  | .vredi _ _ _ _ => true
  | .vslupVx _ _ _ _ => true
  | .vslupVi _ _ _ _ => true
  | .vsldnVx _ _ _ _ => true
  | .vsldnVi _ _ _ _ => true
  | .vperm _ _ _ _ => true
  | .vcmpr _ _ _ _ => true
  | .vxpnd _ _ _ _ => true
  | .viota _ _ _ => true
  | .vbcstVx _ _ _ => true
  | .vbcstVi _ _ _ => true
  | .vmvxs _ _ _ => true
  | .vmvsx _ _ => true
  | .vscan _ _ _ _ _ => true
  | .plog _ _ _ _ _ => true
  | .pbrk _ _ _ _ => true
  | .pcnt _ _ _ => true
  | .pfirst _ _ _ => true
  | .pset _ _ _ _ => true
  | .pmovToVector _ _ _ => true
  | .pmovToPredicate _ _ _ => true
  | .vfaddVv _ _ _ _ => true
  | .vfaddVf _ _ _ _ => true
  | .vfaddVx _ _ _ _ => true
  | .vfsubVv _ _ _ _ => true
  | .vfsubVf _ _ _ _ => true
  | .vfsubVx _ _ _ _ => true
  | .vfmulVv _ _ _ _ => true
  | .vfmulVf _ _ _ _ => true
  | .vfmulVx _ _ _ _ => true
  | .vfmaVv _ _ _ _ _ => true
  | .vfmaVf _ _ _ _ _ => true
  | .vfmaVx _ _ _ _ _ => true
  | .vfminVv _ _ _ _ => true
  | .vfminVf _ _ _ _ => true
  | .vfminVx _ _ _ _ => true
  | .vfmaxVv _ _ _ _ => true
  | .vfmaxVf _ _ _ _ => true
  | .vfmaxVx _ _ _ _ => true
  | .vfdivVv _ _ _ _ => true
  | .vfdivVf _ _ _ _ => true
  | .vfdivVx _ _ _ _ => true
  | .vfsqrt _ _ _ => true
  | .vfrsqe _ _ _ => true
  | .vfexp2e _ _ _ => true
  | .vfcmpVv _ _ _ _ _ => true
  | .vfcmpVf _ _ _ _ _ => true
  | .vfcmpVx _ _ _ _ _ => true
  | .vfsgn _ _ _ _ => true
  | .vfcvt _ _ t _ _ => t != .scw && t != .raw
  | .vredf _ _ o r _ => o == .sum || r == .rne
  | .vtagg _ _ => true
  | .vtags _ _ => true
  | .vsetvl _ _ _ => true
  | .vsetvli _ _ _ => true
  | .vld _ _ _ _ _ => true
  | .vlds _ _ _ _ _ _ => true
  | .vldx _ _ _ _ _ _ => true
  | .vldsr _ _ _ => true
  | .vst _ _ _ _ => true
  | .vsts _ _ _ _ _ => true
  | .vstx _ _ _ _ _ => true
  | .vamo _ _ _ _ _ => true
  | .vred _ _ _ _ _ => true
  | .cpy _ _ _ _ => true
  | .cpys _ _ _ _ _ => true
  | .sqcmd _ _ => true
  | .sqwait _ _ => true
  | .mma _ _ _ _ _ => true
  | .mmaTile _ _ _ _ _ => true
  | .mmas _ _ _ _ _ => true
  | .mmasTile _ _ _ _ _ => true
  | .mzero _ => true
  | .mrda _ _ _ _ => true
  | .mwra _ _ _ _ => true
  | .mtcw _ _ => true
  | .chcfg _ _ => true
  | .chaim _ _ => true
  | .chrun _ _ => true
  | .chwait _ _ => true
  | .chst _ _ => true
  | .chdrn _ => true
  | .chbrk _ => true
  | .chsav _ _ => true
  | .chld _ _ => true
  | .qpush _ _ => true
  | .qpop _ _ => true
  | .qpeek _ _ => true
  | .qstat _ _ => true
  | .acq _ _ _ _ => true
  | .rel _ _ => true
  | .bindr _ _ _ => true
  | .unbindr _ => true
  | .fencex _ _ => true
  | .bari _ _ => true
  | .bara _ _ _ => true
  | .barw _ _ _ => true
  | .baraw _ _ _ => true
  | .monarm _ => true
  | .mwait _ _ => true
  | .bfence _ => true
  | .futinit _ => true
  | .futrd _ _ _ => true
  | .futwr _ _ => true
  | .futqry _ _ => true
  | .tspawn _ => true
  | .tnext _ _ => true
  | .msgring _ => true
  | .msgsnd _ _ _ => true
  | .msgrcv _ _ _ => true
  | .evqcfg _ _ => true
  | .evqpop _ _ => true
  | .bcmd _ => true
  | .bgax _ _ _ => true
  | .pklcfg _ _ => true
  | .pklq _ _ _ => true
  | .pklget _ _ _ => true
  | .lpart _ => true
  | .tlbir _ _ _ => true
  | .splp _ _ => true
  | .splr _ _ => true
  | .fence fm p s => !(fm == 0 && (p == 0 || s == 0))
  | .sfenceVma _ _ => true
  | .scalarAmo _ _ _ _ _ _ _ => true
  | .lr _ _ _ _ _ => true
  | .sc _ _ _ _ _ _ => true
  | .csrAccess _ _ _ _ _ => true
  | .hint w => isHint (unpack w)
  | .faultRecordPost _ => true
  | .faultReply _ => true
  | .hostSliceFill token _ lvl _ => decide (token < 2 ^ 32) && decide (lvl.val ≤ 2)
  | .asyncInterrupt hart => decide (hart < 3072)
  | .watchdogExpiry hart => decide (hart < 3072)
  | .grantChange seat _ => decide (seat < 3072)
  | .leaveGrant _ => true
  | .syncObjectGrant _ => true
  | .mwaitWake hart => decide (hart < 3072)
  | .barrierWaitReturn hart => decide (hart < 3072)
  | .invalidationComplete hart => decide (hart < 3072)
  | .matrixInstructionComplete core => decide (core < 384)
  | .copyStrip core _ => decide (core < 384)
  | .copyCompletion core _ => decide (core < 384)
  | .eventQueuePost core _ => decide (core < 384)
  | .streamStart core _ => decide (core < 384)
  | .streamTransfer core _ => decide (core < 384)
  | .vldsrRefill core => decide (core < 384)
  | .reductionUpdate core => decide (core < 384)
  | .stageFiring core _ node => decide (core < 384) && decide (node < 32)
  | .matrixNodePass core _ node => decide (core < 384) && decide (node < 32)
  | .memoryPortFiring core _ node => decide (core < 384) && decide (node < 32)
  | .addressGeneratorFiring core _ node => decide (core < 384) && decide (node < 32)
  | .sparseHeaderFiring core _ node => decide (core < 384) && decide (node < 32)
  | .filterFiring core _ node => decide (core < 384) && decide (node < 32)
  | .reductionTreeFiring core _ node => decide (core < 384) && decide (node < 32)
  | .laneLinkTransfer core _ node => decide (core < 384) && decide (node < 32)
  | .tailConfigAtNode core _ node => decide (core < 384) && decide (node < 32)
  | .checkpointMarkerAtNode core _ node => decide (core < 384) && decide (node < 32)
  | .bellAtNode core _ node => decide (core < 384) && decide (node < 32)
  | .boundStop core _ node => decide (core < 384) && decide (node < 32)
  | .chainFaultTimeout core _ => decide (core < 384)
  | .multicastDetach core _ _ _ => decide (core < 384)
  | .rollCallReport core _ => decide (core < 384)
  | .chainRunEnd core _ => decide (core < 384)
  | .temporalFiring core _ => decide (core < 384)
  | .bauPiece bank => decide (bank < 6144)
  | .bgaxSumArrival core => decide (core < 384)
  | .pklQuery _ => true
  | .futureWalkStep _ => true
  | .gangEnd seat => decide (seat < 3072)
  | .launchRecordConsume _ => true
  | .bindRecordPublish seat => decide (seat < 3072)
  | .gangStart seat => decide (seat < 3072)
  | .preemptRequest seat _ => decide (seat < 3072)
  | .preemptQuiesced seat => decide (seat < 3072)
  | .schedulingQuantum seat => decide (seat < 3072)
  | .priorityAging seat => decide (seat < 3072)
  | .debugHalt hart => decide (hart < 3072)
  | .debugResume hart => decide (hart < 3072)
  | .debugSingleStep hart => decide (hart < 3072)
  | .debugAbstractCommand hart _ _ _ => decide (hart < 3072)
  | .debugProgramBuffer hart _ => decide (hart < 3072)
  | .correctedError _ => true
  | .correctedErrorThreshold _ => true
  | .uncorrectableError l => errLocOk l
  | .hbmChannelSparing _ _ => true
  | .mgcHeartbeat mgc => decide (mgc < 4)
  | .mgcTakeover mgc => decide (mgc < 4)
  | .thermalGrantLimit seat _ => decide (seat < 3072)
  | .powerOn _ => true
  | .peerAck core _ => decide (core < 384)
  | .peerConnectionFail core _ => decide (core < 384)
  | .scalarLoad _ _ _ _ => true
  | .scalarStore _ _ _ _ => true
  | .baseIsaInstruction b => rmFieldOk b && !isHint (encodeBase b)
  | .illegalInstruction w => (match decode w with | .error _ => true | .ok _ => false)
  | .laneLinkDown core _ => decide (core < 384)
  | .cpyw => true
  | .ctxsv => true
  | .ctxld => true
  | .tlbsync => true
  | .ecall => true
  | .fenceI => true
  | .thermalShutdown => true
  | .resetRelease => true
  | .linkDown => true
  | .hostMemoryAccess => true
  | .dirtyHarvestRead => true
  | .modeWrite => true
  | .tidinv => true
  | .tidinvDrained => true
  | .retire => true
  | .extentLayoutWrite => true
  | .launchQueueWpWrite => true
  | .launchQueueControl => true
  | .mailboxRingControl => true
  | .registerWrite => true
  | .attest => true
  | .retirecore => true
  | .heartbeat => true
  | .keygen => true
  | .keyerase => true
  | .keyexport => true
  | .keyimport => true
  | .mailboxReservedCode => true
  | .mailboxEventPost => true
  | .getTid => true
  | .getPldmVersion => true
  | .getPldmTypes => true
  | .getPldmCommands => true
  | .getPdr => true
  | .getSensorReading => true
  | .requestUpdate => true
  | .passComponentTable => true
  | .updateComponent => true
  | .requestFirmwareData => true
  | .transferComplete => true
  | .verifyComplete => true
  | .applyComplete => true
  | .activateFirmware => true
  | .getStatus => true
  | .cancelUpdate => true
  | .pldmOemAttestation => true
  | .hostLinkTraining => true
  | .hostReadPointerWrite => true

end Sys2Proof
end

