-- ==== Sys2Proof/Safety.lean ====
section
/-!
DEFINITION. What counts as a safe run: a step that goes on; and the terms that the obligations are stated in, so far as they are not the
model's own: results in arithmetic of the standard library, tables of instructions of one shape, and what a state is that differs from
another in a hart's registers alone.
-/
namespace Sys2Proof

/-- The step from a state goes on. -/
def Goes (s : Machine.State) : Prop := ∃ t, Machine.step s = .next t

/-- Memory is in its canonical form. -/
def Machine.State.memOk (s : Machine.State) : Prop := Machine.Memory.wf s.mem = true

end Sys2Proof

namespace Sys2Proof.Claim
open Sys2Proof.Machine

/-! ### Steps -/

/-- The hart's turn executes an instruction: it can move, is not in debug mode, has no access parked, and takes no interrupt. -/
def ready (s : State) (h : Nat) : Prop :=
  canMove s h = true ∧ inDebug (hartOf s h) = false ∧ (hartOf s h).park = none ∧ irqFor s h = none

/-- The state in which a hart's turn begins: what is left of the agenda, and whose turn it is. -/
def turnOf (s : State) (h : Nat) (rest : List Turn) : State := { s with agenda := rest, cur := h, rr := h }

/-- A word of the four opcodes that hold the Xebin instructions (spec/05 R78). -/
def isXebinWord (w : IWord) : Prop :=
  w.toNat % 128 = 0x0B ∨ w.toNat % 128 = 0x2B ∨ w.toNat % 128 = 0x5B ∨ w.toNat % 128 = 0x7B

/-- The instructions that act on registers alone: no form of theirs reads or writes memory, whatever it raises. -/
def registerOnly : Instr → Bool
  | .vaddVv _ _ _ _ | .vaddVx _ _ _ _ | .vaddVi _ _ _ _ | .vsubVv _ _ _ _ | .vsubVx _ _ _ _ | .vsubVi _ _ _ _
  | .vmulVv _ _ _ _ | .vmulVx _ _ _ _ | .vmulVi _ _ _ _ | .vmulhVv _ _ _ _ _ | .vmulhVx _ _ _ _ _
  | .vmaccVv _ _ _ _ | .vmaccVx _ _ _ _ | .vmaccVi _ _ _ _ | .vminVv _ _ _ _ _ | .vminVx _ _ _ _ _ | .vminVi _ _ _ _ _
  | .vmaxVv _ _ _ _ _ | .vmaxVx _ _ _ _ _ | .vmaxVi _ _ _ _ _ | .vandVv _ _ _ _ | .vandVx _ _ _ _ | .vandVi _ _ _ _
  | .vorVv _ _ _ _ | .vorVx _ _ _ _ | .vorVi _ _ _ _ | .vxorVv _ _ _ _ | .vxorVx _ _ _ _ | .vxorVi _ _ _ _
  | .vshlVv _ _ _ _ | .vshlVx _ _ _ _ | .vshlVi _ _ _ _ | .vshrVv _ _ _ _ _ | .vshrVx _ _ _ _ _ | .vshrVi _ _ _ _ _
  | .vcmpVv _ _ _ _ _ _ | .vcmpVx _ _ _ _ _ _ | .vcmpVi _ _ _ _ _ _ | .vselVv _ _ _ _ | .vselVx _ _ _ _ | .vselVi _ _ _ _
  | .vclipVv _ _ _ _ _ | .vclipVx _ _ _ _ _ | .vclipVi _ _ _ _ _ | .vwcvt _ _ _ _ _ | .vredi _ _ _ _
  | .vslupVx _ _ _ _ | .vslupVi _ _ _ _ | .vsldnVx _ _ _ _ | .vsldnVi _ _ _ _ | .vperm _ _ _ _ | .vcmpr _ _ _ _ | .vxpnd _ _ _ _
  | .viota _ _ _ | .vbcstVx _ _ _ | .vbcstVi _ _ _ | .vmvxs _ _ _ | .vmvsx _ _ | .vscan _ _ _ _ _
  | .plog _ _ _ _ _ | .pbrk _ _ _ _ | .pcnt _ _ _ | .pfirst _ _ _ | .pset _ _ _ _ | .pmovToVector _ _ _ | .pmovToPredicate _ _ _
  | .vfaddVv _ _ _ _ | .vfaddVf _ _ _ _ | .vfaddVx _ _ _ _ | .vfsubVv _ _ _ _ | .vfsubVf _ _ _ _ | .vfsubVx _ _ _ _
  | .vfmulVv _ _ _ _ | .vfmulVf _ _ _ _ | .vfmulVx _ _ _ _ | .vfmaVv _ _ _ _ _ | .vfmaVf _ _ _ _ _ | .vfmaVx _ _ _ _ _
  | .vfminVv _ _ _ _ | .vfminVf _ _ _ _ | .vfminVx _ _ _ _ | .vfmaxVv _ _ _ _ | .vfmaxVf _ _ _ _ | .vfmaxVx _ _ _ _
  | .vfdivVv _ _ _ _ | .vfdivVf _ _ _ _ | .vfdivVx _ _ _ _ | .vfsqrt _ _ _ | .vfrsqe _ _ _ | .vfexp2e _ _ _
  | .vfcmpVv _ _ _ _ _ | .vfcmpVf _ _ _ _ _ | .vfcmpVx _ _ _ _ _ | .vfsgn _ _ _ _ | .vfcvt _ _ _ _ _ | .vredf _ _ _ _ _
  | .vtagg _ _ | .vtags _ _ | .vsetvl _ _ _ | .vsetvli _ _ _ | .csrAccess _ _ _ _ _ | .hint _ | .ecall
  | .baseIsaInstruction _ | .illegalInstruction _ => true
  | _ => false

/-- Two states hold the same bytes: memory with the key of each line, poison, and every core's tile memory and SDM. -/
def sameBytes (s t : State) : Prop :=
  t.mem = s.mem ∧ t.lineKey = s.lineKey ∧ t.poison = s.poison ∧ t.unspec = s.unspec ∧
    ∀ c, (coreOf t c).tile = (coreOf s c).tile ∧ (coreOf t c).sdm = (coreOf s c).sdm ∧
      (coreOf t c).poisonT = (coreOf s c).poisonT ∧ (coreOf t c).poisonS = (coreOf s c).poisonS

/-- The scalar loads and stores, the A extension and the fences of the base ISA. -/
def scalarMemory : Instr → Bool
  | .scalarLoad _ _ _ _ | .scalarStore _ _ _ _ | .scalarAmo _ _ _ _ _ _ _ | .lr _ _ _ _ _ | .sc _ _ _ _ _ _ | .fence _ _ _
  | .fenceI => true
  | _ => false

/-- A hart's pc and the addresses it returns to are multiples of 4. -/
def pcOk (h : Hart) : Prop := h.pc.toNat % 4 = 0 ∧ h.pr.sepc.toNat % 4 = 0 ∧ h.pr.mepc.toNat % 4 = 0

/-! ### Scalar results, in the arithmetic of the standard library's bit vectors -/

/-- The current hart completes an instruction that writes one integer register: x0 discards the value, the pc moves on by 4, and
`minstret` counts unless inhibited. -/
def wroteX (s : State) (rd : RegIx) (v : Word) : State :=
  updMe s fun h => retire { hartSetX h rd v with pc := h.pc + 4 }

/-- The current hart completes an instruction that writes the pc, and the integer register `rd`. -/
def jumped (s : State) (rd : RegIx) (v target : Word) : State :=
  updMe s fun h => retire { hartSetX h rd v with pc := target }

/-- The current hart takes an exception at the instruction it stands at. -/
def raised (s : State) (cause : Nat) (tval : Word) : State :=
  takeException (updMe s fun h => { h with wait := none, stall := 0 }) s.cur cause tval

/-- The low 32 bits, as a signed number of 64. -/
def lowSigned (x : BitVec 32) : Word := x.signExtend 64

/-- Register-register operations of RV64I, M, Zba and Zbb. -/
def regResult (o : RegOp) (x y : Word) : Word :=
  let k := y.toNat % 64
  match o with
  | .add => x + y
  | .sub => x - y
  | .sll => x <<< k
  | .slt => if x.toInt < y.toInt then 1 else 0
  | .sltu => if x.toNat < y.toNat then 1 else 0
  | .xor => x ^^^ y
  | .srl => x >>> k
  | .sra => x.sshiftRight k
  | .or => x ||| y
  | .and => x &&& y
  | .mul => x * y
  | .mulh => ((x.signExtend 128 * y.signExtend 128) >>> 64).truncate 64
  | .mulhsu => ((x.signExtend 128 * y.zeroExtend 128) >>> 64).truncate 64
  | .mulhu => ((x.zeroExtend 128 * y.zeroExtend 128) >>> 64).truncate 64
  | .div => if y = 0 then -1 else x.sdiv y
  | .divu => if y = 0 then -1 else x.udiv y
  | .rem => if y = 0 then x else x.srem y
  | .remu => if y = 0 then x else x.umod y
  | .sh1add => 2 * x + y
  | .sh2add => 4 * x + y
  | .sh3add => 8 * x + y
  | .andn => x &&& ~~~y
  | .orn => x ||| ~~~y
  | .xnor => x ^^^ ~~~y
  | .max => if x.toInt < y.toInt then y else x
  | .maxu => if x.toNat < y.toNat then y else x
  | .min => if x.toInt < y.toInt then x else y
  | .minu => if x.toNat < y.toNat then x else y
  | .rol => x.rotateLeft k
  | .ror => x.rotateRight k

/-- The operations on low words; the results of 32 bits are sign-extended. -/
def regWResult (o : RegWOp) (x y : Word) : Word :=
  let a : BitVec 32 := x.truncate 32
  let b : BitVec 32 := y.truncate 32
  let k := b.toNat % 32
  match o with
  | .addw => lowSigned (a + b)
  | .subw => lowSigned (a - b)
  | .sllw => lowSigned (a <<< k)
  | .srlw => lowSigned (a >>> k)
  | .sraw => lowSigned (a.sshiftRight k)
  | .mulw => lowSigned (a * b)
  | .divw => if b = 0 then -1 else lowSigned (a.sdiv b)
  | .divuw => if b = 0 then -1 else lowSigned (a.udiv b)
  | .remw => if b = 0 then lowSigned a else lowSigned (a.srem b)
  | .remuw => if b = 0 then lowSigned a else lowSigned (a.umod b)
  | .addUw => a.zeroExtend 64 + y
  | .sh1addUw => 2 * a.zeroExtend 64 + y
  | .sh2addUw => 4 * a.zeroExtend 64 + y
  | .sh3addUw => 8 * a.zeroExtend 64 + y
  | .rolw => lowSigned (a.rotateLeft k)
  | .rorw => lowSigned (a.rotateRight k)

/-- Register-immediate operations; `m` is the immediate, sign-extended. -/
def immResult (o : ImmOp) (x m : Word) : Word :=
  match o with
  | .addi => x + m
  | .slti => if x.toInt < m.toInt then 1 else 0
  | .sltiu => if x.toNat < m.toNat then 1 else 0
  | .xori => x ^^^ m
  | .ori => x ||| m
  | .andi => x &&& m

/-- Shifts by an immediate. -/
def shiftResult (o : ShImmOp) (x : Word) (k : Nat) : Word :=
  match o with
  | .slli => x <<< k
  | .srli => x >>> k
  | .srai => x.sshiftRight k
  | .rori => x.rotateRight k
  | .slliUw => ((x.truncate 32 : BitVec 32).zeroExtend 64) <<< k

/-- Shifts of the low word by an immediate. -/
def shiftWResult (o : ShImmWOp) (x : Word) (k : Nat) : Word :=
  let a : BitVec 32 := x.truncate 32
  match o with
  | .slliw => lowSigned (a <<< k)
  | .srliw => lowSigned (a >>> k)
  | .sraiw => lowSigned (a.sshiftRight k)
  | .roriw => lowSigned (a.rotateRight k)

/-- The bits of a word, lowest first. -/
def bitsOf (w n : Nat) : List Bool := (List.range w).map n.testBit

/-- Byte k of a word. -/
def byteOf (x : Word) (k : Nat) : Nat := x.toNat / 256 ^ k % 256

/-- Does a value hold the result of an operation of one operand? Counts are in the terms of the word's bits. -/
def unaryHolds (o : UnOp) (x v : Word) : Prop :=
  match o with
  | .clz => v.toNat = ((bitsOf 64 x.toNat).reverse.takeWhile fun b => !b).length
  | .ctz => v.toNat = ((bitsOf 64 x.toNat).takeWhile fun b => !b).length
  | .cpop => v.toNat = (bitsOf 64 x.toNat).count true
  | .clzw => v.toNat = ((bitsOf 32 x.toNat).reverse.takeWhile fun b => !b).length
  | .ctzw => v.toNat = ((bitsOf 32 x.toNat).takeWhile fun b => !b).length
  | .cpopw => v.toNat = (bitsOf 32 x.toNat).count true
  | .sextB => v = (x.truncate 8 : BitVec 8).signExtend 64
  | .sextH => v = (x.truncate 16 : BitVec 16).signExtend 64
  | .zextH => v = (x.truncate 16 : BitVec 16).zeroExtend 64
  | .orcB => ∀ k < 8, byteOf v k = if byteOf x k = 0 then 0 else 255
  | .rev8 => ∀ k < 8, byteOf v k = byteOf x (7 - k)

/-- Is a branch accepted -/
def branchHolds (o : BrOp) (x y : Word) : Prop :=
  match o with
  | .beq => x = y
  | .bne => x ≠ y
  | .blt => x.toInt < y.toInt
  | .bge => y.toInt ≤ x.toInt
  | .bltu => x.toNat < y.toNat
  | .bgeu => y.toNat ≤ x.toNat

/-! ### Floating point: exact values are rational numbers -/

/-- The rational number that a value is; none for NaN and infinities. -/
def valQ : FVal → Option ℚ
  | .fin neg m e => some ((if neg then -1 else 1) * (m : ℚ) * (2 : ℚ) ^ e)
  | _ => none

/-- The rational number that an unrounded result is. -/
def outQ : FOut → Option ℚ
  | .zero _ => some 0
  | .rat neg n d => some ((if neg then -1 else 1) * ((n : ℚ) / (d : ℚ)))
  | _ => none

/-- Is y, of pattern `b`, what the mode rounds x to among the values `R`, each with its pattern? -/
def roundsTo {K : Type} [Field K] [LinearOrder K] (rm : Rnd) (R : K → Nat → Prop) (x y : K) (b : Nat) : Prop :=
  R y b ∧ ∀ z c, R z c →
    match rm with
    | .rne => |x - y| ≤ |x - z| ∧ (|x - z| = |x - y| → z ≠ y → b % 2 = 0)
    | .rmm => |x - y| ≤ |x - z| ∧ (|x - z| = |x - y| → |z| ≤ |y|)
    | .rtz => |y| ≤ |x| ∧ 0 ≤ x * y ∧ (|z| ≤ |x| → |z| ≤ |y|)
    | .rdn => y ≤ x ∧ (z ≤ x → z ≤ y)
    | .rup => x ≤ y ∧ (x ≤ z → y ≤ z)
    | .sr => ¬ (y < z ∧ z ≤ x) ∧ ¬ (x ≤ z ∧ z < y)

/-- Less-than and equality of two values; false where one is a NaN. -/
def lessF (a b : FVal) : Bool :=
  match a, b with
  | .inf s, .inf t => s && !t
  | .inf s, .fin _ _ _ => s
  | .fin _ _ _, .inf t => !t
  | a, b => match valQ a, valQ b with | some x, some y => decide (x < y) | _, _ => false
def equalF (a b : FVal) : Bool :=
  match a, b with
  | .inf s, .inf t => s == t
  | a, b => match valQ a, valQ b with | some x, some y => decide (x = y) | _, _ => false

/-- The pattern that FMIN or FMAX gives of two operands (IEEE 754-2019 minimumNumber and maximumNumber): the number where one is a NaN,
the canonical NaN where both are; −0 is less than +0. -/
def minMaxF (mx : Bool) (canon : Nat) (va vb : FVal) (a b sa : Nat) : Nat :=
  if isNaN va then if isNaN vb then canon else b
  else if isNaN vb then a
  else if mx then if lessF vb va || (!lessF va vb && sa == 0) then a else b
  else if lessF va vb || (!lessF vb va && sa == 1) then a else b

/-- The bit that FCLASS sets for a pattern with `mb` fraction and `eb` exponent bits: from negative infinity, negative normal, subnormal
and zero, the positive ones likewise, to the signalling and the quiet NaN. -/
def classF (eb mb n : Nat) : Nat :=
  let frac := n % 2 ^ mb
  let ex := n / 2 ^ mb % 2 ^ eb
  let neg := n / 2 ^ (mb + eb) % 2 = 1
  if ex = 2 ^ eb - 1 then
    if frac = 0 then if neg then 0 else 7 else if frac / 2 ^ (mb - 1) = 0 then 8 else 9
  else if ex = 0 then
    if frac = 0 then if neg then 3 else 4 else if neg then 2 else 5
  else if neg then 1 else 6

/-- The rounding mode of an F or D instruction: its field, or with 111 that of `frm`; none where neither is a mode. -/
def frmMode (s : State) (rm : FRm) : Option Rnd :=
  match (if rm = 7 then (me s).fcsr.toNat / 32 else rm.toNat) with
  | 0 => some .rne | 1 => some .rtz | 2 => some .rdn | 3 => some .rup | 4 => some .rmm | _ => none

/-- The current hart completes an instruction that writes an f register and raises flags. -/
def wroteF (s : State) (p : FPrec) (rd : RegIx) (bits fl : Nat) : State :=
  updMe s fun h => retire { h with
    f := aputC 0 h.f rd.val (fBox p bits), fcsr := h.fcsr ||| BitVec.ofNat 8 (fl % 32), pc := h.pc + 4
    pr := { h.pr with mstatus := h.pr.mstatus ||| 0x6000 } }

/-- The current hart completes a floating-point instruction that writes an x register and raises flags. -/
def wroteXF (s : State) (rd : RegIx) (v : Word) (fl : Nat) : State :=
  updMe s fun h => retire { hartSetX h rd v with
    fcsr := h.fcsr ||| BitVec.ofNat 8 (fl % 32), pc := h.pc + 4
    pr := { h.pr with mstatus := if fl % 32 = 0 then h.pr.mstatus else h.pr.mstatus ||| 0x6000 } }

/-- An exact result with its flags, rounded once into a precision. -/
def roundedF (p : FPrec) (rm : Rnd) (x : FOut × Nat) : Nat × Nat :=
  let r := narrow (match p with | .s => ⟨8, 23, 127, .ieee⟩ | .d => ⟨11, 52, 1023, .ieee⟩) rm 0 x.1
  (r.1, x.2 ||| r.2)

/-- The value of an operand: an improperly boxed single is the canonical NaN. -/
def operandF (s : State) (p : FPrec) (r : RegIx) : FVal :=
  match p with
  | .s => fdecode ⟨8, 23, 127, .ieee⟩ (if (rdF s r).toNat / 2 ^ 32 = 2 ^ 32 - 1 then (rdF s r).toNat % 2 ^ 32 else 0x7FC00000)
  | .d => fdecode ⟨11, 52, 1023, .ieee⟩ (rdF s r).toNat

/-- The floating-point instructions of the base ISA that take a rounding mode, with it. -/
def roundedBy : BaseInstr → Option FRm
  | .fma _ _ _ _ _ _ rm | .farith _ _ _ _ _ rm | .fsqrt _ _ _ rm | .fcvtToInt _ _ _ _ rm | .fcvtFromInt _ _ _ _ rm
  | .fcvtFF _ _ _ rm => some rm
  | _ => none

/-- The integer that FCVT gives: rounded, or the nearest bound with NV where that lies outside the type; NaN gives the largest. -/
def intOfF (w : Nat) (sg : Bool) (rm : Rnd) (v : FVal) : Nat × Nat :=
  let lo : ℤ := if sg then -2 ^ (w - 1) else 0
  let hi : ℤ := if sg then 2 ^ (w - 1) - 1 else 2 ^ w - 1
  match v with
  | .nan _ => (hi.toNat, flNV)
  | .inf neg => ((if neg then lo % 2 ^ w else hi).toNat, flNV)
  | .fin neg m e =>
    let d := if e < 0 then 2 ^ (-e).toNat else 1
    let n := if e < 0 then m else m * 2 ^ e.toNat
    let q := (n / d + if roundsUp rm neg 0 (n / d) (n % d) d then 1 else 0 : Nat)
    let z : ℤ := if neg then -q else q
    if z < lo then ((lo % 2 ^ w).toNat, flNV) else if hi < z then (hi.toNat, flNV)
    else ((z % 2 ^ w).toNat, if n % d = 0 then 0 else flNX)

/-! ### Exceptions, returns, CSRs -/

/-- The registers that programs compute with, and the Xebin CSRs, are the same. -/
def sameRegs (a b : Hart) : Prop :=
  a.x = b.x ∧ a.f = b.f ∧ a.fcsr = b.fcsr ∧ a.v = b.v ∧ a.tags = b.tags ∧ a.sc = b.sc ∧ a.p = b.p ∧ a.xc = b.xc ∧
    a.spill = b.spill ∧ a.run = b.run

/-- The current hart completes an instruction that changes nothing but the pc. -/
def passed (s : State) : State := updMe s fun h => retire { h with pc := h.pc + 4 }

/-- Two words agree but on the bits of a list. -/
def agreeBut (a b : Word) (ks : List Nat) : Prop := ∀ k, k ∉ ks → a.toNat.testBit k = b.toNat.testBit k

/-- A hart has entered S-mode for a trap (privileged architecture 1.12). -/
def enteredS (a b : Hart) (cause tval target : Word) : Prop :=
  b.priv = .s ∧ b.pc = target ∧ b.pr.sepc = a.pc ∧ b.pr.scause = cause ∧ b.pr.stval = tval ∧
    b.pr.mstatus.toNat.testBit 5 = a.pr.mstatus.toNat.testBit 1 ∧ b.pr.mstatus.toNat.testBit 1 = false ∧
    b.pr.mstatus.toNat.testBit 8 = decide (a.priv ≠ .u) ∧ agreeBut b.pr.mstatus a.pr.mstatus [1, 5, 8] ∧
    b.pr = { a.pr with mstatus := b.pr.mstatus, sepc := b.pr.sepc, scause := b.pr.scause, stval := b.pr.stval }

/-- A hart has entered M-mode for a trap. -/
def enteredM (a b : Hart) (cause tval target : Word) : Prop :=
  b.priv = .m ∧ b.pc = target ∧ b.pr.mepc = a.pc ∧ b.pr.mcause = cause ∧ b.pr.mtval = tval ∧
    b.pr.mstatus.toNat.testBit 7 = a.pr.mstatus.toNat.testBit 3 ∧ b.pr.mstatus.toNat.testBit 3 = false ∧
    b.pr.mstatus.toNat / 2048 % 4 = (match a.priv with | .u => 0 | .s => 1 | .m => 3) ∧
    agreeBut b.pr.mstatus a.pr.mstatus [3, 7, 11, 12] ∧
    b.pr = { a.pr with mstatus := b.pr.mstatus, mepc := b.pr.mepc, mcause := b.pr.mcause, mtval := b.pr.mtval }

/-- Where a handler stands: the base, or in vectored mode for an interrupt base + 4 cause. -/
def handlerAt (tvec : Word) (cause : Nat) (irq : Bool) : Word :=
  (tvec &&& 0xFFFFFFFFFFFFFFFC) + if irq && tvec.toNat % 4 == 1 then BitVec.ofNat 64 (4 * cause) else 0

/-- The firmware stub has taken a trap of a hart: it is in M-mode, and its gang, unless it ends already, ends with the cause, the hart,
the pc and the value (spec/13 R244). -/
def stubTook (s t : State) (h cause : Nat) (irq : Bool) (tval : Word) : Prop :=
  enteredM (hartOf s h) (hartOf t h) (BitVec.ofNat 64 (if irq then 2 ^ 63 + cause else cause)) tval
      (handlerAt (hartOf s h).pr.mtvec cause irq) ∧
    ∀ seat, (coreOf s (h / 8)).gang = some seat → (∀ c g pc v, (gangOf s seat).state ≠ .ending c g pc v) →
      (gangOf t seat).state = .ending cause (ghartOf s h) (hartOf s h).pc tval

/-- The CSRs that keep what M-mode writes to them, with the bits that they have (spec/03 Tables 3-4 and 3-6, R53). -/
def csrKeeps : List (Nat × Word) :=
  [(0x803, 0x3F), (0x804, 0xFFFFFFFFFFFFFFF0), (0x805, 0x1FFFF), (0x806, 0xFFFFFFFFFFFFFFFF), (0x807, 0xFFFFFFFFFFFFFFFF),
   (0x808, 0xFFFFFFFFFFFFFFC0), (0x809, 0xFFFFFFFFFFFFFFFF), (0x5C0, 0xFFFFFFFFFF000), (0x5C1, 0xFFFFFFF), (0x5C2, 0xFFFFFFFFFF001),
   (0x5C3, 0xFFFF), (0x5C4, 0xFFFF), (0x5C5, 0xFFFFFFFF), (0x5C6, 1), (0x140, 0xFFFFFFFFFFFFFFFF), (0x141, 0xFFFFFFFFFFFFFFFC),
   (0x142, 0xFFFFFFFFFFFFFFFF), (0x143, 0xFFFFFFFFFFFFFFFF), (0x340, 0xFFFFFFFFFFFFFFFF), (0x341, 0xFFFFFFFFFFFFFFFC),
   (0x342, 0xFFFFFFFFFFFFFFFF), (0x343, 0xFFFFFFFFFFFFFFFF)]

/-! ### Scalar memory -/

/-- The translation of an access of the current hart finds a location, and nothing holds the access back: its own transfers and
reductions (spec/07 R137, R138), strong ordering, and register writes that have not taken effect. `s1` is the state after the
translation. -/
def reaches (s s1 : State) (k : AKind) (u : Use) (va n : Nat) (l : Loc) : Prop :=
  va % n = 0 ∧ translate s (accessCtx s k) k u va = (s1, .ok l) ∧
    ownWaits s1 (myCore s1) (mySlot s1) va n (decide (k = .store)) = false ∧
    (∀ pa key, l = .phys pa 3 key → strongReady s1 s1.cur = true) ∧ ∀ off, l = .mmio off → s1.io.devQ = []

/-- No word that an access reads is poisoned (spec/13 R261). -/
def sound (s1 : State) (n : Nat) (l : Loc) : Prop :=
  locPoisoned (match l with | .phys _ 3 _ => performAll s1 s1.cur | _ => s1) l n = false

/-- A location is no register, and a physical one is aligned to its width and not strongly ordered. Every location that an aligned
address translates to is aligned, while the held translations map whole pages. -/
def weak (n : Nat) (l : Loc) : Prop := (∀ pa mt key, l = .phys pa mt key → mt ≠ 3 ∧ pa % n = 0) ∧ ∀ off, l ≠ .mmio off

/-- Byte k of a register of the windows, from its aligned offset, outside the dirty window. -/
def regByte (s : State) (off k : Nat) : Byte := BitVec.ofNat 8 ((readReg s (off / 8 * 8)).toNat >>> (8 * (off % 8 + k)))

/-- The cache has a place for a location's line, or holds it under its key, or does not hold such locations at all. -/
def lineSettled (s : State) (l : Loc) : Prop :=
  match l with
  | .phys pa _ key =>
    match aget? (coreOf s (myCore s)).dcache (pa / 64) with
    | some d => d.key = key
    | none => (coreOf s (myCore s)).dcache.length < 512
  | _ => True

/-- The byte k of a location as the current hart's scalar accesses see it: its write-combining buffer, its core's line, or the home. -/
def seenByte (s : State) (l : Loc) (k : Nat) : Byte :=
  let home := BitVec.ofNat 8 (homeRead s (locAdd l k) 1)
  match l with
  | .phys pa 1 _ => match aget? (me s).wc (pa + k) with | some e => e.1 | none => home
  | .phys pa _ _ =>
    if isCached l then
      match aget? (coreOf s (myCore s)).dcache (pa / 64) with
      | some d => BitVec.ofNat 8 (d.data.toNat >>> (8 * (pa % 64 + k)))
      | none => home
    else home
  | _ => home

/-- The registers of a hart but for x, f, FS and what every completed instruction moves. -/
def sameOther (a b : Hart) : Prop :=
  a.fcsr = b.fcsr ∧ a.v = b.v ∧ a.tags = b.tags ∧ a.sc = b.sc ∧ a.p = b.p ∧ a.xc = b.xc ∧ a.spill = b.spill ∧ a.run = b.run ∧
    a.priv = b.priv ∧ agreeBut a.pr.mstatus b.pr.mstatus [13, 14]

/-- The bytes of storage that a write of n bytes at a location's sole writer may change: those bytes; and for a physical location its
line, whose other bytes keep their value under the key, and the bitmap of `xdirty`. -/
def homeFrame (s t : State) (l : Loc) (n : Nat) : Prop :=
  (∀ c a, ¬ (∃ off, l = .tile c off ∧ off ≤ a ∧ a < off + n) → aget 0 (coreOf t c).tile a = aget 0 (coreOf s c).tile a) ∧
  (∀ c a, ¬ (∃ off, l = .sdm c off ∧ off ≤ a ∧ a < off + n) → aget 0 (coreOf t c).sdm a = aget 0 (coreOf s c).sdm a) ∧
  (∀ a, ¬ (∃ pa mt key, l = .phys pa mt key ∧ pa / 64 = a / 64) →
    (rawByte t a = rawByte s a ∨ bitOf (me s).xc.dirty.toNat 0 = true ∧
      fieldOf (me s).xc.dirty.toNat 51 12 * 4096 ≤ a ∧ a < fieldOf (me s).xc.dirty.toNat 51 12 * 4096 + 0x1800000)) ∧
  (∀ pa mt key a, l = .phys pa mt key → pa / 64 = a / 64 → ¬ (pa ≤ a ∧ a < pa + n) → bitOf (me s).xc.dirty.toNat 0 = false →
    physByte t (keyId s key) a = physByte s (keyId s key) a)

/-- The bytes of storage that a scalar store to n bytes at a location may change: those of its write, and none where a buffer or the
cache takes it (in `Claim.lineSettled` no line leaves the cache). -/
def storeFrame (s t : State) (l : Loc) (n : Nat) : Prop :=
  homeFrame s t l n ∧ ∀ pa key, l = .phys pa 1 key ∨ l = .phys pa 0 key ∧ isCached l = true → t.mem = s.mem

/-- An atomic of the current hart changes no register of it but x, and none of another hart. -/
def atomicFrame (s t : State) : Prop :=
  (me t).f = (me s).f ∧ sameOther (me s) (me t) ∧ ∀ h, h ≠ s.cur → sameRegs (hartOf s h) (hartOf t h)

/-- The value that an AMO writes, in the arithmetic of bit vectors. -/
def amoResult (o : AmoOp) {w : Nat} (m d : BitVec w) : BitVec w :=
  match o with
  | .swap => d
  | .add => m + d
  | .xor => m ^^^ d
  | .and => m &&& d
  | .or => m ||| d
  | .min => if d.toInt < m.toInt then d else m
  | .max => if m.toInt < d.toInt then d else m
  | .minu => if d.toNat < m.toNat then d else m
  | .maxu => if m.toNat < d.toNat then d else m

/-- The bytes of a load and whether it extends the sign. -/
def loadKind : LoadKind → Nat × Bool
  | .lb => (1, true) | .lh => (2, true) | .lw => (4, true) | .ld => (8, true)
  | .lbu => (1, false) | .lhu => (2, false) | .lwu => (4, false) | .flw => (4, false) | .fld => (8, false)

/-- Is it a floating-point load? -/
def loadsF (k : LoadKind) : Prop := k = .flw ∨ k = .fld

/-- The bytes of a store. -/
def storeKind : StoreKind → Nat
  | .sb => 1 | .sh => 2 | .sw => 4 | .sd => 8 | .fsw => 4 | .fsd => 8

/-- Is the floating-point unit off? -/
def fpOff (s : State) : Prop := (me s).pr.mstatus.toNat / 8192 % 4 = 0

/-! ### Translation -/

/-- The held translations start on page boundaries. -/
def pagesAligned (s : State) : Prop :=
  (∀ c e, e ∈ (coreOf s c).utlb → e.va % 4096 = 0) ∧
  ∀ d k l, (k, l) ∈ (dieOf s d).slices → ∀ e ∈ l, e.va % 4096 = 0

/-- A window of a tenant passes an access to a frame under a key slot that holds a key (spec/06 R110). -/
def windowPasses (s : State) (tid frame key : Nat) (wr : Bool) : Prop :=
  aget 0 s.io.keys key ≠ 0 ∧ ∃ n < 64,
    let w0 := (aget 0 s.io.pwin (128 * tid + 2 * n)).toNat
    let w1 := (aget 0 s.io.pwin (128 * tid + 2 * n + 1)).toNat
    w0.testBit 0 = true ∧ w0.testBit (if wr then 2 else 1) = true ∧ w0 / 4096 % 2 ^ 40 ≤ frame ∧ frame ≤ w1 / 4096 % 2 ^ 40 ∧
      (aget 0 s.io.wkey (64 * tid + n)).toNat = key

/-- The current hart waits at an instruction. -/
def waits (s : State) (i : Instr) : State := updMe s fun h => { h with wait := some i }

/-- A held translation maps no byte of a range, and neither does its CONTIG group, where it is of one. -/
def mapsNone (lo hi : Nat) (e : TlbEnt) : Prop :=
  if e.pte.toNat.testBit 50 then hi ≤ e.va / 65536 * 65536 ∨ e.va / 65536 * 65536 + 65536 ≤ lo
  else hi ≤ e.va ∨ e.va + e.size ≤ lo

/-- No translation of a range of an address space is held anywhere, and no core's cache holds a line of it. -/
def rangeGone (s : State) (asid tid lo hi : Nat) : Prop :=
  (∀ c e, e ∈ (coreOf s c).utlb → e.asid = asid → e.tid = tid → mapsNone lo hi e) ∧
  (∀ d k l, (k, l) ∈ (dieOf s d).slices → ∀ e ∈ l, e.asid = asid → e.tid = tid → mapsNone lo hi e) ∧
  (∀ d e, e ∈ (dieOf s d).pwc → e.asid = asid → e.tid = tid →
    hi ≤ e.idx * 2 ^ (21 + 9 * e.lvl) ∨ (e.idx + 1) * 2 ^ (21 + 9 * e.lvl) ≤ lo) ∧
  ∀ c k l, (k, l) ∈ (coreOf s c).dcache → l.asid = asid → l.tid = tid → hi ≤ l.va ∨ l.va + 64 ≤ lo

/-- The range that TLBIR names: whole pages around [base, base + length), or all of global space. -/
def namedRange (base len : Nat) : Nat × Nat :=
  if len = 0 then (0, 2 ^ 59) else (base / 4096 * 4096, (base + len + 4095) / 4096 * 4096)

/-! ### Sync objects (spec/07 Table 7-4), monitors, barriers -/

/-- The object at an address is reached: aligned, in global space, MT normal, and nothing of the hart's own holds the access back. `s2` is
the state in which the home agent acts: the translation made, and the core's line of the object gone. -/
def reachesObj (s s2 : State) (va : Nat) (l : Loc) : Prop :=
  ∃ s1, reaches s s1 .store .sync va 16 l ∧ s2 = flushLoc s1 (myCore s) l ∧ locPoisoned s1 l 16 = false

/-- Word 0 of a sync object with MODE and SHR replaced. -/
def objWord (w mode shr : Nat) : Nat := w / 2 ^ 32 * 2 ^ 32 + shr * 2 ^ 16 + w / 4 % 2 ^ 14 * 4 + mode

/-- MODE, SHR, and whether word 0 is one that no operation leaves. -/
def modeOf (w : Nat) : Nat := w % 4
def shrOf (w : Nat) : Nat := w / 2 ^ 16 % 2 ^ 16
def objBroken (w : Nat) : Prop := modeOf w = 3 ∨ modeOf w = 2 ∧ shrOf w = 0

/-- Is an acquire granted, and with what word 0 (spec/07 R128)? -/
def grants (shared : Bool) (w w' : Nat) : Prop :=
  if shared then modeOf w ≠ 1 ∧ shrOf w < 65535 ∧ w' = objWord w 2 (shrOf w + 1)
  else modeOf w = 0 ∧ w' = objWord w 1 (shrOf w)

/-- Scopes of ACQ and REL (spec/07 R123). -/
def objScoped (sc : Scope) : Prop := sc = .core ∨ sc = .gang ∨ sc = .die ∨ sc = .pkg ∨ sc = .sys

/-- The current hart completes and writes an integer register, after a change of state. -/
def wrote (s t : State) (rd : RegIx) (v : Word) : Prop :=
  (me t).pc = (me s).pc + 4 ∧ (∀ r, rdX t r = if r.val = 0 then 0 else if r = rd then v else rdX s r) ∧
    (me t).f = (me s).f ∧ (me t).fcsr = (me s).fcsr ∧ (me t).v = (me s).v ∧ (me t).p = (me s).p ∧ (me t).priv = (me s).priv ∧
    (me t).wait = none

/-! ### Vector instructions -/

/-- What a vector instruction finds at its hart: no unit holds the vector registers, and vtype is legal (spec/05 Table 5-9, step 4). -/
def vecSees (s : State) (pg : Nat) (e : VEnv) : Prop :=
  lentTo s s.cur = false ∧ regsBusy s s.cur = false ∧ vtypeOf (me s).xc.vtype.toNat = some (e.lg, e.fmt, e.blk) ∧
    e = ⟨me s, lanesOf s s.cur, (me s).xc.vl.toNat, (me s).xc.vstart.toNat, e.lg, e.fmt, e.blk, pg⟩

/-- Steps 5 and 6 of Table 5-9 for an instruction that does not restart: the class, the groups and `xvstart` = 0, or cause 2; then the
tags, or cause 25; then what the instruction does. -/
def vecGate (s : State) (i : Instr) (e : VEnv) (ok tags : Prop) (effect : Prop) : Prop :=
  (¬ (ok ∧ e.vstart = 0) → exec i s = .next (raised s 2 (wordOf i))) ∧
  (ok → e.vstart = 0 → ¬ tags → exec i s = .next (raised s 25 (wordOf i))) ∧
  (ok → e.vstart = 0 → tags → effect)

/-- A group of registers: its size, and a base that is a multiple of it. -/
def aligned (r n : Nat) : Prop := n ≤ 8 ∧ r % n = 0

/-- Two groups share no register. -/
def apart (a m b n : Nat) : Prop := a + m ≤ b ∨ b + n ≤ a

/-- Every register of a group carries a tag. -/
def tagged (e : VEnv) (r n t : Nat) : Prop := ∀ k < n, hartTag e.h (r + k) = t

/-- Is the operand's group aligned, and does it carry the vtype tag? Other forms have none. -/
def opGroupOk (e : VEnv) : Opnd → Prop
  | .v r => aligned r.val e.grp
  | _ => True
def opTagged (e : VEnv) : Opnd → Prop
  | .v r => tagged e r.val e.grp e.tag
  | _ => True

/-- Element k of a group of the hart's registers. -/
def element (e : VEnv) (w r n k : Nat) : BitVec w := BitVec.ofNat w (elemOf w (rdGroup e.h e.regBits r n) k)

/-- The operand of element k in SEW bits (spec/05 R82). -/
def operand (e : VEnv) (k : Nat) : Opnd → BitVec e.sew
  | .v r => element e e.sew r.val e.grp k
  | .x r => (hartX e.h r).truncate e.sew
  | .i m => m.signExtend e.sew
  | .u m => BitVec.ofNat e.sew m.toNat
  | .f _ => 0

/-- The hart completes with a group of registers and its tags written where an element is processed, and what else `post` writes. -/
def vput (s : State) (e : VEnv) (d n g tag : Nat) (post : Hart → Hart) : State :=
  updMe s fun h => retire { post (if e.vstart < e.vl then setTags (wrGroup h e.regBits d n g) d n tag else h) with
    xc := { (post h).xc with vstart := 0 }, pc := h.pc + 4 }

/-- It completes so, and each element of the group that is written reads as given, the others as before; the registers outside the
group are as before. -/
def vwrote (s t : State) (e : VEnv) (d n w tag : Nat) (post : Hart → Hart) (val : Nat → Option (BitVec w)) : Prop :=
  (∃ g, t = vput s e d n g tag post) ∧
  (∀ k, (k + 1) * w ≤ e.regBits * n → BitVec.ofNat w (elemOf w (rdGroup (me t) e.regBits d n) k) = (val k).getD (element e w d n k)) ∧
  ∀ r, r < d ∨ d + n ≤ r → hartV (me t) r = hartV e.h r ∧ hartTag (me t) r = hartTag e.h r

/-- The value of active elements, nothing for the others. -/
def onActive {w : Nat} (e : VEnv) (f : Nat → BitVec w) (k : Nat) : Option (BitVec w) := if e.active k then some (f k) else none

/-- The instructions that use the hart's vector unit. -/
def usesVectorUnit : Instr → Bool
  | .csrAccess _ _ _ _ _ | .hint _ | .ecall | .baseIsaInstruction _ | .illegalInstruction _ => false
  | i => registerOnly i

/-- Does the bit of a predicate for element k hold? p0 reads all-true; one bit covers two 4-bit elements (spec/02 R28). -/
def covers (e : VEnv) (p k : Nat) : Prop := p = 0 ∨ (hartP e.h p).testBit (k / if e.sew = 4 then 2 else 1) = true

/-- The active elements whose bit of a predicate holds, ascending. -/
noncomputable def chosen (e : VEnv) (p : Nat) : List Nat :=
  open Classical in (List.range e.vl).filter fun k => e.active k && decide (covers e p k)

/-- The elementwise integer instructions (spec/17 Table 17-3): governing predicate, S2, D, operand, whether D is a source, and the
result in the arithmetic of bit vectors. -/
def intForm : Instr → Option (Fin 4 × RegIx × RegIx × Opnd × Bool × ((w : Nat) → BitVec w → BitVec w → BitVec w → BitVec w))
  | .vaddVv g b a d => some (g, b, d, .v a, false, fun _ _ x y => x + y)
  | .vaddVx g b a d => some (g, b, d, .x a, false, fun _ _ x y => x + y)
  | .vaddVi g b a d => some (g, b, d, .i a, false, fun _ _ x y => x + y)
  | .vsubVv g b a d => some (g, b, d, .v a, false, fun _ _ x y => x - y)
  | .vsubVx g b a d => some (g, b, d, .x a, false, fun _ _ x y => x - y)
  | .vsubVi g b a d => some (g, b, d, .i a, false, fun _ _ x y => x - y)
  | .vmulVv g b a d => some (g, b, d, .v a, false, fun _ _ x y => x * y)
  | .vmulVx g b a d => some (g, b, d, .x a, false, fun _ _ x y => x * y)
  | .vmulVi g b a d => some (g, b, d, .i a, false, fun _ _ x y => x * y)
  | .vmulhVv g b a u d => some (g, b, d, .v a, false, fun w _ x y => highHalf u w x y)
  | .vmulhVx g b a u d => some (g, b, d, .x a, false, fun w _ x y => highHalf u w x y)
  | .vmaccVv g b a d => some (g, b, d, .v a, true, fun _ c x y => c + x * y)
  | .vmaccVx g b a d => some (g, b, d, .x a, true, fun _ c x y => c + x * y)
  | .vmaccVi g b a d => some (g, b, d, .i a, true, fun _ c x y => c + x * y)
  | .vminVv g b a u d => some (g, b, d, .v a, false, fun _ _ x y => if below u y x then y else x)
  | .vminVx g b a u d => some (g, b, d, .x a, false, fun _ _ x y => if below u y x then y else x)
  | .vminVi g b a u d => some (g, b, d, .i a, false, fun _ _ x y => if below u y x then y else x)
  | .vmaxVv g b a u d => some (g, b, d, .v a, false, fun _ _ x y => if below u x y then y else x)
  | .vmaxVx g b a u d => some (g, b, d, .x a, false, fun _ _ x y => if below u x y then y else x)
  | .vmaxVi g b a u d => some (g, b, d, .i a, false, fun _ _ x y => if below u x y then y else x)
  | .vshlVv g b a d => some (g, b, d, .v a, false, fun w _ x y => x <<< (y.toNat % w))
  | .vshlVx g b a d => some (g, b, d, .x a, false, fun w _ x y => x <<< (y.toNat % w))
  | .vshlVi g b a d => some (g, b, d, .u a, false, fun w _ x y => x <<< (y.toNat % w))
  | .vshrVv g b a u d => some (g, b, d, .v a, false, fun w _ x y => shiftedRight u x (y.toNat % w))
  | .vshrVx g b a u d => some (g, b, d, .x a, false, fun w _ x y => shiftedRight u x (y.toNat % w))
  | .vshrVi g b a u d => some (g, b, d, .u a, false, fun w _ x y => shiftedRight u x (y.toNat % w))
  | _ => none
where
  /-- The high half of a product. -/
  highHalf (u : Bool) (w : Nat) (x y : BitVec w) : BitVec w :=
    if u then ((x.zeroExtend (2 * w) * y.zeroExtend (2 * w)) >>> w).truncate w
    else ((x.signExtend (2 * w) * y.signExtend (2 * w)) >>> w).truncate w
  /-- Less-than, unsigned with U. -/
  below (u : Bool) {w : Nat} (x y : BitVec w) : Bool := if u then x.ult y else x.slt y
  /-- A right shift, logical with U. -/
  shiftedRight (u : Bool) {w : Nat} (x : BitVec w) (n : Nat) : BitVec w := if u then x >>> n else x.sshiftRight n

/-- VAND, VOR, VXOR (spec/17 R357). -/
def bitForm : Instr → Option (Fin 4 × RegIx × RegIx × Opnd × ((w : Nat) → BitVec w → BitVec w → BitVec w))
  | .vandVv g b a d => some (g, b, d, .v a, fun _ x y => x &&& y)
  | .vandVx g b a d => some (g, b, d, .x a, fun _ x y => x &&& y)
  | .vandVi g b a d => some (g, b, d, .i a, fun _ x y => x &&& y)
  | .vorVv g b a d => some (g, b, d, .v a, fun _ x y => x ||| y)
  | .vorVx g b a d => some (g, b, d, .x a, fun _ x y => x ||| y)
  | .vorVi g b a d => some (g, b, d, .i a, fun _ x y => x ||| y)
  | .vxorVv g b a d => some (g, b, d, .v a, fun _ x y => x ^^^ y)
  | .vxorVx g b a d => some (g, b, d, .x a, fun _ x y => x ^^^ y)
  | .vxorVi g b a d => some (g, b, d, .i a, fun _ x y => x ^^^ y)
  | _ => none

/-- VSEL (spec/17 R357). -/
def selForm : Instr → Option (Fin 4 × RegIx × RegIx × Opnd)
  | .vselVv g b a d => some (g, b, d, .v a)
  | .vselVx g b a d => some (g, b, d, .x a)
  | .vselVi g b a d => some (g, b, d, .i a)
  | _ => none

/-- VCMP (spec/17 R352). -/
def cmpForm : Instr → Option (Fin 4 × RegIx × Opnd × Bool × CmpCond × Fin 8)
  | .vcmpVv g b a u c p => some (g, b, .v a, u, c, p)
  | .vcmpVx g b a u c p => some (g, b, .x a, u, c, p)
  | .vcmpVi g b a u c p => some (g, b, .i a, u, c, p)
  | _ => none

/-- A condition of VCMP. -/
def compares (c : CmpCond) (u : Bool) {w : Nat} (x y : BitVec w) : Prop :=
  match c with
  | .eq => x = y
  | .ne => x ≠ y
  | .lt => if u then x.toNat < y.toNat else x.toInt < y.toInt
  | .le => if u then x.toNat ≤ y.toNat else x.toInt ≤ y.toInt

/-- The hart completes with a predicate written: bit j of it is `val j` where that is given, and as before where not; p0 discards. -/
def pwrote (s t : State) (p : Fin 8) (post : Hart → Hart) (val : Nat → Option Prop) : Prop :=
  ∃ n, t = updMe s (fun h => retire { post (hartSetP h p.val n) with xc := { (post h).xc with vstart := 0 }, pc := h.pc + 4 }) ∧
    ∀ j < 32768, n.testBit j = true ↔ (val j).getD ((hartP (me s) p.val).testBit j = true)

/-- The element that carries bit j of a predicate: j, or 2 j for 4-bit formats. -/
def carrier (e : VEnv) (j : Nat) : Nat := if e.sew = 4 then 2 * j else j

/-- VCLIP (spec/17 R353). -/
def clipForm : Instr → Option (Fin 4 × RegIx × RegIx × Opnd × Bool)
  | .vclipVv g b a u d => some (g, b, d, .v a, u)
  | .vclipVx g b a u d => some (g, b, d, .x a, u)
  | .vclipVi g b a u d => some (g, b, d, .u a, u)
  | _ => none

/-- What an instruction that rounds threads through its elements: the generator and the flags before each element up to `vl`, the active
ones moving them by `f`, which also gives the element's value; at the end the flags are or-ed into `xvflags` and the generator kept. -/
def threads (e : VEnv) {w : Nat} (f : Nat → NumSt → BitVec w × NumSt) (st : Nat → NumSt) : Prop :=
  st 0 = ⟨e.h.xc.srseed.toNat, 0⟩ ∧ ∀ k < e.vl, st (k + 1) = if e.active k then (f k (st k)).2 else st k

/-- The flags and the generator that it ends with. -/
def endsWith (st : NumSt) (h : Hart) : Hart :=
  { h with xc := { h.xc with flags := h.xc.flags ||| BitVec.ofNat 6 st.flags, srseed := BitVec.ofNat 64 st.seed } }

/-- An exact number divided by 2^sh, rounded to an integer, as VCLIP clamps it: the value, and whether it clamped. -/
def clipped (w : Nat) (u : Bool) (rm : Rnd) (draw : Nat) (x : ℤ) (sh : Nat) : BitVec w × Bool :=
  let q : ℕ := x.natAbs / 2 ^ sh + if roundsUp rm (decide (x < 0)) draw (x.natAbs / 2 ^ sh) (x.natAbs % 2 ^ sh) (2 ^ sh) then 1 else 0
  let z : ℤ := if x < 0 then -q else q
  let lo : ℤ := if u then 0 else -2 ^ (w - 1)
  let hi : ℤ := if u then 2 ^ w - 1 else 2 ^ (w - 1) - 1
  (BitVec.ofInt w (max lo (min z hi)), decide (z < lo ∨ hi < z))

/-- The join and the identity of VREDI's operations. -/
def reduces (o : RedOp) {w : Nat} (x y : BitVec w) : BitVec w :=
  match o with
  | .sum => x + y
  | .min => if x.toInt ≤ y.toInt then x else y
  | .max => if x.toInt ≤ y.toInt then y else x
  | .minu => if x.toNat ≤ y.toNat then x else y
  | .maxu => if x.toNat ≤ y.toNat then y else x
  | .and => x &&& y
  | .or => x ||| y
  | .xor => x ^^^ y
def identityOf (o : RedOp) (w : Nat) : BitVec w :=
  match o with
  | .sum | .maxu | .or | .xor => 0
  | .min => BitVec.ofNat w (2 ^ (w - 1) - 1)
  | .max => BitVec.ofNat w (2 ^ (w - 1))
  | .minu | .and => BitVec.ofNat w (2 ^ w - 1)

/-- The hart completes a vector instruction that writes an x register and no element. -/
def vgave (s : State) (rd : RegIx) (v : Word) : State :=
  updMe s fun h => retire { hartSetX h rd v with xc := { h.xc with vstart := 0 }, pc := h.pc + 4 }

/-- The slides: up or down, governing predicate, S2, D, and the count (spec/17 R358, spec/05 R82). -/
def slideForm (h : Hart) : Instr → Option (Bool × Fin 4 × RegIx × RegIx × Nat)
  | .vslupVx g b a d => some (true, g, b, d, (hartX h a).toNat)
  | .vslupVi g b m d => some (true, g, b, d, m.toNat)
  | .vsldnVx g b a d => some (false, g, b, d, (hartX h a).toNat)
  | .vsldnVi g b m d => some (false, g, b, d, m.toNat)
  | _ => none

/-- VBCST. -/
def bcstForm : Instr → Option (Fin 4 × Opnd × RegIx)
  | .vbcstVx g a d => some (g, .x a, d)
  | .vbcstVi g m d => some (g, .i m, d)
  | _ => none

/-- The element at which a break stands: the lowest active one whose bit of the condition is set. -/
def breaksAt (e : VEnv) (p n : Nat) : Prop := (e.active n = true ∧ covers e p n) ∧ ∀ m < n, ¬ (e.active m = true ∧ covers e p m)

/-- The instructions that write a predicate: governing predicate, destination, and the result for element i (spec/16 Table 16-4). -/
def predForm : Instr → Option (Fin 4 × Fin 8 × (VEnv → Nat → Prop))
  | .plog g b a o d => some (g, d, fun e i =>
      let x := covers e b.val i
      let y := covers e a.val i
      match o with
      | .and => x ∧ y
      | .or => x ∨ y
      | .xor => ¬ (x ↔ y)
      | .andn => x ∧ ¬ y
      | .orn => x ∨ ¬ y
      | .nand => ¬ (x ∧ y)
      | .nor => ¬ (x ∨ y)
      | .xnor => x ↔ y)
  | .pbrk g p before d => some (g, d, fun e i => ∀ n, breaksAt e p.val n → if before then i < n else i ≤ n)
  | .pset g a o d => some (g, d, fun e i =>
      let x := (hartX e.h a).toNat
      match o with
      | .all => True
      | .none => False
      | .firstN => i < x
      | .bits => x.testBit (i / if e.sew = 4 then 2 else 1) = true)
  | .pmovToPredicate g b d => some (g, d, fun e i => (rdGroup e.h e.regBits b.val 1).testBit (i / if e.sew = 4 then 2 else 1) = true)
  | _ => none

/-- The formats that blocks of scaled elements have, and the paired-exponent ones. -/
def blockFormats : List Fmt := [.e4m3, .e5m2, .e2m3, .e3m2, .e2m1, .pe3, .pe5, .pe8]
def pairFormats : List Fmt := [.pe3, .pe5, .pe8]

/-- A format with a BLK code that it takes (spec/02 R26). -/
def blockFits (f : Fmt) (blk : Nat) : Prop := (blk ≠ 0 → f ∈ blockFormats) ∧ (f ∈ pairFormats → blk = 1)

/-- A vtype that is legal, taken apart (spec/02 R26, spec/03 Table 3-5). -/
def vtypeLegal (n lg : Nat) (f : Fmt) (blk : Nat) : Prop :=
  n < 1024 ∧ lg = n % 8 ∧ lg ≤ 3 ∧ Fmt.ofCode (n / 8 % 32) = some f ∧ blk = n / 256 ∧ blockFits f blk

/-- The block length of a BLK code; 1 where there is none. -/
def blockOf (blk : Nat) : Nat := match blk with | 0 => 1 | 1 => 16 | 2 => 32 | _ => 64

/-- vl for a legal vtype at a grant (spec/02 R25). -/
def lengthFor (avl grant sew lg blk : Nat) : Nat :=
  let m := min avl (1024 * grant / sew * 2 ^ lg)
  if blockOf blk ≤ m then m - m % blockOf blk else m

/-- The layout of the four formats of the floating-point class; of anything else that of FP32. -/
def layoutOf : Fmt → FSpec
  | .fp64 => ⟨11, 52, 1023, .ieee⟩
  | .fp16 => ⟨5, 10, 15, .ieee⟩
  | .bf16 => ⟨8, 7, 127, .ieee⟩
  | _ => ⟨8, 23, 127, .ieee⟩
def floatClass (f : Fmt) : Prop := f = .fp64 ∨ f = .fp32 ∨ f = .fp16 ∨ f = .bf16

/-- The value of element k, and of the operand: a VF form reads an f register, as FP64 under FP64 and else as FP32 (spec/05 R84). -/
def felement (e : VEnv) (r n k : Nat) : FVal := fdecode (layoutOf e.fmt) (element e e.sew r n k).toNat
def foperand (e : VEnv) (k : Nat) : Opnd → FVal
  | .f r => if e.fmt = .fp64 then fdecode ⟨11, 52, 1023, .ieee⟩ (aget 0 e.h.f r.val).toNat
      else fdecode ⟨8, 23, 127, .ieee⟩ (unboxS (aget 0 e.h.f r.val))
  | o => fdecode (layoutOf e.fmt) (operand e k o).toNat

/-- Less, on values that are no NaN: by their rational numbers, below and above every one of which the infinities lie. -/
def lessV (a b : FVal) : Prop :=
  match a, b with
  | .inf s, .inf t => s = true ∧ t = false
  | .inf s, _ => s = true
  | _, .inf t => t = false
  | a, b => ∃ p q, valQ a = some p ∧ valQ b = some q ∧ p < q
def equalV (a b : FVal) : Prop :=
  match a, b with
  | .inf s, .inf t => s = t
  | .inf _, _ => False
  | _, .inf _ => False
  | a, b => valQ a = valQ b

/-- Is the sign of a value negative? -/
def negV : FVal → Bool
  | .nan _ => false
  | .inf s => s
  | .fin s _ _ => s

/-- Minimum and maximum by spec/04 R68: of one NaN and a number the number, −0 below +0. -/
noncomputable def pickV (mx : Bool) (a b : FVal) : FVal :=
  open Classical in
  if isNaN a = true then (if isNaN b = true then .nan false else b) else if isNaN b = true then a
  else if lessV a b ∨ (equalV a b ∧ (negV a = true ∨ negV b = false)) then (if mx then b else a) else (if mx then a else b)

/-- NV for a signalling NaN among operands. -/
def quiet (vs : List FVal) : Nat := if .nan true ∈ vs then 16 else 0

/-- The floating-point instructions that round once (spec/17 Table 17-4): governing predicate, S2, D, operand, whether D is a source, and
the exact result with its flags from a, b and the old D. -/
noncomputable def floatForm : Instr → Option (Fin 4 × RegIx × RegIx × Opnd × Bool × (Rnd → FVal → FVal → FVal → FOut × Nat))
  | .vfaddVv g b a d => some (g, b, d, .v a, false, fun rm x y _ => faddV rm x y)
  | .vfaddVf g b a d => some (g, b, d, .f a, false, fun rm x y _ => faddV rm x y)
  | .vfaddVx g b a d => some (g, b, d, .x a, false, fun rm x y _ => faddV rm x y)
  | .vfsubVv g b a d => some (g, b, d, .v a, false, fun rm x y _ => faddV rm x (fneg y))
  | .vfsubVf g b a d => some (g, b, d, .f a, false, fun rm x y _ => faddV rm x (fneg y))
  | .vfsubVx g b a d => some (g, b, d, .x a, false, fun rm x y _ => faddV rm x (fneg y))
  | .vfmulVv g b a d => some (g, b, d, .v a, false, fun _ x y _ => fmulV x y)
  | .vfmulVf g b a d => some (g, b, d, .f a, false, fun _ x y _ => fmulV x y)
  | .vfmulVx g b a d => some (g, b, d, .x a, false, fun _ x y _ => fmulV x y)
  | .vfmaVv g b a n d => some (g, b, d, .v a, true, fun rm x y z => ffmaV rm (if n then fneg x else x) y z)
  | .vfmaVf g b a n d => some (g, b, d, .f a, true, fun rm x y z => ffmaV rm (if n then fneg x else x) y z)
  | .vfmaVx g b a n d => some (g, b, d, .x a, true, fun rm x y z => ffmaV rm (if n then fneg x else x) y z)
  | .vfminVv g b a d => some (g, b, d, .v a, false, fun _ x y _ => (foutOf (pickV false x y), quiet [x, y]))
  | .vfminVf g b a d => some (g, b, d, .f a, false, fun _ x y _ => (foutOf (pickV false x y), quiet [x, y]))
  | .vfminVx g b a d => some (g, b, d, .x a, false, fun _ x y _ => (foutOf (pickV false x y), quiet [x, y]))
  | .vfmaxVv g b a d => some (g, b, d, .v a, false, fun _ x y _ => (foutOf (pickV true x y), quiet [x, y]))
  | .vfmaxVf g b a d => some (g, b, d, .f a, false, fun _ x y _ => (foutOf (pickV true x y), quiet [x, y]))
  | .vfmaxVx g b a d => some (g, b, d, .x a, false, fun _ x y _ => (foutOf (pickV true x y), quiet [x, y]))
  | .vfdivVv g b a d => some (g, b, d, .v a, false, fun _ x y _ => fdivV x y)
  | .vfdivVf g b a d => some (g, b, d, .f a, false, fun _ x y _ => fdivV x y)
  | .vfdivVx g b a d => some (g, b, d, .x a, false, fun _ x y _ => fdivV x y)
  | .vfsqrt g b d => some (g, b, d, .i 0, false, fun _ x _ _ => fsqrtV x)
  | _ => none

/-- The estimates: is it VFRSQE? -/
def estForm : Instr → Option (Bool × Fin 4 × RegIx × RegIx)
  | .vfrsqe g b d => some (true, g, b, d)
  | .vfexp2e g b d => some (false, g, b, d)
  | _ => none

/-- Is a value a number? -/
def finite (v : FVal) : Bool := (valQ v).isSome

/-- The mode in which an element of these operands is rounded: one with a NaN or infinite operand takes no draw (spec/04 R67), and where
its result is finite it is exact. -/
def modeFor (rm : Rnd) (vs : List FVal) : Rnd := if rm = .sr ∧ vs.all finite = false then .rne else rm

/-- The flags of an estimate that is not exact: NX, and UF below the normals of the format. -/
def inexactly (sp : FSpec) (q : ℚ) : Nat := if q < (2 : ℚ) ^ (1 - (sp.bias : Int)) then 3 else 1

/-- What an estimate rounds into the format for an operand, with its own flags (spec/17 R363): 8 significant bits, nearest for VFRSQE and
within 2^-8 of 2^a, exact where that is a power of two. -/
noncomputable def estimates (sp : FSpec) (rsq : Bool) (v : FVal) (x : FOut × Nat) : Prop :=
  match v, rsq with
  | .nan sig, _ => x = (.nan, if sig then 16 else 0)
  | .inf s, true => x = if s then (.nan, 16) else (.zero false, 0)
  | .inf s, false => x = if s then (.zero false, 0) else (.inf false, 0)
  | .fin s m e, true =>
    if m = 0 then x = (.inf s, 8) else if s then x = (.nan, 16)
    else ∃ (g : Nat) (k : Int), 128 ≤ g ∧ g ≤ 256 ∧ outQ x.1 = some ((g : ℚ) * (2 : ℚ) ^ k) ∧
      ((2 * g - 1 : ℚ) * (2 : ℚ) ^ (k - 1)) ^ 2 * ((m : ℚ) * (2 : ℚ) ^ e) < 1 ∧
      1 < ((2 * g + 1 : ℚ) * (2 : ℚ) ^ (k - 1)) ^ 2 * ((m : ℚ) * (2 : ℚ) ^ e) ∧
      x.2 = if ((g : ℚ) * (2 : ℚ) ^ k) ^ 2 * ((m : ℚ) * (2 : ℚ) ^ e) = 1 then 0 else inexactly sp ((g : ℚ) * (2 : ℚ) ^ k)
  | .fin s m e, false =>
    let a : ℚ := (m : ℚ) * (2 : ℚ) ^ e
    (∀ n : Nat, n < 5000 → a = n → outQ x.1 = some ((2 : ℚ) ^ (if s then -(n : Int) else n)) ∧ x.2 = 0) ∧
      (a < 5000 → (∀ n : Nat, a ≠ n) → ∃ (g : Nat) (k : Int), 128 ≤ g ∧ g ≤ 256 ∧
        let q : ℚ := (g : ℚ) * (2 : ℚ) ^ k
        let y : ℝ := (2 : ℝ) ^ (((if s then -a else a : ℚ)) : ℝ)
        outQ x.1 = some q ∧ |(q : ℝ) - y| * 256 ≤ y ∧ x.2 = inexactly sp q) ∧
      (5000 ≤ a → x.2 < 4 ∧ ∃ q : ℚ, outQ x.1 = some q ∧ 0 < q ∧ if s then q ≤ (2 : ℚ) ^ (-4999 : Int) else (2 : ℚ) ^ (5000 : Int) ≤ q)

/-- VFCMP. -/
def fcmpForm : Instr → Option (Fin 4 × RegIx × Opnd × FCmpCond × Fin 8)
  | .vfcmpVv g b a c p => some (g, b, .v a, c, p)
  | .vfcmpVf g b a c p => some (g, b, .f a, c, p)
  | .vfcmpVx g b a c p => some (g, b, .x a, c, p)
  | _ => none
def fcompares (c : FCmpCond) (x y : FVal) : Prop :=
  let un := isNaN x = true ∨ isNaN y = true
  match c with
  | .eq => ¬ un ∧ equalV x y
  | .lt => ¬ un ∧ lessV x y
  | .le => ¬ un ∧ (lessV x y ∨ equalV x y)
  | .un => un
def fcompareNV (c : FCmpCond) (x y : FVal) : Prop :=
  match c with
  | .eq | .un => x = .nan true ∨ y = .nan true
  | .lt | .le => isNaN x = true ∨ isNaN y = true

/-- A rounding code of an instruction, 110 taking `xvrm`. -/
def codeMode (e : VEnv) : RndCode → Rnd
  | .rne => .rne | .rtz => .rtz | .rdn => .rdn | .rup => .rup | .rmm => .rmm | .sr => .sr | .dyn => e.rm

/-- The reduction tree (spec/04 R74) over 2^H leaves: level by level from the leaves and in ascending index within a level, a node with two
children present joins them, threading the generator and the flags, and any other passes on what it has. -/
def treeRuns {α : Type} (join : α → α → NumSt → α × NumSt) (leaf : Nat → Option α) (H : Nat) (st0 : NumSt) (root : Option α)
    (st1 : NumSt) : Prop :=
  ∃ (val : Nat → Nat → Option α) (st : Nat → Nat → NumSt), val 0 = leaf ∧ st 0 0 = st0 ∧ val H 0 = root ∧ st H 0 = st1 ∧
    ∀ h < H, st (h + 1) 0 = st h (2 ^ (H - h - 1)) ∧ ∀ i < 2 ^ (H - h - 1),
      match val h (2 * i), val h (2 * i + 1) with
      | some a, some b => val (h + 1) i = some (join a b (st h i)).1 ∧ st h (i + 1) = (join a b (st h i)).2
      | some a, none => val (h + 1) i = some a ∧ st h (i + 1) = st h i
      | none, b => val (h + 1) i = b ∧ st h (i + 1) = st h i

/-- A join of VREDF: a sum is rounded in the mode, with its draw; minimum and maximum are exact. -/
noncomputable def joins (f : Fmt) (o : FRedOp) (rm : Rnd) (a b : Nat) (st : NumSt) : Nat × NumSt :=
  let sp := layoutOf f
  let x := fdecode sp a
  let y := fdecode sp b
  match o with
  | .sum => let r := faddV rm x y; narrowSt sp rm r.1 ⟨st.seed, st.flags ||| r.2⟩
  | .min => ((narrow sp .rne 0 (foutOf (pickV false x y))).1, ⟨st.seed, st.flags ||| quiet [x, y]⟩)
  | .max | .amax => ((narrow sp .rne 0 (foutOf (pickV true x y))).1, ⟨st.seed, st.flags ||| quiet [x, y]⟩)

/-- The canonical NaN for NaN patterns (spec/04 R68). -/
def canonical (f : Fmt) (bits : Nat) : Nat :=
  if isNaN (fdecode (layoutOf f) bits) = true then 2 ^ ((layoutOf f).eb + (layoutOf f).mb) - 2 ^ ((layoutOf f).mb - 1) else bits

/-- The BLK code of VFCVT's target (spec/17 R367). -/
def targetBlk (e : VEnv) (t : Fmt) : Nat :=
  if t ∈ pairFormats then 1
  else if t ∈ blockFormats ∧ e.fmt ∈ blockFormats ∧ e.fmt ∉ pairFormats then e.blk else 0

/-- The mantissa bits of a paired-exponent format. -/
def pairBits : Fmt → Nat | .pe3 => 2 | .pe5 => 4 | _ => 7

/-- The elements of a block of a format with scales: 16 of a paired-exponent one; 0 for a format without scales. -/
def blockLenFor (f : Fmt) (blk : Nat) : Nat := if f ∈ pairFormats then 16 else if blk = 0 then 0 else blockOf blk

/-- The exact value of the pattern of element k: an integer, a number of Table 4-1, under its block's scale where it has one (spec/04
R61), or a paired-exponent element (R63). -/
def patternVal (f : Fmt) (blk x scale k : Nat) : FVal :=
  if f ∈ pairFormats then
    let m := pairBits f
    if scale % 256 = 255 then .nan false
    else .fin (decide (x / 2 ^ m % 2 = 1)) (x % 2 ^ m) ((scale % 256 : Nat) - 127 - (scale / 2 ^ (8 + k % 16 / 2) % 2 : Nat) - m + 1)
  else match fspec f with
    | none => let z := (BitVec.ofNat (fmtSew f) x).toInt; .fin (decide (z < 0)) z.natAbs 0
    | some sp =>
      if blk = 0 then fdecode sp x
      else if scale % 256 = 255 then .nan false
      else match fdecode sp x with
        | .fin s m y => .fin s m (y + (scale % 256 : Nat) - 127)
        | v => v

/-- The exact value of source element k of VFCVT. -/
def sourceVal (e : VEnv) (b : RegIx) (k : Nat) : FVal :=
  patternVal e.fmt e.blk (element e e.sew b.val e.grp k).toNat (rdScale e.h e.lanes b.val e.fmt e.blk (k / blockLenFor e.fmt e.blk)) k

/-- One value converted to a format without blocks: rounded in the mode, or clamped to the integers (spec/04 Table 4-2). -/
def converts (f : Fmt) (rm : Rnd) (v : FVal) (st : NumSt) : Nat × NumSt :=
  match fspec f with
  | some sp => narrowSt sp rm (foutOf v) ⟨st.seed, st.flags ||| quiet [v]⟩
  | none => narrowIntSt (fmtSew f) true rm (foutOf v) st

/-- The largest magnitude of some values, all of them numbers. -/
def isAmax (xs : List FVal) (amax : ℚ) : Prop :=
  (∀ v ∈ xs, ∃ q, valQ v = some q ∧ |q| ≤ amax) ∧ ∃ v ∈ xs, ∃ q, valQ v = some q ∧ |q| = amax

/-- A block with a NaN or an infinity: the scale byte 255, zeros, and NV for an infinity. -/
def blockSpoilt (xs : List FVal) (st : NumSt) (scale : Nat) (bits : Nat → Nat) (st' : NumSt) : Prop :=
  (∃ v ∈ xs, valQ v = none) → scale = 255 ∧ (∀ i < xs.length, bits i = 0) ∧
    st' = ⟨st.seed, st.flags ||| if xs.any isInf then 16 else 0⟩

/-- The generator before an element's rounding and its draw. -/
def seedFor (rm : Rnd) (st : NumSt) : Nat := if rm = .sr then srNext st.seed else st.seed
def drawFor (rm : Rnd) (st : NumSt) : Nat := if rm = .sr then srValue (seedFor rm st) else 0

/-- Values converted to a block of a scaled format (spec/04 R62): its scale byte, its patterns, and the generator and flags after it. -/
def inBlock (f : FSpec) (rm : Rnd) (xs : List FVal) (st : NumSt) (scale : Nat) (bits : Nat → Nat) (st' : NumSt) : Prop :=
  let sign (v : FVal) : Nat := if negV v then 2 ^ (f.eb + f.mb) else 0
  blockSpoilt xs st scale bits st' ∧
  ((∀ v ∈ xs, valQ v = some 0) → scale = 127 ∧ (∀ i < xs.length, bits i = sign (xs.getD i (.nan false))) ∧ st' = st) ∧
  ∀ amax top : ℚ, isAmax xs amax → 0 < amax → valQ (fdecode f (maxFinite f)) = some top →
    ∃ c : ℤ, (2 : ℚ) ^ (c - 1) * top < amax ∧ amax ≤ (2 : ℚ) ^ c * top ∧ (scale : ℤ) = max 0 (min 254 (127 + c)) ∧
    ∃ σ : Nat → NumSt, σ 0 = st ∧ σ xs.length = st' ∧ ∀ i < xs.length, ∀ q, valQ (xs.getD i (.nan false)) = some q →
      let x := q * (2 : ℚ) ^ (127 - (scale : ℤ))
      let draw := drawFor rm (σ i)
      (σ (i + 1)).seed = seedFor rm (σ i) ∧
      (x = 0 → bits i = sign (xs.getD i (.nan false)) ∧ (σ (i + 1)).flags = (σ i).flags) ∧
      (x ≠ 0 → |x| ≤ top → ∃ neg n d, 0 < n ∧ 0 < d ∧ outQ (.rat neg n d) = some x ∧
        bits i = (narrow f rm draw (.rat neg n d)).1 ∧ (σ (i + 1)).flags = (σ i).flags |||
          if (narrow f rm draw (.rat neg n d)).2 % 2 = 0 then 0 else if bits i % 2 ^ (f.eb + f.mb) = 0 then 3 else 1) ∧
      (top < |x| → bits i = sign (xs.getD i (.nan false)) + maxFinite f ∧
        ((σ (i + 1)).flags = (σ i).flags ||| 37 ∨ (σ (i + 1)).flags = (σ i).flags ||| 1))

/-- Values converted to a sub-block of a paired-exponent format with m mantissa bits (spec/04 R65): its scale word, its patterns, and the
generator and flags after it. -/
def inPairs (m : Nat) (rm : Rnd) (xs : List FVal) (st : NumSt) (word : Nat) (bits : Nat → Nat) (st' : NumSt) : Prop :=
  let sign (v : FVal) : Nat := if negV v then 2 ^ m else 0
  blockSpoilt xs st word bits st' ∧
  ((∀ v ∈ xs, valQ v = some 0) → word = 0 ∧ (∀ i < xs.length, bits i = sign (xs.getD i (.nan false))) ∧ st' = st) ∧
  ∀ amax : ℚ, isAmax xs amax → 0 < amax →
    -- u rounds to 2^m at nearest-even from half a unit below it
    let tops (y u : ℚ) : Prop := (2 ^ (m + 1) - 1) * u ≤ 2 * y
    ∃ c : ℤ, (2 : ℚ) ^ c ≤ amax ∧ amax < (2 : ℚ) ^ (c + 1) ∧ ∃ up : ℤ, (up = 0 ∨ up = 1) ∧
      (up = 1 ↔ tops amax ((2 : ℚ) ^ (c + 1 - m))) ∧ ((word % 256 : Nat) : ℤ) = max 0 (min 254 (c + 127 + up)) ∧ word < 65536 ∧
    let u0 : ℚ := (2 : ℚ) ^ (((word % 256 : Nat) : ℤ) - 126 - m)
    let mu (j : Nat) : Bool := word.testBit (8 + j)
    (∀ j < 8, mu j = true ↔ ∀ v ∈ (xs.drop (2 * j)).take 2, ∀ q, valQ v = some q → ¬ tops |q| (u0 / 2)) ∧
    ∃ σ : Nat → NumSt, σ 0 = st ∧ σ xs.length = st' ∧ ∀ i < xs.length, ∀ q, valQ (xs.getD i (.nan false)) = some q →
      ∃ n d k : Nat, 0 < d ∧ |q| / (if mu (i / 2) = true then u0 / 2 else u0) = (n : ℚ) / d ∧
        k = n / d + (if roundsUp rm (negV (xs.getD i (.nan false))) (drawFor rm (σ i)) (n / d) (n % d) d then 1 else 0) ∧
        bits i = sign (xs.getD i (.nan false)) + min k (2 ^ m - 1) ∧ (σ (i + 1)).seed = seedFor rm (σ i) ∧
        (σ (i + 1)).flags = (σ i).flags ||| if 2 ^ m ≤ k then 37 else if n % d = 0 then 0 else if k = 0 then 3 else 1

/-! ### Vector memory -/

/-- The byte k of a location as the current hart's vector accesses see it: its write-combining buffer, a dirty line of its core, or the
home. -/
def vecSeenByte (s : State) (l : Loc) (k : Nat) : Byte :=
  let home := BitVec.ofNat 8 (homeRead s (locAdd l k) 1)
  match l with
  | .phys pa 1 _ => match aget? (me s).wc (pa + k) with | some e => e.1 | none => home
  | .phys pa _ _ =>
    match aget? (coreOf s (myCore s)).dcache (pa / 64) with
    | some d => if d.dirty ≠ 0 then BitVec.ofNat 8 (d.data.toNat >>> (8 * (pa % 64 + k))) else home
    | none => home
  | _ => home

/-- Where element i of a unit-stride access lies: the byte of its lowest bit, that bit, and its width (spec/17 R371, spec/04 R64). -/
def unitPlace (f : Fmt) (base i : Nat) : Nat × Nat × Nat :=
  if f ∈ pairFormats then
    let w := (match f with | .pe3 => 3 | .pe5 => 5 | _ => 8 : Nat)
    ((base + i / 16 * 2 * w + i % 16 * w / 8) % 2 ^ 64, i % 16 * w % 8, w)
  else if fmtSew f = 4 then ((base + i / 2) % 2 ^ 64, 4 * (i % 2), 4)
  else ((base + i * (fmtSew f / 8)) % 2 ^ 64, 0, fmtSew f)

/-- A vector load: governing predicate, D, `.ff`, `.sc`, the place of each element, and the index group with its width. -/
def loadForm (e : VEnv) : Instr → Option (Fin 4 × RegIx × Bool × Bool × (Nat → Nat × Nat × Nat) × Option (RegIx × Nat))
  | .vld g a f sc d => some (g, d, f, sc, unitPlace e.fmt (hartX e.h a).toNat, none)
  | .vlds g b a f sc d => some (g, d, f, sc, fun k => (((hartX e.h a).toNat + k * (hartX e.h b).toNat) % 2 ^ 64, 0, e.sew), none)
  | .vldx g b a f ix d =>
    let w := if ix then 64 else 32
    some (g, d, f, false, fun k => (((hartX e.h a).toNat + (element e w b.val (max 1 (e.grp * w / e.sew)) k).toNat) % 2 ^ 64, 0, e.sew), some (b, w))
  | _ => none
def storeForm (e : VEnv) : Instr → Option (Fin 4 × RegIx × Bool × (Nat → Nat × Nat × Nat) × Option (RegIx × Nat))
  | .vst g a sc d => some (g, d, sc, unitPlace e.fmt (hartX e.h a).toNat, none)
  | .vsts g b a sc d => some (g, d, sc, fun k => (((hartX e.h a).toNat + k * (hartX e.h b).toNat) % 2 ^ 64, 0, e.sew), none)
  | .vstx g b a ix d =>
    let w := if ix then 64 else 32
    some (g, d, false, fun k => (((hartX e.h a).toNat + (element e w b.val (max 1 (e.grp * w / e.sew)) k).toNat) % 2 ^ 64, 0, e.sew), some (b, w))
  | _ => none

/-- Its own conditions: an aligned group, `.sc` with blocks alone, and for strides and indices no 4-bit or PE format; for indices BLK 0
and an aligned group of indices apart from D. -/
def memoryOk (e : VEnv) (d : RegIx) (sc strided : Bool) (ix : Option (RegIx × Nat)) : Prop :=
  aligned d.val e.grp ∧ (sc = true → e.blk ≠ 0) ∧ (strided = true → e.sew ≠ 4 ∧ e.fmt ∉ pairFormats) ∧
    ∀ b w, ix = some (b, w) → e.blk = 0 ∧ aligned b.val (max 1 (e.grp * w / e.sew)) ∧ apart d.val e.grp b.val (max 1 (e.grp * w / e.sew))
def isStrided : Instr → Bool
  | .vlds _ _ _ _ _ _ | .vldx _ _ _ _ _ _ | .vsts _ _ _ _ _ | .vstx _ _ _ _ _ => true
  | _ => false
def indexTagged (e : VEnv) (ix : Option (RegIx × Nat)) : Prop :=
  ∀ b w, ix = some (b, w) → tagged e b.val (max 1 (e.grp * w / e.sew)) (if w = 64 then 3 else 2)

/-- The length of a block of the format. -/
def blockLenOf (e : VEnv) : Nat := if e.fmt ∈ pairFormats then 16 else if e.blk = 0 then 0 else blockOf e.blk
/-- One bit of the predicate over each block below vl (spec/02 R30). -/
def uniform (e : VEnv) : Prop := blockLenOf e ≠ 0 → ∀ k < e.vl, e.governs k = e.governs (k / blockLenOf e * blockLenOf e)

/-- Steps 5 to 7 of Table 5-9 for a restartable instruction. -/
def restartGate (s : State) (i : Instr) (ok tags uni : Prop) (effect : Prop) : Prop :=
  (¬ ok → exec i s = .next (raised s 2 (wordOf i))) ∧ (ok → ¬ tags → exec i s = .next (raised s 25 (wordOf i))) ∧
    (ok → tags → ¬ uni → exec i s = .next (raised s 2 (wordOf i))) ∧ (ok → tags → uni → effect)

/-- Does element k lead its block, so that with `.sc` it brings the block's scale with it? -/
def leads (e : VEnv) (sc : Bool) (k : Nat) : Prop := sc = true ∧ (k = e.vstart ∨ k % blockLenOf e = 0)

/-- A pattern as its container holds it: the 6-bit formats write bits [7:6] as zero (spec/04 R60). -/
def contained (f : Fmt) (v : Nat) : Nat := if f = .e2m3 ∨ f = .e3m2 then v % 64 else v

/-- Element k reads its value, and with `.sc` the scale of the block that it leads, and both are in the hart's registers. -/
def loadsElement (e : VEnv) (d : RegIx) (sc : Bool) (place : Nat → Nat × Nat × Nat) (k v x : Nat) (s t : State) : Prop :=
  ∃ s1, readPlace s e.fmt (place k) = .ok (s1, v) ∧
    (leads e sc k → ∃ s2, elRead s1 (scaleAddr e (k / blockLenOf e)) (scaleBytes e.fmt) = .ok (s2, x) ∧
      t = updMe (setMyElem s2 e d.val e.sew k (contained e.fmt v)) fun h => wrScale h e.lanes d.val e.fmt e.blk (k / blockLenOf e) x) ∧
    (¬ leads e sc k → t = setMyElem s1 e d.val e.sew k (contained e.fmt v))

/-- The value that element k stores. -/
def storedValue (e : VEnv) (d : RegIx) (k : Nat) : Nat := contained e.fmt (element e e.sew d.val e.grp k).toNat

/-- Element k writes its value, and with `.sc` the scale of the block that it leads, once both pass every check. -/
def storesElement (e : VEnv) (d : RegIx) (sc : Bool) (place : Nat → Nat × Nat × Nat) (k : Nat) (s t : State) : Prop :=
  (leads e sc k → ∃ s1 s2 s3, probePlace s e.fmt (place k) = .ok s1 ∧
    elProbe s1 (scaleAddr e (k / blockLenOf e)) (scaleBytes e.fmt) = .ok s2 ∧
    writePlace s2 e.fmt (place k) (storedValue e d k) = .ok s3 ∧
    elWrite s3 (scaleAddr e (k / blockLenOf e)) (scaleBytes e.fmt) (rdScale e.h e.lanes d.val e.fmt e.blk (k / blockLenOf e)) = .ok t) ∧
  (¬ leads e sc k → writePlace s e.fmt (place k) (storedValue e d k) = .ok t)

/-- Element k fails a check, its own or its scale's, before anything of it is stored. -/
def storeFails (e : VEnv) (d : RegIx) (sc : Bool) (place : Nat → Nat × Nat × Nat) (k : Nat) (s : State) (x : Exc) : Prop :=
  (leads e sc k → probePlace s e.fmt (place k) = .error x ∨ ∃ s1, probePlace s e.fmt (place k) = .ok s1 ∧
    elProbe s1 (scaleAddr e (k / blockLenOf e)) (scaleBytes e.fmt) = .error x) ∧
  (¬ leads e sc k → writePlace s e.fmt (place k) (storedValue e d k) = .error x)

/-- The state in which an engine of a core reads a location: the core's line goes first where it has no dirty byte or is another key's,
so that no later read of the core is older (spec/07 R119). A vector access of the hart does the like but for its write-combining pages. -/
def lookedBy (s : State) (core : Nat) (l : Loc) : State :=
  match l with
  | .phys pa _ key =>
    match aget? (coreOf s core).dcache (pa / 64) with
    | some d => if d.key = key ∧ d.dirty ≠ 0 then s else flushLoc s core l
    | none => s
  | _ => s
def looked (s : State) (l : Loc) : State := match l with | .phys _ 1 _ => s | _ => lookedBy s (myCore s) l

/-- No line of a location that a core holds has to go before it is read. -/
def lineStays (s : State) (core : Nat) (l : Loc) : Prop :=
  ∀ pa mt key, l = .phys pa mt key → ∀ d, aget? (coreOf s core).dcache (pa / 64) = some d → d.key = key ∧ d.dirty ≠ 0

/-- The element of a window that a refill reads at a location. -/
def refilled (s : State) (core sew j : Nat) (l : Loc) : Nat :=
  let v := lookRead s core l (max 1 (sew / 8))
  if sew = 4 then v / 16 ^ (j % 2) % 16 else v % 2 ^ sew

/-- The interlock entries of reduction-tree nodes that are left: those that a queued update of their hart lies in (spec/07 R138). -/
def treeSettled (s t : State) (core : Nat) : Prop :=
  ∀ kv, kv ∈ (coreOf t core).arit ↔ kv ∈ (coreOf s core).arit ∧ (kv.2.src = 22 → ∃ u ∈ (coreOf s core).redq, u.slot = kv.2.slot ∧
    kv.2.base ≤ aritVa s core u.va ∧ aritVa s core u.va < kv.2.limit)

/-- The active elements below m act in ascending order, from s. -/
def inOrder (s : State) (e : VEnv) (m : Nat) (act : Nat → State → State → Prop) (σ : Nat → State) : Prop :=
  σ 0 = s ∧ ∀ k < m, if e.active k = true then act k (σ k) (σ (k + 1)) else σ (k + 1) = σ k

/-- What a restartable instruction leaves when element k fails: below it, elements done and the tags written where any is, and `xvstart`
at k; the first active element fails for the whole instruction. -/
def leavesAt (e : VEnv) (d : RegIx) (tag : Option Nat) (k : Nat) (s : State) : State :=
  if ∀ j < k, e.active j = false then s
  else updMe s fun h => { (match tag with | some t => setTags h d.val e.grp t | none => h) with xc := { h.xc with vstart := BitVec.ofNat 17 k } }

/-- The hart completes a vector memory instruction: the tags of D, `xvstart` and the pc, after `f`. -/
def vended (s : State) (e : VEnv) (d : RegIx) (tag : Option Nat) (f : XCsr → XCsr) : State :=
  updMe s fun h => retire { (match tag with | some t => if e.vstart < e.vl then setTags h d.val e.grp t else h | none => h) with
    xc := { f h.xc with vstart := 0 }, pc := h.pc + 4 }

/-! ### Atomics of vectors -/

/-- The new value of a word, in bit vectors and exact values, with its flags (spec/17 R376, R377, spec/07 R134). -/
noncomputable def updates (o : VAmoOp ⊕ VRedOp) (f : Fmt) (m d : Nat) : Nat × Nat :=
  let w := fmtSew f
  let x := BitVec.ofNat w m
  let y := BitVec.ofNat w d
  let fx := fdecode (layoutOf f) m
  let fy := fdecode (layoutOf f) d
  match o with
  | .inl .add | .inr .add => ((x + y).toNat, 0)
  | .inl .min | .inr .min => ((if y.toInt < x.toInt then y else x).toNat, 0)
  | .inl .max | .inr .max => ((if x.toInt < y.toInt then y else x).toNat, 0)
  | .inl .minu | .inr .minu => ((if d < m then y else x).toNat, 0)
  | .inl .maxu | .inr .maxu => ((if m < d then y else x).toNat, 0)
  | .inl .fadd | .inr .fadd => let r := faddV .rne fx fy; let n := narrow (layoutOf f) .rne 0 r.1; (n.1, r.2 ||| n.2)
  | .inl .fmax | .inr .fmax => ((narrow (layoutOf f) .rne 0 (foutOf (pickV true fx fy))).1, quiet [fx, fy])
  | .inl .swap => (d, 0)
  | .inr .or => ((x ||| y).toNat, 0)

/-- The formats that an operation admits. -/
def admits (o : VAmoOp ⊕ VRedOp) (f : Fmt) : Prop :=
  match o with
  | .inl .fadd | .inl .fmax | .inr .fadd | .inr .fmax => f = .fp32 ∨ f = .fp64
  | .inl .swap => f = .i32 ∨ f = .i64 ∨ f = .fp32 ∨ f = .fp64
  | _ => f = .i32 ∨ f = .i64

/-- The update of a location at its sole writer by an element, the flags going to a hart. -/
noncomputable def updatesAt (s : State) (core h : Nat) (xd : Word) (o : VAmoOp ⊕ VRedOp) (f : Fmt) (l : Loc) (d : Nat) : State :=
  let n := fmtSew f / 8
  let s1 := flushLoc s core l
  let r := updates o f (homeRead s1 l n) d
  orXFlags (homeWrite s1 xd l n r.1) h r.2

/-! ### The matrix engine -/

/-- The control word of a tile, its allocated columns, and its accumulator's tag (spec/09 R177, Table 9-3). -/
def controlWord (s : State) (core t : Nat) : Nat := (aget 0 (coreOf s core).tcw t).toNat
def columns (w : Nat) : Nat := 32 - w / 2 ^ 25 % 64
def accTag (w : Nat) : Nat := if w % 2 = 1 then 2 else 9

/-- Bits that N:M sparsity keeps and of how many, and the metadata bits of a column (spec/09 R188). -/
def keptN (w : Nat) : Nat := w / 4 % 64
def groupM (w : Nat) : Nat := 4 * 2 ^ (w / 256 % 4)
def metaBits (w k : Nat) : Nat := (k / groupM w * keptN w * Nat.log2 (groupM w) + 7) / 8 * 8
def metaReg (w : Nat) : Nat := w / 1024 % 32

/-- A control word that MTCW accepts (spec/09 R183). -/
def controlValid (w : Nat) : Prop :=
  w / 2 ^ 31 % 2 = 0 ∧ w < 2 ^ 33 ∧ w / 2 ^ 25 % 64 ≤ 32 ∧ w / 2 ^ 22 % 8 ≠ 7 ∧ (w / 2 % 2 = 1 → keptN w ≠ 0 ∧ keptN w ≤ groupM w) ∧
    ∃ f, Fmt.ofCode (w / 2 ^ 15 % 32) = some f ∧ f ≠ .scw ∧ f ≠ .raw ∧ blockFits f (w / 2 ^ 20 % 4)

/-- The tag of a tile is its accumulator's, or the cleared one; an aligned group of matrix rows. -/
def tileTagged (s : State) (core t : Nat) : Prop :=
  (aget 0x1F (coreOf s core).acTag t).toNat = accTag (controlWord s core t) ∨ (aget 0x1F (coreOf s core).acTag t).toNat = 0x1F
def rowsOk (r n : Nat) : Prop := r % n = 0 ∧ r + n ≤ 32

/-- The format and BLK of a tag whose SC fits; the container width of a tag. -/
def tagNames (t : Nat) (f : Fmt) (blk : Nat) : Prop :=
  Fmt.ofCode (t % 32) = some f ∧ blk = t / 32 % 4 ∧ blockFits f blk ∧ (t / 128 % 2 = 1 ↔ blk ≠ 0)
def tagWidth (t : Nat) : Nat := match Fmt.ofCode (t % 32) with | some f => fmtSew f | none => 8

/-- The pairs of operand formats (spec/09 Table 9-1), into FP32 or INT32. -/
def pairsInto (int : Bool) (a b : Fmt) : Prop :=
  if int then a ∈ [Fmt.i8, .i4] ∧ b ∈ [Fmt.i8, .i4]
  else (a ∈ blockFormats ∧ b ∈ blockFormats ∧ (a ∈ pairFormats ↔ b ∈ pairFormats)) ∨ a = b ∧ a ∈ [Fmt.bf16, .fp16, .fp32]

/-- MMA and MMAS: rows, columns, accumulator tile, A, B, sparse. -/
def mmaForm : Instr → Option (Fin 6 × Fin 6 × Fin 8 × (RegIx ⊕ Fin 8) × RegIx × Bool)
  | .mma x y c a b => some (x, y, c, .inl a, b, false)
  | .mmaTile x y c t b => some (x, y, c, .inr t, b, false)
  | .mmas x y c a b => some (x, y, c, .inl a, b, true)
  | .mmasTile x y c t b => some (x, y, c, .inr t, b, true)
  | _ => none

/-- The hart's turn reaches step 4 of a matrix instruction: no interlock holds it, the engine is free, vtype is legal. -/
def mxReady (s : State) : Prop :=
  lentTo s s.cur = false ∧ regsBusy s s.cur = false ∧ (coreOf s (myCore s)).engine = none ∧ vtypeOf (me s).xc.vtype.toNat ≠ none

/-- The engine holds the instruction and the hart moves on. -/
def mxIssued (s0 s : State) (i : Instr) (xs : Word) (weight : Nat) : State :=
  updMe (updCore s (myCore s) fun c => { c with
    engine := some ⟨mySlot s0, i, (me s0).xc.vl.toNat, xs, (me s0).xc.rm.toNat, weight⟩ })
    fun h => retire { h with xc := { h.xc with vstart := 0 }, pc := h.pc + 4 }

/-- A chain holds the engine or one of the tiles. -/
def mxHeldBy (s : State) (ts : List Nat) : Prop :=
  chainHoldsEngine (coreOf s (myCore s)) = true ∨ ∃ t ∈ ts, chainHoldsTile (coreOf s (myCore s)) t = true

/-- The engine is free again, and the instruction's leave released. -/
def mxDone (s : State) (core : Nat) (op : MxOp) : State :=
  updCore (releaseUnits s (dieOfCore core) op.weight) core fun c => { c with engine := none }

/-- The value of K position k of a register row. -/
def rowAt (h : Hart) (lanes r : Nat) (f : Fmt) (blk k : Nat) : FVal :=
  patternVal f blk (elemOf (fmtSew f) (hartV h r) k) (rdScale h lanes r f blk (k / blockLenFor f blk)) k

/-- The down-converter's format, BLK and rounding mode of a tile (spec/09 Table 9-3, R184), and the tag of its rows. -/
def downFormat (w : Nat) : Fmt := (Fmt.ofCode (w / 2 ^ 15 % 32)).getD .i8
def downBlk (w : Nat) : Nat := w / 2 ^ 20 % 4
def downMode (w xvrm : Nat) : Rnd := rndOfCode (if w / 2 ^ 22 % 8 = 6 then xvrm else w / 2 ^ 22 % 8)
def downTagged (w : Nat) : Nat := (downFormat w).code + 32 * downBlk w + if downBlk w = 0 then 0 else 128

/-- A tile's row of 32-bit patterns converted under its control word (spec/09 R184), from the generator and flags `st` to `st'`: patterns,
and the scales of blocks from column 0 on. That an integer that is only clamped takes no draw is the model's choice (log entry 55). -/
def downConverted (w : Nat) (rm : Rnd) (row : List Nat) (st : NumSt) (pat scale : Nat → Nat) (st' : NumSt) : Prop :=
  let int := w % 2 = 1
  let f := downFormat w
  let len := blockLenFor f (downBlk w)
  let xs := row.map fun b => if int then patternVal .i32 0 b 0 0 else patternVal .fp32 0 b 0 0
  let same := f = if int then .i32 else .fp32
  (same → st' = st ∧ ∀ k < row.length, pat k = row.getD k 0) ∧
  (¬ same → len = 0 → ∃ σ : Nat → NumSt, σ 0 = st ∧ σ row.length = st' ∧ ∀ k < row.length,
    (int → fmtIsInt f = true → let r := clipped (fmtSew f) false .rne 0 (BitVec.ofNat 32 (row.getD k 0)).toInt 0
      pat k = r.1.toNat ∧ σ (k + 1) = ⟨(σ k).seed, (σ k).flags ||| if r.2 then 32 else 0⟩) ∧
    (¬ (int ∧ fmtIsInt f = true) → (pat k, σ (k + 1)) = converts f rm (xs.getD k (.nan false)) (σ k))) ∧
  (¬ same → len ≠ 0 → ∃ σ : Nat → NumSt, σ 0 = st ∧ σ ((row.length + len - 1) / len) = st' ∧ ∀ j, j * len < row.length →
    let ys := (xs.drop (j * len)).take len
    if f ∈ pairFormats then inPairs (pairBits f) rm ys (σ j) (scale j) (fun i => pat (j * len + i)) (σ (j + 1))
    else ∃ sp, fspec f = some sp ∧ inBlock sp rm ys (σ j) (scale j) (fun i => pat (j * len + i)) (σ (j + 1)))

/-- The row of a tile that the down-converter reads: columns that are not allocated read zero. -/
def tileRowAt (s : State) (core t m vl : Nat) : List Nat :=
  (List.range vl).map fun n =>
    if n < columns (controlWord s core t) then elemOf 32 (aget 0 (coreOf s core).ac t).toNat (32 * m + n) else 0

/-- A value is the sum of the compressed elements that name one position (spec/09 R188): opposite infinities are invalid, which a signalling
NaN stands for. -/
def sumsTo (ys : List FVal) (v : FVal) : Prop :=
  match ys with
  | [] => False
  | [y] => v = y
  | _ =>
    (FVal.inf false ∈ ys → FVal.inf true ∈ ys → v = .nan true) ∧
    (¬ (FVal.inf false ∈ ys ∧ FVal.inf true ∈ ys) →
      ((∃ y ∈ ys, isNaN y = true) → v = .nan (decide (FVal.nan true ∈ ys))) ∧
      ((∀ y ∈ ys, isNaN y = false) → (FVal.inf false ∈ ys → v = .inf false) ∧ (FVal.inf true ∈ ys → v = .inf true)) ∧
      ∀ qs, ys.mapM valQ = some qs → valQ v = some qs.sum ∧
        (qs.sum = 0 → (negV v = true ↔ ∀ y ∈ ys, valQ y = some 0 ∧ negV y = true)))

/-- The factors at K position k of the product of a row's value x with column j (spec/09 R179, R188): a position that no compressed
element names contributes an exact zero (its sign is log entry 21). -/
def factorsAt (h : Hart) (lanes w b : Nat) (fb : Fmt) (bb : Nat) (sparse : Bool) (vl j k : Nat) (x : FVal) (q : FVal × FVal) : Prop :=
  if sparse then
    let lg := Nat.log2 (groupM w)
    let kept := (List.range (keptN w)).filter fun p =>
      hartV h (metaReg w) / 2 ^ (j * metaBits w vl + (k / groupM w * keptN w + p) * lg) % 2 ^ lg == k % groupM w
    (kept = [] → q = (.fin (negV x) 0 0, .fin false 0 0)) ∧
    (kept ≠ [] → q.1 = x ∧ sumsTo (kept.map fun p => rowAt h lanes (b + j) fb bb (k / groupM w * keptN w + p)) q.2)
  else q = (x, rowAt h lanes (b + j) fb bb k)

/-- One pass into an FP32 accumulator (spec/04 R73): the exact sum of the accumulator and the products, rounded once to nearest-even, with
its flags. A NaN among them, a zero times an infinity, or opposite infinities give the canonical NaN; the last two set NV, and a
signalling NaN does (log entry 21). A zero is negative where every term is a negative zero. -/
def fpPass (acc r fl : Nat) (ps : List (FVal × FVal)) : Prop :=
  let sp : FSpec := ⟨8, 23, 127, .ieee⟩
  let a := fdecode sp acc
  let nonzero (v : FVal) : Prop := isInf v = true ∨ ∃ q, valQ v = some q ∧ q ≠ 0
  let bad := ∃ p ∈ ps, (isInf p.1 = true ∧ valQ p.2 = some 0) ∨ (valQ p.1 = some 0 ∧ isInf p.2 = true)
  let infinite (neg : Bool) := ∃ p ∈ ps, (isInf p.1 = true ∨ isInf p.2 = true) ∧ nonzero p.1 ∧ nonzero p.2 ∧ (negV p.1 != negV p.2) = neg
  let lone := isNaN a = true ∨ bad ∨ ∃ p ∈ ps, isNaN p.1 = true ∨ isNaN p.2 = true
  let up := infinite false ∨ a = .inf false
  let down := infinite true ∨ a = .inf true
  let invalid := bad ∨ a = .nan true ∨ (∃ p ∈ ps, p.1 = .nan true ∨ p.2 = .nan true) ∨ (infinite false ∧ infinite true) ∨
    (¬ lone ∧ up ∧ down)
  (lone ∨ (up ∧ down) → r = 0x7FC00000 ∧ (invalid → fl = 16) ∧ (¬ invalid → fl = 0)) ∧
  (¬ lone → up → ¬ down → r = 0x7F800000 ∧ fl = 0) ∧ (¬ lone → down → ¬ up → r = 0xFF800000 ∧ fl = 0) ∧
  (∀ qa qs, valQ a = some qa → ps.mapM (fun p => (valQ p.1).bind fun x => (valQ p.2).map fun y => x * y) = some qs →
    (qa + qs.sum ≠ 0 → ∃ x, outQ x = some (qa + qs.sum) ∧ (r, fl) = narrow sp .rne 0 x) ∧
    (qa + qs.sum = 0 → fl = 0 ∧ (r = 0 ∨ r = 0x80000000) ∧
      (r = 0x80000000 ↔ (qa = 0 ∧ negV a = true) ∧ (∀ q ∈ qs, q = 0) ∧ ∀ p ∈ ps, negV p.1 ≠ negV p.2)))

/-- The integer of a value of an integer format. -/
def intOf (v : FVal) : ℤ := match valQ v with | some q => ⌊q⌋ | none => 0

/-! ### Copies and event queues -/

/-- The current hart completes after a change of state: the pc moves on, the instruction retires, and the change stands. -/
def advanced (s : State) : State := updMe s fun h => retire { h with pc := h.pc + 4 }

/-- x(rd) and `vl` take a value, and the hart completes. -/
def granted (s : State) (d : RegIx) (n : Nat) : State :=
  updMe s fun h => retire { hartSetX h d (BitVec.ofNat 64 n) with xc := { h.xc with vl := BitVec.ofNat 64 n }, pc := h.pc + 4 }

/-- CPY and CPYS: destination pointer, source pointer, request register, and which form: stamped, with a record, resolving a future. -/
def copyForm : Instr → Option (RegIx × RegIx × RegIx × Bool × Bool × Bool)
  | .cpy b a r d => some (b, a, d, false, r, false)
  | .cpys b a f r d => some (b, a, d, true, r, f)
  | _ => none

/-- No byte is granted: x(rd) and `vl` are 0, `xfault` as given, and the hart completes. -/
def noGrant (s : State) (d : RegIx) (fault : Word) : State :=
  updMe s fun h => retire { hartSetX h d 0 with xc := { h.xc with vl := 0, fault := fault }, pc := h.pc + 4 }

/-- The deciding fault of a copy's ranges, and whether it is the source's (spec/10 R195): the one at the lower offset; at one offset an
access fault before a page fault, and the source's of two of a kind. -/
def decides (fs fd : Option RangeFault) (f : RangeFault) (isSrc : Bool) : Prop :=
  let page (x : RangeFault) : Prop := ∃ kind, x.fail = .page kind
  if isSrc then fs = some f ∧ ∀ y, fd = some y → f.off < y.off ∨ f.off = y.off ∧ ¬ (page f ∧ ¬ page y)
  else fd = some f ∧ ∀ x, fs = some x → f.off < x.off ∨ f.off = x.off ∧ page x ∧ ¬ page f

/-- The grant under the faults found: whole strips below each fault, and the stamp's bytes below the destination's. -/
def cutTo (cap stamp : Nat) (fs fd : Option RangeFault) : Nat :=
  let lim := min (min cap ((fs.map fun x => x.off).getD cap)) ((fd.map fun y => y.off - stamp).getD cap)
  if fs = none ∧ fd = none then cap else if lim < 64 then 0 else lim / 64 * 64

/-- The record of a copy is freed: its leave, its two interlock entries, and its place. -/
def copyFreed (s : State) (core r : Nat) (k : Copy) : State :=
  updCore (aritLeave (aritLeave (releaseUnits s (dieOfCore core) k.weight) core k.aritS) core k.aritD) core fun c =>
    { c with copies := adel c.copies r }

/-- The location of byte `va` of a range from `base` on, page by page by the translations that a copy holds. -/
def heldByte (k : Copy) (base va : Nat) : Option Loc :=
  let p := max base (va / 4096 * 4096)
  (heldLoc k.held p).map fun l => locAdd l (va - p)

/-- The destination bytes [lo, hi) that a strip writes (spec/10 R196): 64 from DST, moved up to the ends of aligned 8-byte words, each of
which one strip writes whole (spec/07 R130, R133). -/
def stripLo (k : Copy) : Nat := if k.src = k.src0 then k.dst else min ((k.dst + 7) / 8 * 8) (k.dst + k.rem)
def stripHi (k : Copy) : Nat := min ((k.dst + min 64 k.rem + 7) / 8 * 8) (k.dst + k.rem)

/-- A strip of m bytes between locations moves as it is: no byte is a peer's or poisoned, every page's key is there, no granule of the
destination is one of the source, no byte of it lies in the copy's source range, the destination has one key, none is a register, and no line of
them has to leave the core's cache. -/
def stripPlain (s : State) (core : Nat) (k : Copy) (m : Nat) (L D : Nat → Loc) : Prop :=
  (∀ j < m, locPeer (L j) = false ∧ locPeer (D j) = false ∧ locKeyed s (L j) = true ∧ locKeyed s (D j) = true ∧
    locPoisoned s (L j) 1 = false ∧ ∀ off, L j ≠ .mmio off ∧ D j ≠ .mmio off) ∧
  (∀ i j, i < m → j < m → granOf (L i) ≠ granOf (D j)) ∧
  (∀ i < m, ¬ (aritVa s core k.src0 ≤ aritVa s core (stripLo k + i) ∧ aritVa s core (stripLo k + i) < aritVa s core k.src0 + k.span)) ∧
  (∃ key, ∀ j < m, ∀ pa mt x, D j = .phys pa mt x → x = key) ∧
  ∀ kv ∈ (coreOf s core).dcache, ∀ j < m,
    (∀ pa mt key, L j = .phys pa mt key → kv.1 = pa / 64 → kv.2.key = key ∧ kv.2.dirty ≠ 0) ∧
    ∀ pa mt key, D j = .phys pa mt key → kv.1 = pa / 64 → kv.2.key = key

/-- Every byte but those at m locations is as before: of the windows, and of physical memory, in a line of one of them under its key. -/
def bytesBut (s t : State) (m : Nat) (D : Nat → Loc) : Prop :=
  (∀ c a, (∀ j < m, D j ≠ .tile c a) → aget 0 (coreOf t c).tile a = aget 0 (coreOf s c).tile a) ∧
  (∀ c a, (∀ j < m, D j ≠ .sdm c a) → aget 0 (coreOf t c).sdm a = aget 0 (coreOf s c).sdm a) ∧
  (∀ a, (∀ j < m, ∀ pa mt key, D j = .phys pa mt key → pa / 64 ≠ a / 64) → rawByte t a = rawByte s a) ∧
  ∀ j < m, ∀ pa mt key, D j = .phys pa mt key → ∀ a, a / 64 = pa / 64 → (∀ i < m, ∀ pb mu x, D i = .phys pb mu x → pb ≠ a) →
    physByte t (keyId s key) a = physByte s (keyId s key) a

/-- What a completion record holds in word 0 (spec/10 Table 10-6). -/
def recordWord (status ghart utag : Nat) : Nat := 1 + status * 2 ^ 8 + ghart % 128 * 2 ^ 16 + utag * 2 ^ 32

/-! ### Chaining queues and streams -/

/-- The tokens that consumer j of a queue has before it, and the bytes of a token. -/
def queueTokens (c : CoreSt) (q j : Nat) : List Tok := (List.range (qOcc (qOf c q) j)).map fun i => tokAt c q (rpOf (qOf c q) j + i)
def bytesOf (n v : Nat) : List Byte := (List.range n).map fun i => BitVec.ofNat 8 (v / 256 ^ i)
def tokenBytes (kind : Nat) (ts : List Tok) : List Byte := (ts.filter fun t => t.kind == kind).flatMap fun t => bytesOf t.bytes t.pay

/-- Formats with scales: bytes of a block's elements, bytes of a scale, and the scales of n bytes (spec/08 R149). -/
def scaled (f : Fmt) (blk : Nat) : Prop := f ∈ pairFormats ∨ blk ≠ 0
def elemsOfBlock (f : Fmt) (blk : Nat) : Nat := if f ∈ pairFormats then 16 else blockOf blk
def bytesOfBlock (f : Fmt) (blk : Nat) : Nat := elemsOfBlock f blk * fmtSew f / 8
def scaleSize (f : Fmt) : Nat := if f ∈ pairFormats then 2 else 1
noncomputable def scalesOf (f : Fmt) (blk n : Nat) : Nat :=
  open Classical in if scaled f blk then (n + bytesOfBlock f blk - 1) / bytesOfBlock f blk * scaleSize f else 0

/-- The pending bytes of a queue, and its pending scales. -/
noncomputable def pendingBytes (c : CoreSt) (q : Nat) (f : Fmt) (blk : Nat) : List Byte :=
  open Classical in bytesOf (qOf c q).pfill (tokAt c q ((qOf c q).tail + if scaled f blk then 1 else 0)).pay
noncomputable def pendingScales (c : CoreSt) (q : Nat) (f : Fmt) (blk : Nat) : List Byte :=
  if (qOf c q).pfill = 0 then [] else bytesOf (scalesOf f blk (qOf c q).pfill) (tokAt c q (qOf c q).tail).pay

/-- A queue whose counters are counters, and of which no consumer has more than the queue holds. -/
def queueSane (r : Queue) : Prop := r.tail < 512 ∧ r.pfill ≤ 32 ∧ ∀ j ∈ qReaders r, rpOf r j < 512

/-- Can a producer still fill a queue (spec/08 R151, spec/16 R333)? -/
def fillable (c : CoreSt) (q : Nat) : Prop :=
  let r := qOf c q
  if r.owned = true then (aget {} c.slots r.slot).state ∈ [ChState.running, .draining, .temporal]
  else r.tagset = true ∨ r.pfill ≠ 0 ∨ ∃ kv ∈ c.streams, (kv.2.state = 1 ∨ kv.2.state = 2) ∧
    (aget 0 kv.2.desc 3).toNat / 2 ^ 40 % 2 = 0 ∧ (aget 0 kv.2.desc 3).toNat / 2 ^ 41 % 16 = q

/-- Data tokens, each with the scale token before it, as they stand in a queue; full but for one with LAST (spec/08 R149). -/
noncomputable def laid (f : Fmt) (blk : Nat) (ps : List (Tok × Tok)) : List Tok :=
  open Classical in ps.flatMap fun p => if scaled f blk then [p.1, p.2] else [p.2]
def laidOk (ps : List (Tok × Tok)) : Prop := ∀ p ∈ ps, p.1.kind = 1 ∧ p.2.kind = 0 ∧ (p.2.last = false → p.2.bytes = 32)
def dataOf (ps : List (Tok × Tok)) : List Byte := ps.flatMap fun p => bytesOf p.2.bytes p.2.pay
/-- Up to and including the first token with LAST. -/
def firstTensor (ps : List (Tok × Tok)) : List (Tok × Tok) := ps.take (ps.findIdx (fun p => p.2.last) + 1)

/-- Every other queue of a core is as before. -/
def otherQueues (c d : CoreSt) (q : Nat) : Prop := ∀ p, p ≠ q → qOf d p = qOf c p ∧ ∀ i, tokAt d p i = tokAt c p i

/-- A stream descriptor of 64 bytes is valid (spec/10 R199, spec/08 R149): reserved bits, format, counts, whole units, alignment. -/
def descriptorValid (r : Nat) : Prop :=
  let w (i : Nat) := r / 2 ^ (64 * i) % 2 ^ 64
  let blk := w 3 / 2 ^ 45 % 4
  w 3 / 2 ^ 37 % 8 = 0 ∧ w 3 / 2 ^ 47 = 0 ∧ w 7 = 0 ∧
  ∃ f, Fmt.ofCode (w 3 / 2 ^ 32 % 32) = some f ∧ blockFits f blk ∧
    let unit := if f ∈ pairFormats then 16 else if blk ≠ 0 then blockOf blk else if fmtSew f = 4 then 2 else 1
    let al := if f ∈ pairFormats ∨ fmtSew f = 4 then 1 else fmtSew f / 8
    let counts := [w 4 % 2 ^ 32, w 4 / 2 ^ 32, w 5 % 2 ^ 32]
    let strides := [w 5 / 2 ^ 32, w 6 % 2 ^ 32, w 6 / 2 ^ 32]
    w 3 % 2 ^ 32 ≠ 0 ∧ (∀ n ∈ counts, n ≠ 0) ∧ w 3 % 2 ^ 32 % unit = 0 ∧ w 0 % al = 0 ∧
      (∀ p ∈ counts.zip strides, p.1 = 1 ∨ p.2 % al = 0) ∧ (scaled f blk → bytesOfBlock f blk ≤ 32)

/-- QPOP and QPEEK. -/
def popForm : Instr → Option (Fin 16 × RegIx × Bool)
  | .qpop q d => some (q, d, false)
  | .qpeek q d => some (q, d, true)
  | _ => none

/-! ### Chains: the instructions -/

/-- A chain slot; whether a run is under way; whether the current hart may name it (spec/15 R292). -/
def slotAt (s : State) (core n : Nat) : ChSlot := aget {} (coreOf s core).slots n
def runs (sl : ChSlot) : Prop := sl.state ∈ [ChState.running, .draining, .broken, .temporal]
def mayName (s : State) (n : Nat) : Prop := (slotAt s (myCore s) n).owned = false ∨ (slotAt s (myCore s) n).owner = mySlot s

/-- The chain instructions, with the slot that each names. -/
def chainForm : Instr → Option (Fin 4)
  | .chcfg n _ | .chaim n _ | .chrun n _ | .chwait n _ | .chst n _ | .chdrn n | .chbrk n | .chsav n _ | .chld n _ => some n
  | _ => none

/-- The code of a state in Table 8-10, and the status word of CHWAIT and CHST. -/
def stateCode : ChState → Nat
  | .idle => 0 | .configured => 1 | .running => 2 | .draining => 3 | .broken => 4 | .temporal => 5 | .bound => 6 | .detached => 7 | .faulted => 8
def statusWord (sl : ChSlot) : Word :=
  if sl.state = .idle then 0
  else BitVec.ofNat 64 (stateCode sl.state + (if sl.tmp then 2 ^ 4 else 0) + (if sl.fin then 2 ^ 5 else 0) + (if sl.stopped then 2 ^ 6 else 0) +
    sl.node % 32 * 2 ^ 8 + sl.cause % 64 * 2 ^ 13)

/-- A slot without lane links: its group is its own core. -/
def alone (sl : ChSlot) : Prop := ∀ x ∈ sl.nodes, x.1 ≠ 7

/-- Software's end of an edge, which no node has as its ordinal; that ordinal 31 names it is log entry 56. -/
def softEnded (sl : ChSlot) (n : Nat) : Prop := n = 31 ∧ sl.nodes.length ≤ 31
/-- Is a queue filled by software? -/
def softFed (sl : ChSlot) (q : Nat) : Prop := ∀ e ∈ sl.edges, e.2.2.2.2 = q → softEnded sl e.1
/-- A source: no node feeds it. -/
def sourceNode (sl : ChSlot) (n : Nat) : Prop :=
  n < sl.nodes.length ∧ (sl.nodes.getD n (15, 0)).1 ≠ 7 ∧ ∀ e ∈ sl.edges, e.2.2.1 = n → softFed sl e.2.2.2.2

/-- The hart owns two slots already. -/
def ownsTwo (s : State) : Prop :=
  2 ≤ ((coreOf s (myCore s)).slots.filter fun kv => kv.2.owned && kv.2.owner == mySlot s).length

/-- What the discard of a slot leaves: the slot empty, its queues empty, other slots and queues as before. -/
def discarded (s t : State) (core n : Nat) : Prop :=
  (∀ m, m ≠ n → slotAt t core m = slotAt s core m) ∧
  ∀ q < 16, (∀ e ∈ (slotAt s core n).edges, e.2.2.2.2 ≠ q) → qOf (coreOf t core) q = qOf (coreOf s core) q

/-- What every instruction of a chain leaves of the hart: only its pc moves on. -/
def onlyPc (s t : State) : Prop := me t = retire { me s with pc := (me s).pc + 4 }

/-- Does a port's range meet what its hart has issued before (spec/07 R137): a transfer under way or not started, or a reduction? -/
def portBlockedBy (s : State) (core slot : Nat) (pats : List (Nat × AMap Word)) : Prop :=
  ∃ p ∈ pats,
    let lo := (patRange (patOf p.2)).1
    let n := (patRange (patOf p.2)).2 - lo
    aritBlocks s core slot lo n (patOf p.2).store = true ∨ pendMeets s core slot lo n (patOf p.2).store = true ∨
      redMeets s core slot lo n = true
/-- Does a port's range meet that of a run which the hart has armed or which waits to enter? -/
def portArmed (s : State) (core slot : Nat) (pats : List (Nat × AMap Word)) : Prop :=
  ∃ p ∈ pats, armMeets s core slot (patRange (patOf p.2)).1 ((patRange (patOf p.2)).2 - (patRange (patOf p.2)).1) (patOf p.2).store = true

/-! ### Chains: firings -/

/-- The nodes of a slot fire spatially (spec/08 R164, R171, R174): RUNNING or DRAINING, no bell, its leave held, no debug halt in its group. -/
def spatial (s : State) (core k : Nat) : Prop :=
  let sl := slotAt s core k
  (sl.state = .running ∨ sl.state = .draining) ∧ sl.bell = false ∧ sl.leave = sl.need ∧ chHeld s core k = false

/-- A node's kind; may it fire: not finished, parked, stopped, switched, detached or frozen? -/
def kindAt (sl : ChSlot) (n : Nat) : Nat := (sl.nodes.getD n (15, 0)).1
def freeNode (sl : ChSlot) (n : Nat) : Prop :=
  let l := aget {} sl.latch n
  l.done = false ∧ l.park = none ∧ l.stop = 0 ∧ l.newAim = false ∧ l.detached = false ∧ n ∉ sl.frozen
def openNode (sl : ChSlot) (n : Nat) : Prop := freeNode sl n ∧ (aget {} sl.latch n).owe = 0
/-- A run whose ports have entered the interlock and whose patterns are there. -/
def entered (sl : ChSlot) : Prop := sl.held = false ∧ ∀ m < sl.nodes.length, (sl.nodes.getD m (15, 0)).1 = 2 → portPat sl m ≠ none
/-- The QTAG of a queue, where it has one. -/
def tagIs (c : CoreSt) (q t : Nat) : Prop := (qOf c q).tagset = true → (qOf c q).qtag.toNat = t
/-- No token that stands before a node is poisoned. -/
def healthy (c : CoreSt) (sl : ChSlot) (n : Nat) : Prop :=
  ∀ e ∈ inputsOf sl n, ∀ i < qOcc (qOf c e.2.1) e.2.2, poiAt c e.2.1 (rpOf (qOf c e.2.1) e.2.2 + i) = 0
/-- Every token of an input holds an element. -/
def filled (c : CoreSt) (q j sew : Nat) : Prop := ∀ t ∈ queueTokens c q j, 0 < t.bytes * 8 / sew
/-- The tokens of an input end with LAST. -/
def closes (c : CoreSt) (q j : Nat) : Prop := ∃ t, (queueTokens c q j).getLast? = some t ∧ t.last = true
/-- A slot whose run fails at a node: it drains towards FAULTED. -/
def failing (sl : ChSlot) (f : List Nat) (n cause : Nat) : ChSlot :=
  { sl with state := .draining, afterDrain := max sl.afterDrain 8, frozen := f, node := if sl.cause = 0 then n else sl.node,
            cause := if sl.cause = 0 then cause else sl.cause }
/-- No queue between nodes holds data for a consumer that counts. -/
def queuesClear (s : State) (core k : Nat) : Prop :=
  ∀ e ∈ (slotAt s core k).edges, e.2.2.2.2 < 16 →
    let q := qOf (coreOf s core) e.2.2.2.2
    q.swin = true ∨ q.swout = true ∨ ∀ j ∈ qReaders q, ∀ t ∈ queueTokens (coreOf s core) e.2.2.2.2 j, t.kind ≠ 0 ∧ t.kind ≠ 1
/-- Can a node of a slot's group that owes no marker still fire? -/
def groupFires (s : State) (core k : Nat) : Prop :=
  ∃ o ∈ chGroup s core k, ∃ n < (slotAt s o k).nodes.length, (aget {} (slotAt s o k).latch n).owe = 0 ∧ fireOpen s o k n ≠ none
/-- May software still feed a slot: a queue that it fills, whose consumer has not met LAST? -/
def softWaits (s : State) (core k : Nat) : Prop :=
  let sl := slotAt s core k
  ∃ n < sl.nodes.length, (aget {} sl.latch n).detached = false ∧ (aget {} sl.latch n).done = false ∧ ∃ e ∈ inputsOf sl n,
    (qOf (coreOf s core) e.2.1).swin = true ∧ (aget {} sl.latch n).lasts.toNat.testBit e.1 = false

/-- The firings, with core, slot, node and the kind of node. -/
def firingForm : Instr → Option (Nat × Nat × Nat × Nat)
  | .stageFiring c k n => some (c, k.val, n, 0)
  | .matrixNodePass c k n => some (c, k.val, n, 1)
  | .memoryPortFiring c k n => some (c, k.val, n, 2)
  | .addressGeneratorFiring c k n => some (c, k.val, n, 3)
  | .sparseHeaderFiring c k n => some (c, k.val, n, 4)
  | .filterFiring c k n => some (c, k.val, n, 5)
  | .reductionTreeFiring c k n => some (c, k.val, n, 6)
  | .laneLinkTransfer c k n => some (c, k.val, n, 7)
  | _ => none

/-- Queue q has, behind its tokens and pending bytes, n bytes more of an unscaled format; with `last` nothing is left pending. -/
def appended (c d : CoreSt) (q n data : Nat) (last : Bool) : Prop :=
  let r := qOf c q
  let p := qOf d q
  ∀ j ∈ qReaders r, ∃ ts, queueTokens d q j = queueTokens c q j ++ ts ∧
    tokenBytes 0 ts ++ bytesOf p.pfill (tokAt d q p.tail).pay = bytesOf r.pfill (tokAt c q r.tail).pay ++ bytesOf n data ∧
    (last = true → p.pfill = 0 ∧ (0 < r.pfill + n → ∃ x, ts.getLast? = some x ∧ x.last = true))

/-- An input whose tokens are data, none but the last of them with LAST; its elements ahead, the first `used` being used up. -/
def plainInput (c : CoreSt) (q j : Nat) : Prop :=
  (qOf c q).tail < 512 ∧ rpOf (qOf c q) j < 512 ∧ (∀ t ∈ queueTokens c q j, t.kind = 0) ∧ ∀ t ∈ (queueTokens c q j).dropLast, t.last = false
def within (c : CoreSt) (q j sew used : Nat) : Prop := ∀ t, (queueTokens c q j).head? = some t → used ≤ t.bytes * 8 / sew
def elementsAhead (c : CoreSt) (q j sew used : Nat) : List Nat :=
  ((queueTokens c q j).flatMap fun t => (List.range (t.bytes * 8 / sew)).map (elemOf sew t.pay)).drop used

/-- Elements packed, lowest first. -/
def packed (w : Nat) (vs : List Nat) : Nat := (vs.zipIdx.map fun p => p.1 % 2 ^ w * 2 ^ (w * p.2)).sum

/-- A queue takes bytes: its counters are counters, and it has room for n more behind those pending. -/
def takes (c : CoreSt) (q n : Nat) : Prop := queueSane (qOf c q) ∧ ((qOf c q).pfill + n + 31) / 32 ≤ qRoom (qOf c q)

/-- A word of a node's active aim entry. -/
def aimWord (sl : ChSlot) (n i : Nat) : Nat := (aget 0 sl.active (4 * n + i)).toNat

/-! ### Chains: what happens to a run -/

/-- A run is RUNNING, DRAINING or TEMPORAL, and no debug halt holds its group. -/
def underWay (s : State) (core k : Nat) : Prop :=
  (slotAt s core k).state ∈ [ChState.running, .draining, .temporal] ∧ chHeld s core k = false

/-- No node of a slot can fire; one withholds a fault. -/
def silent (s : State) (core k : Nat) : Prop := ∀ m < (slotAt s core k).nodes.length, fireNode s core k m = none
def faultParked (sl : ChSlot) (m : Nat) : Prop := m < sl.nodes.length ∧ (aget {} sl.latch m).park ≠ none

/-- A marker (spec/08 Table 8-2) and a config token. -/
def marker (sub : Nat) : Tok := ⟨sub, 3⟩
def config (gen : Nat) : Tok := ⟨gen, 0xFA⟩

/-- Queues have room for n tokens before what is pending, and have taken some. -/
def marksFit (c : CoreSt) (qs : List Nat) (n : Nat) : Prop :=
  ∀ q ∈ qs, queueSane (qOf c q) ∧ n + (if (qOf c q).pfill = 0 then 0 else 2) ≤ qRoom (qOf c q)
def marked (c d : CoreSt) (qs : List Nat) (ts : List Tok) : Prop :=
  ∀ q ∈ qs, (∀ j ∈ qReaders (qOf c q), queueTokens d q j = queueTokens c q j ++ ts) ∧ (qOf d q).pfill = (qOf c q).pfill ∧
    ((qOf c q).pfill ≠ 0 → ∀ i < 2, tokAt d q ((qOf d q).tail + i) = tokAt c q ((qOf c q).tail + i))

/-- Markers of stops: checkpoint and bell. -/
def stopForm : Instr → Option (Nat × Nat × Nat × Nat)
  | .checkpointMarkerAtNode c k n => some (c, k.val, n, 2)
  | .bellAtNode c k n => some (c, k.val, n, 1)
  | _ => none

/-- One node feeds another. -/
def feeds (sl : ChSlot) (a b : Nat) : Prop := a < sl.nodes.length ∧ b < sl.nodes.length ∧ ∃ e ∈ sl.edges, e.1 = a ∧ e.2.2.1 = b

/-- What the end of a run leaves of a slot besides its state (spec/08 R162, Table 8-11): leave, queue places in the die's order, faults,
timers. -/
def ended (sl new : ChSlot) (node cause : Nat) (tmp stopped : Bool) : Prop :=
  new.fin = true ∧ new.tmp = tmp ∧ new.stopped = stopped ∧ new.node = node ∧ new.cause = cause ∧ new.leave = 0 ∧ new.asked = false ∧
    new.afterDrain = 0 ∧ new.frozen = [] ∧ new.saved = [] ∧ new.boundNode = none ∧ new.detachNode = none ∧ new.fage = 0 ∧ new.bell = false ∧
    new.nodes = sl.nodes ∧ new.edges = sl.edges ∧ new.active = sl.active ∧ new.owned = sl.owned ∧ new.owner = sl.owner

/-- No interlock entry of a slot's ports, generators or tree is left. -/
def portsFree (t : State) (core : Nat) (sl : ChSlot) : Prop :=
  ∀ kv ∈ (coreOf t core).arit, ∀ x ∈ sl.nodes, (x.1 = 2 → kv.2.src ≠ x.2) ∧ (x.1 = 3 → kv.2.src ≠ 18 + x.2) ∧ (x.1 = 6 → kv.2.src ≠ 22)

/-! ### Barriers, message rings, futures and the task queue -/

/-- A cell or record is reached at its home agent; `s2` is the state in which the agent acts: the translation made, the core's line gone. -/
def reachesCell (s s2 : State) (k : AKind) (va n : Nat) (l : Loc) : Prop :=
  ∃ s1, reaches s s1 k .sync va n l ∧ (∀ pa key, l ≠ .phys pa 3 key) ∧ locPoisoned s1 l n = false ∧ s2 = flushLoc s1 (myCore s1) l

/-- A barrier register: EXP, ARR, PHASE (spec/15 Table 15-2), and one arrival on it (Table 15-3). -/
def barrierAt (s : State) (seat n : Nat) : Nat := (aget 0 (gangOf s seat).gb n).toNat
def expOf (w : Nat) : Nat := w % 2 ^ 16
def arrOf (w : Nat) : Nat := w / 2 ^ 16 % 2 ^ 16
def phaseOf (w : Nat) : Nat := w / 2 ^ 32
def barrierWord (ex ar ph : Nat) : Nat := ex + ar * 2 ^ 16 + ph % 2 ^ 32 * 2 ^ 32
def arrived (w : Nat) : Nat :=
  if arrOf w + 1 < expOf w then barrierWord (expOf w) (arrOf w + 1) (phaseOf w) else barrierWord (expOf w) 0 (phaseOf w + 1)
def setBarrier (s : State) (seat n w : Nat) : State := updGang s seat fun g => { g with gb := aputC 0 g.gb n (BitVec.ofNat 64 w) }

/-- The ring descriptor at an address is reached: aligned, in tile memory, and nothing holds the access back. -/
def reachesRing (s : State) (va : Nat) (l : Loc) : Prop :=
  va % 32 = 0 ∧ tileAt s va = some l ∧ ownWaits s (myCore s) (mySlot s) va 32 true = false ∧ locPoisoned s l 32 = false

/-- The descriptor's fields (spec/10 Table 10-7). -/
structure RingIs (s : State) (l : Loc) (base logsz tail head : Nat) (nak init : Bool) : Prop where
  base_eq : base = homeRead s l 32 % 2 ^ 64
  log_eq : logsz = homeRead s l 32 / 2 ^ 64 % 32
  nak_eq : nak = (homeRead s l 32).testBit 69
  init_eq : init = (homeRead s l 32).testBit 70
  tail_eq : tail = homeRead s l 32 / 2 ^ 128 % 2 ^ 32
  head_eq : head = homeRead s l 32 / 2 ^ 160 % 2 ^ 32

/-- TAIL and HEAD written; a record's bytes and header (spec/10 R208). -/
def pointers (s : State) (l : Loc) (tail head : Nat) : State := homeWrite s 0 (locAdd l 16) 8 (tail % 2 ^ 32 + head % 2 ^ 32 * 2 ^ 32)
def recordBytes (n : Nat) : Nat := 8 + (n + 7) / 8 * 8
def header (len kind : Nat) : Nat := len % 2 ^ 24 + kind * 2 ^ 24

/-- A task queue (spec/10 R213): its slots, counters and places. -/
def tasks (s : State) (tid base : Nat) : Nat := (areaRead s tid (base + 0x18D0008) 8 + 2 ^ 64 - areaRead s tid (base + 0x18D0000) 8) % 2 ^ 64
def taskPlace (base n : Nat) : Nat := base + 0x18D0010 + n % 8191 * 16

/-! ### Near-memory units -/

/-- Bytes of an element of a BAU format (spec/11 R216). -/
def bankBytes (code : Nat) : Option Nat :=
  match code with
  | 0x09 => some 4 | 0x0A => some 2 | 0x0B => some 2 | 0x02 => some 4 | _ => none

/-- The checks of spec/11 R218 on a command descriptor of 32 bytes. -/
def bankDescriptor (r : Nat) : Prop :=
  let w0 := r % 2 ^ 64
  let dst := r / 2 ^ 64 % 2 ^ 64
  let src := r / 2 ^ 128 % 2 ^ 64
  let w3 := r / 2 ^ 192
  let op := w0 % 16
  let len := w0 / 2 ^ 16 % 2 ^ 13
  let n := w3 % 2 ^ 32
  ∃ e, bankBytes (w0 / 16 % 32) = some e ∧ w0 / 2 ^ 9 % 2 ^ 7 = 0 ∧ w0 / 2 ^ 29 % 8 = 0 ∧ w3 / 2 ^ 32 = 0 ∧ op ≤ 5 ∧
    (op = 5 → w0 / 16 % 32 ≠ 2 ∧ 1 ≤ len ∧ len ≤ 4096 ∧ n ≤ 4096) ∧ (op ≠ 5 → len = 0 ∧ n * e ≤ 2 ^ 24) ∧
    (op = 0 ∨ op = 3 → src = 0) ∧ (op = 1 ∨ op = 4 → w0 / 2 ^ 32 = 0) ∧ dst % e = 0 ∧ src % e = 0

/-- The pieces among a list that are for one bank. -/
def piecesFor (ps : List (Nat × Piece)) (b : Nat) : List Piece := (ps.filter fun x => x.1 == b).map fun x => x.2

/-- The pieces of a command go to the queues of their banks in order, up to one whose bank holds 32; what is left stays with the command
(spec/11 R219). -/
def enqueued (s t : State) (id : Nat) (c : BauCmd) (ps rest : List (Nat × Piece)) : Prop :=
  ∃ pre, ps = pre ++ rest ∧ (∀ b, bankQ t b = bankQ s b ++ piecesFor pre b) ∧ (∀ b, (bankQ t b).length ≤ max 32 (bankQ s b).length) ∧
    (∀ x, rest.head? = some x → 32 ≤ (bankQ t x.1).length) ∧ aget? t.cmds id = some { c with todo := rest } ∧ t.mem = s.mem

/-- The values of an element: read at its bank under the key of its range. -/
def bankValue (s : State) (rs : List Rng) (off n : Nat) : Nat := (rngRead s rs off n).1

/-- The ranges that a piece reads beside its own, and what its element i becomes (spec/11 Table 11-2). -/
def pieceSources (p : Piece) : List Rng :=
  match p.op with
  | .copy src => src | .axpy src _ => src | .row _ g => g | _ => []
def pieceValue (s : State) (p : Piece) (f : Fmt) (e i : Nat) : Option Nat :=
  let old := bankValue s [p.at_] (i * e) e
  let src := bankValue s (pieceSources p) (i * e) e
  match p.op with
  | .fill v => some (bauFill f v)
  | .copy _ => some src
  | .axpy _ a => some (bauAxpy f a src old)
  | .row a _ => some (bauAxpy f a src old)
  | .scale a => some (bauScale f a old)
  | _ => none

/-- The key of a page is loaded; firmware's own accesses use none (spec/14 R271). -/
def keyHeld (s : State) (key : Nat) : Prop := 8192 ≤ key ∨ keyId s key ≠ 0

/-- A piece that stops nowhere: keys loaded, whole elements, no poison, no injected error, no overlap, and sources in other lines than its own. -/
def plainPiece (s : State) (bank : Nat) (p : Piece) (c : BauCmd) (e : Nat) : Prop :=
  aget? s.bankErr bank = none ∧ c.xdirty.toNat % 2 = 0 ∧ p.hi ≤ p.lo ∧ (∀ r ∈ p.at_ :: pieceSources p, keyHeld s r.key) ∧
    (∀ i < p.at_.len / e, (rngRead s [p.at_] (i * e) e).2 = false ∧ (rngRead s (pieceSources p) (i * e) e).2 = false) ∧
    ∀ r ∈ pieceSources p, r.pa % e = 0 ∧ r.len % e = 0 ∧
      ((r.pa + r.len + 63) / 64 ≤ p.at_.pa / 64 ∨ (p.at_.pa + p.at_.len + 63) / 64 ≤ r.pa / 64)

/-- A piece has left its bank: its command counts one piece less, or is done and gives its leave back (spec/11 R221). -/
def pieceLeft (s t : State) (bank : Nat) (q : List Piece) (p : Piece) (c : BauCmd) (got : AMap (List Nat)) : Prop :=
  bankQ t bank = q ∧
    (c.left = 1 → c.todo = [] → aget? t.cmds p.cmd = none ∧ (dieOf t (dieOfCore (coreOfHart c.hart))).leaveOut =
      (dieOf s (dieOfCore (coreOfHart c.hart))).leaveOut - c.weight) ∧
    (2 ≤ c.left → aget? t.cmds p.cmd = some { c with left := c.left - 1, got := got })

/-- The rows that an index register lists, translated in order. -/
def rowRanges (s : State) (base stride n : Nat) : List Nat → Except Exc (State × List (List Rng))
  | [] => .ok (s, [])
  | k :: ks => do
    let (s1, r) ← bauRange s .load (base + k * stride) n
    let (s2, rs) ← rowRanges s1 base stride n ks
    .ok (s2, r :: rs)

/-- The checks on a table descriptor of 16 bytes (spec/11 R222), with the elements that the destination group has room for. -/
def tableDescriptor (r cap : Nat) : Prop :=
  let w1 := r / 2 ^ 64
  let len := w1 % 2 ^ 13
  (w1 / 2 ^ 13 % 32 = 0x09 ∨ w1 / 2 ^ 13 % 32 = 0x0A ∨ w1 / 2 ^ 13 % 32 = 0x0B) ∧ r % 64 = 0 ∧ w1 / 2 ^ 18 % 2 ^ 14 = 0 ∧
    1 ≤ len ∧ len ≤ 4096 ∧ w1 / 2 ^ 32 ≠ 0 ∧ len ≤ cap

/-- A product-key configuration of 64 bytes is valid (spec/11 R224). -/
def lookupConfig (r : Nat) : Prop :=
  let w3 := r / 2 ^ 192 % 2 ^ 64
  let n := w3 % 2 ^ 13
  let half := w3 / 2 ^ 13 % 2 ^ 9
  let k := w3 / 2 ^ 22 % 2 ^ 6
  let vlen := w3 / 2 ^ 30 % 2 ^ 13
  r / 2 ^ 240 = 0 ∧ 1 ≤ n ∧ n ≤ 4096 ∧ 1 ≤ half ∧ half ≤ 256 ∧ 1 ≤ k ∧ k ≤ 32 ∧ k ≤ n ∧ w3 / 2 ^ 28 % 4 ≠ 3 ∧ 1 ≤ vlen ∧ vlen ≤ 4096 ∧
    (w3 / 2 ^ 43 % 32 = 0x09 ∨ w3 / 2 ^ 43 % 32 = 0x0A ∨ w3 / 2 ^ 43 % 32 = 0x0B) ∧
    r % 64 = 0 ∧ r / 2 ^ 64 % 64 = 0 ∧ r / 2 ^ 128 % 64 = 0

/-- Places in a PKL area: a configuration slot, a batch record; a record's use flag, ticket and status words. -/
def configAt (base n : Nat) : Nat := base + 0x18F0000 + 64 * n
def batchAt (base h t : Nat) : Nat := base + 0x18F1000 + (8 * h + t) * 128
def batchUsed (s : State) (tid b : Nat) : Prop := areaRead s tid (b + 0x70) 8 % 2 = 1
def batchTicket (s : State) (tid b : Nat) : Nat := areaRead s tid (b + 0x68) 8
def batchStatus (s : State) (tid b : Nat) : Nat := areaRead s tid (b + 0x60) 8

/-- A batch is done: status word, its place in the unit, its leave. -/
def batchDone (s : State) (u : Nat) (j : PklJob) (result cause : Nat) : State :=
  let done := batchStatus s j.ctx.tid j.recPa / 2 ^ 32 % 2 ^ 32
  let s := areaWriteD s j.ctx (j.recPa + 0x60) 8 (3 + 4 * result + 16 * (cause % 64) + 2 ^ 32 * done)
  releaseUnits { s with pkl := aputC [] s.pkl u ((aget [] s.pkl u).drop 1) } (dieOfCore j.ctx.core) j.weight

/-- The job at the head of a unit replaced. -/
def headJob (s : State) (u : Nat) (j : PklJob) : State := { s with pkl := aputC [] s.pkl u (j :: (aget [] s.pkl u).drop 1) }

/-- The ranges of a batch's outputs: index pairs and values (spec/11 R230). -/
def batchOutputs (desc cfg : Nat) : Cover :=
  let n := desc / 2 ^ 192 % 2 ^ 16
  let k := cfg / 2 ^ 192 / 2 ^ 22 % 2 ^ 6
  let row := (4 * (cfg / 2 ^ 192 / 2 ^ 30 % 2 ^ 13) + 63) / 64 * 64
  let ia := desc / 2 ^ 128 % 2 ^ 64
  let va := desc / 2 ^ 64 % 2 ^ 64
  fun lo hi => decide (lo < ia + 8 * k * n ∧ ia < hi ∨ lo < va + n * row ∧ va < hi)

/-- One score is before another: numbers before NaN, larger before smaller, +0 before -0, then the lower row (spec/11 R228). -/
def before (x y : Nat × Nat) : Prop :=
  match Claim.valQ (f32v x.1), Claim.valQ (f32v y.1) with
  | some a, some b =>
    b < a ∨ a = b ∧ ((fsignV (f32v x.1) = false ∧ fsignV (f32v y.1) = true) ∨ fsignV (f32v x.1) = fsignV (f32v y.1) ∧ x.2 < y.2)
  | _, _ => False

/-- A score that is a number. -/
def finiteScore (x : Nat × Nat) : Prop := Claim.valQ (f32v x.1) ≠ none

/-! ### Seats and gangs (spec/12 Tables 12-2 and 12-3) -/

/-- What a seat's status word says: STATE, ENDHOW, CAUSE, SEQ. -/
def seatSays (t : State) (seat st how cause seq : Nat) : Prop :=
  seatState t seat = st ∧ seatHow t seat = how ∧ seatWord t seat / 16 % 64 = cause % 64 ∧ seatSeq t seat = seq

/-- A gang is gone from its seat, and nothing of it is left on its cores. -/
def gangGone (t : State) (seat : Nat) (g : Gang) : Prop :=
  aget? t.gangs seat = none ∧ ∀ c ∈ gangCoreList g, (coreOf t c).gang = none ∧ (coreOf t c).copies = [] ∧ (coreOf t c).streams = [] ∧
    (coreOf t c).arit = [] ∧ (coreOf t c).slots = [] ∧ ∀ k < 8, (hartOf t (8 * c + k)).run = .idle

/-- Has a launch record a reserved byte or field that is not zero (spec/12 Table 12-1)? -/
def launchReserved (r : Nat) : Prop :=
  r / 2 ^ 220 % 2 ^ 4 ≠ 0 ∨ r / 2 ^ 234 % 2 ^ 6 ≠ 0 ∨ r / 2 ^ 243 % 2 ^ 5 ≠ 0 ∨ r / 2 ^ 387 % 2 ^ 13 ≠ 0 ∨ r / 2 ^ 409 % 2 ^ 103 ≠ 0

/-- Does a launch record's SHAPE name a region: h and w from 1 to 4? -/
def launchShape (r : Nat) : Prop :=
  1 ≤ r / 2 ^ 224 % 16 ∧ r / 2 ^ 224 % 16 ≤ 4 ∧ 1 ≤ r / 2 ^ 228 % 16 ∧ r / 2 ^ 228 % 16 ≤ 4

/-- The tenant id of a launch record and of a queue. -/
def launchTid (r : Nat) : Nat := r / 2 ^ 208 % 2 ^ 12
def queueTid (s : State) (q : Nat) : Nat := (aget 0 s.io.lq (4 * q + 1)).toNat / 2 ^ 16 % 2 ^ 12

/-- Does firmware take a record of a queue (spec/12 R234, R235)? -/
def accepted (s : State) (q r : Nat) : Prop := launchTid r = queueTid s q ∧ ¬ launchReserved r ∧ launchShape r

/-- Is a region on the grid, with a spare for each position of it that is unavailable (spec/01 R11, spec/02 R19)? -/
def regionOk (s : State) (g : Rgn) : Prop :=
  g.row0 + g.h ≤ 16 ∧ g.col0 + g.w ≤ 24 ∧
    ∀ d < 4, ((rgnCores g).filter fun c => s.io.retiring.contains c && dieOfCore c == d).length ≤ (dieOf s d).spares

/-- Does a waiting record cover a core? -/
def waitsFor (s : State) (k core : Nat) : Prop := seatState s k = 1 ∧ core ∈ rgnCores (bindRgn (bindW s k 0))

/-- May a record of a priority be seated at a region (spec/12 R240): no reservation of higher priority on it? -/
def mayTake (s : State) (prio : Nat) (g : Rgn) : Prop :=
  regionOk s g ∧ ∀ c ∈ rgnCores g, (coreOf s c).gang = none → ∀ k, waitsFor s k c → bindPrio (bindW s k 0) ≤ prio

/-- Is a seat free for a new record (spec/12 R239): ended or empty, with no record that dispatch has yet to see and no gang that is to
be seated again (log entry 38)? -/
def openSeat (s : State) (k : Nat) : Prop :=
  seatState s k ≠ 1 ∧ seatState s k ≠ 2 ∧ k ∉ s.io.requeue ∧ (bindValid (bindW s k 0) = true → bindSeq (bindW s k 0) = seatSeq s k)

/-- The first free seat of an origin. -/
def firstSeat (s : State) (row col seat : Nat) : Prop :=
  ∃ k < 8, seat = seatBase row col + k ∧ openSeat s seat ∧ ∀ j < k, ¬ openSeat s (seatBase row col + j)

/-- Where firmware seats a launch record (spec/12 R240): at ORIGIN under PIN, else at the lowest origin, in row-major order, that
takes it and has a seat free. -/
def placed (s : State) (r seat : Nat) (g : Rgn) : Prop :=
  if lrPin r then g = ⟨lrRow r, lrCol r, lrH r, lrW r⟩ ∧ firstSeat s g.row0 g.col0 seat
  else ∃ o < 384, g = ⟨o / 24, o % 24, lrH r, lrW r⟩ ∧ mayTake s (lrPrio r) g ∧ firstSeat s g.row0 g.col0 seat ∧
    ∀ p < o, mayTake s (lrPrio r) ⟨p / 24, p % 24, lrH r, lrW r⟩ → ∀ k < 8, ¬ openSeat s (seatBase (p / 24) (p % 24) + k)

/-- Is the record of queue k served before that of queue q (spec/12 R240): higher priority, then the next in rotation? -/
def servedFirst (s : State) (k rk q r : Nat) : Prop :=
  let turn (x : Nat) : Nat := (x + 256 - aget 0 s.io.lqRr (lrPrio rk)) % 256
  lrPrio r < lrPrio rk ∨ (lrPrio rk = lrPrio r ∧ turn k < turn q)

/-- The base of the save area of the gang that runs or waits at a seat. -/
def seatArea (s : State) (k : Nat) : Nat :=
  match aget? s.gangs k with
  | some g => g.ctxbase
  | none => lrCtxbase (launchRec s k) / 4096 % 2 ^ 40 * 4096

/-- Does dispatch refuse the bind record of a seat with cause 29 (spec/12 R237)? -/
def bindRefusal (s : State) (seat : Nat) : Prop :=
  let w0 := bindW s seat 0
  let w1 := bindW s seat 1
  let r := launchRec s seat
  let g := bindRgn w0
  ¬ regionOk s g ∨ bindGcap w0 = 0 ∨ 32 / bindPart w0 < bindGcap w0 ∨
    w0 / 2 ^ 27 % 2 ^ 5 ≠ 0 ∨ w1 % 2 ^ 6 ≠ 0 ∨ w1 / 2 ^ 52 % 2 ^ 12 ≠ 0 ∨
    bindW s seat 2 ≠ r % 2 ^ 64 ∨ bindW s seat 3 ≠ r / 2 ^ 64 % 2 ^ 64 ∨ r / 2 ^ 224 % 16 ≠ g.h ∨ r / 2 ^ 228 % 16 ≠ g.w ∨
    r / 2 ^ 316 % 16 ≠ 15 ∨ launchReserved r ∨
    ∃ k, k ≠ seat ∧ (seatState s k = 1 ∨ seatState s k = 2) ∧ seatArea s k = lrCtxbase r / 4096 % 2 ^ 40 * 4096

/-- Is one waiting record strictly better than another (spec/12 R238): higher PRIO, then lower SEQ? -/
def beats (s : State) (a b : Nat) : Prop :=
  let pa := bindPrio (bindW s a 0)
  let pb := bindPrio (bindW s b 0)
  pb < pa ∨ (pa = pb ∧ seatSeq s a < seatSeq s b)

/-- Is every core of a waiting record's region free, powered and reserved for it, and none unavailable (spec/12 R238)? -/
def startable (s : State) (seat : Nat) : Prop :=
  let g := bindRgn (bindW s seat 0)
  seatState s seat = 1 ∧ (∀ d < 4, ((rgnCores g).filter fun c => s.io.retiring.contains c && dieOfCore c == d).length ≤ (dieOf s d).spares) ∧
    ∀ c ∈ rgnCores g, (coreOf s c).gang = none ∧ (dieOf s (dieOfCore c)).powered = true ∧
      ∀ k, k ≠ seat → waitsFor s k c → beats s seat k

/-- Is a tag one that VTAGS accepts (spec/17 R369)? -/
def tagLegal (x : Nat) : Prop :=
  (∃ f, Fmt.ofCode (x % 32) = some f ∧ Claim.blockFits f (x / 32 % 4)) ∧ (x / 128 % 2 = 1 → x / 32 % 4 ≠ 0)

/-- Does a core image pass the checks of a load (spec/03 R58), for partition P and a region of n cores whose SHAPE byte is given?
That a run which cannot complete temporally is a FAULTED one is log entry 32. -/
def goodImage (m : Mem) (part n region : Nat) : Prop :=
  let at_ (o k : Nat) : Nat := mapNat m o k
  at_ 0 4 = 0x43584E49 ∧ at_ 4 2 = 0x0100 ∧ at_ 6 2 = 0x00B0 ∧ at_ 8 4 = 0x18B000 ∧ at_ 0xC 1 = part ∧
    at_ 0xE 1 % 16 * (at_ 0xE 1 / 16 % 16) = n ∧ (at_ 0xE 1 ≠ region → ∀ k < 4, at_ (0x9100 + 64 * k) 8 % 16 ≠ 8) ∧
    at_ 0x40 64 = sha512 (fromKey m 0x1000) 0x1000 0x18A000 ∧
    (∀ t < 8, at_ (0x9020 + t) 1 ∈ [2, 9, 0x1F]) ∧
    ∀ g < part, (
      let o := 0x1000 + 0x1000 * g
      (at_ (o + 0x310) 8 ≠ 2 ^ 63 → ∃ lg f blk, Claim.vtypeLegal (at_ (o + 0x310) 8) lg f blk) ∧
      (∀ r < 32, tagLegal (at_ (o + 0x400 + r) 1)) ∧ (∀ k < 16, at_ (o + 0x420 + k) 1 < 4) ∧ at_ (o + 8) 8 % 4 < 2 ∧
      (at_ (o + 8) 8 / 8 % 2 = 1 → at_ (o + 0x358) 8 ≠ 0 ∧ at_ (o + 0x358) 8 ≤ 32 / part))

/-- Is leave of some units given now (spec/12 R243, Table 12-4): within the budget or nothing outstanding, and at most 64 units in the
microsecond; in host-assisted power mode at once? -/
def leaveDue (s : State) (die units : Nat) : Prop :=
  let d := dieOf s die
  let recent := ((d.leaveRecent.filter fun r => r.1 == s.us).map fun r => r.2).sum
  s.io.mode.toNat.testBit 3 = true ∨ ((d.leaveOut + units ≤ 16 + Config.leaveExtra die ∨ d.leaveOut = 0) ∧ recent + units ≤ 64)

/-- The gang of a seat's record, its cores bound and emptied, before its harts start. -/
def boundFor (s : State) (seat : Nat) : State × Gang :=
  let g := (newGang s seat).2
  let s1 := bindContext (setGang (newGang s seat).1 seat g) g.ctxbase g.tid
  ((List.range (gangCores g)).foldl (fun t c => bindCore t seat g.part c (gangCore g c)) s1, g)

/-- A hart as a fresh start leaves it (spec/02 Table 2-1): hart index i of a gang, by its launch record, with its entry and argument. -/
def startedFresh (g : Gang) (r i entry arg : Nat) (h : Hart) : Prop :=
  h.run = .running ∧ h.priv = .u ∧ h.pc = BitVec.ofNat 64 entry ∧
    aget 0 h.x 2 = BitVec.ofNat 64 (ownSdmVa + (i % g.part + 1) * (65536 / g.part)) ∧ aget 0 h.x 10 = BitVec.ofNat 64 i ∧
    aget 0 h.x 11 = BitVec.ofNat 64 (g.h * g.w * g.part) ∧ aget 0 h.x 12 = BitVec.ofNat 64 arg ∧
    aget 0 h.x 13 = BitVec.ofNat 64 (i / g.part) ∧ (∀ k, k ∉ [2, 10, 11, 12, 13] → aget 0 h.x k = 0) ∧
    h.f = [] ∧ h.v = [] ∧ h.tags = [] ∧ h.sc = [] ∧ h.p = [] ∧ h.spill = [] ∧ h.xc.vl = 0 ∧ h.xc.vtype = 0x8000000000000000 ∧
    h.xc.grant = g.grant ∧ h.xc.srseed = BitVec.ofNat 64 (i + 1) ∧ h.xc.vstart = 0 ∧ h.pr.satp = BitVec.ofNat 64 (lrSatp r) ∧
    h.wait = none ∧ h.park = none

/-- A running hart that is not halted is in debug mode, by a cause. -/
def enteredDebug (a b : Hart) (cause : Nat) : Prop :=
  inDebug b = true ∧ b.pr.dpc = a.pc ∧ b.pc = a.pc ∧ b.pr.dcsr.toNat / 64 % 8 = cause ∧
    b.pr.dcsr.toNat % 4 = (match a.priv with | .u => 0 | .s => 1 | .m => 3) ∧ b.wait = none ∧ b.park = none ∧ b.x = a.x ∧ b.f = a.f ∧
    b.v = a.v ∧ b.priv = a.priv

/-- Has a hart of a listed core an access to host memory under way: a waiting ACQ request, a refill, a reduction or a buffered store? -/
def hostUnderway (s : State) (h : Nat) : Prop :=
  ∃ kv ∈ s.cores, (∃ q ∈ s.acqs, q.hart = h ∧ coreOfHart h = kv.1 ∧ isHostMem q.obj = true) ∨
    (∃ f ∈ kv.2.refills, h = 8 * kv.1 + f.slot ∧ ∃ l ∈ f.locs, locHost l.2 = true) ∨
    (∃ x ∈ kv.2.redq, h = 8 * kv.1 + x.slot ∧ locHost x.loc = true) ∨
    (∃ k < 8, h = 8 * kv.1 + k ∧ ∃ b ∈ (hartOf s h).wc, isHostMem b.1 = true)

/-- Is a copy moving bytes of host memory? -/
def hostCopy (k : Copy) : Prop := k.stage = 0 ∧ 0 < k.rem ∧ ∃ x ∈ k.held, locHost x.loc = true

/-! ### What the host sends, and what firmware takes (spec/14) -/

/-- The state with the request at the head of the link's queue taken. -/
def taken (s : State) (r : List HostReq) : State := updIo s fun io => { io with hostQ := r }

/-- The host writes an 8-byte aligned offset: it stands at the head of the link's requests; and `u` is the state without it. -/
def hostWrites (s : State) (o : Nat) (v : Word) (u : State) : Prop :=
  s.io.linkUp = true ∧ ∃ off r, s.io.hostQ = .regWrite off v :: r ∧ off / 8 * 8 = o ∧ u = taken s r

/-- Firmware writes an offset on the device's side, with nothing of the host's before it (spec/14 Table 14-1). -/
def deviceWrites (s : State) (o : Nat) (v : Word) (u : State) : Prop :=
  (s.io.linkUp = false ∨ s.io.hostQ = []) ∧ o % 8 = 0 ∧ ∃ r, s.io.devQ = (o, v.toNat) :: r ∧ u = updIo s fun io => { io with devQ := r }

/-- A write to an offset, from either side. -/
def writeAhead (s : State) (o : Nat) (v : Word) (u : State) : Prop := hostWrites s o v u ∨ deviceWrites s o v u

/-- What waits on either side is what waits in `u`. -/
def restOf (t u : State) : Prop := t.io.hostQ = u.io.hostQ ∧ t.io.devQ = u.io.devQ

/-- Has the tenant of a gang an enabled window with the frame of an address (spec/06 R109)? -/
def ownFrame (s : State) (g : Gang) (pa : Nat) : Prop :=
  ∃ n < 64, let a := pwinWord s g.tid n 0
    a % 2 = 1 ∧ a / 4096 % 2 ^ 40 ≤ pa / 4096 ∧ pa / 4096 ≤ pwinWord s g.tid n 1 / 4096 % 2 ^ 40

/-- The byte of a gang's dirty bitmap for an address, if its context is tracked (spec/06 R116, R117). -/
def trackedBy (s : State) (g : Gang) (pa x : Nat) : Prop :=
  let xd := (hartOf s (gangHart g 0)).xc.dirty.toNat
  let base := xd / 4096 % 2 ^ 40 * 4096
  ownFrame s g pa ∧ xd % 2 = 1 ∧ ¬ (base ≤ pa ∧ pa < base + 0x1800000) ∧ x = base + pa / 32768

/-- The fields of an attestation report in the order of spec/13 R263, before its signature; their packing is log entry 44. -/
def reportBytes (s : State) (tid : Nat) (nonce : List Byte) : List Byte :=
  bytesOf 4 0x9100 ++ bytesOf 2 0x00B0 ++
    (List.range Config.imageCount).flatMap (fun i =>
      bytesOf 64 (sha512 (Config.bundleImage s.io.running i) 0 (Config.imageLen s.io.running i))) ++
    bytesOf 8 s.io.rollback ++ bytesOf 2 tid ++ nonce
/-- A report: with the signature (r, s), 66 bytes each. -/
def report (s : State) (tid : Nat) (nonce : List Byte) : List Byte :=
  reportBytes s tid nonce ++ bytesOf 132 (Config.signature (reportBytes s tid nonce)).toNat

/-- The bytes of a report. -/
def reportSize : Nat := 6 + 64 * Config.imageCount + 8 + 2 + 64 + 132
/-- Does a report verify for the tenant of a key: each firmware digest on the tenant's list, and the signature of a device? -/
def reportFor (key : Nat) (rep : List Byte) (dev : BitVec 64) : Prop :=
  let body := rep.take (reportSize - 132)
  let sig := BitVec.ofNat 1056 (natOfBytes (rep.drop (reportSize - 132)))
  (∀ i < Config.imageCount, Config.digestListed key (BitVec.ofNat 512 (natOfBytes ((rep.drop (6 + 64 * i)).take 64))) = true) ∧
    (if sig = Config.signature body then dev = Config.serial else Config.signer body sig = some dev)

/-- Is a wrapped key that of a key identity of this device, wrapped for this device? -/
def ownKey (s : State) (w : List Byte) (k : Nat) : Prop :=
  ((1 ≤ k ∧ k ≤ s.io.keyCtr) ∨ ∃ slot, (slot, k) ∈ s.io.keys) ∧ w = Config.wrapKey (Config.keyBits k) Config.serial

/-- A command of a code stands at the read pointer of the host-to-firmware ring, which lies in HBM; its payload has a length. -/
def commandAhead (s : State) (c : List Nat) (code len : Nat) : Prop :=
  mbCommand s = some c ∧ c.headD 0 % 2 ^ 16 = code ∧ c.headD 0 / 2 ^ 16 % 2 ^ 16 = len ∧
    ringAt s hfRing (mbReg s hfRing.rp) 64 + 64 ≤ hbmEnd

/-- Firmware has moved the read pointer past the command. -/
def commandTaken (s : State) : State := setMbReg s 0x018 ((mbReg s 0x018 + 1) % 2 ^ 32)

/-- The REPLY with the command's tag, a status and further words waits to be posted. -/
def replied (t : State) (c : List Nat) (status : Nat) (ws : List Nat) : State :=
  updIo t fun io => { io with fhWait := io.fhWait ++
    [BitVec.ofNat 64 (0x8000 + 8 * (ws.length + 1) * 2 ^ 16 + c.headD 0 / 2 ^ 32 % 2 ^ 32 * 2 ^ 32) ::
      BitVec.ofNat 64 status :: ws.map (BitVec.ofNat 64)] }

/-- A request of a PLDM type and command stands at the head of the management messages, and the ROM has run. -/
def requestAhead (s : State) (m : List Byte) (r : List (List Byte)) (type cmd : Nat) : Prop :=
  s.io.mctpIn = m :: r ∧ (s.io.booted = true ∨ s.io.recovery = true) ∧
    (m.getD 0 0).toNat = 1 ∧ (m.getD 1 0).toNat / 128 = 1 ∧ (m.getD 2 0).toNat % 64 = type ∧ (m.getD 3 0).toNat = cmd

/-- The request taken, and its answer sent after a change of state: completion code and payload. -/
def answeredWith (s : State) (r : List (List Byte)) (m : List Byte) (f : Io → Io) (code : Nat) (p : List Byte) : State :=
  updIo s fun io => { f { io with mctpIn := r } with
    mctpOut := io.mctpOut ++ [[1, m.getD 1 0 &&& 0x1F, m.getD 2 0, m.getD 3 0] ++ BitVec.ofNat 8 code :: p] }

/-- The PLDM requests that a device answers alike but in recovery, where it is not ready: type, command, payload of the answer. -/
def plainRequest : List (Instr × Nat × Nat × (State → List Byte → List Byte)) :=
  [(.getTid, 0, 2, fun s _ => [s.io.tid]), (.getPldmVersion, 0, 3, fun _ m => Config.pldmPayload m),
   (.getPldmTypes, 0, 4, fun _ _ => [0x25, 0, 0, 0, 0, 0, 0, 0x80]),
   (.getPldmCommands, 0, 5, fun _ m => pldmCommandMap (m.getD 4 0).toNat), (.getPdr, 2, 0x51, fun _ m => Config.pldmPayload m),
   (.getSensorReading, 2, 0x11, fun s m => [5, 0, 0, 1, 1, 1] ++
     bytesOf 4 (Config.sensor ((m.getD 4 0).toNat + 256 * (m.getD 5 0).toNat) s.us).toNat)]

/-- The update agent moves to a state; what it was is the previous one. -/
def agentTo (st : Nat) (io : Io) : Io := { io with fwState := st, fwPrev := io.fwState, fwAsked := false }

/-- The update agent sends a request of its own. -/
def agentAsks (s : State) (cmd : Nat) (p : List Byte) (f : Io → Io) : State :=
  updIo s fun io => { f io with mctpOut := io.mctpOut ++ [[1, 0x80, 5, BitVec.ofNat 8 cmd] ++ p] }

end Sys2Proof.Claim
end

