-- ==== Sys2Proof/Certificates/Slice0/Obligations.lean ====
section
/-!
DEFINITION. The obligations: what the model owes the spec, for the provers. The tables and conditions that they are stated in are in
Sys2Proof/Safety.lean.
-/
open Sys2Proof Sys2Proof.Machine

/-- Decoding the word of a well-formed instruction gives the instruction back, whatever its operands are. -/
def Obligations.EncodingRoundTrip : Prop :=
  ∀ (i : Instr) (w : IWord), i.wellFormed = true → encode i = some w → decode w = .ok i

/-- A word of the Xebin opcodes that decodes has no other reading: it is the encoding of the instruction it decodes to, which is
well-formed. So no bit of such a word is ignored. -/
def Obligations.XebinWordHasOneReading : Prop :=
  ∀ (i : Instr) (w : IWord), Claim.isXebinWord w → decode w = .ok i → i.wellFormed = true ∧ encode i = some w

/-- Words that the spec prints beside their assembly (spec/15 to spec/18) decode to what they stand for. -/
def Obligations.PrintedWordsDecode : Prop :=
  decode 0x008A23FB = .ok (.acq .gang .excl 20 7) ∧
  decode 0x0920087B = .ok (.mma 2 2 2 0 16) ∧
  decode 0x6046042B = .ok (.vfcvt 0 4 .e4m3 .rne 8) ∧
  decode 0x806024F3 = .ok (.csrAccess .rs false 0x806 9 0) ∧
  decode 0x060E702B = .ok (.vsetvli 0x060 28 0)

/-- A turn of a hart executes the instruction that the fetched word decodes to. A turn that is no hart's performs its event, which takes its
meaning, or changes the state as a request of the host, an eviction, a drain or the passing of time does. -/
def Obligations.StepRunsTheDecodedInstruction : Prop :=
  (
    ∀ (s s1 : State) (h : Nat) (rest : List Turn) (w : IWord),
      s.agenda = .hart h :: rest → Claim.ready (Claim.turnOf s h rest) h → fetch (Claim.turnOf s h rest) = .ok (s1, w) →
      (∀ i, decode w = .ok i → step s = mapNext (stepOver h) (exec i s1)) ∧
      (∀ e, decode w = .error e → step s = mapNext (stepOver h) (exec (.illegalInstruction w) s1)) ∧
      (∀ t, (hartOf t h).stepping = false → stepOver h t = t)) ∧
  (
    ∀ (s : State) (rest : List Turn),
      (∀ i, s.agenda = .event i :: rest → encode i = none → (∀ w, i ≠ .illegalInstruction w) → step s = exec i { s with agenda := rest }) ∧
      (∀ r, s.agenda = .host r :: rest → step s = .next (hostArrive { s with agenda := rest } r)) ∧
      (∀ core line, s.agenda = .evictLine core line :: rest →
        step s = .next (flushLines { s with agenda := rest } core fun l _ => l == line)) ∧
      (∀ h, s.agenda = .drainWc h :: rest → step s = .next (drainWc { s with agenda := rest } h)) ∧
      (∀ us, s.agenda = .tick us :: rest → ∃ t, step s = .next t ∧ t.us = s.us + us ∧ t.agenda = rest ∧ Claim.sameBytes s t))

/-- In M-mode a hart fetches the four bytes at its pc, lowest first, where its instruction cache holds no copy of the line and no byte is
poisoned; a pc that is no multiple of 4 raises cause 0 in any mode. That an M-mode address is physical is the model's (log entry 3). -/
def Obligations.FetchReadsTheWord : Prop :=
  ∀ (s : State),
    ((me s).pc.toNat % 4 ≠ 0 → fetch s = .error (.trap s 0 (me s).pc)) ∧
    ((me s).pc.toNat % 4 = 0 → (me s).priv = .m → (me s).pc.toNat < hbmEnd →
      (coreOf s (myCore s)).icache.find? (iHit (hartCtx s s.cur) ((me s).pc.toNat / 64)) = none →
      (∀ a, (me s).pc.toNat ≤ a → a < (me s).pc.toNat + 4 → poisonedAt s a = false) →
      keyId s 8192 = 0 →
      ∃ w : IWord, fetch s = .ok (s, w) ∧
        ∀ k < 4, BitVec.ofNat 8 (w.toNat / 256 ^ k) = rawByte s ((me s).pc.toNat + k))

/-- The frame of the instructions that act on registers alone: whatever they do, raise or wait for, no byte of memory, of tile memory or
of an SDM changes. -/
def Obligations.RegisterInstructionsLeaveMemory : Prop :=
  ∀ (i : Instr) (s t : State), Claim.registerOnly i = true → exec i s = .next t → Claim.sameBytes s t

/-- The machine right after power-on. What the spec gives no reset value is the model's choice: registers (log entry 1), memory (4), and the
launch queues' registers, whose queues are so disabled (6). -/
def Obligations.ResetState : Prop :=
  (∀ k, keyId State.reset k = 0) ∧ (∀ h, (hartOf State.reset h).run = .idle) ∧ (∀ c, (coreOf State.reset c).gang = none) ∧
  (∀ t n, bitOf (pwinWord State.reset t n 0) 0 = false) ∧ (∀ e, bitOf (hatWord State.reset e 0) 0 = false) ∧
  (∀ q, lqEn State.reset q = false) ∧ (∀ seat, seatState State.reset seat = 0) ∧
  readReg State.reset 0x1000 = 0 ∧ readReg State.reset 0 = 0x524D ∧ readReg State.reset 8 = 0x9100 ∧
  State.reset.io.linkUp = false ∧ State.reset.io.released = false ∧ State.reset.memOk ∧ ∀ pa, rawByte State.reset pa = 0

/-- A write under a key reads back under it, byte by byte, and no other byte reads otherwise under that key. -/
def Obligations.MemoryReadsWhatWasWritten : Prop :=
  ∀ (s : State) (kid pa n v : Nat),
    (∀ k < n, physByte (physWrite s kid pa n v) kid (pa + k) = BitVec.ofNat 8 (v / 256 ^ k)) ∧
    (∀ a, a < pa ∨ pa + n ≤ a → physByte (physWrite s kid pa n v) kid a = physByte s kid a) ∧
    physRead (physWrite s kid pa n v) kid pa n = v % 256 ^ n

/-- The invariant that every step keeps: whatever turn the agenda holds, or the package takes by itself, memory stays in its canonical
form, so that equal memories are equal data. -/
def Obligations.EveryStepKeepsMemoryForm : Prop :=
  ∀ (s t : State), s.memOk → step s = .next t → t.memOk

/-- An invariant of every hart: its pc, `sepc` and `mepc` stay multiples of 4 through every instruction that acts on registers alone,
and through the scalar loads, stores, atomics and fences, traps included. -/
def Obligations.PcStaysAligned : Prop :=
  ∀ (i : Instr) (s t : State), (Claim.registerOnly i = true ∨ Claim.scalarMemory i = true) →
    (∀ h, Claim.pcOk (hartOf s h)) → exec i s = .next t → ∀ h, Claim.pcOk (hartOf t h)

/-- The integer instructions of the base ISA complete in every state, write their result to rd alone, and move on; x0 discards it. After
such a write the register reads as written and every other as before. -/
def Obligations.IntegerOperations : Prop :=
  (∀ s o rd a b, exec (.baseIsaInstruction (.op o rd a b)) s = .next (Claim.wroteX s rd (Claim.regResult o (rdX s a) (rdX s b)))) ∧
  (∀ s o rd a b, exec (.baseIsaInstruction (.opW o rd a b)) s = .next (Claim.wroteX s rd (Claim.regWResult o (rdX s a) (rdX s b)))) ∧
  (∀ s o rd a m, exec (.baseIsaInstruction (.opImm o rd a m)) s =
    .next (Claim.wroteX s rd (Claim.immResult o (rdX s a) (m.signExtend 64)))) ∧
  (∀ s o rd a k, exec (.baseIsaInstruction (.shImm o rd a k)) s = .next (Claim.wroteX s rd (Claim.shiftResult o (rdX s a) k.toNat))) ∧
  (∀ s o rd a k, exec (.baseIsaInstruction (.shImmW o rd a k)) s = .next (Claim.wroteX s rd (Claim.shiftWResult o (rdX s a) k.toNat))) ∧
  (∀ s rd a m, exec (.baseIsaInstruction (.addiw rd a m)) s =
    .next (Claim.wroteX s rd (Claim.lowSigned ((rdX s a + m.signExtend 64).truncate 32)))) ∧
  (∀ s o rd a, ∃ v, Claim.unaryHolds o (rdX s a) v ∧ exec (.baseIsaInstruction (.unary o rd a)) s = .next (Claim.wroteX s rd v)) ∧
  (∀ s rd m, exec (.baseIsaInstruction (.lui rd m)) s =
    .next (Claim.wroteX s rd (Claim.lowSigned (m.zeroExtend 32 <<< 12)))) ∧
  (∀ s rd m, exec (.baseIsaInstruction (.auipc rd m)) s =
    .next (Claim.wroteX s rd ((me s).pc + Claim.lowSigned (m.zeroExtend 32 <<< 12)))) ∧
  (∀ (s : State) (rd r : RegIx) (v : Word),
    rdX (Claim.wroteX s rd v) r = (if r.val = 0 then 0 else if r = rd then v else rdX s r) ∧
    (rd.val = 0 → (me (Claim.wroteX s rd v)).x = (me s).x) ∧ (me (Claim.wroteX s rd v)).pc = (me s).pc + 4 ∧
    rdF (Claim.wroteX s rd v) r = rdF s r ∧ (me (Claim.wroteX s rd v)).fcsr = (me s).fcsr ∧
    (me (Claim.wroteX s rd v)).xc = (me s).xc ∧ (me (Claim.wroteX s rd v)).pr.mstatus = (me s).pr.mstatus ∧
    (me (Claim.wroteX s rd v)).v = (me s).v ∧ (me (Claim.wroteX s rd v)).p = (me s).p ∧
    (∀ h, h ≠ s.cur → hartOf (Claim.wroteX s rd v) h = hartOf s h) ∧ Claim.sameBytes s (Claim.wroteX s rd v))

/-- Jumps link pc + 4 and go to their target, branches go to it where their condition holds and else move on, at a target that is a
multiple of 4; at any other the exception of cause 0 is raised with the target as tval, and nothing is linked. -/
def Obligations.JumpsAndBranches : Prop :=
  (∀ s rd (m : BitVec 20), let t := (me s).pc + (m.zeroExtend 21 <<< 1).signExtend 64
    exec (.baseIsaInstruction (.jal rd m)) s =
      .next (if t.toNat % 4 = 0 then Claim.jumped s rd ((me s).pc + 4) t else Claim.raised s 0 t)) ∧
  (∀ s rd a (m : BitVec 12), let t := (rdX s a + m.signExtend 64) &&& 0xFFFFFFFFFFFFFFFE
    exec (.baseIsaInstruction (.jalr rd a m)) s =
      .next (if t.toNat % 4 = 0 then Claim.jumped s rd ((me s).pc + 4) t else Claim.raised s 0 t)) ∧
  (∀ s o a b (m : BitVec 12), let t := (me s).pc + (m.zeroExtend 13 <<< 1).signExtend 64
    (Claim.branchHolds o (rdX s a) (rdX s b) → exec (.baseIsaInstruction (.branch o a b m)) s =
      .next (if t.toNat % 4 = 0 then Claim.jumped s 0 0 t else Claim.raised s 0 t)) ∧
    (¬ Claim.branchHolds o (rdX s a) (rdX s b) → exec (.baseIsaInstruction (.branch o a b m)) s =
      .next (Claim.jumped s 0 0 ((me s).pc + 4))))

/-- Rounding is correct: a ratio within the range of a format of spec/04 Table 4-1 rounds, in every mode, to the value that the mode's
definition picks among all values of the format, and NX says whether it is another; stochastic rounding gives a neighbour. -/
def Obligations.RoundingPicksTheRightValue : Prop :=
  ∀ (F : Fmt) (f : FSpec) (rm : Rnd) (draw n d : Nat) (neg : Bool) (x top : ℚ), fspec F = some f → draw < 65536 → 0 < n → 0 < d →
    Claim.outQ (.rat neg n d) = some x → Claim.valQ (fdecode f (maxFinite f)) = some top → |x| ≤ top →
    ∃ y, Claim.roundsTo rm (fun z c => c < 2 ^ (1 + f.eb + f.mb) ∧ Claim.valQ (fdecode f c) = some z) x y
        (narrow f rm draw (.rat neg n d)).1 ∧
      ((narrow f rm draw (.rat neg n d)).2 % 2 = 1 ↔ y ≠ x) ∧ (narrow f rm draw (.rat neg n d)).2 / 4 = 0

/-- Sums, products, fused multiply-adds and quotients of finite values are exact before their one rounding, and raise no flag; a
square root, narrowed to a format that holds its range, is in every mode what the mode picks of the true one, and NX says whether the two
differ. -/
def Obligations.ArithmeticIsExact : Prop :=
  ∀ (rm : Rnd) (a b c : FVal) (x y z : ℚ), Claim.valQ a = some x → Claim.valQ b = some y → Claim.valQ c = some z →
    (Claim.outQ (faddV rm a b).1 = some (x + y) ∧ (faddV rm a b).2 = 0) ∧
    (Claim.outQ (fmulV a b).1 = some (x * y) ∧ (fmulV a b).2 = 0) ∧
    (Claim.outQ (ffmaV rm a b c).1 = some (x * y + z) ∧ (ffmaV rm a b c).2 = 0) ∧
    (y ≠ 0 → Claim.outQ (fdivV a b).1 = some (x / y) ∧ (fdivV a b).2 = 0) ∧
    (y = 0 → x ≠ 0 → (fdivV a b).2 = flDZ) ∧
    (0 ≤ x → (fsqrtV a).2 = 0) ∧ (x = 0 → Claim.outQ (fsqrtV a).1 = some 0) ∧
    (∀ (F : Fmt) (f : FSpec) (draw : Nat) (top : ℚ), fspec F = some f → draw < 65536 → 0 < x →
      Claim.valQ (fdecode f (maxFinite f)) = some top → Real.sqrt (x : ℝ) ≤ (top : ℝ) →
      ∃ r : ℚ, Claim.roundsTo rm (fun (v : ℝ) w => w < 2 ^ (1 + f.eb + f.mb) ∧ ∃ q, Claim.valQ (fdecode f w) = some q ∧ v = (q : ℝ))
          (Real.sqrt (x : ℝ)) (r : ℝ) (narrow f rm draw (fsqrtV a).1).1 ∧
        ((narrow f rm draw (fsqrtV a).1).2 % 2 = 1 ↔ (r : ℝ) ≠ Real.sqrt (x : ℝ)) ∧ (narrow f rm draw (fsqrtV a).1).2 / 4 = 0) ∧
    (x < 0 → fsqrtV a = (.nan, flNV))

/-- The F and D instructions of the base ISA complete where FS is not off and their rounding mode is one: the result, rounded once, with
its flags. With FS off, or a rounding field that names no mode, they raise an illegal-instruction
exception: of that, the gating by FS is the model's, log entry 19, and the reserved rounding codes are, log entry 17. -/
def Obligations.FloatOperations : Prop :=
  ∀ (s : State),
    ((me s).pr.mstatus.toNat / 8192 % 4 = 0 → ∀ b, baseIsFp b = true →
      exec (.baseIsaInstruction b) s = .next (Claim.raised s 2 (wordOf (.baseIsaInstruction b)))) ∧
    ((me s).pr.mstatus.toNat / 8192 % 4 ≠ 0 →
      (∀ b rm, Claim.roundedBy b = some rm → Claim.frmMode s rm = none →
        exec (.baseIsaInstruction b) s = .next (Claim.raised s 2 (wordOf (.baseIsaInstruction b)))) ∧
      (∀ rm r, Claim.frmMode s rm = some r →
        (∀ p rd a b c, (
          let va := Claim.operandF s p a
          let vb := Claim.operandF s p b
          let vc := Claim.operandF s p c
          let put (x : FOut × Nat) := Host.Outcome.next (Claim.wroteF s p rd (Claim.roundedF p r x).1 (Claim.roundedF p r x).2)
          exec (.baseIsaInstruction (.farith .add p rd a b rm)) s = put (faddV r va vb) ∧
          exec (.baseIsaInstruction (.farith .sub p rd a b rm)) s = put (faddV r va (fneg vb)) ∧
          exec (.baseIsaInstruction (.farith .mul p rd a b rm)) s = put (fmulV va vb) ∧
          exec (.baseIsaInstruction (.farith .div p rd a b rm)) s = put (fdivV va vb) ∧
          exec (.baseIsaInstruction (.fsqrt p rd a rm)) s = put (fsqrtV va) ∧
          exec (.baseIsaInstruction (.fma .madd p rd a b c rm)) s = put (ffmaV r va vb vc) ∧
          exec (.baseIsaInstruction (.fma .msub p rd a b c rm)) s = put (ffmaV r va vb (fneg vc)) ∧
          exec (.baseIsaInstruction (.fma .nmsub p rd a b c rm)) s = put (ffmaV r (fneg va) vb vc) ∧
          exec (.baseIsaInstruction (.fma .nmadd p rd a b c rm)) s = put (ffmaV r (fneg va) vb (fneg vc)) ∧
          (∀ v, Claim.operandF s (match p with | .s => .d | .d => .s) a = v →
            exec (.baseIsaInstruction (.fcvtFF p rd a rm)) s = put (foutOf v, if v = .nan true then flNV else 0)) ∧
          (∀ t w sg, (t, w, sg) ∈ [(FIntTy.w, 32, true), (.wu, 32, false), (.l, 64, true), (.lu, 64, false)] →
            exec (.baseIsaInstruction (.fcvtToInt t p rd a rm)) s = .next (Claim.wroteXF s rd
              ((BitVec.ofNat w (Claim.intOfF w sg r va).1).signExtend 64) (Claim.intOfF w sg r va).2) ∧
            ∃ x : FOut, Claim.outQ x = some (((if sg then (BitVec.ofNat w (rdX s a).toNat).toInt
              else (BitVec.ofNat w (rdX s a).toNat).toNat : ℤ) : ℚ)) ∧
              exec (.baseIsaInstruction (.fcvtFromInt t p rd a rm)) s = put (x, 0))))) ∧
      (∀ p rd a b, (
        let va := Claim.operandF s p a
        let vb := Claim.operandF s p b
        let sig := if va = .nan true ∨ vb = .nan true then flNV else 0
        let q := if isNaN va || isNaN vb then flNV else 0
        let bit (c : Bool) : Word := if c then 1 else 0
        let k := match p with | .s => 31 | .d => 63
        let canon := match p with | .s => 0x7FC00000 | .d => 0x7FF8000000000000
        let mm (mx : Bool) := Claim.minMaxF mx canon va vb (fBits s p a) (fBits s p b) (fBits s p a / 2 ^ k)
        exec (.baseIsaInstruction (.fcmp .eq p rd a b)) s = .next (Claim.wroteXF s rd (bit (Claim.equalF va vb)) sig) ∧
        exec (.baseIsaInstruction (.fcmp .lt p rd a b)) s = .next (Claim.wroteXF s rd (bit (Claim.lessF va vb)) q) ∧
        exec (.baseIsaInstruction (.fcmp .le p rd a b)) s =
          .next (Claim.wroteXF s rd (bit (Claim.lessF va vb || Claim.equalF va vb)) q) ∧
        exec (.baseIsaInstruction (.fmisc .min p rd a b)) s = .next (Claim.wroteF s p rd (mm false) sig) ∧
        exec (.baseIsaInstruction (.fmisc .max p rd a b)) s = .next (Claim.wroteF s p rd (mm true) sig) ∧
        (∀ o f, (o, f) ∈ [(FMiscOp.sgnj, fun (_ y : Nat) => y), (.sgnjn, fun _ y => 1 - y), (.sgnjx, fun x y => (x + y) % 2)] →
          exec (.baseIsaInstruction (.fmisc o p rd a b)) s = .next (Claim.wroteF s p rd
            (fBits s p a % 2 ^ k + f (fBits s p a / 2 ^ k) (fBits s p b / 2 ^ k) * 2 ^ k) 0)) ∧
        exec (.baseIsaInstruction (.fclass p rd a)) s = .next (Claim.wroteXF s rd (w64 (2 ^ (match p with
          | .s => Claim.classF 8 23 (fBits s p a) | .d => Claim.classF 11 52 (fBits s p a)))) 0) ∧
        exec (.baseIsaInstruction (.fmvToX p rd a)) s =
          .next (Claim.wroteXF s rd (match p with | .s => Claim.lowSigned ((rdF s a).truncate 32) | .d => rdF s a) 0) ∧
        exec (.baseIsaInstruction (.fmvFromX p rd a)) s = .next (Claim.wroteF s p rd (rdX s a).toNat 0))))

/-- Taking an exception outside debug mode: a delegated one below M-mode enters S-mode where `stvec` is not 0, one raised in M-mode
enters M-mode; every other one is taken by the firmware stub in M-mode, which begins to end the hart's gang with that cause. The
registers that programs compute with keep their values. An illegal instruction is taken with cause 2 and its word. An interrupt event
enters the mode of the interrupt that is due, or the stub's where that is S-mode and `stvec` is 0, and without one changes nothing. -/
def Obligations.TrapEntry : Prop :=
  (∀ (s : State) (w : IWord), exec (.illegalInstruction w) s = .next (Claim.raised s 2 (w.zeroExtend 64))) ∧
  (∀ (s : State) (h : Nat),
    (irqFor s h = none → exec (.asyncInterrupt h) s = .next s) ∧
    (∀ cause, irqFor s h = some (cause, true) → ∃ t, exec (.asyncInterrupt h) s = .next t ∧
      Claim.enteredM (hartOf s h) (hartOf t h) (BitVec.ofNat 64 (2 ^ 63 + cause)) 0 (Claim.handlerAt (hartOf s h).pr.mtvec cause true) ∧
      Claim.sameRegs (hartOf s h) (hartOf t h) ∧ Claim.sameBytes s t) ∧
    (∀ cause, irqFor s h = some (cause, false) → ∃ t, exec (.asyncInterrupt h) s = .next t ∧
      Claim.sameRegs (hartOf s h) (hartOf t h) ∧ Claim.sameBytes s t ∧
      ((hartOf s h).pr.stvec ≠ 0 → Claim.enteredS (hartOf s h) (hartOf t h) (BitVec.ofNat 64 (2 ^ 63 + cause)) 0
        (Claim.handlerAt (hartOf s h).pr.stvec cause true)) ∧
      ((hartOf s h).pr.stvec = 0 → Claim.stubTook s t h cause true 0)) ∧
    (∀ cause m, irqFor s h = some (cause, m) →
      (hartOf s h).pr.mip.toNat.testBit cause = true ∧ (hartOf s h).pr.mie.toNat.testBit cause = true ∧
      (hartOf s h).pr.mideleg.toNat.testBit cause = !m)) ∧
  ∀ (s : State) (h cause : Nat) (tval : Word), inDebug (hartOf s h) = false → cause < 64 →
    let a := hartOf s h
    let b := hartOf (takeException s h cause tval) h
    Claim.sameRegs a b ∧ Claim.sameBytes s (takeException s h cause tval) ∧
    (a.priv = .m → Claim.enteredM a b (BitVec.ofNat 64 cause) tval (Claim.handlerAt a.pr.mtvec cause false)) ∧
    (a.priv ≠ .m → a.pr.medeleg.toNat.testBit cause = true → a.pr.stvec ≠ 0 →
      Claim.enteredS a b (BitVec.ofNat 64 cause) tval (Claim.handlerAt a.pr.stvec cause false)) ∧
    (a.priv ≠ .m → ¬ (a.pr.medeleg.toNat.testBit cause = true ∧ a.pr.stvec ≠ 0) →
      Claim.stubTook s (takeException s h cause tval) h cause false tval)

/-- MRET, SRET, WFI, hints, EBREAK and ECALL. That EBREAK halts by the bits of `dcsr` is RISC-V debug's (log entry 46). -/
def Obligations.SystemInstructions : Prop :=
  (∀ s w, exec (.hint w) s = .next (Claim.passed s)) ∧ (∀ s, exec (.baseIsaInstruction .wfi) s = .next (Claim.passed s)) ∧
  (∀ s, (me s).priv ≠ .m → exec (.baseIsaInstruction .mret) s = .next (Claim.raised s 2 0x30200073)) ∧
  (∀ s, (me s).priv = .u ∨ (me s).priv = .s ∧ (me s).pr.mstatus.toNat.testBit 22 = true →
    exec (.baseIsaInstruction .sret) s = .next (Claim.raised s 2 0x10200073)) ∧
  (∀ s, (me s).priv = .m → ∃ t, exec (.baseIsaInstruction .mret) s = .next t ∧ (me t).pc = (me s).pr.mepc ∧
    (me t).priv = (match (me s).pr.mstatus.toNat / 2048 % 4 with | 0 => .u | 1 => .s | _ => .m) ∧
    (me t).pr.mstatus.toNat.testBit 3 = (me s).pr.mstatus.toNat.testBit 7 ∧ (me t).pr.mstatus.toNat.testBit 7 = true ∧
    (me t).pr.mstatus.toNat / 2048 % 4 = 0 ∧ ((me t).priv ≠ .m → (me t).pr.mstatus.toNat.testBit 17 = false) ∧
    Claim.agreeBut (me t).pr.mstatus (me s).pr.mstatus [3, 7, 11, 12, 17] ∧ Claim.sameRegs (me s) (me t) ∧ Claim.sameBytes s t) ∧
  (∀ s, (me s).priv = .m ∨ (me s).priv = .s ∧ (me s).pr.mstatus.toNat.testBit 22 = false →
    ∃ t, exec (.baseIsaInstruction .sret) s = .next t ∧ (me t).pc = (me s).pr.sepc ∧
    (me t).priv = (if (me s).pr.mstatus.toNat.testBit 8 then .s else .u) ∧
    (me t).pr.mstatus.toNat.testBit 1 = (me s).pr.mstatus.toNat.testBit 5 ∧ (me t).pr.mstatus.toNat.testBit 5 = true ∧
    (me t).pr.mstatus.toNat.testBit 8 = false ∧ (me t).pr.mstatus.toNat.testBit 17 = false ∧
    Claim.agreeBut (me t).pr.mstatus (me s).pr.mstatus [1, 5, 8, 17] ∧ Claim.sameRegs (me s) (me t) ∧ Claim.sameBytes s t) ∧
  (∀ s, inDebug (me s) = false → ebreakDebug (me s) = false → exec (.baseIsaInstruction .ebreak) s = .next (Claim.raised s 3 (me s).pc)) ∧
  (∀ s, inDebug (me s) = false → ebreakDebug (me s) = true → ∃ t, exec (.baseIsaInstruction .ebreak) s = .next t ∧
    inDebug (me t) = true ∧ (me t).pr.dpc = (me s).pc ∧ (me t).pr.dcsr.toNat / 64 % 8 = 1 ∧ Claim.sameRegs (me s) (me t)) ∧
  (∀ s, (me s).priv = .u → rdX s 17 = 0 → exec .ecall s =
    .next (updMe s fun h => retire { h with run := .ended, pc := h.pc + 4 })) ∧
  (∀ s, (me s).priv = .u → rdX s 17 ≠ 0 → exec .ecall s = .next (Claim.raised s 8 0)) ∧
  (∀ s, (me s).priv = .s → exec .ecall s = .next (Claim.raised s 9 0)) ∧
  (∀ s, (me s).priv = .m → exec .ecall s = .next (Claim.raised s 11 0))

/-- CSR instructions: what they read and write, and their exceptions; an access to `xvflags` or `xsrseed` waits for the hart's matrix
instruction (that every other CSR is read at once is log entry 20); and what M-mode writes to a CSR that keeps its bits reads back, masked,
while no other of these CSRs changes. U-mode reads `xvl` and the identity of its hart as the spec gives them. -/
def Obligations.CsrAccess : Prop :=
  (
    ∀ (s : State) (op : CsrOp) (imm : Bool) (csr : BitVec 12) (rd src : RegIx),
      let i : Instr := .csrAccess op imm csr rd src
      let wr := op = .rw ∨ src.val ≠ 0
      let x : Word := if imm then BitVec.ofNat 64 src.val else rdX s src
      let new (old : Word) : Word := match op with | .rw => x | .rs => old ||| x | .rc => old &&& ~~~x
      let free := ¬ ((csr = 0x803 ∨ csr = 0x809) ∧ engineBlocks s s.cur = true)
      (free → ¬ (wr ∧ (csr.toNat / 1024 = 3 ∨ csr = 0x800 ∨ csr = 0x801)) → ∀ s1 old, csrRead s csr.toNat = some (s1, old) →
        (wr → exec i s = .next (Claim.wroteX (csrWrite s1 csr.toNat (new old)) rd old)) ∧
        (¬ wr → exec i s = .next (Claim.wroteX s1 rd old))) ∧
      (¬ free → exec i s = .next (Claim.waits s i)) ∧
      (wr ∧ (csr.toNat / 1024 = 3 ∨ csr = 0x800 ∨ csr = 0x801) → exec i s = .next (Claim.raised s 2 (wordOf i))) ∧
      (free → privCode (me s).priv < csr.toNat / 256 % 4 → exec i s = .next (Claim.raised s 2 (wordOf i))) ∧
      (free → csrRead s csr.toNat = none → exec i s = .next (Claim.raised s 2 (wordOf i)))) ∧
  (
    (∀ (s : State) (n : Nat) (mask v : Word), (me s).priv = .m → (n, mask) ∈ Claim.csrKeeps →
      (∃ u, csrRead (csrWrite s n v) n = some (u, v &&& mask)) ∧
      ∀ k m, (k, m) ∈ Claim.csrKeeps → k ≠ n → (csrRead (csrWrite s n v) k).map (·.2) = (csrRead s k).map (·.2)) ∧
    (∀ (s : State) (v : Word), (csrRead (csrWrite s 0x802 v) 0x802).map (·.2) =
      some (if v.toNat % 8 ≤ 5 then v &&& 7 else (me s).xc.rm.zeroExtend 64)) ∧
    (∀ (s : State), csrRead s 0x800 = some (s, (me s).xc.vl) ∧ csrRead s 0x801 = some (s, (me s).xc.vtype) ∧
      csrRead s 0xCC1 = some (s, BitVec.ofNat 64
        ((coreOf s (s.cur / 8)).cidx * (coreOf s (s.cur / 8)).part + s.cur % 8)) ∧
      csrRead s 0xCC3 = some (s, BitVec.ofNat 64 (32 / (coreOf s (s.cur / 8)).part))))

/-- A scalar load completes wherever its access is aligned and finds a location that nothing holds back: the register takes the n bytes
as the hart sees them, extended, and nothing else that a program sees changes; from the register windows, which M-mode reaches, it takes
the register's bytes. A misaligned one raises cause 4, and one whose access
faults raises cause 5 or parks. -/
def Obligations.ScalarLoads : Prop :=
  ∀ (s : State) (k : LoadKind) (rd a : RegIx) (m : BitVec 12),
    let n := (Claim.loadKind k).1
    let va := (rdX s a + m.signExtend 64)
    let i : Instr := .scalarLoad k rd a m
    (Claim.loadsF k → Claim.fpOff s → exec i s = .next (Claim.raised s 2 (wordOf i))) ∧
    (¬ (Claim.loadsF k ∧ Claim.fpOff s) →
      (va.toNat % n ≠ 0 → exec i s = .next (Claim.raised s 4 va)) ∧
      (va.toNat % n = 0 → ∀ s1, translate s (accessCtx s .load) .load .plain va.toNat = (s1, .error .access) →
        exec i s = .next (Claim.raised s1 5 va)) ∧
      (va.toNat % n = 0 → ∀ s1 c, translate s (accessCtx s .load) .load .plain va.toNat = (s1, .error (.page c)) →
        ∃ t, exec i s = .next t ∧ (me t).park.isSome = true ∧ (me t).pc = (me s1).pc ∧ (me t).x = (me s1).x) ∧
      (∀ s1 l, Claim.reaches s s1 .load .plain va.toNat n l → Claim.sound s1 n l → ∃ t v, exec i s = .next t ∧ (me t).pc = (me s).pc + 4 ∧
        (Claim.loadsF k → rdF t rd = v ∧ (∀ r, r ≠ rd → rdF t r = rdF s r) ∧ (me t).x = (me s).x) ∧
        (¬ Claim.loadsF k → (∀ r, rdX t r = if r.val = 0 then 0 else if r = rd then v else rdX s r) ∧ (me t).f = (me s).f) ∧
        Claim.sameOther (me s) (me t) ∧
        (∀ off, l = .mmio off → inDirtyWindow off = false → t.mem = s1.mem ∧
          ∀ j < n, BitVec.ofNat 8 (v.toNat >>> (8 * j)) = Claim.regByte s1 off j) ∧
        (Claim.lineSettled s1 l → Claim.weak n l →
          (∀ j < n, BitVec.ofNat 8 (v.toNat >>> (8 * j)) = Claim.seenByte s1 l j) ∧
          (∀ j, 8 * n ≤ j → j < 64 → v.toNat.testBit j =
            (k = .flw || (Claim.loadKind k).2 && v.toNat.testBit (8 * n - 1))) ∧
          t.mem = s1.mem ∧ ∀ c, (coreOf t c).tile = (coreOf s1 c).tile ∧ (coreOf t c).sdm = (coreOf s1 c).sdm)))

/-- A scalar store completes wherever its access is aligned and finds a location that nothing holds back: the hart then sees the n low
bytes of its register there, and every other byte of storage is as before; a store to the register windows is a write of the register,
its other bytes as they read, which takes effect in its own turn. A misaligned one raises cause 6, and one whose access faults
raises cause 7 or parks. -/
def Obligations.ScalarStores : Prop :=
  ∀ (s : State) (k : StoreKind) (b a : RegIx) (m : BitVec 12),
    let n := Claim.storeKind k
    let va := (rdX s a + m.signExtend 64)
    let i : Instr := .scalarStore k b a m
    let fp := k = .fsw ∨ k = .fsd
    let v := if fp then rdF s b else rdX s b
    (fp → Claim.fpOff s → exec i s = .next (Claim.raised s 2 (wordOf i))) ∧
    (¬ (fp ∧ Claim.fpOff s) →
      (va.toNat % n ≠ 0 → exec i s = .next (Claim.raised s 6 va)) ∧
      (va.toNat % n = 0 → ∀ s1, translate s (accessCtx s .store) .store .plain va.toNat = (s1, .error .access) →
        exec i s = .next (Claim.raised s1 7 va)) ∧
      (va.toNat % n = 0 → ∀ s1 c, translate s (accessCtx s .store) .store .plain va.toNat = (s1, .error (.page c)) →
        ∃ t, exec i s = .next t ∧ (me t).park.isSome = true ∧ (me t).pc = (me s1).pc ∧ (me t).x = (me s1).x) ∧
      (∀ s1 l, Claim.reaches s s1 .store .plain va.toNat n l → ∃ t, exec i s = .next t ∧ (me t).pc = (me s).pc + 4 ∧
        (me t).x = (me s).x ∧ (me t).f = (me s).f ∧ Claim.sameOther (me s) (me t) ∧
        (∀ off, l = .mmio off → inDirtyWindow off = false → t.mem = s1.mem ∧ ∃ w : Nat, t.io.devQ = [(off / 8 * 8, w)] ∧
          ∀ j < 8, BitVec.ofNat 8 (w >>> (8 * j)) = if off % 8 ≤ j ∧ j < off % 8 + n then BitVec.ofNat 8 (v.toNat >>> (8 * (j - off % 8)))
            else BitVec.ofNat 8 ((readReg s1 (off / 8 * 8)).toNat >>> (8 * j))) ∧
        (Claim.lineSettled s1 l → Claim.weak n l → bitOf (me s).xc.dirty.toNat 0 = false →
          ∀ j < n, Claim.seenByte t l j = BitVec.ofNat 8 (v.toNat >>> (8 * j))) ∧
        (Claim.lineSettled s1 l → Claim.weak n l → Claim.storeFrame s1 t l n)))

/-- The A extension: an AMO reads the location at its sole writer into rd, sign-extended, and writes the operation's result; LR reads and
reserves the 64-byte granule; SC writes and gives 0 while the reservation stands, else gives 1 and writes nothing, and ends the
reservation either way. Nothing else that a program sees changes, but for what the aq and rl bits order. Misaligned addresses raise 6 and 4. The reservation granule of a translated location is `granOf`. -/
def Obligations.Atomics : Prop :=
  ∀ (s : State) (dbl aq rl : Bool) (rd a b : RegIx),
    let n := if dbl then 8 else 4
    let va := (rdX s a).toNat
    (va % n ≠ 0 → (∀ o, exec (.scalarAmo o dbl aq rl rd a b) s = .next (Claim.raised s 6 (rdX s a))) ∧
      exec (.lr dbl aq rl rd a) s = .next (Claim.raised s 4 (rdX s a)) ∧
      exec (.sc dbl aq rl rd a b) s = .next (Claim.raised s 6 (rdX s a))) ∧
    (∀ s1 s2 l, Claim.reaches s s1 .store .atomic va n l → Claim.weak n l → amoRelease s1 rl va = .ok s2 →
      let m := homeRead (flushLoc s2 (myCore s) l) l n
      (Claim.sound s1 n l → ∀ o, ∃ t, exec (.scalarAmo o dbl aq rl rd a b) s = .next t ∧ (me t).pc = (me s).pc + 4 ∧
        (∀ r, rdX t r = if r.val = 0 then 0 else if r = rd then (BitVec.ofNat (8 * n) m).signExtend 64 else rdX s r) ∧
        Claim.atomicFrame s t ∧ (aq = false → Claim.homeFrame (flushLoc s2 (myCore s) l) t l n) ∧
        (aq = false → bitOf (me s).xc.dirty.toNat 0 = false → homeRead t l n =
          (Claim.amoResult o (BitVec.ofNat (8 * n) m) (BitVec.ofNat (8 * n) (rdX s b).toNat)).toNat)) ∧
      ((me (flushLoc s2 (myCore s) l)).resv = some (granOf l) → ∃ t, exec (.sc dbl aq rl rd a b) s = .next t ∧
        (me t).pc = (me s).pc + 4 ∧ (me t).resv = none ∧ (∀ r, rdX t r = if r.val = 0 then 0 else if r = rd then 0 else rdX s r) ∧
        Claim.atomicFrame s t ∧ (aq = false → Claim.homeFrame (flushLoc s2 (myCore s) l) t l n) ∧
        (aq = false → bitOf (me s).xc.dirty.toNat 0 = false → homeRead t l n = (rdX s b).toNat % 2 ^ (8 * n))) ∧
      ((me (flushLoc s2 (myCore s) l)).resv ≠ some (granOf l) →
        exec (.sc dbl aq rl rd a b) s = .next (updMe (flushLoc s2 (myCore s) l) fun h =>
          retire { hartSetX h rd 1 with resv := none, pc := h.pc + 4 }))) ∧
    (∀ s1 s2 l, Claim.reaches s s1 .load .atomic va n l → Claim.weak n l → Claim.sound s1 n l → amoRelease s1 rl va = .ok s2 →
      ∃ t, exec (.lr dbl aq rl rd a) s = .next t ∧ (me t).pc = (me s).pc + 4 ∧ (me t).resv = some (granOf l) ∧
        Claim.atomicFrame s t ∧ (aq = false → t.mem = (flushLoc s2 (myCore s) l).mem) ∧
        (∀ r, rdX t r = if r.val = 0 then 0 else if r = rd then
          (BitVec.ofNat (8 * n) (homeRead (flushLoc s2 (myCore s) l) l n)).signExtend 64 else rdX s r))

/-- Translation keeps the offset in a page, and the translations that it holds start on page boundaries, if they did before. A window of
the own core, of its SDM, or of a core of its gang reaches that memory alone, is not fetched from, and every address that belongs to none
and is not global faults. -/
def Obligations.TranslationPlaces : Prop :=
  (∀ (s s1 : State) (c : ACtx) (k : AKind) (u : Use) (va : Nat) (r : Except TrFail Loc), Claim.pagesAligned s →
    translate s c k u va = (s1, r) → Claim.pagesAligned s1 ∧ ∀ pa mt key, r = .ok (.phys pa mt key) → pa % 4096 = va % 4096) ∧
  (∀ (s : State) (c : ACtx) (k : AKind) (u : Use) (va : Nat),
    (k ≠ .fetch → u ≠ .bank → u ≠ .sync →
      (0x0FFFF00000000000 ≤ va → va < 0x0FFFF00000100000 → translate s c k u va = (s, .ok (.tile c.core (va - 0x0FFFF00000000000)))) ∧
      (0x0FFFF00000100000 ≤ va → va < 0x0FFFF00000110000 → translate s c k u va = (s, .ok (.sdm c.core (va - 0x0FFFF00000100000)))) ∧
      (∀ seat i o, (coreOf s c.core).gang = some seat → i < (gangOf s seat).h * (gangOf s seat).w → o < 0x100000 → i < 128 →
        va = 0x0FFFF10000000000 + 0x100000 * i + o → translate s c k u va = (s, .ok (.tile
          (24 * ((gangOf s seat).row0 + i / (gangOf s seat).w) + ((gangOf s seat).col0 + i % (gangOf s seat).w)) o)))) ∧
    (0x0FFFF00000000000 ≤ va → k = .fetch ∨ u = .bank ∨ u = .sync → translate s c k u va = (s, .error .access)) ∧
    (2 ^ 59 ≤ va → va < 0x0FFFF00000000000 ∨ 0x0FFFF00000110000 ≤ va ∧ va < 0x0FFFF10000000000 ∨ 0x0FFFF10008000000 ≤ va →
      translate s c k u va = (s, .error .access)))

/-- A translation that succeeds below M-mode used a leaf that the core's micro-TLB holds afterwards for the address, with its A bit set,
and its D bit for a store: it gives the place, the memory type and the key slot, and it passed the checks of permission, of the U bit by
mode with SUM and MXR, of the memory type by use, of the physical range, of the layout bit, and of the key slot. With nothing held
before, the leaf is what memory holds at its entry's address, and a partition window of the tenant with the leaf's key contains the frame
and allows the access. -/
def Obligations.TranslationChecksTheLeaf : Prop :=
  ∀ (s s1 : State) (c : ACtx) (k : AKind) (u : Use) (va pa mt key : Nat), c.priv ≠ .m →
    translate s c k u va = (s1, .ok (.phys pa mt key)) → ∃ e, e ∈ (coreOf s1 c.core).utlb ∧
      let p := e.pte.toNat
      (e.asid = c.asid ∧ e.tid = c.tid ∧ e.va ≤ va ∧ va < e.va + e.size) ∧
      pa = p / 2 ^ 10 % 2 ^ 40 * 4096 + (va - e.va) ∧ p.testBit 5 = true ∧ (k = .store → p.testBit 6 = true) ∧
      (k = .load → p.testBit 1 = true ∨ p.testBit 3 = true ∧ c.mxr = true) ∧ (k = .store → p.testBit 2 = true) ∧
      (k = .fetch → p.testBit 3 = true ∧ mt = 0) ∧ (c.priv = .u → p.testBit 4 = true) ∧
      (c.priv = .s → p.testBit 4 = true → c.sum = true ∧ k ≠ .fetch) ∧ mt = p / 128 % 4 ∧ key = p / 2 ^ 51 % 2 ^ 13 ∧
      (u = .atomic ∨ u = .sync ∨ u = .bank → mt = 0) ∧ (u = .engine ∨ u = .copy → mt ≤ 1) ∧
      (pa < hbmEnd → p.testBit 9 = s.io.layout.toNat.testBit (pa / 0xC0000000)) ∧
      (hbmEnd ≤ pa → hostBase ≤ pa ∧ pa < mmioBase ∧ p.testBit 9 = (p.testBit 9 && decide (peerBase ≤ pa)) ∧
        (pa < peerBase → s.io.linkUp = true) ∧ (peerBase ≤ pa → u = .copy)) ∧ aget 0 s.io.keys key ≠ 0 ∧
      ((∀ e, e ∉ (coreOf s c.core).utlb) → (∀ d k l, (k, l) ∈ (dieOf s d).slices → l = []) →
        Claim.windowPasses s c.tid (pa / 4096) key (decide (k = .store)) ∧
        ∃ w, winSupply s c.tid (e.pteAddr / 4096) false = some w ∧ physRead s1 (keyId s w) e.pteAddr 8 = p)

/-- TLBIR records an invalidation and goes on; TLBSYNC completes when the hart has none outstanding, and waits before; SFENCE.VMA does
both; in U-mode all are illegal. When no access under way uses what it removes, an invalidation completes: nothing of the range is held. -/
def Obligations.TranslationInvalidation : Prop :=
  (∀ (s : State) (a b d : RegIx), (me s).priv ≠ .u → (me s).inval.length < 8 →
    exec (.tlbir b a d) s = .next (updMe s fun h => retire { h with
      pc := h.pc + 4, inval := h.inval ++ [((rdX s d).toNat % 65536, Claim.namedRange (rdX s a).toNat (rdX s b).toNat)] })) ∧
  (∀ (s : State) (a b d : RegIx), (me s).priv ≠ .u → 8 ≤ (me s).inval.length →
    exec (.tlbir b a d) s = .next (Claim.waits s (.tlbir b a d))) ∧
  (∀ (s : State), (me s).priv ≠ .u → (me s).inval = [] → exec .tlbsync s = .next (Claim.passed s)) ∧
  (∀ (s : State), (me s).priv ≠ .u → (me s).inval ≠ [] → exec .tlbsync s = .next (Claim.waits s .tlbsync)) ∧
  (∀ (s : State) (a b : RegIx), (me s).priv = .m ∨ (me s).priv = .s ∧ (me s).pr.mstatus.toNat.testBit 20 = false →
    ((me s).wait = some .tlbsync → (me s).inval = [] → exec (.sfenceVma a b) s = .next (Claim.passed s)) ∧
    ((me s).wait = some .tlbsync → (me s).inval ≠ [] → exec (.sfenceVma a b) s = .next (Claim.waits s .tlbsync)) ∧
    ((me s).wait ≠ some .tlbsync → (me s).inval.length < 8 → exec (.sfenceVma a b) s = .next (updMe s fun h => { h with
      wait := some .tlbsync
      inval := h.inval ++ [(h.xc.asid.toNat % 65536, if a.val = 0 then (0, 2 ^ 59)
        else Claim.namedRange (rdX s a).toNat (rdX s b).toNat)] }))) ∧
  (∀ (s : State) (a b d : RegIx), (me s).priv = .u →
    exec (.tlbir b a d) s = .next (Claim.raised s 2 (wordOf (.tlbir b a d))) ∧
    exec .tlbsync s = .next (Claim.raised s 2 (wordOf .tlbsync)) ∧
    exec (.sfenceVma a b) s = .next (Claim.raised s 2 (wordOf (.sfenceVma a b)))) ∧
  (∀ (s : State) (a b : RegIx), (me s).priv = .s → (me s).pr.mstatus.toNat.testBit 20 = true →
    exec (.sfenceVma a b) s = .next (Claim.raised s 2 (wordOf (.sfenceVma a b)))) ∧
  (∀ (s : State) (h asid lo hi : Nat) (r : List (Nat × Nat × Nat)), (hartOf s h).inval = (asid, lo, hi) :: r →
    noInFlight s asid (hartCtx s h).tid lo hi = true → ∃ t, exec (.invalidationComplete h) s = .next t ∧
      (hartOf t h).inval = r ∧ Claim.rangeGone t asid (hartCtx s h).tid lo hi) ∧
  (∀ (s : State) (h : Nat), (hartOf s h).inval = [] → exec (.invalidationComplete h) s = .next s)

/-- ACQ at an object that it reaches, while the hart has no request waiting: where its mode is granted the home agent writes MODE and SHR,
the hart takes RSN, and the core drops its lines of the object's regions; `.try` that is not granted writes all ones and nothing else; the
other modes then queue. A word that no operation leaves raises cause 29, a misaligned address cause 6. The home agent serves waiting
requests in their order of arrival; one whose key slot has been emptied takes cause 7. REL, once its release is performed: an exclusive holder frees the object and advances RSN, a shared
holder steps SHR down; an object that is not held, or broken, raises cause 29. A waiting request is then served. -/
def Obligations.AcquireAndRelease : Prop :=
  (
    (∀ (s : State) (sc : Scope) (m : AcqMode) (a d : RegIx), Claim.objScoped sc → acqWaits s = false →
      ((rdX s a).toNat % 16 ≠ 0 → exec (.acq sc m a d) s = .next (Claim.raised s 6 (rdX s a))) ∧
      ∀ s2 l pa key, Claim.reachesObj s s2 (rdX s a).toNat l → l = .phys pa 0 key →
        let w := homeRead s2 l 8
        let rsn := homeRead s2 (locAdd l 8) 8
        let sh := decide (m = .shared)
        let ahead := ∃ q ∈ s2.acqs, q.obj = pa
        (Claim.objBroken w → exec (.acq sc m a d) s = .next (Claim.raised s2 29 (rdX s a))) ∧
        (¬ Claim.objBroken w →
          (∀ w', Claim.grants sh w w' → m = .try ∨ ¬ ahead → ∃ t, exec (.acq sc m a d) s = .next t ∧
            Claim.wrote s t d (BitVec.ofNat 64 rsn) ∧
            t.mem = (objAcquire (homeWrite s2 (me s).xc.dirty l 8 w') s.cur (rdX s a).toNat).mem ∧
            (bitOf (me s).xc.dirty.toNat 0 = false → pa % 16 = 0 → homeRead (homeWrite s2 (me s).xc.dirty l 8 w') l 8 = w') ∧
            ∀ k c, (k, c) ∈ (coreOf t (myCore s)).dcache → ∀ b ∈ bindings (homeWrite s2 (me s).xc.dirty l 8 w') (hartCtx s s.cur),
              b.obj = (rdX s a).toNat → c.va + 64 ≤ b.base ∨ b.base + b.len ≤ c.va) ∧
          (m = .try → (∀ w', ¬ Claim.grants false w w') →
            exec (.acq sc m a d) s = .next (Claim.wroteX s2 d 0xFFFFFFFFFFFFFFFF)) ∧
          (m ≠ .try → ahead ∨ (∀ w', ¬ Claim.grants sh w w') → exec (.acq sc m a d) s =
            .next (Claim.waits { s2 with acqs := s2.acqs ++ [⟨s.cur, pa, key, (rdX s a).toNat, sh⟩] } (.acq sc m a d))))) ∧
    ∀ (s : State) (obj : Nat),
      (∀ q a b c d, s.acqs = [q] → q.obj = obj → (hartOf s q.hart).wait = some (.acq a b c d) →
        let l : Loc := .phys obj 0 q.key
        (q.key < 8192 → aget 0 s.io.keys q.key = 0 →
          exec (.syncObjectGrant obj) s = .next (takeException (withdrawAcq s q.hart) q.hart 7 (BitVec.ofNat 64 q.va))) ∧
        (8192 ≤ q.key ∨ aget 0 s.io.keys q.key ≠ 0 → ∀ w', Claim.grants q.shared (homeRead s l 8) w' → ¬ Claim.objBroken (homeRead s l 8) →
        ∃ t, exec (.syncObjectGrant obj) s = .next t ∧ t.acqs = [] ∧ (hartOf t q.hart).pc = (hartOf s q.hart).pc + 4 ∧
          (hartOf t q.hart).wait = none ∧
          hartX (hartOf t q.hart) d = (if d.val = 0 then 0 else BitVec.ofNat 64 (homeRead s (locAdd l 8) 8)) ∧
          t.mem = (objAcquire (homeWrite s (hartOf s q.hart).xc.dirty l 8 w') q.hart q.va).mem)) ∧
      (∀ q, s.acqs.find? (fun r => r.obj == obj) = some q → 8192 ≤ q.key ∨ aget 0 s.io.keys q.key ≠ 0 →
        Claim.objBroken (homeRead s (.phys obj 0 q.key) 8) ∨
          (∀ w', ¬ Claim.grants q.shared (homeRead s (.phys obj 0 q.key) 8) w') → exec (.syncObjectGrant obj) s = .next s) ∧
      ((∀ q ∈ s.acqs, q.obj ≠ obj) → exec (.syncObjectGrant obj) s = .next s)) ∧
  (
    ∀ (s : State) (sc : Scope) (a : RegIx), Claim.objScoped sc → acqWaits s = false →
      ((rdX s a).toNat % 16 ≠ 0 → exec (.rel sc a) s = .next (Claim.raised s 6 (rdX s a))) ∧
      ∀ s1 s2 l pa key, Claim.reaches s s1 .store .sync (rdX s a).toNat 16 l → l = .phys pa 0 key →
        releaseCover s1 s.cur (meets (objBindings (bindings s1 (hartCtx s s.cur)) (rdX s a).toNat)) true true = .ok s2 →
        let s3 := flushLoc s2 (myCore s) l
        locPoisoned s3 l 16 = false →
        let w := homeRead s3 l 8
        let rsn := homeRead s3 (locAdd l 8) 8
        (Claim.objBroken w ∨ Claim.modeOf w = 0 → exec (.rel sc a) s = .next (Claim.raised s3 29 (rdX s a))) ∧
        (¬ Claim.objBroken w → Claim.modeOf w ≠ 0 →
          let v := if Claim.modeOf w = 1 then Claim.objWord w 0 (Claim.shrOf w) + (rsn + 1) % 2 ^ 64 * 2 ^ 64
            else Claim.objWord w (if Claim.shrOf w = 1 then 0 else 2) (Claim.shrOf w - 1) + rsn * 2 ^ 64
          let u := homeWrite s3 (me s).xc.dirty l 16 v
          ∃ t, exec (.rel sc a) s = .next t ∧ (me t).pc = (me s).pc + 4 ∧
            ((∀ q ∈ u.acqs, q.obj ≠ pa) → t = Claim.passed u)))

/-- BINDR and UNBINDR: a region and its object are checked (the order of the checks is log entry 26), then entered in the first free
entry of the context's table, whose writes are tracked (log entry 48); a full table raises cause 7. Outside a context BINDR has no table
and completes (log entry 47). UNBINDR flushes the core's lines of the region and clears its entry. -/
def Obligations.Bindings : Prop :=
  (∀ (s : State) (b a d : RegIx),
    let base := (rdX s a).toNat
    let len := (rdX s b).toNat
    let obj := (rdX s d).toNat
    let c := hartCtx s s.cur
    (base % 256 ≠ 0 ∨ len % 256 ≠ 0 ∨ len = 0 → exec (.bindr b a d) s = .next (Claim.raised s 6 (rdX s a))) ∧
    (base % 256 = 0 → len % 256 = 0 → len ≠ 0 → (2 ^ 59 < base + len ∨ ∃ x ∈ bindings s c, base < x.base + x.len ∧ x.base < base + len) →
      exec (.bindr b a d) s = .next (Claim.raised s 7 (rdX s a))) ∧
    (base % 256 = 0 → len % 256 = 0 → len ≠ 0 → (∀ n < 4096, ∃ x ∈ bindings s c, x.entry = n) →
      exec (.bindr b a d) s = .next (Claim.raised s 7 (rdX s a))) ∧
    (base % 256 = 0 → len % 256 = 0 → len ≠ 0 → base + len ≤ 2 ^ 59 →
      (∀ x ∈ bindings s c, base + len ≤ x.base ∨ x.base + x.len ≤ base) → (∃ n < 4096, ∀ x ∈ bindings s c, x.entry ≠ n) →
      (obj % 16 ≠ 0 → exec (.bindr b a d) s = .next (Claim.raised s 6 (rdX s a))) ∧
      (obj % 16 = 0 → 2 ^ 59 ≤ obj → exec (.bindr b a d) s = .next (Claim.raised s 7 (rdX s a)))) ∧
    (base % 256 = 0 → len % 256 = 0 → len ≠ 0 → base + len ≤ 2 ^ 59 → obj % 16 = 0 → obj < 2 ^ 59 → c.ctxbase ≠ 0 →
      (∀ x ∈ bindings s c, base + len ≤ x.base ∨ x.base + x.len ≤ base) → ∀ n < 4096, (∀ x ∈ bindings s c, x.entry ≠ n) →
      (∀ m < n, ∃ x ∈ bindings s c, x.entry = m) →
      exec (.bindr b a d) s = .next (Claim.passed (markDirty
        (areaWrite s c.tid (c.ctxbase + 0x18B0000 + 32 * n) 32 (1 + base + len * 2 ^ 64 + obj * 2 ^ 128)) c.dirty
        (c.ctxbase + 0x18B0000 + 32 * n)))) ∧
    (base % 256 = 0 → len % 256 = 0 → len ≠ 0 → base + len ≤ 2 ^ 59 → obj % 16 = 0 → obj < 2 ^ 59 → c.ctxbase = 0 →
      exec (.bindr b a d) s = .next (Claim.passed s))) ∧
  (∀ (s : State) (a : RegIx),
    let c := hartCtx s s.cur
    ((∀ x ∈ bindings s c, x.base ≠ (rdX s a).toNat) → exec (.unbindr a) s = .next (Claim.raised s 7 (rdX s a))) ∧
    (∀ x, (bindings s c).find? (fun y => y.base == (rdX s a).toNat) = some x →
      let s1 := flushLines s (myCore s) fun _ l => decide (l.va < x.base + x.len) && decide (x.base < l.va + 64)
      exec (.unbindr a) s = .next (Claim.passed
        (markDirty (areaWrite s1 c.tid (c.ctxbase + 0x18B0000 + 32 * x.entry) 32 0) c.dirty (c.ctxbase + 0x18B0000 + 32 * x.entry)))))

/-- FENCEX and BFENCE: they wait for what their kind orders and complete once it is done; BFENCE performs the hart's buffered writes; a
pending bank error is raised by BFENCE
with cause 51 and cleared; a kind with a scope that it does not take is illegal.
The fences. FENCE with O or W before it waits for the hart's reductions and matrix work and performs its buffered writes and dirty
lines; with I or R after it the core drops clean lines of unbound addresses; it orders no transfer. FENCE.I performs them and empties
the core's instruction cache. -/
def Obligations.Fences : Prop :=
  (
    (∀ (s : State) (sc : Scope) (k : FenceKind), (k = .eng ∧ sc ≠ .hart ∨ (k = .acq ∨ k = .rel) ∧ sc = .bank) →
      exec (.fencex sc k) s = .next (Claim.raised s 2 (wordOf (.fencex sc k)))) ∧
    (∀ (s : State), (hartTransfers s s.cur = true → exec (.fencex .hart .eng) s = .next (Claim.waits s (.fencex .hart .eng))) ∧
      (hartTransfers s s.cur = false → exec (.fencex .hart .eng) s = .next (Claim.passed s))) ∧
    (∀ (s : State) (sc : Scope), sc ≠ .bank → ∃ t, exec (.fencex sc .acq) s = .next t ∧ (me t).pc = (me s).pc + 4 ∧ (me t).x = (me s).x ∧
      t.mem = s.mem ∧ (sc = .hart ∨ sc = .core → t = Claim.passed s) ∧
      (sc ≠ .hart → sc ≠ .core → bindings s (hartCtx s s.cur) = [] → ∀ d ∈ (coreOf t (myCore s)).dcache, d.2.dirty ≠ 0)) ∧
    (∀ (s : State) (sc : Scope), sc ≠ .bank →
      let cov := unboundCover (bindings s (hartCtx s s.cur))
      let busy := transferBlocks s s.cur cov || redBlocks s s.cur cov || engineBlocks s s.cur
      (busy = true → exec (.fencex sc .rel) s = .next (Claim.waits s (.fencex sc .rel))) ∧
      (busy = false → exec (.fencex sc .rel) s = .next (Claim.passed (if sc = .hart ∨ sc = .core then drainWc s s.cur
        else cleanLines (drainWc s s.cur) (myCore s) fun _ l => cov l.va (l.va + 64))))) ∧
    (∀ (s : State) (sc : Scope), sc ≠ .bank →
      let busy := hartTransfers s s.cur || hartReds s s.cur || engineBlocks s s.cur
      (busy = true → exec (.fencex sc .full) s = .next (Claim.waits s (.fencex sc .full))) ∧
      (busy = false → ∃ t, exec (.fencex sc .full) s = .next t ∧ (me t).pc = (me s).pc + 4 ∧ (me t).wc = [] ∧
        (∀ d ∈ (coreOf t (myCore s)).dcache, d.2.dirty = 0) ∧ t.mem = (performAll s s.cur).mem)) ∧
    (∀ (s : State) (g : Bool) (i : Instr), i = .bfence g ∨ i = .fencex .bank .full ∧ g = false →
      (bauPending s g = true → exec i s = .next (Claim.waits s i)) ∧
      (bauPending s g = false → (me s).bev = false → exec i s = .next (Claim.passed (drainWc s s.cur))) ∧
      (bauPending s g = false → (me s).bev = true →
        exec i s = .next (Claim.raised (updMe (drainWc s s.cur) fun h => { h with bev := false, beva := 0 }) 51 (me s).beva)))) ∧
  (
    (∀ (s : State) (fm pred succ : BitVec 4), pred.toNat.testBit 2 = true ∨ pred.toNat.testBit 0 = true →
      (hartReds s s.cur = true ∨ engineBlocks s s.cur = true →
        exec (.fence fm pred succ) s = .next (updMe s fun h => { h with wait := some (.fence fm pred succ) })) ∧
      (hartReds s s.cur = false → engineBlocks s s.cur = false → ∃ t, exec (.fence fm pred succ) s = .next t ∧
        (me t).pc = (me s).pc + 4 ∧ (me t).wc = [] ∧ (∀ d ∈ (coreOf t (myCore s)).dcache, d.2.dirty = 0) ∧
        (me t).x = (me s).x ∧ t.mem = (performAll s s.cur).mem)) ∧
    (∀ (s : State) (fm pred succ : BitVec 4), pred.toNat.testBit 2 = false → pred.toNat.testBit 0 = false →
      ∃ t, exec (.fence fm pred succ) s = .next t ∧ (me t).pc = (me s).pc + 4 ∧ (me t).x = (me s).x ∧ t.mem = s.mem ∧
        (succ.toNat.testBit 3 = false → succ.toNat.testBit 1 = false → t = Claim.passed s)) ∧
    (∀ (s : State), ∃ t, exec .fenceI s = .next t ∧ (me t).pc = (me s).pc + 4 ∧ (me t).wc = [] ∧ (me t).x = (me s).x ∧
      (∀ d ∈ (coreOf t (myCore s)).dcache, d.2.dirty = 0) ∧ (coreOf t (myCore s)).icache = [] ∧
      t.mem = (performAll s s.cur).mem ∧ ∀ c, c ≠ myCore s → (coreOf t c).icache = (coreOf s c).icache))

/-- MONARM arms the hart's monitor at an address that translates. MWAIT reads the armed word at its sole writer, the core's line of it
written back: it waits while it equals x(a), and else takes the word, drops the core's clean lines and goes on; a hart that waits reads again on MWAIT_WAKE. Without a monitor MWAIT is illegal. -/
def Obligations.Monitors : Prop :=
  (∀ (s : State) (a : RegIx),
    ((rdX s a).toNat % 8 ≠ 0 → exec (.monarm a) s = .next (Claim.raised s 4 (rdX s a))) ∧
    ((rdX s a).toNat % 8 = 0 → ∀ s1 l, translate s (accessCtx s .load) .load (monUse s (rdX s a).toNat) (rdX s a).toNat = (s1, .ok l) →
      exec (.monarm a) s = .next (updMe s1 fun h => retire { h with maddr := rdX s a, mv := true, pc := h.pc + 4 }))) ∧
  (∀ (s : State) (a d : RegIx), (me s).mv = false → exec (.mwait a d) s = .next (Claim.raised s 2 (wordOf (.mwait a d)))) ∧
  (∀ (s s1 : State) (a d : RegIx) (l : Loc), (me s).mv = true → (me s).maddr.toNat % 8 = 0 →
    Claim.reaches s s1 .load (monUse s (me s).maddr.toNat) (me s).maddr.toNat 8 l → (∀ pa key, l ≠ .phys pa 3 key) →
    locPoisoned s1 l 8 = false →
    let s2 := flushLoc s1 (myCore s) l
    let w := BitVec.ofNat 64 (homeRead s2 l 8)
    (w = rdX s a → exec (.mwait a d) s = .next (Claim.waits s2 (.mwait a d))) ∧
    (w ≠ rdX s a → ∃ t, exec (.mwait a d) s = .next t ∧ Claim.wrote s t d w ∧ t.mem = s2.mem ∧
      ∀ x ∈ (coreOf t (myCore s)).dcache, x.2.dirty ≠ 0)) ∧
  (∀ (s : State) (h : Nat) (a d : RegIx), (hartOf s h).wait = some (.mwait a d) → canMove s h = true → (hartOf s h).park = none →
    exec (.mwaitWake h) s = exec (.mwait a d) { s with cur := h }) ∧
  (∀ (s : State) (h : Nat), (∀ a d, (hartOf s h).wait ≠ some (.mwait a d)) → exec (.mwaitWake h) s = .next s)

/-- The vector instructions but for vector memory wait while a unit has the hart's vector registers, and raise 24 under an illegal vtype; and the
elementwise integer instructions (spec/17 R351): each active element of the destination takes the result of Table 17-3, every other
element, register, tag and flag stays. -/
def Obligations.VectorInteger : Prop :=
  (
    ∀ (s : State) (i : Instr), Claim.usesVectorUnit i = true →
      (lentTo s s.cur = true ∨ regsBusy s s.cur = true → exec i s = .next (Claim.waits s i)) ∧
      (lentTo s s.cur = false → regsBusy s s.cur = false → vtypeOf (me s).xc.vtype.toNat = none →
        (∀ b a d, i ≠ .vsetvl b a d) → (∀ m a d, i ≠ .vsetvli m a d) → exec i s = .next (Claim.raised s 24 (wordOf i)))) ∧
  (
    ∀ (s : State) (i : Instr) (g : Fin 4) (b d : RegIx) (o : Opnd) (acc : Bool) (f : (w : Nat) → BitVec w → BitVec w → BitVec w → BitVec w)
      (e : VEnv), Claim.intForm i = some (g, b, d, o, acc, f) → Claim.vecSees s g.val e →
      Claim.vecGate s i e
        (fmtIsInt e.fmt = true ∧ Claim.aligned b.val e.grp ∧ Claim.aligned d.val e.grp ∧ Claim.opGroupOk e o)
        (Claim.tagged e b.val e.grp e.tag ∧ Claim.opTagged e o ∧ (acc = true → Claim.tagged e d.val e.grp e.tag))
        (∃ t, exec i s = .next t ∧ Claim.vwrote s t e d.val e.grp e.sew e.tag id (Claim.onActive e fun k =>
          f e.sew (Claim.element e e.sew d.val e.grp k) (Claim.element e e.sew b.val e.grp k) (Claim.operand e k o))))

/-- VAND, VOR, VXOR and VSEL (spec/17 R357), with the operand of R82 and, under PG = p0, VSEL as a copy of vs2; VIOTA (R355). -/
def Obligations.VectorBitsAndSelect : Prop :=
  (∀ (s : State) (i : Instr) (g : Fin 4) (b d : RegIx) (o : Opnd) (f : (w : Nat) → BitVec w → BitVec w → BitVec w) (e : VEnv),
    Claim.bitForm i = some (g, b, d, o, f) → Claim.vecSees s g.val e →
    Claim.vecGate s i e (e.blk = 0 ∧ Claim.aligned b.val e.grp ∧ Claim.aligned d.val e.grp ∧ Claim.opGroupOk e o) True
      (∃ t, exec i s = .next t ∧ Claim.vwrote s t e d.val e.grp e.sew e.fmt.code id (Claim.onActive e fun k =>
        f e.sew (Claim.element e e.sew b.val e.grp k) (Claim.operand e k o)))) ∧
  (∀ (s : State) (i : Instr) (g : Fin 4) (b d : RegIx) (o : Opnd) (e : VEnv),
    Claim.selForm i = some (g, b, d, o) → Claim.vecSees s g.val e →
    Claim.vecGate s i e (e.blk = 0 ∧ Claim.aligned b.val e.grp ∧ Claim.aligned d.val e.grp ∧ Claim.opGroupOk e o) True
      (∃ (t : State) (p : Nat → Bool), exec i s = .next t ∧ (∀ k, p k = true ↔ Claim.covers e g.val k) ∧
        Claim.vwrote s t e d.val e.grp e.sew e.fmt.code id (fun k => if k < e.vl then some
          (if p k = true then Claim.element e e.sew b.val e.grp k else Claim.operand e k o) else none))) ∧
  (∀ (s : State) (g : Fin 4) (p : Fin 8) (d : RegIx) (e : VEnv), Claim.vecSees s g.val e →
    Claim.vecGate s (.viota g p d) e (fmtIsInt e.fmt = true ∧ Claim.aligned d.val e.grp) True
      (∃ t, exec (.viota g p d) s = .next t ∧ Claim.vwrote s t e d.val e.grp e.sew e.tag id (Claim.onActive e fun k =>
        BitVec.ofNat e.sew ((Claim.chosen e p.val).filter fun j => decide (j < k)).length)))

/-- VCMP (spec/17 R352), also for pairs of 4-bit elements. -/
def Obligations.VectorCompare : Prop :=
  ∀ (s : State) (i : Instr) (g : Fin 4) (b : RegIx) (o : Opnd) (u : Bool) (c : CmpCond) (p : Fin 8) (e : VEnv),
    Claim.cmpForm i = some (g, b, o, u, c, p) → Claim.vecSees s g.val e →
    Claim.vecGate s i e (fmtIsInt e.fmt = true ∧ Claim.aligned b.val e.grp ∧ Claim.opGroupOk e o)
      (Claim.tagged e b.val e.grp e.tag ∧ Claim.opTagged e o)
      (let holds (k : Nat) : Prop := Claim.compares c u (Claim.element e e.sew b.val e.grp k) (Claim.operand e k o)
       ∃ t, exec i s = .next t ∧ Claim.pwrote s t p id fun j => if e.active (Claim.carrier e j) then
         some (if e.sew = 4 then holds (2 * j) ∧ (2 * j + 1 < e.vl → holds (2 * j + 1)) else holds j) else none)

/-- VCLIP (spec/17 R353), VWCVT (R354) and VREDI (R356). -/
def Obligations.VectorNarrowWidenReduce : Prop :=
  (∀ (s : State) (i : Instr) (g : Fin 4) (b d : RegIx) (o : Opnd) (u : Bool) (e : VEnv),
    Claim.clipForm i = some (g, b, d, o, u) → Claim.vecSees s g.val e →
    let w2 := 2 * e.sew
    let n2 := 2 * e.grp
    Claim.vecGate s i e (fmtIsInt e.fmt = true ∧ e.sew ≠ 64 ∧ Claim.aligned b.val n2 ∧ Claim.aligned d.val e.grp ∧ Claim.opGroupOk e o ∧
        Claim.apart d.val e.grp b.val n2)
      (Claim.tagged e b.val n2 (match e.fmt with | .i4 => 0 | .i8 => 1 | .i16 => 2 | _ => 3) ∧ Claim.opTagged e o)
      (let one (k : Nat) (st : NumSt) : BitVec e.sew × NumSt :=
        let x := Claim.element e w2 b.val n2 k
        let sh := (Claim.operand e k o).toNat % w2
        let seed := if e.rm = .sr then srNext st.seed else st.seed
        let r := Claim.clipped e.sew u e.rm (if e.rm = .sr then srValue seed else 0) (if u then x.toNat else x.toInt) sh
        (r.1, ⟨seed, st.flags ||| if r.2 then 32 else 0⟩)
       ∃ t st, exec i s = .next t ∧ Claim.threads e one st ∧
        Claim.vwrote s t e d.val e.grp e.sew e.tag (Claim.endsWith (st e.vl)) (Claim.onActive e fun k => (one k (st k)).1))) ∧
  (∀ (s : State) (g : Fin 4) (b : RegIx) (w : CvtWidth) (u : Bool) (d : RegIx) (e : VEnv), Claim.vecSees s g.val e →
    let tw := (match w with | .w8 => 8 | .w16 => 16 | .w32 => 32 | .w64 => 64 : Nat)
    let n := max 1 (e.grp * tw / e.sew)
    Claim.vecGate s (.vwcvt g b w u d) e (fmtIsInt e.fmt = true ∧ tw ≠ e.sew ∧ Claim.aligned b.val e.grp ∧ Claim.aligned d.val n ∧
        Claim.apart d.val n b.val e.grp)
      (Claim.tagged e b.val e.grp e.tag)
      (∃ t, exec (.vwcvt g b w u d) s = .next t ∧ Claim.vwrote s t e d.val n tw (match w with | .w8 => 0 | .w16 => 1 | .w32 => 2 | .w64 => 3) id
        (Claim.onActive e fun k => let x := Claim.element e e.sew b.val e.grp k; if u then x.zeroExtend tw else x.signExtend tw))) ∧
  (∀ (s : State) (g : Fin 4) (b : RegIx) (o : RedOp) (d : RegIx) (e : VEnv), Claim.vecSees s g.val e →
    Claim.vecGate s (.vredi g b o d) e (fmtIsInt e.fmt = true ∧ Claim.aligned b.val e.grp ∧ Claim.apart d.val 1 b.val e.grp)
      (Claim.tagged e b.val e.grp e.tag)
      (∃ t, exec (.vredi g b o d) s = .next t ∧ Claim.vwrote s t e d.val 1 e.sew e.tag id fun k => if k = 0 ∧ 0 < e.vl then
        some (((List.range e.vl).filter e.active).foldr (fun j acc => Claim.reduces o (Claim.element e e.sew b.val e.grp j) acc)
          (Claim.identityOf o e.sew)) else none))

/-- The permutes and moves (spec/17 R358 to R361): slides, VPERM, VBCST, VCMPR, VXPND, VSCAN, VMVSX and VMVXS. -/
def Obligations.VectorPermutes : Prop :=
  (∀ (s : State) (i : Instr) (up : Bool) (g : Fin 4) (b d : RegIx) (n : Nat) (e : VEnv),
    Claim.slideForm (me s) i = some (up, g, b, d, n) → Claim.vecSees s g.val e →
    Claim.vecGate s i e (e.blk = 0 ∧ Claim.aligned b.val e.grp ∧ Claim.aligned d.val e.grp ∧ Claim.apart d.val e.grp b.val e.grp) True
      (∃ t, exec i s = .next t ∧ Claim.vwrote s t e d.val e.grp e.sew e.fmt.code id fun k =>
        if e.active k = false ∨ (up = true ∧ k < n) then none
        else if up then some (Claim.element e e.sew b.val e.grp (k - n))
        else if k + n < e.vl then some (Claim.element e e.sew b.val e.grp (k + n)) else some 0)) ∧
  (∀ (s : State) (g : Fin 4) (b a d : RegIx) (e : VEnv), Claim.vecSees s g.val e →
    Claim.vecGate s (.vperm g b a d) e (e.blk = 0 ∧ Claim.aligned b.val e.grp ∧ Claim.aligned a.val e.grp ∧ Claim.aligned d.val e.grp ∧
        Claim.apart d.val e.grp b.val e.grp) True
      (∃ t, exec (.vperm g b a d) s = .next t ∧ Claim.vwrote s t e d.val e.grp e.sew e.fmt.code id (Claim.onActive e fun k =>
        let j := (Claim.element e e.sew a.val e.grp k).toNat
        if j < e.vl then Claim.element e e.sew b.val e.grp j else 0))) ∧
  (∀ (s : State) (i : Instr) (g : Fin 4) (o : Opnd) (d : RegIx) (e : VEnv), Claim.bcstForm i = some (g, o, d) → Claim.vecSees s g.val e →
    Claim.vecGate s i e (e.blk = 0 ∧ Claim.aligned d.val e.grp) True
      (∃ t, exec i s = .next t ∧ Claim.vwrote s t e d.val e.grp e.sew e.fmt.code id (Claim.onActive e fun k => Claim.operand e k o))) ∧
  (∀ (s : State) (g : Fin 4) (b : RegIx) (p : Fin 8) (d : RegIx) (e : VEnv), Claim.vecSees s g.val e →
    let js := Claim.chosen e p.val
    let ok := e.blk = 0 ∧ Claim.aligned b.val e.grp ∧ Claim.aligned d.val e.grp ∧ Claim.apart d.val e.grp b.val e.grp
    Claim.vecGate s (.vcmpr g b p d) e ok True
      (∃ t, exec (.vcmpr g b p d) s = .next t ∧ Claim.vwrote s t e d.val e.grp e.sew e.fmt.code
        (fun h => { h with xc := { h.xc with vl := BitVec.ofNat 64 js.length } })
        (fun k => (js[k]?).map fun j => Claim.element e e.sew b.val e.grp j)) ∧
    Claim.vecGate s (.vxpnd g b p d) e ok True
      (∃ t, exec (.vxpnd g b p d) s = .next t ∧ Claim.vwrote s t e d.val e.grp e.sew e.fmt.code id (fun k =>
        if k ∈ js then some (Claim.element e e.sew b.val e.grp (js.filter fun j => decide (j < k)).length) else none))) ∧
  (∀ (s : State) (g : Fin 4) (b a : RegIx) (u : Bool) (d : RegIx) (e : VEnv), Claim.vecSees s g.val e →
    let hit (k : Nat) : Bool :=
      let x := (rdGroup e.h e.regBits b.val 1).testBit k
      let y := (rdGroup e.h e.regBits a.val 1).testBit k
      e.active k && if u then x || y else x && y
    let js := (List.range e.vl).filter hit
    Claim.vecGate s (.vscan g b a u d) e (e.fmt = .i32 ∧ Claim.aligned d.val e.grp ∧ Claim.apart d.val e.grp b.val 1 ∧
        Claim.apart d.val e.grp a.val 1) True
      (∃ t, exec (.vscan g b a u d) s = .next t ∧ Claim.vwrote s t e d.val e.grp 32 2
        (fun h => { h with xc := { h.xc with vl := BitVec.ofNat 64 js.length } }) (fun k => (js[k]?).map (BitVec.ofNat 32)))) ∧
  (∀ (s : State) (a d : RegIx) (e : VEnv), Claim.vecSees s 0 e →
    Claim.vecGate s (.vmvsx a d) e (e.blk = 0) True
      (∃ t, exec (.vmvsx a d) s = .next t ∧ Claim.vwrote s t e d.val 1 e.sew e.fmt.code id fun k =>
        if k = 0 ∧ 0 < e.vl then some ((hartX e.h a).truncate e.sew) else none)) ∧
  (∀ (s : State) (b : RegIx) (u : Bool) (d : RegIx) (e : VEnv), Claim.vecSees s 0 e →
    Claim.vecGate s (.vmvxs b u d) e True True
      (exec (.vmvxs b u d) s = .next (Claim.vgave s d
        (let x := Claim.element e e.sew b.val 1 0; if u then x.zeroExtend 64 else x.signExtend 64))))

/-- The predicate instructions (spec/16 R324 to R326). -/
def Obligations.Predicates : Prop :=
  (∀ (s : State) (i : Instr) (g : Fin 4) (d : Fin 8) (f : VEnv → Nat → Prop) (e : VEnv),
    Claim.predForm i = some (g, d, f) → Claim.vecSees s g.val e →
    Claim.vecGate s i e True True (∃ t, exec i s = .next t ∧ Claim.pwrote s t d id fun j =>
      if e.active (Claim.carrier e j) then some (f e (Claim.carrier e j)) else none)) ∧
  (∀ (s : State) (g : Fin 4) (p : Fin 8) (d : RegIx) (e : VEnv), Claim.vecSees s g.val e →
    let q := if e.sew = 4 then 2 else 1
    Claim.vecGate s (.pcnt g p d) e True True
      (exec (.pcnt g p d) s = .next (Claim.vgave s d (BitVec.ofNat 64 ((Claim.chosen e p.val).filter fun i => i % q == 0).length))) ∧
    Claim.vecGate s (.pfirst g p d) e True True
      ((∀ n, Claim.breaksAt e p.val n → exec (.pfirst g p d) s = .next (Claim.vgave s d (BitVec.ofNat 64 n))) ∧
       ((∀ n, ¬ Claim.breaksAt e p.val n) → exec (.pfirst g p d) s = .next (Claim.vgave s d 0xFFFFFFFFFFFFFFFF)))) ∧
  (∀ (s : State) (g : Fin 4) (p : Fin 8) (d : RegIx) (e : VEnv), Claim.vecSees s g.val e →
    Claim.vecGate s (.pmovToVector g p d) e True True (∃ n, exec (.pmovToVector g p d) s = .next (Claim.vput s e d.val 1 n 0x1F id) ∧
      ∀ j < e.regBits, (n.testBit j = true ↔ if e.active (Claim.carrier e j) then Claim.covers e p.val (Claim.carrier e j)
        else (rdGroup e.h e.regBits d.val 1).testBit j = true)))

/-- VTAGG and VTAGS (spec/17 R369). -/
def Obligations.VectorTags : Prop :=
  ∀ (s : State), lentTo s s.cur = false → regsBusy s s.cur = false →
    (vtypeOf (me s).xc.vtype.toNat = none →
      (∀ b d, exec (.vtagg b d) s = .next (Claim.raised s 24 (wordOf (.vtagg b d)))) ∧
      (∀ a d, exec (.vtags a d) s = .next (Claim.raised s 24 (wordOf (.vtags a d))))) ∧
    (vtypeOf (me s).xc.vtype.toNat ≠ none →
      (∀ b d, exec (.vtagg b d) s = .next (Claim.vgave s d (BitVec.ofNat 64 (hartTag (me s) b.val)))) ∧
      ∀ a d, let x := (rdX s a).toNat
        let blk := x / 32 % 4
        let valid := x < 256 ∧ (∃ f, Fmt.ofCode (x % 32) = some f ∧ Claim.blockFits f blk) ∧ (x / 128 % 2 = 1 → blk ≠ 0)
        (¬ valid → exec (.vtags a d) s = .next (Claim.raised s 2 (wordOf (.vtags a d)))) ∧
        (valid → exec (.vtags a d) s = .next (updMe s fun h =>
          retire { hartSetTag h d.val x with xc := { h.xc with vstart := 0 }, pc := h.pc + 4 })))

/-- VSETVL and VSETVLI (spec/02 R24 to R26; spec/17 R370): for an illegal vtype VILL and vl = 0, else vl by R25; rd takes vl. A hart of
no gang takes the grant of seat 0, which is the model's choice (log entry 47). -/
def Obligations.SetLength : Prop :=
  ∀ (s : State) (i : Instr) (vt : Nat) (a d : RegIx), (∃ b, i = .vsetvl b a d ∧ vt = (rdX s b).toNat) ∨ (∃ m, i = .vsetvli m a d ∧ vt = m.toNat) →
    lentTo s s.cur = false → regsBusy s s.cur = false →
    let grant := (gangOf s ((coreOf s (s.cur / 8)).gang.getD 0)).grant
    let ends (vl : Nat) (vtype : Word) : State := updMe s fun h => retire { hartSetX h d (BitVec.ofNat 64 vl) with
      xc := { h.xc with grant := grant, vl := BitVec.ofNat 64 vl, vtype := vtype, vstart := 0 }, pc := h.pc + 4 }
    ((¬ ∃ lg f blk, Claim.vtypeLegal vt lg f blk) → exec i s = .next (ends 0 0x8000000000000000)) ∧
    (∀ lg f blk, Claim.vtypeLegal vt lg f blk →
      let vlmax := 1024 * grant / fmtSew f * 2 ^ lg
      let avl := if a.val ≠ 0 then (rdX s a).toNat else if d.val ≠ 0 then vlmax else (me s).xc.vl.toNat
      exec i s = .next (ends (Claim.lengthFor avl grant (fmtSew f) lg blk) (BitVec.ofNat 64 vt)))

/-- The floating-point vector instructions that round once (spec/17 R362), and the estimates (R363). An element with a NaN or infinite
operand takes no stochastic draw (spec/04 R67; that this holds where the result is finite is log entry 55), minimum and maximum of numbers
take one (log entry 21), and the flags NX and UF of an estimate are as log entry 22 reads R363. -/
def Obligations.VectorFloat : Prop :=
  (∀ (s : State) (i : Instr) (g : Fin 4) (b d : RegIx) (o : Opnd) (acc : Bool) (f : Rnd → FVal → FVal → FVal → FOut × Nat) (e : VEnv),
    Claim.floatForm i = some (g, b, d, o, acc, f) → Claim.vecSees s g.val e →
    Claim.vecGate s i e (Claim.floatClass e.fmt ∧ Claim.aligned b.val e.grp ∧ Claim.aligned d.val e.grp ∧ Claim.opGroupOk e o)
      (Claim.tagged e b.val e.grp e.tag ∧ Claim.opTagged e o ∧ (acc = true → Claim.tagged e d.val e.grp e.tag))
      (let one (k : Nat) (st : NumSt) : BitVec e.sew × NumSt :=
        let u := Claim.felement e b.val e.grp k
        let y := Claim.foperand e k o
        let z := Claim.felement e d.val e.grp k
        let x := f e.rm u y z
        let r := narrowSt (Claim.layoutOf e.fmt) (Claim.modeFor e.rm (u :: y :: if acc then [z] else [])) x.1 ⟨st.seed, st.flags ||| x.2⟩
        (BitVec.ofNat e.sew r.1, r.2)
       ∃ t st, exec i s = .next t ∧ Claim.threads e one st ∧
        Claim.vwrote s t e d.val e.grp e.sew e.tag (Claim.endsWith (st e.vl)) (Claim.onActive e fun k => (one k (st k)).1))) ∧
  (∀ (s : State) (i : Instr) (rsq : Bool) (g : Fin 4) (b d : RegIx) (e : VEnv),
    Claim.estForm i = some (rsq, g, b, d) → Claim.vecSees s g.val e →
    Claim.vecGate s i e (Claim.floatClass e.fmt ∧ Claim.aligned b.val e.grp ∧ Claim.aligned d.val e.grp) (Claim.tagged e b.val e.grp e.tag)
      (∃ t st, ∃ x : Nat → FOut × Nat,
        (∀ k < e.vl, e.active k = true → Claim.estimates (Claim.layoutOf e.fmt) rsq (Claim.felement e b.val e.grp k) (x k)) ∧
        let one (k : Nat) (st : NumSt) : BitVec e.sew × NumSt :=
          let r := narrowSt (Claim.layoutOf e.fmt) (Claim.modeFor e.rm [Claim.felement e b.val e.grp k]) (x k).1
            ⟨st.seed, st.flags ||| (x k).2⟩
          (BitVec.ofNat e.sew r.1, r.2)
        exec i s = .next t ∧ Claim.threads e one st ∧
          Claim.vwrote s t e d.val e.grp e.sew e.tag (Claim.endsWith (st e.vl)) (Claim.onActive e fun k => (one k (st k)).1)))

/-- VFCMP and VFSGN (spec/17 R364, R365). -/
def Obligations.VectorFloatCompareAndSign : Prop :=
  (∀ (s : State) (i : Instr) (g : Fin 4) (b : RegIx) (o : Opnd) (c : FCmpCond) (p : Fin 8) (e : VEnv),
    Claim.fcmpForm i = some (g, b, o, c, p) → Claim.vecSees s g.val e →
    Claim.vecGate s i e (Claim.floatClass e.fmt ∧ Claim.aligned b.val e.grp ∧ Claim.opGroupOk e o)
      (Claim.tagged e b.val e.grp e.tag ∧ Claim.opTagged e o)
      (let x (k : Nat) := Claim.felement e b.val e.grp k
       let y (k : Nat) := Claim.foperand e k o
       ∃ t fl, exec i s = .next t ∧
        Claim.pwrote s t p (fun h => { h with xc := { h.xc with flags := h.xc.flags ||| BitVec.ofNat 6 fl } })
          (fun j => if e.active j then some (Claim.fcompares c (x j) (y j)) else none) ∧
        ((∃ k, e.active k = true ∧ Claim.fcompareNV c (x k) (y k)) → fl = 16) ∧
        ((∀ k, e.active k = true → ¬ Claim.fcompareNV c (x k) (y k)) → fl = 0))) ∧
  (∀ (s : State) (g : Fin 4) (b : RegIx) (m : SgnMode) (d : RegIx) (e : VEnv), Claim.vecSees s g.val e →
    Claim.vecGate s (.vfsgn g b m d) e (Claim.floatClass e.fmt ∧ Claim.aligned b.val e.grp ∧ Claim.aligned d.val e.grp)
      (Claim.tagged e b.val e.grp e.tag ∧ (m = .copy ∨ m = .xor → Claim.tagged e d.val e.grp e.tag))
      (∃ t, exec (.vfsgn g b m d) s = .next t ∧ Claim.vwrote s t e d.val e.grp e.sew e.tag id (Claim.onActive e fun k =>
        let a := (Claim.element e e.sew b.val e.grp k).toNat
        let half := 2 ^ (e.sew - 1)
        let sa := a / half
        let sd := (Claim.element e e.sew d.val e.grp k).toNat / half
        let sign := (match m with | .copy => sd | .neg => 1 - sa | .xor => if sa = sd then 0 else 1 | .abs => 0)
        BitVec.ofNat e.sew (if isNaN (fdecode (Claim.layoutOf e.fmt) a) = true then Claim.canonical e.fmt a else a % half + half * sign))))

/-- VREDF over its tree (spec/04 R74, spec/17 R366), and VFCVT (R367, R368) to formats with and without blocks (spec/04 R61 to R65). A lone
active signalling NaN of VREDF gives the canonical NaN without NV (log entry 55), and a signalling NaN sets NV in a conversion to a format
without blocks (log entry 21). -/
def Obligations.VectorFloatReduceAndConvert : Prop :=
  (∀ (s : State) (g : Fin 4) (b : RegIx) (o : FRedOp) (rc : RndCode) (d : RegIx) (e : VEnv), Claim.vecSees s g.val e →
    let i : Instr := .vredf g b o rc d
    Claim.vecGate s i e (Claim.floatClass e.fmt ∧ Claim.aligned b.val e.grp ∧ Claim.apart d.val 1 b.val e.grp)
      (Claim.tagged e b.val e.grp e.tag)
      (∃ t v st, exec i s = .next t ∧ Claim.vwrote s t e d.val 1 e.sew e.tag (Claim.endsWith st) (fun k =>
          if k = 0 ∧ 0 < e.vl then some (BitVec.ofNat e.sew v) else none) ∧
        (e.vl ≤ 131072 →
          let leaf (k : Nat) : Option Nat :=
            let a := (Claim.element e e.sew b.val e.grp k).toNat
            if e.active k = false then none
            else some (if o = .amax ∧ isNaN (fdecode (Claim.layoutOf e.fmt) a) = false then a % 2 ^ (e.sew - 1) else a)
          ∃ root, Claim.treeRuns (Claim.joins e.fmt o (Claim.codeMode e rc)) leaf 17 ⟨e.h.xc.srseed.toNat, 0⟩ root st ∧
            v = Claim.canonical e.fmt (root.getD 0)))) ∧
  (∀ (s : State) (g : Fin 4) (b : RegIx) (f : Fmt) (rc : RndCode) (d : RegIx) (e : VEnv), Claim.vecSees s g.val e →
    let i : Instr := .vfcvt g b f rc d
    let w := fmtSew f
    let n := max 1 (e.grp * w / e.sew)
    let blk := Claim.targetBlk e f
    let len := Claim.blockLenFor f blk
    let rm := Claim.codeMode e rc
    let val := Claim.sourceVal e b
    Claim.vecGate s i e (e.fmt ≠ .scw ∧ e.fmt ≠ .raw ∧ ¬ (fmtIsInt e.fmt = true ∧ fmtIsInt f = true) ∧ Claim.aligned b.val e.grp ∧
        Claim.aligned d.val n ∧ ((w = e.sew ∧ blk = 0) ∨ Claim.apart d.val n b.val e.grp))
      (Claim.tagged e b.val e.grp e.tag)
      ((len = 0 →
        let one (k : Nat) (st : NumSt) : BitVec w × NumSt :=
          let r := Claim.converts f rm (val k) st
          (BitVec.ofNat w r.1, r.2)
        ∃ t st, exec i s = .next t ∧ Claim.threads e one st ∧
          Claim.vwrote s t e d.val n w f.code (Claim.endsWith (st e.vl)) (Claim.onActive e fun k => (one k (st k)).1)) ∧
       (len ≠ 0 →
        let uniform := ∀ k < e.vl, e.governs k = e.governs (k / len * len)
        (¬ uniform → exec i s = .next (Claim.raised s 2 (wordOf i))) ∧
        (uniform → ∃ t scs, ∃ (st : Nat → NumSt) (scale : Nat → Nat) (bits : Nat → Nat → Nat),
          exec i s = .next t ∧ st 0 = ⟨e.h.xc.srseed.toNat, 0⟩ ∧
            (∀ j, j * len < e.vl →
              let xs := (List.range (min len (e.vl - j * len))).map fun k => val (j * len + k)
              if e.active (j * len) = false then st (j + 1) = st j
              else if f ∈ Claim.pairFormats then Claim.inPairs (Claim.pairBits f) rm xs (st j) (scale j) (bits j) (st (j + 1))
              else ∃ sp, fspec f = some sp ∧ Claim.inBlock sp rm xs (st j) (scale j) (bits j) (st (j + 1))) ∧
            Claim.vwrote s t e d.val n w (f.code + 32 * blk + 128)
              (fun h => Claim.endsWith (st ((e.vl + len - 1) / len)) { h with sc := scs })
              (Claim.onActive e fun k => BitVec.ofNat w (bits (k / len) (k % len))) ∧
            (e.vl * w ≤ e.regBits * n →
              (∀ j, j * len < e.vl → rdScale (me t) e.lanes d.val f blk j =
                if e.active (j * len) then scale j else rdScale e.h e.lanes d.val f blk j) ∧
              ∀ r, r < d.val ∨ d.val + n ≤ r → hartSc (me t) r = hartSc e.h r)))))

/-- The vector loads and stores (spec/17 R371 to R374): their checks; elements in ascending order, each reading or writing its place; a
completed run writes the tags of a load and nothing else of the registers; a later element's fault leaves those below it done and
`xvstart` at it, or for `.ff` shortens vl. An element that leads a block stores neither its data nor the scale unless both pass their
checks. That a partial completion writes the tags, that data is read before its scale, and which later faults shorten a `.ff` load are the
model's choice (log entry 24). -/
def Obligations.VectorLoadsAndStores : Prop :=
  (∀ (s : State) (i : Instr) (g : Fin 4) (d : RegIx) (ff sc : Bool) (place : Nat → Nat × Nat × Nat) (ix : Option (RegIx × Nat)) (e : VEnv),
    Claim.loadForm e i = some (g, d, ff, sc, place, ix) → Claim.vecSees s g.val e → s.elemLimit = none →
    let tag := e.fmt.code + 32 * e.blk + if sc then 128 else 0
    let one (v x : Nat → Nat) (k : Nat) := Claim.loadsElement e d sc place k (v k) (x k)
    Claim.restartGate s i (Claim.memoryOk e d sc (Claim.isStrided i) ix) (Claim.indexTagged e ix) (Claim.uniform e)
      ((∀ (σ : Nat → State) (v x : Nat → Nat), Claim.inOrder s e e.vl (one v x) σ →
          exec i s = .next (Claim.vended (σ e.vl) e d (some tag) id)) ∧
       (∀ (σ : Nat → State) (v x : Nat → Nat) (k : Nat), k < e.vl → e.active k = true → Claim.inOrder s e k (one v x) σ →
        let later := ∃ j < k, e.active j = true
        (∀ t va kind src, readPlace (σ k) e.fmt (place k) = .error (.pageFault t va kind src) →
          (¬ (ff = true ∧ later) → exec i s = .next (parkMe (Claim.leavesAt e d (some tag) k t) va kind src)) ∧
          (ff = true → later → exec i s = .next (Claim.vended t e d (some tag) fun c =>
            { c with vl := BitVec.ofNat 64 k, fault := BitVec.ofNat 64 va }))) ∧
        (∀ t c va, readPlace (σ k) e.fmt (place k) = .error (.trap t c va) →
          (¬ (ff = true ∧ later ∧ (c = 4 ∨ c = 5)) → exec i s = .next (Claim.raised (Claim.leavesAt e d (some tag) k t) c va)) ∧
          (ff = true → later → c = 4 ∨ c = 5 → exec i s = .next (Claim.vended t e d (some tag) fun x =>
            { x with vl := BitVec.ofNat 64 k, fault := va })))))) ∧
  (∀ (s : State) (i : Instr) (g : Fin 4) (d : RegIx) (sc : Bool) (place : Nat → Nat × Nat × Nat) (ix : Option (RegIx × Nat)) (e : VEnv),
    Claim.storeForm e i = some (g, d, sc, place, ix) → Claim.vecSees s g.val e → s.elemLimit = none →
    let one (k : Nat) := Claim.storesElement e d sc place k
    Claim.restartGate s i (Claim.memoryOk e d sc (Claim.isStrided i) ix)
      (Claim.indexTagged e ix ∧ (sc = true → Claim.tagged e d.val e.grp e.tag)) (sc = true → Claim.uniform e)
      ((∀ (σ : Nat → State), Claim.inOrder s e e.vl one σ → exec i s = .next (Claim.vended (σ e.vl) e d none id)) ∧
       (∀ (σ : Nat → State) (k : Nat), k < e.vl → e.active k = true → Claim.inOrder s e k one σ →
        (∀ t va kind src, Claim.storeFails e d sc place k (σ k) (.pageFault t va kind src) →
          exec i s = .next (parkMe (Claim.leavesAt e d none k t) va kind src)) ∧
        (∀ t c va, Claim.storeFails e d sc place k (σ k) (.trap t c va) →
          exec i s = .next (Claim.raised (Claim.leavesAt e d none k t) c va))))) ∧
  (∀ (s : State) (f : Fmt) (va w : Nat), fmtSew f ≠ 4 → f ∉ Claim.pairFormats → w = fmtSew f →
    let n := w / 8
    (va % n ≠ 0 → readPlace s f (va, 0, w) = .error (.trap s 4 (BitVec.ofNat 64 va)) ∧
      ∀ v, writePlace s f (va, 0, w) v = .error (.trap s 6 (BitVec.ofNat 64 va))) ∧
    (∀ s1 l, Claim.reaches s s1 .load .plain va n l → Claim.weak n l → Claim.sound s1 n l →
      ∃ v, readPlace s f (va, 0, w) = .ok (Claim.looked s1 l, v) ∧ v < 2 ^ w ∧
        ∀ j < n, BitVec.ofNat 8 (v >>> (8 * j)) = Claim.vecSeenByte (Claim.looked s1 l) l j) ∧
    (∀ s1 l v, Claim.reaches s s1 .store .plain va n l → Claim.weak n l →
      ∃ t, writePlace s f (va, 0, w) v = .ok t ∧ (me t).pc = (me s1).pc ∧
        (bitOf (me s1).xc.dirty.toNat 0 = false → ∀ j < n, Claim.vecSeenByte t l j = BitVec.ofNat 8 (v >>> (8 * j))))) ∧
  (∀ (s : State) (f : Fmt) (va lo w : Nat), fmtSew f = 4 ∨ f ∈ Claim.pairFormats → 0 < w → lo < 8 →
    ∀ s1 a, elRead s va 1 = .ok (s1, a) →
      (lo + w ≤ 8 → readPlace s f (va, lo, w) = .ok (s1, a / 2 ^ lo % 2 ^ w)) ∧
      (8 < lo + w → ∀ s2 b, elRead s1 ((va + 1) % 2 ^ 64) 1 = .ok (s2, b) →
        readPlace s f (va, lo, w) = .ok (s2, (a + 256 * b) / 2 ^ lo % 2 ^ w)))

/-- VAMO, VRED and the update that a reduction sends (spec/17 R376, R377; spec/07 R134, R135; spec/13 R249), VLDSR and its refill. A
poisoned word that an update meets is log entry 23, a VRED with more parked elements than its area holds log entry 53. -/
def Obligations.VectorAtomicsAndRefill : Prop :=
  (∀ (s : State) (g : Fin 4) (b a : RegIx) (o : VAmoOp) (d : RegIx) (e : VEnv), Claim.vecSees s g.val e → s.elemLimit = none →
    let i : Instr := .vamo g b a o d
    let n := e.sew / 8
    let va (k : Nat) := ((hartX e.h a).toNat + (Claim.element e e.sew b.val e.grp k).toNat) % 2 ^ 64
    let old (k : Nat) := (Claim.element e e.sew d.val e.grp k).toNat
    let one (k : Nat) (p q : State) : Prop := ∃ s1 l, Claim.reaches p s1 .store .atomic (va k) n l ∧ Claim.weak n l ∧
      Claim.sound s1 n l ∧ q = setMyElem (Claim.updatesAt s1 (myCore s) s.cur (me s1).xc.dirty (.inl o) e.fmt l (old k))
        e d.val e.sew k (homeRead (flushLoc s1 (myCore s) l) l n)
    Claim.restartGate s i (Claim.admits (.inl o) e.fmt ∧ Claim.aligned d.val e.grp ∧ Claim.aligned b.val e.grp ∧
        Claim.apart d.val e.grp b.val e.grp)
      (Claim.tagged e d.val e.grp e.tag ∧ Claim.tagged e b.val e.grp (if e.sew = 64 then 3 else 2)) True
      ((∀ σ, Claim.inOrder s e e.vl one σ → exec i s = .next (Claim.vended (σ e.vl) e d (some e.tag) id)) ∧
       (∀ σ k, k < e.vl → e.active k = true → Claim.inOrder s e k one σ → va k % n ≠ 0 →
        exec i s = .next (Claim.raised (Claim.leavesAt e d (some e.tag) k (σ k)) 6 (BitVec.ofNat 64 (va k)))))) ∧
  (∀ (s : State) (g : Fin 4) (b a : RegIx) (o : VRedOp) (d : RegIx) (e : VEnv), Claim.vecSees s g.val e →
    let i : Instr := .vred g b a o d
    let n := e.sew / 8
    let c := accessCtx s .store
    let va (k : Nat) := ((hartX e.h a).toNat + (Claim.element e e.sew b.val e.grp k).toNat) % 2 ^ 64
    let fits (l : Nat → Loc) (k : Nat) (p q : State) : Prop := va k % n = 0 ∧ xferMeets p c.core c.slot (va k) n true = false ∧
      translate p c .store .atomic (va k) = (q, .ok (l k)) ∧ locPoisoned q (l k) n = false ∧ parkedMeets q c.core c.slot (va k) n = false
    e.h.vred = 0 →
    Claim.vecGate s i e (Claim.admits (.inr o) e.fmt ∧ Claim.aligned d.val e.grp ∧ Claim.aligned b.val e.grp ∧
        Claim.apart d.val e.grp b.val e.grp)
      (Claim.tagged e d.val e.grp e.tag ∧ Claim.tagged e b.val e.grp (if e.sew = 64 then 3 else 2))
      ((∀ σ l, Claim.inOrder s e e.vl (fits l) σ → exec i s = .next (Claim.vended (updCore (σ e.vl) c.core fun r =>
          { r with redq := r.redq ++ ((List.range e.vl).filter e.active).map fun k =>
            ⟨c.slot, o.code, e.fmt.code, va k, l k, (Claim.element e e.sew d.val e.grp k).toNat, c⟩ }) e d none id)) ∧
       (∀ σ l k, k < e.vl → e.active k = true → Claim.inOrder s e k (fits l) σ →
        (va k % n ≠ 0 → exec i s = .next (Claim.raised (σ k) 6 (BitVec.ofNat 64 (va k)))) ∧
        (va k % n = 0 → xferMeets (σ k) c.core c.slot (va k) n true = false → ∀ t, translate (σ k) c .store .atomic (va k) = (t, .error .access) →
          exec i s = .next (Claim.raised t 7 (BitVec.ofNat 64 (va k)))) ∧
        (va k % n = 0 → xferMeets (σ k) c.core c.slot (va k) n true = true →
          exec i s = .next (updMe (σ k) fun h => { h with wait := some i }))))) ∧
  (∀ (s : State) (core : Nat), ((coreOf s core).redq = [] → exec (.reductionUpdate core) s = .next s) ∧
    ∀ u rest o f, (coreOf s core).redq = u :: rest → VRedOp.ofCode u.op = some o → Fmt.ofCode u.fmt = some f →
      (∀ v ∈ rest, v.loc ≠ u.loc) →
      let s1 := updCore s core fun r => { r with redq := rest }
      let poisoned := locPoisoned s u.loc (fmtSew f / 8)
      (locKeyed s u.loc = false → exec (.reductionUpdate core) s =
        .next (settleRt (takeException s1 (8 * core + u.slot) 7 (BitVec.ofNat 64 u.va)) core)) ∧
      (locKeyed s u.loc = true → poisoned = true → exec (.reductionUpdate core) s = .next (settleRt s1 core)) ∧
      (locKeyed s u.loc = true → poisoned = false → Claim.admits (.inr o) f → u.val < 2 ^ fmtSew f →
        exec (.reductionUpdate core) s = .next
          (settleRt (Claim.updatesAt s1 u.ctx.core (8 * core + u.slot) u.ctx.dirty (.inr o) f u.loc u.val) core))) ∧
  (∀ (s : State) (core : Nat), Claim.treeSettled s (settleRt s core) core ∧ Claim.sameBytes s (settleRt s core) ∧
    (∀ h, hartOf (settleRt s core) h = hartOf s h) ∧ (coreOf (settleRt s core) core).redq = (coreOf s core).redq) ∧
  (∀ (s : State) (b a d : RegIx) (e : VEnv), Claim.vecSees s 0 e →
    let n := (hartX e.h b).toNat
    Claim.vecGate s (.vldsr b a d) e (e.blk = 0 ∧ e.fmt ∉ Claim.pairFormats ∧ (e.sew = 4 → n % 2 = 0) ∧ Claim.aligned d.val e.grp)
      (Claim.tagged e d.val e.grp e.tag)
      ((e.vl = 0 ∨ n = 0 → exec (.vldsr b a d) s = .next (Claim.vgave s 0 0)) ∧
       (0 < e.vl → 0 < n →
        let m := min n e.vl
        let nb := ((hartX e.h a).toNat + n * e.sew / 8) % 2 ^ 64
        let va (j : Nat) := (Claim.unitPlace e.fmt nb j).1
        let bytes := max 1 (e.sew / 8)
        let lo := va (e.vl - m)
        let hi := va (e.vl - 1) + bytes
        ownWaits s (myCore s) (mySlot s) lo (hi - lo) false = false → (coreOf s (myCore s)).arit.length < 32 →
        ∀ (σ : Nat → State) (l : Nat → Loc), σ 0 = drainWc s s.cur →
          (∀ k < m, va (e.vl - m + k) % bytes = 0 ∧
            translate (σ k) (accessCtx (σ k) .load) .load .engine (va (e.vl - m + k)) = (σ (k + 1), .ok (l k)) ∧
            locPoisoned (σ (k + 1)) (l k) bytes = false) →
          ∃ t, exec (.vldsr b a d) s = .next t ∧ (me t).pc = (me s).pc + 4 ∧
            (∀ r, rdX t r = if r.val = 0 then 0 else if r = a then BitVec.ofNat 64 nb else rdX (σ m) r) ∧
            (∀ k, (k + 1) * e.sew ≤ e.regBits * e.grp → Claim.element { e with h := me t } e.sew d.val e.grp k =
              if k < e.vl - m then Claim.element e e.sew d.val e.grp (k + n) else Claim.element e e.sew d.val e.grp k) ∧
            t.mem = (σ m).mem ∧ ∃ f ∈ (coreOf t (myCore s)).refills, f.slot = mySlot s ∧ f.vd = d.val ∧ f.sew = e.sew ∧
              f.locs = (List.range m).map fun k => (e.vl - m + k, l k)))) ∧
  (∀ (s : State) (core : Nat), ((∀ f ∈ (coreOf s core).refills, f.locs = []) → exec (.vldsrRefill core) s = .next s) ∧
    ∀ f, (coreOf s core).refills.find? (fun f => !f.locs.isEmpty) = some f →
      let h := 8 * core + f.slot
      let rb := 1024 * (32 / (coreOf s (h / 8)).part)
      let lands (t : State) (j : Nat) : Nat := elemOf f.sew (hartV (hartOf t h) (f.vd + j * f.sew / rb)) (j * f.sew % rb / f.sew)
      f.sew = 4 ∨ f.sew = 8 ∨ f.sew = 16 ∨ f.sew = 32 ∨ f.sew = 64 → 0 < rb →
      (∀ p ∈ f.locs, locKeyed s p.2 = true) →
      ((∀ p ∈ f.locs, Claim.lineStays s core p.2) → ∃ t, exec (.vldsrRefill core) s = .next t ∧
        (coreOf t core).refills = (coreOf s core).refills.erase f ∧ t.mem = s.mem ∧
        ((f.locs.map Prod.fst).Nodup → ∀ j l, (j, l) ∈ f.locs → lands t j = Claim.refilled s core f.sew j l)) ∧
      (∀ j l, f.locs = [(j, l)] → ∃ t, exec (.vldsrRefill core) s = .next t ∧
        (coreOf t core).refills = (coreOf s core).refills.erase f ∧ lands t j = Claim.refilled (Claim.lookedBy s core l) core f.sew j l))

/-- The matrix instructions at issue (spec/09 R179 to R191; spec/16 R316): what is illegal, what tags and formats they ask, when they
wait, and the engine taking them. Which parked registers make room for MTCW's columns, and under whose translation, is log entry 14. -/
def Obligations.MatrixIssue : Prop :=
  (∀ (s : State) (i : Instr), (Claim.mmaForm i ≠ none ∧ (∀ x y c t b sp, Claim.mmaForm i = some (x, y, c, .inr t, b, sp) → t ≠ c)) ∨
      (∃ c, i = .mzero c) ∨ (∃ c a, i = .mtcw c a) ∨
      (∃ x c f d, (i = .mrda x c f d ∨ i = .mwra x c f d) ∧ f.val + 2 ^ x.val ≤ 32) →
    (lentTo s s.cur = true ∨ regsBusy s s.cur = true ∨ (coreOf s (myCore s)).engine ≠ none → exec i s = .next (Claim.waits s i)) ∧
    (lentTo s s.cur = false → regsBusy s s.cur = false → (coreOf s (myCore s)).engine = none →
      vtypeOf (me s).xc.vtype.toNat = none → exec i s = .next (Claim.raised s 24 (wordOf i))) ∧
    (Claim.mxReady s → (me s).xc.vstart ≠ 0 → exec i s = .next (Claim.raised s 2 (wordOf i)))) ∧
  (∀ (s : State) (i : Instr) (x y : Fin 6) (c : Fin 8) (A : RegIx ⊕ Fin 8) (b : RegIx) (sparse : Bool),
    Claim.mmaForm i = some (x, y, c, A, b, sparse) →
    let core := myCore s
    let w := Claim.controlWord s core c.val
    let m := 2 ^ x.val
    let n := 2 ^ y.val
    let row := 1024 * lanesOf s s.cur
    let vl := (me s).xc.vl.toNat
    let bt := hartTag (me s) b.val
    let wa (t : Fin 8) := Claim.controlWord s core t.val
    let at_ := match A with | .inl r => hartTag (me s) r.val | .inr t => Claim.downTagged (wa t)
    let kb := if sparse then vl / Claim.groupM w * Claim.keptN w else vl
    let aOk := (match A with
      | .inl r => Claim.rowsOk r.val m ∧ Claim.apart r.val m b.val n ∧ vl * Claim.tagWidth at_ ≤ row
      | .inr t => vl ≤ Claim.columns (wa t))
    let spOk := sparse = true → w / 2 % 2 = 1 ∧ vl % Claim.groupM w = 0 ∧ n * Claim.metaBits w vl ≤ row ∧
      Claim.apart (Claim.metaReg w) 1 b.val n ∧ ∀ r, A = .inl r → Claim.apart (Claim.metaReg w) 1 r.val m
    let ok := aOk ∧ Claim.rowsOk b.val n ∧ n ≤ Claim.columns w ∧ kb * Claim.tagWidth bt ≤ row ∧ spOk
    let tags := (∀ k < n, hartTag (me s) (b.val + k) = bt) ∧ Claim.tileTagged s core c.val ∧
      (match A with | .inl r => ∀ k < m, hartTag (me s) (r.val + k) = at_ | .inr t => Claim.tileTagged s core t.val) ∧
      ∃ fa ba fb bb, Claim.tagNames at_ fa ba ∧ Claim.tagNames bt fb bb ∧ Claim.pairsInto (w % 2 == 1) fa fb
    let wide := max (Claim.tagWidth at_) (Claim.tagWidth bt)
    let weight := if wide = 32 then 1 else if wide = 16 then 2 else if wide = 8 then 4 else 8
    (A = .inr c → exec i s = .next (Claim.raised s 2 (wordOf i))) ∧
    (A ≠ .inr c → Claim.mxReady s → (me s).xc.vstart = 0 →
      (¬ ok → exec i s = .next (Claim.raised s 2 (wordOf i))) ∧
      (ok → ¬ tags → exec i s = .next (Claim.raised s 25 (wordOf i))) ∧
      (ok → tags → Claim.mxHeldBy s (c.val :: (match A with | .inl _ => [] | .inr t => [t.val])) → exec i s = .next (Claim.waits s i)) ∧
      (ok → tags → ¬ Claim.mxHeldBy s (c.val :: (match A with | .inl _ => [] | .inr t => [t.val])) → ∀ s1, askLeave s weight = .ok s1 →
        exec i s = .next (Claim.mxIssued s s1 i 0 weight)))) ∧
  (∀ (s : State) (c : Fin 8), Claim.mxReady s → (me s).xc.vstart = 0 →
    (Claim.mxHeldBy s [c.val] → exec (.mzero c) s = .next (Claim.waits s (.mzero c))) ∧
    (¬ Claim.mxHeldBy s [c.val] → exec (.mzero c) s = .next (Claim.mxIssued s s (.mzero c) 0 0))) ∧
  (∀ (s : State) (x : Fin 6) (c : Fin 8) (f : Fin 32) (d : RegIx) (rd : Bool),
    let i : Instr := if rd then .mrda x c f d else .mwra x c f d
    let n := 2 ^ x.val
    let ok := Claim.rowsOk d.val n ∧ (me s).xc.vl.toNat ≤ 32
    let tags := if rd then Claim.tileTagged s (myCore s) c.val
      else ∀ k < n, hartTag (me s) (d.val + k) = Claim.accTag (Claim.controlWord s (myCore s) c.val)
    (32 < f.val + n → exec i s = .next (Claim.raised s 2 (wordOf i))) ∧
    (f.val + n ≤ 32 → Claim.mxReady s → (me s).xc.vstart = 0 →
      (¬ ok → exec i s = .next (Claim.raised s 2 (wordOf i))) ∧ (ok → ¬ tags → exec i s = .next (Claim.raised s 25 (wordOf i))) ∧
      (ok → tags → Claim.mxHeldBy s [c.val] → exec i s = .next (Claim.waits s i)) ∧
      (ok → tags → ¬ Claim.mxHeldBy s [c.val] → exec i s = .next (Claim.mxIssued s s i 0 0)))) ∧
  (∀ (s : State) (c : Fin 8) (a : RegIx), Claim.mxReady s → (me s).xc.vstart = 0 →
    let w := (rdX s a).toNat
    (¬ Claim.controlValid w → exec (.mtcw c a) s = .next (Claim.raised s 2 (wordOf (.mtcw c a)))) ∧
    (Claim.controlValid w → Claim.mxHeldBy s [c.val] → exec (.mtcw c a) s = .next (Claim.waits s (.mtcw c a))) ∧
    (Claim.controlValid w → ¬ Claim.mxHeldBy s [c.val] →
      ∀ s1, spillEvict (spillList s (myCore s)) (spillHeld s (myCore s) - spillRoom (setTcw s (myCore s) c.val w) (myCore s)) s = .ok s1 →
        exec (.mtcw c a) s = .next (Claim.mxIssued s s1 (.mtcw c a) (rdX s a) 0)))

/-- What the engine does with the instruction that it holds, on its completion (spec/09 R179, R184 to R190, spec/04 R73): the rows of A from
registers or from a tile, the passes with their infinities, NaNs and flags, and the frame. The sign of a pruned zero and NV for a
signalling NaN are log entry 21, and that a clamped integer takes no draw is log entry 55. -/
def Obligations.MatrixEngine : Prop :=
  ∀ (s : State) (core : Nat), ((coreOf s core).engine = none → exec (.matrixInstructionComplete core) s = .next s) ∧
    ∀ op, (coreOf s core).engine = some op →
      let hk := 8 * core + op.slot
      let h := hartOf s hk
      let lanes := lanesOf s hk
      let done (t : State) : Prop := exec (.matrixInstructionComplete core) s = .next (Claim.mxDone t core op)
      (∀ c a, op.instr = .mtcw c a → done (updCore s core fun r => { r with tcw := aputC 0 r.tcw c.val op.xs })) ∧
      (∀ c, op.instr = .mzero c →
        let w := Claim.controlWord s core c.val
        ∃ g : VReg, done (updCore s core fun r => { r with
            ac := aputC 0 r.ac c.val g, acTag := aputC 0x1F r.acTag c.val (BitVec.ofNat 8 (Claim.accTag w)),
            tcw := aputC 0 r.tcw c.val (BitVec.ofNat 64 (w - w / 2 ^ 32 % 2 * 2 ^ 32)) }) ∧
          ∀ m n, m < 32 → n < 32 → elemOf 32 g.toNat (32 * m + n) =
            if n < Claim.columns w then 0 else elemOf 32 (aget 0 (coreOf s core).ac c.val).toNat (32 * m + n)) ∧
      (∀ x c f d, op.instr = .mwra x c f d → (op.vl = 0 → done s) ∧ (0 < op.vl →
        let w := Claim.controlWord s core c.val
        ∃ g : VReg, done (updCore s core fun r => { r with ac := aputC 0 r.ac c.val g, acTag := aputC 0x1F r.acTag c.val (BitVec.ofNat 8 (Claim.accTag w)) }) ∧
          ∀ m n, m < 32 → n < 32 → elemOf 32 g.toNat (32 * m + n) =
            if f.val ≤ m ∧ m < f.val + 2 ^ x.val ∧ n < op.vl ∧ n < Claim.columns w then elemOf 32 (hartV h (d.val + (m - f.val))) n
            else elemOf 32 (aget 0 (coreOf s core).ac c.val).toNat (32 * m + n))) ∧
      (∀ x c f d, op.instr = .mrda x c f d → (op.vl = 0 → done s) ∧ (0 < op.vl → op.vl ≤ 32 → 4 ≤ lanes → d.val + 2 ^ x.val ≤ 32 →
        let w := Claim.controlWord s core c.val
        let fmt := Claim.downFormat w
        let blk := Claim.downBlk w
        Claim.blockFits fmt blk →
        let len := Claim.blockLenFor fmt blk
        ∃ t, ∃ (st : Nat → NumSt) (pat scale : Nat → Nat → Nat), done t ∧ st 0 = ⟨h.xc.srseed.toNat, 0⟩ ∧ t.cores = s.cores ∧
          (hartOf t hk).xc = (Claim.endsWith (st (2 ^ x.val)) h).xc ∧ (hartOf t hk).x = h.x ∧
          (∀ j < 2 ^ x.val,
            Claim.downConverted w (Claim.downMode w op.rm) (Claim.tileRowAt s core c.val (f.val + j) op.vl) (st j) (pat j) (scale j) (st (j + 1)) ∧
            hartTag (hartOf t hk) (d.val + j) = Claim.downTagged w ∧
            (∀ k < op.vl, elemOf (fmtSew fmt) (hartV (hartOf t hk) (d.val + j)) k = pat j k % 2 ^ fmtSew fmt) ∧
            (∀ b, b * len < op.vl → 0 < len → fmt ≠ (if w % 2 = 1 then .i32 else .fp32) →
              rdScale (hartOf t hk) lanes (d.val + j) fmt blk b = scale j b)) ∧
          ∀ r, r < d.val ∨ d.val + 2 ^ x.val ≤ r →
            hartV (hartOf t hk) r = hartV h r ∧ hartTag (hartOf t hk) r = hartTag h r ∧ hartSc (hartOf t hk) r = hartSc h r)) ∧
      (∀ i x y c A b sparse fa ba fb bb, op.instr = i → Claim.mmaForm i = some (x, y, c, A, b, sparse) →
        let w := Claim.controlWord s core c.val
        let wa (t : Fin 8) := Claim.controlWord s core t.val
        Claim.tagNames (match A with | .inl r => hartTag h r.val | .inr t => Claim.downTagged (wa t)) fa ba →
        Claim.tagNames (hartTag h b.val) fb bb → Claim.pairsInto (w % 2 == 1) fa fb → (op.vl = 0 → done s) ∧ (0 < op.vl →
          let kp := 1024 / max (fmtSew fa) (fmtSew fb)
          let old (m n : Nat) := elemOf 32 (aget 0 (coreOf s core).ac c.val).toNat (32 * m + n)
          ∃ (g : VReg) (fl : Nat) (ovf : Bool) (st : Nat → NumSt) (X : Nat → Nat → FVal) (ps : Nat → Nat → Nat → FVal × FVal)
            (F : Nat → Nat → Nat → Nat),
            done (updHart (updCore s core fun r => { r with
              ac := aputC 0 r.ac c.val g,
              acTag := aputC 0x1F r.acTag c.val (BitVec.ofNat 8 (Claim.accTag w)),
              tcw := if ovf then aputC 0 r.tcw c.val (BitVec.ofNat 64 (w ||| 2 ^ 32)) else r.tcw }) hk
              (Claim.endsWith ⟨(st (2 ^ x.val)).seed, fl⟩)) ∧ st 0 = ⟨h.xc.srseed.toNat, 0⟩ ∧
            -- the rows of A: registers, or a tile's rows down-converted in order
            (∀ i < 2 ^ x.val, match A with
              | .inl r => st (i + 1) = st i ∧ ∀ k < op.vl, X i k = Claim.rowAt h lanes (r.val + i) fa ba k
              | .inr t => ∃ pat scale : Nat → Nat,
                Claim.downConverted (wa t) (Claim.downMode (wa t) op.rm) (Claim.tileRowAt s core t.val i op.vl) (st i) pat scale (st (i + 1)) ∧
                  ∀ k < op.vl, X i k = Claim.patternVal fa ba (pat k) (scale (k / Claim.blockLenFor fa ba)) k) ∧
            (∀ m n k, m < 2 ^ x.val → n < 2 ^ y.val → k < op.vl →
              Claim.factorsAt h lanes w b.val fb bb sparse op.vl n k (X m k) (ps m n k)) ∧
            (∀ m n, m < 32 → n < 32 → (2 ^ x.val ≤ m ∨ 2 ^ y.val ≤ n) → elemOf 32 g.toNat (32 * m + n) = old m n) ∧
            let pass (m n p : Nat) := ((List.range op.vl).filter fun k => k / kp == p).map (ps m n)
            let last := (op.vl + kp - 1) / kp
            let each (P : Nat → Nat → Nat → Prop) : Prop := ∃ m n p, m < 2 ^ x.val ∧ n < 2 ^ y.val ∧ p < last ∧ P m n p
            (w % 2 = 0 → ovf = false ∧
              (∀ b, fl.testBit b = true ↔ (st (2 ^ x.val)).flags.testBit b = true ∨ each fun m n p => (F m n p).testBit b = true) ∧
              ∀ m n, m < 2 ^ x.val → n < 2 ^ y.val → ∃ acc : Nat → Nat, acc 0 = old m n ∧ elemOf 32 g.toNat (32 * m + n) = acc last ∧
                ∀ p < last, Claim.fpPass (acc p) (acc (p + 1)) (F m n p) (pass m n p)) ∧
            (w % 2 = 1 →
              let sum (m n p : Nat) : ℤ := ((pass m n p).map fun q => Claim.intOf q.1 * Claim.intOf q.2).sum
              let at_ (m n p : Nat) : ℤ := (BitVec.ofInt 32 ((BitVec.ofNat 32 (old m n)).toInt + ((List.range p).map (sum m n)).sum)).toInt
              (∀ m n, m < 2 ^ x.val → n < 2 ^ y.val →
                (BitVec.ofNat 32 (elemOf 32 g.toNat (32 * m + n))).toInt = at_ m n last) ∧
              fl = (st (2 ^ x.val)).flags ||| (if ovf then 4 else 0) ∧
              (ovf = true ↔ each fun m n p => at_ m n p + sum m n p < -2 ^ 31 ∨ 2 ^ 31 ≤ at_ m n p + sum m n p))))

/-- SPLP and SPLR (spec/02 R39 to R41, spec/16 R336): a register parked on chip, or in the spill area where there is no room, comes back
whole. How many registers a core's chip has room for is the model's choice (log entry 14). -/
def Obligations.SpilledRegisters : Prop :=
  (∀ (s : State) (n : Fin 16) (a : RegIx) (i : Instr), i = .splp n a ∨ i = .splr n a →
    lentTo s s.cur = true ∨ regsBusy s s.cur = true → exec i s = .next (Claim.waits s i)) ∧
  (∀ (s : State) (n : Fin 16) (a : RegIx), lentTo s s.cur = false → regsBusy s s.cur = false →
    let e : Spill := ⟨false, aget 0 (me s).v a.val, aget 0 (me s).sc a.val, aget 0x1F (me s).tags a.val⟩
    let held := spillHeld s (myCore s) - (match aget? (me s).spill n.val with | some p => if p.inMem then 0 else 1 | none => 0)
    let parked (t : State) (x : Spill) : State := updMe t fun h => retire { h with spill := aput h.spill n.val x, pc := h.pc + 4 }
    (held < spillRoom s (myCore s) → exec (.splp n a) s = .next (parked s e)) ∧
    (spillRoom s (myCore s) ≤ held → ∀ s1, spillOut s (spillVa (me s) (lanesOf s s.cur) n.val) (lanesOf s s.cur) e = .ok s1 →
      exec (.splp n a) s = .next (parked s1 ⟨true, 0, 0, e.tag⟩))) ∧
  (∀ (s : State) (n : Fin 16) (d : RegIx), lentTo s s.cur = false → regsBusy s s.cur = false →
    let lanes := lanesOf s s.cur
    let back (t : State) (v sc tag : Nat) (map : AMap Spill → AMap Spill) : State := updMe t fun h => retire { h with
        v := aputC 0 h.v d.val (BitVec.ofNat 32768 v), sc := aputC 0 h.sc d.val (BitVec.ofNat 8192 sc),
        tags := aputC 0x1F h.tags d.val (BitVec.ofNat 8 tag), spill := map h.spill, pc := h.pc + 4 }
    (aget? (me s).spill n.val = none → exec (.splr n d) s = .next (back s 0 0 0x1F id)) ∧
    (∀ p, aget? (me s).spill n.val = some p → p.inMem = false → p.reg.toNat < 2 ^ (1024 * lanes) →
      exec (.splr n d) s = .next (back s p.reg.toNat p.sc.toNat p.tag.toNat fun m => adel m n.val)) ∧
    (∀ p s1 bits, aget? (me s).spill n.val = some p → p.inMem = true → spillIn s (spillVa (me s) lanes n.val) lanes = .ok (s1, bits) →
      exec (.splr n d) s = .next (back s1 (bits % 2 ^ (1024 * lanes)) (bits / 2 ^ (1024 * lanes)) p.tag.toNat fun m => adel m n.val)))

/-- CPY, CPYS and CPYW (spec/10 R195 to R197): the checks, the grant in full or in part, the deciding fault with its trap or background
probe, what a granted copy is, and the wait for the hart's copies. That a `.fut` copy's interlock entry leaves its cell out is log entry
54. -/
def Obligations.CopyIssue : Prop :=
  (∀ (s : State) (i : Instr) (b a d : RegIx) (stamp rcd fut : Bool), Claim.copyForm i = some (b, a, d, stamp, rcd, fut) →
    let w := (rdX s d).toNat
    let src := (rdX s b).toNat
    let dst := (rdX s a).toNat
    let al := if fut then 16 else if stamp then 8 else 1
    let extra := if fut then 16 else if stamp then 8 else 0
    let core := myCore s
    let eng := mySlot s % 2
    let ok := w / 2 ^ 21 % 2 ^ 11 = 0 ∧ w / 2 ^ 51 = 0 ∧ (rcd = false → w / 2 ^ 32 = 0)
    let tgt := w / 2 ^ 48 % 8
    let noQueue := rcd = true ∧ tgt < 4 ∧ (myEvq s tgt).conf.toNat % 32 = 0
    let used := ((coreOf s core).copies.filter fun kv => kv.1 / 32 == eng).length
    let cap := min (w % 2 ^ 21) (if used > 24 then 0x10000 else 0x100000)
    (¬ ok → exec i s = .next (Claim.raised s 2 (wordOf i))) ∧
    (ok → (dst % al ≠ 0 ∨ w % 2 ^ 21 % al ≠ 0) → exec i s = .next (Claim.raised s 6 (rdX s a))) ∧
    (ok → dst % al = 0 → w % 2 ^ 21 % al = 0 →
      (noQueue → exec i s = .next (Claim.raised s 28 (wordOf i))) ∧
      (¬ noQueue → 32 ≤ used → exec i s = .next (Claim.waits s i)) ∧
      (¬ noQueue → used < 32 → ∀ s1 s2 hs hd fs fd,
        transPages (hartCtx s s.cur) .load (pagesOf src cap) s = (s1, hs, fs) →
        transPages (hartCtx s s.cur) .store (pagesOf dst (cap + extra)) s1 = (s2, hd, fd) →
        (∀ h ∈ hs, locPeer h.loc = false) → (∀ h ∈ hd, locPeer h.loc = false) →
        let g := Claim.cutTo cap extra fs fd
        -- a grant that needs no leave gives up what was asked for another
        let s3 := if 0x40000 ≤ g then s2 else withdrawLeave s2 s.cur
        (fs = none → fd = none → g = 0 → exec i s = .next (Claim.noGrant s3 d (me s3).xc.fault)) ∧
        (∀ f isSrc, Claim.decides fs fd f isSrc →
          (f.off = 0 → (∀ kind, f.fail ≠ .page kind) →
            exec i s = .next (Claim.raised (updX s3 fun x => { x with fault := BitVec.ofNat 64 f.va })
              (if f.fail = .poison then 51 else if isSrc then 5 else 7) (BitVec.ofNat 64 f.va))) ∧
          (g = 0 → ∀ kind, f.fail = .page kind → ∀ s4 t, postFault s3 (hartCtx s s.cur) f.va kind (16 + eng) (.probe s.cur) = (s4, t) →
            exec i s = .next (Claim.noGrant (updMe s4 fun h => { h with probe := some t }) d (BitVec.ofNat 64 f.va))) ∧
          (g = 0 → f.off ≠ 0 → (∀ kind, f.fail ≠ .page kind) → exec i s = .next (Claim.noGrant s3 d (BitVec.ofNat 64 f.va)))) ∧
        (0 < g → ownWaits s3 core (mySlot s) src g false = true ∨ ownWaits s3 core (mySlot s) dst (g + extra) true = true ∨
          31 ≤ (coreOf s3 core).arit.length → exec i s = .next (Claim.waits s3 i)) ∧
        (0 < g → ownWaits s3 core (mySlot s) src g false = false → ownWaits s3 core (mySlot s) dst (g + extra) true = false →
          (coreOf s3 core).arit.length < 31 → ∀ s4, (if 0x40000 ≤ g then askLeave s3 1 else .ok s3) = .ok s4 →
          ∃ t r k, exec i s = .next t ∧ (me t).pc = (me s).pc + 4 ∧ (me t).wc = [] ∧ (me t).xc.vl = BitVec.ofNat 64 g ∧
            (∀ x, rdX t x = if x.val = 0 then 0 else if x = d then BitVec.ofNat 64 g else rdX s x) ∧
            (me t).f = (me s).f ∧ (me t).v = (me s).v ∧ (me t).p = (me s).p ∧
            (fs = none → fd = none → (me t).xc.fault = (me s).xc.fault) ∧
            (∀ f isSrc, Claim.decides fs fd f isSrc → (me t).xc.fault = BitVec.ofNat 64 f.va) ∧
            (me t).xc.cpyseq = (me s).xc.cpyseq + (if stamp then 1 else 0) ∧ t.mem = (drainWc s4 s.cur).mem ∧
            r < 32 ∧ aget? (coreOf s core).copies (32 * eng + r) = none ∧
            (coreOf t core).copies = aput (coreOf s4 core).copies (32 * eng + r) k ∧
            k.rem = g ∧ k.grant = g ∧ k.src = src ∧ k.dst = dst ∧ k.dst0 = dst ∧ k.held = hs ++ hd ∧ k.slot = mySlot s ∧
            k.status = 0 ∧ k.stage = 0 ∧ k.weight = (if 0x40000 ≤ g then 1 else 0) ∧
            k.opt = (if stamp then 1 else 0) + (if rcd then 2 else 0) + (if fut then 4 else 0) ∧
            k.stamp = (if stamp then (me s).xc.cpyseq else 0) ∧ k.tgt = (if rcd then tgt else 0) ∧
            k.utag = (if rcd then w / 2 ^ 32 % 2 ^ 16 else 0) ∧
            (∃ e, aget? (coreOf t core).arit k.aritS = some e ∧ e.wr = false ∧ e.rd = true ∧ e.slot = mySlot s ∧
              e.base = aritVa s core src ∧ e.limit = e.base + g) ∧
            ∃ e, aget? (coreOf t core).arit k.aritD = some e ∧ e.wr = true ∧ e.slot = mySlot s ∧
              e.base = aritVa s core dst ∧ e.limit = e.base + g + if fut then 0 else extra)))) ∧
  (∀ (s : State), ((∃ kv ∈ (coreOf s (myCore s)).copies, kv.2.slot = mySlot s) → exec .cpyw s = .next (Claim.waits s .cpyw)) ∧
    ((∀ kv ∈ (coreOf s (myCore s)).copies, kv.2.slot ≠ mySlot s) → exec .cpyw s = .next (Claim.passed s)))

/-- What a copy engine and firmware's event queues do (spec/10 R196, R204 to R206; spec/14 R271, R273): strips and their frame, completion,
stamps, records, peers, and the queue that software takes records from. A post to a disabled event queue is dropped (log entry 27). -/
def Obligations.CopyEngineAndEventQueues : Prop :=
  (∀ (s : State) (core r : Nat), aget? (coreOf s core).copies r = none →
    exec (.copyStrip core r) s = .next s ∧ exec (.copyCompletion core r) s = .next s ∧ exec (.eventQueuePost core r) s = .next s ∧
      exec (.peerAck core r) s = .next s ∧ exec (.peerConnectionFail core r) s = .next s) ∧
  (∀ (s : State) (core r : Nat) (k : Copy), aget? (coreOf s core).copies r = some k →
    let logged := Claim.copyFreed (logFault s k.ctx.ctxbase k.ctx.tid 31 (ghartOf s (8 * core + k.slot)) 1 (BitVec.ofNat 64 k.dst0) 0) core r k
    (k.fatal = true → exec (.copyStrip core r) s = .next logged) ∧
    (k.fatal = false → k.park ≠ none ∨ k.rem = 0 → exec (.copyStrip core r) s = .next s) ∧
    (k.fatal = false → k.park = none → 0 < k.rem →
      let n := min 64 k.rem
      let lo := Claim.stripLo k
      let m := Claim.stripHi k - lo
      let from_ := k.src + (lo - k.dst)
      (0 < m → ∀ l, heldLoc k.held from_ = some l → locKeyed s l = false → exec (.copyStrip core r) s = .next logged) ∧
      (∀ L D : Nat → Loc, k.ctx.core = core →
        (∀ j < m, Claim.heldByte k from_ (from_ + j) = some (L j) ∧ Claim.heldByte k lo (lo + j) = some (D j)) →
        Claim.stripPlain s core k m L D → bitOf k.ctx.dirty.toNat 0 = false →
        ∃ t, exec (.copyStrip core r) s = .next t ∧
          aget? (coreOf t core).copies r = some { k with rem := k.rem - n, src := k.src + n, dst := k.dst + n } ∧
          (∀ j < m, lookRead t core (D j) 1 = lookRead s core (L j) 1) ∧ Claim.bytesBut s t m D)) ∧
    (k.rem = 0 → k.stage = 0 → k.park = none → k.peer = false ∨ k.acked = true → k.status = 0 →
      (k.opt = 0 → exec (.copyCompletion core r) s = .next (Claim.copyFreed s core r k)) ∧
      (k.opt = 1 → ∀ l, heldLoc k.held k.dst = some l → locPeer l = false → locKeyed s l = true →
        exec (.copyCompletion core r) s = .next (Claim.copyFreed (lookWrite s k.ctx l 8 k.stamp.toNat) core r k)) ∧
      (k.opt = 2 → k.tgt < 4 →
        exec (.copyCompletion core r) s = .next (updCore s core fun c => { c with copies := aput c.copies r { k with stage := 2 } })) ∧
      (k.opt = 2 → 4 ≤ k.tgt → ∀ seat w ph, (coreOf s core).gang = some seat →
        let b := (aget 0 (gangOf s seat).gb (k.tgt % 4)).toNat
        b % 2 ^ 16 ≠ 0 → gbArrive b = some (w, ph) →
        exec (.copyCompletion core r) s = .next (Claim.copyFreed
          (updGang s seat fun g => { g with gb := aputC 0 g.gb (k.tgt % 4) (BitVec.ofNat 64 w) }) core r k))) ∧
    (k.stage = 2 → k.park = none → k.fatal = false → ∀ seat, (coreOf s core).gang = some seat →
      let q := aget {} (gangOf s seat).evq (k.tgt % 4)
      let lg := q.conf.toNat % 32
      let va := q.conf.toNat / 32 % 2 ^ 55 * 32 + q.tail % 2 ^ lg * 32
      (lg = 0 → exec (.eventQueuePost core r) s = .next (Claim.copyFreed s core r k)) ∧
      (lg ≠ 0 → ∀ s1 l, translate s k.ctx .store .sync va = (s1, .ok l) →
        let s2 := Claim.lookedBy s1 k.ctx.core l
        let full := lookRead s2 k.ctx.core l 8 ≠ 0 ∨ 2 ^ lg ≤ (q.tail + 2 ^ 32 - q.head) % 2 ^ 32
        (full → exec (.eventQueuePost core r) s = .next s2) ∧
        (¬ full → exec (.eventQueuePost core r) s = .next (Claim.copyFreed (updGang (lookWrite s2 k.ctx l 32
          (Claim.recordWord k.status (ghartOf s (8 * core + k.slot)) k.utag + k.dst0 * 2 ^ 64 + k.grant * 2 ^ 128 + k.stamp.toNat * 2 ^ 192))
          seat fun g => { g with evq := aput g.evq (k.tgt % 4) { q with tail := (q.tail + 1) % 2 ^ 32 } }) core r k)))) ∧
    (k.peer = true → k.rem = 0 →
      exec (.peerAck core r) s = .next (updCore s core fun c => { c with copies := aput c.copies r { k with acked := true } })) ∧
    (k.peer = false → exec (.peerAck core r) s = .next s ∧ exec (.peerConnectionFail core r) s = .next s) ∧
    (k.peer = true → k.acked = false → k.stage = 0 → ∃ t, exec (.peerConnectionFail core r) s = .next t ∧
      aget? (coreOf t core).copies r = some { k with rem := 0, dst := k.dst + k.rem, acked := true, status := 2, park := none })) ∧
  (∀ (s : State) (n : Fin 4) (a : RegIx),
    let va := (rdX s a).toNat
    (va % 16 ≠ 0 → exec (.evqcfg n a) s = .next (Claim.raised s 4 (rdX s a))) ∧
    (va % 16 = 0 → ∀ s1 v, readRecord s va 16 24 = .ok (s1, v) →
      let w := v % 2 ^ 64
      let lg := w % 32
      let ok := lg ≤ 16 ∧ w / 2 ^ 60 = 0 ∧ v / 2 ^ 64 = 0
      (¬ ok → exec (.evqcfg n a) s = .next (Claim.raised s1 28 (wordOf (.evqcfg n a)))) ∧
      (ok → ∀ s2 seat, (if lg = 0 then .ok s1 else evqCheck s1 (w / 32 % 2 ^ 55 * 32) (2 ^ lg * 32)) = .ok s2 →
        (coreOf s (myCore s)).gang = some seat → (coreOf s2 (myCore s2)).gang = some seat →
        exec (.evqcfg n a) s = .next (Claim.advanced (updGang s2 seat fun g => { g with evq := aput g.evq n.val ⟨BitVec.ofNat 64 w, 0, 0⟩ }))))) ∧
  (∀ (s : State) (n : Fin 4) (d : RegIx) (seat : Nat), (coreOf s (myCore s)).gang = some seat →
    let q := aget {} (gangOf s seat).evq n.val
    let lg := q.conf.toNat % 32
    (lg = 0 → exec (.evqpop n d) s = .next (Claim.raised s 28 (wordOf (.evqpop n d)))) ∧
    (lg ≠ 0 → q.head = q.tail → exec (.evqpop n d) s = .next (Claim.wroteX s d 0)) ∧
    (lg ≠ 0 → q.head ≠ q.tail → ∃ t, exec (.evqpop n d) s = .next t ∧
      Claim.wrote s t d (BitVec.ofNat 64 (q.conf.toNat / 32 % 2 ^ 55 * 32 + q.head % 2 ^ lg * 32)) ∧ t.mem = s.mem ∧
      aget? (gangOf t seat).evq n.val = some { q with head := (q.head + 1) % 2 ^ 32 }))

/-- QPUSH, QPOP, QPEEK and QSTAT (spec/16 R331 to R334, spec/08 R149 to R151, spec/13 R261): the checks in order, the waits, and what
moves. Where the checks for cause 28 stand among the others is log entry 26; a poisoned token gives `stval` a free value (log entry
27). -/
def Obligations.ChainingQueues : Prop :=
  (∀ (s : State) (i : Instr), ((∃ q a, i = .qpush q a) ∨ Claim.popForm i ≠ none) →
    (lentTo s s.cur = true ∨ regsBusy s s.cur = true → exec i s = .next (Claim.waits s i)) ∧
    (lentTo s s.cur = false → regsBusy s s.cur = false → vtypeOf (me s).xc.vtype.toNat = none →
      exec i s = .next (Claim.raised s 24 (wordOf i)))) ∧
  (∀ (s : State) (q : Fin 16) (a : RegIx) (e : VEnv), Claim.vecSees s 0 e →
    let i : Instr := .qpush q a
    let c := coreOf s (myCore s)
    let r := qOf c q.val
    let n := (e.vl * e.sew + 7) / 8
    let slots := (r.pfill + n + 31) / 32 * (if e.blk ≠ 0 ∨ e.fmt ∈ Claim.pairFormats then 2 else 1)
    let bad := Claim.scaled e.fmt e.blk ∧ (32 < Claim.bytesOfBlock e.fmt e.blk ∨ r.pfill ≠ 0 ∧ r.pfill ≠ 32)
    (¬ (e.vstart = 0 ∧ a.val % e.grp = 0) → exec i s = .next (Claim.raised s 2 (wordOf i))) ∧
    (e.vstart = 0 → a.val % e.grp = 0 →
      (r.owned = true ∧ r.swin = false → exec i s = .next (Claim.raised s 28 (wordOf i))) ∧
      (r.owned = false ∨ r.swin = true →
        (e.vl = 0 → r.pfill = 0 → exec i s = .next (Claim.passed s)) ∧
        (e.vl = 0 → 0 < r.pfill → Claim.queueSane r → 2 ≤ qRoom r →
          let sc := r.tagset && r.qtag.toNat / 128 % 2 == 1
          let k := r.tail + if sc then 1 else 0
          ∃ t, exec i s = .next t ∧ me t = me (Claim.passed s) ∧ t.mem = s.mem ∧
            let d := coreOf t (myCore s)
            (qOf d q.val).pfill = 0 ∧ Claim.otherQueues c d q.val ∧
            ∀ j ∈ qReaders r, ∃ ts, Claim.queueTokens d q.val j = Claim.queueTokens c q.val j ++ ts ∧
              ts.length = (if sc then 2 else 1) ∧
              ∃ x, ts.getLast? = some x ∧ x.kind = 0 ∧ x.last = true ∧ x.bytes = r.pfill ∧ x.pay = (tokAt c q.val k).pay) ∧
        (0 < e.vl →
          (¬ Claim.tagged e a.val e.grp e.tag → exec i s = .next (Claim.raised s 25 (wordOf i))) ∧
          (Claim.tagged e a.val e.grp e.tag → (r.tagset = true ∧ r.qtag.toNat ≠ e.tag) ∨ bad ∨ 256 < slots →
            exec i s = .next (Claim.raised s 28 (wordOf i))) ∧
          (Claim.tagged e a.val e.grp e.tag → (r.tagset = true → r.qtag.toNat = e.tag) → ¬ bad → slots ≤ 256 →
            (qRoom r < slots → exec i s = .next (Claim.waits s i)) ∧
            (slots ≤ qRoom r → Claim.queueSane r →
              (Claim.scaled e.fmt e.blk → r.pfill ≠ 0 → (tokAt c q.val r.tail).kind = 1 ∧
                (tokAt c q.val r.tail).bytes = Claim.scalesOf e.fmt e.blk r.pfill) → ∃ t, exec i s = .next t ∧ me t = me (Claim.passed s) ∧ t.mem = s.mem ∧
              let d := coreOf t (myCore s)
              (qOf d q.val).pfill = (r.pfill + n - 1) % 32 + 1 ∧ (qOf d q.val).tagset = true ∧ (qOf d q.val).qtag.toNat = e.tag ∧
              Claim.otherQueues c d q.val ∧
              ∃ ts, (∀ j ∈ qReaders r, Claim.queueTokens d q.val j = Claim.queueTokens c q.val j ++ ts) ∧
                (∀ x ∈ ts, x.last = false ∧ (x.kind = 0 → x.bytes = 32)) ∧
                Claim.tokenBytes 0 ts ++ Claim.pendingBytes d q.val e.fmt e.blk =
                  Claim.pendingBytes c q.val e.fmt e.blk ++ Claim.bytesOf n (e.group a.val e.grp % 2 ^ (e.vl * e.sew)) ∧
                Claim.tokenBytes 1 ts ++ Claim.pendingScales d q.val e.fmt e.blk =
                  Claim.pendingScales c q.val e.fmt e.blk ++ (List.range (Claim.scalesOf e.fmt e.blk n)).map fun k =>
                    BitVec.ofNat 8 (rdScale e.h e.lanes a.val e.fmt e.blk (k / Claim.scaleSize e.fmt) / 256 ^ (k % Claim.scaleSize e.fmt)))))))) ∧
  (∀ (s : State) (i : Instr) (q : Fin 16) (d : RegIx) (peek : Bool) (e : VEnv), Claim.popForm i = some (q, d, peek) → Claim.vecSees s 0 e →
    let c := coreOf s (myCore s)
    let r := qOf c q.val
    let cap := (e.vl * e.sew + 7) / 8
    (¬ (e.vstart = 0 ∧ d.val % e.grp = 0) → exec i s = .next (Claim.raised s 2 (wordOf i))) ∧
    (e.vstart = 0 → d.val % e.grp = 0 →
      (8192 < cap ∨ r.owned = true ∧ r.swout = false → exec i s = .next (Claim.raised s 28 (wordOf i))) ∧
      (cap ≤ 8192 → r.owned = false ∨ r.swout = true → ∀ ms ps, Claim.queueTokens c q.val 0 = ms ++ Claim.laid e.fmt e.blk ps →
        (∀ m ∈ ms, m.kind = 2 ∨ m.kind = 3) → Claim.laidOk ps → Claim.queueSane r → rpOf r 0 < 512 →
        let avail := (Claim.dataOf (Claim.firstTensor ps)).length
        let lastIn := ∃ p ∈ ps, p.2.last = true
        let mark := (((ms.filter fun m => m.kind == 3).getLast?).map fun m => m.pay % 8).getD r.mark.toNat
        let left (t : State) (ps : List (Tok × Tok)) : Prop :=
          Claim.queueTokens (coreOf t (myCore s)) q.val 0 = Claim.laid e.fmt e.blk ps ∧
            (qOf (coreOf t (myCore s)) q.val).mark.toNat = mark ∧ t.mem = s.mem ∧ Claim.otherQueues c (coreOf t (myCore s)) q.val
        (e.vl = 0 → ∃ t, exec i s = .next t ∧ me t = me (Claim.passed s) ∧ left t ps) ∧
        (0 < e.vl → ps = [] → ¬ Claim.fillable c q.val → exec i s = .next (Claim.raised s 28 (wordOf i))) ∧
        (0 < e.vl → ps ≠ [] ∨ Claim.fillable c q.val → avail < cap → ¬ lastIn →
          ∃ t, exec i s = .next t ∧ me t = me (Claim.waits s i) ∧ left t ps) ∧
        let poison (i : Nat) := poiAt c q.val (rpOf r 0 + i)
        (0 < e.vl → ps ≠ [] → cap ≤ avail ∨ lastIn →
          (r.qtag.toNat ≠ e.tag → exec i s = .next (Claim.raised s 25 (wordOf i))) ∧
          (r.qtag.toNat = e.tag → (∀ p, ps.head? = some p → cap < p.2.bytes) → exec i s = .next (Claim.raised s 28 (wordOf i))) ∧
          (r.qtag.toNat = e.tag → ∀ p o, ps.head? = some p → p.2.bytes ≤ cap →
            Claim.scaled e.fmt e.blk ∧ o = 1 ∨ ¬ Claim.scaled e.fmt e.blk ∧ o = 0 → poison (ms.length + o) % 2 ^ p.2.bytes ≠ 0 →
            exec i s = .next (Claim.raised { s with ctr := s.ctr + 1 } 51 (Config.freeBits 64 s.ctr))) ∧
          (r.qtag.toNat = e.tag → (∀ p, ps.head? = some p → p.2.bytes ≤ cap) → e.vl * e.sew ≤ e.regBits * e.grp →
            (∀ i < qOcc r 0, poison i = 0) → ∃ t k, exec i s = .next t ∧ 0 < k ∧ k ≤ (Claim.firstTensor ps).length ∧
              let bs := Claim.dataOf (ps.take k)
              bs.length ≤ cap ∧ (k < (Claim.firstTensor ps).length → cap < (Claim.dataOf (ps.take (k + 1))).length) ∧
              left t (if peek then ps else ps.drop k) ∧
              (me t).pc = (me s).pc + 4 ∧ (me t).x = (me s).x ∧ (me t).p = (me s).p ∧
              (me t).xc = { (me s).xc with vl := BitVec.ofNat 64 (bs.length * 8 / e.sew) } ∧
              (∀ b, rdGroup (me t) e.regBits d.val e.grp / 256 ^ b % 256 =
                if h : b < bs.length then (bs[b]).toNat else e.group d.val e.grp / 256 ^ b % 256) ∧
              (∀ x, hartTag (me t) x =
                if d.val ≤ x ∧ x < d.val + (8 * bs.length + e.regBits - 1) / e.regBits then e.tag else hartTag (me s) x) ∧
              (Claim.scaled e.fmt e.blk → Claim.bytesOfBlock e.fmt e.blk ≤ 32 → ∀ m p, m < k → ps[m]? = some p →
                ∀ j, j * Claim.bytesOfBlock e.fmt e.blk < p.2.bytes →
                  rdScale (me t) e.lanes d.val e.fmt e.blk (32 * m / Claim.bytesOfBlock e.fmt e.blk + j) =
                    p.1.pay / 2 ^ (8 * Claim.scaleSize e.fmt * j) % 2 ^ (8 * Claim.scaleSize e.fmt)) ∧
              (peek = false → r.cmask = 0 → r.pfill = 0 → k = ps.length → (∃ p ∈ ps, p.2.last = true) →
                (qOf (coreOf t (myCore s)) q.val).tagset = false)))))) ∧
  (∀ (s : State) (q : Fin 16) (d : RegIx),
    let c := coreOf s (myCore s)
    let r := qOf c q.val
    let ts := (Claim.queueTokens c q.val 0).filter fun t => t.kind == 0
    r.pfill < 64 → ∃ v, exec (.qstat q d) s = .next (Claim.wroteX s d (BitVec.ofNat 64 v)) ∧ v < 2 ^ 46 ∧
      ((∃ j ∈ qReaders r, v % 2 ^ 9 = qOcc r j) ∨ qReaders r = [] ∧ v % 2 ^ 9 = 0) ∧ (∀ j ∈ qReaders r, qOcc r j ≤ v % 2 ^ 9) ∧
      v / 2 ^ 9 % 2 ^ 6 = r.pfill ∧ (v.testBit 15 = r.tagset) ∧ v / 2 ^ 16 % 2 ^ 8 = r.qtag.toNat ∧ v / 2 ^ 24 % 2 ^ 3 = r.mark.toNat ∧
      (v.testBit 27 = r.owned) ∧ (v.testBit 28 = r.swin) ∧ (v.testBit 29 = r.swout) ∧ v / 2 ^ 30 % 4 = 0 ∧
      v / 2 ^ 32 = if ts.any (fun t => t.last) then (((ts.take (ts.findIdx (fun t => t.last) + 1)).map fun t => t.bytes).sum) else 0)

/-- SQCMD, SQWAIT and the streams of the memory ports (spec/10 R199 to R202; spec/16 R337, R338): checks, waits, the start, and a
transfer of one piece. Which ends are logged is log entry 27. -/
def Obligations.SoftwareStreams : Prop :=
  (∀ (s : State) (p : Fin 16) (a : RegIx),
    let i : Instr := .sqcmd p a
    let va := (rdX s a).toNat
    (va % 64 ≠ 0 → exec i s = .next (Claim.raised s 4 (rdX s a))) ∧
    (va % 64 = 0 → ∀ s1 r, readRecord s va 64 24 = .ok (s1, r) →
      let c := coreOf s1 (myCore s1)
      let st := (aget {} c.streams p.val).state
      (¬ Claim.descriptorValid r → exec i s = .next (Claim.raised s1 26 (rdX s a))) ∧
      (Claim.descriptorValid r → (qOf c (r / 2 ^ 233 % 16)).owned = true → exec i s = .next (Claim.raised s1 28 (wordOf i))) ∧
      (Claim.descriptorValid r → (qOf c (r / 2 ^ 233 % 16)).owned = false →
        let pt := patOf (descWords r)
        let lo := (patRange pt).1
        let n := (patRange pt).2 - lo
        -- an earlier stream or armed run of the hart to the same bytes that has not started
        let early := pendMeets s1 (myCore s1) (mySlot s1) lo n pt.store || armMeets s1 (myCore s1) (mySlot s1) lo n pt.store
        (st = 1 ∨ st = 2 ∨ early = true → exec i s = .next (Claim.waits s1 i)) ∧
        (st ≠ 1 → st ≠ 2 → early = false → ∃ d, (∀ k < 8, (aget 0 d k).toNat = r / 2 ^ (64 * k) % 2 ^ 64) ∧
          exec i s = .next (Claim.advanced (drainWc (setStream s1 (myCore s1) p.val
            { desc := d, state := 1, ctx := some (hartCtx s1 s1.cur) }) s1.cur)))))) ∧
  (∀ (s : State) (p : Fin 16) (d : RegIx),
    let r := aget {} (coreOf s (myCore s)).streams p.val
    (r.state = 1 ∨ r.state = 2 → exec (.sqwait p d) s = .next (Claim.waits s (.sqwait p d))) ∧
    (r.state ≠ 1 → r.state ≠ 2 → exec (.sqwait p d) s = .next (Claim.wroteX s d
      (BitVec.ofNat 64 (r.state + r.endc * 2 ^ 2 + r.cause * 2 ^ 4 + r.done % 2 ^ 32 * 2 ^ 32))))) ∧
  (∀ (s : State) (core : Nat) (p : Fin 16),
    let c := coreOf s core
    let r := aget {} c.streams p.val
    let pt := patOf r.desc
    let lo := (patRange pt).1
    let hi := (patRange pt).2
    let free := ∀ x, r.ctx = some x → aritBlocks s core x.slot lo (hi - lo) pt.store = false ∧ redMeets s core x.slot lo (hi - lo) = false
    let named := ∃ kv ∈ c.slots, kv.2.state ≠ .idle ∧ (2, p.val) ∈ kv.2.nodes
    (r.ctx = none ∨ r.state ≠ 1 ∨ named ∨ 32 ≤ c.arit.length ∨ ¬ free → exec (.streamStart core p) s = .next s) ∧
    (∀ x, r.ctx = some x → r.state = 1 → ¬ named → c.arit.length < 32 → free →
      ∃ t k, exec (.streamStart core p) s = .next t ∧ aget? c.arit k = none ∧
        aget? (coreOf t core).streams p.val = some { r with state := 2 } ∧
        (coreOf t core).arit = aput c.arit k
          ⟨pt.store, !pt.store, p.val, x.slot, aritVa s core lo, aritVa s core lo + (hi - lo)⟩ ∧
        (pt.store = false → (qOf (coreOf t core) pt.cq).tagset = true ∧
          (qOf (coreOf t core) pt.cq).qtag = BitVec.ofNat 8 (tagOf pt.f pt.blk)) ∧ t.mem = s.mem)) ∧
  (∀ (s : State) (core : Nat) (p : Fin 16),
    let r := aget {} (coreOf s core).streams p.val
    let pt := patOf r.desc
    let q := qOf (coreOf s core) pt.cq
    let pos : Pos := ⟨r.i0, r.i1, r.i2, r.off⟩
    let need := if tokScaled pt.f pt.blk then 2 else 1
    (r.ctx = none ∨ r.state ≠ 2 ∨ r.park ≠ none → exec (.streamTransfer core p) s = .next s) ∧
    (∀ x, r.ctx = some x → r.state = 2 → r.park = none →
      (r.fatal = true → ∃ t, exec (.streamTransfer core p) s = .next t ∧
        aget? (coreOf t core).streams p.val = some { r with state := 3, endc := 2, cause := 31, park := none, fatal := false }) ∧
      (r.fatal = false → pt.store = false →
        (qRoom q < need → exec (.streamTransfer core p) s = .next s) ∧
        (need ≤ qRoom q → ∀ s1 k n, loadPiece s x pt pos q.pfill = .ok (s1, k, n) →
          let pos2 := patStep pt pos n
          ∃ t, exec (.streamTransfer core p) s = .next t ∧ t.mem = s1.mem ∧
            (∀ i < 16, i ≠ pt.cq → qOf (coreOf t core) i = qOf (coreOf s1 core) i) ∧
            aget? (coreOf t core).streams p.val = some
              (let r2 : Stream := { r with i0 := pos2.i0, i1 := pos2.i1, i2 := pos2.i2, off := pos2.off, done := r.done + n }
              if pt.cnt2 ≤ pos2.i2 then { r2 with state := 3, endc := 0, cause := 0 } else r2) ∧
            (tokScaled pt.f pt.blk = false → 0 < k.n → q.pfill + k.n ≤ 32 → Claim.queueSane (qOf (coreOf s1 core) pt.cq) →
              qOf (coreOf s1 core) pt.cq = q → ∀ j ∈ qReaders q, ∃ ts,
                Claim.queueTokens (coreOf t core) pt.cq j = Claim.queueTokens (coreOf s1 core) pt.cq j ++ ts ∧
                Claim.tokenBytes 0 ts ++ Claim.pendingBytes (coreOf t core) pt.cq pt.f pt.blk =
                  Claim.pendingBytes (coreOf s1 core) pt.cq pt.f pt.blk ++ Claim.bytesOf k.n k.data))) ∧
      (r.fatal = false → pt.store = true → qOcc q 0 = 0 → ∃ t, exec (.streamTransfer core p) s = .next t ∧ t.mem = s.mem ∧
        aget? (coreOf t core).streams p.val = some r) ∧
      (r.fatal = false → pt.store = true → qOcc q 0 ≠ 0 → ∀ tok, tok = tokAt (coreOf s core) pt.cq (rpOf q 0) → tok.kind = 0 →
        (q.qtag.toNat ≠ tagOf pt.f pt.blk → ∃ t, exec (.streamTransfer core p) s = .next t ∧ t.mem = s.mem ∧
          aget? (coreOf t core).streams p.val = some { r with state := 3, endc := 2, cause := 25, park := none, fatal := false }) ∧
        (q.qtag.toNat = tagOf pt.f pt.blk → tokScaled pt.f pt.blk = false → ∀ run,
          storeUnits (tok.bytes * 8 / fmtSew pt.f + 1) (setCore s core (coreOf s core)) x pt pos tok.pay 0
            (poiAt (coreOf s core) pt.cq (rpOf q 0)) 0 (tok.bytes * 8 / fmtSew pt.f) 0 = run →
          run.stop = none → run.bound = false → run.n * fmtSew pt.f / 8 = tok.bytes → rpOf q 0 < 512 → q.tail < 512 →
          ∃ t, exec (.streamTransfer core p) s = .next t ∧ t.mem = run.s.mem ∧
            Claim.queueTokens (coreOf t core) pt.cq 0 = (Claim.queueTokens (coreOf s core) pt.cq 0).tail ∧
            aget? (coreOf t core).streams p.val = some
              (let r2 : Stream := { r with i0 := run.x.i0, i1 := run.x.i1, i2 := run.x.i2, off := run.x.off, done := r.done + run.n }
              if tok.last then { r2 with state := 3, endc := 0, cause := 0 } else r2)))))

/-- CHCFG, CHAIM, CHWAIT, CHST, CHDRN and CHBRK (spec/08 R151, R156 to R161, R170; spec/15 R292 to R300): who may name a slot, the waits,
the checks, and the slot afterwards. Of CHDRN and CHBRK the statement is about a slot whose group is its own core. How an edge names its
software end is log entry 56, the order of the checks log entries 28 and 32. -/
def Obligations.ChainSlots : Prop :=
  (∀ (s : State) (i : Instr) (n : Fin 4), Claim.chainForm i = some n → ¬ Claim.mayName s n.val →
    exec i s = .next (Claim.raised s 28 (wordOf i))) ∧
  (∀ (s : State) (n : Fin 4) (a : RegIx), Claim.mayName s n.val →
    let i : Instr := .chcfg n a
    let core := myCore s
    let sl := Claim.slotAt s core n.val
    let va := (rdX s a).toNat
    (Claim.runs sl → exec i s = .next (Claim.waits s i)) ∧
    (¬ Claim.runs sl → va = 0 → sl.owned = false → exec i s = .next (Claim.raised s 28 (wordOf i))) ∧
    (¬ Claim.runs sl → va = 0 → sl.owned = true → ∃ t, exec i s = .next t ∧ Claim.onlyPc s t ∧ t.mem = s.mem ∧
      Claim.slotAt t core n.val = {} ∧ Claim.discarded s t core n.val ∧
      ∀ e ∈ sl.edges, e.2.2.2.2 < 16 → qOf (coreOf t core) e.2.2.2.2 = {}) ∧
    (¬ Claim.runs sl → va ≠ 0 → sl.owned = false → Claim.ownsTwo s → exec i s = .next (Claim.raised s 28 (wordOf i))) ∧
    (¬ Claim.runs sl → va ≠ 0 → (sl.owned = true ∨ ¬ Claim.ownsTwo s) →
      (va % 32 ≠ 0 ∨ ownLoc core va 32 = none → exec i s = .next (Claim.raised s 26 (rdX s a))) ∧
      (va % 32 = 0 → ∀ l, ownLoc core va 32 = some l →
        let size := homeRead s (locAdd l 16) 4
        (ownLoc core va size = none → exec i s = .next (Claim.raised s 26 (rdX s a))) ∧
        (ownLoc core va size ≠ none → locPoisoned s l size = true → exec i s = .next (Claim.raised s 51 (rdX s a))) ∧
        (ownLoc core va size ≠ none → locPoisoned s l size = false →
          (rdDesc (coreOf s core) core n.val (locReader s l) = none → exec i s = .next (Claim.raised s 26 (rdX s a))) ∧
          (∀ d, rdDesc (coreOf s core) core n.val (locReader s l) = some d →
            let busy := ∃ x ∈ d.nodes, x.1 = 2 ∧ ((aget {} (coreOf s core).streams x.2).state = 1 ∨ (aget {} (coreOf s core).streams x.2).state = 2)
            (busy → exec i s = .next (Claim.waits s i)) ∧
            (¬ busy → ∃ t, exec i s = .next t ∧ Claim.onlyPc s t ∧ t.mem = s.mem ∧
              Claim.slotAt t core n.val = { state := .configured, owned := true, owner := mySlot s, desc := rdX s a, hdr := d.hdr,
                                            nodes := d.nodes, edges := d.edges, stages := d.stages } ∧
              (∀ m, m ≠ n.val → Claim.slotAt t core m = Claim.slotAt s core m) ∧
              ∀ e ∈ d.edges, e.2.2.2.2 < 16 → qOf (coreOf t core) e.2.2.2.2 =
                let soft := d.nodes.length ≤ 31
                let fed := soft ∧ ∃ x ∈ d.edges, x.2.2.2.2 = e.2.2.2.2 ∧ x.1 = 31
                let drained := soft ∧ ∃ x ∈ d.edges, x.2.2.2.2 = e.2.2.2.2 ∧ x.2.2.1 = 31
                let takers := d.edges.filter fun x => x.2.2.2.2 == e.2.2.2.2 && !(decide soft && x.2.2.1 == 31)
                { owned := true, slot := n.val, swin := decide fed, swout := decide drained,
                  cmask := BitVec.ofNat 4 (2 ^ takers.length - 1) })))))) ∧
  (∀ (s : State) (n : Fin 4) (a : RegIx), Claim.mayName s n.val →
    let i : Instr := .chaim n a
    let core := myCore s
    let sl := Claim.slotAt s core n.val
    let va := (rdX s a).toNat
    let moving := sl.state = .running ∨ sl.state = .draining
    (sl.state = .idle ∨ sl.state = .faulted → exec i s = .next (Claim.raised s 28 (wordOf i))) ∧
    (sl.state = .broken ∨ sl.state = .temporal ∨ moving ∧ sl.pending = true → exec i s = .next (Claim.waits s i)) ∧
    (sl.state ∈ [ChState.configured, .bound, .detached] ∨ moving ∧ sl.pending = false →
      (va % 32 ≠ 0 → exec i s = .next (Claim.raised s 26 (rdX s a))) ∧
      (va % 32 = 0 → ∀ s1 r, readRecord s va (32 * sl.nodes.length) 24 = .ok (s1, r) →
        let es := aimWords sl.nodes.length r
        (aimBlockOk s1 core sl es = false → exec i s = .next (Claim.raised s1 26 (rdX s a))) ∧
        (aimBlockOk s1 core sl es = true → ∃ t, exec i s = .next t ∧ Claim.onlyPc s1 t ∧ t.mem = s1.mem ∧
          (∀ m, m ≠ n.val → Claim.slotAt t core m = Claim.slotAt s1 core m) ∧
          let g := (sl.aimgen + 1) % 256
          (moving → Claim.slotAt t core n.val = { sl with pend := es, pending := true, aimgen := g }) ∧
          (sl.state = .configured ∨ sl.state = .detached →
            Claim.slotAt t core n.val = { sl with active := es, pend := [], pending := false, aimed := true, latch := [], aimgen := g } ∧
            ∀ e ∈ sl.edges, e.2.2.2.2 < 16 → (∀ j < 4, qOcc (qOf (coreOf t core) e.2.2.2.2) j = qOcc {} j) ∧
              (qOf (coreOf t core) e.2.2.2.2).pfill = 0) ∧
          (sl.state = .bound → ∃ l, Claim.slotAt t core n.val =
              { sl with active := es, pend := [], pending := false, aimed := true, latch := l, aimgen := g } ∧
            (∀ m, m ≠ sl.node → aget {} l m = aget {} sl.latch m) ∧
            aget {} l sl.node = { aget {} sl.latch sl.node with i0 := 0, i1 := 0, i2 := 0, off := 0, done := false }))))) ∧
  (∀ (s : State) (n : Fin 4) (d : RegIx), Claim.mayName s n.val →
    let sl := Claim.slotAt s (myCore s) n.val
    (Claim.runs sl → exec (.chwait n d) s = .next (Claim.waits s (.chwait n d))) ∧
    (¬ Claim.runs sl → exec (.chwait n d) s = .next (Claim.wroteX s d (Claim.statusWord sl))) ∧
    exec (.chst n d) s = .next (Claim.wroteX s d (Claim.statusWord sl))) ∧
  (∀ (s : State) (n : Fin 4), Claim.mayName s n.val →
    let core := myCore s
    let sl := Claim.slotAt s core n.val
    (sl.state ≠ .running → exec (.chdrn n) s = .next (Claim.passed s)) ∧
    (sl.state = .running → Claim.alone sl → ∃ t l, exec (.chdrn n) s = .next t ∧ Claim.onlyPc s t ∧ t.mem = s.mem ∧
      (∀ m, m ≠ n.val → Claim.slotAt t core m = Claim.slotAt s core m) ∧
      Claim.slotAt t core n.val = { sl with state := .draining, latch := l } ∧
      ∀ m, (Claim.sourceNode sl m ∧ (aget {} sl.latch m).done = false ∧ (aget {} sl.latch m).stop = 0 →
          aget {} l m = { aget {} sl.latch m with owe := 2 }) ∧
        (¬ (Claim.sourceNode sl m ∧ (aget {} sl.latch m).done = false ∧ (aget {} sl.latch m).stop = 0) →
          aget {} l m = aget {} sl.latch m))) ∧
  (∀ (s : State) (n : Fin 4), Claim.mayName s n.val →
    let core := myCore s
    let sl := Claim.slotAt s core n.val
    let parked := ∃ m < sl.nodes.length, (aget {} sl.latch m).park ≠ none
    (sl.state ≠ .running → sl.state ≠ .draining → exec (.chbrk n) s = .next (Claim.passed s)) ∧
    (sl.state = .running ∨ sl.state = .draining → Claim.alone sl → ∃ t, exec (.chbrk n) s = .next t ∧ t.mem = s.mem ∧
      (me t).pc = (me s).pc + 4 ∧ (me t).x = (me s).x ∧ (∀ m, m ≠ n.val → Claim.slotAt t core m = Claim.slotAt s core m) ∧
      let new := Claim.slotAt t core n.val
      (sl.afterDrain ≠ 8 → parked → new.state = .broken ∧ new.leave = 0 ∧ new.asked = false ∧ new.latch = sl.latch ∧ new.active = sl.active) ∧
      (sl.afterDrain ≠ 8 → ¬ parked → new.state = .temporal ∧ new.active = sl.active ∧ new.frozen = [] ∧ new.bell = false ∧
        ∀ m, (aget {} new.latch m).stop = 0 ∧ (aget {} new.latch m).owe = 0 ∧ (aget {} new.latch m).gen = (aget {} sl.latch m).gen ∧
          (aget {} new.latch m).i0 = (aget {} sl.latch m).i0) ∧
      (sl.afterDrain = 8 → new.state = .faulted ∧ new.fin = true ∧ new.node = sl.node ∧ new.cause = sl.cause ∧ new.leave = 0)))

/-- CHRUN, CHSAV and CHLD (spec/07 R137; spec/08 R162, R163, R168, R176; spec/15 R297 to R299): the checks, the waits, the start of a run,
and a slot saved and loaded. The order of the checks is log entries 28 and 32; that CHLD takes stage records from DESC and that an area's
queue tokens carry no poison is the model's choice (log entries 29, 36). -/
def Obligations.ChainRunsAndImages : Prop :=
  (∀ (s : State) (n : Fin 4) (a : RegIx), Claim.mayName s n.val →
    let i : Instr := .chrun n a
    let core := myCore s
    let sl := Claim.slotAt s core n.val
    let arming := (sl.state = .running ∨ sl.state = .draining) ∧ sl.pending = true ∧ sl.arm = none
    let holds := (∃ x ∈ sl.nodes, x.1 = 1) ∧ (coreOf s core).engine ≠ none
    let busy := ∃ x ∈ sl.nodes, x.1 = 0 ∧ regsBusy s (8 * core + x.2) = true
    (2 ≤ (rdX s a).toNat ∨ sl.state = .idle ∨ sl.state = .faulted ∨ sl.state = .configured ∧ sl.aimed = false →
      exec i s = .next (Claim.raised s 28 (wordOf i))) ∧
    ((rdX s a).toNat < 2 → sl.state ≠ .idle → sl.state ≠ .faulted → (sl.state = .configured → sl.aimed = true) →
      (¬ arming → Claim.runs sl ∨ holds ∨ busy → exec i s = .next (Claim.waits s i)) ∧
      (arming ∨ ¬ Claim.runs sl ∧ ¬ holds ∧ ¬ busy → ∀ es, (arming → es = sl.pend) → (¬ arming → es = sl.active) →
        ∀ s1 pats, readPats s sl es = .ok (s1, pats) →
          let h := me s1
          let plan := runPlan s1 core n.val sl es pats h.xc.rm.toNat h.xc.srseed.toNat
          (∀ c, plan = .error c → exec i s = .next (Claim.raised s1 c (if c = 26 then sl.desc else wordOf i))) ∧
          (∀ p, plan = .ok p → Claim.portArmed s1 core (mySlot s) pats → exec i s = .next (Claim.waits s1 i)) ∧
          (∀ p, plan = .ok p → ¬ Claim.portArmed s1 core (mySlot s) pats →
            let after (t : State) : Prop := (me t).pc = (me s).pc + 4 ∧ (me t).x = (me s).x ∧ (me t).wc = [] ∧
              (me t).xc = { (me s).xc with srseed := BitVec.ofNat 64 p.seed } ∧ t.mem = (drainWc s1 s.cur).mem ∧
              (∀ m, m ≠ n.val → Claim.slotAt t core m = Claim.slotAt s core m)
            (arming → ∃ t cap, exec i s = .next t ∧ after t ∧ Claim.slotAt t core n.val = { sl with arm := some cap } ∧
              cap.runopt = rdX s a ∧ cap.pats = pats ∧ cap.chto = (me s).xc.chto.toNat ∧ cap.mcto = (me s).xc.mcto.toNat ∧ cap.ctx = hartCtx s1 s1.cur) ∧
            (¬ arming → Claim.portBlockedBy s1 core (mySlot s) pats ∨ 32 - (coreOf s1 core).arit.length < pats.length →
              exec i s = .next (Claim.waits s1 i)) ∧
            (¬ arming → ¬ Claim.portBlockedBy s1 core (mySlot s) pats → pats.length ≤ 32 - (coreOf s1 core).arit.length → p.need = 0 →
              ((∃ x ∈ sl.nodes, x.1 = 2) → pats ≠ []) → rdX s a = 0 → (aget 0 sl.hdr 1).toNat.testBit 8 = false →
              ∃ t, exec i s = .next t ∧ after t ∧
                let new := Claim.slotAt t core n.val
                new.state = .running ∧ new.fin = false ∧ new.tmp = false ∧ new.stopped = false ∧ new.cause = 0 ∧ new.flags = 0 ∧
                new.bell = false ∧ new.runopt = 0 ∧ new.chto = (me s).xc.chto.toNat ∧ new.mcto = (me s).xc.mcto.toNat ∧
                new.vrm = (me s).xc.rm.toNat ∧ new.ctx = some (hartCtx s1 s1.cur) ∧ new.leave = 0 ∧ new.need = 0 ∧
                new.active = sl.active ∧ new.nodes = sl.nodes ∧ new.edges = sl.edges ∧ new.stages = sl.stages ∧ new.pats = pats ∧
                (∀ m < sl.nodes.length, let l := aget {} new.latch m
                  l.stop = 0 ∧ l.owe = 0 ∧ l.newAim = false ∧ l.detached = false ∧ l.park = none ∧ l.gen = aget 0 p.seeds m ∧
                    l.i0 = (aget {} sl.latch m).i0 ∧ l.done = (aget {} sl.latch m).done) ∧
                ∀ q t0, aget? p.tags q = some t0 → (p.tags.filter fun kv => kv.1 == q).length = 1 →
                  (qOf (coreOf t core) q).tagset = true ∧ (qOf (coreOf t core) q).qtag = BitVec.ofNat 8 t0))))) ∧
  (∀ (s : State) (n : Fin 4) (a : RegIx), Claim.mayName s n.val →
    let i : Instr := .chsav n a
    let sl := Claim.slotAt s (myCore s) n.val
    let va := (rdX s a).toNat
    (Claim.runs sl → exec i s = .next (Claim.waits s i)) ∧
    (¬ Claim.runs sl → va % 4096 ≠ 0 → exec i s = .next (Claim.raised s 6 (rdX s a))) ∧
    (¬ Claim.runs sl → va % 4096 = 0 → sl.state ≠ .faulted ∨ sl.badLatch = [] → ∀ s1,
      storeWords s va (chArea (coreOf s (myCore s)) sl) = .ok s1 → exec i s = .next (Claim.advanced s1))) ∧
  (∀ (s : State) (n : Fin 4) (a : RegIx), Claim.mayName s n.val →
    let i : Instr := .chld n a
    let core := myCore s
    let old := Claim.slotAt s core n.val
    let va := (rdX s a).toNat
    (Claim.runs old → exec i s = .next (Claim.waits s i)) ∧
    (old.state ∈ [ChState.bound, .detached, .faulted] ∨ (old.state = .idle ∨ old.state = .configured) ∧ old.owned = false ∧ Claim.ownsTwo s →
      exec i s = .next (Claim.raised s 28 (wordOf i))) ∧
    (old.state = .idle ∨ old.state = .configured → old.owned = true ∨ ¬ Claim.ownsTwo s →
      (va % 4096 ≠ 0 → exec i s = .next (Claim.raised s 4 (rdX s a))) ∧
      (va % 4096 = 0 → ∀ s1 r, readRecord s va 0x1040 24 = .ok (s1, r) →
        let w (k : Nat) : Nat := r / 2 ^ (64 * k) % 2 ^ 64
        -- the slot of the area; the stage records are those at DESC
        let at_ := slotFrom w fun j => w (512 + j)
        let sl := { at_ with stages := ((readStages s1 core at_).map (·.1)).getD at_.stages }
        (Claim.runs sl → exec i s = .next (Claim.raised s1 26 (rdX s a))) ∧
        (sl.state = .idle → ∃ t, exec i s = .next t ∧ Claim.onlyPc s1 t ∧ t.mem = s1.mem ∧
          Claim.slotAt t core n.val = { owned := true, owner := mySlot s }) ∧
        (¬ Claim.runs sl → sl.state ≠ .idle → chldOk s1 core n.val sl w = false → exec i s = .next (Claim.raised s1 26 (rdX s a))) ∧
        (¬ Claim.runs sl → sl.state ≠ .idle → chldOk s1 core n.val sl w = true →
          (∀ x ∈ sl.nodes, x.1 = 2 → (aget {} (coreOf s1 core).streams x.2).state ≠ 1 ∧ (aget {} (coreOf s1 core).streams x.2).state ≠ 2) →
          sl.edges = [] → ∃ t, exec i s = .next t ∧ Claim.onlyPc s1 t ∧ t.mem = s1.mem ∧
            Claim.slotAt t core n.val = { sl with owned := true, owner := mySlot s }) ∧
        (¬ Claim.runs sl → sl.state ≠ .idle → chldOk s1 core n.val sl w = true →
          (∀ x ∈ sl.nodes, x.1 = 2 → (aget {} (coreOf s1 core).streams x.2).state ≠ 1 ∧ (aget {} (coreOf s1 core).streams x.2).state ≠ 2) →
          ∀ q, slotQs sl = [q] → ∀ s2 rq, readRecord s1 (va + 0x1040) 0x2110 24 = .ok (s2, rq) →
            let wq (k : Nat) : Nat := rq / 2 ^ (64 * k) % 2 ^ 64
            ∃ t, exec i s = .next t ∧ Claim.onlyPc s2 t ∧ t.mem = s2.mem ∧
              Claim.slotAt t core n.val = { sl with owned := true, owner := mySlot s } ∧
              let r := qOf (coreOf t core) q
              r.owned = true ∧ r.slot = n.val ∧ r.tail = wq 0 % 2 ^ 9 ∧ (∀ j < 4, rpOf r j = wq 0 / 2 ^ (9 + 9 * j) % 2 ^ 9) ∧
              r.pfill = wq 0 / 2 ^ 53 % 2 ^ 6 ∧ r.qtag.toNat = wq 1 % 2 ^ 8 ∧ (r.tagset = (wq 1).testBit 8) ∧
              (r.swin = (wq 1).testBit 15) ∧ (r.swout = (wq 1).testBit 16) ∧
              ∀ k < 256, (tokAt (coreOf t core) q k).side = wq (2 + k / 8) / 2 ^ (8 * (k % 8)) % 2 ^ 8 ∧ poiAt (coreOf t core) q k = 0 ∧
                ∀ b < 4, (tokAt (coreOf t core) q k).pay / 2 ^ (64 * b) % 2 ^ 64 = wq (34 + 4 * k + b)))))

/-- What a firing of each kind of node does (spec/07 R138; spec/08 R153 to R155, R157, R163, R169, R172; spec/13 R261; spec/19 R384, R385),
and that without its conditions nothing changes. The model's own readings are log entries 29 (when a stage reads its words), 31 (details of
single nodes), 55 and 57 (draws). -/
def Obligations.ChainFirings : Prop :=
  (∀ (s : State) (i : Instr) (core k n kind : Nat), Claim.firingForm i = some (core, k, n, kind) →
    let sl := Claim.slotAt s core k
    let l := aget {} sl.latch n
    (¬ Claim.spatial s core k ∨ Claim.kindAt sl n ≠ kind ∨ (kind ≠ 7 ∧ ¬ Claim.freeNode sl n) ∨ l.owe = 4 → exec i s = .next s) ∧
    -- before a bell or a checkpoint a source fires on only while the rows under way lack data that nothing else can make
    (l.owe ≠ 0 → groupClear s core k = true ∨ Claim.groupFires s core k → exec i s = .next s) ∧
    -- a run that has not entered its ports waits for its hart's earlier accesses to the same bytes
    (sl.held = true → (∀ m < sl.nodes.length, Claim.kindAt sl m = 2 → portPat sl m ≠ none) →
      ∀ x, sl.ctx = some x → Claim.portBlockedBy s core x.slot sl.pats ∨ 32 - (coreOf s core).arit.length < sl.pats.length →
        exec i s = .next s) ∧
    -- a restored run reads the pattern of a port again before anything fires
    (Claim.spatial s core k → Claim.kindAt sl n = kind → Claim.openNode sl n →
      ∀ m x s1 d, m < sl.nodes.length → Claim.kindAt sl m = 2 → portPat sl m = none →
        (∀ a < m, Claim.kindAt sl a = 2 → portPat sl a ≠ none) → sl.ctx = some x →
        ((aget {} sl.latch m).park ≠ none → exec i s = .next s) ∧
        ((aget {} sl.latch m).park = none → engPat s x (Claim.aimWord sl m 0) = .ok (s1, d) → descOk d = true →
          (patOf d).store = decide (inputsOf sl m ≠ []) →
          ∃ t, exec i s = .next t ∧ t.mem = s1.mem ∧ Claim.slotAt t core k =
            (let s2 := Claim.slotAt s1 core k
            { s2 with pats := s2.pats ++ [((sl.nodes.getD m (15, 0)).2, d)] })))) ∧
  -- a filter: the elements of its head token whose mask bits are set
  (∀ (s : State) (core : Nat) (k : Fin 4) (n : Nat),
    let c := coreOf s core
    let sl := Claim.slotAt s core k.val
    let l := aget {} sl.latch n
    Claim.spatial s core k.val → Claim.entered sl → Claim.kindAt sl n = 5 → Claim.openNode sl n →
    ∀ qd jd qm jm qo f x xs m ms, inputAt sl n 0 = some (qd, jd) → inputAt sl n 1 = some (qm, jm) → outputsOf sl n = [qo] →
      qd ≠ qm → qo ≠ qd → qo ≠ qm → Fmt.ofCode (Claim.aimWord sl n 0 % 32) = some f → f ∉ Claim.pairFormats →
      Claim.queueTokens c qd jd = x :: xs → Claim.queueTokens c qm jm = m :: ms → Claim.plainInput c qd jd → Claim.plainInput c qm jm →
      let cnt := x.bytes * 8 / fmtSew f
      0 < cnt → l.lasts.toNat.testBit 1 = false → l.used + cnt ≤ m.bytes * 8 → Claim.takes c qo ((cnt * fmtSew f + 7) / 8) →
      let vs := ((List.range cnt).filter fun i => m.pay.testBit (l.used + i)).map fun i => elemOf (fmtSew f) x.pay i
      let spent := l.used + cnt = m.bytes * 8 ∨ x.last = true
      (Claim.tagIs c qd (tagOf f 0) → Claim.healthy c sl n →
      ∃ t, exec (.filterFiring core k n) s = .next t ∧ t.mem = s.mem ∧
        let d := coreOf t core
        let l2 := aget {} (Claim.slotAt t core k.val).latch n
        Claim.queueTokens d qd jd = xs ∧ (spent → Claim.queueTokens d qm jm = ms ∧ l2.used = 0) ∧
        (¬ spent → Claim.queueTokens d qm jm = m :: ms ∧ l2.used = l.used + cnt) ∧ l2.done = x.last ∧ l2.i0 = l.i0 + cnt ∧
        Claim.appended c d qo ((vs.length * fmtSew f + 7) / 8) (Claim.packed (fmtSew f) vs) x.last) ∧
      -- a tag that CHRUN could not know and a poisoned token end the run before their use
      (Claim.alone sl → (qOf c qd).tagset = true → qd < 16 → (qOf c qd).qtag.toNat ≠ tagOf f 0 →
        ∃ t fz, exec (.filterFiring core k n) s = .next t ∧ t.mem = s.mem ∧ Claim.slotAt t core k.val = Claim.failing sl fz n 25) ∧
      (Claim.alone sl → Claim.tagIs c qd (tagOf f 0) → poiAt c qd (rpOf (qOf c qd) jd) ≠ 0 →
        ∃ t fz, exec (.filterFiring core k n) s = .next t ∧ t.mem = s.mem ∧ Claim.slotAt t core k.val = Claim.failing sl fz n 51)) ∧
  -- a sparse header without TREE: the positions of the set bits of the next 64
  (∀ (s : State) (core : Nat) (k : Fin 4) (n : Nat),
    let c := coreOf s core
    let sl := Claim.slotAt s core k.val
    let l := aget {} sl.latch n
    Claim.spatial s core k.val → Claim.entered sl → Claim.kindAt sl n = 4 → Claim.openNode sl n → Claim.healthy c sl n →
    ∀ p q j qo x xs, inputsOf sl n = [(p, q, j)] → p < 2 → outputsOf sl n = [qo] → qo ≠ q → (Claim.aimWord sl n 0).testBit 1 = false →
      Claim.queueTokens c q j = x :: xs → Claim.plainInput c q j → l.lasts.toNat.testBit p = false → Claim.takes c qo 256 →
      ∃ t, exec (.sparseHeaderFiring core k n) s = .next t ∧ t.mem = s.mem ∧
        let d := coreOf t core
        let l2 := aget {} (Claim.slotAt t core k.val).latch n
        (l.off < 8 * x.bytes →
          let vs := ((List.range (min 64 (8 * x.bytes - l.off))).filter fun b => x.pay.testBit (l.off + b)).map fun b => l.i0 + l.off + b
          Claim.queueTokens d q j = x :: xs ∧ l2 = { l with off := l.off + 64 } ∧
            Claim.appended c d qo (4 * vs.length) (Claim.packed 32 vs) false) ∧
        (8 * x.bytes ≤ l.off → Claim.queueTokens d q j = xs ∧ l2.off = 0 ∧ l2.i0 = l.i0 + 8 * x.bytes ∧ l2.done = x.last ∧
          Claim.appended c d qo 0 0 x.last)) ∧
  -- a lane link: its head token goes to the facing node's queues, with its poison
  (∀ (s : State) (core : Nat) (k : Fin 4) (n : Nat),
    let c := coreOf s core
    let sl := Claim.slotAt s core k.val
    let l := aget {} sl.latch n
    Claim.spatial s core k.val → Claim.entered sl → Claim.kindAt sl n = 7 → l.park = none → l.stop = 0 → l.owe = 0 → n ∉ sl.frozen →
    ∀ q j o m u x xs, inputAt sl n 0 = some (q, j) → llFace s core k.val n = some (o, m) → o ≠ core →
      let peer := Claim.slotAt s o k.val
      (peer.state = .running ∨ peer.state = .draining) → m ∉ peer.frozen → (aget {} peer.latch m).stop = 0 → outputsOf peer m = [u] →
      Claim.queueSane (qOf (coreOf s o) u) → 1 ≤ qRoom (qOf (coreOf s o) u) →
      (qOf c q).tail < 512 → rpOf (qOf c q) j < 512 → Claim.queueTokens c q j = x :: xs →
      ∃ t, exec (.laneLinkTransfer core k n) s = .next t ∧ t.mem = s.mem ∧ Claim.queueTokens (coreOf t core) q j = xs ∧
        (qOf (coreOf t o) u).tagset = true ∧
        poiAt (coreOf t o) u (qOf (coreOf s o) u).tail = poiAt c q (rpOf (qOf c q) j) ∧
        ∀ i ∈ qReaders (qOf (coreOf s o) u), Claim.queueTokens (coreOf t o) u i = Claim.queueTokens (coreOf s o) u i ++ [x]) ∧
  -- a memory port: a load emits the elements read, a store takes the token that it has written
  (∀ (s : State) (core : Nat) (k : Fin 4) (n : Nat),
    let c := coreOf s core
    let sl := Claim.slotAt s core k.val
    let l := aget {} sl.latch n
    let pos : Pos := ⟨l.i0, l.i1, l.i2, l.off⟩
    Claim.spatial s core k.val → Claim.entered sl → Claim.kindAt sl n = 2 → Claim.openNode sl n →
    ∀ x pt, sl.ctx = some x → portPat sl n = some pt → tokScaled pt.f pt.blk = false →
      (pt.store = false → inputsOf sl n = [] → ∀ qo s1 pk m, outputsOf sl n = [qo] →
        loadPiece s x pt pos (qOf c qo).pfill = .ok (s1, pk, m) →
        Claim.takes c qo (loadCount pt pos (qOf c qo).pfill * fmtSew pt.f / 8) → qOf (coreOf s1 core) qo = qOf c qo → 0 < pk.n →
        let pos2 := patStep pt pos m
        ∃ t, exec (.memoryPortFiring core k n) s = .next t ∧ t.mem = s1.mem ∧
          aget {} (Claim.slotAt t core k.val).latch n =
            { l with i0 := pos2.i0, i1 := pos2.i1, i2 := pos2.i2, off := pos2.off, done := decide (pt.cnt2 ≤ pos2.i2) } ∧
          Claim.appended (coreOf s1 core) (coreOf t core) qo pk.n pk.data (decide (pt.cnt2 ≤ pos2.i2))) ∧
      (pt.store = true → ∀ q j y ys run, inputAt sl n 0 = some (q, j) → Claim.queueTokens c q j = y :: ys → Claim.plainInput c q j →
        Claim.tagIs c q (tagOf pt.f pt.blk) →
        (unitBlocked pt pos = true → exec (.memoryPortFiring core k n) s = .next s) ∧
        (unitBlocked pt pos = false → l.used = 0 → 0 < y.bytes * 8 / fmtSew pt.f →
        storeUnits (y.bytes * 8 / fmtSew pt.f + 1) s x pt pos (y.pay % 2 ^ (8 * y.bytes)) 0 (poiAt c q (rpOf (qOf c q) j)) 0
          (y.bytes * 8 / fmtSew pt.f) 0 = run →
        run.stop = none → run.n = y.bytes * 8 / fmtSew pt.f →
        ∃ t, exec (.memoryPortFiring core k n) s = .next t ∧ t.mem = run.s.mem ∧ Claim.queueTokens (coreOf t core) q j = ys ∧
          aget {} (Claim.slotAt t core k.val).latch n =
            { l with i0 := run.x.i0, i1 := run.x.i1, i2 := run.x.i2, off := run.x.off, used := 0, done := y.last }))) ∧
  -- an address generator that gathers: the elements of its next value token; a fault withholds it whole
  (∀ (s : State) (core : Nat) (k : Fin 4) (n : Nat),
    let c := coreOf s core
    let sl := Claim.slotAt s core k.val
    let l := aget {} sl.latch n
    let w1 := Claim.aimWord sl n 1
    let iw := if w1.testBit 6 then 64 else 32
    let s0 := srcFree s core (18 + (sl.nodes.getD n (15, 0)).2)
    Claim.spatial s core k.val → Claim.entered sl → Claim.kindAt sl n = 3 → Claim.openNode sl n → Claim.healthy c sl n → w1.testBit 5 = false →
    ∀ x q j qo f, sl.ctx = some x → inputAt sl n 0 = some (q, j) → outputsOf sl n = [qo] → qo ≠ q →
      Fmt.ofCode (w1 % 32) = some f → f ∉ Claim.pairFormats → fmtSew f ≠ 4 → Claim.tagIs c q (tagOf (intFmt iw) 0) →
      Claim.plainInput c q j → Claim.within c q j iw l.off → Claim.filled c q j iw →
      let ahead := Claim.elementsAhead c q j iw l.off
      let vas := (ahead.take (256 / fmtSew f)).map fun v => (Claim.aimWord sl n 0 + v) % 2 ^ 64
      let nb := fmtSew f / 8
      let some_ := vas ≠ [] ∧ (vas.length = 256 / fmtSew f ∨ Claim.closes c q j)
      (¬ some_ → ahead ≠ [] → exec (.addressGeneratorFiring core k n) s = .next s) ∧
      (some_ → (l.off + vas.length + 256 / iw - 1) / (256 / iw) ≤ aritRoom (coreOf s0 core) → Claim.takes c qo (vas.length * nb) →
        (∀ va ∈ vas, ownBlocks s0 core sl x.slot va nb false = false ∧ redMeets s0 core x.slot va nb = false) →
        (∀ s1 vs, gatherVals s0 x nb vas = (s1, vs, none) →
          ∃ t all, exec (.addressGeneratorFiring core k n) s = .next t ∧ t.mem = s1.mem ∧
            (all = true ↔ ahead.length = vas.length ∧ Claim.closes c q j) ∧
            let l2 := aget {} (Claim.slotAt t core k.val).latch n
            Claim.elementsAhead (coreOf t core) q j iw l2.off = ahead.drop vas.length ∧ l2.i0 = l.i0 + vs.length ∧ l2.done = all ∧
            Claim.appended c (coreOf t core) qo ((vs.length * fmtSew f + 7) / 8) (Claim.packed (fmtSew f) vs) all) ∧
        (∀ s1 s2 vs va kind, gatherVals s0 x nb vas = (s1, vs, some (.page s2 va kind)) →
          ∃ t, exec (.addressGeneratorFiring core k n) s = .next t ∧ Claim.queueTokens (coreOf t core) q j = Claim.queueTokens c q j ∧
            Claim.queueTokens (coreOf t core) qo = Claim.queueTokens c qo ∧
            let l2 := aget {} (Claim.slotAt t core k.val).latch n
            l2.park ≠ none ∧ l2.i0 = l.i0 ∧ l2.off = l.off))) ∧
  -- an address generator that scatters: the elements of its head index token; what a fault leaves unwritten stays
  (∀ (s : State) (core : Nat) (k : Fin 4) (n : Nat),
    let c := coreOf s core
    let sl := Claim.slotAt s core k.val
    let l := aget {} sl.latch n
    let w1 := Claim.aimWord sl n 1
    let iw := if w1.testBit 6 then 64 else 32
    let s0 := srcFree s core (18 + (sl.nodes.getD n (15, 0)).2)
    Claim.spatial s core k.val → Claim.entered sl → Claim.kindAt sl n = 3 → Claim.openNode sl n → Claim.healthy c sl n → w1.testBit 5 = true →
    ∀ x q j qv jv y ys f, sl.ctx = some x → inputAt sl n 0 = some (q, j) → inputAt sl n 1 = some (qv, jv) → qv ≠ q →
      Fmt.ofCode (w1 % 32) = some f → f ∉ Claim.pairFormats → fmtSew f ≠ 4 → Claim.tagIs c q (tagOf (intFmt iw) 0) →
      Claim.tagIs c qv (tagOf f 0) → Claim.queueTokens c q j = y :: ys → Claim.plainInput c q j → Claim.plainInput c qv jv →
      Claim.within c qv jv (fmtSew f) l.used → Claim.filled c qv jv (fmtSew f) → aritRoom (coreOf s0 core) ≠ 0 →
      let nb := fmtSew f / 8
      let vas := (List.range (y.bytes * 8 / iw - l.off)).map fun i => (Claim.aimWord sl n 0 + elemOf iw y.pay (l.off + i)) % 2 ^ 64
      let ahead := Claim.elementsAhead c qv jv (fmtSew f) l.used
      let vs := ahead.take vas.length
      vas ≠ [] → vs.length = vas.length →
      (∀ va ∈ vas, ownBlocks s0 core sl x.slot va nb true = false ∧ redMeets s0 core x.slot va nb = false) →
      (∀ s1, scatterVals s0 x nb (vas.zip vs) = (s1, vas.length, none) →
        ∃ t, exec (.addressGeneratorFiring core k n) s = .next t ∧ t.mem = s1.mem ∧ Claim.queueTokens (coreOf t core) q j = ys ∧
          let l2 := aget {} (Claim.slotAt t core k.val).latch n
          Claim.elementsAhead (coreOf t core) qv jv (fmtSew f) l2.used = ahead.drop vas.length ∧
          l2.i0 = l.i0 + vas.length ∧ l2.off = 0 ∧ l2.done = y.last) ∧
      (∀ s1 s2 m va kind, scatterVals s0 x nb (vas.zip vs) = (s1, m, some (.page s2 va kind)) →
        ∃ t, exec (.addressGeneratorFiring core k n) s = .next t ∧ Claim.queueTokens (coreOf t core) q j = y :: ys ∧
          let l2 := aget {} (Claim.slotAt t core k.val).latch n
          Claim.elementsAhead (coreOf t core) qv jv (fmtSew f) l2.used = ahead.drop m ∧
          l2.i0 = l.i0 + m ∧ l2.off = l.off + m ∧ l2.park ≠ none)) ∧
  -- the reduction tree: an update for each element of its head index token, under one interlock entry
  (∀ (s : State) (core : Nat) (k : Fin 4) (n : Nat),
    let c := coreOf s core
    let sl := Claim.slotAt s core k.val
    let l := aget {} sl.latch n
    let w1 := Claim.aimWord sl n 1
    Claim.spatial s core k.val → Claim.entered sl → Claim.kindAt sl n = 6 → Claim.openNode sl n → Claim.healthy c sl n →
    ∀ x q j qv jv y ys f, sl.ctx = some x → inputAt sl n 0 = some (q, j) → inputAt sl n 1 = some (qv, jv) → qv ≠ q →
      Fmt.ofCode (w1 / 8 % 32) = some f → Claim.tagIs c q (tagOf (intFmt (fmtSew f)) 0) → Claim.tagIs c qv (tagOf f 0) →
      Claim.queueTokens c q j = y :: ys → Claim.plainInput c q j → Claim.plainInput c qv jv →
      Claim.within c qv jv (fmtSew f) l.used → aritRoom c ≠ 0 →
      let nb := fmtSew f / 8
      let vas := (List.range (y.bytes * 8 / fmtSew f)).map fun i => (Claim.aimWord sl n 0 + elemOf (fmtSew f) y.pay i) % 2 ^ 64
      let vs := (Claim.elementsAhead c qv jv (fmtSew f) l.used).take vas.length
      vas ≠ [] → vs.length = vas.length →
      ((∃ va ∈ vas, ownBlocks s core sl x.slot va nb true = true) → exec (.reductionTreeFiring core k n) s = .next s) ∧
      ((∀ va ∈ vas, ownBlocks s core sl x.slot va nb true = false ∧ va % nb = 0) →
      ∀ (st : Nat → State) (loc : Nat → Loc), st 0 = s →
        (∀ b va, vas[b]? = some va → translate (st b) x .store .atomic va = (st (b + 1), .ok (loc b)) ∧
          locPoisoned (st (b + 1)) (loc b) nb = false) →
        ∃ t, exec (.reductionTreeFiring core k n) s = .next t ∧ t.mem = (st vas.length).mem ∧
          Claim.queueTokens (coreOf t core) q j = ys ∧
          (coreOf t core).redq = c.redq ++ (vas.zip vs).zipIdx.map (fun p => ⟨x.slot, w1 % 8, w1 / 8 % 32, p.1.1, loc p.2, p.1.2, x⟩) ∧
          (∃ b e, aget? (coreOf t core).arit b = some e ∧ e.src = 22 ∧ e.slot = x.slot ∧ e.wr = true ∧ e.rd = true) ∧
          (aget {} (Claim.slotAt t core k.val).latch n).i0 = l.i0 + vas.length ∧
          (aget {} (Claim.slotAt t core k.val).latch n).done = y.last)) ∧
  -- the matrix node: a K-pass into its tile; with the last one, that LAST closes, the tile goes out and is zeroed
  (∀ (s : State) (core : Nat) (k : Fin 4) (n : Nat),
    let c := coreOf s core
    let sl := Claim.slotAt s core k.val
    let l := aget {} sl.latch n
    let w0 := Claim.aimWord sl n 0
    let t0 := w0 % 8
    let w := Claim.controlWord s core t0
    let m := 2 ^ (w0 / 8 % 8)
    let nn := 2 ^ (w0 / 64 % 8)
    Claim.spatial s core k.val → Claim.entered sl → Claim.kindAt sl n = 1 → Claim.openNode sl n → Claim.healthy c sl n →
    l.tail = false → Claim.aimWord sl n 1 ≠ 0 → w0.testBit 9 = false → m ≤ 32 → nn ≤ 32 → nn ≤ Claim.columns w → Claim.tileTagged s core t0 →
    ∀ qa ja qb jb fa fb, inputAt sl n 0 = some (qa, ja) → inputAt sl n 1 = some (qb, jb) → qa ≠ qb →
      Claim.tagNames (qOf c qa).qtag.toNat fa 0 → Claim.tagNames (qOf c qb).qtag.toNat fb 0 → fa ∉ Claim.pairFormats → fb ∉ Claim.pairFormats →
      Claim.pairsInto (w % 2 == 1) fa fb → Claim.plainInput c qa ja → Claim.plainInput c qb jb →
      Claim.within c qa ja (fmtSew fa) l.i1 → Claim.within c qb jb (fmtSew fb) l.i2 →
      Claim.filled c qa ja (fmtSew fa) → Claim.filled c qb jb (fmtSew fb) →
      let kp := 1024 / max (fmtSew fa) (fmtSew fb)
      let kk := min kp (Claim.aimWord sl n 1 - l.i0 * kp)
      let as := Claim.elementsAhead c qa ja (fmtSew fa) l.i1
      let bs := Claim.elementsAhead c qb jb (fmtSew fb) l.i2
      0 < kk →
      (as.length < m * kk ∨ bs.length < nn * kk → exec (.matrixNodePass core k n) s = .next s) ∧
      (m * kk ≤ as.length → nn * kk ≤ bs.length →
      let ps (i b : Nat) := (List.range kk).map fun p =>
        (elemVal fa 0 (as.getD (i * kk + p) 0) 0 0, elemVal fb 0 (bs.getD (b * kk + p) 0) 0 0)
      let last := Claim.aimWord sl n 1 ≤ l.i0 * kp + kk
      let taken (p q j : Nat) (xs : List Nat) (cnt : Nat) : Prop := l.lasts.toNat.testBit p = true ∨ (xs.length = cnt ∧ Claim.closes c q j)
      let whole := last ∧ taken 0 qa ja as (m * kk) ∧ taken 1 qb jb bs (nn * kk) ∧ (inputAt sl n 2 = none ∨ l.lasts.toNat.testBit 2 = true)
      let old (i b : Nat) := elemOf 32 (aget 0 c.ac t0).toNat (32 * i + b)
      -- the accumulators after the pass, and the flags of each
      let passed (mid fl : Nat → Nat → Nat) : Prop := ∀ i b, i < m → b < nn →
        (w % 2 = 0 → Claim.fpPass (old i b) (mid i b) (fl i b) (ps i b)) ∧
        (w % 2 = 1 →
          let sum : ℤ := (BitVec.ofNat 32 (old i b)).toInt + ((ps i b).map fun q => Claim.intOf q.1 * Claim.intOf q.2).sum
          mid i b < 2 ^ 32 ∧ BitVec.ofNat 32 (mid i b) = BitVec.ofInt 32 sum ∧ (-2 ^ 31 ≤ sum → sum < 2 ^ 31 → fl i b = 0) ∧
          (sum < -2 ^ 31 ∨ 2 ^ 31 ≤ sum → fl i b = 4))
      let after (t : State) (mid fl : Nat → Nat → Nat) (more : Nat) : Prop :=
        let l2 := aget {} (Claim.slotAt t core k.val).latch n
        let new (i b : Nat) := elemOf 32 (aget 0 (coreOf t core).ac t0).toNat (32 * i + b)
        exec (.matrixNodePass core k n) s = .next t ∧ t.mem = s.mem ∧ passed mid fl ∧ l2.i0 = l.i0 + 1 ∧ l2.tail = decide last ∧
          (aget 0x1F (coreOf t core).acTag t0).toNat = Claim.accTag w ∧
          (∀ i b, i < 32 → b < 32 → m ≤ i ∨ nn ≤ b → Claim.columns w ≤ b ∨ more = 0 → new i b = old i b)
      (¬ whole → ∃ t mid fl, after t mid fl 0 ∧
        (∀ i b, i < m → b < nn → elemOf 32 (aget 0 (coreOf t core).ac t0).toNat (32 * i + b) = mid i b) ∧
        (aget {} (Claim.slotAt t core k.val).latch n).done = false ∧
        ∀ b < 6, (Claim.slotAt t core k.val).flags.testBit b = true ↔
          sl.flags.testBit b = true ∨ ∃ i a, i < m ∧ a < nn ∧ (fl i a).testBit b = true) ∧
      (whole → outputsOf sl n = [] → ∃ t mid fl, after t mid fl 0 ∧
        (∀ i b, i < m → b < nn → elemOf 32 (aget 0 (coreOf t core).ac t0).toNat (32 * i + b) = mid i b) ∧
        (aget {} (Claim.slotAt t core k.val).latch n).done = true) ∧
      (whole → ∀ qo, outputsOf sl n = [qo] → qo ≠ qa → qo ≠ qb → Claim.downFormat w ∉ Claim.pairFormats → Claim.downBlk w = 0 →
        Claim.blockFits (Claim.downFormat w) 0 →
        let sew := fmtSew (Claim.downFormat w)
        let bytes := (m * nn * sew + 7) / 8
        (Claim.queueSane (qOf c qo) → qRoom (qOf c qo) < ((qOf c qo).pfill + bytes + 31) / 32 → exec (.matrixNodePass core k n) s = .next s) ∧
        (Claim.takes c qo bytes → ∃ t mid fl, after t mid fl 1 ∧ ∃ (st : Nat → NumSt) (pat scale : Nat → Nat → Nat),
          st 0 = ⟨l.gen.toNat, 0⟩ ∧
          (∀ i < m, Claim.downConverted w (Claim.downMode w sl.vrm) ((List.range nn).map (mid i)) (st i) (pat i) (scale i) (st (i + 1))) ∧
          Claim.appended c (coreOf t core) qo bytes (Claim.packed sew ((List.range m).flatMap fun i => (List.range nn).map (pat i))) true ∧
          (∀ i b, i < 32 → b < Claim.columns w → elemOf 32 (aget 0 (coreOf t core).ac t0).toNat (32 * i + b) = 0) ∧
          let l2 := aget {} (Claim.slotAt t core k.val).latch n
          l2.done = true ∧ l2.gen = BitVec.ofNat 64 (st m).seed)))) ∧
  -- a vector stage of one input and one output: the program runs on the lent hart, whose other registers stay
  (∀ (s : State) (core : Nat) (k : Fin 4) (n : Nat),
    let c := coreOf s core
    let sl := Claim.slotAt s core k.val
    let l := aget {} sl.latch n
    let hk := 8 * core + (sl.nodes.getD n (15, 0)).2
    let h := hartOf s hk
    let lanes := lanesOf s hk
    let vt := Claim.aimWord sl n 0 % 2 ^ 12
    let w := aget 1 sl.widths n
    Claim.spatial s core k.val → Claim.entered sl → Claim.kindAt sl n = 0 → Claim.openNode sl n → Claim.healthy c sl n →
    ∀ r vi vo q qo p j lg f blk xs ys, stageOf sl n = some r → vtypeOf vt = some (lg, f, blk) →
      r.binds = [(vi, q, false), (vo, qo, true)] → inputsOf sl n = [(p, q, j)] → p < 8 → qo ≠ q → l.lasts.toNat.testBit p = false →
      Claim.queueTokens c q j = xs ++ ys → xs.length = w → 0 < w → (∀ x ∈ xs, x.kind = 0 ∧ x.bytes = 32 ∧ x.last = false) →
      (qOf c q).tail < 512 → rpOf (qOf c q) j < 512 →
      let cnt := 256 * w / fmtSew f
      let h1 := loadRow (stageHart h vt cnt sl.vrm l.gen fun i => BitVec.ofNat 64 (Claim.aimWord sl n i)) lanes vi lg (qOf c q).qtag.toNat
        (rowAt c q j w)
      -- the words of the record; those that software has changed are the old or the new ones
      ∀ s1 ws, stageWords s core sl r = .ok (s1, ws) →
      ws.length = r.words.length ∧
      (∀ i o, r.words[i]? = some o → ∃ v, ws[i]? = some v ∧
        (v = o ∨ ∃ a, ownLoc core (sl.desc.toNat + r.off) (4 * r.words.length) = some a ∧ v = homeRead s (locAdd a (4 * i)) 4)) ∧
      ∀ u lens, stageRun (256 / fmtSew f) cnt sl.vrm (lg, f, blk) ws (setHart { s1 with cur := hk } hk h1) = .ok (u, lens) →
        u.mem = s.mem → coreOf u core = c →
        let ha := hartOf u hk
        let out := outPack ha lanes vo (aget cnt lens vo)
        tokScaled out.f out.blk = false → Claim.takes c qo out.n →
        ∃ t, exec (.stageFiring core k n) s = .next t ∧ t.mem = s.mem ∧
          hartOf t hk = { h with v := ha.v, tags := ha.tags, sc := ha.sc, p := ha.p } ∧
          Claim.queueTokens (coreOf t core) q j = ys ∧ Claim.appended c (coreOf t core) qo out.n out.data false ∧
          (aget {} (Claim.slotAt t core k.val).latch n).gen = ha.xc.srseed ∧ (aget {} (Claim.slotAt t core k.val).latch n).done = false ∧
          (Claim.slotAt t core k.val).flags = sl.flags ||| ha.xc.flags.toNat) ∧
  -- the temporal sequencer: the lowest node that can fire with a saved row, else the lowest that can
  (∀ (s : State) (core : Nat) (k : Fin 4),
    let sl := Claim.slotAt s core k.val
    let may := sl.state = .temporal ∧ sl.leave = sl.need ∧ (∀ m < sl.nodes.length, (aget {} sl.latch m).park = none) ∧ chHeld s core k.val = false
    let saved (m : Nat) : Prop := ∃ e ∈ inputsOf sl m, aget 0 sl.saved (4 * e.2.1 + e.2.2) ≠ 0
    let can (m : Nat) : Prop := m < sl.nodes.length ∧ fireNode s core k.val m ≠ none
    (¬ may ∨ (∀ m, ¬ can m) → exec (.temporalFiring core k) s = .next s) ∧
    (may → ∀ m t, m < sl.nodes.length → fireNode s core k.val m = some t →
      (saved m ∧ ∀ i < m, saved i → ¬ can i) ∨ ((∀ i, saved i → ¬ can i) ∧ ∀ i < m, ¬ can i) →
      exec (.temporalFiring core k) s = .next t))

/-- Markers, the change of aims, bounds, detaches, drains and ends of runs (spec/08 R160, R162, R165 to R171; spec/13 R251; spec/15 R296).
When a source sends a stop marker is log entry 30, ends and the NODE of other members log entry 32. -/
def Obligations.ChainEvents : Prop :=
  -- stop markers: a source that owes one emits it, a node whose one input has it at its head passes it on; both stop
  (∀ (s : State) (i : Instr) (core k n sub : Nat), Claim.stopForm i = some (core, k, n, sub) →
    let c := coreOf s core
    let sl := Claim.slotAt s core k
    let l := aget {} sl.latch n
    let outs := outputsOf sl n
    (¬ Claim.spatial s core k ∨ l.stop ≠ 0 ∨ n ∈ sl.frozen → exec i s = .next s) ∧
    (Claim.spatial s core k → l.stop = 0 → n ∉ sl.frozen → Claim.marksFit c outs 1 →
      (Claim.sourceNode sl n → l.owe ≠ sub ∨ (∃ o ∈ chGroup s core k, ¬ Claim.queuesClear s o k) ∨ Claim.groupFires s core k →
        exec i s = .next s) ∧
      (Claim.sourceNode sl n → l.owe = sub → (∀ o ∈ chGroup s core k, Claim.queuesClear s o k) → ¬ Claim.groupFires s core k → ∃ t, exec i s = .next t ∧ t.mem = s.mem ∧
        Claim.marked c (coreOf t core) outs [Claim.marker sub] ∧ aget {} (Claim.slotAt t core k).latch n = { l with owe := 0, stop := sub }) ∧
      (∀ p q j xs, inputsOf sl n = [(p, q, j)] → ¬ Claim.softFed sl q → Claim.kindAt sl n ≠ 7 → l.park = none → q ∉ outs →
        Claim.queueTokens c q j = Claim.marker sub :: xs → (qOf c q).tail < 512 → rpOf (qOf c q) j < 512 → fireNode s core k n = none →
        ∃ t, exec i s = .next t ∧ t.mem = s.mem ∧ Claim.queueTokens (coreOf t core) q j = xs ∧
          Claim.marked c (coreOf t core) outs [Claim.marker sub] ∧ aget {} (Claim.slotAt t core k).latch n = { l with stop := sub }))) ∧
  -- the end of a configuration period
  (∀ (s : State) (core : Nat) (k : Fin 4) (n : Nat),
    let i : Instr := .tailConfigAtNode core k n
    let c := coreOf s core
    let sl := Claim.slotAt s core k.val
    let l := aget {} sl.latch n
    let outs := outputsOf sl n
    let ts := [Claim.marker 3, Claim.config (sl.aimgen % 256)]
    (¬ Claim.underWay s core k.val ∨ sl.pending = false ∨ l.newAim = true ∨ Claim.kindAt sl n = 7 ∨ sl.nodes.length ≤ n → exec i s = .next s) ∧
    (Claim.underWay s core k.val → sl.pending = true → l.newAim = false → Claim.kindAt sl n ≠ 7 → n < sl.nodes.length → Claim.marksFit c outs 2 →
      sl.aimgen < 256 →
      (Claim.sourceNode sl n → l.done = false → exec i s = .next s) ∧
      (Claim.sourceNode sl n → l.done = true → ∃ t, exec i s = .next t ∧ t.mem = s.mem ∧ Claim.marked c (coreOf t core) outs ts ∧
        aget {} (Claim.slotAt t core k.val).latch n = { l with newAim := true }) ∧
      (∀ p q j a b xs, inputsOf sl n = [(p, q, j)] → ¬ Claim.softFed sl q → q ∉ outs → Claim.queueTokens c q j = a :: b :: xs → (qOf c q).tail < 512 →
        rpOf (qOf c q) j < 512 → (a.kind = 3 → a.pay % 256 = 3 → b.kind = 2 → ∃ t, exec i s = .next t ∧ t.mem = s.mem ∧
          Claim.queueTokens (coreOf t core) q j = xs ∧ Claim.marked c (coreOf t core) outs ts ∧
          aget {} (Claim.slotAt t core k.val).latch n = { l with newAim := true, done := true }) ∧
          (a.kind ≠ 3 ∨ a.pay % 256 ≠ 3 ∨ b.kind ≠ 2 → exec i s = .next s)))) ∧
  -- a store port at its bound
  (∀ (s : State) (core : Nat) (k : Fin 4) (n : Nat),
    let i : Instr := .boundStop core k n
    let c := coreOf s core
    let sl := Claim.slotAt s core k.val
    let l := aget {} sl.latch n
    (¬ Claim.underWay s core k.val → exec i s = .next s) ∧
    (Claim.underWay s core k.val → sl.boundNode = none → Claim.kindAt sl n = 2 → Claim.openNode sl n →
      ∀ q j x xs pt, inputAt sl n 0 = some (q, j) → Claim.queueTokens c q j = x :: xs → x.kind = 0 → portPat sl n = some pt →
        unitBlocked pt ⟨l.i0, l.i1, l.i2, l.off⟩ = true →
        ∃ t l2, exec i s = .next t ∧ t.mem = s.mem ∧ Claim.slotAt t core k.val = { sl with boundNode := some n, latch := l2 } ∧
          ∀ m, (Claim.sourceNode sl m ∧ (aget {} sl.latch m).done = false ∧ (aget {} sl.latch m).stop = 0 →
              aget {} l2 m = { aget {} sl.latch m with owe := 4 }) ∧
            (¬ (Claim.sourceNode sl m ∧ (aget {} sl.latch m).done = false ∧ (aget {} sl.latch m).stop = 0) →
              aget {} l2 m = aget {} sl.latch m)) ∧
    (Claim.underWay s core k.val → sl.boundNode ≠ none → Claim.sourceNode sl n → l.owe = 4 → Claim.marksFit c (outputsOf sl n) 1 →
      ∃ t, exec i s = .next t ∧ t.mem = s.mem ∧ Claim.marked c (coreOf t core) (outputsOf sl n) [Claim.marker 4] ∧
        aget {} (Claim.slotAt t core k.val).latch n = { l with owe := 0, stop := 4 }) ∧
    -- a node passes the marker at its head on; the port, which has no output, discards it
    (Claim.underWay s core k.val → sl.boundNode ≠ none → Claim.kindAt sl n ≠ 7 → Claim.marksFit c (outputsOf sl n) 1 →
      ∀ p q j xs, inputsOf sl n = [(p, q, j)] → ¬ Claim.softFed sl q → q ∉ outputsOf sl n →
        Claim.queueTokens c q j = Claim.marker 4 :: xs → (qOf c q).tail < 512 → rpOf (qOf c q) j < 512 →
        ∃ t, exec i s = .next t ∧ t.mem = s.mem ∧ Claim.queueTokens (coreOf t core) q j = xs ∧
          Claim.marked c (coreOf t core) (outputsOf sl n) [Claim.marker 4])) ∧
  -- a multicast consumer that has held its producer back for the limit
  (∀ (s : State) (core : Nat) (k : Fin 4) (q : Fin 16) (j : Fin 4),
    let i : Instr := .multicastDetach core k q j
    let sl := Claim.slotAt s core k.val
    let late := max 1 sl.mcto ≤ aget 0 sl.mcIdle (4 * q.val + j.val)
    (¬ Claim.underWay s core k.val ∨ waitsOn s core k.val q.val j.val = false ∨ ¬ late → exec i s = .next s) ∧
    (Claim.underWay s core k.val → waitsOn s core k.val q.val j.val = true → late → (∃ e ∈ sl.edges, e.2.2.2.2 = q.val) →
      ∀ m, consumerNode sl q.val j.val = some m → ∃ t, exec i s = .next t ∧ t.mem = s.mem ∧
        (qOf (coreOf t core) q.val).dmask = (qOf (coreOf s core) q.val).dmask ||| BitVec.ofNat 4 (2 ^ j.val) ∧
        (aget {} (Claim.slotAt t core k.val).latch m).detached = true ∧
        (Claim.slotAt t core k.val).detachNode = some (sl.detachNode.getD m))) ∧
  -- a fault parked for the limit: every node but those fed by a parked one freezes
  (∀ (s : State) (core : Nat) (k : Fin 4),
    let i : Instr := .chainFaultTimeout core k
    let sl := Claim.slotAt s core k.val
    let due := (sl.state = .running ∨ sl.state = .draining ∧ sl.afterDrain = 0) ∧ (∃ m, Claim.faultParked sl m) ∧ sl.chto ≤ sl.fage ∧
      chHeld s core k.val = false
    (¬ due → exec i s = .next s) ∧
    (due → Claim.alone sl → sl.nodes.length ≤ 32 →
      (∀ e ∈ sl.edges, (e.1 < sl.nodes.length ∨ Claim.softEnded sl e.1) ∧ (e.2.2.1 < sl.nodes.length ∨ Claim.softEnded sl e.2.2.1)) →
      ∃ t f, exec i s = .next t ∧ t.mem = s.mem ∧
        Claim.slotAt t core k.val = { sl with state := .draining, afterDrain := max sl.afterDrain 4, frozen := f } ∧
        ∀ m < sl.nodes.length, m ∉ f ↔ ¬ Claim.faultParked sl m ∧ ∃ p, Claim.faultParked sl p ∧ Relation.ReflTransGen (Claim.feeds sl) p m)) ∧
  -- the roll call of a drain, of a bell and of a BROKEN slot
  (∀ (s : State) (core : Nat) (k : Fin 4),
    let i : Instr := .rollCallReport core k
    let sl := Claim.slotAt s core k.val
    let new (t : State) := Claim.slotAt t core k.val
    (sl.state = .broken → (∃ m, Claim.faultParked sl m) → exec i s = .next s) ∧
    (sl.state = .broken → (∀ m, ¬ Claim.faultParked sl m) → ∃ t, exec i s = .next t ∧ (new t).state = .temporal ∧ (new t).frozen = [] ∧
      (new t).fage = 0 ∧ (new t).bell = false ∧ (new t).active = sl.active) ∧
    (sl.state ≠ .broken → chHeld s core k.val = true ∨ ¬ Claim.silent s core k.val → exec i s = .next s) ∧
    (chHeld s core k.val = false → Claim.silent s core k.val → sl.state = .draining →
      (sl.afterDrain = 8 → ∃ t, exec i s = .next t ∧ (new t).state = .faulted ∧ Claim.ended sl (new t) sl.node sl.cause false false ∧
        Claim.portsFree t core sl) ∧
      (sl.afterDrain = 4 → (∃ m, Claim.faultParked sl m) → ∃ t, exec i s = .next t ∧ (new t).state = .broken ∧ (new t).leave = 0 ∧
        (new t).latch = sl.latch) ∧
      (sl.afterDrain = 4 → (∀ m, ¬ Claim.faultParked sl m) → ∃ t, exec i s = .next t ∧ (new t).state = .temporal)) ∧
    (chHeld s core k.val = false → Claim.silent s core k.val → sl.state = .running → sl.bell = false → sl.nodes ≠ [] →
      (¬ Claim.queuesClear s core k.val → exec i s = .next s) ∧
      (Claim.queuesClear s core k.val → (∀ m < sl.nodes.length, (aget {} sl.latch m).stop = 1) →
        ∃ t, exec i s = .next t ∧ new t = { sl with bell := true }))) ∧
  -- the end of a run
  (∀ (s : State) (core : Nat) (k : Fin 4),
    let i : Instr := .chainRunEnd core k
    let sl := Claim.slotAt s core k.val
    let new (t : State) := Claim.slotAt t core k.val
    let on := sl.state = .running ∨ sl.state = .temporal ∨ sl.state = .draining ∧ sl.afterDrain = 0
    let clear := on ∧ sl.bell = false ∧ sl.held = false ∧ chHeld s core k.val = false ∧ chReds s core sl = false ∧ ∀ m, ¬ Claim.faultParked sl m
    let finished := ∀ m < sl.nodes.length, (aget {} sl.latch m).done = true
    let notYet := ∃ m < sl.nodes.length, nodeFinished (coreOf s core) sl 33 m = false
    (¬ clear → exec i s = .next s) ∧
    (clear → finished → sl.pending = false → sl.arm = none → ∃ t, exec i s = .next t ∧ t.mem = s.mem ∧ (new t).state = .configured ∧
      Claim.ended sl (new t) 0 0 (decide (sl.state = .temporal)) (decide (sl.state = .draining)) ∧ Claim.portsFree t core sl ∧
      (sl.state ≠ .draining → (new t).latch = []) ∧
      ∀ x, sl.ctx = some x → x.slot < 8 →
        (hartOf t (8 * core + x.slot)).xc.flags = (hartOf s (8 * core + x.slot)).xc.flags ||| BitVec.ofNat 6 sl.flags ∧
        (hartOf t (8 * core + x.slot)).xc.temporal = (hartOf s (8 * core + x.slot)).xc.temporal + if sl.state = .temporal then 1 else 0) ∧
    -- a source that can still emit its marker, and a node that only waits for the interlock, keep the run going
    let due := ∃ m < sl.nodes.length, (aget {} sl.latch m).owe ≠ 0 ∧ ∀ q ∈ outputsOf sl m,
      1 + (if (qOf (coreOf s core) q).pfill = 0 then 0 else 2) ≤ qRoom (qOf (coreOf s core) q)
    let interlocked := ∃ m < sl.nodes.length,
      fireNode (updCore s core fun c => { c with arit := [], redq := [] }) core k.val m ≠ none
    (clear → notYet → ¬ Claim.silent s core k.val ∨ due ∨ interlocked → exec i s = .next s) ∧
    (clear → notYet → Claim.silent s core k.val → ¬ due → ¬ interlocked → sl.pending = false → sl.arm = none →
      (∀ b, sl.boundNode = some b → ∃ t, exec i s = .next t ∧ (new t).state = .bound ∧ Claim.ended sl (new t) b 0 false false ∧
        Claim.portsFree t core sl) ∧
      (∀ d, sl.boundNode = none → sl.detachNode = some d → Claim.softWaits s core k.val → exec i s = .next s) ∧
      (∀ d, sl.boundNode = none → sl.detachNode = some d → Claim.alone sl → ¬ Claim.softWaits s core k.val → ∃ t, exec i s = .next t ∧ (new t).state = .detached ∧
        Claim.ended sl (new t) d 0 false false) ∧
      (sl.boundNode = none → sl.detachNode = none → sl.state = .draining → ¬ Claim.queuesClear s core k.val → exec i s = .next s) ∧
      (sl.boundNode = none → sl.detachNode = none → sl.state = .draining → Claim.queuesClear s core k.val →
        (∀ m < sl.nodes.length, (aget {} sl.latch m).stop = 2) → ∃ t, exec i s = .next t ∧ (new t).state = .configured ∧ Claim.ended sl (new t) 0 0 false true ∧
          ∀ m, (aget {} (new t).latch m).i0 = (aget {} sl.latch m).i0 ∧ (aget {} (new t).latch m).gen = (aget {} sl.latch m).gen) ∧
      (sl.boundNode = none → sl.detachNode = none → sl.state ≠ .draining → exec i s = .next s))) ∧
  -- a lane link of a chain goes down
  (∀ (s : State) (core : Nat) (k : Fin 4),
    let i : Instr := .laneLinkDown core k
    let sl := Claim.slotAt s core k.val
    (Claim.alone sl ∨ ¬ Claim.runs sl → exec i s = .next s) ∧
    -- any of the links that the chain uses
    (¬ Claim.alone sl → chGroup s core k.val = [core] →
      (sl.state = .running ∨ sl.state = .draining → ∃ t f n, exec (.laneLinkDown core k) s = .next t ∧ n < sl.nodes.length ∧ Claim.kindAt sl n = 7 ∧
        Claim.slotAt t core k.val = Claim.failing sl f n 50) ∧
      (sl.state = .broken ∨ sl.state = .temporal → ∃ t n, exec (.laneLinkDown core k) s = .next t ∧ n < sl.nodes.length ∧ Claim.kindAt sl n = 7 ∧
        (Claim.slotAt t core k.val).state = .faulted ∧ Claim.ended sl (Claim.slotAt t core k.val) n 50 false false)))

/-- BARI, BARA, BARW, BARAW and the return of a wait (spec/15 R280 to R284): the register, the phase of arrival, the waits, the latch. -/
def Obligations.Barriers : Prop :=
  (∀ (s : State) (n : Fin 4) (a : RegIx) (seat : Nat), (coreOf s (myCore s)).gang = some seat →
    let w := Claim.barrierAt s seat n.val
    let v := (rdX s a).toNat
    (Claim.arrOf w ≠ 0 ∨ v = 0 ∨ 2 ^ 16 ≤ v → exec (.bari n a) s = .next (Claim.raised s 29 (wordOf (.bari n a)))) ∧
    (Claim.arrOf w = 0 → v ≠ 0 → v < 2 ^ 16 → exec (.bari n a) s =
      .next (Claim.advanced (Claim.setBarrier s seat n.val (Claim.barrierWord v 0 (Claim.phaseOf w)))))) ∧
  (∀ (s s1 : State) (rel : Bool) (n : Fin 4) (d : RegIx) (seat : Nat), (if rel then releaseAll s else .ok s) = .ok s1 →
    (coreOf s1 (myCore s1)).gang = some seat →
    let w := Claim.barrierAt s1 seat n.val
    (Claim.expOf w = 0 → exec (.bara rel n d) s = .next (Claim.raised s1 29 (wordOf (.bara rel n d)))) ∧
    (Claim.expOf w ≠ 0 → exec (.bara rel n d) s =
      .next (Claim.wroteX (Claim.setBarrier s1 seat n.val (Claim.arrived w)) d (BitVec.ofNat 64 (Claim.phaseOf w))))) ∧
  (∀ (s : State) (acq : Bool) (n : Fin 4) (a : RegIx) (seat : Nat), (coreOf s (myCore s)).gang = some seat →
    let i : Instr := .barw acq n a
    let same := Claim.phaseOf (Claim.barrierAt s seat n.val) = (rdX s a).toNat % 2 ^ 32
    (same → exec i s = .next (Claim.waits s i)) ∧
    (¬ same → exec i s = .next (Claim.advanced (if acq then acquireAll s else s)))) ∧
  (∀ (s : State) (ar : Bool) (n : Fin 4) (d : RegIx),
    let i : Instr := .baraw ar n d
    let latched (p : BitVec 32) := (me s).latch = some ⟨(me s).pc, n, p⟩
    -- one that holds this arrival in its latch only waits for the end of its phase
    (∀ (p : BitVec 32) seat, latched p → (coreOf s (myCore s)).gang = some seat →
      let same := Claim.phaseOf (Claim.barrierAt s seat n.val) = p.toNat
      ∃ t, exec i s = .next t ∧ t.gangs = s.gangs ∧ rdX t d = (if d.val = 0 then 0 else BitVec.ofNat 64 p.toNat) ∧
        (same → (me t).pc = (me s).pc ∧ (me t).latch = (me s).latch ∧ (me t).wait = some i) ∧
        (¬ same → (me t).pc = (me s).pc + 4 ∧ (me t).latch = none ∧ (me t).wait = none)) ∧
    -- any other arrives, and then waits for it
    (∀ s1 seat, (∀ p, ¬ latched p) → (let s0 := updMe s fun h => { h with latch := none }; if ar then releaseAll s0 else .ok s0) = .ok s1 →
      (coreOf s1 (myCore s1)).gang = some seat →
      let w := Claim.barrierAt s1 seat n.val
      (Claim.expOf w = 0 → exec i s = .next (Claim.raised s1 29 (wordOf i))) ∧
      (Claim.expOf w ≠ 0 → ∃ t, exec i s = .next t ∧ rdX t d = (if d.val = 0 then 0 else BitVec.ofNat 64 (Claim.phaseOf w)) ∧
        t.gangs = (Claim.setBarrier s1 seat n.val (Claim.arrived w)).gangs ∧
        (Claim.arrOf w + 1 < Claim.expOf w → (me t).pc = (me s1).pc ∧ (me t).wait = some i ∧
          (me t).latch = some ⟨(me s).pc, n, BitVec.ofNat 32 (Claim.phaseOf w)⟩) ∧
        (Claim.expOf w ≤ Claim.arrOf w + 1 → (me t).pc = (me s1).pc + 4 ∧ (me t).wait = none ∧ (me t).latch = none)))) ∧
  (∀ (s : State) (hart : Nat),
    (canMove s hart = false → exec (.barrierWaitReturn hart) s = .next s) ∧
    (∀ i, canMove s hart = true → (hartOf s hart).wait = some i → ((∃ c n a, i = .barw c n a) ∨ ∃ c n d, i = .baraw c n d) →
      exec (.barrierWaitReturn hart) s = exec i { s with cur := hart }) ∧
    ((hartOf s hart).wait = none → exec (.barrierWaitReturn hart) s = .next s))

/-- MSGRING, MSGSND and MSGRCV (spec/09 R190; spec/10 R207 to R209, spec/16 R320 to R323): a send is performed after the hart's matrix
instructions, and a receive acquires all that was released, bound and unbound. -/
def Obligations.MessageRings : Prop :=
  (∀ (s : State) (i : Instr) (a : RegIx), i = .msgring a ∨ (∃ b d, i = .msgsnd b a d ∨ i = .msgrcv b a d) →
    let va := (rdX s a).toNat
    (va % 32 ≠ 0 → exec i s = .next (Claim.raised s 6 (rdX s a))) ∧
    (va % 32 = 0 → tileAt s va = none → exec i s = .next (Claim.raised s 7 (rdX s a))) ∧
    (va % 32 = 0 → ∀ l, tileAt s va = some l →
      (ownWaits s (myCore s) (mySlot s) va 32 true = true → exec i s = .next (Claim.waits s i)) ∧
      (ownWaits s (myCore s) (mySlot s) va 32 true = false → locPoisoned s l 32 = true → exec i s = .next (Claim.raised s 51 (rdX s a))))) ∧
  (∀ (s : State) (a : RegIx) (l : Loc) (base lg tail head : Nat) (nak init : Bool), Claim.reachesRing s (rdX s a).toNat l →
    Claim.RingIs s l base lg tail head nak init →
    let ok := 8 ≤ lg ∧ lg ≤ 20 ∧ base % 2 ^ lg = 0 ∧ tileAt s base ≠ none ∧ homeRead s l 32 / 2 ^ 71 % 2 ^ 57 = 0 ∧ homeRead s l 32 / 2 ^ 192 = 0
    (¬ ok → exec (.msgring a) s = .next (Claim.raised s 28 (wordOf (.msgring a)))) ∧
    (ok → exec (.msgring a) s = .next (Claim.advanced
      (homeWrite (Claim.pointers s l 0 0) 0 (locAdd l 8) 8 (lg + (if nak then 2 ^ 5 else 0) + 2 ^ 6))))) ∧
  (∀ (s : State) (b a d : RegIx) (l : Loc) (base lg tail head : Nat) (nak init : Bool), Claim.reachesRing s (rdX s a).toNat l →
    Claim.RingIs s l base lg tail head nak init →
    let i : Instr := .msgsnd b a d
    let len := (rdX s d).toNat
    let need := Claim.recordBytes len
    let size := 2 ^ lg
    let used := (tail + 2 ^ 32 - head) % 2 ^ 32
    let off := tail % size
    let pad := if size < off + need then size - off else 0
    (init = false ∨ len = 0 ∨ 2 ^ 24 ≤ len ∨ size < need → exec i s = .next (Claim.raised s 28 (wordOf i))) ∧
    (init = true → 0 < len → len < 2 ^ 24 → need ≤ size → ∀ s1 pay, readBytes s (rdX s b).toNat len = .ok (s1, pay) →
      (engineBlocks s1 s1.cur = true → exec i s = .next (Claim.waits s1 i)) ∧
      (engineBlocks s1 s1.cur = false →
      (size - used < pad + need → nak = false → exec i s = .next (Claim.waits s1 i)) ∧
      (size - used < pad + need → nak = true → exec i s = .next (Claim.granted s1 d 0)) ∧
      (pad + need ≤ size - used → ∀ at_, tileAt s1 base = some at_ →
        let o := if pad = 0 then off else 0
        let sd := drainWc s1 s1.cur
        let s2 := if pad = 0 then sd else homeWrite sd 0 (locAdd at_ off) 8 (Claim.header (pad - 8) 2)
        let s3 := homeWrite s2 0 (locAdd at_ (o + 8)) (need - 8) pay
        let s4 := homeWrite s3 0 (locAdd at_ o) 8 (Claim.header len 1)
        exec i s = .next (Claim.granted (Claim.pointers s4 l (tail + pad + need) head) d len))))) ∧
  (∀ (s : State) (b a d : RegIx) (l : Loc) (base lg tail head : Nat) (nak init : Bool), Claim.reachesRing s (rdX s a).toNat l →
    Claim.RingIs s l base lg tail head nak init →
    let i : Instr := .msgrcv b a d
    let cap := (rdX s d).toNat
    let size := 2 ^ lg
    (init = false ∨ 2 ^ 24 ≤ cap → exec i s = .next (Claim.raised s 28 (wordOf i))) ∧
    (init = true → cap < 2 ^ 24 → ∀ at_, tileAt s base = some at_ →
      let word (o : Nat) := homeRead s (locAdd at_ (o % size)) 8
      (head = tail → nak = false → exec i s = .next (Claim.waits s i)) ∧
      (head = tail → nak = true → exec i s = .next (Claim.wroteX s d (BitVec.ofNat 64 (2 ^ 64 - 1)))) ∧
      (head ≠ tail → ∀ h2 s0, (word head / 2 ^ 24 % 2 ^ 8 ≠ 2 ∧ h2 = head ∧ s0 = s ∨
          word head / 2 ^ 24 % 2 ^ 8 = 2 ∧ h2 = (head + Claim.recordBytes (word head % 2 ^ 24)) % 2 ^ 32 ∧ h2 ≠ tail ∧ h2 ≠ head ∧
            word h2 / 2 ^ 24 % 2 ^ 8 ≠ 2 ∧ s0 = Claim.pointers s l tail h2) →
        let len := homeRead s0 (locAdd at_ (h2 % size)) 8 % 2 ^ 24
        (cap < len → exec i s = .next (Claim.wroteX s0 d (BitVec.ofNat 64 (len + 2 ^ 63)))) ∧
        (len ≤ cap → ∀ s1, writeBytes s0 (rdX s0 b).toNat len (homeRead s0 (locAdd at_ (h2 % size + 8)) len) = .ok s1 →
          exec i s = .next (Claim.granted (acquireAll (Claim.pointers s1 l tail (h2 + Claim.recordBytes len))) d len)))))

/-- FUTINIT, FUTRD, FUTQRY, FUTWR, TSPAWN, TNEXT and a step of a resolution walk (spec/07 R122; spec/10 R210 to R213; spec/15 R308 to R312;
spec/16 R342, R343). A resolved cell and a popped continuation acquire bound and unbound lines alike. -/
def Obligations.FuturesAndTasks : Prop :=
  (∀ (s : State) (i : Instr) (a : RegIx), i = .futinit a ∨ (∃ d, i = .futqry a d) ∨ (∃ b, i = .futwr b a) ∨ (∃ b d, i = .futrd b a d) →
    (rdX s a).toNat % 16 ≠ 0 → exec i s = .next (Claim.raised s 6 (rdX s a))) ∧
  (∀ (s s2 : State) (a : RegIx) (l : Loc), Claim.reachesCell s s2 .store (rdX s a).toNat 16 l →
    let w := homeRead s2 l 8
    let bad := w % 4 = 3 ∨ w % 4 = 0 ∧ w / 16 ≠ 0
    (bad → exec (.futinit a) s = .next (Claim.raised s2 28 (wordOf (.futinit a)))) ∧
    (¬ bad → exec (.futinit a) s = .next (Claim.advanced (homeWrite s2 (me s).xc.dirty l 16 0)))) ∧
  (∀ (s s2 : State) (a d : RegIx) (l : Loc), Claim.reachesCell s s2 .load (rdX s a).toNat 16 l →
    let w := homeRead s2 l 8
    exec (.futqry a d) s = .next (Claim.wroteX (if w % 4 = 1 then acquireAll s2 else s2) d (BitVec.ofNat 64 w))) ∧
  (∀ (s : State) (b a d : RegIx), (rdX s a).toNat % 16 = 0 →
    let i : Instr := .futrd b a d
    let k := (rdX s b).toNat
    (k % 32 ≠ 0 → exec i s = .next (Claim.raised s 6 (rdX s b))) ∧
    (∀ s1 s2 l lk, Claim.reachesCell s s1 .store (rdX s a).toNat 16 l → Claim.reachesCell s1 s2 .store k 32 lk →
      let w := homeRead s2 l 8
      (w % 4 = 3 → exec i s = .next (Claim.raised s2 28 (wordOf i))) ∧
      (w % 4 = 1 ∨ w % 4 = 2 → exec i s = .next (Claim.wroteX (acquireAll s2) d (BitVec.ofNat 64 (w % 4)))) ∧
      (w % 4 = 0 → exec i s = .next (Claim.wroteX (homeWrite (homeWrite (homeWrite s2 (me s).xc.dirty lk 8 (w / 16 * 16)) (me s).xc.dirty
        (locAdd lk 28) 4 ((me s).xc.ctxbase.toNat / 2 ^ 12 % 2 ^ 32)) (me s).xc.dirty l 8 (w % 16 + k)) d 0)))) ∧
  (∀ (s s2 s3 : State) (b a : RegIx) (l : Loc), Claim.reachesCell s s2 .store (rdX s a).toNat 16 l → releaseAll s2 = .ok s3 →
    let i : Instr := .futwr b a
    let w := homeRead s3 l 8
    let t := homeWrite s3 (me s).xc.dirty l 16 (1 + (rdX s b).toNat * 2 ^ 64)
    (w % 4 = 3 → exec i s = .next (Claim.raised s3 28 (wordOf i))) ∧
    (w % 4 = 1 ∨ w % 4 = 2 → exec i s = .next (Claim.raised s3 27 (rdX s a))) ∧
    (w % 4 = 0 → w / 16 = 0 → exec i s = .next (Claim.advanced t)) ∧
    (w % 4 = 0 → w / 16 ≠ 0 → exec i s = .next (Claim.advanced
      { t with walks := t.walks ++ [{ id := t.ctr, next := w / 16 * 16, ctx := hartCtx s3 s3.cur }], ctr := t.ctr + 1 }))) ∧
  (∀ (s : State) (a : RegIx),
    let i : Instr := .tspawn a
    let va := (rdX s a).toNat
    (va % 16 ≠ 0 → exec i s = .next (Claim.raised s 4 (rdX s a))) ∧
    (va % 16 = 0 → ∀ s1 r, readRecord s va 16 24 = .ok (s1, r) →
      let entry := r % 2 ^ 64
      (entry = 0 ∨ entry % 4 ≠ 0 → exec i s = .next (Claim.raised s1 28 (wordOf i))) ∧
      (entry ≠ 0 → entry % 4 = 0 → ∀ s2, fenceRel s1 true true = .ok s2 →
        let c := hartCtx s2 s2.cur
        let n := areaRead s2 c.tid (c.ctxbase + 0x18D0008) 8
        (8191 ≤ Claim.tasks s2 c.tid c.ctxbase → exec i s = .next (Claim.waits s2 i)) ∧
        (Claim.tasks s2 c.tid c.ctxbase < 8191 → bitOf c.dirty.toNat 0 = false → exec i s = .next (Claim.advanced
          (areaWrite (areaWrite s2 c.tid (Claim.taskPlace c.ctxbase n) 16 (entry + r / 2 ^ 64 * 2 ^ 64)) c.tid (c.ctxbase + 0x18D0008) 8
            ((n + 1) % 2 ^ 64))))))) ∧
  (∀ (s : State) (w : Bool) (d : RegIx),
    let i : Instr := .tnext w d
    let c := hartCtx s s.cur
    let n := areaRead s c.tid (c.ctxbase + 0x18D0000) 8
    (Claim.tasks s c.tid c.ctxbase = 0 → exec i s = .next (if w then Claim.waits s i else Claim.passed s)) ∧
    (Claim.tasks s c.tid c.ctxbase ≠ 0 → bitOf c.dirty.toNat 0 = false →
      let s1 := acquireAll (areaWrite s c.tid (c.ctxbase + 0x18D0000) 8 ((n + 1) % 2 ^ 64))
      exec i s = .next (updMe s1 fun h => retire { hartSetX h d (BitVec.ofNat 64 (areaRead s c.tid (Claim.taskPlace c.ctxbase n + 8) 8)) with
        pc := BitVec.ofNat 64 (areaRead s c.tid (Claim.taskPlace c.ctxbase n) 8), priv := .u }))) ∧
  (∀ (s : State) (id : Nat), ((∀ w ∈ s.walks, w.id ≠ id) → exec (.futureWalkStep id) s = .next s) ∧
    ∀ w, s.walks.find? (fun v => v.id == id) = some w →
      let gone (t : State) : State := { t with walks := t.walks.filter fun v => v.id != id }
      let at_ (t : State) (next : Nat) : State :=
        if next = 0 then gone t else { t with walks := t.walks.map fun v => if v.id = id then { w with next := next, todo := none } else v }
      (w.park ≠ none → exec (.futureWalkStep id) s = .next s) ∧
      (∀ va, w.park = none → w.fatal = some va →
        exec (.futureWalkStep id) s = .next (logFault (gone s) w.ctx.ctxbase w.ctx.tid 31 0xFF 6 (BitVec.ofNat 64 va) 0)) ∧
      (w.park = none → w.fatal = none → w.todo = none → w.next % 32 = 0 →
        (∀ s1, translate s w.ctx .load .sync w.next = (s1, .error .access) →
          exec (.futureWalkStep id) s = .next (logFault (gone s1) w.ctx.ctxbase w.ctx.tid 31 0xFF 6 (BitVec.ofNat 64 w.next) 0)) ∧
        (∀ s1 s2 r q, translate s w.ctx .load .sync w.next = (s1, .ok r) → locPoisoned s1 r 32 = false →
          (let tgt := if homeRead s1 (locAdd r 8) 8 = 0 then homeRead s1 (locAdd r 16) 8 else w.next
           tgt % 32 = 0 ∧ translate s1 w.ctx .store .sync tgt = (s2, .ok q)) → locPoisoned s2 q 32 = false →
          let next := homeRead s2 r 8
          let ctx := homeRead s2 (locAdd r 28) 4
          let n := (homeRead s2 (locAdd q 24) 4 + (2 ^ 32 - 1)) % 2 ^ 32
          let entry := homeRead s2 (locAdd q 8) 8
          let arg := homeRead s2 (locAdd q 16) 8
          let s3 := homeWrite s2 w.ctx.dirty (locAdd q 24) 4 n
          (n ≠ 0 → exec (.futureWalkStep id) s = .next (at_ s3 next)) ∧
          (n = 0 → aget? s3.io.contexts (ctx * 4096) = none → exec (.futureWalkStep id) s =
            .next (at_ (logFault s3 w.ctx.ctxbase w.ctx.tid 52 0xFF 6 (BitVec.ofNat 64 w.next) (BitVec.ofNat 64 ctx)) next)) ∧
          (∀ us tid, n = 0 → aget? s3.io.contexts (ctx * 4096) = some (us, tid) → Claim.tasks s3 tid (ctx * 4096) < 8191 →
            bitOf w.ctx.dirty.toNat 0 = false →
            let k := areaRead s3 tid (ctx * 4096 + 0x18D0008) 8
            exec (.futureWalkStep id) s = .next (at_ (areaWrite (areaWrite s3 tid (Claim.taskPlace (ctx * 4096) k) 16 (entry + arg * 2 ^ 64))
              tid (ctx * 4096 + 0x18D0008) 8 ((k + 1) % 2 ^ 64)) next)))))

/-- BCMD and BGAX with a piece of work and the arrival of a sum (spec/04 R74; spec/11 R214 to R222; spec/14 R271; spec/15 R286 to R289). The
checks' order and what a stopped command leaves is log entry 33, a piece under an emptied key slot log entry 44, what overlapping operands give log entry
50. -/
def Obligations.BankArithmetic : Prop :=
  (∀ (s : State) (a : RegIx), (∀ kv ∈ s.cmds, kv.2.hart ≠ s.cur ∨ kv.2.todo = []) →
    let i : Instr := .bcmd a
    let va := (rdX s a).toNat
    (va % 32 ≠ 0 → exec i s = .next (Claim.raised s 30 (rdX s a))) ∧
    (va % 32 = 0 → ∀ s1 r, readRecord s va 32 25 = .ok (s1, r) →
      let w0 := r % 2 ^ 64
      let n := r / 2 ^ 192 % 2 ^ 32
      (¬ Claim.bankDescriptor r → exec i s = .next (Claim.raised s1 30 (rdX s a))) ∧
      (Claim.bankDescriptor r → n = 0 → exec i s = .next (Claim.passed s1)) ∧
      (Claim.bankDescriptor r → n ≠ 0 → ∀ f s2 s3 s4 src dst ps, bauFmt (w0 / 16 % 32) = some f →
        bauPlan s1 s1.ctr (w0 % 16) (w0 / 16 % 32) f (w0 / 2 ^ 32) (r / 2 ^ 64 % 2 ^ 64) (r / 2 ^ 128 % 2 ^ 64) (w0 / 2 ^ 16 % 2 ^ 13) n =
          .ok (s2, src, dst, ps) →
        (∀ s5, askLeave s2 2 = .error (.wait s5) → exec i s = .next (Claim.waits s5 i)) ∧
        (askLeave s2 2 = .ok s3 → (∀ s5, bauIssue s3 dst src = .error (.wait s5) → exec i s = .next (Claim.waits s5 i)) ∧
          (bauIssue s3 dst src = .ok s4 →
            ∃ t c rest, exec i s = .next t ∧ c.hart = s.cur ∧ c.left = ps.length ∧ c.dst = dst ∧ c.weight = 2 ∧ c.stopped = false ∧
              c.descVa = rdX s a ∧ Claim.enqueued s4 t s1.ctr c ps rest ∧ t.ctr = s4.ctr + 1 ∧
              (rest = [] → (me t).pc = (me s4).pc + 4 ∧ (me t).wait = none) ∧
              (rest ≠ [] → (me t).pc = (me s4).pc ∧ (me t).wait = some i)))))) ∧
  (∀ (s : State) (a : RegIx) (id : Nat) (c : BauCmd), (s.cmds.find? fun kv => kv.2.hart == s.cur && !kv.2.todo.isEmpty) = some (id, c) →
    ∃ t rest, exec (.bcmd a) s = .next t ∧ Claim.enqueued s t id c c.todo rest ∧
      (rest = [] → (me t).pc = (me s).pc + 4 ∧ (me t).wait = none) ∧
      (rest ≠ [] → (me t).pc = (me s).pc ∧ (me t).wait = some (.bcmd a))) ∧
  (∀ (s : State) (bank : Nat), bankQ s bank = [] → exec (.bauPiece bank) s = .next s) ∧
  (∀ (s : State) (bank : Nat) (p : Piece) (q : List Piece) (c : BauCmd) (f : Fmt) (e : Nat), bankQ s bank = p :: q →
    aget? s.cmds p.cmd = some c → bauFmt p.fmt = some f → Claim.bankBytes p.fmt = some e → Claim.plainPiece s bank p c e →
    p.op ≠ .combine →
    ∃ t got, exec (.bauPiece bank) s = .next t ∧ Claim.pieceLeft s t bank q p c got ∧
      (∀ i v, i < p.at_.len / e → Claim.pieceValue s p f e i = some v → Claim.bankValue t [p.at_] (i * e) e = v % 256 ^ e) ∧
      -- a source piece of a REDUCE keeps what it reads, in its bank's order
      ((∀ o, p.op ≠ .gather o) → got = c.got) ∧
      (∀ o, p.op = .gather o → t.mem = s.mem ∧
        got = aput c.got o ((List.range (p.at_.len / e)).map fun i => Claim.bankValue s [p.at_] (i * e) e)) ∧
      (∀ x, ¬ (p.at_.pa / 64 ≤ x / 64 ∧ x / 64 * 64 < p.at_.pa + p.at_.len) → rawByte t x = rawByte s x)) ∧
  -- the combining piece writes the wrapping sum of what was kept, or the root of the tree over it
  (∀ (s : State) (bank : Nat) (p : Piece) (q : List Piece) (c : BauCmd) (f : Fmt) (e : Nat), bankQ s bank = p :: q →
    aget? s.cmds p.cmd = some c → bauFmt p.fmt = some f → Claim.bankBytes p.fmt = some e → p.op = .combine →
    (c.left ≠ 1 → exec (.bauPiece bank) s = .next s) ∧
    (c.left = 1 → c.stopped = false → aget? s.bankErr bank = none → c.xdirty.toNat % 2 = 0 → e ≤ p.at_.len → Claim.keyHeld s p.at_.key →
      ∃ t, exec (.bauPiece bank) s = .next t ∧ Claim.pieceLeft s t bank q p c c.got ∧
        let vs := c.got.flatMap fun kv => kv.2
        let new := Claim.bankValue t [p.at_] 0 e
        (f = .i32 → new = vs.sum % 2 ^ 32) ∧
        (f ≠ .i32 → vs ≠ [] → vs.length ≤ 2 ^ 23 → (∀ v ∈ vs, v < 2 ^ (8 * e)) → ∃ root st,
          Claim.treeRuns (Claim.joins f .sum .rne) (fun k => vs[k]?) 23 ⟨0, 0⟩ (some root) st ∧ new = Claim.canonical f root))) ∧
  -- a piece under an emptied key slot does nothing, and its issuer takes an access fault
  (∀ (s : State) (bank : Nat) (p : Piece) (q : List Piece) (c : BauCmd) (f : Fmt), bankQ s bank = p :: q →
    aget? s.cmds p.cmd = some c → bauFmt p.fmt = some f → (p.op = .combine → c.left = 1) →
    (∃ r ∈ p.at_ :: Claim.pieceSources p, ¬ Claim.keyHeld s r.key) →
    ∃ u, exec (.bauPiece bank) s = .next (takeException u c.hart 7 (BitVec.ofNat 64 p.at_.va)) ∧ bankQ u bank = q ∧ u.mem = s.mem) ∧
  (∀ (s : State) (b a d : RegIx),
    let i : Instr := .bgax b a d
    (lentTo s s.cur = true ∨ regsBusy s s.cur = true → exec i s = .next (Claim.waits s i)) ∧
    (∀ e, Claim.vecSees s 0 e → Claim.vecGate s i e
      (e.fmt = .fp32 ∧ e.blk = 0 ∧ b.val % 2 = 0 ∧ groupOkAt d.val e.grp = true ∧ overlaps d.val e.grp b.val 2 = false ∧ e.vl ≤ 32 * e.lanes)
      (Claim.tagged e b.val 1 (tagOf .i32 0) ∧ Claim.tagged e (b.val + 1) 1 (tagOf .fp32 0))
      (
        let va := (rdX s a).toNat
        (va % 16 ≠ 0 → exec i s = .next (Claim.raised s 30 (rdX s a))) ∧
        (va % 16 = 0 → ∀ s1 r, readRecord s va 16 25 = .ok (s1, r) →
          let w1 := r / 2 ^ 64
          let base := r % 2 ^ 64
          let len := w1 % 2 ^ 13
          let idx := (List.range e.vl).map fun k => elemOf 32 (e.group b.val 1) k
          let ok := Claim.tableDescriptor r (32 * e.lanes * 2 ^ e.lg)
          (¬ ok ∨ (∃ k ∈ idx, w1 / 2 ^ 32 ≤ k) → exec i s = .next (Claim.raised s1 30 (rdX s a))) ∧
          (ok → e.vl = 0 → exec i s = .next (Claim.passed s1)) ∧
          (ok → (∀ k ∈ idx, k < w1 / 2 ^ 32) → 0 < e.vl → ∀ f eb s2 s3 s4 rows, bauFmt (w1 / 2 ^ 13 % 32) = some f →
            Claim.bankBytes (w1 / 2 ^ 13 % 32) = some eb →
            Claim.rowRanges s1 base ((len * eb + 63) / 64 * 64) (len * eb) idx = .ok (s2, rows) → askLeave s2 2 = .ok s3 →
            bauIssue s3 [] rows.flatten = .ok s4 →
            (piecesAhead s4 s4.cur rows.flatten = true → exec i s = .next (Claim.waits s4 i)) ∧
            (piecesAhead s4 s4.cur rows.flatten = false → ∀ pv, poisonedRng s4 rows.flatten = some pv →
              exec i s = .next (Claim.raised s4 51 (BitVec.ofNat 64 pv))) ∧
            (piecesAhead s4 s4.cur rows.flatten = false → poisonedRng s4 rows.flatten = none →
              ∃ t g, exec i s = .next t ∧ (coreOf t (myCore s4)).refills = (coreOf s4 (myCore s4)).refills ++ [g] ∧
                g.slot = mySlot s4 ∧ g.vd = d.val ∧ g.locs = [] ∧ g.weight = 2 ∧ g.vals.length = len ∧
                (∀ k < len, g.vals[k]? = some (k, ((List.range e.vl).zip rows).foldl (fun acc x =>
                  accStep (elemOf 32 (e.group (b.val + 1) 1) x.1) f (Claim.bankValue s4 x.2 (k * eb) eb) acc) 0)) ∧
                (me t).pc = (me s4).pc + 4 ∧ (me t).v = (me s4).v ∧ t.mem = s4.mem ∧
                (∀ k < e.grp, hartTag (me t) (d.val + k) = tagOf .fp32 0))))))) ∧
  (∀ (s : State) (core : Nat),
    ((coreOf s core).refills.find? (fun g => g.locs.isEmpty) = none → exec (.bgaxSumArrival core) s = .next s) ∧
    (∀ g n (v : Nat → Nat), (coreOf s core).refills.find? (fun g => g.locs.isEmpty) = some g → g.vals = (List.range n).map (fun k => (k, v k)) →
      1 ≤ lanesOf s (8 * core + g.slot) → g.slot < 8 →
      let h := 8 * core + g.slot
      let per := 32 * lanesOf s h
      ∃ t, exec (.bgaxSumArrival core) s = .next t ∧ (coreOf t core).refills = (coreOf s core).refills.erase g ∧
        (dieOf t (dieOfCore core)).leaveOut = (dieOf s (dieOfCore core)).leaveOut - g.weight ∧
        (∀ k < n, elemOf 32 (hartV (hartOf t h) (g.vd + k / per)) (k % per) = v k % 2 ^ 32) ∧
        (∀ r k, k < per → ¬ (∃ m < n, r = g.vd + m / per ∧ k = m % per) →
          elemOf 32 (hartV (hartOf t h) r) k = elemOf 32 (hartV (hartOf s h) r) k) ∧
        (∀ o, o ≠ h → hartOf t o = hartOf s o) ∧ t.mem = s.mem))

/-- PKLCFG, PKLQ, PKLGET and a query of a batch (spec/11 R223 to R233; spec/16 R327 to R330). -/
def Obligations.ProductKeyLookup : Prop :=
  (∀ (s : State) (u : Fin 12) (a : RegIx),
    let i : Instr := .pklcfg u a
    let va := (rdX s a).toNat
    (va % 64 ≠ 0 → exec i s = .next (Claim.raised s 30 (rdX s a))) ∧
    (va % 64 = 0 → ∀ s1 r, readRecord s va 64 25 = .ok (s1, r) →
      let c := hartCtx s1 s1.cur
      (¬ Claim.lookupConfig r → exec i s = .next (Claim.raised s1 30 (rdX s a))) ∧
      (Claim.lookupConfig r → c.ctxbase ≠ 0 → exec i s = .next (Claim.passed (areaWriteD s1 c (Claim.configAt c.ctxbase u.val) 64 r))) ∧
      (Claim.lookupConfig r → c.ctxbase = 0 → exec i s = .next (Claim.passed s1)))) ∧
  (∀ (s : State) (u : Fin 12) (a d : RegIx),
    let i : Instr := .pklq u a d
    let va := (rdX s a).toNat
    (va % 32 ≠ 0 → exec i s = .next (Claim.raised s 30 (rdX s a))) ∧
    (va % 32 = 0 → ∀ s1 r, readRecord s va 32 25 = .ok (s1, r) →
      let c := hartCtx s1 s1.cur
      let cfg := areaRead s1 c.tid (Claim.configAt c.ctxbase u.val) 64
      let post := r / 2 ^ 210 % 2 = 1
      let off := evqLog (myEvq s1 (r / 2 ^ 208 % 4)) = 0
      let ok := c.ctxbase ≠ 0 ∧ cfg / 2 ^ 192 % 2 ^ 13 ≠ 0 ∧ r / 2 ^ 192 % 2 ^ 16 ≠ 0 ∧ r / 2 ^ 211 % 2 ^ 13 = 0 ∧ r / 2 ^ 240 % 2 ^ 16 = 0
      let b (n : Nat) := Claim.batchAt c.ctxbase (ghartOf s1 s1.cur) n
      (¬ ok → exec i s = .next (Claim.raised s1 30 (rdX s a))) ∧
      (ok → post → off → exec i s = .next (Claim.raised s1 28 (wordOf i))) ∧
      (ok → ¬ (post ∧ off) → (∀ n < 8, Claim.batchUsed s1 c.tid (b n)) → exec i s = .next (Claim.waits s1 i)) ∧
      (ok → ¬ (post ∧ off) → ∀ n < 8, ¬ Claim.batchUsed s1 c.tid (b n) → (∀ m < n, Claim.batchUsed s1 c.tid (b m)) →
        (∀ s2, askLeave s1 4 = .error (.wait s2) → exec i s = .next (Claim.waits s2 i)) ∧
        (∀ s2, askLeave s1 4 = .ok s2 →
          let gen := (Claim.batchTicket s1 c.tid (b n) / 2 ^ 14 + 1) % 2 ^ 50
          let k := u.val + 2 ^ 4 * n + 2 ^ 7 * (ghartOf s1 s1.cur % 128) + 2 ^ 14 * gen
          let s3 := areaWriteD s2 c (b n) 128 (r + 2 ^ 256 * cfg + 2 ^ 768 + 2 ^ 832 * k + 2 ^ 896)
          let j : PklJob := { seat := seatOfCore s1 (myCore s1), recPa := b n, ctx := c, weight := 4 }
          exec i s = .next (Claim.wroteX { s3 with pkl := aput s3.pkl u.val (aget [] s3.pkl u.val ++ [j]) } d (BitVec.ofNat 64 k)))))) ∧
  (∀ (s : State) (w : Bool) (a d : RegIx),
    let i : Instr := .pklget w a d
    let k := (rdX s a).toNat
    let c := hartCtx s s.cur
    let b := Claim.batchAt c.ctxbase (k / 2 ^ 7 % 2 ^ 7) (k / 2 ^ 4 % 8)
    let known := c.ctxbase ≠ 0 ∧ Claim.batchUsed s c.tid b ∧ Claim.batchTicket s c.tid b = k
    let st := Claim.batchStatus s c.tid b
    let mine := st % 4 = 3 ∧ k / 2 ^ 7 % 2 ^ 7 = ghartOf s s.cur
    (¬ known → exec i s = .next (Claim.wroteX s d 0)) ∧
    (known → w = true → st % 4 ≠ 3 → exec i s = .next (Claim.waits s i)) ∧
    (known → w = false ∨ st % 4 = 3 → ¬ mine → exec i s = .next (Claim.wroteX s d (BitVec.ofNat 64 st))) ∧
    (known → w = false ∨ st % 4 = 3 → mine → exec i s =
      .next (Claim.wroteX (acquireCover (areaWriteD s c (b + 0x70) 8 0) (myCore s)
        (Claim.batchOutputs (areaRead s c.tid b 32) (areaRead s c.tid (b + 32) 64))) d (BitVec.ofNat 64 st)))) ∧
  (∀ (s : State) (u : Fin 12), aget [] s.pkl u.val = [] ∨ (∃ j r, aget [] s.pkl u.val = j :: r ∧ j.park ≠ none) →
    exec (.pklQuery u) s = .next s) ∧
  (∀ (s : State) (u : Fin 12) (j : PklJob) (r : List PklJob), aget [] s.pkl u.val = j :: r → j.park = none → j.fatal = none →
    let i : Instr := .pklQuery u
    let desc := areaRead s j.ctx.tid j.recPa 32
    let cfg := pklCfgOf (areaRead s j.ctx.tid (j.recPa + 32) 64)
    let q := Claim.batchStatus s j.ctx.tid j.recPa / 2 ^ 32 % 2 ^ 32
    let n := desc / 2 ^ 192 % 2 ^ 16
    let post := desc / 2 ^ 210 % 2 = 1
    -- the next query of the batch: the count of those done moves on
    (∀ s1, j.fin = none → q + 1 < n → pklQueryRun s j.ctx cfg desc q = .ok s1 →
      exec i s = .next (areaWriteD s1 j.ctx (j.recPa + 0x60) 8 (2 + 2 ^ 32 * (q + 1)))) ∧
    -- a page that is not there parks the batch at that query
    (∀ s1 va kind, j.fin = none → q < n → pklQueryRun s j.ctx cfg desc q = .error (.page s1 va kind) →
      let s2 := areaWriteD s j.ctx (j.recPa + 0x60) 8 (2 + 2 ^ 32 * q)
      exec i s = .next (Claim.headJob (postFault s2 j.ctx va kind 25 (.pkl u.val)).1 u.val
        { j with park := some (postFault s2 j.ctx va kind 25 (.pkl u.val)).2 })) ∧
    -- any other fault ends it, a consumed error with RESULT 2
    (∀ s1 va cause, j.fin = none → q < n → pklQueryRun s j.ctx cfg desc q = .error (.bad s1 va cause) → ¬ post →
      exec i s = .next (Claim.batchDone s u.val j (if cause = 51 then 2 else 1) cause)) ∧
    -- no query left: without POST it is done; with it its record is posted, or waits for room
    (j.fin = none → n ≤ q → ¬ post → exec i s = .next (Claim.batchDone s u.val j 0 0)) ∧
    (∀ res cause, j.fin = some (res, cause) → ¬ post → exec i s = .next (Claim.batchDone s u.val j res cause)) ∧
    (∀ res cause, j.fin = some (res, cause) ∨ j.fin = none ∧ n ≤ q ∧ res = 0 ∧ cause = 0 → post →
      let j1 := { j with fin := some (res, cause) }
      let gh := jobHart s j
      let ws := (complWord 2 (if res = 2 then 2 else 0) gh (desc / 2 ^ 224 % 2 ^ 16), desc / 2 ^ 64 % 2 ^ 64, n, 0)
      (∀ s1, evqPost s j.ctx j.seat (desc / 2 ^ 208 % 4) ws = .done s1 →
        exec i s = .next (Claim.batchDone (areaWriteD s1 j.ctx (j.recPa + 0x70) 8 0) u.val j1 res cause)) ∧
      (∀ s1, evqPost s j.ctx j.seat (desc / 2 ^ 208 % 4) ws = .full s1 → exec i s = .next (Claim.headJob s1 u.val j1)))) ∧
  -- a fault that the service declares fatal ends the batch with RESULT 1, logged
  (∀ (s : State) (u : Fin 12) (j : PklJob) (r : List PklJob) f, aget [] s.pkl u.val = j :: r → j.park = none → j.fatal = some f →
    j.fin = none → areaRead s j.ctx.tid j.recPa 32 / 2 ^ 210 % 2 = 0 →
    let s1 := logFault s j.ctx.ctxbase j.ctx.tid 31 (jobHart s j) 5 f.2 0
    areaRead s1 j.ctx.tid j.recPa 32 / 2 ^ 210 % 2 = 0 →
    exec (.pklQuery u) s = .next (Claim.batchDone s1 u.val { j with fatal := none } 1 31)) ∧
  -- the k best scores, in the order of rank
  (∀ (k : Nat) (l : List (Nat × Nat)), (l.map fun x => x.2).Nodup → (∀ x ∈ l, Claim.finiteScore x) →
    ∃ rest, (kBest k l ++ rest).Perm l ∧ (kBest k l).length = min k l.length ∧
      (kBest k l).Pairwise Claim.before ∧ ∀ x ∈ kBest k l, ∀ y ∈ rest, Claim.before x y)

/-- CTXSV, CTXLD and LPART; launch and bind records, the start and the end of a gang, pre-emption, the policy; grants and leave (spec/12
R234 to R243; spec/13 R244, R250, R253 to R255; spec/15 R304; spec/16 R315; spec/02 R20, R23). That CTXSVs which meet one quiescence
share an image is log entry 36; where firmware keeps its copy of a launch record, and the order of its checks, 37; which seat is free
for a new record, 38. -/
def Obligations.ContextsSeatsAndGrants : Prop :=
  -- CTXSV and CTXLD: illegal in U-mode; outside a gang there is nothing to save and nothing to load
  (∀ s : State,
    ((me s).priv = .u → exec .ctxsv s = .next (Claim.raised s 2 (wordOf .ctxsv)) ∧
      exec .ctxld s = .next (Claim.raised s 2 (wordOf .ctxld))) ∧
    ((me s).priv ≠ .u → (coreOf s (myCore s)).gang = none → exec .ctxsv s = .next (Claim.passed s) ∧
      exec .ctxld s = .next (Claim.raised s 49 (me s).xc.ctxbase))) ∧
  -- of a gang: quiesce, then save and run on, or check, restore and run on; images that fail the checks change nothing and raise 49
  (∀ (s : State) (seat : Nat), (me s).priv ≠ .u → (coreOf s (myCore s)).gang = some seat →
    let t := ctxStep s seat false
    let u := ctxStep s seat true
    ((gangOf s seat).state = .running → (gangOf t seat).state = .checkpoint s.cur false ∧ (gangOf u seat).state = .checkpoint s.cur true) ∧
    (quiesced t seat = false → exec .ctxsv s = .next (Claim.waits t .ctxsv)) ∧
    (quiesced t seat = true →
      let met := ((gangHarts (gangOf t seat)).filter fun h => decide ((hartOf t h).wait = some .ctxsv)).filter fun h => h != t.cur
      let went := met.foldl (fun u h => updHart u h fun r => retire { r with pc := r.pc + 4 }) (nextPc t)
      exec .ctxsv s = .next (updMe (runOn (saveImages went seat false) seat true) retire)) ∧
    (quiesced u seat = false → exec .ctxld s = .next (Claim.waits u .ctxld)) ∧
    (quiesced u seat = true → imagesOk u (gangOf u seat) = false →
      exec .ctxld s = .next (Claim.raised (runOn u seat true) 49 (me u).xc.ctxbase)) ∧
    (quiesced u seat = true → imagesOk u (gangOf u seat) = true → exec .ctxld s = .next (updMe (runOn
      (restoreImages ((gangCoreList (gangOf u seat)).foldl dropWork u) seat) seat (sameShape u (gangOf u seat))) retire))) ∧
  -- what a load checks: each core's image
  (∀ (s : State) (g : Gang), imagesOk s g = true ↔
    ∀ c < g.h * g.w, Claim.goodImage (areaGet s g.tid (g.ctxbase + c * 0x18B000) 0x18B000) g.part (g.h * g.w) (g.h + g.w * 16)) ∧
  -- LPART: in M-mode with the other slots idle it sets the partition and empties what depends on it, x and f registers kept
  (∀ (s : State) (n : Fin 4),
    let i : Instr := .lpart n
    let ok := (me s).priv = .m ∧ ∀ k < 8, k ≠ mySlot s → (hartOf s (8 * myCore s + k)).run = .idle
    (¬ ok → exec i s = .next (Claim.raised s 2 (wordOf i))) ∧
    (ok → ∃ t, exec i s = .next t ∧ (coreOf t (myCore s)).part = 2 ^ n.val ∧ (me t).pc = (me s).pc + 4 ∧ t.mem = s.mem ∧
      (∀ k < 8, (
        let a := hartOf s (8 * myCore s + k)
        let b := hartOf t (8 * myCore s + k)
        b.v = [] ∧ b.tags = [] ∧ b.sc = [] ∧ b.p = [] ∧ b.spill = [] ∧ b.xc.vl = 0 ∧ b.xc.vtype = 0x8000000000000000 ∧
          b.xc.grant = 32 / 2 ^ n.val ∧ b.xc.vstart = 0 ∧ b.x = a.x ∧ b.f = a.f ∧ b.priv = a.priv ∧ b.run = a.run)) ∧
      (∀ h, coreOfHart h ≠ myCore s → hartOf t h = hartOf s h))) ∧
  -- GANG_END: by itself once nothing of it is under way, or ended by the stub once it is quiesced, with its log entry
  (∀ (s : State) (seat : Nat), aget? s.gangs seat = none → exec (.gangEnd seat) s = .next s) ∧
  (∀ (s : State) (seat : Nat) (g : Gang), aget? s.gangs seat = some g →
    (g.state = .running → gangDone s seat = false → exec (.gangEnd seat) s = .next s) ∧
    (g.state = .running → gangDone s seat = true → ∃ t, exec (.gangEnd seat) s = .next t ∧ Claim.gangGone t seat g ∧
      Claim.seatSays t seat 3 0 0 (seatSeq s seat)) ∧
    (∀ cause gh pc tval, g.state = .ending cause gh pc tval →
      let q := quiesce s seat
      (quiesced q seat = false → exec (.gangEnd seat) s = .next q) ∧
      (quiesced q seat = true → ∃ t, exec (.gangEnd seat) s = .next t ∧
        t = freeSeat (logFault (pklFree (pklLeave (settle q seat) seat) g.tid g.ctxbase (some 3)) g.ctxbase g.tid cause gh 0 pc tval)
          seat 2 cause ∧
        Claim.gangGone t seat g ∧ Claim.seatSays t seat 3 2 cause (seatSeq s seat)))) ∧
  -- LAUNCH_RECORD_CONSUME: nothing, a refusal with its event, or a seat
  (∀ (s : State) (q : Fin 256),
    let i : Instr := .launchRecordConsume q
    (s.io.mode.toNat.testBit 0 = true ∨ s.io.recovery = true ∨ s.io.mgcDown = 0xF ∨ lqHead s q.val = none → exec i s = .next s) ∧
    (∀ r, s.io.mode.toNat.testBit 0 = false → s.io.recovery = false → s.io.mgcDown ≠ 0xF → lqHead s q.val = some r →
      let tells (reason : Nat) : Prop := exec i s = .next (mailbox (lqPop s q.val)
        [mbHead 0x8002 24 0, BitVec.ofNat 64 q.val, BitVec.ofNat 64 (lqRp s q.val % 2 ^ lqLog s q.val), BitVec.ofNat 64 reason])
      let first := ∃ k rk seat g, k ≠ q.val ∧ lqHead s k = some rk ∧ Claim.accepted s k rk ∧ Claim.servedFirst s k rk q.val r ∧
        Claim.placed s rk seat g
      (Claim.launchTid r ≠ Claim.queueTid s q.val → tells 0) ∧
      (Claim.launchTid r = Claim.queueTid s q.val → Claim.launchReserved r → tells 1) ∧
      (Claim.launchTid r = Claim.queueTid s q.val → ¬ Claim.launchReserved r → ¬ Claim.launchShape r → tells 2) ∧
      (Claim.accepted s q.val r →
        (first ∨ (∀ seat g, ¬ Claim.placed s r seat g) → exec i s = .next s) ∧
        (∀ seat g, ¬ first → Claim.placed s r seat g → ∃ t, exec i s = .next t ∧
          bindValid (bindW t seat 0) = true ∧ bindPreempt (bindW t seat 0) = false ∧ bindRgn (bindW t seat 0) = g ∧
          bindPart (bindW t seat 0) = 2 ^ lrPart r ∧ bindPrio (bindW t seat 0) = lrPrio r ∧
          bindGcap (bindW t seat 0) = min 63 (lrGcap r) ∧ bindResume (bindW t seat 0) = lrResume r ∧
          bindSeq (bindW t seat 0) = (s.io.seqNo + 1) % 2 ^ 32 ∧ bindW t seat 2 = lrEntry r ∧ bindW t seat 3 = lrArg r ∧
          launchRec t seat = r ∧ lqRp t q.val = (lqRp s q.val + 1) % 2 ^ 32 ∧
          (let a := bindW t seat 1
           a % 64 = 0 ∧ a < 0xC000000000 ∧ ∀ x, x < a ∨ a + 64 ≤ x → rawByte t x = rawByte s x) ∧
          ∀ k, k / 4 ≠ seat → aget 0 t.binds k = aget 0 s.binds k)))) ∧
  -- BIND_RECORD_PUBLISH: not a new record; refused with ENDHOW 3 and cause 29; or waiting, its context existing from now on
  (∀ (s : State) (seat : Nat),
    let w0 := bindW s seat 0
    let seen := bindValid w0 = true ∧ bindSeq w0 ≠ seatSeq s seat ∧ seatState s seat ≠ 1 ∧ seatState s seat ≠ 2 ∧ s.io.recovery = false
    (¬ seen → exec (.bindRecordPublish seat) s = .next s) ∧
    (seen → ∃ t, exec (.bindRecordPublish seat) s = .next t ∧ t.mem = s.mem ∧ t.binds = s.binds ∧
      (Claim.bindRefusal s seat → Claim.seatSays t seat 3 3 29 (bindSeq w0)) ∧
      (¬ Claim.bindRefusal s seat →
        (bindPreempt w0 = false → Claim.seatSays t seat 1 0 0 (bindSeq w0)) ∧ (bindPreempt w0 = true → Claim.seatSays t seat 3 3 0 (bindSeq w0)) ∧
        aget 0 t.waitUs seat = 0 ∧ aget? t.io.contexts (lrCtxbase (launchRec s seat) / 4096 % 2 ^ 40 * 4096) ≠ none))) ∧
  -- GANG_START: only when every core of its region is free, powered and reserved for it
  (∀ (s : State) (seat : Nat),
    let w0 := bindW s seat 0
    let r := launchRec s seat
    let cap := min (bindGcap w0) (32 / bindPart w0)
    let none_ := seatState s seat ≠ 1 ∨ (∃ d < 4, (dieOf s d).spares <
        ((rgnCores (bindRgn w0)).filter fun c => s.io.retiring.contains c && dieOfCore c == d).length) ∨ ∃ c ∈ rgnCores (bindRgn w0), (coreOf s c).gang ≠ none ∨ (dieOf s (dieOfCore c)).powered = false ∨
      ∃ k, Claim.waitsFor s k c ∧ Claim.beats s k seat
    (none_ → exec (.gangStart seat) s = .next s) ∧
    (Claim.startable s seat → bindResume w0 = false → ∃ t g, exec (.gangStart seat) s = .next t ∧
      Claim.seatSays t seat 2 0 0 (seatSeq s seat) ∧ aget? t.gangs seat = some g ∧ g.state = .running ∧
      (⟨g.row0, g.col0, g.h, g.w⟩ : Rgn) = bindRgn w0 ∧ g.part = bindPart w0 ∧ g.gcap = bindGcap w0 ∧ g.prio = bindPrio w0 ∧
      g.ctxbase = lrCtxbase r / 4096 % 2 ^ 40 * 4096 ∧ g.tid = lrTid r ∧ g.startUs = s.us ∧ g.grant ≤ cap ∧ (0 < cap → 0 < g.grant) ∧
      aget? t.io.contexts g.ctxbase = some (s.us, g.tid) ∧
      (∀ c < g.h * g.w, (
        let k := coreOf t (gangCore g c)
        k.gang = some seat ∧ k.cidx = c ∧ k.part = g.part ∧ k.tile = [] ∧ k.sdm = [] ∧ k.slots = [] ∧ k.q = [] ∧ k.ac = [] ∧ k.dcache = [])) ∧
      ∀ i < g.h * g.w * g.part, Claim.startedFresh g r i (bindW s seat 2) (bindW s seat 3) (hartOf t (gangHart g i))) ∧
    (Claim.startable s seat → bindResume w0 = true →
      let b := Claim.boundFor s seat
      (imagesOk b.1 b.2 = false → ∃ t, exec (.gangStart seat) s = .next t ∧ Claim.gangGone t seat b.2 ∧
        Claim.seatSays t seat 3 3 49 (seatSeq s seat)) ∧
      (imagesOk b.1 b.2 = true → ∃ t, exec (.gangStart seat) s = .next t ∧ Claim.seatSays t seat 2 0 0 (seatSeq s seat)))) ∧
  -- PREEMPT_REQUEST, and the end of a pre-emption
  (∀ (s : State) (seat : Nat) (ctl : Word),
    let u := setBindW s seat 0 (bindW s seat 0 / 4 * 4 + ctl.toNat % 4)
    (ctl.toNat % 4 = 1 → exec (.preemptRequest seat ctl) s = .next u) ∧
    (ctl.toNat % 4 ≠ 1 →
      (seatState s seat = 1 → exec (.preemptRequest seat ctl) s = .next (setSeat u seat 3 3 0 (seatSeq s seat))) ∧
      (seatState s seat ≠ 1 → seatState s seat ≠ 2 → exec (.preemptRequest seat ctl) s = .next u) ∧
      (seatState s seat = 2 → (gangOf s seat).state = .running → ∃ t, exec (.preemptRequest seat ctl) s = .next t ∧
        (gangOf t seat).state = .saving ∧
        ∀ h ∈ gangHarts (gangOf s seat), (hartOf t h).pc = (hartOf s h).pc ∧
          ((hartOf s h).vred = 0 → (hartOf t h).wait = none ∧ (hartOf t h).park = none)) ∧
      -- one that meets a checkpoint takes its quiescence over; a CTXSV that waits in it goes on with the image
      (∀ by_ load, seatState s seat = 2 → (gangOf s seat).state = .checkpoint by_ load → (gangHarts (gangOf s seat)).Nodup →
        ∃ t, exec (.preemptRequest seat ctl) s = .next t ∧ (gangOf t seat).state = .saving ∧ t.mem = s.mem ∧
          ∀ h, (hartOf t h).pc = if h ∈ gangHarts (gangOf s seat) ∧ (hartOf s h).wait = some .ctxsv then (hartOf s h).pc + 4
            else (hartOf s h).pc))) ∧
  (∀ (s : State) (seat : Nat),
    (aget? s.gangs seat = none → exec (.preemptQuiesced seat) s = .next s) ∧
    (∀ g, aget? s.gangs seat = some g → g.state ≠ .saving → exec (.preemptQuiesced seat) s = .next s) ∧
    (∀ g, aget? s.gangs seat = some g → g.state = .saving →
      let q := quiesce s seat
      (quiesced q seat = false → exec (.preemptQuiesced seat) s = .next q) ∧
      (quiesced q seat = true → ∃ t, exec (.preemptQuiesced seat) s = .next t ∧
        t = freeSeat (saveImages (pklLeave (settle q seat) seat) seat true) seat 1 0 ∧ Claim.gangGone t seat g ∧
        Claim.seatSays t seat 3 1 0 (seatSeq s seat)))) ∧
  -- SCHEDULING_QUANTUM and PRIORITY_AGING: only in hardware scheduling mode, by firmware that runs
  (∀ (s : State) (seat : Nat), s.io.mode.toNat.testBit 0 = true ∨ s.io.mgcDown = 0xF → exec (.schedulingQuantum seat) s = .next s ∧
    exec (.priorityAging seat) s = .next s) ∧
  (∀ (s : State) (seat : Nat) (g : Gang), s.io.mode.toNat.testBit 0 = false → s.io.mgcDown ≠ 0xF → aget? s.gangs seat = some g →
    let due := g.state = .running ∧ seatState s seat = 2 ∧ g.startUs + 10000 ≤ s.us ∧
      ∃ k, g.prio ≤ bindPrio (bindW s k 0) ∧ ∃ c ∈ gangCoreList g, Claim.waitsFor s k c
    (¬ due → exec (.schedulingQuantum seat) s = .next s) ∧
    (due → ∃ t, exec (.schedulingQuantum seat) s = .next t ∧ (gangOf t seat).state = .saving ∧ t.io.requeue = s.io.requeue ++ [seat] ∧
      bindPreempt (bindW t seat 0) = true ∧ t.mem = s.mem)) ∧
  (∀ (s : State) (seat : Nat), s.io.mode.toNat.testBit 0 = false → s.io.mgcDown ≠ 0xF → aget? s.gangs seat = none →
    (seat ∉ s.io.requeue → exec (.schedulingQuantum seat) s = .next s) ∧
    (seat ∈ s.io.requeue → (seatState s seat ≠ 3 ∨ seatHow s seat ≠ 1) → ∃ t, exec (.schedulingQuantum seat) s = .next t ∧
      seat ∉ t.io.requeue ∧ t.binds = s.binds) ∧
    (seat ∈ s.io.requeue → seatState s seat = 3 → seatHow s seat = 1 →
      let r := launchRec s seat
      let u := updIo s fun io => { io with requeue := io.requeue.filter fun k => k != seat }
      ((∀ k g, ¬ Claim.placed u r k g) → exec (.schedulingQuantum seat) s = .next s) ∧
      (∀ k g, Claim.launchShape r → Claim.placed u r k g → ∃ t, exec (.schedulingQuantum seat) s = .next t ∧ seat ∉ t.io.requeue ∧
        bindValid (bindW t k 0) = true ∧ bindResume (bindW t k 0) = true ∧ bindSeq (bindW t k 0) = (s.io.seqNo + 1) % 2 ^ 32 ∧
        bindW t k 2 = lrEntry r ∧ bindW t k 3 = lrArg r ∧ launchRec t k = r))) ∧
  (∀ (s : State) (seat : Nat), s.io.mode.toNat.testBit 0 = false → s.io.mgcDown ≠ 0xF →
    let p := bindPrio (bindW s seat 0)
    (¬ (seatState s seat = 1 ∧ p < 7 ∧ 50000 ≤ aget 0 s.waitUs seat) → exec (.priorityAging seat) s = .next s) ∧
    (seatState s seat = 1 → p < 7 → 50000 ≤ aget 0 s.waitUs seat → ∃ t, exec (.priorityAging seat) s = .next t ∧
      bindPrio (bindW t seat 0) = p + 1 ∧ aget 0 t.waitUs seat = aget 0 s.waitUs seat - 50000 ∧
      bindW t seat 0 / 2 ^ 32 = bindW s seat 0 / 2 ^ 32 ∧ bindW t seat 0 % 2 ^ 17 = bindW s seat 0 % 2 ^ 17 ∧
      bindW t seat 0 / 2 ^ 20 % 2 ^ 7 = bindW s seat 0 / 2 ^ 20 % 2 ^ 7)) ∧
  -- GRANT_CHANGE and THERMAL_GRANT_LIMIT: from 1 to min(GCAP, L), at most once in 10 µs, and the limit only lowers
  (∀ (s : State) (seat grant : Nat),
    (aget? s.gangs seat = none → exec (.grantChange seat grant) s = .next s ∧ exec (.thermalGrantLimit seat grant) s = .next s) ∧
    (∀ g, aget? s.gangs seat = some g →
      let ok := 1 ≤ grant ∧ grant ≤ min g.gcap (32 / g.part) ∧ g.grantAt ≤ s.us
      let t := setGang s seat { g with grant := grant, grantAt := s.us + 10 }
      (ok → exec (.grantChange seat grant) s = .next t) ∧ (¬ ok → exec (.grantChange seat grant) s = .next s) ∧
      (ok → grant < g.grant → exec (.thermalGrantLimit seat grant) s = .next t) ∧
      (¬ ok ∨ g.grant ≤ grant → exec (.thermalGrantLimit seat grant) s = .next s))) ∧
  -- LEAVE_GRANT: the oldest request of the die, where it fits
  (∀ (s : State) (die : Fin 4), (dieOf s die.val).leaveQ = [] → exec (.leaveGrant die) s = .next s) ∧
  (∀ (s : State) (die : Fin 4) who units r, (dieOf s die.val).leaveQ = (who, units) :: r →
    (¬ Claim.leaveDue s die.val units → exec (.leaveGrant die) s = .next s) ∧
    (Claim.leaveDue s die.val units → ∃ t, exec (.leaveGrant die) s = .next t ∧ (dieOf t die.val).leaveQ = r ∧
      (dieOf t die.val).leaveOut = (dieOf s die.val).leaveOut + units ∧ t.mem = s.mem ∧
      (∀ h, who = .hart h → (hartOf t h).leaveOk = units ∧ (hartOf t h).ticket = none ∧ ∀ o, o ≠ h → hartOf t o = hartOf s o) ∧
      (∀ c k, who = .seq c k → (Claim.slotAt t c k).leave = units ∧ (Claim.slotAt t c k).asked = false ∧ t.harts = s.harts)))

/-- Fault records, replies and host-assisted walks, the watchdog, external debug, errors and spares, the management cores, bring-up, power
and the link (spec/13 R246 to R249, R252, R259 to R263; spec/06 R113; spec/14 R264, R275). The counting of corrected errors is log entry
39, the entry a host fill makes and who may reply 40, what power-on keeps 41, what the loss of the link ends 42, a halt's limits 46. -/
def Obligations.FaultServiceDebugAndErrors : Prop :=
  -- FAULT_RECORD_POST: to the firmware queue of the die, or as 32 bytes to the host ring, where it has room
  (∀ (s : State) (die : Fin 4), nextToPost s die.val = none → exec (.faultRecordPost die) s = .next s) ∧
  (∀ (s : State) (die : Fin 4) (f : FaultRec), nextToPost s die.val = some f →
    let a := ringAt s frRing (mbReg s 0x058) 32
    let marked := s.faults.map fun x => if x.token = f.token then { x with posted := true } else x
    (f.host = false → exec (.faultRecordPost die) s =
      .next { s with faults := marked, fwQueue := s.fwQueue ++ [(f.die, f.token)] }) ∧
    (f.host = true → ringRoom s frRing = false → exec (.faultRecordPost die) s = .next s) ∧
    (f.host = true → ringRoom s frRing = true → hbmEnd < a + 32 → exec (.faultRecordPost die) s = .fault (.noStorage a)) ∧
    (f.host = true → ringRoom s frRing = true → a + 32 ≤ hbmEnd → ∃ t, exec (.faultRecordPost die) s = .next t ∧ t.faults = marked ∧
      physRead t 0 a 8 = f.w0.toNat ∧ physRead t 0 (a + 8) 8 = f.va.toNat ∧ physRead t 0 (a + 16) 8 = f.token % 2 ^ 64 ∧
      mbReg t 0x058 = (mbReg s 0x058 + 1) % 2 ^ 32 ∧ ∀ x, x < a ∨ a + 32 ≤ x → rawByte t x = rawByte s x)) ∧
  -- FAULT_REPLY: an unknown token is ignored; else the record goes, and every access that it parked goes on or ends
  (∀ (s : State) (v : Word), (s.faults.find? fun f => f.token == v.toNat % 2 ^ 32) = none → exec (.faultReply v) s = .next s) ∧
  (∀ (s : State) (v : Word) (f : FaultRec), (s.faults.find? fun f => f.token == v.toNat % 2 ^ 32) = some f →
    let s1 := { s with faults := s.faults.filter (fun g => g.token != f.token), fwQueue := s.fwQueue.filter fun q => q.2 != f.token }
    exec (.faultReply v) s = .next (f.waiters.foldl (fun t w => replyOne t f.token (v.toNat.testBit 32) w.1 w.2) s1) ∧
    (f.waiters = [] → exec (.faultReply v) s = .next s1) ∧
    (∀ h va, f.waiters = [(.hart h, va)] → (hartOf s h).park = some f.token →
      (v.toNat.testBit 32 = false → exec (.faultReply v) s = .next (updHart s1 h fun x => { x with park := none })) ∧
      (v.toNat.testBit 32 = true → exec (.faultReply v) s =
        .next (takeException (updHart s1 h fun x => { x with stall := 0 }) h 31 (BitVec.ofNat 64 va))))) ∧
  -- HOST_SLICE_FILL: in host-assisted walks, a leaf of levels 0 to 2 goes into the slice of the record's die, and the access is retried
  (∀ (s : State) (token va : Nat) (level : Fin 5) (pte : Word),
    let i : Instr := .hostSliceFill token va level pte
    let size := 4096 * 512 ^ level.val
    ((s.faults.find? fun f => f.token == token) = none ∨ s.io.mode.toNat.testBit 2 = false ∨ 2 < level.val → exec i s = .next s) ∧
    (∀ f, (s.faults.find? fun f => f.token == token) = some f → s.io.mode.toNat.testBit 2 = true → level.val ≤ 2 → ∃ u rest,
      exec i s = .next (replyOp u (BitVec.ofNat 64 (token % 2 ^ 32))) ∧ u.faults = s.faults ∧ u.mem = s.mem ∧ u.harts = s.harts ∧
      aget [] (dieOf u f.die).slices (sliceOf f.asid va) = ⟨f.asid, f.tid, va / size * size, size, pte, 2 ^ 52, []⟩ :: rest)) ∧
  -- WATCHDOG_EXPIRY sets bit 16 of `sip`
  (∀ (s : State) (hart : Nat),
    let h := hartOf s hart
    let due := h.run = .running ∧ h.halted = false ∧ h.xc.wdog ≠ 0 ∧ h.xc.wdog.toNat ≤ h.stall
    (¬ due → exec (.watchdogExpiry hart) s = .next s) ∧
    (due → ∃ t, exec (.watchdogExpiry hart) s = .next t ∧ (hartOf t hart).pr.mip = h.pr.mip ||| 0x10000 ∧
      (hartOf t hart).pc = h.pc ∧ (∀ o, o ≠ hart → hartOf t o = hartOf s o) ∧ t.mem = s.mem)) ∧
  -- external debug
  (∀ (s : State) (hart : Nat),
    (mayHalt s hart = false → exec (.debugHalt hart) s = .next s) ∧
    (mayHalt s hart = true → ∃ t, exec (.debugHalt hart) s = .next t ∧ Claim.enteredDebug (hartOf s hart) (hartOf t hart) 3 ∧ t.mem = s.mem ∧
      ∀ o, o ≠ hart → hartOf t o = hartOf s o)) ∧
  (∀ (s : State) (hart : Nat),
    let h := hartOf s hart
    let back (b : Hart) : Prop := b.pc = h.pr.dpc ∧ b.priv = privOf (h.pr.dcsr.toNat % 4) ∧ b.x = h.x ∧ b.pr = h.pr
    (debugIdle s hart = false → exec (.debugResume hart) s = .next s ∧ exec (.debugSingleStep hart) s = .next s) ∧
    (debugIdle s hart = true →
      (∃ t, exec (.debugSingleStep hart) s = .next t ∧ back (hartOf t hart) ∧ (hartOf t hart).stepping = true ∧
        (hartOf t hart).halted = true ∧ t.mem = s.mem) ∧
      (h.pr.dcsr.toNat.testBit 2 = true → exec (.debugResume hart) s = exec (.debugSingleStep hart) s) ∧
      (h.pr.dcsr.toNat.testBit 2 = false → ∃ t, exec (.debugResume hart) s = .next t ∧ back (hartOf t hart) ∧
        (hartOf t hart).halted = false ∧ inDebug (hartOf t hart) = false ∧ t.mem = s.mem))) ∧
  (∀ (s : State) (hart : Nat) (write : Bool) (v : Word),
    let go (r : DbgReg) := exec (.debugAbstractCommand hart r write v) s
    let err (e : BitVec 3) : State := updIo s fun io => { io with dmErr := e }
    let gave (v : Word) : State := updIo s fun io => { io with dmData := v, dmErr := 0 }
    (debugIdle s hart = false → ∀ r, go r = .next (err 4)) ∧
    (debugIdle s hart = true →
      (∀ n, write = false → go (.x n) = .next (gave (hartX (hartOf s hart) n)) ∧ go (.f n) = .next (gave (aget 0 (hartOf s hart).f n.val))) ∧
      (∀ n, write = true → (∃ t, go (.x n) = .next t ∧ t.io.dmErr = 0 ∧ t.mem = s.mem ∧
          ∀ r, hartX (hartOf t hart) r = if r.val = 0 then 0 else if r = n then v else hartX (hartOf s hart) r) ∧
        (∃ t, go (.f n) = .next t ∧ t.io.dmErr = 0 ∧ t.mem = s.mem ∧ (hartOf t hart).x = (hartOf s hart).x ∧
          ∀ r : RegIx, aget 0 (hartOf t hart).f r.val = if r = n then v else aget 0 (hartOf s hart).f r.val)) ∧
      (∀ n, go (.csr n) = .next (debugCsr s hart n.toNat write v)) ∧
      (write = false → ∃ t, go (.csr 0x340) = .next t ∧ t.io.dmData = (hartOf s hart).pr.mscratch ∧ t.io.dmErr = 0 ∧ t.cur = s.cur) ∧
      (write = true → ∃ t, go (.csr 0x340) = .next t ∧ (hartOf t hart).pr.mscratch = v ∧ t.io.dmErr = 0 ∧ t.cur = s.cur ∧
        (hartOf t hart).priv = (hartOf s hart).priv))) ∧
  (∀ (s : State) (hart : Nat) (w : IWord),
    (debugIdle s hart = false → exec (.debugProgramBuffer hart w) s = .next (updIo s fun io => { io with dmErr := 4 })) ∧
    (debugIdle s hart = true → ∃ t, exec (.debugProgramBuffer hart w) s = .next t ∧ hartOf t hart = { hartOf s hart with pbuf := some w } ∧
      t.io.dmErr = 0 ∧ t.mem = s.mem)) ∧
  -- corrected errors of a structure by the hour; above 1,024 one log entry in the context of each gang on the die
  (∀ (s : State) (die : Fin 4) (part : Nat),
    let c : CorrCount := aget {} (dieOf s die.val).corr part
    let i : Instr := .correctedErrorThreshold ⟨die, part⟩
    (∃ t, exec (.correctedError ⟨die, part⟩) s = .next t ∧ t.mem = s.mem ∧ t.harts = s.harts ∧
      (aget {} (dieOf t die.val).corr part).count = (if c.since + 3600000000 ≤ s.us then 1 else c.count + 1) ∧
      (aget {} (dieOf t die.val).corr part).since = (if c.since + 3600000000 ≤ s.us then s.us else c.since) ∧
      (aget {} (dieOf t die.val).corr part).logged = (c.logged && decide (s.us < c.since + 3600000000)) ∧
      ∀ p, p ≠ part → (aget {} (dieOf t die.val).corr p : CorrCount) = aget {} (dieOf s die.val).corr p) ∧
    (c.count ≤ 1024 ∨ c.logged = true → exec i s = .next s) ∧
    (1024 < c.count → c.logged = false →
      let s1 := updDie s die.val fun d => { d with corr := aput d.corr part { c with logged := true } }
      (∃ t, exec i s = .next t ∧ (aget {} (dieOf t die.val).corr part : CorrCount).logged = true ∧ t.harts = s.harts) ∧
      (gangsOn s die.val = [] → exec i s = .next s1) ∧
      (∀ g, gangsOn s die.val = [g] → ∃ a : Word, exec i s =
        .next (logFault { s1 with ctr := s.ctr + 1 } g.ctxbase g.tid 51 0xFF 7 a (BitVec.ofNat 64 c.count))))) ∧
  -- uncorrectable errors, by where they strike
  (∀ (s : State),
    let go (l : ErrLoc) := exec (.uncorrectableError l) s
    let bad (t : State) (core : Nat) : Prop := core ∈ t.io.retiring ∧ t.mem = s.mem
    (∀ pa, (isStorage pa = false → go (.phys pa) = .next s) ∧
      (isStorage pa = true → ∃ t, go (.phys pa) = .next t ∧ poisonedAt t pa = true ∧ t.mem = s.mem ∧
        ∀ x, x / 8 ≠ pa / 8 → poisonedAt t x = poisonedAt s x)) ∧
    (∀ core off, (384 ≤ core ∨ 0x100000 ≤ off → go (.tile core off) = .next s) ∧
      (384 ≤ core ∨ 0x10000 ≤ off → go (.sdm core off) = .next s) ∧ (384 ≤ core → go (.coreState core) = .next s) ∧
      (core < 384 → off < 0x100000 → ∃ t, go (.tile core off) = .next t ∧ aget false (coreOf t core).poisonT (off / 8) = true ∧ bad t core) ∧
      (core < 384 → off < 0x10000 → ∃ t, go (.sdm core off) = .next t ∧ aget false (coreOf t core).poisonS (off / 8) = true ∧ bad t core)) ∧
    (∀ core, core < 384 → (∃ t, go (.coreState core) = .next t ∧ core ∈ t.io.retiring) ∧
      (∀ seat, (coreOf s core).gang = some seat → (∀ a b c d, (gangOf s seat).state ≠ .ending a b c d) →
        ∃ t, go (.coreState core) = .next t ∧ (gangOf t seat).state = .ending 51 0xFF 0 0 ∧
          ∀ h ∈ gangHarts (gangOf s seat), (hartOf s h).vred = 0 → (hartOf t h).wait = none ∧ (hartOf t h).park = none)) ∧
    (∀ bank elem, (bankQ s bank = [] → go (.piece bank elem) = .next s) ∧
      (bankQ s bank ≠ [] → ∃ t, go (.piece bank elem) = .next t ∧ aget? t.bankErr bank = some (elem + 1) ∧ t.mem = s.mem)) ∧
    (∀ u, aget [] s.pkl u = [] → go (.pkl u) = .next s) ∧
    (∀ u j r, aget [] s.pkl u = j :: r →
      (j.fin.isSome = true → go (.pkl u) = .next s) ∧
      (j.fin = none → areaRead s j.ctx.tid j.recPa 32 / 2 ^ 210 % 2 = 0 →
        go (.pkl u) = .next (Claim.batchDone s u { j with park := none, fatal := none } 2 51))) ∧
    (∀ core k n, (
      let sl := Claim.slotAt s core k
      (sl.state ≠ .faulted ∨ sl.ctx = none → go (.readout core k n) = .next s) ∧
      (∀ c, sl.state = .faulted → sl.ctx = some c → ∃ s1, go (.readout core k n) =
        .next (logFault s1 c.ctxbase c.tid 51 (ghartOf s1 (8 * core + c.slot)) 3 sl.desc 0) ∧ core ∈ s1.io.retiring ∧
          n ∈ (Claim.slotAt s1 core k).badLatch ∧ s1.mem = s.mem)))) ∧
  (∀ (s : State) (stack : Fin 12) (ch : Fin 32),
    ((aget? s.io.spareChan stack.val).isSome = true → exec (.hbmChannelSparing stack ch) s = .next s) ∧
    (aget? s.io.spareChan stack.val = none → ∃ t, exec (.hbmChannelSparing stack ch) s = .next t ∧
      aget? t.io.spareChan stack.val = some (ch.val + 1) ∧ t.mem = s.mem)) ∧
  -- the management cores
  (∀ (s : State) (m : Nat),
    (mgcLive s.io m = false → exec (.mgcHeartbeat m) s = .next s ∧ exec (.mgcTakeover m) s = .next s) ∧
    (mgcLive s.io m = true →
      exec (.mgcHeartbeat m) s = .next (updIo s fun io => { io with mgcLast := aput io.mgcLast m s.us }) ∧
      (s.us < aget 0 s.io.mgcLast m + 3000 → exec (.mgcTakeover m) s = .next s) ∧
      (aget 0 s.io.mgcLast m + 3000 ≤ s.us → ∃ t, exec (.mgcTakeover m) s = .next t ∧ mgcLive t.io m = false ∧
        t.io.takeoverUs = some s.us ∧ t.mem = s.mem ∧ (∀ d, d ≠ m → mgcLive t.io d = mgcLive s.io d) ∧
        ∀ d < 4, aget d t.io.mgcDuty d = if aget d s.io.mgcDuty d = m then mgcHeir t.io m else aget d s.io.mgcDuty d) ∧
      ((∃ d, d ≠ m ∧ mgcLive s.io d = true) → ∀ t, exec (.mgcTakeover m) s = .next t → mgcLive t.io m = false → mgcLive t.io (mgcHeir t.io m) = true))) ∧
  -- bring-up, power, and the link
  (∀ (s : State) (flash : Option (List (Nat × Byte))),
    let stored := match flash with | none => s.io.bundle | some b => b
    let good := Config.bundleOk stored = true ∧ s.io.rollback ≤ Config.bundleVersion stored
    ∃ t, exec (.powerOn flash) s = .next t ∧ (t.io.booted = true ↔ good) ∧ (t.io.recovery = true ↔ ¬ good) ∧
      (good → t.io.running = stored) ∧ (¬ good → t.io.running = []) ∧ (∀ k, keyId t k = 0) ∧
      t = { State.reset with agenda := s.agenda, ctr := s.ctr, io := t.io } ∧
      t.io = { booted := t.io.booted, recovery := t.io.recovery, rollback := s.io.rollback, bundle := stored, running := t.io.running }) ∧
  (∀ (s : State),
    (s.io.released = true → exec .resetRelease s = .next s) ∧
    (s.io.released = false → ∃ t, exec .resetRelease s = .next t ∧ t.io.released = true ∧ t.mem = s.mem ∧
      (s.io.booted = true → ∀ d < 4, (dieOf t d).powered = true ∧ aget 0 t.io.mgcLast d = s.us) ∧
      (s.io.booted = false → t.dies = s.dies))) ∧
  (∀ (s : State), ∃ t, exec .thermalShutdown s = .next t ∧ t.mem = s.mem ∧ t.lineKey = s.lineKey ∧ t.poison = s.poison ∧ t.us = s.us ∧
    (∀ h, hartOf t h = {}) ∧ (∀ c, coreOf t c = {}) ∧ (∀ g, aget? t.gangs g = none) ∧ (∀ d, (dieOf t d).powered = false) ∧
    t.faults = [] ∧ t.binds = [] ∧ t.seatStat = [] ∧ t.io = { s.io with requeue := [], mgcDown := 0xF }) ∧
  (∀ (s : State),
    (s.io.booted = true → s.io.released = true → exec .hostLinkTraining s = .next (updIo s fun io => { io with linkUp := true })) ∧
    (s.io.booted = false ∨ s.io.released = false → exec .hostLinkTraining s = .next s)) ∧
  -- the loss of the link: each hart with an access to host memory under way takes one access fault, and copies end with STATUS 2
  (∀ (s : State),
    let lost := onePer (s.cores.flatMap fun kv => coreLost s kv.1 kv.2)
    (lost.map fun a => a.hart).Nodup ∧ (∀ h, (∃ a ∈ lost, a.hart = h) ↔ Claim.hostUnderway s h) ∧
    (∀ a ∈ lost, a.cause = 7 ∨ (a.cause = 5 ∧ ∃ kv ∈ s.cores, ∃ f ∈ kv.2.refills, a.hart = 8 * kv.1 + f.slot)) ∧
    ∃ u, exec .linkDown s = .next (lost.foldl loseAccess u) ∧ u.io.linkUp = false ∧ u.io.hostQ = [] ∧
      ((∀ kv ∈ s.cores, ∀ x ∈ (coreOf s kv.1).copies, ¬ Claim.hostCopy x.2) → u.mem = s.mem) ∧
      ∀ kv ∈ s.cores, (
        let c := coreOf u kv.1
        (∀ x ∈ c.redq, locHost x.loc = false) ∧ (∀ f ∈ c.refills, ∀ l ∈ f.locs, locHost l.2 = false) ∧
          (∀ r k, aget? (coreOf s kv.1).copies r = some k → Claim.hostCopy k → ∃ k2, aget? c.copies r = some k2 ∧ k2.rem = 0 ∧ k2.status = 2) ∧
          (∀ q ∈ u.acqs, coreOfHart q.hart = kv.1 → isHostMem q.obj = false) ∧
          ∀ n < 8, ∀ b ∈ (hartOf u (8 * kv.1 + n)).wc, isHostMem b.1 = false)) ∧
  (∀ (s : State) (a : LostAccess), ∃ v : Word,
    let s1 : State := { s with ctr := s.ctr + 1 }
    let va : Word := match a.va with | some x => BitVec.ofNat 64 x | none => v
    loseAccess s a = takeException (logFault s1 (hartCtx s1 a.hart).ctxbase (hartCtx s1 a.hart).tid 50 (ghartOf s1 a.hart) a.src va 0)
      a.hart a.cause va)

/-- What the host does over the link, the mailbox, and management (spec/14 R264 to R274; spec/06 R100, R101, R116; spec/07 R146; spec/13
R258, R262, R263). The codes, states and payloads of PLDM are the model's (log entry 8); so are the tenant of a host-assisted report (6),
which contexts track a host write (4), what a layout change leaves (43), the packing of a report and the identities of keys (44). -/
def Obligations.HostMailboxAndManagement : Prop :=
  -- a request is served only if the link is up and the request at the head is of the event's kind; register writes come from firmware too
  (∀ (s : State), (s.io.linkUp = false ∨ s.io.hostQ = []) →
    exec .hostMemoryAccess s = .next s ∧ exec .dirtyHarvestRead s = .next s ∧
    (s.io.devQ = [] → ∀ i ∈ [Instr.modeWrite, .tidinv, .retire, .extentLayoutWrite, .launchQueueWpWrite, .launchQueueControl,
      .mailboxRingControl, .registerWrite, .hostReadPointerWrite], exec i s = .next s)) ∧
  -- CXL.mem accesses: the first enabled table entry that holds the frame decides; a miss reads all ones, drops a write, and is logged;
  -- the host reaches its own memory in the clear
  (∀ (s : State) (pa : Nat) (wr : Bool) (k : Nat), hatKey s pa wr = some k ↔ ∃ e < 16, hatEntry s (pa / 4096) = some e ∧
    (hatWord s e 0).testBit (if wr then 2 else 1) = true ∧ k = hatWord s e 2 % 8192 ∧ aget 0 s.io.keys k ≠ 0 ∧ pa < 0xC000000000) ∧
  (∀ (s : State) (a : Nat) (r : List HostReq), s.io.linkUp = true → s.io.hostQ = .memRead a :: r →
    let u := Claim.taken s r
    let pa := a / 8 * 8
    let gives (w : Word) : Prop := exec .hostMemoryAccess s = .next (updIo u fun io => { io with hostOut := io.hostOut ++ [w] })
    (isHostMem pa = true → gives (BitVec.ofNat 64 (physRead s clearKid pa 8))) ∧
    (isHostMem pa = false → ∀ k, hatKey s pa false = some k → gives (BitVec.ofNat 64 (physRead s (keyId s k) pa 8))) ∧
    (isHostMem pa = false → hatKey s pa false = none → exec .hostMemoryAccess s = .next (updIo u fun io => { io with
      fhWait := io.fhWait ++ [[mbHead 0x8003 16 0, BitVec.ofNat 64 pa, 0]], hostOut := io.hostOut ++ [-1] }))) ∧
  (∀ (s : State) (a : Nat) (v : Word) (r : List HostReq), s.io.linkUp = true → s.io.hostQ = .memWrite a v :: r →
    let u := Claim.taken s r
    let pa := a / 8 * 8
    (isHostMem pa = true → ∃ t, exec .hostMemoryAccess s = .next t ∧ physRead t clearKid pa 8 = v.toNat ∧ t.cores = s.cores ∧ t.io = u.io ∧
      ∀ x, x / 64 ≠ pa / 64 → rawByte t x = rawByte s x) ∧
    (isHostMem pa = false → ∀ k, hatKey s pa true = some k → ∃ t, exec .hostMemoryAccess s = .next t ∧ t.cores = s.cores ∧ t.io = u.io ∧
      ((∀ kv ∈ s.gangs, ¬ Claim.ownFrame s kv.2 pa) → t = homeWrite u 0 (.phys pa 0 k) 8 v.toNat ∧ physRead t (keyId s k) pa 8 = v.toNat) ∧
      (∀ kv ∈ s.gangs, ∀ x, Claim.trackedBy s kv.2 pa x → (rawByte t x).toNat.testBit (pa / 4096 % 8) = true) ∧
      ∀ x, x / 64 ≠ pa / 64 → (∀ kv ∈ s.gangs, ¬ Claim.trackedBy s kv.2 pa x) → rawByte t x = rawByte s x) ∧
    (isHostMem pa = false → hatKey s pa true = none → exec .hostMemoryAccess s =
      .next (updIo u fun io => { io with fhWait := io.fhWait ++ [[mbHead 0x8003 16 0, BitVec.ofNat 64 pa, 1]] }))) ∧
  -- a read of the dirty window returns a word and clears it; at 24 MiB and above it returns 0
  (∀ (s : State) (off : Nat) (r : List HostReq), s.io.linkUp = true → s.io.hostQ = .regRead off :: r →
    let o := off / 8 * 8 - 0x4000000
    let a := s.io.dsel.toNat + o
    (off / 8 * 8 < 0x4000000 ∨ 0x6000000 ≤ off / 8 * 8 → exec .dirtyHarvestRead s = .next s) ∧
    (0x4000000 ≤ off / 8 * 8 → off / 8 * 8 < 0x6000000 → ∃ t, exec .dirtyHarvestRead s = .next t ∧ t.io.hostQ = r ∧
      (0x1800000 ≤ o → t.io.hostOut = s.io.hostOut ++ [0] ∧ t.mem = s.mem) ∧
      (o < 0x1800000 → t.io.hostOut = s.io.hostOut ++ [BitVec.ofNat 64 (physRead s 0 a 8)] ∧
        (∀ k < 8, rawByte t (a + k) = 0) ∧ ∀ x, x < a ∨ a + 8 ≤ x → rawByte t x = rawByte s x))) ∧
  -- MODE: only while no gang is bound
  (∀ (s : State) (v : Word) (u : State), Claim.writeAhead s 0x1000 v u →
    (s.gangs = [] → exec .modeWrite s = .next (updIo u fun io => { io with mode := v.truncate 6 })) ∧
    (s.gangs ≠ [] → exec .modeWrite s = .next u)) ∧
  -- TIDINV removes every translation of a tenant, and is ignored while BUSY; BUSY ends when what used one has drained
  (∀ (s : State) (v : Word) (u : State), Claim.writeAhead s 0x1008 v u →
    let tid := v.toNat % 2 ^ 12
    (s.io.tidBusy = true → exec .tidinv s = .next u) ∧
    (s.io.tidBusy = false → ∃ t, exec .tidinv s = .next t ∧ Claim.restOf t u ∧ t.io.tidTid.toNat = tid ∧ t.io.tidBusy = v.toNat.testBit 31 ∧
      t.mem = s.mem ∧ (v.toNat.testBit 31 = true → (∀ c ∈ t.cores, ∀ e ∈ c.2.utlb, e.tid ≠ tid) ∧
        ∀ d ∈ t.dies, (∀ l ∈ d.2.slices, ∀ e ∈ l.2, e.tid ≠ tid) ∧ ∀ e ∈ d.2.pwc, e.tid ≠ tid))) ∧
  (∀ (s : State),
    (s.io.tidBusy = false ∨ tenantIdle s s.io.tidTid.toNat = false → exec .tidinvDrained s = .next s) ∧
    (s.io.tidBusy = true → tenantIdle s s.io.tidTid.toNat = true → ∃ t, exec .tidinvDrained s = .next t ∧ t.io.tidBusy = false ∧
      (∀ c ∈ s.cores, ∀ l ∈ (coreOf t c.1).dcache, l.2.tid ≠ s.io.tidTid.toNat) ∧
      (∀ h ∈ s.harts, (hartCtx s h.1).tid = s.io.tidTid.toNat → (hartOf t h.1).wc = []) ∧
      ∀ q ∈ t.acqs, (hartCtx s q.hart).tid ≠ s.io.tidTid.toNat)) ∧
  -- RETIRE: refused while a seat waits or runs with the CTXBASE; else the context and its records are gone
  (∀ (s : State) (v : Word) (u : State), Claim.writeAhead s 0x1010 v u →
    let base := v.toNat / 4096 % 2 ^ 40 * 4096
    let live := ∃ kv ∈ s.seatStat, (seatState s kv.1 = 1 ∨ seatState s kv.1 = 2) ∧
      Claim.seatArea s kv.1 = base
    let w := updIo u fun io => { io with retCtx := BitVec.ofNat 64 base }
    (v.toNat.testBit 0 = false ∨ live ∨ aget? s.io.contexts base = none → exec .retire s = .next w) ∧
    (v.toNat.testBit 0 = true → ¬ live → aget? s.io.contexts base ≠ none → ∃ t, exec .retire s = .next t ∧
      aget? t.io.contexts base = none ∧ (∀ f ∈ t.faults, f.ctxbase ≠ base) ∧
      t.faults = s.faults.filter (fun f => f.ctxbase ≠ base) ∧ t.io.retCtx = w.io.retCtx ∧ Claim.restOf t u)) ∧
  -- LAYOUT: the word is written; extents whose bit stays keep their bytes, and those of the others are unspecified
  (∀ (s : State) (o : Nat) (v : Word) (u : State), Claim.writeAhead s o v u → 0x1100 ≤ o → o < 0x1120 →
    let k := (o - 0x1100) / 8
    ∃ t, exec .extentLayoutWrite s = .next t ∧ Claim.restOf t u ∧
      (∀ j < 256, t.io.layout.toNat.testBit j = if j / 64 = k then v.toNat.testBit (j % 64) else s.io.layout.toNat.testBit j) ∧
      (s.memOk → ∀ a, t.io.layout.toNat.testBit (a / 0xC0000000) = s.io.layout.toNat.testBit (a / 0xC0000000) → rawByte t a = rawByte s a) ∧
      ∀ j < 256, t.io.layout.toNat.testBit j ≠ s.io.layout.toNat.testBit j → ∃ n, s.ctr ≤ n ∧
        ∀ a, a / 0xC0000000 = j → rawByte t a = Config.extentByte n a) ∧
  -- launch queues
  (∀ (s : State) (q : Fin 256) (v : Word) (u : State), Claim.writeAhead s (0x10000 + 32 * q.val + 16) v u →
    let wp := v.toNat % 2 ^ 32
    let fits := (wp + 2 ^ 32 - lqRp s q.val) % 2 ^ 32 ≤ 2 ^ lqLog s q.val
    ∃ t, exec .launchQueueWpWrite s = .next t ∧ Claim.restOf t u ∧ lqWp t q.val = (if fits then wp else lqWp s q.val) ∧
      ∀ n, n ≠ 4 * q.val + 2 → aget 0 t.io.lq n = aget 0 s.io.lq n) ∧
  (∀ (s : State) (q : Fin 256) (w : Fin 2) (v : Word) (u : State), Claim.writeAhead s (0x10000 + 32 * q.val + 8 * w.val) v u →
    ∃ t, exec .launchQueueControl s = .next t ∧ Claim.restOf t u ∧ (∀ n, n ≠ 4 * q.val + w.val → aget 0 t.io.lq n = aget 0 s.io.lq n) ∧
      aget 0 t.io.lq (4 * q.val + w.val) =
        if lqEn s q.val = false then v &&& (if w = 0 then 0xFFFFFFFFFFFC0 else 0x8FFF000F)
        else if w = 1 ∧ v.toNat.testBit 31 = false then aget 0 s.io.lq (4 * q.val + 1) &&& 0x7FFFFFFF
        else aget 0 s.io.lq (4 * q.val + w.val)) ∧
  -- mailbox rings: BASE and CTL, and the read pointers of the host
  (∀ (s : State) (b : Nat) (ctl : Bool) (v : Word) (u : State), b ∈ [0x00, 0x20, 0x48] →
    let o := if ctl then b + 8 else b
    Claim.writeAhead s (0x20000 + o) v u → ∃ t, exec .mailboxRingControl s = .next t ∧ Claim.restOf t u ∧
      (∀ n, n ≠ o → aget 0 t.io.mb n = aget 0 s.io.mb n) ∧
      aget 0 t.io.mb o =
        if (aget 0 s.io.mb (b + 8)).toNat.testBit 31 = false then v &&& (if ctl then 0x8000000F else 0xFFFFFFFFFFFC0)
        else if ctl = true ∧ v.toNat.testBit 31 = false then aget 0 s.io.mb o &&& 0x7FFFFFFF else aget 0 s.io.mb o) ∧
  (∀ (s : State) (o : Nat) (v : Word) (u : State), o ∈ [0x38, 0x60] → Claim.writeAhead s (0x20000 + o) v u →
    exec .hostReadPointerWrite s = .next (setMbReg u o (v.toNat % 2 ^ 32))) ∧
  -- other registers keep what is written to their fields; a reply goes to the fault service; identity registers ignore a write
  (∀ (s : State) (o : Nat) (v : Word) (u : State), Claim.writeAhead s o v u →
    let keeps (m : Word) : Prop := ∃ t, exec .registerWrite s = .next t ∧ readReg t o = v &&& m ∧ Claim.restOf t u ∧ t.mem = s.mem
    (o = 0x1018 → keeps 0xFFFFFFFFFF000) ∧ (o = 0x20010 → keeps 0xFFFFFFFF) ∧
    (0x30000 ≤ o → o < 0x30200 →
      keeps (if o / 8 % 4 = 0 then 0xFFFFFFFFFF007 else if o / 8 % 4 = 1 then 0xFFFFFFFFFF000 else if o / 8 % 4 = 2 then 0x1FFF else 0)) ∧
    (0x40000 ≤ o → o < 0x41800 → keeps 0xFFFFFFFFFFFFFFFF) ∧
    (0x400000 ≤ o → o < 0x800000 → keeps (if o / 8 % 2 = 0 then 0xFFFFFFFFFF007 else 0xFFFFFFFFFF000)) ∧
    (0x800000 ≤ o → o < 0x880000 → keeps 0x1FFF1FFF1FFF1FFF) ∧
    (o = 0x20040 → exec .registerWrite s = .next (replyOp u v)) ∧
    (o < 0x1000 ∨ 0x180000 ≤ o ∧ o < 0x186000 → exec .registerWrite s = .next u) ∧
    (0x100000 ≤ o → o < 0x118000 →
      let seat := (o - 0x100000) / 32
      let w := o / 8 % 4
      let taken := Claim.deviceWrites s o v u ∨ s.io.mode.toNat.testBit 0 = true
      (Claim.hostWrites s o v u → s.io.mode.toNat.testBit 0 = false → exec .registerWrite s = .next u) ∧
      (taken → seatState s seat ≠ 2 → keeps (if w = 0 then 0xFFFFFFFF07FFFFFF else if w = 1 then 0xFFFFFFFFFFFC0 else 0xFFFFFFFFFFFFFFFF)) ∧
      (taken → seatState s seat = 2 → w ≠ 0 → exec .registerWrite s = .next u) ∧
      (taken → seatState s seat = 2 → w = 0 → ∃ t, exec .registerWrite s = .next t ∧ Claim.restOf t u ∧ t.mem = s.mem ∧
        readReg t o = (readReg s o &&& 0xFFFFFFFF07FFFFFC) ||| (v &&& 3)))) ∧
  -- commands: taken by their code, and answered; a payload that is too short is a bad operand
  (∀ (s : State), (mbCommand s = none → ∀ i ∈ [Instr.attest, .retirecore, .heartbeat, .keygen, .keyerase, .keyexport, .keyimport,
      .mailboxReservedCode], exec i s = .next s) ∧
    ∀ (c : List Nat) (code len : Nat), Claim.commandAhead s c code len →
      let u := Claim.commandTaken s
      let a := c.getD 1 0
      let ends (i : Instr) (t : State) (status : Nat) (ws : List Nat) : Prop := exec i s = .next (Claim.replied t c status ws)
      (∀ i n k, (i, n, k) ∈ [(Instr.attest, 1, 24), (.retirecore, 2, 8), (.keygen, 4, 8), (.keyerase, 5, 8), (.keyexport, 6, 32),
        (.keyimport, 7, 24)] → (code = n → len < k → ends i u 2 []) ∧ (code ≠ n → exec i s = .next s)) ∧
      (code = 0 ∨ 8 ≤ code → ends .mailboxReservedCode u 2 []) ∧ (code ≠ 0 → code < 8 → exec .mailboxReservedCode s = .next s) ∧
      (code = 1 → 24 ≤ len → rangeOk a 64 = false → ends .attest u 2 []) ∧
      (code = 1 → 24 ≤ len → rangeOk a 64 = true → ∃ tid : BitVec 12, (
        let u1 := { u with ctr := s.ctr + 1 }
        let rep := Claim.report u1 tid.toNat (fwReadBytes u1 a 64)
        let buf := c.getD 2 0
        (rep.length ≤ c.getD 3 0 → rangeOk buf rep.length = true → ends .attest (fwWriteBytes u1 buf rep) 0 []) ∧
          (c.getD 3 0 < rep.length ∨ rangeOk buf rep.length = false → ends .attest u1 2 []))) ∧
      (code = 2 → 8 ≤ len → (2 ^ 9 ≤ a ∨ 24 ≤ a / 16 % 32 → ends .retirecore u 2 []) ∧
        (a < 2 ^ 9 → a / 16 % 32 < 24 → ∃ t, ends .retirecore t 0 [] ∧ t = retireCore u (24 * (a % 16) + a / 16 % 32) ∧
          24 * (a % 16) + a / 16 % 32 ∈ t.io.retiring)) ∧
      (code ≠ 3 → exec .heartbeat s = .next s) ∧
      (code = 3 → ∃ mask : Nat, (∀ d < 4, mask.testBit d = mgcLive s.io d) ∧ mask < 16 ∧
        (∀ t, s.io.takeoverUs = some t → ends .heartbeat u 0 [mask, (s.us - t) / 1000]) ∧
        (s.io.takeoverUs = none → ∃ v : Word, ends .heartbeat { u with ctr := s.ctr + 1 } 0 [mask, v.toNat])) ∧
      (code = 4 → 8 ≤ len → (8192 ≤ a → ends .keygen u 2 []) ∧ (a < 8192 → keyId s a ≠ 0 → ends .keygen u 1 []) ∧
        (a < 8192 → keyId s a = 0 → ∃ t, ends .keygen t 0 [] ∧ keyId t a = s.io.keyCtr + 1 ∧ t.io.keyCtr = s.io.keyCtr + 1 ∧
          ∀ k, k ≠ a → keyId t k = keyId s k)) ∧
      (code = 5 → 8 ≤ len → (8192 ≤ a → ends .keyerase u 2 []) ∧ (a < 8192 → keyNamed s a = true → ends .keyerase u 1 []) ∧
        (a < 8192 → keyNamed s a = false → ∃ t, ends .keyerase t 0 [] ∧ keyId t a = 0 ∧ (∀ k, k ≠ a → keyId t k = keyId s k) ∧
          (∀ c ∈ s.cores, ∀ l ∈ (coreOf t c.1).dcache, l.2.key ≠ a) ∧ ∀ h ∈ s.harts, ∀ b ∈ (hartOf t h.1).wc, b.2.2.1 ≠ a)) ∧
      (code = 6 → 32 ≤ len →
        let rep := fwReadBytes u (c.getD 2 0) Claim.reportSize
        let ok := a < 8192 ∧ rangeOk (c.getD 2 0) Claim.reportSize = true
        (¬ ok → ends .keyexport u 2 []) ∧ (ok → keyId s a = 0 ∨ (∀ dev, ¬ Claim.reportFor (keyId s a) rep dev) → ends .keyexport u 1 []) ∧
        (∀ dev, ok → keyId s a ≠ 0 → Claim.reportFor (keyId s a) rep dev →
          let key := Config.wrapKey (Config.keyBits (keyId s a)) dev
          (key.length ≤ c.getD 4 0 → rangeOk (c.getD 3 0) key.length = true → ends .keyexport (fwWriteBytes u (c.getD 3 0) key) 0 []) ∧
          (c.getD 4 0 < key.length ∨ rangeOk (c.getD 3 0) key.length = false → ends .keyexport u 2 []))) ∧
      (code = 7 → 24 ≤ len →
        let n := c.getD 3 0
        let w := fwReadBytes u (c.getD 2 0) (min n 0x100000)
        let ok := a < 8192 ∧ rangeOk (c.getD 2 0) n = true
        let loads (id : Nat) : Prop := ∃ t, ends .keyimport t 0 [] ∧ keyId t a = id ∧ ∀ k, k ≠ a → keyId t k = keyId s k
        (¬ ok → ends .keyimport u 2 []) ∧ (ok → keyId s a ≠ 0 → ends .keyimport u 1 []) ∧
        (ok → keyId s a = 0 →
          ((∃ k, Claim.ownKey s w k) → ∃ k, Claim.ownKey s w k ∧ loads k) ∧
          ((∀ k, ¬ Claim.ownKey s w k) → Config.unwrapKey w = none → ends .keyimport u 1 []) ∧
          (∀ id, (∀ k, ¬ Claim.ownKey s w k) → Config.unwrapKey w = some id → loads (2 ^ 64 + 1 + id))))) ∧
  -- MAILBOX_EVENT_POST: the oldest entry, where the ring has room
  (∀ (s : State), (s.io.fhWait = [] ∨ ringRoom s fhRing = false → exec .mailboxEventPost s = .next s) ∧
    (∀ ws rest, s.io.fhWait = ws :: rest → ringRoom s fhRing = true →
      let a := ringAt s fhRing (mbReg s 0x030) 64
      (hbmEnd < a + 64 → exec .mailboxEventPost s = .fault (.noStorage a)) ∧
      (a + 64 ≤ hbmEnd → ∃ t, exec .mailboxEventPost s = .next t ∧ t.io.fhWait = rest ∧
        (∀ k < 8, physRead t 0 (a + 8 * k) 8 = (ws.getD k 0).toNat) ∧ mbReg t 0x030 = (mbReg s 0x030 + 1) % 2 ^ 32 ∧
        ∀ x, x < a ∨ a + 64 ≤ x → rawByte t x = rawByte s x))) ∧
  -- management requests
  (∀ (s : State), s.io.mctpIn = [] → ∀ i ∈ [Instr.getTid, .getPldmVersion, .getPldmTypes, .getPldmCommands, .getPdr, .getSensorReading,
    .requestUpdate, .passComponentTable, .updateComponent, .activateFirmware, .getStatus, .cancelUpdate, .pldmOemAttestation],
    exec i s = .next s) ∧
  (∀ (s : State) (m : List Byte) (r : List (List Byte)) (type cmd : Nat), Claim.requestAhead s m r type cmd →
    let ans (i : Instr) (f : Io → Io) (code : Nat) (p : List Byte) : Prop := exec i s = .next (Claim.answeredWith s r m f code p)
    (∀ i p, (i, type, cmd, p) ∈ Claim.plainRequest →
      (s.io.recovery = false → ans i id 0 (p s m)) ∧ (s.io.recovery = true → ans i id 4 [])) ∧
    (type = 0x3F → cmd = 1 → ∃ tid : BitVec 12, (
      let u : State := { s with ctr := s.ctr + 1 }
      exec .pldmOemAttestation s = .next (Claim.answeredWith u r m id (if s.io.recovery then 4 else 0)
        (if s.io.recovery then [] else Claim.report s tid.toNat ((List.range 64).map fun k => m.getD (4 + k) 0))))) ∧
    (type = 5 → cmd = 0x10 →
      (s.io.fwState ≠ 0 → ans .requestUpdate id 0x81 []) ∧
      (s.io.fwState = 0 → ans .requestUpdate (fun io => { Claim.agentTo 1 io with fwOff := 0, fwSize := 0, fwData := [], fwApplied := false })
        0 (Config.pldmPayload m))) ∧
    (type = 5 → cmd = 0x13 →
      (s.io.fwState ≠ 1 → ans .passComponentTable id 0x84 []) ∧
      (s.io.fwState = 1 → (m.getD 4 0).toNat.testBit 2 = false → ans .passComponentTable id 0 [0, 0]) ∧
      (s.io.fwState = 1 → (m.getD 4 0).toNat.testBit 2 = true → ans .passComponentTable (Claim.agentTo 2) 0 [0, 0])) ∧
    (type = 5 → cmd = 0x14 →
      (s.io.fwState ≠ 2 → ans .updateComponent id 0x84 []) ∧
      (s.io.fwState = 2 → ans .updateComponent (fun io => { Claim.agentTo 3 io with fwSize := pldmArg m 9 4, fwOff := 0, fwData := [] })
        0 [0, 0, 0, 0, 0, 0, 0, 0])) ∧
    (type = 5 → cmd = 0x1A →
      (s.io.fwState ≠ 2 → ans .activateFirmware id 0x84 []) ∧ (s.io.fwState = 2 → s.io.fwApplied = false → ans .activateFirmware id 0x85 []) ∧
      (s.io.fwState = 2 → s.io.fwApplied = true → ans .activateFirmware
        (fun io => { Claim.agentTo 0 io with bundle := io.fwData, fwApplied := false }) 0 [0, 0])) ∧
    (type = 5 → cmd = 0x1B →
      ans .getStatus id 0 [BitVec.ofNat 8 s.io.fwState, BitVec.ofNat 8 s.io.fwPrev, 3, 0, 0, 0, 0, 0, 0, 0]) ∧
    (type = 5 → cmd = 0x1D →
      (s.io.fwState = 0 → ans .cancelUpdate id 0x80 []) ∧
      (s.io.fwState ≠ 0 → ans .cancelUpdate
        (fun io => { Claim.agentTo 0 io with fwData := [], fwOff := 0, fwSize := 0, fwApplied := false }) 0 [0, 0, 0, 0, 0, 0, 0, 0, 0]))) ∧
  -- the update agent's own requests: the next part of the image, and the ends of transfer, verification and application
  (∀ (s : State),
    let n := min 64 (s.io.fwSize - s.io.fwOff)
    (s.io.fwState ≠ 3 ∨ s.io.fwSize ≤ s.io.fwOff → exec .requestFirmwareData s = .next s) ∧
    (s.io.fwState = 3 → s.io.fwOff < s.io.fwSize → s.io.fwAsked = false → exec .requestFirmwareData s =
      .next (Claim.agentAsks s 0x15 (Claim.bytesOf 4 s.io.fwOff ++ Claim.bytesOf 4 n) fun io => { io with fwAsked := true })) ∧
    (∀ m r, s.io.fwState = 3 → s.io.fwOff < s.io.fwSize → s.io.fwAsked = true → s.io.mctpIn = m :: r → pldmIs m false 5 0x15 = true →
      ∃ t, exec .requestFirmwareData s = .next t ∧ t.io.mctpIn = r ∧ t.io.fwAsked = false ∧ t.mem = s.mem ∧
        (m.getD 4 0 ≠ 0 → t.io.fwOff = s.io.fwOff ∧ t.io.fwData = s.io.fwData) ∧
        (m.getD 4 0 = 0 → t.io.fwOff = s.io.fwOff + min n (m.length - 5) ∧
          ∀ k, aget 0 t.io.fwData k = if s.io.fwOff ≤ k ∧ k < t.io.fwOff then m.getD (5 + (k - s.io.fwOff)) 0 else aget 0 s.io.fwData k)) ∧
    (¬ (s.io.fwState = 3 ∧ s.io.fwSize ≤ s.io.fwOff) → exec .transferComplete s = .next s) ∧
    (s.io.fwState = 3 → s.io.fwSize ≤ s.io.fwOff → exec .transferComplete s = .next (Claim.agentAsks s 0x16 [0] (Claim.agentTo 4))) ∧
    (s.io.fwState ≠ 4 ∨ s.io.fwAsked = true → exec .verifyComplete s = .next s) ∧
    (s.io.fwState = 4 → s.io.fwAsked = false →
      let good := Config.bundleOk s.io.fwData = true ∧ s.io.rollback ≤ Config.bundleVersion s.io.fwData
      (good → exec .verifyComplete s = .next (Claim.agentAsks s 0x17 [0] (Claim.agentTo 5))) ∧
      (¬ good → exec .verifyComplete s = .next (Claim.agentAsks s 0x17 [1] fun io => { io with fwAsked := true }))) ∧
    (s.io.fwState ≠ 5 → exec .applyComplete s = .next s) ∧
    (s.io.fwState = 5 → exec .applyComplete s =
      .next (Claim.agentAsks s 0x18 [0, 0, 0] fun io => { Claim.agentTo 2 io with fwApplied := true })))
end

