-- ==== Sys2Proof/Laws/AMap.lean ====
section
/-!
SUPPORT. Laws of the sparse maps. They hold of every list, sorted or not.
-/
namespace Sys2Proof.Machine

variable {α : Type}

@[simp] theorem aget?_aput_same (m : AMap α) (k : Nat) (v : α) : aget? (aput m k v) k = some v := by
  induction m with
  | nil => simp [aput, aget?]
  | cons p r ih =>
    obtain ⟨a, w⟩ := p
    unfold aput
    by_cases h : a < k
    · simp [h, aget?, ih]
    · by_cases h2 : a = k <;> simp [h2, h, aget?]

theorem aget?_aput_other (m : AMap α) {k j : Nat} (v : α) (h : j ≠ k) : aget? (aput m k v) j = aget? m j := by
  induction m with
  | nil =>
    have : k ≠ j := fun e => h e.symm
    by_cases h2 : k < j <;> simp [aput, aget?, h2, this]
  | cons p r ih =>
    obtain ⟨a, w⟩ := p
    unfold aput
    by_cases h1 : a < k
    · simp [h1, aget?, ih]
    · by_cases h2 : a = k
      · subst h2
        have : a ≠ j := fun e => h e.symm
        simp [aget?, this]
      · have hk : k ≠ j := fun e => h e.symm
        by_cases h3 : k < j
        · simp [h1, h2, aget?, h3]
        · have h4 : ¬ a < j := by omega
          have h5 : a ≠ j := by omega
          simp [h1, h2, aget?, h3, h4, h5, hk]

@[simp] theorem aget_aput_same (d : α) (m : AMap α) (k : Nat) (v : α) : aget d (aput m k v) k = v := by simp [aget]

theorem aget_aput_other (d : α) (m : AMap α) {k j : Nat} (v : α) (h : j ≠ k) : aget d (aput m k v) j = aget d m j := by
  simp [aget, aget?_aput_other m v h]

@[simp] theorem aput_aput (m : AMap α) (k : Nat) (v w : α) : aput (aput m k v) k w = aput m k w := by
  induction m with
  | nil => simp [aput]
  | cons p r ih =>
    obtain ⟨a, x⟩ := p
    unfold aput
    by_cases h : a < k
    · simp [h, aput, ih]
    · by_cases h2 : a = k <;> simp [h2, h, aput]

theorem aget?_adropUpTo_same (m : AMap α) (k : Nat) : aget? (adropUpTo m k) k = none := by
  induction m with
  | nil => rfl
  | cons p r ih =>
    obtain ⟨a, w⟩ := p
    unfold adropUpTo
    by_cases h : a ≤ k
    · simp [h, ih]
    · have h1 : ¬ a < k := by omega
      have h2 : a ≠ k := by omega
      simp [h, aget?, h1, h2]

@[simp] theorem aget?_adel_same (m : AMap α) (k : Nat) : aget? (adel m k) k = none := by
  induction m with
  | nil => rfl
  | cons p r ih =>
    obtain ⟨a, w⟩ := p
    unfold adel
    by_cases h : a < k
    · simp [h, aget?, ih]
    · simp only [h, if_false]
      exact aget?_adropUpTo_same _ k

theorem aget?_adropUpTo_above (m : AMap α) {k j : Nat} (h : k < j) : aget? (adropUpTo m k) j = aget? m j := by
  induction m with
  | nil => rfl
  | cons p r ih =>
    obtain ⟨a, w⟩ := p
    unfold adropUpTo
    by_cases h1 : a ≤ k
    · have : a < j := by omega
      simp [h1, ih, aget?, this]
    · simp [h1]

theorem aget?_adel_other (m : AMap α) {k j : Nat} (h : j ≠ k) : aget? (adel m k) j = aget? m j := by
  induction m with
  | nil => rfl
  | cons p r ih =>
    obtain ⟨a, w⟩ := p
    unfold adel
    by_cases h1 : a < k
    · simp [h1, aget?, ih]
    · simp only [h1, if_false]
      by_cases h2 : k < j
      · exact aget?_adropUpTo_above _ h2
      · have h3 : ¬ a < j := by omega
        have h4 : a ≠ j := by omega
        have hs : aget? ((a, w) :: r) j = none := by simp [aget?, h3, h4]
        rw [hs]
        -- every front entry that stays has a key above k, hence above j
        have : ∀ l : AMap α, aget? (adropUpTo l k) j = none := by
          intro l
          induction l with
          | nil => rfl
          | cons q t iht =>
            obtain ⟨b, x⟩ := q
            unfold adropUpTo
            by_cases h5 : b ≤ k
            · simp [h5, iht]
            · have h6 : ¬ b < j := by omega
              have h7 : b ≠ j := by omega
              simp [h5, aget?, h6, h7]
        exact this _

@[simp] theorem aget_adel_same (d : α) (m : AMap α) (k : Nat) : aget d (adel m k) k = d := by simp [aget]

theorem aget_adel_other (d : α) (m : AMap α) {k j : Nat} (h : j ≠ k) : aget d (adel m k) j = aget d m j := by
  simp [aget, aget?_adel_other m h]

@[simp] theorem aget_aputC_same [DecidableEq α] (d : α) (m : AMap α) (k : Nat) (v : α) : aget d (aputC d m k v) k = v := by
  unfold aputC
  by_cases h : v = d <;> simp [h]

theorem aget_aputC_other [DecidableEq α] (d e : α) (m : AMap α) {k j : Nat} (v : α) (h : j ≠ k) :
    aget e (aputC d m k v) j = aget e m j := by
  unfold aputC
  by_cases h1 : v = d
  · simp [h1, aget_adel_other e m h]
  · simp [h1, aget_aput_other e m v h]

theorem aget_aputC [DecidableEq α] (d : α) (m : AMap α) (k j : Nat) (v : α) :
    aget d (aputC d m k v) j = if j = k then v else aget d m j := by
  by_cases h : j = k
  · subst h; simp
  · simp [h, aget_aputC_other d d m v h]

/-! ### The canonical form is kept -/

theorem asortedFrom_mono (m : AMap α) {lo hi : Nat} (h : lo ≤ hi) (hs : asortedFrom hi m = true) : asortedFrom lo m = true := by
  cases m with
  | nil => rfl
  | cons p r =>
    obtain ⟨a, w⟩ := p
    simp only [asortedFrom, Bool.and_eq_true, decide_eq_true_eq] at hs ⊢
    exact ⟨by omega, hs.2⟩

theorem asortedFrom_aput (m : AMap α) {lo k : Nat} (v : α) (hk : lo ≤ k) (hs : asortedFrom lo m = true) :
    asortedFrom lo (aput m k v) = true := by
  induction m generalizing lo with
  | nil => simp [aput, asortedFrom, hk]
  | cons p r ih =>
    obtain ⟨a, w⟩ := p
    simp only [asortedFrom, Bool.and_eq_true, decide_eq_true_eq] at hs
    unfold aput
    by_cases h : a < k
    · simp [h, asortedFrom, hs.1, ih (by omega) hs.2]
    · by_cases h2 : a = k
      · subst h2; simp [asortedFrom, hs]
      · simp only [h, h2, if_false, asortedFrom, Bool.and_eq_true, decide_eq_true_eq]
        exact ⟨hk, by omega, hs.2⟩

theorem asortedFrom_adropUpTo (m : AMap α) {lo : Nat} (k : Nat) (hs : asortedFrom lo m = true) :
    asortedFrom lo (adropUpTo m k) = true := by
  induction m generalizing lo with
  | nil => rfl
  | cons p r ih =>
    obtain ⟨a, w⟩ := p
    unfold adropUpTo
    by_cases h : a ≤ k
    · simp only [asortedFrom, Bool.and_eq_true, decide_eq_true_eq] at hs
      simp only [h, if_true]
      exact ih (asortedFrom_mono r (by omega) hs.2)
    · simpa [h] using hs

theorem asortedFrom_adel (m : AMap α) {lo : Nat} (k : Nat) (hs : asortedFrom lo m = true) :
    asortedFrom lo (adel m k) = true := by
  induction m generalizing lo with
  | nil => rfl
  | cons p r ih =>
    obtain ⟨a, w⟩ := p
    unfold adel
    by_cases h : a < k
    · simp only [asortedFrom, Bool.and_eq_true, decide_eq_true_eq] at hs
      simp [h, asortedFrom, hs.1, ih hs.2]
    · simp only [h, if_false]
      exact asortedFrom_adropUpTo _ k hs

theorem mem_aput {m : AMap α} {k : Nat} {v : α} {q : Nat × α} (h : q ∈ aput m k v) : q = (k, v) ∨ q ∈ m := by
  induction m with
  | nil => simpa [aput] using h
  | cons p r ih =>
    obtain ⟨a, w⟩ := p
    unfold aput at h
    by_cases h1 : a < k
    · simp only [h1, if_true, List.mem_cons] at h
      rcases h with h | h
      · exact .inr (by simp [h])
      · rcases ih h with h | h
        · exact .inl h
        · exact .inr (by simp [h])
    · by_cases h2 : a = k
      · have h3 : q = (k, v) ∨ q ∈ r := by simpa [h2] using h
        rcases h3 with h3 | h3
        · exact .inl h3
        · exact .inr (by simp [h3])
      · simpa [h1, h2] using h

theorem mem_adropUpTo {m : AMap α} {k : Nat} {q : Nat × α} (h : q ∈ adropUpTo m k) : q ∈ m := by
  induction m with
  | nil => simp [adropUpTo] at h
  | cons p r ih =>
    obtain ⟨a, w⟩ := p
    unfold adropUpTo at h
    by_cases h1 : a ≤ k
    · simp only [h1, if_true] at h
      exact List.mem_cons_of_mem _ (ih h)
    · simpa [h1] using h

theorem mem_adel {m : AMap α} {k : Nat} {q : Nat × α} (h : q ∈ adel m k) : q ∈ m := by
  induction m with
  | nil => simp [adel] at h
  | cons p r ih =>
    obtain ⟨a, w⟩ := p
    unfold adel at h
    by_cases h1 : a < k
    · simp only [h1, if_true, List.mem_cons] at h
      rcases h with h | h
      · simp [h]
      · exact List.mem_cons_of_mem _ (ih h)
    · simp only [h1, if_false] at h
      exact mem_adropUpTo h

/-- Writing through `aputC` keeps the canonical form. -/
theorem acanon_aputC [DecidableEq α] (d : α) (m : AMap α) (k : Nat) (v : α) (h : acanon d m = true) :
    acanon d (aputC d m k v) = true := by
  simp only [acanon, Bool.and_eq_true, List.all_eq_true, decide_eq_true_eq] at h ⊢
  unfold aputC
  by_cases h1 : v = d
  · simp only [h1, if_true]
    exact ⟨asortedFrom_adel m k h.1, fun q hq => h.2 q (mem_adel hq)⟩
  · simp only [h1, if_false]
    refine ⟨asortedFrom_aput m v (Nat.zero_le _) h.1, fun q hq => ?_⟩
    rcases mem_aput hq with rfl | hq
    · exact h1
    · exact h.2 q hq

end Sys2Proof.Machine
end

