-- ==== Sys2Proof/Laws/Encoding.lean ====
section
/-!
SUPPORT. Cutting a word into fields and packing it again, and which map of spec/05 a word's fields go to.
-/
namespace Sys2Proof

/-- Fields survive packing into a word. -/
theorem unpack_pack (F : Fields) : unpack (pack F) = F := by
  obtain ⟨o, d, f, a, b, g, p⟩ := F
  have ho := o.isLt; have hd := d.isLt; have hf := f.isLt; have ha := a.isLt
  have hb := b.isLt; have hg := g.isLt; have hp := p.isLt
  simp only [unpack, pack, Fields.mk.injEq, Fin.ext_iff, Fin.val_ofNat, BitVec.toNat_ofNat]
  omega

/-- A word survives being cut into fields. -/
theorem pack_unpack (w : IWord) : pack (unpack w) = w := by
  have hw := w.isLt
  apply BitVec.eq_of_toNat_eq
  simp only [unpack, pack, Fin.val_ofNat, BitVec.toNat_ofNat]
  omega

theorem decodeFields_custom0 (F : Fields) (h : F.opc = 0x0B) : decodeFields F = decodeCustom0 F := by
  simp [decodeFields, isHint, h]

theorem decodeFields_custom1 (F : Fields) (h : F.opc = 0x2B) : decodeFields F = decodeCustom1 F := by
  simp [decodeFields, isHint, h]

theorem decodeFields_custom2 (F : Fields) (h : F.opc = 0x5B) : decodeFields F = decodeCustom2 F := by
  simp [decodeFields, isHint, h]

theorem decodeFields_matrix (F : Fields) (h : F.opc = 0x7B) (h3 : F.f3 = 0) : decodeFields F = decodeMatrix F := by
  simp [decodeFields, isHint, decodeCustom3, h, h3]

theorem decodeFields_s (F : Fields) (h : F.opc = 0x7B) (h3 : (F.f3.val == 0) = false) : decodeFields F = decodeS F := by
  have : ¬ F.f3.val = 0 := by simpa using h3
  simp [decodeFields, isHint, decodeCustom3, h, this]

/-- Bits [31:20] of fields made with them. -/
theorem hi12_mkHi (opc : Fin 128) (hi : Nat) (a : Fin 32) (f3 : Fin 8) (d : Fin 32) (h : hi < 4096) :
    (mkHi opc hi a f3 d).hi12 = hi := by
  simp only [mkHi, Fields.hi12, Fin.val_ofNat]
  omega

/-- The immediate of 12 bits, put together from its fields. -/
theorem hi12_split (n : Nat) (h : n < 4096) : n / 128 % 32 * 128 + n / 32 % 4 * 32 + n % 32 = n := by omega

/-- A hint has the length code of a 32-bit word. -/
theorem isHint_len (F : Fields) (h : isHint F = true) : F.opc.val % 4 = 3 ∧ F.opc.val / 4 % 8 ≠ 7 := by
  simp only [isHint] at h
  split at h
  · rename_i e
    simp only [beq_iff_eq] at e
    omega
  · rw [Bool.and_eq_true] at h
    have h2 := h.2
    split at h2 <;> first | omega | simp at h2

/-- A hint word decodes to itself. -/
theorem decodeFields_hint (w : IWord) (h : isHint (unpack w) = true) : decodeFields (unpack w) = .ok (.hint w) := by
  obtain ⟨h2, h3⟩ := isHint_len _ h
  simp [decodeFields, h, h2, h3, pack_unpack]

/-- A bounded number is its own value. -/
theorem ofNat_val {n : Nat} [NeZero n] (p : Fin n) : Fin.ofNat n p.val = p := Fin.ext (Nat.mod_eq_of_lt p.isLt)

theorem CmpCond.code_lt (x : CmpCond) : x.code < 4 := by cases x <;> decide

theorem CmpCond.ofCode_code (x : CmpCond) : CmpCond.ofCode x.code = some x := by cases x <;> rfl

theorem FCmpCond.code_lt (x : FCmpCond) : x.code < 4 := by cases x <;> decide

theorem FCmpCond.ofCode_code (x : FCmpCond) : FCmpCond.ofCode x.code = some x := by cases x <;> rfl

theorem RedOp.code_lt (x : RedOp) : x.code < 8 := by cases x <;> decide

theorem RedOp.ofCode_code (x : RedOp) : RedOp.ofCode x.code = some x := by cases x <;> rfl

theorem FRedOp.code_lt (x : FRedOp) : x.code < 4 := by cases x <;> decide

theorem FRedOp.ofCode_code (x : FRedOp) : FRedOp.ofCode x.code = some x := by cases x <;> rfl

theorem SgnMode.code_lt (x : SgnMode) : x.code < 4 := by cases x <;> decide

theorem SgnMode.ofCode_code (x : SgnMode) : SgnMode.ofCode x.code = some x := by cases x <;> rfl

theorem RndCode.code_lt (x : RndCode) : x.code < 7 := by cases x <;> decide

theorem RndCode.ofCode_code (x : RndCode) : RndCode.ofCode x.code = some x := by cases x <;> rfl

theorem PLogOp.code_lt (x : PLogOp) : x.code < 8 := by cases x <;> decide

theorem PLogOp.ofCode_code (x : PLogOp) : PLogOp.ofCode x.code = some x := by cases x <;> rfl

theorem PSetOp.code_lt (x : PSetOp) : x.code < 4 := by cases x <;> decide

theorem PSetOp.ofCode_code (x : PSetOp) : PSetOp.ofCode x.code = some x := by cases x <;> rfl

theorem CvtWidth.code_lt (x : CvtWidth) : x.code < 4 := by cases x <;> decide

theorem CvtWidth.ofCode_code (x : CvtWidth) : CvtWidth.ofCode x.code = some x := by cases x <;> rfl

theorem VAmoOp.code_lt (x : VAmoOp) : x.code < 8 := by cases x <;> decide

theorem VAmoOp.ofCode_code (x : VAmoOp) : VAmoOp.ofCode x.code = some x := by cases x <;> rfl

theorem VRedOp.code_lt (x : VRedOp) : x.code < 8 := by cases x <;> decide

theorem VRedOp.ofCode_code (x : VRedOp) : VRedOp.ofCode x.code = some x := by cases x <;> rfl

theorem Scope.code_lt (x : Scope) : x.code < 7 := by cases x <;> decide

theorem Scope.ofCode_code (x : Scope) : Scope.ofCode x.code = some x := by cases x <;> rfl

theorem FenceKind.code_lt (x : FenceKind) : x.code < 4 := by cases x <;> decide

theorem FenceKind.ofCode_code (x : FenceKind) : FenceKind.ofCode x.code = some x := by cases x <;> rfl

theorem AcqMode.code_lt (x : AcqMode) : x.code < 3 := by cases x <;> decide

theorem AcqMode.ofCode_code (x : AcqMode) : AcqMode.ofCode x.code = some x := by cases x <;> rfl

theorem Fmt.code_lt (x : Fmt) : x.code < 32 := by cases x <;> decide

theorem Fmt.ofCode_code (x : Fmt) : Fmt.ofCode x.code = some x := by cases x <;> rfl

theorem Fmt.ofTarget_code (x : Fmt) (h : (x != .scw && x != .raw) = true) : Fmt.ofTarget x.code = some x := by
  cases x <;> first | rfl | exact absurd h (by decide)

theorem decodeFields_load (F : Fields) (h : F.opc = 3) :
    decodeFields F = decodeLoad F false := by
  simp [decodeFields, isHint, h]

theorem decodeFields_loadFp (F : Fields) (h : F.opc = 7) :
    decodeFields F = decodeLoad F true := by
  simp [decodeFields, isHint, h]

theorem decodeFields_miscMem (F : Fields) (h : F.opc = 15) (hh : isHint F = false) :
    decodeFields F = decodeMiscMem F := by
  simp [decodeFields, hh, h]

theorem decodeFields_opImm (F : Fields) (h : F.opc = 19) (hh : isHint F = false) :
    decodeFields F = decodeOpImm F := by
  simp [decodeFields, hh, h]

theorem decodeFields_auipc (F : Fields) (h : F.opc = 23) (hh : isHint F = false) :
    decodeFields F = okB (.auipc F.d (BitVec.ofNat 20 F.hi20)) := by
  simp [decodeFields, hh, h]

theorem decodeFields_opImmW (F : Fields) (h : F.opc = 27) (hh : isHint F = false) :
    decodeFields F = decodeOpImmW F := by
  simp [decodeFields, hh, h]

theorem decodeFields_store (F : Fields) (h : F.opc = 35) :
    decodeFields F = decodeStore F false := by
  simp [decodeFields, isHint, h]

theorem decodeFields_storeFp (F : Fields) (h : F.opc = 39) :
    decodeFields F = decodeStore F true := by
  simp [decodeFields, isHint, h]

theorem decodeFields_amo (F : Fields) (h : F.opc = 47) :
    decodeFields F = decodeAmo F := by
  simp [decodeFields, isHint, h]

theorem decodeFields_op (F : Fields) (h : F.opc = 51) (hh : isHint F = false) :
    decodeFields F = (match regOpOf F.f7 F.f3.val with
      | some o => okB (.op o F.d F.a F.b)
      | none => .error .reservedOperation) := by
  cases ho : regOpOf F.f7 F.f3.val <;> simp [decodeFields, hh, h, ho]

theorem decodeFields_lui (F : Fields) (h : F.opc = 55) (hh : isHint F = false) :
    decodeFields F = okB (.lui F.d (BitVec.ofNat 20 F.hi20)) := by
  simp [decodeFields, hh, h]

theorem decodeFields_opW (F : Fields) (h : F.opc = 59) (hh : isHint F = false) :
    decodeFields F = decodeOpW F := by
  simp [decodeFields, hh, h]

theorem decodeFields_madd (F : Fields) (h : F.opc = 67) :
    decodeFields F = decodeFma F .madd := by
  simp [decodeFields, isHint, h]

theorem decodeFields_msub (F : Fields) (h : F.opc = 71) :
    decodeFields F = decodeFma F .msub := by
  simp [decodeFields, isHint, h]

theorem decodeFields_nmsub (F : Fields) (h : F.opc = 75) :
    decodeFields F = decodeFma F .nmsub := by
  simp [decodeFields, isHint, h]

theorem decodeFields_nmadd (F : Fields) (h : F.opc = 79) :
    decodeFields F = decodeFma F .nmadd := by
  simp [decodeFields, isHint, h]

theorem decodeFields_opFp (F : Fields) (h : F.opc = 83) :
    decodeFields F = decodeOpFp F := by
  simp [decodeFields, isHint, h]

theorem decodeFields_branch (F : Fields) (h : F.opc = 99) :
    decodeFields F = decodeBranch F := by
  simp [decodeFields, isHint, h]

theorem decodeFields_jalr (F : Fields) (h : F.opc = 103) :
    decodeFields F = (if F.f3.val = 0 then okB (.jalr F.d F.a (BitVec.ofNat 12 F.hi12)) else .error .reservedForm) := by
  simp [decodeFields, isHint, h]

theorem decodeFields_jal (F : Fields) (h : F.opc = 111) :
    decodeFields F = okB (.jal F.d (BitVec.ofNat 20
        (F.hi20 / 2 ^ 19 * 2 ^ 19 + F.hi20 % 256 * 2048 + F.hi20 / 256 % 2 * 1024 + F.hi20 / 512 % 1024))) := by
  simp [decodeFields, isHint, h]

theorem decodeFields_system (F : Fields) (h : F.opc = 115) :
    decodeFields F = decodeSystem F := by
  simp [decodeFields, isHint, h]

/-- Bits [31:12] of fields made with them. -/
theorem hi20_mkHi20 (opc : Fin 128) (hi : Nat) (d : Fin 32) (h : hi < 2 ^ 20) : (mkHi20 opc hi d).hi20 = hi := by
  simp only [mkHi20, mkHi, Fields.hi20, Fields.hi12, Fin.val_ofNat]
  omega

/-- Bits [31:25] of fields made with them. -/
theorem f7_mkF7 (opc : Fin 128) (f7 : Nat) (b a : Fin 32) (f3 : Fin 8) (d : Fin 32) (h : f7 < 128) :
    (mkF7 opc f7 b a f3 d).f7 = f7 := by
  simp only [mkF7, Fields.f7, Fin.val_ofNat]
  omega

/-- Bits [31:20] of fields made with bits [31:25]. -/
theorem hi12_mkF7 (opc : Fin 128) (f7 : Nat) (b a : Fin 32) (f3 : Fin 8) (d : Fin 32) (h : f7 < 128) :
    (mkF7 opc f7 b a f3 d).hi12 = f7 * 32 + b.val := by
  simp only [mkF7, Fields.hi12, Fin.val_ofNat]
  omega

/-- Bits [31:25] of fields made with bits [31:20]. -/
theorem f7_mkHi (opc : Fin 128) (hi : Nat) (a : Fin 32) (f3 : Fin 8) (d : Fin 32) (h : hi < 4096) :
    (mkHi opc hi a f3 d).f7 = hi / 32 := by
  simp only [mkHi, Fields.f7, Fin.val_ofNat]
  omega

/-- A rounding field that a well-formed instruction holds is valid in a word. -/
theorem rmOk_of (rm : FRm) (h : (rm != 5 && rm != 6) = true) : rmOk rm.toFin = true := by
  revert rm
  decide

/-- The parts of JAL's immediate, put into the word's order and back. -/
theorem jal_split (a b c d : Nat) (_ : a < 2) (hb : b < 256) (hc : c < 2) (hd : d < 1024) :
    (a * 524288 + d * 512 + c * 256 + b) / 524288 = a ∧ (a * 524288 + d * 512 + c * 256 + b) % 256 = b ∧
      (a * 524288 + d * 512 + c * 256 + b) / 256 % 2 = c ∧ (a * 524288 + d * 512 + c * 256 + b) / 512 % 1024 = d := by
  omega

/-- The parts of a branch's immediate, put into the word's order and back. -/
theorem branch_split (a b c d : Nat) (_ : a < 2) (hb : b < 64) (hc : c < 2) (hd : d < 16) :
    (a * 64 + b) / 64 = a ∧ (a * 64 + b) % 64 = b ∧ (d * 2 + c) % 32 % 2 = c ∧ (d * 2 + c) % 32 / 2 = d := by
  omega

end Sys2Proof
end

