-- ==== Sys2Proof/Laws/Memory.lean ====
section
/-!
SUPPORT. The operations that write memory keep its canonical form. No other operation of the model writes it.
-/
namespace Sys2Proof.Machine

variable {α : Type}

/-! ### Parts of sorted maps -/

/-- Sorted, with every key below a bound. -/
theorem asortedFrom_append {lo hi : Nat} {m n : AMap α} (hm : asortedFrom lo m = true) (hb : ∀ x ∈ m, x.1 < hi) (hl : lo ≤ hi)
    (hn : asortedFrom hi n = true) : asortedFrom lo (m ++ n) = true := by
  induction m generalizing lo with
  | nil => exact asortedFrom_mono n hl hn
  | cons p r ih =>
    obtain ⟨a, w⟩ := p
    simp only [asortedFrom, Bool.and_eq_true, decide_eq_true_eq, List.cons_append] at hm ⊢
    have ha : a < hi := hb (a, w) (by simp)
    exact ⟨hm.1, ih hm.2 (fun x hx => hb x (by simp [hx])) ha⟩

theorem asortedFrom_below {lo : Nat} {m : AMap α} (k : Nat) (h : asortedFrom lo m = true) : asortedFrom lo (below m k) = true := by
  induction m generalizing lo with
  | nil => rfl
  | cons p r ih =>
    obtain ⟨a, w⟩ := p
    simp only [asortedFrom, Bool.and_eq_true, decide_eq_true_eq] at h
    simp only [below, List.takeWhile_cons] at ih ⊢
    split
    · simp [asortedFrom, h.1, ih h.2]
    · rfl

theorem asortedFrom_fromKey {lo : Nat} {m : AMap α} (k : Nat) (h : asortedFrom lo m = true) : asortedFrom k (fromKey m k) = true := by
  induction m generalizing lo with
  | nil => rfl
  | cons p r ih =>
    obtain ⟨a, w⟩ := p
    simp only [asortedFrom, Bool.and_eq_true, decide_eq_true_eq] at h
    simp only [fromKey, List.dropWhile_cons] at ih ⊢
    split
    · exact ih h.2
    · rename_i hk
      simp only [asortedFrom, Bool.and_eq_true, decide_eq_true_eq]
      exact ⟨by simpa using hk, h.2⟩

theorem asortedFrom_shiftUp {lo : Nat} {m : AMap α} (k : Nat) (h : asortedFrom lo m = true) : asortedFrom (lo + k) (shiftUp k m) = true := by
  induction m generalizing lo with
  | nil => rfl
  | cons p r ih =>
    obtain ⟨a, w⟩ := p
    simp only [asortedFrom, Bool.and_eq_true, decide_eq_true_eq] at h
    have := ih h.2
    simp only [shiftUp, List.map_cons, asortedFrom, Bool.and_eq_true, decide_eq_true_eq] at this ⊢
    exact ⟨by omega, by rwa [show a + k + 1 = a + 1 + k by omega]⟩

theorem mem_below_lt {m : AMap α} {k : Nat} {x : Nat × α} (h : x ∈ below m k) : x.1 < k ∧ x ∈ m := by
  refine ⟨by simpa using List.mem_takeWhile_imp h, (List.takeWhile_prefix _).subset h⟩

/-! ### Writes -/

theorem wf_setRawByte {s : State} (pa : Nat) (b : Byte) (h : Memory.wf s.mem = true) : Memory.wf (setRawByte s pa b).mem = true :=
  acanon_aputC 0 s.mem pa b h

/-- A fold of writes keeps what each write keeps. -/
theorem foldl_keeps {β : Type} {P : State → Prop} {f : State → β → State} (l : List β) {s : State} (hs : P s)
    (hf : ∀ t b, P t → P (f t b)) : P (l.foldl f s) := by
  induction l generalizing s with
  | nil => exact hs
  | cons b r ih => exact ih (hf s b hs)

theorem wf_rekeyLine {s : State} (kid line : Nat) (h : Memory.wf s.mem = true) : Memory.wf (rekeyLine s kid line).mem = true := by
  simp only [rekeyLine]
  split
  · exact h
  · simp only []
    split
    · exact h
    · exact foldl_keeps (P := fun t => Memory.wf t.mem = true) _ h fun _ _ ht => wf_setRawByte _ _ ht

theorem wf_physSetByte {s : State} (kid pa : Nat) (b : Byte) (h : Memory.wf s.mem = true) : Memory.wf (physSetByte s kid pa b).mem = true :=
  wf_setRawByte _ _ (wf_rekeyLine _ _ h)

theorem wf_physWrite {s : State} (kid pa n v : Nat) (h : Memory.wf s.mem = true) : Memory.wf (physWrite s kid pa n v).mem = true :=
  foldl_keeps (P := fun t => Memory.wf t.mem = true) _ h fun _ _ ht => wf_physSetByte _ _ _ ht

/-- A write's effect on the reservations leaves memory alone. -/
@[simp] theorem killResv_mem (s : State) (g k : Nat) : (killResv s g k).mem = s.mem := by
  unfold killResv
  extract_lets hit
  split <;> rfl

theorem wf_killResv {s : State} (g k : Nat) (h : Memory.wf s.mem = true) : Memory.wf (killResv s g k).mem = true := by simpa using h

theorem wf_areaWrite {s : State} (tid pa n v : Nat) (h : Memory.wf s.mem = true) : Memory.wf (areaWrite s tid pa n v).mem = true :=
  wf_killResv _ _ (wf_physWrite _ _ _ _ h)

theorem wf_markDirty {s : State} (xd : Word) (pa : Nat) (h : Memory.wf s.mem = true) : Memory.wf (markDirty s xd pa).mem = true := by
  unfold markDirty
  extract_lets base a
  split
  · exact wf_setRawByte _ _ h
  · exact h

theorem wf_canonMap (len : Nat) (m : Mem) : Memory.wf (canonMap len m) = true ∧ ∀ x ∈ canonMap len m, x.1 < len := by
  unfold canonMap
  split
  · rename_i h
    simp only [Bool.and_eq_true, List.all_eq_true, decide_eq_true_eq] at h
    exact h
  · suffices ∀ (l t : Mem), Memory.wf t = true ∧ (∀ x ∈ t, x.1 < len) →
        Memory.wf (l.foldl (fun t kv => if kv.1 < len then aputC 0 t kv.1 kv.2 else t) t) = true ∧
          ∀ x ∈ l.foldl (fun t kv => if kv.1 < len then aputC 0 t kv.1 kv.2 else t) t, x.1 < len from
      this m [] ⟨rfl, by simp⟩
    intro l
    induction l with
    | nil => exact fun t ht => ht
    | cons p r ih =>
      intro t ht
      refine ih _ ?_
      by_cases hp : p.1 < len
      · simp only [hp, if_true]
        refine ⟨acanon_aputC 0 t _ _ ht.1, fun x hx => ?_⟩
        unfold aputC at hx
        split at hx
        · exact ht.2 x (mem_adel hx)
        · rcases mem_aput hx with rfl | hx
          · exact hp
          · exact ht.2 x hx
      · simpa [hp] using ht

theorem wf_areaPut {s : State} (tid base len : Nat) (m : Mem) (h : Memory.wf s.mem = true) :
    Memory.wf (areaPut s tid base len m).mem = true := by
  obtain ⟨hw, hl⟩ := wf_canonMap len m
  simp only [Memory.wf, acanon, Bool.and_eq_true, List.all_eq_true, decide_eq_true_eq] at h hw
  simp only [areaPut, Memory.wf, acanon, Bool.and_eq_true, List.all_eq_true, decide_eq_true_eq]
  have hs := asortedFrom_shiftUp base hw.1
  rw [Nat.zero_add] at hs
  refine ⟨asortedFrom_append (hi := base + len) (asortedFrom_append (hi := base) (asortedFrom_below base h.1)
      (fun x hx => (mem_below_lt hx).1) (Nat.zero_le _) hs) ?_ (Nat.zero_le _) (asortedFrom_fromKey _ h.1), ?_⟩
  · intro x hx
    rcases List.mem_append.1 hx with hx | hx
    · have := (mem_below_lt hx).1; omega
    · obtain ⟨y, hy, rfl⟩ := List.mem_map.1 hx
      have := hl y hy
      simp only; omega
  · intro x hx
    rcases List.mem_append.1 hx with hx | hx
    · rcases List.mem_append.1 hx with hx | hx
      · exact h.2 x (mem_below_lt hx).2
      · obtain ⟨y, hy, rfl⟩ := List.mem_map.1 hx
        exact hw.2 y hy
    · exact h.2 x ((List.dropWhile_suffix _).subset hx)

/-- A gap cut out of a sorted map leaves it canonical. -/
theorem acanon_gap {m : Mem} {lo hi : Nat} (hl : lo ≤ hi) (h : Memory.wf m = true) : Memory.wf (below m lo ++ fromKey m hi) = true := by
  simp only [Memory.wf, acanon, Bool.and_eq_true, List.all_eq_true, decide_eq_true_eq] at h ⊢
  refine ⟨asortedFrom_append (asortedFrom_below _ h.1) (fun y hy => Nat.lt_of_lt_of_le (mem_below_lt hy).1 hl) (Nat.zero_le _)
    (asortedFrom_fromKey _ h.1), fun y hy => ?_⟩
  rcases List.mem_append.1 hy with hy | hy
  · exact h.2 y (mem_below_lt hy).2
  · exact h.2 y ((List.dropWhile_suffix _).subset hy)

/-- An extent whose layout changes lists no byte afterwards. -/
theorem wf_scrambleExtent {s : State} (x : Nat) (h : Memory.wf s.mem = true) : Memory.wf (scrambleExtent s x).mem = true :=
  acanon_gap (Nat.le_add_right _ _) h

/-- The state after reset lists no byte. -/
theorem wf_reset : Memory.wf State.reset.mem = true := rfl

/-! ### Memory that nothing has written -/

theorem aget?_none {m : AMap α} {k : Nat} (h : ∀ x ∈ m, x.1 ≠ k) : aget? m k = none := by
  induction m with
  | nil => rfl
  | cons p r ih =>
    obtain ⟨a, w⟩ := p
    have ha : a ≠ k := h (a, w) (by simp)
    have hr : aget? r k = none := ih fun x hx => h x (by simp [hx])
    simp [aget?, hr, ha]

theorem physByte_pristine {s : State} {lo hi kid pa : Nat} (h : pristine s lo hi = true) (hl : lo ≤ pa) (hh : pa < hi) :
    physByte s kid pa = 0 := by
  simp only [pristine, Bool.and_eq_true, List.all_eq_true, Bool.or_eq_true, decide_eq_true_eq] at h
  obtain ⟨⟨hm, hk⟩, hu⟩ := h
  have k0 : aget 0 s.lineKey (pa / 64) = 0 := by
    rw [aget, aget?_none fun x hx => ?_]; · rfl
    have := hk x hx; omega
  have u0 : unspecAt s pa = none := by
    rw [unspecAt, Option.map_eq_none_iff, List.find?_eq_none]
    intro e he; have := hu e he
    simp only [Bool.and_eq_true, decide_eq_true_eq]; omega
  rw [physByte, k0, if_pos (Or.inl rfl), rawByte, u0, aget, aget?_none fun x hx => ?_]; · rfl
  have := hm x hx; omega

theorem natOfBytes_zero (n : Nat) : natOfBytes ((List.range n).map fun _ => (0 : Byte)) = 0 := by
  rw [List.map_const', List.length_range]
  induction n with
  | zero => rfl
  | succ n ih => rw [List.replicate_succ, natOfBytes, ih]; rfl

/-- The entries of the parked-reduction area that are valid and a hart's, as spec/13 Table 13-4 gives them. -/
theorem mem_parkedReds (s : State) (h i : Nat) : i ∈ parkedReds s h ↔ (hartCtx s h).ctxbase ≠ 0 ∧ i < 64 ∧
    let w := areaRead s (hartCtx s h).tid ((hartCtx s h).ctxbase + parkedRedOff + 64 * i) 8
    (bitOf w 0 && fieldOf w 15 9 == ghartOf s h) = true := by
  unfold parkedReds
  by_cases h0 : (hartCtx s h).ctxbase = 0
  · simp [h0]
  simp only [h0, if_false]
  split
  · rename_i hp
    simp only [List.not_mem_nil, false_iff, not_and]
    intro _ hi
    have hz : areaRead s (hartCtx s h).tid ((hartCtx s h).ctxbase + parkedRedOff + 64 * i) 8 = 0 := by
      rw [areaRead, physRead, List.map_congr_left (g := fun _ => (0 : Byte)), natOfBytes_zero]
      intro k hk; rw [List.mem_range] at hk
      exact physByte_pristine hp (by omega) (by omega)
    rw [hz]; simp [bitOf]
  · simp [h0]

end Sys2Proof.Machine
end

