-- ==== Sys2Proof/Laws/PerInstr.lean ====
section
/-!
SUPPORT. The encoding of every constructor, one lemma each: the fields that the encoder gives decode to the instruction.
-/
set_option linter.unusedSimpArgs false

namespace Sys2Proof.Laws.Encoding

/-- What the encoding owes an instruction: the fields that the encoder gives a well-formed one decode to it. -/
def Statement (i : Instr) : Prop := ∀ F, i.wellFormed = true → encodeFields i = some F → decodeFields F = .ok i

theorem vaddVv (g : Fin 4) (b : RegIx) (a : RegIx) (d : RegIx) : Statement (.vaddVv g b a d) := by
  intro F _ h
  cases h
  rw [decodeFields_custom0 _ rfl]
  simp [decodeCustom0, guardField, withCode, Fields.f7, ofNat_val]

theorem vaddVx (g : Fin 4) (b : RegIx) (a : RegIx) (d : RegIx) : Statement (.vaddVx g b a d) := by
  intro F _ h
  cases h
  rw [decodeFields_custom0 _ rfl]
  simp [decodeCustom0, guardField, withCode, Fields.f7, ofNat_val]

theorem vaddVi (g : Fin 4) (b : RegIx) (a : BitVec 5) (d : RegIx) : Statement (.vaddVi g b a d) := by
  intro F _ h
  cases h
  rw [decodeFields_custom0 _ rfl]
  simp [decodeCustom0, guardField, withCode, Fields.f7, ofNat_val]

theorem vsubVv (g : Fin 4) (b : RegIx) (a : RegIx) (d : RegIx) : Statement (.vsubVv g b a d) := by
  intro F _ h
  cases h
  rw [decodeFields_custom0 _ rfl]
  simp [decodeCustom0, guardField, withCode, Fields.f7, ofNat_val]

theorem vsubVx (g : Fin 4) (b : RegIx) (a : RegIx) (d : RegIx) : Statement (.vsubVx g b a d) := by
  intro F _ h
  cases h
  rw [decodeFields_custom0 _ rfl]
  simp [decodeCustom0, guardField, withCode, Fields.f7, ofNat_val]

theorem vsubVi (g : Fin 4) (b : RegIx) (a : BitVec 5) (d : RegIx) : Statement (.vsubVi g b a d) := by
  intro F _ h
  cases h
  rw [decodeFields_custom0 _ rfl]
  simp [decodeCustom0, guardField, withCode, Fields.f7, ofNat_val]

theorem vmulVv (g : Fin 4) (b : RegIx) (a : RegIx) (d : RegIx) : Statement (.vmulVv g b a d) := by
  intro F _ h
  cases h
  rw [decodeFields_custom0 _ rfl]
  simp [decodeCustom0, guardField, withCode, Fields.f7, ofNat_val]

theorem vmulVx (g : Fin 4) (b : RegIx) (a : RegIx) (d : RegIx) : Statement (.vmulVx g b a d) := by
  intro F _ h
  cases h
  rw [decodeFields_custom0 _ rfl]
  simp [decodeCustom0, guardField, withCode, Fields.f7, ofNat_val]

theorem vmulVi (g : Fin 4) (b : RegIx) (a : BitVec 5) (d : RegIx) : Statement (.vmulVi g b a d) := by
  intro F _ h
  cases h
  rw [decodeFields_custom0 _ rfl]
  simp [decodeCustom0, guardField, withCode, Fields.f7, ofNat_val]

theorem vmulhVv (g : Fin 4) (b : RegIx) (a : RegIx) (u : Bool) (d : RegIx) : Statement (.vmulhVv g b a u d) := by
  intro F _ h
  cases h
  rw [decodeFields_custom0 _ rfl]
  cases u <;> simp [decodeCustom0, guardField, withCode, Fields.f7, ofNat_val]

theorem vmulhVx (g : Fin 4) (b : RegIx) (a : RegIx) (u : Bool) (d : RegIx) : Statement (.vmulhVx g b a u d) := by
  intro F _ h
  cases h
  rw [decodeFields_custom0 _ rfl]
  cases u <;> simp [decodeCustom0, guardField, withCode, Fields.f7, ofNat_val]

theorem vmaccVv (g : Fin 4) (b : RegIx) (a : RegIx) (d : RegIx) : Statement (.vmaccVv g b a d) := by
  intro F _ h
  cases h
  rw [decodeFields_custom0 _ rfl]
  simp [decodeCustom0, guardField, withCode, Fields.f7, ofNat_val]

theorem vmaccVx (g : Fin 4) (b : RegIx) (a : RegIx) (d : RegIx) : Statement (.vmaccVx g b a d) := by
  intro F _ h
  cases h
  rw [decodeFields_custom0 _ rfl]
  simp [decodeCustom0, guardField, withCode, Fields.f7, ofNat_val]

theorem vmaccVi (g : Fin 4) (b : RegIx) (a : BitVec 5) (d : RegIx) : Statement (.vmaccVi g b a d) := by
  intro F _ h
  cases h
  rw [decodeFields_custom0 _ rfl]
  simp [decodeCustom0, guardField, withCode, Fields.f7, ofNat_val]

theorem vminVv (g : Fin 4) (b : RegIx) (a : RegIx) (u : Bool) (d : RegIx) : Statement (.vminVv g b a u d) := by
  intro F _ h
  cases h
  rw [decodeFields_custom0 _ rfl]
  cases u <;> simp [decodeCustom0, guardField, withCode, Fields.f7, ofNat_val]

theorem vminVx (g : Fin 4) (b : RegIx) (a : RegIx) (u : Bool) (d : RegIx) : Statement (.vminVx g b a u d) := by
  intro F _ h
  cases h
  rw [decodeFields_custom0 _ rfl]
  cases u <;> simp [decodeCustom0, guardField, withCode, Fields.f7, ofNat_val]

theorem vminVi (g : Fin 4) (b : RegIx) (a : BitVec 5) (u : Bool) (d : RegIx) : Statement (.vminVi g b a u d) := by
  intro F _ h
  cases h
  rw [decodeFields_custom0 _ rfl]
  cases u <;> simp [decodeCustom0, guardField, withCode, Fields.f7, ofNat_val]

theorem vmaxVv (g : Fin 4) (b : RegIx) (a : RegIx) (u : Bool) (d : RegIx) : Statement (.vmaxVv g b a u d) := by
  intro F _ h
  cases h
  rw [decodeFields_custom0 _ rfl]
  cases u <;> simp [decodeCustom0, guardField, withCode, Fields.f7, ofNat_val]

theorem vmaxVx (g : Fin 4) (b : RegIx) (a : RegIx) (u : Bool) (d : RegIx) : Statement (.vmaxVx g b a u d) := by
  intro F _ h
  cases h
  rw [decodeFields_custom0 _ rfl]
  cases u <;> simp [decodeCustom0, guardField, withCode, Fields.f7, ofNat_val]

theorem vmaxVi (g : Fin 4) (b : RegIx) (a : BitVec 5) (u : Bool) (d : RegIx) : Statement (.vmaxVi g b a u d) := by
  intro F _ h
  cases h
  rw [decodeFields_custom0 _ rfl]
  cases u <;> simp [decodeCustom0, guardField, withCode, Fields.f7, ofNat_val]

theorem vandVv (g : Fin 4) (b : RegIx) (a : RegIx) (d : RegIx) : Statement (.vandVv g b a d) := by
  intro F _ h
  cases h
  rw [decodeFields_custom0 _ rfl]
  simp [decodeCustom0, guardField, withCode, Fields.f7, ofNat_val]

theorem vandVx (g : Fin 4) (b : RegIx) (a : RegIx) (d : RegIx) : Statement (.vandVx g b a d) := by
  intro F _ h
  cases h
  rw [decodeFields_custom0 _ rfl]
  simp [decodeCustom0, guardField, withCode, Fields.f7, ofNat_val]

theorem vandVi (g : Fin 4) (b : RegIx) (a : BitVec 5) (d : RegIx) : Statement (.vandVi g b a d) := by
  intro F _ h
  cases h
  rw [decodeFields_custom0 _ rfl]
  simp [decodeCustom0, guardField, withCode, Fields.f7, ofNat_val]

theorem vorVv (g : Fin 4) (b : RegIx) (a : RegIx) (d : RegIx) : Statement (.vorVv g b a d) := by
  intro F _ h
  cases h
  rw [decodeFields_custom0 _ rfl]
  simp [decodeCustom0, guardField, withCode, Fields.f7, ofNat_val]

theorem vorVx (g : Fin 4) (b : RegIx) (a : RegIx) (d : RegIx) : Statement (.vorVx g b a d) := by
  intro F _ h
  cases h
  rw [decodeFields_custom0 _ rfl]
  simp [decodeCustom0, guardField, withCode, Fields.f7, ofNat_val]

theorem vorVi (g : Fin 4) (b : RegIx) (a : BitVec 5) (d : RegIx) : Statement (.vorVi g b a d) := by
  intro F _ h
  cases h
  rw [decodeFields_custom0 _ rfl]
  simp [decodeCustom0, guardField, withCode, Fields.f7, ofNat_val]

theorem vxorVv (g : Fin 4) (b : RegIx) (a : RegIx) (d : RegIx) : Statement (.vxorVv g b a d) := by
  intro F _ h
  cases h
  rw [decodeFields_custom0 _ rfl]
  simp [decodeCustom0, guardField, withCode, Fields.f7, ofNat_val]

theorem vxorVx (g : Fin 4) (b : RegIx) (a : RegIx) (d : RegIx) : Statement (.vxorVx g b a d) := by
  intro F _ h
  cases h
  rw [decodeFields_custom0 _ rfl]
  simp [decodeCustom0, guardField, withCode, Fields.f7, ofNat_val]

theorem vxorVi (g : Fin 4) (b : RegIx) (a : BitVec 5) (d : RegIx) : Statement (.vxorVi g b a d) := by
  intro F _ h
  cases h
  rw [decodeFields_custom0 _ rfl]
  simp [decodeCustom0, guardField, withCode, Fields.f7, ofNat_val]

theorem vshlVv (g : Fin 4) (b : RegIx) (a : RegIx) (d : RegIx) : Statement (.vshlVv g b a d) := by
  intro F _ h
  cases h
  rw [decodeFields_custom0 _ rfl]
  simp [decodeCustom0, guardField, withCode, Fields.f7, ofNat_val]

theorem vshlVx (g : Fin 4) (b : RegIx) (a : RegIx) (d : RegIx) : Statement (.vshlVx g b a d) := by
  intro F _ h
  cases h
  rw [decodeFields_custom0 _ rfl]
  simp [decodeCustom0, guardField, withCode, Fields.f7, ofNat_val]

theorem vshlVi (g : Fin 4) (b : RegIx) (a : BitVec 5) (d : RegIx) : Statement (.vshlVi g b a d) := by
  intro F _ h
  cases h
  rw [decodeFields_custom0 _ rfl]
  simp [decodeCustom0, guardField, withCode, Fields.f7, ofNat_val]

theorem vshrVv (g : Fin 4) (b : RegIx) (a : RegIx) (u : Bool) (d : RegIx) : Statement (.vshrVv g b a u d) := by
  intro F _ h
  cases h
  rw [decodeFields_custom0 _ rfl]
  cases u <;> simp [decodeCustom0, guardField, withCode, Fields.f7, ofNat_val]

theorem vshrVx (g : Fin 4) (b : RegIx) (a : RegIx) (u : Bool) (d : RegIx) : Statement (.vshrVx g b a u d) := by
  intro F _ h
  cases h
  rw [decodeFields_custom0 _ rfl]
  cases u <;> simp [decodeCustom0, guardField, withCode, Fields.f7, ofNat_val]

theorem vshrVi (g : Fin 4) (b : RegIx) (a : BitVec 5) (u : Bool) (d : RegIx) : Statement (.vshrVi g b a u d) := by
  intro F _ h
  cases h
  rw [decodeFields_custom0 _ rfl]
  cases u <;> simp [decodeCustom0, guardField, withCode, Fields.f7, ofNat_val]

theorem vcmpVv (g : Fin 4) (b : RegIx) (a : RegIx) (u : Bool) (c : CmpCond) (p : Fin 8) : Statement (.vcmpVv g b a u c p) := by
  intro F _ h
  cases h
  rw [decodeFields_custom0 _ rfl]
  have l_c := c.code_lt
  have l_p := p.isLt
  have e0 : (c.code * 8 + p.val) % 32 = c.code * 8 + p.val := by omega
  have e1 : (c.code * 8 + p.val) / 8 = c.code := by omega
  have e2 : (c.code * 8 + p.val) % 8 = p.val := by omega
  have e3 : p.val / 8 = 0 := by omega
  have e4 : p.val % 8 = p.val := by omega
  cases u <;> simp [decodeCustom0, guardField, withCode, Fields.f7, ofNat_val, CmpCond.ofCode_code, e0, e1, e2, e3, e4]

theorem vcmpVx (g : Fin 4) (b : RegIx) (a : RegIx) (u : Bool) (c : CmpCond) (p : Fin 8) : Statement (.vcmpVx g b a u c p) := by
  intro F _ h
  cases h
  rw [decodeFields_custom0 _ rfl]
  have l_c := c.code_lt
  have l_p := p.isLt
  have e0 : (c.code * 8 + p.val) % 32 = c.code * 8 + p.val := by omega
  have e1 : (c.code * 8 + p.val) / 8 = c.code := by omega
  have e2 : (c.code * 8 + p.val) % 8 = p.val := by omega
  have e3 : p.val / 8 = 0 := by omega
  have e4 : p.val % 8 = p.val := by omega
  cases u <;> simp [decodeCustom0, guardField, withCode, Fields.f7, ofNat_val, CmpCond.ofCode_code, e0, e1, e2, e3, e4]

theorem vcmpVi (g : Fin 4) (b : RegIx) (a : BitVec 5) (u : Bool) (c : CmpCond) (p : Fin 8) : Statement (.vcmpVi g b a u c p) := by
  intro F _ h
  cases h
  rw [decodeFields_custom0 _ rfl]
  have l_c := c.code_lt
  have l_p := p.isLt
  have e0 : (c.code * 8 + p.val) % 32 = c.code * 8 + p.val := by omega
  have e1 : (c.code * 8 + p.val) / 8 = c.code := by omega
  have e2 : (c.code * 8 + p.val) % 8 = p.val := by omega
  have e3 : p.val / 8 = 0 := by omega
  have e4 : p.val % 8 = p.val := by omega
  cases u <;> simp [decodeCustom0, guardField, withCode, Fields.f7, ofNat_val, CmpCond.ofCode_code, e0, e1, e2, e3, e4]

theorem vselVv (g : Fin 4) (b : RegIx) (a : RegIx) (d : RegIx) : Statement (.vselVv g b a d) := by
  intro F _ h
  cases h
  rw [decodeFields_custom0 _ rfl]
  simp [decodeCustom0, guardField, withCode, Fields.f7, ofNat_val]

theorem vselVx (g : Fin 4) (b : RegIx) (a : RegIx) (d : RegIx) : Statement (.vselVx g b a d) := by
  intro F _ h
  cases h
  rw [decodeFields_custom0 _ rfl]
  simp [decodeCustom0, guardField, withCode, Fields.f7, ofNat_val]

theorem vselVi (g : Fin 4) (b : RegIx) (a : BitVec 5) (d : RegIx) : Statement (.vselVi g b a d) := by
  intro F _ h
  cases h
  rw [decodeFields_custom0 _ rfl]
  simp [decodeCustom0, guardField, withCode, Fields.f7, ofNat_val]

theorem vclipVv (g : Fin 4) (b : RegIx) (a : RegIx) (u : Bool) (d : RegIx) : Statement (.vclipVv g b a u d) := by
  intro F _ h
  cases h
  rw [decodeFields_custom0 _ rfl]
  cases u <;> simp [decodeCustom0, guardField, withCode, Fields.f7, ofNat_val]

theorem vclipVx (g : Fin 4) (b : RegIx) (a : RegIx) (u : Bool) (d : RegIx) : Statement (.vclipVx g b a u d) := by
  intro F _ h
  cases h
  rw [decodeFields_custom0 _ rfl]
  cases u <;> simp [decodeCustom0, guardField, withCode, Fields.f7, ofNat_val]

theorem vclipVi (g : Fin 4) (b : RegIx) (a : BitVec 5) (u : Bool) (d : RegIx) : Statement (.vclipVi g b a u d) := by
  intro F _ h
  cases h
  rw [decodeFields_custom0 _ rfl]
  cases u <;> simp [decodeCustom0, guardField, withCode, Fields.f7, ofNat_val]

theorem vwcvt (g : Fin 4) (b : RegIx) (w : CvtWidth) (u : Bool) (d : RegIx) : Statement (.vwcvt g b w u d) := by
  intro F _ h
  cases h
  rw [decodeFields_custom0 _ rfl]
  have l_w := w.code_lt
  have e0 : (w.code) % 32 = w.code := by omega
  have e1 : w.code / 4 = 0 := by omega
  have e2 : w.code % 4 = w.code := by omega
  cases u <;> simp [decodeCustom0, guardField, withCode, Fields.f7, ofNat_val, CvtWidth.ofCode_code, e0, e1, e2]

theorem vredi (g : Fin 4) (b : RegIx) (o : RedOp) (d : RegIx) : Statement (.vredi g b o d) := by
  intro F _ h
  cases h
  rw [decodeFields_custom0 _ rfl]
  have l_o := o.code_lt
  have e0 : (o.code) % 32 = o.code := by omega
  simp [decodeCustom0, guardField, withCode, Fields.f7, ofNat_val, RedOp.ofCode_code, e0]

theorem vslupVx (g : Fin 4) (b : RegIx) (a : RegIx) (d : RegIx) : Statement (.vslupVx g b a d) := by
  intro F _ h
  cases h
  rw [decodeFields_custom0 _ rfl]
  simp [decodeCustom0, guardField, withCode, Fields.f7, ofNat_val]

theorem vslupVi (g : Fin 4) (b : RegIx) (a : BitVec 5) (d : RegIx) : Statement (.vslupVi g b a d) := by
  intro F _ h
  cases h
  rw [decodeFields_custom0 _ rfl]
  simp [decodeCustom0, guardField, withCode, Fields.f7, ofNat_val]

theorem vsldnVx (g : Fin 4) (b : RegIx) (a : RegIx) (d : RegIx) : Statement (.vsldnVx g b a d) := by
  intro F _ h
  cases h
  rw [decodeFields_custom0 _ rfl]
  simp [decodeCustom0, guardField, withCode, Fields.f7, ofNat_val]

theorem vsldnVi (g : Fin 4) (b : RegIx) (a : BitVec 5) (d : RegIx) : Statement (.vsldnVi g b a d) := by
  intro F _ h
  cases h
  rw [decodeFields_custom0 _ rfl]
  simp [decodeCustom0, guardField, withCode, Fields.f7, ofNat_val]

theorem vperm (g : Fin 4) (b : RegIx) (a : RegIx) (d : RegIx) : Statement (.vperm g b a d) := by
  intro F _ h
  cases h
  rw [decodeFields_custom0 _ rfl]
  simp [decodeCustom0, guardField, withCode, Fields.f7, ofNat_val]

theorem vcmpr (g : Fin 4) (b : RegIx) (sel : Fin 8) (d : RegIx) : Statement (.vcmpr g b sel d) := by
  intro F _ h
  cases h
  rw [decodeFields_custom0 _ rfl]
  have l_sel := sel.isLt
  have e0 : (sel.val) % 32 = sel.val := by omega
  have e1 : sel.val / 8 = 0 := by omega
  have e2 : sel.val % 8 = sel.val := by omega
  simp [decodeCustom0, guardField, withCode, Fields.f7, ofNat_val, e0, e1, e2]

theorem vxpnd (g : Fin 4) (b : RegIx) (sel : Fin 8) (d : RegIx) : Statement (.vxpnd g b sel d) := by
  intro F _ h
  cases h
  rw [decodeFields_custom0 _ rfl]
  have l_sel := sel.isLt
  have e0 : (sel.val) % 32 = sel.val := by omega
  have e1 : sel.val / 8 = 0 := by omega
  have e2 : sel.val % 8 = sel.val := by omega
  simp [decodeCustom0, guardField, withCode, Fields.f7, ofNat_val, e0, e1, e2]

theorem viota (g : Fin 4) (sel : Fin 8) (d : RegIx) : Statement (.viota g sel d) := by
  intro F _ h
  cases h
  rw [decodeFields_custom0 _ rfl]
  have l_sel := sel.isLt
  have e0 : (sel.val) % 32 = sel.val := by omega
  have e1 : sel.val / 8 = 0 := by omega
  have e2 : sel.val % 8 = sel.val := by omega
  simp [decodeCustom0, guardField, withCode, Fields.f7, ofNat_val, e0, e1, e2]

theorem vbcstVx (g : Fin 4) (a : RegIx) (d : RegIx) : Statement (.vbcstVx g a d) := by
  intro F _ h
  cases h
  rw [decodeFields_custom0 _ rfl]
  simp [decodeCustom0, guardField, withCode, Fields.f7, ofNat_val]

theorem vbcstVi (g : Fin 4) (a : BitVec 5) (d : RegIx) : Statement (.vbcstVi g a d) := by
  intro F _ h
  cases h
  rw [decodeFields_custom0 _ rfl]
  simp [decodeCustom0, guardField, withCode, Fields.f7, ofNat_val]

theorem vmvxs (b : RegIx) (u : Bool) (d : RegIx) : Statement (.vmvxs b u d) := by
  intro F _ h
  cases h
  rw [decodeFields_custom0 _ rfl]
  cases u <;> simp [decodeCustom0, guardField, withCode, Fields.f7, ofNat_val]

theorem vmvsx (a : RegIx) (d : RegIx) : Statement (.vmvsx a d) := by
  intro F _ h
  cases h
  rw [decodeFields_custom0 _ rfl]
  simp [decodeCustom0, guardField, withCode, Fields.f7, ofNat_val]

theorem vscan (g : Fin 4) (b : RegIx) (a : RegIx) (u : Bool) (d : RegIx) : Statement (.vscan g b a u d) := by
  intro F _ h
  cases h
  rw [decodeFields_custom0 _ rfl]
  cases u <;> simp [decodeCustom0, guardField, withCode, Fields.f7, ofNat_val]

theorem plog (g : Fin 4) (b : Fin 8) (a : Fin 8) (f : PLogOp) (d : Fin 8) : Statement (.plog g b a f d) := by
  intro F _ h
  cases h
  rw [decodeFields_custom0 _ rfl]
  have l_b := b.isLt
  have l_a := a.isLt
  have l_f := f.code_lt
  have l_d := d.isLt
  have e0 : (d.val) % 32 = d.val := by omega
  have e1 : d.val / 8 = 0 := by omega
  have e2 : d.val % 8 = d.val := by omega
  have e3 : (f.code) % 8 = f.code := by omega
  have e4 : (a.val) % 32 = a.val := by omega
  have e5 : a.val / 8 = 0 := by omega
  have e6 : a.val % 8 = a.val := by omega
  have e7 : (b.val) % 32 = b.val := by omega
  have e8 : b.val / 8 = 0 := by omega
  have e9 : b.val % 8 = b.val := by omega
  simp [decodeCustom0, guardField, withCode, Fields.f7, ofNat_val, PLogOp.ofCode_code, e0, e1, e2, e3, e4, e5, e6, e7, e8, e9]

theorem pbrk (g : Fin 4) (sel : Fin 8) (f : Bool) (d : Fin 8) : Statement (.pbrk g sel f d) := by
  intro F _ h
  cases h
  rw [decodeFields_custom0 _ rfl]
  have l_sel := sel.isLt
  have l_d := d.isLt
  have e0 : (d.val) % 32 = d.val := by omega
  have e1 : d.val / 8 = 0 := by omega
  have e2 : d.val % 8 = d.val := by omega
  have e3 : (sel.val) % 32 = sel.val := by omega
  have e4 : sel.val / 8 = 0 := by omega
  have e5 : sel.val % 8 = sel.val := by omega
  cases f <;> simp [decodeCustom0, guardField, withCode, Fields.f7, ofNat_val, e0, e1, e2, e3, e4, e5]

theorem pcnt (g : Fin 4) (sel : Fin 8) (d : RegIx) : Statement (.pcnt g sel d) := by
  intro F _ h
  cases h
  rw [decodeFields_custom0 _ rfl]
  have l_sel := sel.isLt
  have e0 : (sel.val) % 32 = sel.val := by omega
  have e1 : sel.val / 8 = 0 := by omega
  have e2 : sel.val % 8 = sel.val := by omega
  simp [decodeCustom0, guardField, withCode, Fields.f7, ofNat_val, e0, e1, e2]

theorem pfirst (g : Fin 4) (sel : Fin 8) (d : RegIx) : Statement (.pfirst g sel d) := by
  intro F _ h
  cases h
  rw [decodeFields_custom0 _ rfl]
  have l_sel := sel.isLt
  have e0 : (sel.val) % 32 = sel.val := by omega
  have e1 : sel.val / 8 = 0 := by omega
  have e2 : sel.val % 8 = sel.val := by omega
  simp [decodeCustom0, guardField, withCode, Fields.f7, ofNat_val, e0, e1, e2]

theorem pset (g : Fin 4) (a : RegIx) (f : PSetOp) (d : Fin 8) : Statement (.pset g a f d) := by
  intro F _ h
  cases h
  rw [decodeFields_custom0 _ rfl]
  have l_f := f.code_lt
  have l_d := d.isLt
  have e0 : (d.val) % 32 = d.val := by omega
  have e1 : d.val / 8 = 0 := by omega
  have e2 : d.val % 8 = d.val := by omega
  have e3 : (f.code) % 8 = f.code := by omega
  simp [decodeCustom0, guardField, withCode, Fields.f7, ofNat_val, PSetOp.ofCode_code, e0, e1, e2, e3]

theorem pmovToVector (g : Fin 4) (sel : Fin 8) (d : RegIx) : Statement (.pmovToVector g sel d) := by
  intro F _ h
  cases h
  rw [decodeFields_custom0 _ rfl]
  have l_sel := sel.isLt
  have e0 : (sel.val) % 32 = sel.val := by omega
  have e1 : sel.val / 8 = 0 := by omega
  have e2 : sel.val % 8 = sel.val := by omega
  simp [decodeCustom0, guardField, withCode, Fields.f7, ofNat_val, e0, e1, e2]

theorem pmovToPredicate (g : Fin 4) (b : RegIx) (d : Fin 8) : Statement (.pmovToPredicate g b d) := by
  intro F _ h
  cases h
  rw [decodeFields_custom0 _ rfl]
  have l_d := d.isLt
  have e0 : (d.val) % 32 = d.val := by omega
  have e1 : d.val / 8 = 0 := by omega
  have e2 : d.val % 8 = d.val := by omega
  simp [decodeCustom0, guardField, withCode, Fields.f7, ofNat_val, e0, e1, e2]

theorem vfaddVv (g : Fin 4) (b : RegIx) (a : RegIx) (d : RegIx) : Statement (.vfaddVv g b a d) := by
  intro F _ h
  cases h
  rw [decodeFields_custom1 _ rfl]
  simp [decodeCustom1, guardField, withCode, Fields.f7, ofNat_val]

theorem vfaddVf (g : Fin 4) (b : RegIx) (a : RegIx) (d : RegIx) : Statement (.vfaddVf g b a d) := by
  intro F _ h
  cases h
  rw [decodeFields_custom1 _ rfl]
  simp [decodeCustom1, guardField, withCode, Fields.f7, ofNat_val]

theorem vfaddVx (g : Fin 4) (b : RegIx) (a : RegIx) (d : RegIx) : Statement (.vfaddVx g b a d) := by
  intro F _ h
  cases h
  rw [decodeFields_custom1 _ rfl]
  simp [decodeCustom1, guardField, withCode, Fields.f7, ofNat_val]

theorem vfsubVv (g : Fin 4) (b : RegIx) (a : RegIx) (d : RegIx) : Statement (.vfsubVv g b a d) := by
  intro F _ h
  cases h
  rw [decodeFields_custom1 _ rfl]
  simp [decodeCustom1, guardField, withCode, Fields.f7, ofNat_val]

theorem vfsubVf (g : Fin 4) (b : RegIx) (a : RegIx) (d : RegIx) : Statement (.vfsubVf g b a d) := by
  intro F _ h
  cases h
  rw [decodeFields_custom1 _ rfl]
  simp [decodeCustom1, guardField, withCode, Fields.f7, ofNat_val]

theorem vfsubVx (g : Fin 4) (b : RegIx) (a : RegIx) (d : RegIx) : Statement (.vfsubVx g b a d) := by
  intro F _ h
  cases h
  rw [decodeFields_custom1 _ rfl]
  simp [decodeCustom1, guardField, withCode, Fields.f7, ofNat_val]

theorem vfmulVv (g : Fin 4) (b : RegIx) (a : RegIx) (d : RegIx) : Statement (.vfmulVv g b a d) := by
  intro F _ h
  cases h
  rw [decodeFields_custom1 _ rfl]
  simp [decodeCustom1, guardField, withCode, Fields.f7, ofNat_val]

theorem vfmulVf (g : Fin 4) (b : RegIx) (a : RegIx) (d : RegIx) : Statement (.vfmulVf g b a d) := by
  intro F _ h
  cases h
  rw [decodeFields_custom1 _ rfl]
  simp [decodeCustom1, guardField, withCode, Fields.f7, ofNat_val]

theorem vfmulVx (g : Fin 4) (b : RegIx) (a : RegIx) (d : RegIx) : Statement (.vfmulVx g b a d) := by
  intro F _ h
  cases h
  rw [decodeFields_custom1 _ rfl]
  simp [decodeCustom1, guardField, withCode, Fields.f7, ofNat_val]

theorem vfmaVv (g : Fin 4) (b : RegIx) (a : RegIx) (n : Bool) (d : RegIx) : Statement (.vfmaVv g b a n d) := by
  intro F _ h
  cases h
  rw [decodeFields_custom1 _ rfl]
  cases n <;> simp [decodeCustom1, guardField, withCode, Fields.f7, ofNat_val]

theorem vfmaVf (g : Fin 4) (b : RegIx) (a : RegIx) (n : Bool) (d : RegIx) : Statement (.vfmaVf g b a n d) := by
  intro F _ h
  cases h
  rw [decodeFields_custom1 _ rfl]
  cases n <;> simp [decodeCustom1, guardField, withCode, Fields.f7, ofNat_val]

theorem vfmaVx (g : Fin 4) (b : RegIx) (a : RegIx) (n : Bool) (d : RegIx) : Statement (.vfmaVx g b a n d) := by
  intro F _ h
  cases h
  rw [decodeFields_custom1 _ rfl]
  cases n <;> simp [decodeCustom1, guardField, withCode, Fields.f7, ofNat_val]

theorem vfminVv (g : Fin 4) (b : RegIx) (a : RegIx) (d : RegIx) : Statement (.vfminVv g b a d) := by
  intro F _ h
  cases h
  rw [decodeFields_custom1 _ rfl]
  simp [decodeCustom1, guardField, withCode, Fields.f7, ofNat_val]

theorem vfminVf (g : Fin 4) (b : RegIx) (a : RegIx) (d : RegIx) : Statement (.vfminVf g b a d) := by
  intro F _ h
  cases h
  rw [decodeFields_custom1 _ rfl]
  simp [decodeCustom1, guardField, withCode, Fields.f7, ofNat_val]

theorem vfminVx (g : Fin 4) (b : RegIx) (a : RegIx) (d : RegIx) : Statement (.vfminVx g b a d) := by
  intro F _ h
  cases h
  rw [decodeFields_custom1 _ rfl]
  simp [decodeCustom1, guardField, withCode, Fields.f7, ofNat_val]

theorem vfmaxVv (g : Fin 4) (b : RegIx) (a : RegIx) (d : RegIx) : Statement (.vfmaxVv g b a d) := by
  intro F _ h
  cases h
  rw [decodeFields_custom1 _ rfl]
  simp [decodeCustom1, guardField, withCode, Fields.f7, ofNat_val]

theorem vfmaxVf (g : Fin 4) (b : RegIx) (a : RegIx) (d : RegIx) : Statement (.vfmaxVf g b a d) := by
  intro F _ h
  cases h
  rw [decodeFields_custom1 _ rfl]
  simp [decodeCustom1, guardField, withCode, Fields.f7, ofNat_val]

theorem vfmaxVx (g : Fin 4) (b : RegIx) (a : RegIx) (d : RegIx) : Statement (.vfmaxVx g b a d) := by
  intro F _ h
  cases h
  rw [decodeFields_custom1 _ rfl]
  simp [decodeCustom1, guardField, withCode, Fields.f7, ofNat_val]

theorem vfdivVv (g : Fin 4) (b : RegIx) (a : RegIx) (d : RegIx) : Statement (.vfdivVv g b a d) := by
  intro F _ h
  cases h
  rw [decodeFields_custom1 _ rfl]
  simp [decodeCustom1, guardField, withCode, Fields.f7, ofNat_val]

theorem vfdivVf (g : Fin 4) (b : RegIx) (a : RegIx) (d : RegIx) : Statement (.vfdivVf g b a d) := by
  intro F _ h
  cases h
  rw [decodeFields_custom1 _ rfl]
  simp [decodeCustom1, guardField, withCode, Fields.f7, ofNat_val]

theorem vfdivVx (g : Fin 4) (b : RegIx) (a : RegIx) (d : RegIx) : Statement (.vfdivVx g b a d) := by
  intro F _ h
  cases h
  rw [decodeFields_custom1 _ rfl]
  simp [decodeCustom1, guardField, withCode, Fields.f7, ofNat_val]

theorem vfsqrt (g : Fin 4) (b : RegIx) (d : RegIx) : Statement (.vfsqrt g b d) := by
  intro F _ h
  cases h
  rw [decodeFields_custom1 _ rfl]
  simp [decodeCustom1, guardField, withCode, Fields.f7, ofNat_val]

theorem vfrsqe (g : Fin 4) (b : RegIx) (d : RegIx) : Statement (.vfrsqe g b d) := by
  intro F _ h
  cases h
  rw [decodeFields_custom1 _ rfl]
  simp [decodeCustom1, guardField, withCode, Fields.f7, ofNat_val]

theorem vfexp2e (g : Fin 4) (b : RegIx) (d : RegIx) : Statement (.vfexp2e g b d) := by
  intro F _ h
  cases h
  rw [decodeFields_custom1 _ rfl]
  simp [decodeCustom1, guardField, withCode, Fields.f7, ofNat_val]

theorem vfcmpVv (g : Fin 4) (b : RegIx) (a : RegIx) (c : FCmpCond) (p : Fin 8) : Statement (.vfcmpVv g b a c p) := by
  intro F _ h
  cases h
  rw [decodeFields_custom1 _ rfl]
  have l_c := c.code_lt
  have l_p := p.isLt
  have e0 : (c.code * 8 + p.val) % 32 = c.code * 8 + p.val := by omega
  have e1 : (c.code * 8 + p.val) / 8 = c.code := by omega
  have e2 : (c.code * 8 + p.val) % 8 = p.val := by omega
  have e3 : p.val / 8 = 0 := by omega
  have e4 : p.val % 8 = p.val := by omega
  simp [decodeCustom1, guardField, withCode, Fields.f7, ofNat_val, FCmpCond.ofCode_code, e0, e1, e2, e3, e4]

theorem vfcmpVf (g : Fin 4) (b : RegIx) (a : RegIx) (c : FCmpCond) (p : Fin 8) : Statement (.vfcmpVf g b a c p) := by
  intro F _ h
  cases h
  rw [decodeFields_custom1 _ rfl]
  have l_c := c.code_lt
  have l_p := p.isLt
  have e0 : (c.code * 8 + p.val) % 32 = c.code * 8 + p.val := by omega
  have e1 : (c.code * 8 + p.val) / 8 = c.code := by omega
  have e2 : (c.code * 8 + p.val) % 8 = p.val := by omega
  have e3 : p.val / 8 = 0 := by omega
  have e4 : p.val % 8 = p.val := by omega
  simp [decodeCustom1, guardField, withCode, Fields.f7, ofNat_val, FCmpCond.ofCode_code, e0, e1, e2, e3, e4]

theorem vfcmpVx (g : Fin 4) (b : RegIx) (a : RegIx) (c : FCmpCond) (p : Fin 8) : Statement (.vfcmpVx g b a c p) := by
  intro F _ h
  cases h
  rw [decodeFields_custom1 _ rfl]
  have l_c := c.code_lt
  have l_p := p.isLt
  have e0 : (c.code * 8 + p.val) % 32 = c.code * 8 + p.val := by omega
  have e1 : (c.code * 8 + p.val) / 8 = c.code := by omega
  have e2 : (c.code * 8 + p.val) % 8 = p.val := by omega
  have e3 : p.val / 8 = 0 := by omega
  have e4 : p.val % 8 = p.val := by omega
  simp [decodeCustom1, guardField, withCode, Fields.f7, ofNat_val, FCmpCond.ofCode_code, e0, e1, e2, e3, e4]

theorem vfsgn (g : Fin 4) (b : RegIx) (m : SgnMode) (d : RegIx) : Statement (.vfsgn g b m d) := by
  intro F _ h
  cases h
  rw [decodeFields_custom1 _ rfl]
  have l_m := m.code_lt
  have e0 : (m.code) % 32 = m.code := by omega
  simp [decodeCustom1, guardField, withCode, Fields.f7, ofNat_val, SgnMode.ofCode_code, e0]

theorem vfcvt (g : Fin 4) (b : RegIx) (t : Fmt) (r : RndCode) (d : RegIx) : Statement (.vfcvt g b t r d) := by
  intro F hw h
  cases h
  rw [decodeFields_custom1 _ rfl]
  have l_t := t.code_lt
  have l_r := r.code_lt
  have e0 : (r.code) % 8 = r.code := by omega
  have e1 : (t.code) % 32 = t.code := by omega
  have n_r : r.code ≠ 7 := by omega
  simp [decodeCustom1, guardField, withCode, Fields.f7, ofNat_val, Fmt.ofCode_code, Fmt.ofTarget_code _ hw, RndCode.ofCode_code, e0, e1, n_r]

theorem vredf (g : Fin 4) (b : RegIx) (o : FRedOp) (r : RndCode) (d : RegIx) : Statement (.vredf g b o r d) := by
  intro F hw h
  simp only [Instr.wellFormed, Bool.or_eq_true, beq_iff_eq] at hw
  cases h
  rw [decodeFields_custom1 _ rfl]
  have l_o := o.code_lt
  have l_r := r.code_lt
  have e0 : (r.code) % 8 = r.code := by omega
  have e1 : (o.code) % 32 = o.code := by omega
  have n_r : r.code ≠ 7 := by omega
  simp [decodeCustom1, guardField, withCode, Fields.f7, ofNat_val, FRedOp.ofCode_code, RndCode.ofCode_code, e0, e1, n_r, hw]

theorem vtagg (b : RegIx) (d : RegIx) : Statement (.vtagg b d) := by
  intro F _ h
  cases h
  rw [decodeFields_custom1 _ rfl]
  simp [decodeCustom1, guardField, withCode, Fields.f7, ofNat_val]

theorem vtags (a : RegIx) (d : RegIx) : Statement (.vtags a d) := by
  intro F _ h
  cases h
  rw [decodeFields_custom1 _ rfl]
  simp [decodeCustom1, guardField, withCode, Fields.f7, ofNat_val]

theorem vsetvl (b : RegIx) (a : RegIx) (d : RegIx) : Statement (.vsetvl b a d) := by
  intro F _ h
  cases h
  rw [decodeFields_custom1 _ rfl]
  simp [decodeCustom1, guardField, withCode, Fields.f7, ofNat_val]

theorem vsetvli (im : BitVec 12) (a : RegIx) (d : RegIx) : Statement (.vsetvli im a d) := by
  intro F _ h
  cases h
  rw [decodeFields_custom1 _ rfl]
  simp [decodeCustom1, guardField, withCode, Fields.f7, ofNat_val, mkHi, Fields.hi12, hi12_split _ im.isLt]

theorem vld (g : Fin 4) (a : RegIx) (f : Bool) (sel : Bool) (d : RegIx) : Statement (.vld g a f sel d) := by
  intro F _ h
  cases h
  rw [decodeFields_custom2 _ rfl]
  cases f <;> cases sel <;> simp [decodeCustom2, guardField, withCode, Fields.f7, ofNat_val]

theorem vlds (g : Fin 4) (b : RegIx) (a : RegIx) (f : Bool) (sel : Bool) (d : RegIx) : Statement (.vlds g b a f sel d) := by
  intro F _ h
  cases h
  rw [decodeFields_custom2 _ rfl]
  cases f <;> cases sel <;> simp [decodeCustom2, guardField, withCode, Fields.f7, ofNat_val]

theorem vldx (g : Fin 4) (b : RegIx) (a : RegIx) (f : Bool) (im : Bool) (d : RegIx) : Statement (.vldx g b a f im d) := by
  intro F _ h
  cases h
  rw [decodeFields_custom2 _ rfl]
  cases f <;> cases im <;> simp [decodeCustom2, guardField, withCode, Fields.f7, ofNat_val]

theorem vldsr (b : RegIx) (a : RegIx) (d : RegIx) : Statement (.vldsr b a d) := by
  intro F _ h
  cases h
  rw [decodeFields_custom2 _ rfl]
  simp [decodeCustom2, guardField, withCode, Fields.f7, ofNat_val]

theorem vst (g : Fin 4) (a : RegIx) (sel : Bool) (d : RegIx) : Statement (.vst g a sel d) := by
  intro F _ h
  cases h
  rw [decodeFields_custom2 _ rfl]
  cases sel <;> simp [decodeCustom2, guardField, withCode, Fields.f7, ofNat_val]

theorem vsts (g : Fin 4) (b : RegIx) (a : RegIx) (sel : Bool) (d : RegIx) : Statement (.vsts g b a sel d) := by
  intro F _ h
  cases h
  rw [decodeFields_custom2 _ rfl]
  cases sel <;> simp [decodeCustom2, guardField, withCode, Fields.f7, ofNat_val]

theorem vstx (g : Fin 4) (b : RegIx) (a : RegIx) (im : Bool) (d : RegIx) : Statement (.vstx g b a im d) := by
  intro F _ h
  cases h
  rw [decodeFields_custom2 _ rfl]
  cases im <;> simp [decodeCustom2, guardField, withCode, Fields.f7, ofNat_val]

theorem vamo (g : Fin 4) (b : RegIx) (a : RegIx) (o : VAmoOp) (d : RegIx) : Statement (.vamo g b a o d) := by
  intro F _ h
  cases h
  rw [decodeFields_custom2 _ rfl]
  have l_o := o.code_lt
  have e0 : (o.code) % 8 = o.code := by omega
  simp [decodeCustom2, guardField, withCode, Fields.f7, ofNat_val, VAmoOp.ofCode_code, e0]

theorem vred (g : Fin 4) (b : RegIx) (a : RegIx) (o : VRedOp) (d : RegIx) : Statement (.vred g b a o d) := by
  intro F _ h
  cases h
  rw [decodeFields_custom2 _ rfl]
  have l_o := o.code_lt
  have e0 : (o.code) % 8 = o.code := by omega
  simp [decodeCustom2, guardField, withCode, Fields.f7, ofNat_val, VRedOp.ofCode_code, e0]

theorem cpy (b : RegIx) (a : RegIx) (r : Bool) (d : RegIx) : Statement (.cpy b a r d) := by
  intro F _ h
  cases h
  rw [decodeFields_custom2 _ rfl]
  cases r <;> simp [decodeCustom2, guardField, withCode, Fields.f7, ofNat_val]

theorem cpys (b : RegIx) (a : RegIx) (f : Bool) (r : Bool) (d : RegIx) : Statement (.cpys b a f r d) := by
  intro F _ h
  cases h
  rw [decodeFields_custom2 _ rfl]
  cases f <;> cases r <;> simp [decodeCustom2, guardField, withCode, Fields.f7, ofNat_val]

theorem cpyw : Statement (.cpyw) := by
  intro F _ h
  cases h
  rw [decodeFields_custom2 _ rfl]
  simp [decodeCustom2, guardField, withCode, Fields.f7, ofNat_val]

theorem sqcmd (p : Fin 16) (a : RegIx) : Statement (.sqcmd p a) := by
  intro F _ h
  cases h
  rw [decodeFields_custom2 _ rfl]
  have l_p := p.isLt
  have e0 : (p.val) % 32 = p.val := by omega
  have e1 : p.val / 16 = 0 := by omega
  have e2 : p.val % 16 = p.val := by omega
  simp [decodeCustom2, guardField, withCode, Fields.f7, ofNat_val, e0, e1, e2]

theorem sqwait (p : Fin 16) (d : RegIx) : Statement (.sqwait p d) := by
  intro F _ h
  cases h
  rw [decodeFields_custom2 _ rfl]
  have l_p := p.isLt
  have e0 : (p.val) % 32 = p.val := by omega
  have e1 : p.val / 16 = 0 := by omega
  have e2 : p.val % 16 = p.val := by omega
  simp [decodeCustom2, guardField, withCode, Fields.f7, ofNat_val, e0, e1, e2]

theorem mma (x : Fin 6) (y : Fin 6) (c : Fin 8) (a : RegIx) (b : RegIx) : Statement (.mma x y c a b) := by
  intro F _ h
  cases h
  rw [decodeFields_matrix _ rfl rfl]
  have l_x := x.isLt
  have l_y := y.isLt
  have l_c := c.isLt
  have k : x.val * 64 + y.val * 8 + c.val < 4096 := by omega
  have k1 : (x.val * 64 + y.val * 8 + c.val) / 512 = 0 := by omega
  have k2 : (x.val * 64 + y.val * 8 + c.val) / 64 % 8 = x.val := by omega
  have k3 : (x.val * 64 + y.val * 8 + c.val) / 8 % 8 = y.val := by omega
  have k4 : (x.val * 64 + y.val * 8 + c.val) % 32 % 8 = c.val := by omega
  rw [decodeMatrix, hi12_mkHi _ _ _ _ _ k, k1]
  simp only [k2, k3, mkHi, Fin.val_ofNat, k4]
  simp [guardField, withCode, finOf, ofNat_val]

theorem mmaTile (x : Fin 6) (y : Fin 6) (c : Fin 8) (sel : Fin 8) (b : RegIx) : Statement (.mmaTile x y c sel b) := by
  intro F _ h
  cases h
  rw [decodeFields_matrix _ rfl rfl]
  have l_x := x.isLt
  have l_y := y.isLt
  have l_c := c.isLt
  have l_sel := sel.isLt
  have k : x.val * 64 + y.val * 8 + c.val + 512 < 4096 := by omega
  have k1 : (x.val * 64 + y.val * 8 + c.val + 512) / 512 = 1 := by omega
  have k2 : (x.val * 64 + y.val * 8 + c.val + 512) / 64 % 8 = x.val := by omega
  have k3 : (x.val * 64 + y.val * 8 + c.val + 512) / 8 % 8 = y.val := by omega
  have k4 : (x.val * 64 + y.val * 8 + c.val + 512) % 32 % 8 = c.val := by omega
  have k5 : sel.val % 32 = sel.val := by omega
  have k6 : sel.val / 8 = 0 := by omega
  have k7 : sel.val % 8 = sel.val := by omega
  rw [decodeMatrix, hi12_mkHi _ _ _ _ _ k, k1]
  simp only [k2, k3, mkHi, Fin.val_ofNat, k4]
  simp [guardField, withCode, finOf, ofNat_val, k5, k6, k7]

theorem mmas (x : Fin 6) (y : Fin 6) (c : Fin 8) (a : RegIx) (b : RegIx) : Statement (.mmas x y c a b) := by
  intro F _ h
  cases h
  rw [decodeFields_matrix _ rfl rfl]
  have l_x := x.isLt
  have l_y := y.isLt
  have l_c := c.isLt
  have k : x.val * 64 + y.val * 8 + c.val + 1024 < 4096 := by omega
  have k1 : (x.val * 64 + y.val * 8 + c.val + 1024) / 512 = 2 := by omega
  have k2 : (x.val * 64 + y.val * 8 + c.val + 1024) / 64 % 8 = x.val := by omega
  have k3 : (x.val * 64 + y.val * 8 + c.val + 1024) / 8 % 8 = y.val := by omega
  have k4 : (x.val * 64 + y.val * 8 + c.val + 1024) % 32 % 8 = c.val := by omega
  rw [decodeMatrix, hi12_mkHi _ _ _ _ _ k, k1]
  simp only [k2, k3, mkHi, Fin.val_ofNat, k4]
  simp [guardField, withCode, finOf, ofNat_val]

theorem mmasTile (x : Fin 6) (y : Fin 6) (c : Fin 8) (sel : Fin 8) (b : RegIx) : Statement (.mmasTile x y c sel b) := by
  intro F _ h
  cases h
  rw [decodeFields_matrix _ rfl rfl]
  have l_x := x.isLt
  have l_y := y.isLt
  have l_c := c.isLt
  have l_sel := sel.isLt
  have k : x.val * 64 + y.val * 8 + c.val + 1536 < 4096 := by omega
  have k1 : (x.val * 64 + y.val * 8 + c.val + 1536) / 512 = 3 := by omega
  have k2 : (x.val * 64 + y.val * 8 + c.val + 1536) / 64 % 8 = x.val := by omega
  have k3 : (x.val * 64 + y.val * 8 + c.val + 1536) / 8 % 8 = y.val := by omega
  have k4 : (x.val * 64 + y.val * 8 + c.val + 1536) % 32 % 8 = c.val := by omega
  have k5 : sel.val % 32 = sel.val := by omega
  have k6 : sel.val / 8 = 0 := by omega
  have k7 : sel.val % 8 = sel.val := by omega
  rw [decodeMatrix, hi12_mkHi _ _ _ _ _ k, k1]
  simp only [k2, k3, mkHi, Fin.val_ofNat, k4]
  simp [guardField, withCode, finOf, ofNat_val, k5, k6, k7]

theorem mzero (c : Fin 8) : Statement (.mzero c) := by
  intro F _ h
  cases h
  rw [decodeFields_matrix _ rfl rfl]
  have l_c := c.isLt
  have k : c.val + 2048 < 4096 := by omega
  have k1 : (c.val + 2048) / 512 = 4 := by omega
  have k2 : (c.val + 2048) / 64 % 8 = 0 := by omega
  have k3 : (c.val + 2048) / 8 % 8 = 0 := by omega
  have k4 : (c.val + 2048) % 32 % 8 = c.val := by omega
  rw [decodeMatrix, hi12_mkHi _ _ _ _ _ k, k1]
  simp only [k2, k3, mkHi, Fin.val_ofNat, k4]
  simp [guardField, withCode, finOf, ofNat_val]

theorem mrda (x : Fin 6) (c : Fin 8) (f : Fin 32) (d : RegIx) : Statement (.mrda x c f d) := by
  intro F _ h
  cases h
  rw [decodeFields_matrix _ rfl rfl]
  have l_x := x.isLt
  have l_c := c.isLt
  have k : x.val * 64 + c.val + 2560 < 4096 := by omega
  have k1 : (x.val * 64 + c.val + 2560) / 512 = 5 := by omega
  have k2 : (x.val * 64 + c.val + 2560) / 64 % 8 = x.val := by omega
  have k3 : (x.val * 64 + c.val + 2560) / 8 % 8 = 0 := by omega
  have k4 : (x.val * 64 + c.val + 2560) % 32 % 8 = c.val := by omega
  rw [decodeMatrix, hi12_mkHi _ _ _ _ _ k, k1]
  simp only [k2, k3, mkHi, Fin.val_ofNat, k4]
  simp [guardField, withCode, finOf, ofNat_val]

theorem mwra (x : Fin 6) (c : Fin 8) (f : Fin 32) (d : RegIx) : Statement (.mwra x c f d) := by
  intro F _ h
  cases h
  rw [decodeFields_matrix _ rfl rfl]
  have l_x := x.isLt
  have l_c := c.isLt
  have k : x.val * 64 + c.val + 3072 < 4096 := by omega
  have k1 : (x.val * 64 + c.val + 3072) / 512 = 6 := by omega
  have k2 : (x.val * 64 + c.val + 3072) / 64 % 8 = x.val := by omega
  have k3 : (x.val * 64 + c.val + 3072) / 8 % 8 = 0 := by omega
  have k4 : (x.val * 64 + c.val + 3072) % 32 % 8 = c.val := by omega
  rw [decodeMatrix, hi12_mkHi _ _ _ _ _ k, k1]
  simp only [k2, k3, mkHi, Fin.val_ofNat, k4]
  simp [guardField, withCode, finOf, ofNat_val]

theorem mtcw (c : Fin 8) (a : RegIx) : Statement (.mtcw c a) := by
  intro F _ h
  cases h
  rw [decodeFields_matrix _ rfl rfl]
  have l_c := c.isLt
  have k : c.val + 3584 < 4096 := by omega
  have k1 : (c.val + 3584) / 512 = 7 := by omega
  have k2 : (c.val + 3584) / 64 % 8 = 0 := by omega
  have k3 : (c.val + 3584) / 8 % 8 = 0 := by omega
  have k4 : (c.val + 3584) % 32 % 8 = c.val := by omega
  rw [decodeMatrix, hi12_mkHi _ _ _ _ _ k, k1]
  simp only [k2, k3, mkHi, Fin.val_ofNat, k4]
  simp [guardField, withCode, finOf, ofNat_val]

theorem chcfg (n : Fin 4) (a : RegIx) : Statement (.chcfg n a) := by
  intro F _ h
  cases h
  rw [decodeFields_s _ rfl rfl]
  have l_n := n.isLt
  have e0 : (n.val) % 32 = n.val := by omega
  have e1 : n.val / 4 = 0 := by omega
  have e2 : n.val % 4 = n.val := by omega
  simp [decodeS, guardField, withCode, Fields.f7, ofNat_val, e0, e1, e2]

theorem chaim (n : Fin 4) (a : RegIx) : Statement (.chaim n a) := by
  intro F _ h
  cases h
  rw [decodeFields_s _ rfl rfl]
  have l_n := n.isLt
  have e0 : (n.val) % 32 = n.val := by omega
  have e1 : n.val / 4 = 0 := by omega
  have e2 : n.val % 4 = n.val := by omega
  simp [decodeS, guardField, withCode, Fields.f7, ofNat_val, e0, e1, e2]

theorem chrun (n : Fin 4) (a : RegIx) : Statement (.chrun n a) := by
  intro F _ h
  cases h
  rw [decodeFields_s _ rfl rfl]
  have l_n := n.isLt
  have e0 : (n.val) % 32 = n.val := by omega
  have e1 : n.val / 4 = 0 := by omega
  have e2 : n.val % 4 = n.val := by omega
  simp [decodeS, guardField, withCode, Fields.f7, ofNat_val, e0, e1, e2]

theorem chwait (n : Fin 4) (d : RegIx) : Statement (.chwait n d) := by
  intro F _ h
  cases h
  rw [decodeFields_s _ rfl rfl]
  have l_n := n.isLt
  have e0 : (n.val) % 32 = n.val := by omega
  have e1 : n.val / 4 = 0 := by omega
  have e2 : n.val % 4 = n.val := by omega
  simp [decodeS, guardField, withCode, Fields.f7, ofNat_val, e0, e1, e2]

theorem chst (n : Fin 4) (d : RegIx) : Statement (.chst n d) := by
  intro F _ h
  cases h
  rw [decodeFields_s _ rfl rfl]
  have l_n := n.isLt
  have e0 : (n.val) % 32 = n.val := by omega
  have e1 : n.val / 4 = 0 := by omega
  have e2 : n.val % 4 = n.val := by omega
  simp [decodeS, guardField, withCode, Fields.f7, ofNat_val, e0, e1, e2]

theorem chdrn (n : Fin 4) : Statement (.chdrn n) := by
  intro F _ h
  cases h
  rw [decodeFields_s _ rfl rfl]
  have l_n := n.isLt
  have e0 : (n.val) % 32 = n.val := by omega
  have e1 : n.val / 4 = 0 := by omega
  have e2 : n.val % 4 = n.val := by omega
  simp [decodeS, guardField, withCode, Fields.f7, ofNat_val, e0, e1, e2]

theorem chbrk (n : Fin 4) : Statement (.chbrk n) := by
  intro F _ h
  cases h
  rw [decodeFields_s _ rfl rfl]
  have l_n := n.isLt
  have e0 : (n.val) % 32 = n.val := by omega
  have e1 : n.val / 4 = 0 := by omega
  have e2 : n.val % 4 = n.val := by omega
  simp [decodeS, guardField, withCode, Fields.f7, ofNat_val, e0, e1, e2]

theorem chsav (n : Fin 4) (a : RegIx) : Statement (.chsav n a) := by
  intro F _ h
  cases h
  rw [decodeFields_s _ rfl rfl]
  have l_n := n.isLt
  have e0 : (n.val) % 32 = n.val := by omega
  have e1 : n.val / 4 = 0 := by omega
  have e2 : n.val % 4 = n.val := by omega
  simp [decodeS, guardField, withCode, Fields.f7, ofNat_val, e0, e1, e2]

theorem chld (n : Fin 4) (a : RegIx) : Statement (.chld n a) := by
  intro F _ h
  cases h
  rw [decodeFields_s _ rfl rfl]
  have l_n := n.isLt
  have e0 : (n.val) % 32 = n.val := by omega
  have e1 : n.val / 4 = 0 := by omega
  have e2 : n.val % 4 = n.val := by omega
  simp [decodeS, guardField, withCode, Fields.f7, ofNat_val, e0, e1, e2]

theorem qpush (q : Fin 16) (a : RegIx) : Statement (.qpush q a) := by
  intro F _ h
  cases h
  rw [decodeFields_s _ rfl rfl]
  have l_q := q.isLt
  have e0 : (q.val) % 32 = q.val := by omega
  have e1 : q.val / 16 = 0 := by omega
  have e2 : q.val % 16 = q.val := by omega
  simp [decodeS, guardField, withCode, Fields.f7, ofNat_val, e0, e1, e2]

theorem qpop (q : Fin 16) (d : RegIx) : Statement (.qpop q d) := by
  intro F _ h
  cases h
  rw [decodeFields_s _ rfl rfl]
  have l_q := q.isLt
  have e0 : (q.val) % 32 = q.val := by omega
  have e1 : q.val / 16 = 0 := by omega
  have e2 : q.val % 16 = q.val := by omega
  simp [decodeS, guardField, withCode, Fields.f7, ofNat_val, e0, e1, e2]

theorem qpeek (q : Fin 16) (d : RegIx) : Statement (.qpeek q d) := by
  intro F _ h
  cases h
  rw [decodeFields_s _ rfl rfl]
  have l_q := q.isLt
  have e0 : (q.val) % 32 = q.val := by omega
  have e1 : q.val / 16 = 0 := by omega
  have e2 : q.val % 16 = q.val := by omega
  simp [decodeS, guardField, withCode, Fields.f7, ofNat_val, e0, e1, e2]

theorem qstat (q : Fin 16) (d : RegIx) : Statement (.qstat q d) := by
  intro F _ h
  cases h
  rw [decodeFields_s _ rfl rfl]
  have l_q := q.isLt
  have e0 : (q.val) % 32 = q.val := by omega
  have e1 : q.val / 16 = 0 := by omega
  have e2 : q.val % 16 = q.val := by omega
  simp [decodeS, guardField, withCode, Fields.f7, ofNat_val, e0, e1, e2]

theorem acq (sel : Scope) (m : AcqMode) (a : RegIx) (d : RegIx) : Statement (.acq sel m a d) := by
  intro F _ h
  cases h
  rw [decodeFields_s _ rfl rfl]
  have l_sel := sel.code_lt
  have l_m := m.code_lt
  have e0 : (sel.code * 4 + m.code) % 32 = sel.code * 4 + m.code := by omega
  have e1 : (sel.code * 4 + m.code) / 4 = sel.code := by omega
  have e2 : (sel.code * 4 + m.code) % 4 = m.code := by omega
  simp [decodeS, guardField, withCode, Fields.f7, ofNat_val, Scope.ofCode_code, AcqMode.ofCode_code, e0, e1, e2]

theorem rel (sel : Scope) (a : RegIx) : Statement (.rel sel a) := by
  intro F _ h
  cases h
  rw [decodeFields_s _ rfl rfl]
  have l_sel := sel.code_lt
  have e0 : (sel.code * 4) % 32 = sel.code * 4 := by omega
  have e1 : sel.code * 4 / 4 = sel.code := by omega
  have e2 : sel.code * 4 % 4 = 0 := by omega
  simp [decodeS, guardField, withCode, Fields.f7, ofNat_val, Scope.ofCode_code, e0, e1, e2]

theorem bindr (b : RegIx) (a : RegIx) (d : RegIx) : Statement (.bindr b a d) := by
  intro F _ h
  cases h
  rw [decodeFields_s _ rfl rfl]
  simp [decodeS, guardField, withCode, Fields.f7, ofNat_val]

theorem unbindr (a : RegIx) : Statement (.unbindr a) := by
  intro F _ h
  cases h
  rw [decodeFields_s _ rfl rfl]
  simp [decodeS, guardField, withCode, Fields.f7, ofNat_val]

theorem fencex (sel : Scope) (k : FenceKind) : Statement (.fencex sel k) := by
  intro F _ h
  cases h
  rw [decodeFields_s _ rfl rfl]
  have l_sel := sel.code_lt
  have l_k := k.code_lt
  have e0 : (sel.code * 4 + k.code) % 32 = sel.code * 4 + k.code := by omega
  have e1 : (sel.code * 4 + k.code) / 4 = sel.code := by omega
  have e2 : (sel.code * 4 + k.code) % 4 = k.code := by omega
  simp [decodeS, guardField, withCode, Fields.f7, ofNat_val, Scope.ofCode_code, FenceKind.ofCode_code, e0, e1, e2]

theorem bari (n : Fin 4) (a : RegIx) : Statement (.bari n a) := by
  intro F _ h
  cases h
  rw [decodeFields_s _ rfl rfl]
  have l_n := n.isLt
  have e0 : (n.val) % 32 = n.val := by omega
  have e1 : n.val / 4 = 0 := by omega
  have e2 : n.val % 4 = n.val := by omega
  simp [decodeS, guardField, withCode, Fields.f7, ofNat_val, e0, e1, e2]

theorem bara (r : Bool) (n : Fin 4) (d : RegIx) : Statement (.bara r n d) := by
  intro F _ h
  cases h
  rw [decodeFields_s _ rfl rfl]
  have l_n := n.isLt
  cases r <;> fin_cases n <;> simp [decodeS, guardField, withCode, Fields.f7, ofNat_val] <;> rfl

theorem barw (c : Bool) (n : Fin 4) (a : RegIx) : Statement (.barw c n a) := by
  intro F _ h
  cases h
  rw [decodeFields_s _ rfl rfl]
  have l_n := n.isLt
  cases c <;> fin_cases n <;> simp [decodeS, guardField, withCode, Fields.f7, ofNat_val] <;> rfl

theorem baraw (c : Bool) (n : Fin 4) (d : RegIx) : Statement (.baraw c n d) := by
  intro F _ h
  cases h
  rw [decodeFields_s _ rfl rfl]
  have l_n := n.isLt
  cases c <;> fin_cases n <;> simp [decodeS, guardField, withCode, Fields.f7, ofNat_val] <;> rfl

theorem monarm (a : RegIx) : Statement (.monarm a) := by
  intro F _ h
  cases h
  rw [decodeFields_s _ rfl rfl]
  simp [decodeS, guardField, withCode, Fields.f7, ofNat_val]

theorem mwait (a : RegIx) (d : RegIx) : Statement (.mwait a d) := by
  intro F _ h
  cases h
  rw [decodeFields_s _ rfl rfl]
  simp [decodeS, guardField, withCode, Fields.f7, ofNat_val]

theorem bfence (g : Bool) : Statement (.bfence g) := by
  intro F _ h
  cases h
  rw [decodeFields_s _ rfl rfl]
  cases g <;> simp [decodeS, guardField, withCode, Fields.f7, ofNat_val]

theorem futinit (a : RegIx) : Statement (.futinit a) := by
  intro F _ h
  cases h
  rw [decodeFields_s _ rfl rfl]
  simp [decodeS, guardField, withCode, Fields.f7, ofNat_val]

theorem futrd (b : RegIx) (a : RegIx) (d : RegIx) : Statement (.futrd b a d) := by
  intro F _ h
  cases h
  rw [decodeFields_s _ rfl rfl]
  simp [decodeS, guardField, withCode, Fields.f7, ofNat_val]

theorem futwr (b : RegIx) (a : RegIx) : Statement (.futwr b a) := by
  intro F _ h
  cases h
  rw [decodeFields_s _ rfl rfl]
  simp [decodeS, guardField, withCode, Fields.f7, ofNat_val]

theorem futqry (a : RegIx) (d : RegIx) : Statement (.futqry a d) := by
  intro F _ h
  cases h
  rw [decodeFields_s _ rfl rfl]
  simp [decodeS, guardField, withCode, Fields.f7, ofNat_val]

theorem tspawn (a : RegIx) : Statement (.tspawn a) := by
  intro F _ h
  cases h
  rw [decodeFields_s _ rfl rfl]
  simp [decodeS, guardField, withCode, Fields.f7, ofNat_val]

theorem tnext (w : Bool) (d : RegIx) : Statement (.tnext w d) := by
  intro F _ h
  cases h
  rw [decodeFields_s _ rfl rfl]
  cases w <;> simp [decodeS, guardField, withCode, Fields.f7, ofNat_val]

theorem msgring (a : RegIx) : Statement (.msgring a) := by
  intro F _ h
  cases h
  rw [decodeFields_s _ rfl rfl]
  simp [decodeS, guardField, withCode, Fields.f7, ofNat_val]

theorem msgsnd (b : RegIx) (a : RegIx) (d : RegIx) : Statement (.msgsnd b a d) := by
  intro F _ h
  cases h
  rw [decodeFields_s _ rfl rfl]
  simp [decodeS, guardField, withCode, Fields.f7, ofNat_val]

theorem msgrcv (b : RegIx) (a : RegIx) (d : RegIx) : Statement (.msgrcv b a d) := by
  intro F _ h
  cases h
  rw [decodeFields_s _ rfl rfl]
  simp [decodeS, guardField, withCode, Fields.f7, ofNat_val]

theorem evqcfg (n : Fin 4) (a : RegIx) : Statement (.evqcfg n a) := by
  intro F _ h
  cases h
  rw [decodeFields_s _ rfl rfl]
  have l_n := n.isLt
  have e0 : (n.val) % 32 = n.val := by omega
  have e1 : n.val / 4 = 0 := by omega
  have e2 : n.val % 4 = n.val := by omega
  simp [decodeS, guardField, withCode, Fields.f7, ofNat_val, e0, e1, e2]

theorem evqpop (n : Fin 4) (d : RegIx) : Statement (.evqpop n d) := by
  intro F _ h
  cases h
  rw [decodeFields_s _ rfl rfl]
  have l_n := n.isLt
  have e0 : (n.val) % 32 = n.val := by omega
  have e1 : n.val / 4 = 0 := by omega
  have e2 : n.val % 4 = n.val := by omega
  simp [decodeS, guardField, withCode, Fields.f7, ofNat_val, e0, e1, e2]

theorem bcmd (a : RegIx) : Statement (.bcmd a) := by
  intro F _ h
  cases h
  rw [decodeFields_s _ rfl rfl]
  simp [decodeS, guardField, withCode, Fields.f7, ofNat_val]

theorem bgax (b : RegIx) (a : RegIx) (d : RegIx) : Statement (.bgax b a d) := by
  intro F _ h
  cases h
  rw [decodeFields_s _ rfl rfl]
  simp [decodeS, guardField, withCode, Fields.f7, ofNat_val]

theorem pklcfg (u : Fin 12) (a : RegIx) : Statement (.pklcfg u a) := by
  intro F _ h
  cases h
  rw [decodeFields_s _ rfl rfl]
  have l_u := u.isLt
  have e0 : (u.val) % 32 = u.val := by omega
  have e1 : u.val / 12 = 0 := by omega
  have e2 : u.val % 12 = u.val := by omega
  simp [decodeS, guardField, withCode, Fields.f7, ofNat_val, finOf, e0, e1, e2]

theorem pklq (u : Fin 12) (a : RegIx) (d : RegIx) : Statement (.pklq u a d) := by
  intro F _ h
  cases h
  rw [decodeFields_s _ rfl rfl]
  have l_u := u.isLt
  have e0 : (u.val) % 32 = u.val := by omega
  have e1 : u.val / 12 = 0 := by omega
  have e2 : u.val % 12 = u.val := by omega
  simp [decodeS, guardField, withCode, Fields.f7, ofNat_val, finOf, e0, e1, e2]

theorem pklget (w : Bool) (a : RegIx) (d : RegIx) : Statement (.pklget w a d) := by
  intro F _ h
  cases h
  rw [decodeFields_s _ rfl rfl]
  cases w <;> simp [decodeS, guardField, withCode, Fields.f7, ofNat_val]

theorem lpart (n : Fin 4) : Statement (.lpart n) := by
  intro F _ h
  cases h
  rw [decodeFields_s _ rfl rfl]
  have l_n := n.isLt
  have e0 : (n.val) % 32 = n.val := by omega
  have e1 : n.val / 4 = 0 := by omega
  have e2 : n.val % 4 = n.val := by omega
  simp [decodeS, guardField, withCode, Fields.f7, ofNat_val, e0, e1, e2]

theorem ctxsv : Statement (.ctxsv) := by
  intro F _ h
  cases h
  rw [decodeFields_s _ rfl rfl]
  simp [decodeS, guardField, withCode, Fields.f7, ofNat_val]

theorem ctxld : Statement (.ctxld) := by
  intro F _ h
  cases h
  rw [decodeFields_s _ rfl rfl]
  simp [decodeS, guardField, withCode, Fields.f7, ofNat_val]

theorem tlbir (b : RegIx) (a : RegIx) (d : RegIx) : Statement (.tlbir b a d) := by
  intro F _ h
  cases h
  rw [decodeFields_s _ rfl rfl]
  simp [decodeS, guardField, withCode, Fields.f7, ofNat_val]

theorem tlbsync : Statement (.tlbsync) := by
  intro F _ h
  cases h
  rw [decodeFields_s _ rfl rfl]
  simp [decodeS, guardField, withCode, Fields.f7, ofNat_val]

theorem splp (e : Fin 16) (a : RegIx) : Statement (.splp e a) := by
  intro F _ h
  cases h
  rw [decodeFields_s _ rfl rfl]
  have l_e := e.isLt
  have e0 : (e.val) % 32 = e.val := by omega
  have e1 : e.val / 16 = 0 := by omega
  have e2 : e.val % 16 = e.val := by omega
  simp [decodeS, guardField, withCode, Fields.f7, ofNat_val, e0, e1, e2]

theorem splr (e : Fin 16) (d : RegIx) : Statement (.splr e d) := by
  intro F _ h
  cases h
  rw [decodeFields_s _ rfl rfl]
  have l_e := e.isLt
  have e0 : (e.val) % 32 = e.val := by omega
  have e1 : e.val / 16 = 0 := by omega
  have e2 : e.val % 16 = e.val := by omega
  simp [decodeS, guardField, withCode, Fields.f7, ofNat_val, e0, e1, e2]

theorem ecall : Statement .ecall := by
  intro F _ h
  cases h
  decide

theorem fence (fm pred succ : BitVec 4) : Statement (.fence fm pred succ) := by
  intro F hw h
  cases h
  have h1 := fm.isLt
  have h2 := pred.isLt
  have h3 := succ.isLt
  have hi := hi12_mkHi 0x0F (fm.toNat * 256 + pred.toNat * 16 + succ.toNat) 0 0 0 (by omega)
  have hh : isHint (mkHi 0x0F (fm.toNat * 256 + pred.toNat * 16 + succ.toNat) 0 0 0) = false := by
    simp only [Instr.wellFormed, Bool.not_eq_true', Bool.and_eq_false_iff, Bool.or_eq_false_iff, beq_eq_false_iff_ne, ne_eq,
      ← BitVec.toNat_inj] at hw
    simp only [isHint, hi]
    simp [mkHi] at hw ⊢
    omega
  rw [decodeFields_miscMem _ rfl hh]
  simp only [decodeMiscMem, hi]
  have e1 : BitVec.ofNat 4 ((fm.toNat * 256 + pred.toNat * 16 + succ.toNat) / 256) = fm := by
    apply BitVec.eq_of_toNat_eq
    simp only [BitVec.toNat_ofNat]
    omega
  have e2 : BitVec.ofNat 4 ((fm.toNat * 256 + pred.toNat * 16 + succ.toNat) / 16) = pred := by
    apply BitVec.eq_of_toNat_eq
    simp only [BitVec.toNat_ofNat]
    omega
  have e3 : BitVec.ofNat 4 (fm.toNat * 256 + pred.toNat * 16 + succ.toNat) = succ := by
    apply BitVec.eq_of_toNat_eq
    simp only [BitVec.toNat_ofNat]
    omega
  rw [e1, e2, e3]
  rfl

theorem fenceI : Statement .fenceI := by
  intro F _ h
  cases h
  decide

theorem sfenceVma (rs1 rs2 : RegIx) : Statement (.sfenceVma rs1 rs2) := by
  intro F _ h
  cases h
  rw [decodeFields_system _ rfl]
  simp only [decodeSystem, f7_mkF7 _ _ _ _ _ _ (show 9 < 128 by decide)]
  simp [mkF7, guardField]

theorem scalarAmo (op : AmoOp) (dbl aq rl : Bool) (rd rs1 rs2 : RegIx) : Statement (.scalarAmo op dbl aq rl rd rs1 rs2) := by
  intro F _ h
  cases h
  rw [decodeFields_amo _ rfl]
  cases op <;> cases dbl <;> cases aq <;> cases rl <;> simp [decodeAmo, amoF3, aqrl, amoOpCode, amoOpOf]

theorem lr (dbl aq rl : Bool) (rd rs1 : RegIx) : Statement (.lr dbl aq rl rd rs1) := by
  intro F _ h
  cases h
  rw [decodeFields_amo _ rfl]
  cases dbl <;> cases aq <;> cases rl <;> simp [decodeAmo, amoF3, aqrl, guardField]

theorem sc (dbl aq rl : Bool) (rd rs1 rs2 : RegIx) : Statement (.sc dbl aq rl rd rs1 rs2) := by
  intro F _ h
  cases h
  rw [decodeFields_amo _ rfl]
  cases dbl <;> cases aq <;> cases rl <;> simp [decodeAmo, amoF3, aqrl, guardField]

theorem csrAccess (op : CsrOp) (imm : Bool) (csr : BitVec 12) (rd src : RegIx) :
    Statement (.csrAccess op imm csr rd src) := by
  intro F _ h
  cases h
  have hi := hi12_mkHi 0x73 csr.toNat src (csrCode op imm) rd csr.isLt
  rw [decodeFields_system _ rfl]
  simp only [decodeSystem, hi]
  cases op <;> cases imm <;> simp [csrCode, mkHi]

theorem hint (w : IWord) : Statement (.hint w) := by
  intro F hw h
  cases h
  exact decodeFields_hint w hw

theorem faultRecordPost (die : Fin 4) : Statement (.faultRecordPost die) := by
  intro F _ h
  cases h

theorem faultReply (reply : Word) : Statement (.faultReply reply) := by
  intro F _ h
  cases h

theorem hostSliceFill (token : Nat) (va : Nat) (level : Fin 5) (pte : Word) : Statement (.hostSliceFill token va level pte) := by
  intro F _ h
  cases h

theorem asyncInterrupt (hart : Nat) : Statement (.asyncInterrupt hart) := by
  intro F _ h
  cases h

theorem watchdogExpiry (hart : Nat) : Statement (.watchdogExpiry hart) := by
  intro F _ h
  cases h

theorem grantChange (seat : Nat) (grant : Nat) : Statement (.grantChange seat grant) := by
  intro F _ h
  cases h

theorem leaveGrant (die : Fin 4) : Statement (.leaveGrant die) := by
  intro F _ h
  cases h

theorem syncObjectGrant (obj : Nat) : Statement (.syncObjectGrant obj) := by
  intro F _ h
  cases h

theorem mwaitWake (hart : Nat) : Statement (.mwaitWake hart) := by
  intro F _ h
  cases h

theorem barrierWaitReturn (hart : Nat) : Statement (.barrierWaitReturn hart) := by
  intro F _ h
  cases h

theorem invalidationComplete (hart : Nat) : Statement (.invalidationComplete hart) := by
  intro F _ h
  cases h

theorem matrixInstructionComplete (core : Nat) : Statement (.matrixInstructionComplete core) := by
  intro F _ h
  cases h

theorem copyStrip (core : Nat) (rec : Nat) : Statement (.copyStrip core rec) := by
  intro F _ h
  cases h

theorem copyCompletion (core : Nat) (rec : Nat) : Statement (.copyCompletion core rec) := by
  intro F _ h
  cases h

theorem eventQueuePost (core : Nat) (rec : Nat) : Statement (.eventQueuePost core rec) := by
  intro F _ h
  cases h

theorem streamStart (core : Nat) (port : Fin 16) : Statement (.streamStart core port) := by
  intro F _ h
  cases h

theorem streamTransfer (core : Nat) (port : Fin 16) : Statement (.streamTransfer core port) := by
  intro F _ h
  cases h

theorem vldsrRefill (core : Nat) : Statement (.vldsrRefill core) := by
  intro F _ h
  cases h

theorem reductionUpdate (core : Nat) : Statement (.reductionUpdate core) := by
  intro F _ h
  cases h

theorem stageFiring (core : Nat) (slot : Fin 4) (node : Nat) : Statement (.stageFiring core slot node) := by
  intro F _ h
  cases h

theorem matrixNodePass (core : Nat) (slot : Fin 4) (node : Nat) : Statement (.matrixNodePass core slot node) := by
  intro F _ h
  cases h

theorem memoryPortFiring (core : Nat) (slot : Fin 4) (node : Nat) : Statement (.memoryPortFiring core slot node) := by
  intro F _ h
  cases h

theorem addressGeneratorFiring (core : Nat) (slot : Fin 4) (node : Nat) : Statement (.addressGeneratorFiring core slot node) := by
  intro F _ h
  cases h

theorem sparseHeaderFiring (core : Nat) (slot : Fin 4) (node : Nat) : Statement (.sparseHeaderFiring core slot node) := by
  intro F _ h
  cases h

theorem filterFiring (core : Nat) (slot : Fin 4) (node : Nat) : Statement (.filterFiring core slot node) := by
  intro F _ h
  cases h

theorem reductionTreeFiring (core : Nat) (slot : Fin 4) (node : Nat) : Statement (.reductionTreeFiring core slot node) := by
  intro F _ h
  cases h

theorem laneLinkTransfer (core : Nat) (slot : Fin 4) (node : Nat) : Statement (.laneLinkTransfer core slot node) := by
  intro F _ h
  cases h

theorem tailConfigAtNode (core : Nat) (slot : Fin 4) (node : Nat) : Statement (.tailConfigAtNode core slot node) := by
  intro F _ h
  cases h

theorem checkpointMarkerAtNode (core : Nat) (slot : Fin 4) (node : Nat) : Statement (.checkpointMarkerAtNode core slot node) := by
  intro F _ h
  cases h

theorem bellAtNode (core : Nat) (slot : Fin 4) (node : Nat) : Statement (.bellAtNode core slot node) := by
  intro F _ h
  cases h

theorem boundStop (core : Nat) (slot : Fin 4) (node : Nat) : Statement (.boundStop core slot node) := by
  intro F _ h
  cases h

theorem chainFaultTimeout (core : Nat) (slot : Fin 4) : Statement (.chainFaultTimeout core slot) := by
  intro F _ h
  cases h

theorem multicastDetach (core : Nat) (slot : Fin 4) (queue : Fin 16) (consumer : Fin 4) : Statement (.multicastDetach core slot queue consumer) := by
  intro F _ h
  cases h

theorem rollCallReport (core : Nat) (slot : Fin 4) : Statement (.rollCallReport core slot) := by
  intro F _ h
  cases h

theorem chainRunEnd (core : Nat) (slot : Fin 4) : Statement (.chainRunEnd core slot) := by
  intro F _ h
  cases h

theorem temporalFiring (core : Nat) (slot : Fin 4) : Statement (.temporalFiring core slot) := by
  intro F _ h
  cases h

theorem bauPiece (bank : Nat) : Statement (.bauPiece bank) := by
  intro F _ h
  cases h

theorem bgaxSumArrival (core : Nat) : Statement (.bgaxSumArrival core) := by
  intro F _ h
  cases h

theorem pklQuery (unit : Fin 12) : Statement (.pklQuery unit) := by
  intro F _ h
  cases h

theorem futureWalkStep (walk : Nat) : Statement (.futureWalkStep walk) := by
  intro F _ h
  cases h

theorem gangEnd (seat : Nat) : Statement (.gangEnd seat) := by
  intro F _ h
  cases h

theorem launchRecordConsume (q : Fin 256) : Statement (.launchRecordConsume q) := by
  intro F _ h
  cases h

theorem bindRecordPublish (seat : Nat) : Statement (.bindRecordPublish seat) := by
  intro F _ h
  cases h

theorem gangStart (seat : Nat) : Statement (.gangStart seat) := by
  intro F _ h
  cases h

theorem preemptRequest (seat : Nat) (ctl : Word) : Statement (.preemptRequest seat ctl) := by
  intro F _ h
  cases h

theorem preemptQuiesced (seat : Nat) : Statement (.preemptQuiesced seat) := by
  intro F _ h
  cases h

theorem schedulingQuantum (seat : Nat) : Statement (.schedulingQuantum seat) := by
  intro F _ h
  cases h

theorem priorityAging (seat : Nat) : Statement (.priorityAging seat) := by
  intro F _ h
  cases h

theorem debugHalt (hart : Nat) : Statement (.debugHalt hart) := by
  intro F _ h
  cases h

theorem debugResume (hart : Nat) : Statement (.debugResume hart) := by
  intro F _ h
  cases h

theorem debugSingleStep (hart : Nat) : Statement (.debugSingleStep hart) := by
  intro F _ h
  cases h

theorem debugAbstractCommand (hart : Nat) (reg : DbgReg) (write : Bool) (value : Word) : Statement (.debugAbstractCommand hart reg write value) := by
  intro F _ h
  cases h

theorem debugProgramBuffer (hart : Nat) (w : IWord) : Statement (.debugProgramBuffer hart w) := by
  intro F _ h
  cases h

theorem correctedError (place : DiePart) : Statement (.correctedError place) := by
  intro F _ h
  cases h

theorem correctedErrorThreshold (place : DiePart) : Statement (.correctedErrorThreshold place) := by
  intro F _ h
  cases h

theorem uncorrectableError (loc : ErrLoc) : Statement (.uncorrectableError loc) := by
  intro F _ h
  cases h

theorem hbmChannelSparing (stack : Fin 12) (channel : Fin 32) : Statement (.hbmChannelSparing stack channel) := by
  intro F _ h
  cases h

theorem mgcHeartbeat (mgc : Nat) : Statement (.mgcHeartbeat mgc) := by
  intro F _ h
  cases h

theorem mgcTakeover (mgc : Nat) : Statement (.mgcTakeover mgc) := by
  intro F _ h
  cases h

theorem thermalGrantLimit (seat : Nat) (grant : Nat) : Statement (.thermalGrantLimit seat grant) := by
  intro F _ h
  cases h

theorem thermalShutdown : Statement (.thermalShutdown) := by
  intro F _ h
  cases h

theorem powerOn (flash : Option (List (Nat × Byte))) : Statement (.powerOn flash) := by
  intro F _ h
  cases h

theorem resetRelease : Statement (.resetRelease) := by
  intro F _ h
  cases h

theorem linkDown : Statement (.linkDown) := by
  intro F _ h
  cases h

theorem peerAck (core : Nat) (rec : Nat) : Statement (.peerAck core rec) := by
  intro F _ h
  cases h

theorem peerConnectionFail (core : Nat) (rec : Nat) : Statement (.peerConnectionFail core rec) := by
  intro F _ h
  cases h

theorem hostMemoryAccess : Statement (.hostMemoryAccess) := by
  intro F _ h
  cases h

theorem dirtyHarvestRead : Statement (.dirtyHarvestRead) := by
  intro F _ h
  cases h

theorem modeWrite : Statement (.modeWrite) := by
  intro F _ h
  cases h

theorem tidinv : Statement (.tidinv) := by
  intro F _ h
  cases h

theorem tidinvDrained : Statement (.tidinvDrained) := by
  intro F _ h
  cases h

theorem retire : Statement (.retire) := by
  intro F _ h
  cases h

theorem extentLayoutWrite : Statement (.extentLayoutWrite) := by
  intro F _ h
  cases h

theorem launchQueueWpWrite : Statement (.launchQueueWpWrite) := by
  intro F _ h
  cases h

theorem launchQueueControl : Statement (.launchQueueControl) := by
  intro F _ h
  cases h

theorem mailboxRingControl : Statement (.mailboxRingControl) := by
  intro F _ h
  cases h

theorem registerWrite : Statement (.registerWrite) := by
  intro F _ h
  cases h

theorem attest : Statement (.attest) := by
  intro F _ h
  cases h

theorem retirecore : Statement (.retirecore) := by
  intro F _ h
  cases h

theorem heartbeat : Statement (.heartbeat) := by
  intro F _ h
  cases h

theorem keygen : Statement (.keygen) := by
  intro F _ h
  cases h

theorem keyerase : Statement (.keyerase) := by
  intro F _ h
  cases h

theorem keyexport : Statement (.keyexport) := by
  intro F _ h
  cases h

theorem keyimport : Statement (.keyimport) := by
  intro F _ h
  cases h

theorem mailboxReservedCode : Statement (.mailboxReservedCode) := by
  intro F _ h
  cases h

theorem mailboxEventPost : Statement (.mailboxEventPost) := by
  intro F _ h
  cases h

theorem getTid : Statement (.getTid) := by
  intro F _ h
  cases h

theorem getPldmVersion : Statement (.getPldmVersion) := by
  intro F _ h
  cases h

theorem getPldmTypes : Statement (.getPldmTypes) := by
  intro F _ h
  cases h

theorem getPldmCommands : Statement (.getPldmCommands) := by
  intro F _ h
  cases h

theorem getPdr : Statement (.getPdr) := by
  intro F _ h
  cases h

theorem getSensorReading : Statement (.getSensorReading) := by
  intro F _ h
  cases h

theorem requestUpdate : Statement (.requestUpdate) := by
  intro F _ h
  cases h

theorem passComponentTable : Statement (.passComponentTable) := by
  intro F _ h
  cases h

theorem updateComponent : Statement (.updateComponent) := by
  intro F _ h
  cases h

theorem requestFirmwareData : Statement (.requestFirmwareData) := by
  intro F _ h
  cases h

theorem transferComplete : Statement (.transferComplete) := by
  intro F _ h
  cases h

theorem verifyComplete : Statement (.verifyComplete) := by
  intro F _ h
  cases h

theorem applyComplete : Statement (.applyComplete) := by
  intro F _ h
  cases h

theorem activateFirmware : Statement (.activateFirmware) := by
  intro F _ h
  cases h

theorem getStatus : Statement (.getStatus) := by
  intro F _ h
  cases h

theorem cancelUpdate : Statement (.cancelUpdate) := by
  intro F _ h
  cases h

theorem pldmOemAttestation : Statement (.pldmOemAttestation) := by
  intro F _ h
  cases h

theorem scalarLoad (k : LoadKind) (rd rs1 : RegIx) (imm : BitVec 12) : Statement (.scalarLoad k rd rs1 imm) := by
  intro F _ h
  cases h
  have hi := hi12_mkHi (loadCode k).1 imm.toNat rs1 (loadCode k).2 rd imm.isLt
  cases k <;> first
    | (rw [decodeFields_load _ rfl]; simp only [decodeLoad, hi]; simp [mkHi, loadCode])
    | (rw [decodeFields_loadFp _ rfl]; simp only [decodeLoad, hi]; simp [mkHi, loadCode])

theorem scalarStore (k : StoreKind) (rs2 rs1 : RegIx) (imm : BitVec 12) : Statement (.scalarStore k rs2 rs1 imm) := by
  intro F _ h
  cases h
  have hl := imm.isLt
  have hf := f7_mkF7 (storeCode k).1 (imm.toNat / 32) rs2 rs1 (storeCode k).2 (Fin.ofNat 32 imm.toNat) (by omega)
  have hv : BitVec.ofNat 12 (imm.toNat / 32 * 32 + (Fin.ofNat 32 imm.toNat).val) = imm := by
    apply BitVec.eq_of_toNat_eq
    simp only [Fin.val_ofNat, BitVec.toNat_ofNat]
    omega
  cases k <;> first
    | (rw [decodeFields_store _ rfl]; simp only [decodeStore, hf]; simp only [mkF7, hv]; rfl)
    | (rw [decodeFields_storeFp _ rfl]; simp only [decodeStore, hf]; simp only [mkF7, hv]; rfl)

theorem baseIsaInstruction (b : BaseInstr) : Statement (.baseIsaInstruction b) := by
  intro F hw h
  cases h
  simp only [Instr.wellFormed, Bool.and_eq_true, Bool.not_eq_true'] at hw
  obtain ⟨hr, hh⟩ := hw
  cases b with
  | lui rd imm =>
    simp only [encodeBase] at hh ⊢
    rw [decodeFields_lui _ rfl hh, hi20_mkHi20 _ _ _ imm.isLt]
    simp [okB, mkHi20, mkHi]
  | auipc rd imm =>
    simp only [encodeBase] at hh ⊢
    rw [decodeFields_auipc _ rfl hh, hi20_mkHi20 _ _ _ imm.isLt]
    simp [okB, mkHi20, mkHi]
  | jal rd imm =>
    have hl := imm.isLt
    simp only [encodeBase]
    rw [decodeFields_jal _ rfl, hi20_mkHi20 _ _ _ (by omega)]
    obtain ⟨h1, h2, h3, h4⟩ := jal_split (imm.toNat / 524288) (imm.toNat / 2048 % 256) (imm.toNat / 1024 % 2)
      (imm.toNat % 1024) (by omega) (by omega) (by omega) (by omega)
    have hv : imm.toNat / 524288 * 524288 + imm.toNat / 2048 % 256 * 2048 + imm.toNat / 1024 % 2 * 1024 + imm.toNat % 1024 =
        imm.toNat := by
      have e1 : imm.toNat / 2048 = imm.toNat / 1024 / 2 := by omega
      have e2 : imm.toNat / 524288 = imm.toNat / 1024 / 2 / 256 := by omega
      rw [e2, e1]
      omega
    have hp : (2 : Nat) ^ 19 = 524288 := by decide
    rw [hp, h1, h2, h3, h4, hv, BitVec.ofNat_toNat, BitVec.setWidth_eq]
    rfl
  | jalr rd rs1 imm =>
    simp only [encodeBase]
    rw [decodeFields_jalr _ rfl, hi12_mkHi _ _ _ _ _ imm.isLt]
    simp [okB, mkHi]
  | branch op rs1 rs2 imm =>
    have hl := imm.isLt
    simp only [encodeBase]
    rw [decodeFields_branch _ rfl, decodeBranch, f7_mkF7 _ _ _ _ _ _ (by omega)]
    obtain ⟨h1, h2, h3, h4⟩ := branch_split (imm.toNat / 2048) (imm.toNat / 16 % 64) (imm.toNat / 1024 % 2) (imm.toNat % 16)
      (by omega) (by omega) (by omega) (by omega)
    have hv : imm.toNat / 2048 * 2048 + imm.toNat / 1024 % 2 * 1024 + imm.toNat / 16 % 64 * 16 + imm.toNat % 16 = imm.toNat := by
      have e1 : imm.toNat / 1024 = imm.toNat / 16 / 64 := by omega
      have e2 : imm.toNat / 2048 = imm.toNat / 16 / 64 / 2 := by omega
      rw [e2, e1]
      omega
    simp only [mkF7, Fin.val_ofNat, h1, h2, h3, h4, hv, BitVec.ofNat_toNat, BitVec.setWidth_eq]
    cases op <;> rfl
  | opImm op rd rs1 imm =>
    simp only [encodeBase] at hh ⊢
    rw [decodeFields_opImm _ rfl hh, decodeOpImm, hi12_mkHi _ _ _ _ _ imm.isLt]
    cases op <;> simp [okB, mkHi, immOpF3]
  | shImm op rd rs1 sh =>
    have hl := sh.isLt
    have hd : sh.toNat / 64 = 0 := by omega
    have e1 : BitVec.ofNat 6 (16 * 64 + sh.toNat) = sh := by
      apply BitVec.eq_of_toNat_eq
      simp only [BitVec.toNat_ofNat]
      omega
    have e2 : BitVec.ofNat 6 (24 * 64 + sh.toNat) = sh := by
      apply BitVec.eq_of_toNat_eq
      simp only [BitVec.toNat_ofNat]
      omega
    have e3 : BitVec.ofNat 6 (2 * 64 + sh.toNat) = sh := by
      apply BitVec.eq_of_toNat_eq
      simp only [BitVec.toNat_ofNat]
      omega
    have d1 : (16 * 64 + sh.toNat) / 64 = 16 := by omega
    have d2 : (24 * 64 + sh.toNat) / 64 = 24 := by omega
    have d3 : (2 * 64 + sh.toNat) / 64 = 2 := by omega
    have d4 : ¬ (2 * 64 + sh.toNat) / 32 = 0 := by omega
    cases op with
    | slli =>
      simp only [encodeBase] at hh ⊢
      rw [decodeFields_opImm _ rfl hh, decodeOpImm, hi12_mkHi _ _ _ _ _ (by omega)]
      simp [okB, mkHi, hd]
    | srli =>
      simp only [encodeBase] at hh ⊢
      rw [decodeFields_opImm _ rfl hh, decodeOpImm, hi12_mkHi _ _ _ _ _ (by omega)]
      simp [okB, mkHi, hd]
    | srai =>
      simp only [encodeBase] at hh ⊢
      rw [decodeFields_opImm _ rfl hh, decodeOpImm, hi12_mkHi _ _ _ _ _ (by omega), e1, d1]
      simp [okB, mkHi]
    | rori =>
      simp only [encodeBase] at hh ⊢
      rw [decodeFields_opImm _ rfl hh, decodeOpImm, hi12_mkHi _ _ _ _ _ (by omega), e2, d2]
      simp [okB, mkHi]
    | slliUw =>
      simp only [encodeBase] at hh ⊢
      rw [decodeFields_opImmW _ rfl hh, decodeOpImmW, hi12_mkHi _ _ _ _ _ (by omega), f7_mkHi _ _ _ _ _ (by omega), e3, d3]
      simp only [mkHi, if_neg d4]
      rfl
  | addiw rd rs1 imm =>
    simp only [encodeBase] at hh ⊢
    rw [decodeFields_opImmW _ rfl hh, decodeOpImmW, hi12_mkHi _ _ _ _ _ imm.isLt]
    simp [okB, mkHi]
  | shImmW op rd rs1 sh =>
    cases op <;> simp only [encodeBase] at hh ⊢ <;> rw [decodeFields_opImmW _ rfl hh, decodeOpImmW, f7_mkF7 _ _ _ _ _ _ (by omega)] <;>
      simp [okB, mkF7]
  | op op rd rs1 rs2 =>
    simp only [encodeBase] at hh ⊢
    rw [decodeFields_op _ rfl hh, f7_mkF7 _ _ _ _ _ _ (by cases op <;> decide)]
    cases op <;> rfl
  | opW op rd rs1 rs2 =>
    simp only [encodeBase] at hh ⊢
    rw [decodeFields_opW _ rfl hh, decodeOpW, f7_mkF7 _ _ _ _ _ _ (by cases op <;> decide)]
    cases op <;> rfl
  | unary op rd rs1 =>
    cases op <;> simp only [encodeBase] at hh ⊢ <;> first
      | (rw [decodeFields_opImm _ rfl hh, decodeOpImm, hi12_mkHi _ _ _ _ _ (by decide)]; simp [okB, mkHi])
      | (rw [decodeFields_opImmW _ rfl hh, decodeOpImmW, hi12_mkHi _ _ _ _ _ (by decide), f7_mkHi _ _ _ _ _ (by decide)]
         simp [okB, mkHi])
      | (rw [decodeFields_opW _ rfl hh, decodeOpW, f7_mkF7 _ _ _ _ _ _ (by decide)]; simp [okB, mkF7, guardField])
  | fma op p rd rs1 rs2 rs3 rm =>
    have hk := rmOk_of rm hr
    cases op <;> cases p <;> simp only [encodeBase] <;> first
      | (rw [decodeFields_madd _ rfl]; simp [decodeFma, precOf, precCode, withCode, guardField, hk, okB])
      | (rw [decodeFields_msub _ rfl]; simp [decodeFma, precOf, precCode, withCode, guardField, hk, okB])
      | (rw [decodeFields_nmsub _ rfl]; simp [decodeFma, precOf, precCode, withCode, guardField, hk, okB])
      | (rw [decodeFields_nmadd _ rfl]; simp [decodeFma, precOf, precCode, withCode, guardField, hk, okB])
  | farith op p rd rs1 rs2 rm =>
    have hk := rmOk_of rm hr
    cases op <;> cases p <;> simp only [encodeBase] <;> rw [decodeFields_opFp _ rfl] <;> simp [decodeOpFp, precOf, precCode, withCode, guardField, hk, okB]
  | fsqrt p rd rs1 rm =>
    have hk := rmOk_of rm hr
    cases p <;> simp only [encodeBase] <;> rw [decodeFields_opFp _ rfl] <;> simp [decodeOpFp, precOf, precCode, withCode, guardField, hk, okB]
  | fmisc op p rd rs1 rs2 =>
    cases op <;> cases p <;> simp only [encodeBase] <;> rw [decodeFields_opFp _ rfl] <;>
      simp [decodeOpFp, precOf, precCode, withCode, okB]
  | fcmp op p rd rs1 rs2 =>
    cases op <;> cases p <;> simp only [encodeBase] <;> rw [decodeFields_opFp _ rfl] <;> simp [decodeOpFp, precOf, precCode, withCode, okB]
  | fclass p rd rs1 =>
    cases p <;> simp only [encodeBase] <;> rw [decodeFields_opFp _ rfl] <;> simp [decodeOpFp, precOf, precCode, withCode, guardField, okB]
  | fcvtToInt t p rd rs1 rm =>
    have hk := rmOk_of rm hr
    cases t <;> cases p <;> simp only [encodeBase] <;> rw [decodeFields_opFp _ rfl] <;> simp [decodeOpFp, precOf, precCode, withCode, guardField, hk, okB, fIntOf, fIntCode]
  | fcvtFromInt t p rd rs1 rm =>
    have hk := rmOk_of rm hr
    cases t <;> cases p <;> simp only [encodeBase] <;> rw [decodeFields_opFp _ rfl] <;> simp [decodeOpFp, precOf, precCode, withCode, guardField, hk, okB, fIntOf, fIntCode]
  | fcvtFF p rd rs1 rm =>
    have hk := rmOk_of rm hr
    cases p <;> simp only [encodeBase] <;> rw [decodeFields_opFp _ rfl] <;> simp [decodeOpFp, precOf, precCode, withCode, guardField, hk, okB]
  | fmvToX p rd rs1 =>
    cases p <;> simp only [encodeBase] <;> rw [decodeFields_opFp _ rfl] <;> simp [decodeOpFp, precOf, precCode, withCode, guardField, okB]
  | fmvFromX p rd rs1 =>
    cases p <;> simp only [encodeBase] <;> rw [decodeFields_opFp _ rfl] <;> simp [decodeOpFp, precOf, precCode, withCode, guardField, okB]
  | ebreak => decide
  | mret => decide
  | sret => decide
  | wfi => decide

theorem illegalInstruction (w : IWord) : Statement (.illegalInstruction w) := by
  intro F _ h
  cases h

theorem hostLinkTraining : Statement (.hostLinkTraining) := by
  intro F _ h
  cases h

theorem laneLinkDown (core : Nat) (slot : Fin 4) : Statement (.laneLinkDown core slot) := by
  intro F _ h
  cases h

theorem hostReadPointerWrite : Statement (.hostReadPointerWrite) := by
  intro F _ h
  cases h

end Sys2Proof.Laws.Encoding
end

