-- ==== Sys2Proof/Laws/State.lean ====
section
/-!
SUPPORT. Laws of the state's updates: what each named update leaves alone, and what is read back after it.
-/
namespace Sys2Proof.Machine

/-! ### Records read back -/

@[simp] theorem hartOf_setHart (s : State) (h : Nat) (r : Hart) : hartOf (setHart s h r) h = r := by simp [hartOf, setHart]
theorem hartOf_setHart_other (s : State) {h k : Nat} (r : Hart) (hk : k ≠ h) : hartOf (setHart s h r) k = hartOf s k := by
  simp [hartOf, setHart, aget_aput_other _ _ _ hk]
@[simp] theorem coreOf_setCore (s : State) (c : Nat) (r : CoreSt) : coreOf (setCore s c r) c = r := by simp [coreOf, setCore]
theorem coreOf_setCore_other (s : State) {c k : Nat} (r : CoreSt) (hk : k ≠ c) : coreOf (setCore s c r) k = coreOf s k := by
  simp [coreOf, setCore, aget_aput_other _ _ _ hk]
@[simp] theorem gangOf_setGang (s : State) (g : Nat) (r : Gang) : gangOf (setGang s g r) g = r := by simp [gangOf, setGang]
@[simp] theorem dieOf_setDie (s : State) (d : Nat) (r : DieSt) : dieOf (setDie s d r) d = r := by simp [dieOf, setDie]

@[simp] theorem setHart_setHart (s : State) (h : Nat) (r q : Hart) : setHart (setHart s h r) h q = setHart s h q := by
  simp [setHart]
@[simp] theorem setCore_setCore (s : State) (c : Nat) (r q : CoreSt) : setCore (setCore s c r) c q = setCore s c q := by
  simp [setCore]
@[simp] theorem setGang_setGang (s : State) (g : Nat) (r q : Gang) : setGang (setGang s g r) g q = setGang s g q := by
  simp [setGang]

@[simp] theorem hartOf_updHart (s : State) (h : Nat) (f : Hart → Hart) : hartOf (updHart s h f) h = f (hartOf s h) := by
  simp [updHart]
theorem hartOf_updHart_other (s : State) {h k : Nat} (f : Hart → Hart) (hk : k ≠ h) :
    hartOf (updHart s h f) k = hartOf s k := by simp [updHart, hartOf_setHart_other _ _ hk]
@[simp] theorem updHart_updHart (s : State) (h : Nat) (f g : Hart → Hart) :
    updHart (updHart s h f) h g = updHart s h fun r => g (f r) := by simp [updHart]
@[simp] theorem coreOf_updCore (s : State) (c : Nat) (f : CoreSt → CoreSt) : coreOf (updCore s c f) c = f (coreOf s c) := by
  simp [updCore]
theorem coreOf_updCore_other (s : State) {c k : Nat} (f : CoreSt → CoreSt) (hk : k ≠ c) :
    coreOf (updCore s c f) k = coreOf s k := by simp [updCore, coreOf_setCore_other _ _ hk]
@[simp] theorem updCore_updCore (s : State) (c : Nat) (f g : CoreSt → CoreSt) :
    updCore (updCore s c f) c g = updCore s c fun r => g (f r) := by simp [updCore]

@[simp] theorem coreOf_setHart (s : State) (h c : Nat) (r : Hart) : coreOf (setHart s h r) c = coreOf s c := rfl
@[simp] theorem coreOf_updHart (s : State) (h c : Nat) (f : Hart → Hart) : coreOf (updHart s h f) c = coreOf s c := rfl
@[simp] theorem hartOf_setCore (s : State) (h c : Nat) (r : CoreSt) : hartOf (setCore s c r) h = hartOf s h := rfl
@[simp] theorem hartOf_updCore (s : State) (h c : Nat) (f : CoreSt → CoreSt) : hartOf (updCore s c f) h = hartOf s h := rfl
@[simp] theorem hartOf_setGang (s : State) (h g : Nat) (r : Gang) : hartOf (setGang s g r) h = hartOf s h := rfl
@[simp] theorem hartOf_updGang (s : State) (h g : Nat) (f : Gang → Gang) : hartOf (updGang s g f) h = hartOf s h := rfl
@[simp] theorem coreOf_setGang (s : State) (c g : Nat) (r : Gang) : coreOf (setGang s g r) c = coreOf s c := rfl
@[simp] theorem coreOf_updGang (s : State) (c g : Nat) (f : Gang → Gang) : coreOf (updGang s g f) c = coreOf s c := rfl
@[simp] theorem hartOf_updIo (s : State) (h : Nat) (f : Io → Io) : hartOf (updIo s f) h = hartOf s h := rfl
@[simp] theorem coreOf_updIo (s : State) (c : Nat) (f : Io → Io) : coreOf (updIo s f) c = coreOf s c := rfl
@[simp] theorem hartOf_updDie (s : State) (h d : Nat) (f : DieSt → DieSt) : hartOf (updDie s d f) h = hartOf s h := rfl
@[simp] theorem coreOf_updDie (s : State) (c d : Nat) (f : DieSt → DieSt) : coreOf (updDie s d f) c = coreOf s c := rfl

/-! ### The current hart -/

@[simp] theorem me_setMe (s : State) (r : Hart) : me (setMe s r) = r := by simp [me, setMe, setHart, hartOf]
@[simp] theorem me_updMe (s : State) (f : Hart → Hart) : me (updMe s f) = f (me s) := by
  simp [me, updMe, updHart, setHart, hartOf]
@[simp] theorem setMe_setMe (s : State) (r q : Hart) : setMe (setMe s r) q = setMe s q := by simp [setMe, setHart]
@[simp] theorem updMe_setMe (s : State) (r : Hart) (f : Hart → Hart) : updMe (setMe s r) f = setMe s (f r) := by
  simp [setMe, updMe, updHart, setHart, hartOf]
@[simp] theorem updMe_updMe (s : State) (f g : Hart → Hart) : updMe (updMe s f) g = updMe s fun h => g (f h) := by
  simp [updMe, updHart, setHart, hartOf]
theorem updMe_eq_setMe (s : State) (f : Hart → Hart) : updMe s f = setMe s (f (me s)) := rfl
@[simp] theorem me_updCore (s : State) (c : Nat) (f : CoreSt → CoreSt) : me (updCore s c f) = me s := rfl
@[simp] theorem me_updGang (s : State) (g : Nat) (f : Gang → Gang) : me (updGang s g f) = me s := rfl
@[simp] theorem me_updIo (s : State) (f : Io → Io) : me (updIo s f) = me s := rfl
@[simp] theorem rdX_updCore (s : State) (c : Nat) (f : CoreSt → CoreSt) (r : RegIx) : rdX (updCore s c f) r = rdX s r := rfl
@[simp] theorem myCore_setMe (s : State) (r : Hart) : myCore (setMe s r) = myCore s := rfl
@[simp] theorem myCore_updMe (s : State) (f : Hart → Hart) : myCore (updMe s f) = myCore s := rfl
@[simp] theorem mySlot_updMe (s : State) (f : Hart → Hart) : mySlot (updMe s f) = mySlot s := rfl
@[simp] theorem coreOf_setMe (s : State) (r : Hart) (c : Nat) : coreOf (setMe s r) c = coreOf s c := rfl
@[simp] theorem coreOf_updMe (s : State) (f : Hart → Hart) (c : Nat) : coreOf (updMe s f) c = coreOf s c := rfl

/-! ### Fields that an update of the state leaves alone -/

@[simp] theorem setHart_cores (s : State) (h : Nat) (r : Hart) : (setHart s h r).cores = s.cores := rfl
@[simp] theorem setHart_gangs (s : State) (h : Nat) (r : Hart) : (setHart s h r).gangs = s.gangs := rfl
@[simp] theorem setHart_dies (s : State) (h : Nat) (r : Hart) : (setHart s h r).dies = s.dies := rfl
@[simp] theorem setHart_mem (s : State) (h : Nat) (r : Hart) : (setHart s h r).mem = s.mem := rfl
@[simp] theorem setHart_lineKey (s : State) (h : Nat) (r : Hart) : (setHart s h r).lineKey = s.lineKey := rfl
@[simp] theorem setHart_unspec (s : State) (h : Nat) (r : Hart) : (setHart s h r).unspec = s.unspec := rfl
@[simp] theorem setHart_poison (s : State) (h : Nat) (r : Hart) : (setHart s h r).poison = s.poison := rfl
@[simp] theorem setHart_binds (s : State) (h : Nat) (r : Hart) : (setHart s h r).binds = s.binds := rfl
@[simp] theorem setHart_seatStat (s : State) (h : Nat) (r : Hart) : (setHart s h r).seatStat = s.seatStat := rfl
@[simp] theorem setHart_waitUs (s : State) (h : Nat) (r : Hart) : (setHart s h r).waitUs = s.waitUs := rfl
@[simp] theorem setHart_faults (s : State) (h : Nat) (r : Hart) : (setHart s h r).faults = s.faults := rfl
@[simp] theorem setHart_fwQueue (s : State) (h : Nat) (r : Hart) : (setHart s h r).fwQueue = s.fwQueue := rfl
@[simp] theorem setHart_walks (s : State) (h : Nat) (r : Hart) : (setHart s h r).walks = s.walks := rfl
@[simp] theorem setHart_banks (s : State) (h : Nat) (r : Hart) : (setHart s h r).banks = s.banks := rfl
@[simp] theorem setHart_cmds (s : State) (h : Nat) (r : Hart) : (setHart s h r).cmds = s.cmds := rfl
@[simp] theorem setHart_bankErr (s : State) (h : Nat) (r : Hart) : (setHart s h r).bankErr = s.bankErr := rfl
@[simp] theorem setHart_pkl (s : State) (h : Nat) (r : Hart) : (setHart s h r).pkl = s.pkl := rfl
@[simp] theorem setHart_acqs (s : State) (h : Nat) (r : Hart) : (setHart s h r).acqs = s.acqs := rfl
@[simp] theorem setHart_io (s : State) (h : Nat) (r : Hart) : (setHart s h r).io = s.io := rfl
@[simp] theorem setHart_us (s : State) (h : Nat) (r : Hart) : (setHart s h r).us = s.us := rfl
@[simp] theorem setHart_agenda (s : State) (h : Nat) (r : Hart) : (setHart s h r).agenda = s.agenda := rfl
@[simp] theorem setHart_cur (s : State) (h : Nat) (r : Hart) : (setHart s h r).cur = s.cur := rfl
@[simp] theorem setHart_elemLimit (s : State) (h : Nat) (r : Hart) : (setHart s h r).elemLimit = s.elemLimit := rfl
@[simp] theorem setHart_ctr (s : State) (h : Nat) (r : Hart) : (setHart s h r).ctr = s.ctr := rfl
@[simp] theorem setHart_rr (s : State) (h : Nat) (r : Hart) : (setHart s h r).rr = s.rr := rfl
@[simp] theorem setCore_harts (s : State) (c : Nat) (r : CoreSt) : (setCore s c r).harts = s.harts := rfl
@[simp] theorem setCore_gangs (s : State) (c : Nat) (r : CoreSt) : (setCore s c r).gangs = s.gangs := rfl
@[simp] theorem setCore_dies (s : State) (c : Nat) (r : CoreSt) : (setCore s c r).dies = s.dies := rfl
@[simp] theorem setCore_mem (s : State) (c : Nat) (r : CoreSt) : (setCore s c r).mem = s.mem := rfl
@[simp] theorem setCore_lineKey (s : State) (c : Nat) (r : CoreSt) : (setCore s c r).lineKey = s.lineKey := rfl
@[simp] theorem setCore_unspec (s : State) (c : Nat) (r : CoreSt) : (setCore s c r).unspec = s.unspec := rfl
@[simp] theorem setCore_poison (s : State) (c : Nat) (r : CoreSt) : (setCore s c r).poison = s.poison := rfl
@[simp] theorem setCore_binds (s : State) (c : Nat) (r : CoreSt) : (setCore s c r).binds = s.binds := rfl
@[simp] theorem setCore_seatStat (s : State) (c : Nat) (r : CoreSt) : (setCore s c r).seatStat = s.seatStat := rfl
@[simp] theorem setCore_waitUs (s : State) (c : Nat) (r : CoreSt) : (setCore s c r).waitUs = s.waitUs := rfl
@[simp] theorem setCore_faults (s : State) (c : Nat) (r : CoreSt) : (setCore s c r).faults = s.faults := rfl
@[simp] theorem setCore_fwQueue (s : State) (c : Nat) (r : CoreSt) : (setCore s c r).fwQueue = s.fwQueue := rfl
@[simp] theorem setCore_walks (s : State) (c : Nat) (r : CoreSt) : (setCore s c r).walks = s.walks := rfl
@[simp] theorem setCore_banks (s : State) (c : Nat) (r : CoreSt) : (setCore s c r).banks = s.banks := rfl
@[simp] theorem setCore_cmds (s : State) (c : Nat) (r : CoreSt) : (setCore s c r).cmds = s.cmds := rfl
@[simp] theorem setCore_bankErr (s : State) (c : Nat) (r : CoreSt) : (setCore s c r).bankErr = s.bankErr := rfl
@[simp] theorem setCore_pkl (s : State) (c : Nat) (r : CoreSt) : (setCore s c r).pkl = s.pkl := rfl
@[simp] theorem setCore_acqs (s : State) (c : Nat) (r : CoreSt) : (setCore s c r).acqs = s.acqs := rfl
@[simp] theorem setCore_io (s : State) (c : Nat) (r : CoreSt) : (setCore s c r).io = s.io := rfl
@[simp] theorem setCore_us (s : State) (c : Nat) (r : CoreSt) : (setCore s c r).us = s.us := rfl
@[simp] theorem setCore_agenda (s : State) (c : Nat) (r : CoreSt) : (setCore s c r).agenda = s.agenda := rfl
@[simp] theorem setCore_cur (s : State) (c : Nat) (r : CoreSt) : (setCore s c r).cur = s.cur := rfl
@[simp] theorem setCore_elemLimit (s : State) (c : Nat) (r : CoreSt) : (setCore s c r).elemLimit = s.elemLimit := rfl
@[simp] theorem setCore_ctr (s : State) (c : Nat) (r : CoreSt) : (setCore s c r).ctr = s.ctr := rfl
@[simp] theorem setCore_rr (s : State) (c : Nat) (r : CoreSt) : (setCore s c r).rr = s.rr := rfl
@[simp] theorem setGang_harts (s : State) (g : Nat) (r : Gang) : (setGang s g r).harts = s.harts := rfl
@[simp] theorem setGang_cores (s : State) (g : Nat) (r : Gang) : (setGang s g r).cores = s.cores := rfl
@[simp] theorem setGang_dies (s : State) (g : Nat) (r : Gang) : (setGang s g r).dies = s.dies := rfl
@[simp] theorem setGang_mem (s : State) (g : Nat) (r : Gang) : (setGang s g r).mem = s.mem := rfl
@[simp] theorem setGang_lineKey (s : State) (g : Nat) (r : Gang) : (setGang s g r).lineKey = s.lineKey := rfl
@[simp] theorem setGang_unspec (s : State) (g : Nat) (r : Gang) : (setGang s g r).unspec = s.unspec := rfl
@[simp] theorem setGang_poison (s : State) (g : Nat) (r : Gang) : (setGang s g r).poison = s.poison := rfl
@[simp] theorem setGang_binds (s : State) (g : Nat) (r : Gang) : (setGang s g r).binds = s.binds := rfl
@[simp] theorem setGang_seatStat (s : State) (g : Nat) (r : Gang) : (setGang s g r).seatStat = s.seatStat := rfl
@[simp] theorem setGang_waitUs (s : State) (g : Nat) (r : Gang) : (setGang s g r).waitUs = s.waitUs := rfl
@[simp] theorem setGang_faults (s : State) (g : Nat) (r : Gang) : (setGang s g r).faults = s.faults := rfl
@[simp] theorem setGang_fwQueue (s : State) (g : Nat) (r : Gang) : (setGang s g r).fwQueue = s.fwQueue := rfl
@[simp] theorem setGang_walks (s : State) (g : Nat) (r : Gang) : (setGang s g r).walks = s.walks := rfl
@[simp] theorem setGang_banks (s : State) (g : Nat) (r : Gang) : (setGang s g r).banks = s.banks := rfl
@[simp] theorem setGang_cmds (s : State) (g : Nat) (r : Gang) : (setGang s g r).cmds = s.cmds := rfl
@[simp] theorem setGang_bankErr (s : State) (g : Nat) (r : Gang) : (setGang s g r).bankErr = s.bankErr := rfl
@[simp] theorem setGang_pkl (s : State) (g : Nat) (r : Gang) : (setGang s g r).pkl = s.pkl := rfl
@[simp] theorem setGang_acqs (s : State) (g : Nat) (r : Gang) : (setGang s g r).acqs = s.acqs := rfl
@[simp] theorem setGang_io (s : State) (g : Nat) (r : Gang) : (setGang s g r).io = s.io := rfl
@[simp] theorem setGang_us (s : State) (g : Nat) (r : Gang) : (setGang s g r).us = s.us := rfl
@[simp] theorem setGang_agenda (s : State) (g : Nat) (r : Gang) : (setGang s g r).agenda = s.agenda := rfl
@[simp] theorem setGang_cur (s : State) (g : Nat) (r : Gang) : (setGang s g r).cur = s.cur := rfl
@[simp] theorem setGang_elemLimit (s : State) (g : Nat) (r : Gang) : (setGang s g r).elemLimit = s.elemLimit := rfl
@[simp] theorem setGang_ctr (s : State) (g : Nat) (r : Gang) : (setGang s g r).ctr = s.ctr := rfl
@[simp] theorem setGang_rr (s : State) (g : Nat) (r : Gang) : (setGang s g r).rr = s.rr := rfl
@[simp] theorem setDie_harts (s : State) (d : Nat) (r : DieSt) : (setDie s d r).harts = s.harts := rfl
@[simp] theorem setDie_cores (s : State) (d : Nat) (r : DieSt) : (setDie s d r).cores = s.cores := rfl
@[simp] theorem setDie_gangs (s : State) (d : Nat) (r : DieSt) : (setDie s d r).gangs = s.gangs := rfl
@[simp] theorem setDie_mem (s : State) (d : Nat) (r : DieSt) : (setDie s d r).mem = s.mem := rfl
@[simp] theorem setDie_lineKey (s : State) (d : Nat) (r : DieSt) : (setDie s d r).lineKey = s.lineKey := rfl
@[simp] theorem setDie_unspec (s : State) (d : Nat) (r : DieSt) : (setDie s d r).unspec = s.unspec := rfl
@[simp] theorem setDie_poison (s : State) (d : Nat) (r : DieSt) : (setDie s d r).poison = s.poison := rfl
@[simp] theorem setDie_binds (s : State) (d : Nat) (r : DieSt) : (setDie s d r).binds = s.binds := rfl
@[simp] theorem setDie_seatStat (s : State) (d : Nat) (r : DieSt) : (setDie s d r).seatStat = s.seatStat := rfl
@[simp] theorem setDie_waitUs (s : State) (d : Nat) (r : DieSt) : (setDie s d r).waitUs = s.waitUs := rfl
@[simp] theorem setDie_faults (s : State) (d : Nat) (r : DieSt) : (setDie s d r).faults = s.faults := rfl
@[simp] theorem setDie_fwQueue (s : State) (d : Nat) (r : DieSt) : (setDie s d r).fwQueue = s.fwQueue := rfl
@[simp] theorem setDie_walks (s : State) (d : Nat) (r : DieSt) : (setDie s d r).walks = s.walks := rfl
@[simp] theorem setDie_banks (s : State) (d : Nat) (r : DieSt) : (setDie s d r).banks = s.banks := rfl
@[simp] theorem setDie_cmds (s : State) (d : Nat) (r : DieSt) : (setDie s d r).cmds = s.cmds := rfl
@[simp] theorem setDie_bankErr (s : State) (d : Nat) (r : DieSt) : (setDie s d r).bankErr = s.bankErr := rfl
@[simp] theorem setDie_pkl (s : State) (d : Nat) (r : DieSt) : (setDie s d r).pkl = s.pkl := rfl
@[simp] theorem setDie_acqs (s : State) (d : Nat) (r : DieSt) : (setDie s d r).acqs = s.acqs := rfl
@[simp] theorem setDie_io (s : State) (d : Nat) (r : DieSt) : (setDie s d r).io = s.io := rfl
@[simp] theorem setDie_us (s : State) (d : Nat) (r : DieSt) : (setDie s d r).us = s.us := rfl
@[simp] theorem setDie_agenda (s : State) (d : Nat) (r : DieSt) : (setDie s d r).agenda = s.agenda := rfl
@[simp] theorem setDie_cur (s : State) (d : Nat) (r : DieSt) : (setDie s d r).cur = s.cur := rfl
@[simp] theorem setDie_elemLimit (s : State) (d : Nat) (r : DieSt) : (setDie s d r).elemLimit = s.elemLimit := rfl
@[simp] theorem setDie_ctr (s : State) (d : Nat) (r : DieSt) : (setDie s d r).ctr = s.ctr := rfl
@[simp] theorem setDie_rr (s : State) (d : Nat) (r : DieSt) : (setDie s d r).rr = s.rr := rfl
@[simp] theorem setMe_cores (s : State) (r : Hart) : (setMe s r).cores = s.cores := rfl
@[simp] theorem setMe_gangs (s : State) (r : Hart) : (setMe s r).gangs = s.gangs := rfl
@[simp] theorem setMe_dies (s : State) (r : Hart) : (setMe s r).dies = s.dies := rfl
@[simp] theorem setMe_mem (s : State) (r : Hart) : (setMe s r).mem = s.mem := rfl
@[simp] theorem setMe_lineKey (s : State) (r : Hart) : (setMe s r).lineKey = s.lineKey := rfl
@[simp] theorem setMe_unspec (s : State) (r : Hart) : (setMe s r).unspec = s.unspec := rfl
@[simp] theorem setMe_poison (s : State) (r : Hart) : (setMe s r).poison = s.poison := rfl
@[simp] theorem setMe_binds (s : State) (r : Hart) : (setMe s r).binds = s.binds := rfl
@[simp] theorem setMe_seatStat (s : State) (r : Hart) : (setMe s r).seatStat = s.seatStat := rfl
@[simp] theorem setMe_waitUs (s : State) (r : Hart) : (setMe s r).waitUs = s.waitUs := rfl
@[simp] theorem setMe_faults (s : State) (r : Hart) : (setMe s r).faults = s.faults := rfl
@[simp] theorem setMe_fwQueue (s : State) (r : Hart) : (setMe s r).fwQueue = s.fwQueue := rfl
@[simp] theorem setMe_walks (s : State) (r : Hart) : (setMe s r).walks = s.walks := rfl
@[simp] theorem setMe_banks (s : State) (r : Hart) : (setMe s r).banks = s.banks := rfl
@[simp] theorem setMe_cmds (s : State) (r : Hart) : (setMe s r).cmds = s.cmds := rfl
@[simp] theorem setMe_bankErr (s : State) (r : Hart) : (setMe s r).bankErr = s.bankErr := rfl
@[simp] theorem setMe_pkl (s : State) (r : Hart) : (setMe s r).pkl = s.pkl := rfl
@[simp] theorem setMe_acqs (s : State) (r : Hart) : (setMe s r).acqs = s.acqs := rfl
@[simp] theorem setMe_io (s : State) (r : Hart) : (setMe s r).io = s.io := rfl
@[simp] theorem setMe_us (s : State) (r : Hart) : (setMe s r).us = s.us := rfl
@[simp] theorem setMe_agenda (s : State) (r : Hart) : (setMe s r).agenda = s.agenda := rfl
@[simp] theorem setMe_cur (s : State) (r : Hart) : (setMe s r).cur = s.cur := rfl
@[simp] theorem setMe_elemLimit (s : State) (r : Hart) : (setMe s r).elemLimit = s.elemLimit := rfl
@[simp] theorem setMe_ctr (s : State) (r : Hart) : (setMe s r).ctr = s.ctr := rfl
@[simp] theorem setMe_rr (s : State) (r : Hart) : (setMe s r).rr = s.rr := rfl
@[simp] theorem updHart_cores (s : State) (h : Nat) (f : Hart → Hart) : (updHart s h f).cores = s.cores := rfl
@[simp] theorem updHart_gangs (s : State) (h : Nat) (f : Hart → Hart) : (updHart s h f).gangs = s.gangs := rfl
@[simp] theorem updHart_dies (s : State) (h : Nat) (f : Hart → Hart) : (updHart s h f).dies = s.dies := rfl
@[simp] theorem updHart_mem (s : State) (h : Nat) (f : Hart → Hart) : (updHart s h f).mem = s.mem := rfl
@[simp] theorem updHart_lineKey (s : State) (h : Nat) (f : Hart → Hart) : (updHart s h f).lineKey = s.lineKey := rfl
@[simp] theorem updHart_unspec (s : State) (h : Nat) (f : Hart → Hart) : (updHart s h f).unspec = s.unspec := rfl
@[simp] theorem updHart_poison (s : State) (h : Nat) (f : Hart → Hart) : (updHart s h f).poison = s.poison := rfl
@[simp] theorem updHart_binds (s : State) (h : Nat) (f : Hart → Hart) : (updHart s h f).binds = s.binds := rfl
@[simp] theorem updHart_seatStat (s : State) (h : Nat) (f : Hart → Hart) : (updHart s h f).seatStat = s.seatStat := rfl
@[simp] theorem updHart_waitUs (s : State) (h : Nat) (f : Hart → Hart) : (updHart s h f).waitUs = s.waitUs := rfl
@[simp] theorem updHart_faults (s : State) (h : Nat) (f : Hart → Hart) : (updHart s h f).faults = s.faults := rfl
@[simp] theorem updHart_fwQueue (s : State) (h : Nat) (f : Hart → Hart) : (updHart s h f).fwQueue = s.fwQueue := rfl
@[simp] theorem updHart_walks (s : State) (h : Nat) (f : Hart → Hart) : (updHart s h f).walks = s.walks := rfl
@[simp] theorem updHart_banks (s : State) (h : Nat) (f : Hart → Hart) : (updHart s h f).banks = s.banks := rfl
@[simp] theorem updHart_cmds (s : State) (h : Nat) (f : Hart → Hart) : (updHart s h f).cmds = s.cmds := rfl
@[simp] theorem updHart_bankErr (s : State) (h : Nat) (f : Hart → Hart) : (updHart s h f).bankErr = s.bankErr := rfl
@[simp] theorem updHart_pkl (s : State) (h : Nat) (f : Hart → Hart) : (updHart s h f).pkl = s.pkl := rfl
@[simp] theorem updHart_acqs (s : State) (h : Nat) (f : Hart → Hart) : (updHart s h f).acqs = s.acqs := rfl
@[simp] theorem updHart_io (s : State) (h : Nat) (f : Hart → Hart) : (updHart s h f).io = s.io := rfl
@[simp] theorem updHart_us (s : State) (h : Nat) (f : Hart → Hart) : (updHart s h f).us = s.us := rfl
@[simp] theorem updHart_agenda (s : State) (h : Nat) (f : Hart → Hart) : (updHart s h f).agenda = s.agenda := rfl
@[simp] theorem updHart_cur (s : State) (h : Nat) (f : Hart → Hart) : (updHart s h f).cur = s.cur := rfl
@[simp] theorem updHart_elemLimit (s : State) (h : Nat) (f : Hart → Hart) : (updHart s h f).elemLimit = s.elemLimit := rfl
@[simp] theorem updHart_ctr (s : State) (h : Nat) (f : Hart → Hart) : (updHart s h f).ctr = s.ctr := rfl
@[simp] theorem updHart_rr (s : State) (h : Nat) (f : Hart → Hart) : (updHart s h f).rr = s.rr := rfl
@[simp] theorem updMe_cores (s : State) (f : Hart → Hart) : (updMe s f).cores = s.cores := rfl
@[simp] theorem updMe_gangs (s : State) (f : Hart → Hart) : (updMe s f).gangs = s.gangs := rfl
@[simp] theorem updMe_dies (s : State) (f : Hart → Hart) : (updMe s f).dies = s.dies := rfl
@[simp] theorem updMe_mem (s : State) (f : Hart → Hart) : (updMe s f).mem = s.mem := rfl
@[simp] theorem updMe_lineKey (s : State) (f : Hart → Hart) : (updMe s f).lineKey = s.lineKey := rfl
@[simp] theorem updMe_unspec (s : State) (f : Hart → Hart) : (updMe s f).unspec = s.unspec := rfl
@[simp] theorem updMe_poison (s : State) (f : Hart → Hart) : (updMe s f).poison = s.poison := rfl
@[simp] theorem updMe_binds (s : State) (f : Hart → Hart) : (updMe s f).binds = s.binds := rfl
@[simp] theorem updMe_seatStat (s : State) (f : Hart → Hart) : (updMe s f).seatStat = s.seatStat := rfl
@[simp] theorem updMe_waitUs (s : State) (f : Hart → Hart) : (updMe s f).waitUs = s.waitUs := rfl
@[simp] theorem updMe_faults (s : State) (f : Hart → Hart) : (updMe s f).faults = s.faults := rfl
@[simp] theorem updMe_fwQueue (s : State) (f : Hart → Hart) : (updMe s f).fwQueue = s.fwQueue := rfl
@[simp] theorem updMe_walks (s : State) (f : Hart → Hart) : (updMe s f).walks = s.walks := rfl
@[simp] theorem updMe_banks (s : State) (f : Hart → Hart) : (updMe s f).banks = s.banks := rfl
@[simp] theorem updMe_cmds (s : State) (f : Hart → Hart) : (updMe s f).cmds = s.cmds := rfl
@[simp] theorem updMe_bankErr (s : State) (f : Hart → Hart) : (updMe s f).bankErr = s.bankErr := rfl
@[simp] theorem updMe_pkl (s : State) (f : Hart → Hart) : (updMe s f).pkl = s.pkl := rfl
@[simp] theorem updMe_acqs (s : State) (f : Hart → Hart) : (updMe s f).acqs = s.acqs := rfl
@[simp] theorem updMe_io (s : State) (f : Hart → Hart) : (updMe s f).io = s.io := rfl
@[simp] theorem updMe_us (s : State) (f : Hart → Hart) : (updMe s f).us = s.us := rfl
@[simp] theorem updMe_agenda (s : State) (f : Hart → Hart) : (updMe s f).agenda = s.agenda := rfl
@[simp] theorem updMe_cur (s : State) (f : Hart → Hart) : (updMe s f).cur = s.cur := rfl
@[simp] theorem updMe_elemLimit (s : State) (f : Hart → Hart) : (updMe s f).elemLimit = s.elemLimit := rfl
@[simp] theorem updMe_ctr (s : State) (f : Hart → Hart) : (updMe s f).ctr = s.ctr := rfl
@[simp] theorem updMe_rr (s : State) (f : Hart → Hart) : (updMe s f).rr = s.rr := rfl
@[simp] theorem updCore_harts (s : State) (c : Nat) (f : CoreSt → CoreSt) : (updCore s c f).harts = s.harts := rfl
@[simp] theorem updCore_gangs (s : State) (c : Nat) (f : CoreSt → CoreSt) : (updCore s c f).gangs = s.gangs := rfl
@[simp] theorem updCore_dies (s : State) (c : Nat) (f : CoreSt → CoreSt) : (updCore s c f).dies = s.dies := rfl
@[simp] theorem updCore_mem (s : State) (c : Nat) (f : CoreSt → CoreSt) : (updCore s c f).mem = s.mem := rfl
@[simp] theorem updCore_lineKey (s : State) (c : Nat) (f : CoreSt → CoreSt) : (updCore s c f).lineKey = s.lineKey := rfl
@[simp] theorem updCore_unspec (s : State) (c : Nat) (f : CoreSt → CoreSt) : (updCore s c f).unspec = s.unspec := rfl
@[simp] theorem updCore_poison (s : State) (c : Nat) (f : CoreSt → CoreSt) : (updCore s c f).poison = s.poison := rfl
@[simp] theorem updCore_binds (s : State) (c : Nat) (f : CoreSt → CoreSt) : (updCore s c f).binds = s.binds := rfl
@[simp] theorem updCore_seatStat (s : State) (c : Nat) (f : CoreSt → CoreSt) : (updCore s c f).seatStat = s.seatStat := rfl
@[simp] theorem updCore_waitUs (s : State) (c : Nat) (f : CoreSt → CoreSt) : (updCore s c f).waitUs = s.waitUs := rfl
@[simp] theorem updCore_faults (s : State) (c : Nat) (f : CoreSt → CoreSt) : (updCore s c f).faults = s.faults := rfl
@[simp] theorem updCore_fwQueue (s : State) (c : Nat) (f : CoreSt → CoreSt) : (updCore s c f).fwQueue = s.fwQueue := rfl
@[simp] theorem updCore_walks (s : State) (c : Nat) (f : CoreSt → CoreSt) : (updCore s c f).walks = s.walks := rfl
@[simp] theorem updCore_banks (s : State) (c : Nat) (f : CoreSt → CoreSt) : (updCore s c f).banks = s.banks := rfl
@[simp] theorem updCore_cmds (s : State) (c : Nat) (f : CoreSt → CoreSt) : (updCore s c f).cmds = s.cmds := rfl
@[simp] theorem updCore_bankErr (s : State) (c : Nat) (f : CoreSt → CoreSt) : (updCore s c f).bankErr = s.bankErr := rfl
@[simp] theorem updCore_pkl (s : State) (c : Nat) (f : CoreSt → CoreSt) : (updCore s c f).pkl = s.pkl := rfl
@[simp] theorem updCore_acqs (s : State) (c : Nat) (f : CoreSt → CoreSt) : (updCore s c f).acqs = s.acqs := rfl
@[simp] theorem updCore_io (s : State) (c : Nat) (f : CoreSt → CoreSt) : (updCore s c f).io = s.io := rfl
@[simp] theorem updCore_us (s : State) (c : Nat) (f : CoreSt → CoreSt) : (updCore s c f).us = s.us := rfl
@[simp] theorem updCore_agenda (s : State) (c : Nat) (f : CoreSt → CoreSt) : (updCore s c f).agenda = s.agenda := rfl
@[simp] theorem updCore_cur (s : State) (c : Nat) (f : CoreSt → CoreSt) : (updCore s c f).cur = s.cur := rfl
@[simp] theorem updCore_elemLimit (s : State) (c : Nat) (f : CoreSt → CoreSt) : (updCore s c f).elemLimit = s.elemLimit := rfl
@[simp] theorem updCore_ctr (s : State) (c : Nat) (f : CoreSt → CoreSt) : (updCore s c f).ctr = s.ctr := rfl
@[simp] theorem updCore_rr (s : State) (c : Nat) (f : CoreSt → CoreSt) : (updCore s c f).rr = s.rr := rfl
@[simp] theorem updGang_harts (s : State) (g : Nat) (f : Gang → Gang) : (updGang s g f).harts = s.harts := rfl
@[simp] theorem updGang_cores (s : State) (g : Nat) (f : Gang → Gang) : (updGang s g f).cores = s.cores := rfl
@[simp] theorem updGang_dies (s : State) (g : Nat) (f : Gang → Gang) : (updGang s g f).dies = s.dies := rfl
@[simp] theorem updGang_mem (s : State) (g : Nat) (f : Gang → Gang) : (updGang s g f).mem = s.mem := rfl
@[simp] theorem updGang_lineKey (s : State) (g : Nat) (f : Gang → Gang) : (updGang s g f).lineKey = s.lineKey := rfl
@[simp] theorem updGang_unspec (s : State) (g : Nat) (f : Gang → Gang) : (updGang s g f).unspec = s.unspec := rfl
@[simp] theorem updGang_poison (s : State) (g : Nat) (f : Gang → Gang) : (updGang s g f).poison = s.poison := rfl
@[simp] theorem updGang_binds (s : State) (g : Nat) (f : Gang → Gang) : (updGang s g f).binds = s.binds := rfl
@[simp] theorem updGang_seatStat (s : State) (g : Nat) (f : Gang → Gang) : (updGang s g f).seatStat = s.seatStat := rfl
@[simp] theorem updGang_waitUs (s : State) (g : Nat) (f : Gang → Gang) : (updGang s g f).waitUs = s.waitUs := rfl
@[simp] theorem updGang_faults (s : State) (g : Nat) (f : Gang → Gang) : (updGang s g f).faults = s.faults := rfl
@[simp] theorem updGang_fwQueue (s : State) (g : Nat) (f : Gang → Gang) : (updGang s g f).fwQueue = s.fwQueue := rfl
@[simp] theorem updGang_walks (s : State) (g : Nat) (f : Gang → Gang) : (updGang s g f).walks = s.walks := rfl
@[simp] theorem updGang_banks (s : State) (g : Nat) (f : Gang → Gang) : (updGang s g f).banks = s.banks := rfl
@[simp] theorem updGang_cmds (s : State) (g : Nat) (f : Gang → Gang) : (updGang s g f).cmds = s.cmds := rfl
@[simp] theorem updGang_bankErr (s : State) (g : Nat) (f : Gang → Gang) : (updGang s g f).bankErr = s.bankErr := rfl
@[simp] theorem updGang_pkl (s : State) (g : Nat) (f : Gang → Gang) : (updGang s g f).pkl = s.pkl := rfl
@[simp] theorem updGang_acqs (s : State) (g : Nat) (f : Gang → Gang) : (updGang s g f).acqs = s.acqs := rfl
@[simp] theorem updGang_io (s : State) (g : Nat) (f : Gang → Gang) : (updGang s g f).io = s.io := rfl
@[simp] theorem updGang_us (s : State) (g : Nat) (f : Gang → Gang) : (updGang s g f).us = s.us := rfl
@[simp] theorem updGang_agenda (s : State) (g : Nat) (f : Gang → Gang) : (updGang s g f).agenda = s.agenda := rfl
@[simp] theorem updGang_cur (s : State) (g : Nat) (f : Gang → Gang) : (updGang s g f).cur = s.cur := rfl
@[simp] theorem updGang_elemLimit (s : State) (g : Nat) (f : Gang → Gang) : (updGang s g f).elemLimit = s.elemLimit := rfl
@[simp] theorem updGang_ctr (s : State) (g : Nat) (f : Gang → Gang) : (updGang s g f).ctr = s.ctr := rfl
@[simp] theorem updGang_rr (s : State) (g : Nat) (f : Gang → Gang) : (updGang s g f).rr = s.rr := rfl
@[simp] theorem updDie_harts (s : State) (d : Nat) (f : DieSt → DieSt) : (updDie s d f).harts = s.harts := rfl
@[simp] theorem updDie_cores (s : State) (d : Nat) (f : DieSt → DieSt) : (updDie s d f).cores = s.cores := rfl
@[simp] theorem updDie_gangs (s : State) (d : Nat) (f : DieSt → DieSt) : (updDie s d f).gangs = s.gangs := rfl
@[simp] theorem updDie_mem (s : State) (d : Nat) (f : DieSt → DieSt) : (updDie s d f).mem = s.mem := rfl
@[simp] theorem updDie_lineKey (s : State) (d : Nat) (f : DieSt → DieSt) : (updDie s d f).lineKey = s.lineKey := rfl
@[simp] theorem updDie_unspec (s : State) (d : Nat) (f : DieSt → DieSt) : (updDie s d f).unspec = s.unspec := rfl
@[simp] theorem updDie_poison (s : State) (d : Nat) (f : DieSt → DieSt) : (updDie s d f).poison = s.poison := rfl
@[simp] theorem updDie_binds (s : State) (d : Nat) (f : DieSt → DieSt) : (updDie s d f).binds = s.binds := rfl
@[simp] theorem updDie_seatStat (s : State) (d : Nat) (f : DieSt → DieSt) : (updDie s d f).seatStat = s.seatStat := rfl
@[simp] theorem updDie_waitUs (s : State) (d : Nat) (f : DieSt → DieSt) : (updDie s d f).waitUs = s.waitUs := rfl
@[simp] theorem updDie_faults (s : State) (d : Nat) (f : DieSt → DieSt) : (updDie s d f).faults = s.faults := rfl
@[simp] theorem updDie_fwQueue (s : State) (d : Nat) (f : DieSt → DieSt) : (updDie s d f).fwQueue = s.fwQueue := rfl
@[simp] theorem updDie_walks (s : State) (d : Nat) (f : DieSt → DieSt) : (updDie s d f).walks = s.walks := rfl
@[simp] theorem updDie_banks (s : State) (d : Nat) (f : DieSt → DieSt) : (updDie s d f).banks = s.banks := rfl
@[simp] theorem updDie_cmds (s : State) (d : Nat) (f : DieSt → DieSt) : (updDie s d f).cmds = s.cmds := rfl
@[simp] theorem updDie_bankErr (s : State) (d : Nat) (f : DieSt → DieSt) : (updDie s d f).bankErr = s.bankErr := rfl
@[simp] theorem updDie_pkl (s : State) (d : Nat) (f : DieSt → DieSt) : (updDie s d f).pkl = s.pkl := rfl
@[simp] theorem updDie_acqs (s : State) (d : Nat) (f : DieSt → DieSt) : (updDie s d f).acqs = s.acqs := rfl
@[simp] theorem updDie_io (s : State) (d : Nat) (f : DieSt → DieSt) : (updDie s d f).io = s.io := rfl
@[simp] theorem updDie_us (s : State) (d : Nat) (f : DieSt → DieSt) : (updDie s d f).us = s.us := rfl
@[simp] theorem updDie_agenda (s : State) (d : Nat) (f : DieSt → DieSt) : (updDie s d f).agenda = s.agenda := rfl
@[simp] theorem updDie_cur (s : State) (d : Nat) (f : DieSt → DieSt) : (updDie s d f).cur = s.cur := rfl
@[simp] theorem updDie_elemLimit (s : State) (d : Nat) (f : DieSt → DieSt) : (updDie s d f).elemLimit = s.elemLimit := rfl
@[simp] theorem updDie_ctr (s : State) (d : Nat) (f : DieSt → DieSt) : (updDie s d f).ctr = s.ctr := rfl
@[simp] theorem updDie_rr (s : State) (d : Nat) (f : DieSt → DieSt) : (updDie s d f).rr = s.rr := rfl
@[simp] theorem updIo_harts (s : State) (f : Io → Io) : (updIo s f).harts = s.harts := rfl
@[simp] theorem updIo_cores (s : State) (f : Io → Io) : (updIo s f).cores = s.cores := rfl
@[simp] theorem updIo_gangs (s : State) (f : Io → Io) : (updIo s f).gangs = s.gangs := rfl
@[simp] theorem updIo_dies (s : State) (f : Io → Io) : (updIo s f).dies = s.dies := rfl
@[simp] theorem updIo_mem (s : State) (f : Io → Io) : (updIo s f).mem = s.mem := rfl
@[simp] theorem updIo_lineKey (s : State) (f : Io → Io) : (updIo s f).lineKey = s.lineKey := rfl
@[simp] theorem updIo_unspec (s : State) (f : Io → Io) : (updIo s f).unspec = s.unspec := rfl
@[simp] theorem updIo_poison (s : State) (f : Io → Io) : (updIo s f).poison = s.poison := rfl
@[simp] theorem updIo_binds (s : State) (f : Io → Io) : (updIo s f).binds = s.binds := rfl
@[simp] theorem updIo_seatStat (s : State) (f : Io → Io) : (updIo s f).seatStat = s.seatStat := rfl
@[simp] theorem updIo_waitUs (s : State) (f : Io → Io) : (updIo s f).waitUs = s.waitUs := rfl
@[simp] theorem updIo_faults (s : State) (f : Io → Io) : (updIo s f).faults = s.faults := rfl
@[simp] theorem updIo_fwQueue (s : State) (f : Io → Io) : (updIo s f).fwQueue = s.fwQueue := rfl
@[simp] theorem updIo_walks (s : State) (f : Io → Io) : (updIo s f).walks = s.walks := rfl
@[simp] theorem updIo_banks (s : State) (f : Io → Io) : (updIo s f).banks = s.banks := rfl
@[simp] theorem updIo_cmds (s : State) (f : Io → Io) : (updIo s f).cmds = s.cmds := rfl
@[simp] theorem updIo_bankErr (s : State) (f : Io → Io) : (updIo s f).bankErr = s.bankErr := rfl
@[simp] theorem updIo_pkl (s : State) (f : Io → Io) : (updIo s f).pkl = s.pkl := rfl
@[simp] theorem updIo_acqs (s : State) (f : Io → Io) : (updIo s f).acqs = s.acqs := rfl
@[simp] theorem updIo_us (s : State) (f : Io → Io) : (updIo s f).us = s.us := rfl
@[simp] theorem updIo_agenda (s : State) (f : Io → Io) : (updIo s f).agenda = s.agenda := rfl
@[simp] theorem updIo_cur (s : State) (f : Io → Io) : (updIo s f).cur = s.cur := rfl
@[simp] theorem updIo_elemLimit (s : State) (f : Io → Io) : (updIo s f).elemLimit = s.elemLimit := rfl
@[simp] theorem updIo_ctr (s : State) (f : Io → Io) : (updIo s f).ctr = s.ctr := rfl
@[simp] theorem updIo_rr (s : State) (f : Io → Io) : (updIo s f).rr = s.rr := rfl
@[simp] theorem setRawByte_harts (s : State) (a : Nat) (b : Byte) : (setRawByte s a b).harts = s.harts := rfl
@[simp] theorem setRawByte_cores (s : State) (a : Nat) (b : Byte) : (setRawByte s a b).cores = s.cores := rfl
@[simp] theorem setRawByte_gangs (s : State) (a : Nat) (b : Byte) : (setRawByte s a b).gangs = s.gangs := rfl
@[simp] theorem setRawByte_dies (s : State) (a : Nat) (b : Byte) : (setRawByte s a b).dies = s.dies := rfl
@[simp] theorem setRawByte_lineKey (s : State) (a : Nat) (b : Byte) : (setRawByte s a b).lineKey = s.lineKey := rfl
@[simp] theorem setRawByte_poison (s : State) (a : Nat) (b : Byte) : (setRawByte s a b).poison = s.poison := rfl
@[simp] theorem setRawByte_binds (s : State) (a : Nat) (b : Byte) : (setRawByte s a b).binds = s.binds := rfl
@[simp] theorem setRawByte_seatStat (s : State) (a : Nat) (b : Byte) : (setRawByte s a b).seatStat = s.seatStat := rfl
@[simp] theorem setRawByte_waitUs (s : State) (a : Nat) (b : Byte) : (setRawByte s a b).waitUs = s.waitUs := rfl
@[simp] theorem setRawByte_faults (s : State) (a : Nat) (b : Byte) : (setRawByte s a b).faults = s.faults := rfl
@[simp] theorem setRawByte_fwQueue (s : State) (a : Nat) (b : Byte) : (setRawByte s a b).fwQueue = s.fwQueue := rfl
@[simp] theorem setRawByte_walks (s : State) (a : Nat) (b : Byte) : (setRawByte s a b).walks = s.walks := rfl
@[simp] theorem setRawByte_banks (s : State) (a : Nat) (b : Byte) : (setRawByte s a b).banks = s.banks := rfl
@[simp] theorem setRawByte_cmds (s : State) (a : Nat) (b : Byte) : (setRawByte s a b).cmds = s.cmds := rfl
@[simp] theorem setRawByte_bankErr (s : State) (a : Nat) (b : Byte) : (setRawByte s a b).bankErr = s.bankErr := rfl
@[simp] theorem setRawByte_pkl (s : State) (a : Nat) (b : Byte) : (setRawByte s a b).pkl = s.pkl := rfl
@[simp] theorem setRawByte_acqs (s : State) (a : Nat) (b : Byte) : (setRawByte s a b).acqs = s.acqs := rfl
@[simp] theorem setRawByte_io (s : State) (a : Nat) (b : Byte) : (setRawByte s a b).io = s.io := rfl
@[simp] theorem setRawByte_us (s : State) (a : Nat) (b : Byte) : (setRawByte s a b).us = s.us := rfl
@[simp] theorem setRawByte_agenda (s : State) (a : Nat) (b : Byte) : (setRawByte s a b).agenda = s.agenda := rfl
@[simp] theorem setRawByte_cur (s : State) (a : Nat) (b : Byte) : (setRawByte s a b).cur = s.cur := rfl
@[simp] theorem setRawByte_elemLimit (s : State) (a : Nat) (b : Byte) : (setRawByte s a b).elemLimit = s.elemLimit := rfl
@[simp] theorem setRawByte_ctr (s : State) (a : Nat) (b : Byte) : (setRawByte s a b).ctr = s.ctr := rfl
@[simp] theorem setRawByte_rr (s : State) (a : Nat) (b : Byte) : (setRawByte s a b).rr = s.rr := rfl

/-! ### Fields that an update of a hart leaves alone -/

@[simp] theorem hartSetV_run (h : Hart) (r n : Nat) : (hartSetV h r n).run = h.run := rfl
@[simp] theorem hartSetV_halted (h : Hart) (r n : Nat) : (hartSetV h r n).halted = h.halted := rfl
@[simp] theorem hartSetV_pc (h : Hart) (r n : Nat) : (hartSetV h r n).pc = h.pc := rfl
@[simp] theorem hartSetV_priv (h : Hart) (r n : Nat) : (hartSetV h r n).priv = h.priv := rfl
@[simp] theorem hartSetV_x (h : Hart) (r n : Nat) : (hartSetV h r n).x = h.x := rfl
@[simp] theorem hartSetV_f (h : Hart) (r n : Nat) : (hartSetV h r n).f = h.f := rfl
@[simp] theorem hartSetV_fcsr (h : Hart) (r n : Nat) : (hartSetV h r n).fcsr = h.fcsr := rfl
@[simp] theorem hartSetV_tags (h : Hart) (r n : Nat) : (hartSetV h r n).tags = h.tags := rfl
@[simp] theorem hartSetV_sc (h : Hart) (r n : Nat) : (hartSetV h r n).sc = h.sc := rfl
@[simp] theorem hartSetV_p (h : Hart) (r n : Nat) : (hartSetV h r n).p = h.p := rfl
@[simp] theorem hartSetV_xc (h : Hart) (r n : Nat) : (hartSetV h r n).xc = h.xc := rfl
@[simp] theorem hartSetV_pr (h : Hart) (r n : Nat) : (hartSetV h r n).pr = h.pr := rfl
@[simp] theorem hartSetV_spill (h : Hart) (r n : Nat) : (hartSetV h r n).spill = h.spill := rfl
@[simp] theorem hartSetV_latch (h : Hart) (r n : Nat) : (hartSetV h r n).latch = h.latch := rfl
@[simp] theorem hartSetV_bev (h : Hart) (r n : Nat) : (hartSetV h r n).bev = h.bev := rfl
@[simp] theorem hartSetV_beva (h : Hart) (r n : Nat) : (hartSetV h r n).beva = h.beva := rfl
@[simp] theorem hartSetV_maddr (h : Hart) (r n : Nat) : (hartSetV h r n).maddr = h.maddr := rfl
@[simp] theorem hartSetV_mv (h : Hart) (r n : Nat) : (hartSetV h r n).mv = h.mv := rfl
@[simp] theorem hartSetV_resv (h : Hart) (r n : Nat) : (hartSetV h r n).resv = h.resv := rfl
@[simp] theorem hartSetV_wc (h : Hart) (r n : Nat) : (hartSetV h r n).wc = h.wc := rfl
@[simp] theorem hartSetV_wait (h : Hart) (r n : Nat) : (hartSetV h r n).wait = h.wait := rfl
@[simp] theorem hartSetV_park (h : Hart) (r n : Nat) : (hartSetV h r n).park = h.park := rfl
@[simp] theorem hartSetV_probe (h : Hart) (r n : Nat) : (hartSetV h r n).probe = h.probe := rfl
@[simp] theorem hartSetV_inval (h : Hart) (r n : Nat) : (hartSetV h r n).inval = h.inval := rfl
@[simp] theorem hartSetV_ticket (h : Hart) (r n : Nat) : (hartSetV h r n).ticket = h.ticket := rfl
@[simp] theorem hartSetV_leaveOk (h : Hart) (r n : Nat) : (hartSetV h r n).leaveOk = h.leaveOk := rfl
@[simp] theorem hartSetV_stall (h : Hart) (r n : Nat) : (hartSetV h r n).stall = h.stall := rfl
@[simp] theorem hartSetV_vred (h : Hart) (r n : Nat) : (hartSetV h r n).vred = h.vred := rfl
@[simp] theorem hartSetV_stepping (h : Hart) (r n : Nat) : (hartSetV h r n).stepping = h.stepping := rfl
@[simp] theorem hartSetV_pbuf (h : Hart) (r n : Nat) : (hartSetV h r n).pbuf = h.pbuf := rfl
@[simp] theorem hartSetTag_run (h : Hart) (r n : Nat) : (hartSetTag h r n).run = h.run := rfl
@[simp] theorem hartSetTag_halted (h : Hart) (r n : Nat) : (hartSetTag h r n).halted = h.halted := rfl
@[simp] theorem hartSetTag_pc (h : Hart) (r n : Nat) : (hartSetTag h r n).pc = h.pc := rfl
@[simp] theorem hartSetTag_priv (h : Hart) (r n : Nat) : (hartSetTag h r n).priv = h.priv := rfl
@[simp] theorem hartSetTag_x (h : Hart) (r n : Nat) : (hartSetTag h r n).x = h.x := rfl
@[simp] theorem hartSetTag_f (h : Hart) (r n : Nat) : (hartSetTag h r n).f = h.f := rfl
@[simp] theorem hartSetTag_fcsr (h : Hart) (r n : Nat) : (hartSetTag h r n).fcsr = h.fcsr := rfl
@[simp] theorem hartSetTag_v (h : Hart) (r n : Nat) : (hartSetTag h r n).v = h.v := rfl
@[simp] theorem hartSetTag_sc (h : Hart) (r n : Nat) : (hartSetTag h r n).sc = h.sc := rfl
@[simp] theorem hartSetTag_p (h : Hart) (r n : Nat) : (hartSetTag h r n).p = h.p := rfl
@[simp] theorem hartSetTag_xc (h : Hart) (r n : Nat) : (hartSetTag h r n).xc = h.xc := rfl
@[simp] theorem hartSetTag_pr (h : Hart) (r n : Nat) : (hartSetTag h r n).pr = h.pr := rfl
@[simp] theorem hartSetTag_spill (h : Hart) (r n : Nat) : (hartSetTag h r n).spill = h.spill := rfl
@[simp] theorem hartSetTag_latch (h : Hart) (r n : Nat) : (hartSetTag h r n).latch = h.latch := rfl
@[simp] theorem hartSetTag_bev (h : Hart) (r n : Nat) : (hartSetTag h r n).bev = h.bev := rfl
@[simp] theorem hartSetTag_beva (h : Hart) (r n : Nat) : (hartSetTag h r n).beva = h.beva := rfl
@[simp] theorem hartSetTag_maddr (h : Hart) (r n : Nat) : (hartSetTag h r n).maddr = h.maddr := rfl
@[simp] theorem hartSetTag_mv (h : Hart) (r n : Nat) : (hartSetTag h r n).mv = h.mv := rfl
@[simp] theorem hartSetTag_resv (h : Hart) (r n : Nat) : (hartSetTag h r n).resv = h.resv := rfl
@[simp] theorem hartSetTag_wc (h : Hart) (r n : Nat) : (hartSetTag h r n).wc = h.wc := rfl
@[simp] theorem hartSetTag_wait (h : Hart) (r n : Nat) : (hartSetTag h r n).wait = h.wait := rfl
@[simp] theorem hartSetTag_park (h : Hart) (r n : Nat) : (hartSetTag h r n).park = h.park := rfl
@[simp] theorem hartSetTag_probe (h : Hart) (r n : Nat) : (hartSetTag h r n).probe = h.probe := rfl
@[simp] theorem hartSetTag_inval (h : Hart) (r n : Nat) : (hartSetTag h r n).inval = h.inval := rfl
@[simp] theorem hartSetTag_ticket (h : Hart) (r n : Nat) : (hartSetTag h r n).ticket = h.ticket := rfl
@[simp] theorem hartSetTag_leaveOk (h : Hart) (r n : Nat) : (hartSetTag h r n).leaveOk = h.leaveOk := rfl
@[simp] theorem hartSetTag_stall (h : Hart) (r n : Nat) : (hartSetTag h r n).stall = h.stall := rfl
@[simp] theorem hartSetTag_vred (h : Hart) (r n : Nat) : (hartSetTag h r n).vred = h.vred := rfl
@[simp] theorem hartSetTag_stepping (h : Hart) (r n : Nat) : (hartSetTag h r n).stepping = h.stepping := rfl
@[simp] theorem hartSetTag_pbuf (h : Hart) (r n : Nat) : (hartSetTag h r n).pbuf = h.pbuf := rfl
@[simp] theorem hartSetSc_run (h : Hart) (r n : Nat) : (hartSetSc h r n).run = h.run := rfl
@[simp] theorem hartSetSc_halted (h : Hart) (r n : Nat) : (hartSetSc h r n).halted = h.halted := rfl
@[simp] theorem hartSetSc_pc (h : Hart) (r n : Nat) : (hartSetSc h r n).pc = h.pc := rfl
@[simp] theorem hartSetSc_priv (h : Hart) (r n : Nat) : (hartSetSc h r n).priv = h.priv := rfl
@[simp] theorem hartSetSc_x (h : Hart) (r n : Nat) : (hartSetSc h r n).x = h.x := rfl
@[simp] theorem hartSetSc_f (h : Hart) (r n : Nat) : (hartSetSc h r n).f = h.f := rfl
@[simp] theorem hartSetSc_fcsr (h : Hart) (r n : Nat) : (hartSetSc h r n).fcsr = h.fcsr := rfl
@[simp] theorem hartSetSc_v (h : Hart) (r n : Nat) : (hartSetSc h r n).v = h.v := rfl
@[simp] theorem hartSetSc_tags (h : Hart) (r n : Nat) : (hartSetSc h r n).tags = h.tags := rfl
@[simp] theorem hartSetSc_p (h : Hart) (r n : Nat) : (hartSetSc h r n).p = h.p := rfl
@[simp] theorem hartSetSc_xc (h : Hart) (r n : Nat) : (hartSetSc h r n).xc = h.xc := rfl
@[simp] theorem hartSetSc_pr (h : Hart) (r n : Nat) : (hartSetSc h r n).pr = h.pr := rfl
@[simp] theorem hartSetSc_spill (h : Hart) (r n : Nat) : (hartSetSc h r n).spill = h.spill := rfl
@[simp] theorem hartSetSc_latch (h : Hart) (r n : Nat) : (hartSetSc h r n).latch = h.latch := rfl
@[simp] theorem hartSetSc_bev (h : Hart) (r n : Nat) : (hartSetSc h r n).bev = h.bev := rfl
@[simp] theorem hartSetSc_beva (h : Hart) (r n : Nat) : (hartSetSc h r n).beva = h.beva := rfl
@[simp] theorem hartSetSc_maddr (h : Hart) (r n : Nat) : (hartSetSc h r n).maddr = h.maddr := rfl
@[simp] theorem hartSetSc_mv (h : Hart) (r n : Nat) : (hartSetSc h r n).mv = h.mv := rfl
@[simp] theorem hartSetSc_resv (h : Hart) (r n : Nat) : (hartSetSc h r n).resv = h.resv := rfl
@[simp] theorem hartSetSc_wc (h : Hart) (r n : Nat) : (hartSetSc h r n).wc = h.wc := rfl
@[simp] theorem hartSetSc_wait (h : Hart) (r n : Nat) : (hartSetSc h r n).wait = h.wait := rfl
@[simp] theorem hartSetSc_park (h : Hart) (r n : Nat) : (hartSetSc h r n).park = h.park := rfl
@[simp] theorem hartSetSc_probe (h : Hart) (r n : Nat) : (hartSetSc h r n).probe = h.probe := rfl
@[simp] theorem hartSetSc_inval (h : Hart) (r n : Nat) : (hartSetSc h r n).inval = h.inval := rfl
@[simp] theorem hartSetSc_ticket (h : Hart) (r n : Nat) : (hartSetSc h r n).ticket = h.ticket := rfl
@[simp] theorem hartSetSc_leaveOk (h : Hart) (r n : Nat) : (hartSetSc h r n).leaveOk = h.leaveOk := rfl
@[simp] theorem hartSetSc_stall (h : Hart) (r n : Nat) : (hartSetSc h r n).stall = h.stall := rfl
@[simp] theorem hartSetSc_vred (h : Hart) (r n : Nat) : (hartSetSc h r n).vred = h.vred := rfl
@[simp] theorem hartSetSc_stepping (h : Hart) (r n : Nat) : (hartSetSc h r n).stepping = h.stepping := rfl
@[simp] theorem hartSetSc_pbuf (h : Hart) (r n : Nat) : (hartSetSc h r n).pbuf = h.pbuf := rfl
@[simp] theorem hartSetX_run (h : Hart) (r : RegIx) (v : Word) : (hartSetX h r v).run = h.run := by
  unfold hartSetX; split <;> rfl
@[simp] theorem hartSetX_halted (h : Hart) (r : RegIx) (v : Word) : (hartSetX h r v).halted = h.halted := by
  unfold hartSetX; split <;> rfl
@[simp] theorem hartSetX_pc (h : Hart) (r : RegIx) (v : Word) : (hartSetX h r v).pc = h.pc := by
  unfold hartSetX; split <;> rfl
@[simp] theorem hartSetX_priv (h : Hart) (r : RegIx) (v : Word) : (hartSetX h r v).priv = h.priv := by
  unfold hartSetX; split <;> rfl
@[simp] theorem hartSetX_f (h : Hart) (r : RegIx) (v : Word) : (hartSetX h r v).f = h.f := by
  unfold hartSetX; split <;> rfl
@[simp] theorem hartSetX_fcsr (h : Hart) (r : RegIx) (v : Word) : (hartSetX h r v).fcsr = h.fcsr := by
  unfold hartSetX; split <;> rfl
@[simp] theorem hartSetX_v (h : Hart) (r : RegIx) (v : Word) : (hartSetX h r v).v = h.v := by
  unfold hartSetX; split <;> rfl
@[simp] theorem hartSetX_tags (h : Hart) (r : RegIx) (v : Word) : (hartSetX h r v).tags = h.tags := by
  unfold hartSetX; split <;> rfl
@[simp] theorem hartSetX_sc (h : Hart) (r : RegIx) (v : Word) : (hartSetX h r v).sc = h.sc := by
  unfold hartSetX; split <;> rfl
@[simp] theorem hartSetX_p (h : Hart) (r : RegIx) (v : Word) : (hartSetX h r v).p = h.p := by
  unfold hartSetX; split <;> rfl
@[simp] theorem hartSetX_xc (h : Hart) (r : RegIx) (v : Word) : (hartSetX h r v).xc = h.xc := by
  unfold hartSetX; split <;> rfl
@[simp] theorem hartSetX_pr (h : Hart) (r : RegIx) (v : Word) : (hartSetX h r v).pr = h.pr := by
  unfold hartSetX; split <;> rfl
@[simp] theorem hartSetX_spill (h : Hart) (r : RegIx) (v : Word) : (hartSetX h r v).spill = h.spill := by
  unfold hartSetX; split <;> rfl
@[simp] theorem hartSetX_latch (h : Hart) (r : RegIx) (v : Word) : (hartSetX h r v).latch = h.latch := by
  unfold hartSetX; split <;> rfl
@[simp] theorem hartSetX_bev (h : Hart) (r : RegIx) (v : Word) : (hartSetX h r v).bev = h.bev := by
  unfold hartSetX; split <;> rfl
@[simp] theorem hartSetX_beva (h : Hart) (r : RegIx) (v : Word) : (hartSetX h r v).beva = h.beva := by
  unfold hartSetX; split <;> rfl
@[simp] theorem hartSetX_maddr (h : Hart) (r : RegIx) (v : Word) : (hartSetX h r v).maddr = h.maddr := by
  unfold hartSetX; split <;> rfl
@[simp] theorem hartSetX_mv (h : Hart) (r : RegIx) (v : Word) : (hartSetX h r v).mv = h.mv := by
  unfold hartSetX; split <;> rfl
@[simp] theorem hartSetX_resv (h : Hart) (r : RegIx) (v : Word) : (hartSetX h r v).resv = h.resv := by
  unfold hartSetX; split <;> rfl
@[simp] theorem hartSetX_wc (h : Hart) (r : RegIx) (v : Word) : (hartSetX h r v).wc = h.wc := by
  unfold hartSetX; split <;> rfl
@[simp] theorem hartSetX_wait (h : Hart) (r : RegIx) (v : Word) : (hartSetX h r v).wait = h.wait := by
  unfold hartSetX; split <;> rfl
@[simp] theorem hartSetX_park (h : Hart) (r : RegIx) (v : Word) : (hartSetX h r v).park = h.park := by
  unfold hartSetX; split <;> rfl
@[simp] theorem hartSetX_probe (h : Hart) (r : RegIx) (v : Word) : (hartSetX h r v).probe = h.probe := by
  unfold hartSetX; split <;> rfl
@[simp] theorem hartSetX_inval (h : Hart) (r : RegIx) (v : Word) : (hartSetX h r v).inval = h.inval := by
  unfold hartSetX; split <;> rfl
@[simp] theorem hartSetX_ticket (h : Hart) (r : RegIx) (v : Word) : (hartSetX h r v).ticket = h.ticket := by
  unfold hartSetX; split <;> rfl
@[simp] theorem hartSetX_leaveOk (h : Hart) (r : RegIx) (v : Word) : (hartSetX h r v).leaveOk = h.leaveOk := by
  unfold hartSetX; split <;> rfl
@[simp] theorem hartSetX_stall (h : Hart) (r : RegIx) (v : Word) : (hartSetX h r v).stall = h.stall := by
  unfold hartSetX; split <;> rfl
@[simp] theorem hartSetX_stepping (h : Hart) (r : RegIx) (v : Word) : (hartSetX h r v).stepping = h.stepping := by
  unfold hartSetX; split <;> rfl
@[simp] theorem hartSetX_pbuf (h : Hart) (r : RegIx) (v : Word) : (hartSetX h r v).pbuf = h.pbuf := by
  unfold hartSetX; split <;> rfl
@[simp] theorem hartSetP_run (h : Hart) (n v : Nat) : (hartSetP h n v).run = h.run := by
  unfold hartSetP; split <;> rfl
@[simp] theorem hartSetP_halted (h : Hart) (n v : Nat) : (hartSetP h n v).halted = h.halted := by
  unfold hartSetP; split <;> rfl
@[simp] theorem hartSetP_pc (h : Hart) (n v : Nat) : (hartSetP h n v).pc = h.pc := by
  unfold hartSetP; split <;> rfl
@[simp] theorem hartSetP_priv (h : Hart) (n v : Nat) : (hartSetP h n v).priv = h.priv := by
  unfold hartSetP; split <;> rfl
@[simp] theorem hartSetP_x (h : Hart) (n v : Nat) : (hartSetP h n v).x = h.x := by
  unfold hartSetP; split <;> rfl
@[simp] theorem hartSetP_f (h : Hart) (n v : Nat) : (hartSetP h n v).f = h.f := by
  unfold hartSetP; split <;> rfl
@[simp] theorem hartSetP_fcsr (h : Hart) (n v : Nat) : (hartSetP h n v).fcsr = h.fcsr := by
  unfold hartSetP; split <;> rfl
@[simp] theorem hartSetP_v (h : Hart) (n v : Nat) : (hartSetP h n v).v = h.v := by
  unfold hartSetP; split <;> rfl
@[simp] theorem hartSetP_tags (h : Hart) (n v : Nat) : (hartSetP h n v).tags = h.tags := by
  unfold hartSetP; split <;> rfl
@[simp] theorem hartSetP_sc (h : Hart) (n v : Nat) : (hartSetP h n v).sc = h.sc := by
  unfold hartSetP; split <;> rfl
@[simp] theorem hartSetP_xc (h : Hart) (n v : Nat) : (hartSetP h n v).xc = h.xc := by
  unfold hartSetP; split <;> rfl
@[simp] theorem hartSetP_pr (h : Hart) (n v : Nat) : (hartSetP h n v).pr = h.pr := by
  unfold hartSetP; split <;> rfl
@[simp] theorem hartSetP_spill (h : Hart) (n v : Nat) : (hartSetP h n v).spill = h.spill := by
  unfold hartSetP; split <;> rfl
@[simp] theorem hartSetP_latch (h : Hart) (n v : Nat) : (hartSetP h n v).latch = h.latch := by
  unfold hartSetP; split <;> rfl
@[simp] theorem hartSetP_bev (h : Hart) (n v : Nat) : (hartSetP h n v).bev = h.bev := by
  unfold hartSetP; split <;> rfl
@[simp] theorem hartSetP_beva (h : Hart) (n v : Nat) : (hartSetP h n v).beva = h.beva := by
  unfold hartSetP; split <;> rfl
@[simp] theorem hartSetP_maddr (h : Hart) (n v : Nat) : (hartSetP h n v).maddr = h.maddr := by
  unfold hartSetP; split <;> rfl
@[simp] theorem hartSetP_mv (h : Hart) (n v : Nat) : (hartSetP h n v).mv = h.mv := by
  unfold hartSetP; split <;> rfl
@[simp] theorem hartSetP_resv (h : Hart) (n v : Nat) : (hartSetP h n v).resv = h.resv := by
  unfold hartSetP; split <;> rfl
@[simp] theorem hartSetP_wc (h : Hart) (n v : Nat) : (hartSetP h n v).wc = h.wc := by
  unfold hartSetP; split <;> rfl
@[simp] theorem hartSetP_wait (h : Hart) (n v : Nat) : (hartSetP h n v).wait = h.wait := by
  unfold hartSetP; split <;> rfl
@[simp] theorem hartSetP_park (h : Hart) (n v : Nat) : (hartSetP h n v).park = h.park := by
  unfold hartSetP; split <;> rfl
@[simp] theorem hartSetP_probe (h : Hart) (n v : Nat) : (hartSetP h n v).probe = h.probe := by
  unfold hartSetP; split <;> rfl
@[simp] theorem hartSetP_inval (h : Hart) (n v : Nat) : (hartSetP h n v).inval = h.inval := by
  unfold hartSetP; split <;> rfl
@[simp] theorem hartSetP_ticket (h : Hart) (n v : Nat) : (hartSetP h n v).ticket = h.ticket := by
  unfold hartSetP; split <;> rfl
@[simp] theorem hartSetP_leaveOk (h : Hart) (n v : Nat) : (hartSetP h n v).leaveOk = h.leaveOk := by
  unfold hartSetP; split <;> rfl
@[simp] theorem hartSetP_stall (h : Hart) (n v : Nat) : (hartSetP h n v).stall = h.stall := by
  unfold hartSetP; split <;> rfl
@[simp] theorem hartSetP_stepping (h : Hart) (n v : Nat) : (hartSetP h n v).stepping = h.stepping := by
  unfold hartSetP; split <;> rfl
@[simp] theorem hartSetP_pbuf (h : Hart) (n v : Nat) : (hartSetP h n v).pbuf = h.pbuf := by
  unfold hartSetP; split <;> rfl
@[simp] theorem retire_run (h : Hart) : (retire h).run = h.run := rfl
@[simp] theorem retire_halted (h : Hart) : (retire h).halted = h.halted := rfl
@[simp] theorem retire_pc (h : Hart) : (retire h).pc = h.pc := rfl
@[simp] theorem retire_priv (h : Hart) : (retire h).priv = h.priv := rfl
@[simp] theorem retire_x (h : Hart) : (retire h).x = h.x := rfl
@[simp] theorem retire_f (h : Hart) : (retire h).f = h.f := rfl
@[simp] theorem retire_fcsr (h : Hart) : (retire h).fcsr = h.fcsr := rfl
@[simp] theorem retire_v (h : Hart) : (retire h).v = h.v := rfl
@[simp] theorem retire_tags (h : Hart) : (retire h).tags = h.tags := rfl
@[simp] theorem retire_sc (h : Hart) : (retire h).sc = h.sc := rfl
@[simp] theorem retire_p (h : Hart) : (retire h).p = h.p := rfl
@[simp] theorem retire_xc (h : Hart) : (retire h).xc = h.xc := rfl
@[simp] theorem retire_spill (h : Hart) : (retire h).spill = h.spill := rfl
@[simp] theorem retire_latch (h : Hart) : (retire h).latch = h.latch := rfl
@[simp] theorem retire_bev (h : Hart) : (retire h).bev = h.bev := rfl
@[simp] theorem retire_beva (h : Hart) : (retire h).beva = h.beva := rfl
@[simp] theorem retire_maddr (h : Hart) : (retire h).maddr = h.maddr := rfl
@[simp] theorem retire_mv (h : Hart) : (retire h).mv = h.mv := rfl
@[simp] theorem retire_resv (h : Hart) : (retire h).resv = h.resv := rfl
@[simp] theorem retire_wc (h : Hart) : (retire h).wc = h.wc := rfl
@[simp] theorem retire_park (h : Hart) : (retire h).park = h.park := rfl
@[simp] theorem retire_probe (h : Hart) : (retire h).probe = h.probe := rfl
@[simp] theorem retire_inval (h : Hart) : (retire h).inval = h.inval := rfl
@[simp] theorem retire_ticket (h : Hart) : (retire h).ticket = h.ticket := rfl
@[simp] theorem retire_stepping (h : Hart) : (retire h).stepping = h.stepping := rfl
@[simp] theorem retire_pbuf (h : Hart) : (retire h).pbuf = h.pbuf := rfl
@[simp] theorem wrGroup_run (h : Hart) (rb base n g : Nat) : (wrGroup h rb base n g).run = h.run := by
  induction n generalizing h base g with
  | zero => rfl
  | succ n ih => simp [wrGroup, ih]
@[simp] theorem wrGroup_halted (h : Hart) (rb base n g : Nat) : (wrGroup h rb base n g).halted = h.halted := by
  induction n generalizing h base g with
  | zero => rfl
  | succ n ih => simp [wrGroup, ih]
@[simp] theorem wrGroup_pc (h : Hart) (rb base n g : Nat) : (wrGroup h rb base n g).pc = h.pc := by
  induction n generalizing h base g with
  | zero => rfl
  | succ n ih => simp [wrGroup, ih]
@[simp] theorem wrGroup_priv (h : Hart) (rb base n g : Nat) : (wrGroup h rb base n g).priv = h.priv := by
  induction n generalizing h base g with
  | zero => rfl
  | succ n ih => simp [wrGroup, ih]
@[simp] theorem wrGroup_x (h : Hart) (rb base n g : Nat) : (wrGroup h rb base n g).x = h.x := by
  induction n generalizing h base g with
  | zero => rfl
  | succ n ih => simp [wrGroup, ih]
@[simp] theorem wrGroup_f (h : Hart) (rb base n g : Nat) : (wrGroup h rb base n g).f = h.f := by
  induction n generalizing h base g with
  | zero => rfl
  | succ n ih => simp [wrGroup, ih]
@[simp] theorem wrGroup_fcsr (h : Hart) (rb base n g : Nat) : (wrGroup h rb base n g).fcsr = h.fcsr := by
  induction n generalizing h base g with
  | zero => rfl
  | succ n ih => simp [wrGroup, ih]
@[simp] theorem wrGroup_tags (h : Hart) (rb base n g : Nat) : (wrGroup h rb base n g).tags = h.tags := by
  induction n generalizing h base g with
  | zero => rfl
  | succ n ih => simp [wrGroup, ih]
@[simp] theorem wrGroup_sc (h : Hart) (rb base n g : Nat) : (wrGroup h rb base n g).sc = h.sc := by
  induction n generalizing h base g with
  | zero => rfl
  | succ n ih => simp [wrGroup, ih]
@[simp] theorem wrGroup_p (h : Hart) (rb base n g : Nat) : (wrGroup h rb base n g).p = h.p := by
  induction n generalizing h base g with
  | zero => rfl
  | succ n ih => simp [wrGroup, ih]
@[simp] theorem wrGroup_xc (h : Hart) (rb base n g : Nat) : (wrGroup h rb base n g).xc = h.xc := by
  induction n generalizing h base g with
  | zero => rfl
  | succ n ih => simp [wrGroup, ih]
@[simp] theorem wrGroup_pr (h : Hart) (rb base n g : Nat) : (wrGroup h rb base n g).pr = h.pr := by
  induction n generalizing h base g with
  | zero => rfl
  | succ n ih => simp [wrGroup, ih]
@[simp] theorem wrGroup_spill (h : Hart) (rb base n g : Nat) : (wrGroup h rb base n g).spill = h.spill := by
  induction n generalizing h base g with
  | zero => rfl
  | succ n ih => simp [wrGroup, ih]
@[simp] theorem wrGroup_latch (h : Hart) (rb base n g : Nat) : (wrGroup h rb base n g).latch = h.latch := by
  induction n generalizing h base g with
  | zero => rfl
  | succ n ih => simp [wrGroup, ih]
@[simp] theorem wrGroup_bev (h : Hart) (rb base n g : Nat) : (wrGroup h rb base n g).bev = h.bev := by
  induction n generalizing h base g with
  | zero => rfl
  | succ n ih => simp [wrGroup, ih]
@[simp] theorem wrGroup_beva (h : Hart) (rb base n g : Nat) : (wrGroup h rb base n g).beva = h.beva := by
  induction n generalizing h base g with
  | zero => rfl
  | succ n ih => simp [wrGroup, ih]
@[simp] theorem wrGroup_maddr (h : Hart) (rb base n g : Nat) : (wrGroup h rb base n g).maddr = h.maddr := by
  induction n generalizing h base g with
  | zero => rfl
  | succ n ih => simp [wrGroup, ih]
@[simp] theorem wrGroup_mv (h : Hart) (rb base n g : Nat) : (wrGroup h rb base n g).mv = h.mv := by
  induction n generalizing h base g with
  | zero => rfl
  | succ n ih => simp [wrGroup, ih]
@[simp] theorem wrGroup_resv (h : Hart) (rb base n g : Nat) : (wrGroup h rb base n g).resv = h.resv := by
  induction n generalizing h base g with
  | zero => rfl
  | succ n ih => simp [wrGroup, ih]
@[simp] theorem wrGroup_wc (h : Hart) (rb base n g : Nat) : (wrGroup h rb base n g).wc = h.wc := by
  induction n generalizing h base g with
  | zero => rfl
  | succ n ih => simp [wrGroup, ih]
@[simp] theorem wrGroup_wait (h : Hart) (rb base n g : Nat) : (wrGroup h rb base n g).wait = h.wait := by
  induction n generalizing h base g with
  | zero => rfl
  | succ n ih => simp [wrGroup, ih]
@[simp] theorem wrGroup_park (h : Hart) (rb base n g : Nat) : (wrGroup h rb base n g).park = h.park := by
  induction n generalizing h base g with
  | zero => rfl
  | succ n ih => simp [wrGroup, ih]
@[simp] theorem wrGroup_probe (h : Hart) (rb base n g : Nat) : (wrGroup h rb base n g).probe = h.probe := by
  induction n generalizing h base g with
  | zero => rfl
  | succ n ih => simp [wrGroup, ih]
@[simp] theorem wrGroup_inval (h : Hart) (rb base n g : Nat) : (wrGroup h rb base n g).inval = h.inval := by
  induction n generalizing h base g with
  | zero => rfl
  | succ n ih => simp [wrGroup, ih]
@[simp] theorem wrGroup_ticket (h : Hart) (rb base n g : Nat) : (wrGroup h rb base n g).ticket = h.ticket := by
  induction n generalizing h base g with
  | zero => rfl
  | succ n ih => simp [wrGroup, ih]
@[simp] theorem wrGroup_leaveOk (h : Hart) (rb base n g : Nat) : (wrGroup h rb base n g).leaveOk = h.leaveOk := by
  induction n generalizing h base g with
  | zero => rfl
  | succ n ih => simp [wrGroup, ih]
@[simp] theorem wrGroup_stall (h : Hart) (rb base n g : Nat) : (wrGroup h rb base n g).stall = h.stall := by
  induction n generalizing h base g with
  | zero => rfl
  | succ n ih => simp [wrGroup, ih]
@[simp] theorem wrGroup_stepping (h : Hart) (rb base n g : Nat) : (wrGroup h rb base n g).stepping = h.stepping := by
  induction n generalizing h base g with
  | zero => rfl
  | succ n ih => simp [wrGroup, ih]
@[simp] theorem wrGroup_pbuf (h : Hart) (rb base n g : Nat) : (wrGroup h rb base n g).pbuf = h.pbuf := by
  induction n generalizing h base g with
  | zero => rfl
  | succ n ih => simp [wrGroup, ih]
@[simp] theorem setTags_run (h : Hart) (base n t : Nat) : (setTags h base n t).run = h.run := by
  induction n generalizing h base with
  | zero => rfl
  | succ n ih => simp [setTags, ih]
@[simp] theorem setTags_halted (h : Hart) (base n t : Nat) : (setTags h base n t).halted = h.halted := by
  induction n generalizing h base with
  | zero => rfl
  | succ n ih => simp [setTags, ih]
@[simp] theorem setTags_pc (h : Hart) (base n t : Nat) : (setTags h base n t).pc = h.pc := by
  induction n generalizing h base with
  | zero => rfl
  | succ n ih => simp [setTags, ih]
@[simp] theorem setTags_priv (h : Hart) (base n t : Nat) : (setTags h base n t).priv = h.priv := by
  induction n generalizing h base with
  | zero => rfl
  | succ n ih => simp [setTags, ih]
@[simp] theorem setTags_x (h : Hart) (base n t : Nat) : (setTags h base n t).x = h.x := by
  induction n generalizing h base with
  | zero => rfl
  | succ n ih => simp [setTags, ih]
@[simp] theorem setTags_f (h : Hart) (base n t : Nat) : (setTags h base n t).f = h.f := by
  induction n generalizing h base with
  | zero => rfl
  | succ n ih => simp [setTags, ih]
@[simp] theorem setTags_fcsr (h : Hart) (base n t : Nat) : (setTags h base n t).fcsr = h.fcsr := by
  induction n generalizing h base with
  | zero => rfl
  | succ n ih => simp [setTags, ih]
@[simp] theorem setTags_v (h : Hart) (base n t : Nat) : (setTags h base n t).v = h.v := by
  induction n generalizing h base with
  | zero => rfl
  | succ n ih => simp [setTags, ih]
@[simp] theorem setTags_sc (h : Hart) (base n t : Nat) : (setTags h base n t).sc = h.sc := by
  induction n generalizing h base with
  | zero => rfl
  | succ n ih => simp [setTags, ih]
@[simp] theorem setTags_p (h : Hart) (base n t : Nat) : (setTags h base n t).p = h.p := by
  induction n generalizing h base with
  | zero => rfl
  | succ n ih => simp [setTags, ih]
@[simp] theorem setTags_xc (h : Hart) (base n t : Nat) : (setTags h base n t).xc = h.xc := by
  induction n generalizing h base with
  | zero => rfl
  | succ n ih => simp [setTags, ih]
@[simp] theorem setTags_pr (h : Hart) (base n t : Nat) : (setTags h base n t).pr = h.pr := by
  induction n generalizing h base with
  | zero => rfl
  | succ n ih => simp [setTags, ih]
@[simp] theorem setTags_spill (h : Hart) (base n t : Nat) : (setTags h base n t).spill = h.spill := by
  induction n generalizing h base with
  | zero => rfl
  | succ n ih => simp [setTags, ih]
@[simp] theorem setTags_latch (h : Hart) (base n t : Nat) : (setTags h base n t).latch = h.latch := by
  induction n generalizing h base with
  | zero => rfl
  | succ n ih => simp [setTags, ih]
@[simp] theorem setTags_bev (h : Hart) (base n t : Nat) : (setTags h base n t).bev = h.bev := by
  induction n generalizing h base with
  | zero => rfl
  | succ n ih => simp [setTags, ih]
@[simp] theorem setTags_beva (h : Hart) (base n t : Nat) : (setTags h base n t).beva = h.beva := by
  induction n generalizing h base with
  | zero => rfl
  | succ n ih => simp [setTags, ih]
@[simp] theorem setTags_maddr (h : Hart) (base n t : Nat) : (setTags h base n t).maddr = h.maddr := by
  induction n generalizing h base with
  | zero => rfl
  | succ n ih => simp [setTags, ih]
@[simp] theorem setTags_mv (h : Hart) (base n t : Nat) : (setTags h base n t).mv = h.mv := by
  induction n generalizing h base with
  | zero => rfl
  | succ n ih => simp [setTags, ih]
@[simp] theorem setTags_resv (h : Hart) (base n t : Nat) : (setTags h base n t).resv = h.resv := by
  induction n generalizing h base with
  | zero => rfl
  | succ n ih => simp [setTags, ih]
@[simp] theorem setTags_wc (h : Hart) (base n t : Nat) : (setTags h base n t).wc = h.wc := by
  induction n generalizing h base with
  | zero => rfl
  | succ n ih => simp [setTags, ih]
@[simp] theorem setTags_wait (h : Hart) (base n t : Nat) : (setTags h base n t).wait = h.wait := by
  induction n generalizing h base with
  | zero => rfl
  | succ n ih => simp [setTags, ih]
@[simp] theorem setTags_park (h : Hart) (base n t : Nat) : (setTags h base n t).park = h.park := by
  induction n generalizing h base with
  | zero => rfl
  | succ n ih => simp [setTags, ih]
@[simp] theorem setTags_probe (h : Hart) (base n t : Nat) : (setTags h base n t).probe = h.probe := by
  induction n generalizing h base with
  | zero => rfl
  | succ n ih => simp [setTags, ih]
@[simp] theorem setTags_inval (h : Hart) (base n t : Nat) : (setTags h base n t).inval = h.inval := by
  induction n generalizing h base with
  | zero => rfl
  | succ n ih => simp [setTags, ih]
@[simp] theorem setTags_ticket (h : Hart) (base n t : Nat) : (setTags h base n t).ticket = h.ticket := by
  induction n generalizing h base with
  | zero => rfl
  | succ n ih => simp [setTags, ih]
@[simp] theorem setTags_leaveOk (h : Hart) (base n t : Nat) : (setTags h base n t).leaveOk = h.leaveOk := by
  induction n generalizing h base with
  | zero => rfl
  | succ n ih => simp [setTags, ih]
@[simp] theorem setTags_stall (h : Hart) (base n t : Nat) : (setTags h base n t).stall = h.stall := by
  induction n generalizing h base with
  | zero => rfl
  | succ n ih => simp [setTags, ih]
@[simp] theorem setTags_stepping (h : Hart) (base n t : Nat) : (setTags h base n t).stepping = h.stepping := by
  induction n generalizing h base with
  | zero => rfl
  | succ n ih => simp [setTags, ih]
@[simp] theorem setTags_pbuf (h : Hart) (base n t : Nat) : (setTags h base n t).pbuf = h.pbuf := by
  induction n generalizing h base with
  | zero => rfl
  | succ n ih => simp [setTags, ih]

/-! ### Registers -/

@[simp] theorem hartX_hartSetX (h : Hart) (r : RegIx) (v : Word) : hartX (hartSetX h r v) r = if r.val = 0 then 0 else v := by
  unfold hartX hartSetX; split <;> simp_all
theorem hartX_hartSetX_other (h : Hart) {r q : RegIx} (v : Word) (hq : q ≠ r) : hartX (hartSetX h r v) q = hartX h q := by
  have : q.val ≠ r.val := fun e => hq (Fin.ext e)
  unfold hartX hartSetX
  by_cases h0 : r.val = 0
  · simp [h0]
  · by_cases h1 : q.val = 0
    · simp [h1]
    · simp only [h0, h1, if_false]
      exact aget_aputC_other _ _ _ _ this
@[simp] theorem hartSetX_zero (h : Hart) (v : Word) : hartSetX h 0 v = h := rfl
@[simp] theorem hartP_zero (h : Hart) : hartP h 0 = 2 ^ 32768 - 1 := rfl
@[simp] theorem hartSetP_zero (h : Hart) (v : Nat) : hartSetP h 0 v = h := rfl
@[simp] theorem hartTag_hartSetTag (h : Hart) (r n : Nat) : hartTag (hartSetTag h r n) r = n % 256 := by
  simp [hartTag, hartSetTag]
theorem hartTag_hartSetTag_other (h : Hart) {r q : Nat} (n : Nat) (hq : q ≠ r) : hartTag (hartSetTag h r n) q = hartTag h q := by
  simp [hartTag, hartSetTag, aget_aputC_other _ _ _ _ hq]
theorem hartV_hartSetV (h : Hart) (r n : Nat) : hartV (hartSetV h r n) r = n % 2 ^ 32768 := by
  unfold hartV hartSetV
  rw [aget_aputC_same]
  exact BitVec.toNat_ofNat ..
theorem hartV_hartSetV_other (h : Hart) {r q : Nat} (n : Nat) (hq : q ≠ r) : hartV (hartSetV h r n) q = hartV h q := by
  simp [hartV, hartSetV, aget_aputC_other _ _ _ _ hq]

end Sys2Proof.Machine
end

