-- ==== Sys2Proof/Tests/Slice0.lean ====
section
/-! SUPPORT. Tests: words written out by hand from the encodings of spec/05 and of the RISC-V manual, terms that the well-formedness check
refuses, and for the obligations concrete states that meet their hypotheses together. Expected results come from the spec's tables. -/

namespace Sys2Proof.Tests
open Sys2Proof.Machine

set_option maxRecDepth 16000

/-! ### Decoding -/

/-- Words laid out by hand after spec/05 R81, Table 5-3. -/
theorem test_decode_vector_integer_1 :
    decode 0x0354838B = .ok (.vaddVv 1 21 9 7) ∧
    decode 0x04D21E8B = .ok (.vaddVx 2 13 4 29) ∧
    decode 0x052FA88B = .ok (.vaddVi 2 18 31 17) ∧
    decode 0x0BFA868B = .ok (.vsubVv 1 31 21 13) ∧
    decode 0x0A25970B = .ok (.vsubVx 1 2 11 14) ∧
    decode 0x0C3D210B = .ok (.vsubVi 2 3 26 2) ∧
    decode 0x158E858B = .ok (.vmulVv 2 24 29 11) ∧
    decode 0x15E9980B = .ok (.vmulVx 2 30 19 16) ∧
    decode 0x131AA10B = .ok (.vmulVi 1 17 21 2) ∧
    decode 0x1D7DC58B = .ok (.vmulhVv 2 23 27 true 11) ∧
    decode 0x1E425B0B = .ok (.vmulhVx 3 4 4 true 22) ∧
    decode 0x2587848B = .ok (.vmaccVv 2 24 15 9) ∧
    decode 0x23C7988B = .ok (.vmaccVx 1 28 15 17) ∧
    decode 0x27DCA08B = .ok (.vmaccVi 3 29 25 1) ∧
    decode 0x2F85438B = .ok (.vminVv 3 24 10 true 7) ∧
    decode 0x2F6A1A0B = .ok (.vminVx 3 22 20 false 20) ∧
    decode 0x2B23AB8B = .ok (.vminVi 1 18 7 false 23) ∧
    decode 0x3620878B = .ok (.vmaxVv 3 2 1 false 15) ∧
    decode 0x35B31A0B = .ok (.vmaxVx 2 27 6 false 20) ∧
    decode 0x378E6E0B = .ok (.vmaxVi 3 24 28 true 28) := by
  decide

/-- Words laid out by hand after spec/05 R81, Table 5-3. -/
theorem test_decode_vector_integer_2 :
    decode 0x3D1A0B8B = .ok (.vandVv 2 17 20 23) ∧
    decode 0x3A869B8B = .ok (.vandVx 1 8 13 23) ∧
    decode 0x3F672E8B = .ok (.vandVi 3 22 14 29) ∧
    decode 0x4519898B = .ok (.vorVv 2 17 19 19) ∧
    decode 0x44DE1C0B = .ok (.vorVx 2 13 28 24) ∧
    decode 0x4734A58B = .ok (.vorVi 3 19 9 11) ∧
    decode 0x4E258D8B = .ok (.vxorVv 3 2 11 27) ∧
    decode 0x4B8D120B = .ok (.vxorVx 1 24 26 4) ∧
    decode 0x4D022E0B = .ok (.vxorVi 2 16 4 28) ∧
    decode 0x573A850B = .ok (.vshlVv 3 19 21 10) ∧
    decode 0x557B198B = .ok (.vshlVx 2 23 22 19) ∧
    decode 0x52EBA98B = .ok (.vshlVi 1 14 23 19) ∧
    decode 0x5E134C8B = .ok (.vshrVv 3 1 6 true 25) ∧
    decode 0x5F5A5B8B = .ok (.vshrVx 3 21 20 true 23) ∧
    decode 0x5A7A680B = .ok (.vshrVi 1 7 20 true 16) := by
  decide

/-- Words laid out by hand after spec/05 R81, Table 5-3. -/
theorem test_decode_vector_compare_to_reduce :
    decode 0x65144E0B = .ok (.vcmpVv 2 17 8 true .le 4) ∧
    decode 0x64BC9B0B = .ok (.vcmpVx 2 11 25 false .lt 6) ∧
    decode 0x65446F8B = .ok (.vcmpVi 2 20 8 true .le 7) ∧
    decode 0x6ABC848B = .ok (.vselVv 1 11 25 9) ∧
    decode 0x6A35118B = .ok (.vselVx 1 3 10 3) ∧
    decode 0x6BCF288B = .ok (.vselVi 1 28 30 17) ∧
    decode 0x73C8040B = .ok (.vclipVv 1 28 16 false 8) ∧
    decode 0x76889B0B = .ok (.vclipVx 3 8 17 false 22) ∧
    decode 0x7510E30B = .ok (.vclipVi 2 17 1 true 6) ∧
    decode 0x7B01A08B = .ok (.vwcvt 1 16 .w64 false 1) ∧
    decode 0x83C1A60B = .ok (.vredi 1 28 .minu 12) := by
  decide

/-- Words laid out by hand after spec/05 R81, Table 5-3. -/
theorem test_decode_vector_move :
    decode 0x8F731A0B = .ok (.vslupVx 3 23 6 20) ∧
    decode 0x8F54AE8B = .ok (.vslupVi 3 21 9 29) ∧
    decode 0x93D2110B = .ok (.vsldnVx 1 29 4 2) ∧
    decode 0x930CA10B = .ok (.vsldnVi 1 16 25 2) ∧
    decode 0x9F0C080B = .ok (.vperm 3 16 24 16) ∧
    decode 0xA6C0A68B = .ok (.vcmpr 3 12 1 13) ∧
    decode 0xAF22210B = .ok (.vxpnd 3 18 4 2) ∧
    decode 0xB400AE0B = .ok (.viota 2 1 28) ∧
    decode 0xBC08138B = .ok (.vbcstVx 2 16 7) ∧
    decode 0xBC02A28B = .ok (.vbcstVi 2 5 5) ∧
    decode 0xC0D04F0B = .ok (.vmvxs 13 true 30) ∧
    decode 0xC80C940B = .ok (.vmvsx 25 8) ∧
    decode 0xD64F4E0B = .ok (.vscan 3 4 30 true 28) := by
  decide

/-- Words laid out by hand after spec/05 R81, Table 5-3. -/
theorem test_decode_predicates :
    decode 0xDC23728B = .ok (.plog 2 2 6 .xnor 5) ∧
    decode 0xE400820B = .ok (.pbrk 2 1 false 4) ∧
    decode 0xEA038C8B = .ok (.pcnt 1 7 25) ∧
    decode 0xEE00950B = .ok (.pfirst 3 1 10) ∧
    decode 0xF600B18B = .ok (.pset 3 1 .bits 3) ∧
    decode 0xFE030C8B = .ok (.pmovToVector 3 6 25) ∧
    decode 0xFC80130B = .ok (.pmovToPredicate 2 8 6) := by
  decide

/-- Words laid out by hand after spec/05 R83, Table 5-4. -/
theorem test_decode_vector_float_1 :
    decode 0x0598072B = .ok (.vfaddVv 2 25 16 14) ∧
    decode 0x058A9D2B = .ok (.vfaddVf 2 24 21 26) ∧
    decode 0x06B226AB = .ok (.vfaddVx 3 11 4 13) ∧
    decode 0x0E998B2B = .ok (.vfsubVv 3 9 19 22) ∧
    decode 0x0C909F2B = .ok (.vfsubVf 2 9 1 30) ∧
    decode 0x0E80A12B = .ok (.vfsubVx 3 8 1 2) ∧
    decode 0x16F189AB = .ok (.vfmulVv 3 15 3 19) ∧
    decode 0x13CF972B = .ok (.vfmulVf 1 28 31 14) ∧
    decode 0x12632A2B = .ok (.vfmulVx 1 6 6 20) ∧
    decode 0x1A3802AB = .ok (.vfmaVv 1 3 16 false 5) ∧
    decode 0x1D1E5EAB = .ok (.vfmaVf 2 17 28 true 29) ∧
    decode 0x1AAF67AB = .ok (.vfmaVx 1 10 30 true 15) ∧
    decode 0x26E70FAB = .ok (.vfminVv 3 14 14 31) ∧
    decode 0x252619AB = .ok (.vfminVf 2 18 12 19) ∧
    decode 0x2313A82B = .ok (.vfminVx 1 17 7 16) ∧
    decode 0x2F1587AB = .ok (.vfmaxVv 3 17 11 15) ∧
    decode 0x2BF6982B = .ok (.vfmaxVf 1 31 13 16) ∧
    decode 0x2A13A22B = .ok (.vfmaxVx 1 1 7 4) ∧
    decode 0x36DE0BAB = .ok (.vfdivVv 3 13 28 23) ∧
    decode 0x34B81BAB = .ok (.vfdivVf 2 11 16 23) := by
  decide

/-- Words laid out by hand after spec/05 R83, Table 5-4. -/
theorem test_decode_vector_float_2 :
    decode 0x338C2AAB = .ok (.vfdivVx 1 24 24 21) := by
  decide

/-- Words laid out by hand after spec/05 R83, Table 5-4. -/
theorem test_decode_vector_float_rest :
    decode 0x3CF00E2B = .ok (.vfsqrt 2 15 28) ∧
    decode 0x468005AB = .ok (.vfrsqe 3 8 11) ∧
    decode 0x4CF00D2B = .ok (.vfexp2e 2 15 26) ∧
    decode 0x550D85AB = .ok (.vfcmpVv 2 16 27 .lt 3) ∧
    decode 0x54D59B2B = .ok (.vfcmpVf 2 13 11 .le 6) ∧
    decode 0x5779ACAB = .ok (.vfcmpVx 3 23 19 .un 1) ∧
    decode 0x5B208CAB = .ok (.vfsgn 1 18 .neg 25) ∧
    decode 0x641A58AB = .ok (.vfcvt 2 1 .pe3 .sr 17) ∧
    decode 0x6A810C2B = .ok (.vredf 1 8 .min .rne 24) ∧
    decode 0x70200C2B = .ok (.vtagg 2 24) ∧
    decode 0x7804AA2B = .ok (.vtags 9 20) := by
  decide

/-- Words laid out by hand after spec/05 R83, Tables 5-2 and 5-4. -/
theorem test_decode_set_length :
    decode 0x81BF082B = .ok (.vsetvl 27 30 16) ∧
    decode 0x3B5EF92B = .ok (.vsetvli 949 29 18) := by
  decide

/-- Words laid out by hand after spec/05 R85, Table 5-5. -/
theorem test_decode_vector_memory :
    decode 0x060D5DDB = .ok (.vld 3 26 true true 27) ∧
    decode 0x0FF1565B = .ok (.vlds 3 31 2 true true 12) ∧
    decode 0x170BACDB = .ok (.vldx 3 16 23 false true 25) ∧
    decode 0x1843015B = .ok (.vldsr 4 6 2) ∧
    decode 0x26058EDB = .ok (.vst 3 11 false 29) ∧
    decode 0x2ECA8CDB = .ok (.vsts 3 12 21 false 25) ∧
    decode 0x378325DB = .ok (.vstx 3 24 6 true 11) ∧
    decode 0x3C4CCFDB = .ok (.vamo 2 4 25 .minu 31) ∧
    decode 0x47C5A3DB = .ok (.vred 3 28 11 .min 7) := by
  decide

/-- Words laid out by hand after spec/05 R85, Table 5-5. -/
theorem test_decode_copies_and_streams :
    decode 0x492587DB = .ok (.cpy 18 11 false 15) ∧
    decode 0x484A1B5B = .ok (.cpys 4 20 false false 22) ∧
    decode 0x5000005B = .ok (.cpyw) ∧
    decode 0x5866805B = .ok (.sqcmd 6 13) ∧
    decode 0x60300F5B = .ok (.sqwait 3 30) := by
  decide

/-- Words laid out by hand after spec/05 R86, Table 5-6. -/
theorem test_decode_matrix :
    decode 0x08F40A7B = .ok (.mma 2 1 7 8 20) ∧
    decode 0x2D50067B = .ok (.mmaTile 3 2 5 0 12) ∧
    decode 0x45440A7B = .ok (.mmas 1 2 4 8 20) ∧
    decode 0x6D12067B = .ok (.mmasTile 3 2 1 4 12) ∧
    decode 0x8040007B = .ok (.mzero 4) ∧
    decode 0xA8170C7B = .ok (.mrda 2 1 14 24) ∧
    decode 0xC8788C7B = .ok (.mwra 2 7 17 24) ∧
    decode 0xE017807B = .ok (.mtcw 1 15) := by
  decide

/-- Words laid out by hand after spec/05 R87, Table 5-7. -/
theorem test_decode_chains_and_queues :
    decode 0x001F907B = .ok (.chcfg 1 31) ∧
    decode 0x0228907B = .ok (.chaim 2 17) ∧
    decode 0x043F107B = .ok (.chrun 3 30) ∧
    decode 0x0620147B = .ok (.chwait 2 8) ∧
    decode 0x0830127B = .ok (.chst 3 4) ∧
    decode 0x0A30107B = .ok (.chdrn 3) ∧
    decode 0x0C20107B = .ok (.chbrk 2) ∧
    decode 0x0E29907B = .ok (.chsav 2 19) ∧
    decode 0x1011907B = .ok (.chld 1 3) ∧
    decode 0x2075107B = .ok (.qpush 7 10) ∧
    decode 0x2250187B = .ok (.qpop 5 16) ∧
    decode 0x24601EFB = .ok (.qpeek 6 29) ∧
    decode 0x26C01BFB = .ok (.qstat 12 23) := by
  decide

/-- Words laid out by hand after spec/05 R87, Tables 5-7 and 5-8. -/
theorem test_decode_synchronization :
    decode 0x01A62D7B = .ok (.acq .bank .try 12 26) ∧
    decode 0x02CE207B = .ok (.rel .die 28) ∧
    decode 0x0415A5FB = .ok (.bindr 1 11 11) ∧
    decode 0x060C207B = .ok (.unbindr 24) ∧
    decode 0x08A0207B = .ok (.fencex .gang .rel) ∧
    decode 0x0A16207B = .ok (.bari 1 12) ∧
    decode 0x0C1027FB = .ok (.bara false 1 15) ∧
    decode 0x0E68207B = .ok (.barw true 2 16) ∧
    decode 0x1030277B = .ok (.baraw false 3 14) ∧
    decode 0x1203207B = .ok (.monarm 6) ∧
    decode 0x140AACFB = .ok (.mwait 21 25) ∧
    decode 0x1610207B = .ok (.bfence true) := by
  decide

/-- Words laid out by hand after spec/05 R87, Table 5-7. -/
theorem test_decode_futures_and_rings :
    decode 0x0001307B = .ok (.futinit 2) ∧
    decode 0x025738FB = .ok (.futrd 5 14 17) ∧
    decode 0x05FCB07B = .ok (.futwr 31 25) ∧
    decode 0x0607B9FB = .ok (.futqry 15 19) ∧
    decode 0x0803307B = .ok (.tspawn 6) ∧
    decode 0x0A003EFB = .ok (.tnext false 29) ∧
    decode 0x0C08B07B = .ok (.msgring 17) ∧
    decode 0x0FA5B5FB = .ok (.msgsnd 26 11 11) ∧
    decode 0x11CEB2FB = .ok (.msgrcv 28 29 5) ∧
    decode 0x123BB07B = .ok (.evqcfg 3 23) ∧
    decode 0x143034FB = .ok (.evqpop 3 9) := by
  decide

/-- Words laid out by hand after spec/05 R87, Table 5-7. -/
theorem test_decode_banks_and_system :
    decode 0x000DC07B = .ok (.bcmd 27) ∧
    decode 0x03ADCE7B = .ok (.bgax 26 27 28) ∧
    decode 0x04A5407B = .ok (.pklcfg 10 10) ∧
    decode 0x06AFC8FB = .ok (.pklq 10 31 17) ∧
    decode 0x0818CA7B = .ok (.pklget true 17 20) ∧
    decode 0x0030507B = .ok (.lpart 3) ∧
    decode 0x0200507B = .ok (.ctxsv) ∧
    decode 0x0400507B = .ok (.ctxld) ∧
    decode 0x06FAD5FB = .ok (.tlbir 15 21 11) ∧
    decode 0x0800507B = .ok (.tlbsync) ∧
    decode 0x0A48D07B = .ok (.splp 4 17) ∧
    decode 0x0C2059FB = .ok (.splr 2 19) := by
  decide

/-- RISC-V words, laid out after the formats of the unprivileged ISA that spec/05 R77 incorporates. -/
theorem test_decode_jumps_and_immediates_1 :
    decode 0x123453B7 = .ok (.baseIsaInstruction (.lui 7 0x12345)) ∧
    decode 0xFEDCB417 = .ok (.baseIsaInstruction (.auipc 8 0xFEDCB)) ∧
    decode 0xFFCFF0EF = .ok (.baseIsaInstruction (.jal 1 1047550)) ∧
    decode 0xFF828367 = .ok (.baseIsaInstruction (.jalr 6 5 4088)) ∧
    decode 0x00AA04E3 = .ok (.baseIsaInstruction (.branch .beq 20 10 1028)) ∧
    decode 0xFEB99EE3 = .ok (.baseIsaInstruction (.branch .bne 19 11 4094)) ∧
    decode 0x00C94E63 = .ok (.baseIsaInstruction (.branch .blt 18 12 14)) ∧
    decode 0xFED8DE63 = .ok (.baseIsaInstruction (.branch .bge 17 13 3070)) ∧
    decode 0x04E86063 = .ok (.baseIsaInstruction (.branch .bltu 16 14 32)) ∧
    decode 0x7EF7FEE3 = .ok (.baseIsaInstruction (.branch .bgeu 15 15 2046)) ∧
    decode 0xFFD18493 = .ok (.baseIsaInstruction (.opImm .addi 9 3 4093)) ∧
    decode 0xFFC22513 = .ok (.baseIsaInstruction (.opImm .slti 10 4 4092)) ∧
    decode 0xFFB2B593 = .ok (.baseIsaInstruction (.opImm .sltiu 11 5 4091)) ∧
    decode 0xFFA34613 = .ok (.baseIsaInstruction (.opImm .xori 12 6 4090)) ∧
    decode 0xFF93E693 = .ok (.baseIsaInstruction (.opImm .ori 13 7 4089)) ∧
    decode 0xFF847713 = .ok (.baseIsaInstruction (.opImm .andi 14 8 4088)) ∧
    decode 0x02921293 = .ok (.baseIsaInstruction (.shImm .slli 5 4 41)) ∧
    decode 0x02A25313 = .ok (.baseIsaInstruction (.shImm .srli 6 4 42)) ∧
    decode 0x42B25393 = .ok (.baseIsaInstruction (.shImm .srai 7 4 43)) ∧
    decode 0x62C25413 = .ok (.baseIsaInstruction (.shImm .rori 8 4 44)) := by
  decide

/-- RISC-V words, laid out after the formats of the unprivileged ISA that spec/05 R77 incorporates. -/
theorem test_decode_jumps_and_immediates_2 :
    decode 0x0AD2149B = .ok (.baseIsaInstruction (.shImm .slliUw 9 4 45)) ∧
    decode 0xF9C2049B = .ok (.baseIsaInstruction (.addiw 9 4 3996)) ∧
    decode 0x0152129B = .ok (.baseIsaInstruction (.shImmW .slliw 5 4 21)) ∧
    decode 0x0162529B = .ok (.baseIsaInstruction (.shImmW .srliw 5 4 22)) ∧
    decode 0x4172529B = .ok (.baseIsaInstruction (.shImmW .sraiw 5 4 23)) ∧
    decode 0x6182529B = .ok (.baseIsaInstruction (.shImmW .roriw 5 4 24)) := by
  decide

/-- RISC-V words, laid out after the formats of the unprivileged ISA that spec/05 R77 incorporates. -/
theorem test_decode_integer_registers_1 :
    decode 0x01F080B3 = .ok (.baseIsaInstruction (.op .add 1 1 31)) ∧
    decode 0x41E10433 = .ok (.baseIsaInstruction (.op .sub 8 2 30)) ∧
    decode 0x01D197B3 = .ok (.baseIsaInstruction (.op .sll 15 3 29)) ∧
    decode 0x01C22B33 = .ok (.baseIsaInstruction (.op .slt 22 4 28)) ∧
    decode 0x01B2BEB3 = .ok (.baseIsaInstruction (.op .sltu 29 5 27)) ∧
    decode 0x01A342B3 = .ok (.baseIsaInstruction (.op .xor 5 6 26)) ∧
    decode 0x0193D633 = .ok (.baseIsaInstruction (.op .srl 12 7 25)) ∧
    decode 0x418459B3 = .ok (.baseIsaInstruction (.op .sra 19 8 24)) ∧
    decode 0x0174ED33 = .ok (.baseIsaInstruction (.op .or 26 9 23)) ∧
    decode 0x01657133 = .ok (.baseIsaInstruction (.op .and 2 10 22)) ∧
    decode 0x035584B3 = .ok (.baseIsaInstruction (.op .mul 9 11 21)) ∧
    decode 0x03461833 = .ok (.baseIsaInstruction (.op .mulh 16 12 20)) ∧
    decode 0x0336ABB3 = .ok (.baseIsaInstruction (.op .mulhsu 23 13 19)) ∧
    decode 0x03273F33 = .ok (.baseIsaInstruction (.op .mulhu 30 14 18)) ∧
    decode 0x0317C333 = .ok (.baseIsaInstruction (.op .div 6 15 17)) ∧
    decode 0x030856B3 = .ok (.baseIsaInstruction (.op .divu 13 16 16)) ∧
    decode 0x02F8EA33 = .ok (.baseIsaInstruction (.op .rem 20 17 15)) ∧
    decode 0x02E97DB3 = .ok (.baseIsaInstruction (.op .remu 27 18 14)) ∧
    decode 0x20D9A1B3 = .ok (.baseIsaInstruction (.op .sh1add 3 19 13)) ∧
    decode 0x20CA4533 = .ok (.baseIsaInstruction (.op .sh2add 10 20 12)) := by
  decide

/-- RISC-V words, laid out after the formats of the unprivileged ISA that spec/05 R77 incorporates. -/
theorem test_decode_integer_registers_2 :
    decode 0x20BAE8B3 = .ok (.baseIsaInstruction (.op .sh3add 17 21 11)) ∧
    decode 0x40AB7C33 = .ok (.baseIsaInstruction (.op .andn 24 22 10)) ∧
    decode 0x409BEFB3 = .ok (.baseIsaInstruction (.op .orn 31 23 9)) ∧
    decode 0x408C43B3 = .ok (.baseIsaInstruction (.op .xnor 7 24 8)) ∧
    decode 0x0A7CE733 = .ok (.baseIsaInstruction (.op .max 14 25 7)) ∧
    decode 0x0A6D7AB3 = .ok (.baseIsaInstruction (.op .maxu 21 26 6)) ∧
    decode 0x0A5DCE33 = .ok (.baseIsaInstruction (.op .min 28 27 5)) ∧
    decode 0x0A4E5233 = .ok (.baseIsaInstruction (.op .minu 4 28 4)) ∧
    decode 0x603E95B3 = .ok (.baseIsaInstruction (.op .rol 11 29 3)) ∧
    decode 0x602F5933 = .ok (.baseIsaInstruction (.op .ror 18 30 2)) ∧
    decode 0x01F080BB = .ok (.baseIsaInstruction (.opW .addw 1 1 31)) ∧
    decode 0x41E1033B = .ok (.baseIsaInstruction (.opW .subw 6 2 30)) ∧
    decode 0x01D195BB = .ok (.baseIsaInstruction (.opW .sllw 11 3 29)) ∧
    decode 0x01C2583B = .ok (.baseIsaInstruction (.opW .srlw 16 4 28)) ∧
    decode 0x41B2DABB = .ok (.baseIsaInstruction (.opW .sraw 21 5 27)) ∧
    decode 0x03A30D3B = .ok (.baseIsaInstruction (.opW .mulw 26 6 26)) ∧
    decode 0x0393CFBB = .ok (.baseIsaInstruction (.opW .divw 31 7 25)) ∧
    decode 0x038452BB = .ok (.baseIsaInstruction (.opW .divuw 5 8 24)) ∧
    decode 0x0374E53B = .ok (.baseIsaInstruction (.opW .remw 10 9 23)) ∧
    decode 0x036577BB = .ok (.baseIsaInstruction (.opW .remuw 15 10 22)) := by
  decide

/-- RISC-V words, laid out after the formats of the unprivileged ISA that spec/05 R77 incorporates. -/
theorem test_decode_integer_registers_3 :
    decode 0x09558A3B = .ok (.baseIsaInstruction (.opW .addUw 20 11 21)) ∧
    decode 0x21462CBB = .ok (.baseIsaInstruction (.opW .sh1addUw 25 12 20)) ∧
    decode 0x2136CF3B = .ok (.baseIsaInstruction (.opW .sh2addUw 30 13 19)) ∧
    decode 0x2127623B = .ok (.baseIsaInstruction (.opW .sh3addUw 4 14 18)) ∧
    decode 0x611794BB = .ok (.baseIsaInstruction (.opW .rolw 9 15 17)) ∧
    decode 0x6108573B = .ok (.baseIsaInstruction (.opW .rorw 14 16 16)) ∧
    decode 0x60061593 = .ok (.baseIsaInstruction (.unary .clz 11 12)) ∧
    decode 0x60161593 = .ok (.baseIsaInstruction (.unary .ctz 11 12)) ∧
    decode 0x60261593 = .ok (.baseIsaInstruction (.unary .cpop 11 12)) ∧
    decode 0x6006159B = .ok (.baseIsaInstruction (.unary .clzw 11 12)) ∧
    decode 0x6016159B = .ok (.baseIsaInstruction (.unary .ctzw 11 12)) ∧
    decode 0x6026159B = .ok (.baseIsaInstruction (.unary .cpopw 11 12)) ∧
    decode 0x60461593 = .ok (.baseIsaInstruction (.unary .sextB 11 12)) ∧
    decode 0x60561593 = .ok (.baseIsaInstruction (.unary .sextH 11 12)) ∧
    decode 0x080645BB = .ok (.baseIsaInstruction (.unary .zextH 11 12)) ∧
    decode 0x28765593 = .ok (.baseIsaInstruction (.unary .orcB 11 12)) ∧
    decode 0x6B865593 = .ok (.baseIsaInstruction (.unary .rev8 11 12)) := by
  decide

/-- RISC-V words, laid out after the formats of the unprivileged ISA that spec/05 R77 incorporates. -/
theorem test_decode_scalar_memory_and_system_1 :
    decode 0xFF048A03 = .ok (.scalarLoad .lb 20 9 4080) ∧
    decode 0xFF149A03 = .ok (.scalarLoad .lh 20 9 4081) ∧
    decode 0xFF24AA03 = .ok (.scalarLoad .lw 20 9 4082) ∧
    decode 0xFF34BA03 = .ok (.scalarLoad .ld 20 9 4083) ∧
    decode 0xFF44CA03 = .ok (.scalarLoad .lbu 20 9 4084) ∧
    decode 0xFF54DA03 = .ok (.scalarLoad .lhu 20 9 4085) ∧
    decode 0xFF64EA03 = .ok (.scalarLoad .lwu 20 9 4086) ∧
    decode 0xFF24AA07 = .ok (.scalarLoad .flw 20 9 4082) ∧
    decode 0xFF34BA07 = .ok (.scalarLoad .fld 20 9 4083) ∧
    decode 0xC1548C23 = .ok (.scalarStore .sb 21 9 3096) ∧
    decode 0xC1549CA3 = .ok (.scalarStore .sh 21 9 3097) ∧
    decode 0xC154AD23 = .ok (.scalarStore .sw 21 9 3098) ∧
    decode 0xC154BDA3 = .ok (.scalarStore .sd 21 9 3099) ∧
    decode 0xC154AD27 = .ok (.scalarStore .fsw 21 9 3098) ∧
    decode 0xC154BDA7 = .ok (.scalarStore .fsd 21 9 3099) ∧
    decode 0x011929AF = .ok (.scalarAmo .add false false false 19 18 17) ∧
    decode 0x091939AF = .ok (.scalarAmo .swap true false false 19 18 17) ∧
    decode 0x251929AF = .ok (.scalarAmo .xor false true false 19 18 17) ∧
    decode 0x451939AF = .ok (.scalarAmo .or true true false 19 18 17) ∧
    decode 0x631929AF = .ok (.scalarAmo .and false false true 19 18 17) := by
  decide

/-- RISC-V words, laid out after the formats of the unprivileged ISA that spec/05 R77 incorporates. -/
theorem test_decode_scalar_memory_and_system_2 :
    decode 0x831939AF = .ok (.scalarAmo .min true false true 19 18 17) ∧
    decode 0xA71929AF = .ok (.scalarAmo .max false true true 19 18 17) ∧
    decode 0xC71939AF = .ok (.scalarAmo .minu true true true 19 18 17) ∧
    decode 0xE11929AF = .ok (.scalarAmo .maxu false false false 19 18 17) ∧
    decode 0x140939AF = .ok (.lr true true false 19 18) ∧
    decode 0x1B1929AF = .ok (.sc false false true 19 18 17) ∧
    decode 0x8330000F = .ok (.fence 8 3 3) ∧
    decode 0x0FF0000F = .ok (.fence 0 15 15) ∧
    decode 0x0000100F = .ok (.fenceI) ∧
    decode 0x12B50073 = .ok (.sfenceVma 10 11) ∧
    decode 0x00000073 = .ok (.ecall) ∧
    decode 0x301312F3 = .ok (.csrAccess .rw false 769 5 6) ∧
    decode 0x141352F3 = .ok (.csrAccess .rw true 321 5 6) ∧
    decode 0x302322F3 = .ok (.csrAccess .rs false 770 5 6) ∧
    decode 0x142362F3 = .ok (.csrAccess .rs true 322 5 6) ∧
    decode 0x303332F3 = .ok (.csrAccess .rc false 771 5 6) ∧
    decode 0x143372F3 = .ok (.csrAccess .rc true 323 5 6) ∧
    decode 0x00100073 = .ok (.baseIsaInstruction .ebreak) ∧
    decode 0x30200073 = .ok (.baseIsaInstruction .mret) ∧
    decode 0x10200073 = .ok (.baseIsaInstruction .sret) := by
  decide

/-- RISC-V words, laid out after the formats of the unprivileged ISA that spec/05 R77 incorporates. -/
theorem test_decode_scalar_memory_and_system_3 :
    decode 0x10500073 = .ok (.baseIsaInstruction .wfi) ∧
    decode 0x0100000F = .ok (.hint 0x0100000F) ∧
    decode 0x00500013 = .ok (.hint 0x00500013) ∧
    decode 0x00000013 = .ok (.baseIsaInstruction (.opImm .addi 0 0 0)) := by
  decide

/-- RISC-V words, laid out after the formats of the unprivileged ISA that spec/05 R77 incorporates. -/
theorem test_decode_float_1 :
    decode 0xD8428343 = .ok (.baseIsaInstruction (.fma .madd .s 6 5 4 27 0)) ∧
    decode 0xDA429347 = .ok (.baseIsaInstruction (.fma .msub .d 6 5 4 27 1)) ∧
    decode 0xD842A34B = .ok (.baseIsaInstruction (.fma .nmsub .s 6 5 4 27 2)) ∧
    decode 0xDA42B34F = .ok (.baseIsaInstruction (.fma .nmadd .d 6 5 4 27 3)) ∧
    decode 0x0242F353 = .ok (.baseIsaInstruction (.farith .add .d 6 5 4 7)) ∧
    decode 0x0842F353 = .ok (.baseIsaInstruction (.farith .sub .s 6 5 4 7)) ∧
    decode 0x1242F353 = .ok (.baseIsaInstruction (.farith .mul .d 6 5 4 7)) ∧
    decode 0x1842F353 = .ok (.baseIsaInstruction (.farith .div .s 6 5 4 7)) ∧
    decode 0x5A02C353 = .ok (.baseIsaInstruction (.fsqrt .d 6 5 4)) ∧
    decode 0x20428353 = .ok (.baseIsaInstruction (.fmisc .sgnj .s 6 5 4)) ∧
    decode 0x20429353 = .ok (.baseIsaInstruction (.fmisc .sgnjn .s 6 5 4)) ∧
    decode 0x2242A353 = .ok (.baseIsaInstruction (.fmisc .sgnjx .d 6 5 4)) ∧
    decode 0x28428353 = .ok (.baseIsaInstruction (.fmisc .min .s 6 5 4)) ∧
    decode 0x2A429353 = .ok (.baseIsaInstruction (.fmisc .max .d 6 5 4)) ∧
    decode 0xA042A353 = .ok (.baseIsaInstruction (.fcmp .eq .s 6 5 4)) ∧
    decode 0xA2429353 = .ok (.baseIsaInstruction (.fcmp .lt .d 6 5 4)) ∧
    decode 0xA0428353 = .ok (.baseIsaInstruction (.fcmp .le .s 6 5 4)) ∧
    decode 0xE0029353 = .ok (.baseIsaInstruction (.fclass .s 6 5)) ∧
    decode 0xE2028353 = .ok (.baseIsaInstruction (.fmvToX .d 6 5)) ∧
    decode 0xF0028353 = .ok (.baseIsaInstruction (.fmvFromX .s 6 5)) := by
  decide

/-- RISC-V words, laid out after the formats of the unprivileged ISA that spec/05 R77 incorporates. -/
theorem test_decode_float_2 :
    decode 0x4012F353 = .ok (.baseIsaInstruction (.fcvtFF .s 6 5 7)) ∧
    decode 0x42028353 = .ok (.baseIsaInstruction (.fcvtFF .d 6 5 0)) ∧
    decode 0xC0029353 = .ok (.baseIsaInstruction (.fcvtToInt .w .s 6 5 1)) ∧
    decode 0xD202A353 = .ok (.baseIsaInstruction (.fcvtFromInt .w .d 6 5 2)) ∧
    decode 0xC2129353 = .ok (.baseIsaInstruction (.fcvtToInt .wu .d 6 5 1)) ∧
    decode 0xD012A353 = .ok (.baseIsaInstruction (.fcvtFromInt .wu .s 6 5 2)) ∧
    decode 0xC0229353 = .ok (.baseIsaInstruction (.fcvtToInt .l .s 6 5 1)) ∧
    decode 0xD222A353 = .ok (.baseIsaInstruction (.fcvtFromInt .l .d 6 5 2)) ∧
    decode 0xC2329353 = .ok (.baseIsaInstruction (.fcvtToInt .lu .d 6 5 1)) ∧
    decode 0xD032A353 = .ok (.baseIsaInstruction (.fcvtFromInt .lu .s 6 5 2)) := by
  decide

/-! ### Ill-formed terms -/

/-- Terms that no word stands for are refused: target formats of VFCVT, a rounding mode of VREDF, the words of hints, reserved rounding
fields, and a legal word called illegal. -/
theorem test_ill_formed_words_are_refused :
    (Instr.vfcvt 0 4 .scw .rne 8).wellFormed = false ∧ (Instr.vfcvt 0 4 .raw .rne 8).wellFormed = false ∧
    (Instr.vredf 0 4 .max .rtz 8).wellFormed = false ∧ (Instr.vredf 0 4 .sum .rtz 8).wellFormed = true ∧
    (Instr.fence 0 0 15).wellFormed = false ∧ (Instr.fence 0 15 0).wellFormed = false ∧ (Instr.fence 8 3 3).wellFormed = true ∧
    (Instr.hint 0x00A28293).wellFormed = false ∧ (Instr.hint 0x0100000F).wellFormed = true ∧
    (Instr.baseIsaInstruction (.farith .add .s 1 2 3 5)).wellFormed = false ∧
    (Instr.baseIsaInstruction (.fma .madd .d 1 2 3 4 6)).wellFormed = false ∧
    (Instr.baseIsaInstruction (.fsqrt .d 1 2 5)).wellFormed = false ∧
    (Instr.baseIsaInstruction (.fcvtToInt .w .d 1 2 6)).wellFormed = false ∧
    (Instr.baseIsaInstruction (.fcvtFromInt .l .d 1 2 5)).wellFormed = false ∧
    (Instr.baseIsaInstruction (.fcvtFF .d 1 2 6)).wellFormed = false ∧
    (Instr.baseIsaInstruction (.opImm .addi 0 0 5)).wellFormed = false ∧
    (Instr.baseIsaInstruction (.opImm .addi 1 0 5)).wellFormed = true ∧
    (Instr.illegalInstruction 0x00A28293).wellFormed = false ∧ (Instr.illegalInstruction 0).wellFormed = true := by
  decide

/-- Events of agents that do not exist are refused (spec/01 R10, R11): harts below 3,072, cores below 384, nodes below 32, banks below
6,144, four management cores. -/
theorem test_ill_formed_agents_are_refused :
    (∀ i ∈ [Instr.asyncInterrupt 3072, .watchdogExpiry 3072, .grantChange 3072 4, .mwaitWake 3072, .barrierWaitReturn 3072,
      .invalidationComplete 3072, .gangEnd 3072, .bindRecordPublish 3072, .gangStart 3072, .preemptRequest 3072 0,
      .preemptQuiesced 3072, .schedulingQuantum 3072, .priorityAging 3072, .debugHalt 3072, .debugResume 3072, .debugSingleStep 3072,
      .debugAbstractCommand 3072 (.x 1) false 0, .debugProgramBuffer 3072 0x13, .thermalGrantLimit 3072 4,
      .matrixInstructionComplete 384, .copyStrip 384 0, .copyCompletion 384 0, .eventQueuePost 384 0, .streamStart 384 0,
      .streamTransfer 384 0, .vldsrRefill 384, .reductionUpdate 384, .chainFaultTimeout 384 0, .multicastDetach 384 0 0 0,
      .rollCallReport 384 0, .chainRunEnd 384 0, .temporalFiring 384 0, .bgaxSumArrival 384, .peerAck 384 0,
      .peerConnectionFail 384 0, .laneLinkDown 384 0], i.wellFormed = false) ∧
    (∀ f ∈ [Instr.stageFiring, .matrixNodePass, .memoryPortFiring, .addressGeneratorFiring, .sparseHeaderFiring, .filterFiring,
      .reductionTreeFiring, .laneLinkTransfer, .tailConfigAtNode, .checkpointMarkerAtNode, .bellAtNode, .boundStop],
      (f 384 0 0).wellFormed = false ∧ (f 0 0 32).wellFormed = false ∧ (f 383 3 31).wellFormed = true) ∧
    (∀ i ∈ [Instr.bauPiece 6144, .mgcHeartbeat 4, .mgcTakeover 4, .hostSliceFill (2 ^ 32) 0 0 0, .hostSliceFill 0 0 3 0,
      .uncorrectableError (.phys 0xC000000000), .uncorrectableError (.tile 384 0), .uncorrectableError (.tile 0 0x100000),
      .uncorrectableError (.sdm 384 0), .uncorrectableError (.sdm 0 0x10000), .uncorrectableError (.coreState 384),
      .uncorrectableError (.piece 6144 0), .uncorrectableError (.pkl 12), .uncorrectableError (.readout 384 0 0),
      .uncorrectableError (.readout 0 4 0), .uncorrectableError (.readout 0 0 32)], i.wellFormed = false) ∧
    (∀ i ∈ [Instr.asyncInterrupt 3071, .bauPiece 6143, .mgcHeartbeat 3, .hostSliceFill 7 0 2 0, .uncorrectableError (.phys 0x8000000000000),
      .uncorrectableError (.tile 383 0xFFFF8), .uncorrectableError (.pkl 11)], i.wellFormed = true) := by
  decide

/-- Words that no row of spec/05 Tables 5-1 to 5-8 allocates are refused: a reserved form, a bit that a row marks 0, reserved operations,
codes and limits, and encodings that are not 32 bits long. -/
theorem test_reserved_words_are_refused :
    ∀ w ∈ [0x0000300B, 0x0000400B, 0x1800200B, 0x7802200B, 0x8004200B, 0x8000000B, 0xB810100B, 0xC000808B, 0xD800040B, 0xE000200B,
      0xF000400B, 0x0000302B, 0x0000402B, 0x3800102B, 0x5802002B, 0x600F002B, 0x6002802B, 0x6800902B, 0x8800002B, 0x0010005B,
      0x0000205B, 0x1A00005B, 0x2000405B, 0x4800405B, 0x5080005B, 0x5900005B, 0x6800005B, 0x1800007B, 0x0300007B, 0x2028007B,
      0x8400007B, 0xA080007B, 0x0040107B, 0x1200107B, 0x2100107B, 0x0030207B, 0x01C0207B, 0x0610207B, 0x09C0207B, 0x0A40207B,
      0x1800207B, 0x1600307B, 0x04C0407B, 0x0A00407B, 0x0E00507B, 0x0000607B, 0x0000707B, 0x00000057, 0x00000007, 0x00000027,
      0x0000002F, 0x0440F053, 0x00000001, 0x0000001F, 0x62000073, 0], decodeTableWord 32 w = none := by
  decide

/-! ### Small states -/

/-- Hart 0 in M-mode at physical address 0, which holds a word (notes/assumptions/13). -/
def at0 (w : Nat) : State := State.reset.withFetchWord 32 w

/-- Hart 0 of a gang of one core in two partitions, in U-mode. -/
def seated (f : Hart → Hart) : State :=
  setGang (updCore (updHart (at0 0x13) 0 fun h => f { h with priv := .u, x := [(2, 0x0FFFF00000000040), (5, 7), (6, 7)] }) 0
    fun c => { c with gang := some 0, part := 2 }) 0 { part := 2, grant := 2, gb := [(1, 2)] }

/-- It under a vtype, with a vl, and registers v0 to v16 of one tag. -/
def vector (vtype tag vl : Nat) : State := seated fun h => { h with
  xc := { h.xc with vtype := BitVec.ofNat 64 vtype, vl := BitVec.ofNat 64 vl }
  v := [(4, 0x0000000300000002), (8, 0x4040000040000000)]
  tags := (List.range 17).map fun k => (k, BitVec.ofNat 8 tag) }

/-- What its vector instructions see, governed by p0. -/
def sees (s : State) (vl : Nat) (fmt : Fmt) (blk : Nat) : VEnv := ⟨me s, 16, vl, 0, 0, fmt, blk, 0⟩

/-- Under I32 and FP32. -/
def ints : State := vector 0x10 2 2
def floats : State := vector 0x48 9 2
def one32 : State := vector 0x10 2 1

/-- Its core has a page of key slot 5 at address 0, and a window of the tenant on it. -/
def paged : State :=
  let s := physWrite (seated id) 1 0x5000 8 (0x77 + 6 * 2 ^ 10 + 5 * 2 ^ 51)
  let s := updDie s 0 fun d => { d with pwc := [⟨0, 0, 0, 0, 0x5000⟩] }
  updIo s fun io => { io with keys := [(5, 1)], pwin := [(0, 0x7), (1, 0xFF000)], wkey := [(0, 5)] }

/-- Does an outcome go on? -/
def goes : Host.Outcome State Fault Refusal → Bool
  | .next _ => true
  | _ => false

/-! ### The hypotheses of the obligations are met -/

theorem witness_EncodingRoundTrip :
    (Instr.vfcvt 1 20 .e4m3 .rup 6).wellFormed = true ∧ encode (.vfcvt 1 20 .e4m3 .rup 6) = some 0x6346332B := by decide

theorem witness_XebinWordHasOneReading :
    (0x6346332B : IWord).toNat % 128 = 0x2B ∧ decode 0x6346332B = .ok (.vfcvt 1 20 .e4m3 .rup 6) := by decide

theorem witness_StepRunsTheDecodedInstruction :
    ((at0 0x00A28293).agenda = [.hart 0] ∧ canMove (at0 0x00A28293) 0 = true ∧ inDebug (hartOf (at0 0x00A28293) 0) = false ∧
      (hartOf (at0 0x00A28293) 0).park = none ∧ irqFor (at0 0x00A28293) 0 = none) ∧
    (∃ s1, fetch (Claim.turnOf (at0 0x00A28293) 0 []) = .ok (s1, 0x00A28293)) ∧
    decode 0x00A28293 = .ok (.baseIsaInstruction (.opImm .addi 5 5 10)) ∧
    (∃ s1, fetch (Claim.turnOf (at0 0) 0 []) = .ok (s1, 0)) ∧ (∃ e, decode 0 = .error e) ∧
    encode (.gangEnd 0) = none := by
  exact ⟨by decide, ⟨_, rfl⟩, by decide, ⟨_, rfl⟩, ⟨_, rfl⟩, by decide⟩

theorem witness_FetchReadsTheWord :
    (me (at0 0x13)).pc.toNat % 4 = 0 ∧ (me (at0 0x13)).priv = .m ∧ (me (at0 0x13)).pc.toNat < hbmEnd ∧
    (coreOf (at0 0x13) (myCore (at0 0x13))).icache.find? (iHit (hartCtx (at0 0x13) (at0 0x13).cur) 0) = none ∧
    keyId (at0 0x13) 8192 = 0 ∧ (me (updHart (at0 0x13) 0 fun h => { h with pc := 2 })).pc.toNat % 4 ≠ 0 := by decide
theorem witness_FetchReadsTheWord_no_poison (a : Nat) : poisonedAt (at0 0x13) a = false := rfl

theorem witness_RegisterInstructionsLeaveMemory :
    Claim.registerOnly .ecall = true ∧ goes (exec .ecall (at0 0x73)) = true := by decide

theorem witness_EveryStepKeepsMemoryForm : Memory.wf (at0 0x00A28293).mem = true ∧ goes (step (at0 0x00A28293)) = true := by decide

theorem witness_PcStaysAligned :
    Claim.registerOnly .ecall = true ∧ Claim.scalarMemory .fenceI = true ∧ goes (exec .fenceI State.reset) = true := by decide
theorem witness_PcStaysAligned_reset (h : Nat) : Claim.pcOk (hartOf State.reset h) := ⟨rfl, rfl, rfl⟩

theorem witness_JumpsAndBranches :
    Claim.branchHolds .beq (rdX (seated id) 5) (rdX (seated id) 6) ∧ ¬ Claim.branchHolds .bne (rdX (seated id) 5) (rdX (seated id) 6) ∧
    ((me (seated id)).pc + ((8 : BitVec 12).zeroExtend 13 <<< 1).signExtend 64).toNat % 4 = 0 ∧
    ((me (seated id)).pc + ((9 : BitVec 12).zeroExtend 13 <<< 1).signExtend 64).toNat % 4 ≠ 0 := by
  exact ⟨(by decide : rdX (seated id) 5 = rdX (seated id) 6), fun h => h (by decide), by decide, by decide⟩

theorem witness_RoundingPicksTheRightValue :
    fspec .e4m3 = some ⟨4, 3, 7, .nan⟩ ∧ Claim.outQ (.rat false 1 3) = some (1 / 3) ∧
    Claim.valQ (fdecode ⟨4, 3, 7, .nan⟩ (maxFinite ⟨4, 3, 7, .nan⟩)) = some 448 ∧ |(1 / 3 : ℚ)| ≤ 448 := by
  refine ⟨rfl, ?_, ?_, ?_⟩
  · norm_num [Claim.outQ]
  · have h : fdecode ⟨4, 3, 7, .nan⟩ (maxFinite ⟨4, 3, 7, .nan⟩) = .fin false 14 5 := by decide
    rw [h]; norm_num [Claim.valQ]
  · norm_num

theorem witness_ArithmeticIsExact :
    Claim.valQ (.fin false 3 (-1)) = some (3 / 2) ∧ Claim.valQ (.fin true 5 0) = some (-5) ∧ Claim.valQ (.fin false 0 0) = some 0 ∧
    (∃ top, fspec .e4m3 = some ⟨4, 3, 7, .nan⟩ ∧ Claim.valQ (fdecode ⟨4, 3, 7, .nan⟩ (maxFinite ⟨4, 3, 7, .nan⟩)) = some top ∧
      Real.sqrt ((3 / 2 : ℚ) : ℝ) ≤ (top : ℝ)) := by
  refine ⟨?_, ?_, ?_, 448, rfl, ?_, ?_⟩
  · norm_num [Claim.valQ]
  · norm_num [Claim.valQ]
  · norm_num [Claim.valQ]
  · rw [show fdecode ⟨4, 3, 7, .nan⟩ (maxFinite ⟨4, 3, 7, .nan⟩) = .fin false 14 5 by decide]; norm_num [Claim.valQ]
  · exact Real.sqrt_le_iff.mpr (by norm_num)

theorem witness_FloatOperations :
    (me (at0 0)).pr.mstatus.toNat / 8192 % 4 ≠ 0 ∧ Claim.frmMode (at0 0) 0 = some .rne ∧
    Claim.roundedBy (.fsqrt .d 1 2 7) = some 7 ∧ Claim.frmMode (updHart (at0 0) 0 fun h => { h with fcsr := 0xA0 }) 7 = none ∧
    (me (updHart (at0 0) 0 fun h => { h with pr := { h.pr with mstatus := 0 } })).pr.mstatus.toNat / 8192 % 4 = 0 ∧
    baseIsFp (.fsqrt .d 1 2 7) = true := by decide

theorem witness_TrapEntry :
    irqFor (updHart (at0 0) 0 fun h => { h with pr := { h.pr with mstatus := 8, mie := 0x80, mip := 0x80 } }) 0 = some (7, true) ∧
    irqFor (seated fun h => { h with pr := { h.pr with mie := 0x10000, mip := 0x10000, mideleg := 0x10000 } }) 0 = some (16, false) ∧
    (hartOf (seated fun h => { h with pr := { h.pr with stvec := 0x4000 } }) 0).pr.stvec ≠ 0 ∧ (hartOf (seated id) 0).pr.stvec = 0 ∧
    inDebug (hartOf (at0 0) 0) = false ∧ (hartOf (at0 0) 0).priv = .m ∧
    (let h := hartOf (seated fun h => { h with pr := { h.pr with medeleg := 0x100, stvec := 0x4000 } }) 0
     h.priv ≠ .m ∧ h.pr.medeleg.toNat.testBit 8 = true ∧ h.pr.stvec ≠ 0 ∧ inDebug h = false) ∧
    ((hartOf (seated id) 0).pr.medeleg.toNat.testBit 8 = false ∧ (coreOf (seated id) 0).gang = some 0 ∧
      (gangOf (seated id) 0).state = .running) := by decide

theorem witness_SystemInstructions :
    ((me (seated id)).priv = .u ∧ rdX (seated id) 17 = 0 ∧ rdX (seated fun h => { h with x := [(17, 1)] }) 17 ≠ 0 ∧
      inDebug (me (seated id)) = false ∧ ebreakDebug (me (seated id)) = false) ∧
    (me (at0 0)).priv = .m ∧
    ebreakDebug (me (updHart (at0 0) 0 fun h => { h with pr := { h.pr with dcsr := 0x40008003 } })) = true ∧
    (let s := seated fun h => { h with priv := .s }
     (me s).priv = .s ∧ (me s).pr.mstatus.toNat.testBit 22 = false) ∧
    (let s := seated fun h => { h with priv := .s, pr := { h.pr with mstatus := 0x400000 } }
     (me s).priv = .s ∧ (me s).pr.mstatus.toNat.testBit 22 = true) := by decide

theorem witness_CsrAccess :
    (∃ s1 old, csrRead (at0 0) 0x806 = some (s1, old)) ∧ engineBlocks (at0 0) 0 = false ∧
    engineBlocks (updCore (at0 0) 0 fun c => { c with engine := some ⟨0, .mzero 1, 1, 0, 0, 0⟩ }) 0 = true ∧ privCode (me (seated id)).priv < 0x300 / 256 % 4 ∧
    csrRead (at0 0) 0x8FF = none ∧ (0x803, 0x3F) ∈ Claim.csrKeeps := by
  exact ⟨⟨_, _, rfl⟩, by decide, by decide, by decide, by decide, by decide⟩

/-- A place of the own tile window is not a register and not strongly ordered. -/
theorem weak_tile (n c o : Nat) : Claim.weak n (.tile c o) := ⟨(by intro _ _ _ h; cases h), (by intro _ h; cases h)⟩
/-- A load, a store and an atomic of the own tile window reach tile memory; in M-mode one of the register windows reaches a register. -/
theorem witness_ScalarLoads :
    Claim.reaches (seated id) (seated id) .load .plain 0x0FFFF00000000040 8 (.tile 0 0x40) ∧
    Claim.sound (seated id) 8 (.tile 0 0x40) ∧ Claim.lineSettled (seated id) (.tile 0 0x40) ∧ Claim.weak 8 (.tile 0 0x40) ∧
    (Claim.reaches (at0 0) (at0 0) .load .plain 0x000F000000000008 8 (.mmio 8) ∧ Claim.sound (at0 0) 8 (.mmio 8) ∧ inDirtyWindow 8 = false) ∧
    (0x0FFFF00000000041 % 8 ≠ 0) ∧
    (translate (seated id) (accessCtx (seated id) .load) .load .plain 0x0FFFF00000110000).2 = .error .access ∧
    (translate paged (accessCtx paged .load) .load .plain 0x1000).2 = .error (.page 0) :=
  ⟨⟨by decide, rfl, by decide, (by intro _ _ h; cases h), (by intro _ h; cases h)⟩, rfl, trivial, weak_tile _ _ _,
    ⟨⟨by decide, rfl, by decide, (by intro _ _ h; cases h), fun _ _ => rfl⟩, rfl, by decide⟩, by decide, by decide, by decide⟩
theorem witness_ScalarStores :
    Claim.reaches (seated id) (seated id) .store .plain 0x0FFFF00000000040 8 (.tile 0 0x40) ∧
    Claim.reaches (at0 0) (at0 0) .store .plain 0x000F000000001014 4 (.mmio 0x1014) ∧ inDirtyWindow 0x1014 = false ∧
    bitOf (me (seated id)).xc.dirty.toNat 0 = false :=
  ⟨⟨by decide, rfl, by decide, (by intro _ _ h; cases h), (by intro _ h; cases h)⟩,
    ⟨by decide, rfl, by decide, (by intro _ _ h; cases h), fun _ _ => rfl⟩, by decide, by decide⟩
theorem witness_Atomics :
    Claim.reaches (seated id) (seated id) .store .atomic 0x0FFFF00000000040 8 (.tile 0 0x40) ∧
    (∃ t, amoRelease (seated id) true 0x0FFFF00000000040 = .ok t) ∧
    (me (seated fun h => { h with resv := some (granOf (.tile 0 0x40)) })).resv = some (granOf (.tile 0 0x40)) :=
  ⟨⟨by decide, rfl, by decide, (by intro _ _ h; cases h), (by intro _ h; cases h)⟩, ⟨_, rfl⟩, by decide⟩

theorem witness_TranslationPlaces : (∀ c e, e ∈ (coreOf State.reset c).utlb → e.va % 4096 = 0) ∧
    (translate (seated id) (hartCtx (seated id) 0) .load .plain 0x0FFFF10000000008).2 = .ok (.tile 0 8) := by
  refine ⟨fun c e h => ?_, by decide⟩
  cases h
theorem witness_TranslationChecksTheLeaf :
    (hartCtx paged 0).priv ≠ .m ∧ (translate paged (hartCtx paged 0) .store .atomic 0x18).2 = .ok (.phys 0x6018 0 5) ∧
    (coreOf paged 0).utlb = [] ∧ (dieOf paged 0).slices = [] := by decide
theorem witness_TranslationInvalidation :
    (let s := seated fun h => { h with priv := .s, inval := [(3, 0x1000, 0x2000)] }
     (me s).priv ≠ .u ∧ (me s).inval.length < 8 ∧ (me s).inval ≠ [] ∧ noInFlight s 3 (hartCtx s 0).tid 0x1000 0x2000 = true ∧
     (me s).pr.mstatus.toNat.testBit 20 = false) ∧
    8 ≤ (me (seated fun h => { h with priv := .s, inval := List.replicate 8 (0, 0, 4096) })).inval.length := by decide

theorem witness_AcquireAndRelease :
    Claim.objScoped .gang ∧ acqWaits (at0 0) = false ∧
    Claim.reaches (at0 0) (at0 0) .store .sync 0x100 16 (.phys 0x100 0 8192) ∧
    (let q : AcqReq := ⟨0, 0x100, 5, 0x100, false⟩
     q.key < 8192 ∧ aget 0 { at0 0 with acqs := [q] }.io.keys q.key = 0) ∧ locPoisoned (at0 0) (.phys 0x100 0 8192) 16 = false ∧
    (∃ w', Claim.grants false (homeRead (at0 0) (.phys 0x100 0 8192) 8) w') ∧ (∃ w', Claim.grants true 0 w') ∧
    (¬ ∃ w', Claim.grants false 1 w') ∧ Claim.objBroken 3 := by
  refine ⟨by simp [Claim.objScoped], by decide, ⟨by decide, rfl, by decide, (by intro _ _ h; cases h), (by intro _ h; cases h)⟩, by decide, by decide,
    ⟨_, by decide, rfl⟩, ⟨_, by decide, by decide, rfl⟩, ?_, Or.inl rfl⟩
  · rintro ⟨_, h, _⟩; cases h
theorem witness_Bindings :
    (let s := seated fun h => { h with xc := { h.xc with ctxbase := 0x10000000 }, x := [(5, 0x1000), (6, 0x100), (7, 0x40)] }
     (rdX s 5).toNat % 256 = 0 ∧ (rdX s 6).toNat % 256 = 0 ∧ rdX s 6 ≠ 0 ∧ (rdX s 7).toNat % 16 = 0 ∧ (hartCtx s 0).ctxbase ≠ 0) ∧
    (hartCtx (seated id) 0).ctxbase = 0 ∧
    (let s := seated fun h => { h with x := [(7, 0x48), (8, 2 ^ 59)] }
     (rdX s 7).toNat % 16 ≠ 0 ∧ (rdX s 8).toNat % 16 = 0 ∧ 2 ^ 59 ≤ (rdX s 8).toNat) := by decide

theorem listed (b a m n : Nat) (h : a ≤ n) (k : n < a + m) :
    aget? ((List.range' a m).map fun n => (b + 32 * n, (1 : Byte))) (b + 32 * n) = some 1 := by
  induction m generalizing a with
  | zero => omega
  | succ m ih =>
    rw [List.range'_succ, List.map_cons, aget?]
    by_cases e : a = n
    · subst e; rw [if_neg (by omega), if_pos rfl]
    · rw [if_pos (by omega)]; exact ih (a + 1) (by omega) (by omega)
/-- The first bytes of its entries are all that memory lists. -/
theorem table_full (s : State) (c : ACtx) (hb : c.ctxbase ≠ 0) (hu : s.unspec = []) (hk : s.lineKey = [])
    (hm : s.mem = (List.range' 0 4096).map fun n => (c.ctxbase + bindTableOff + 32 * n, (1 : Byte))) :
    ∀ n < 4096, ∃ x ∈ bindings s c, x.entry = n := by
  intro n hn
  unfold bindings
  rw [if_neg hb]
  refine ⟨_, List.mem_filterMap.mpr ⟨n, List.mem_range.mpr hn, if_pos ?_⟩, rfl⟩
  have first : ∀ t : State, t.mem = s.mem → t.unspec = [] → t.lineKey = [] → bitOf (areaRead t c.tid (bindAddr c n) 8) 0 = true := by
    intro t h1 h2 h3
    have b : ∀ kid, physByte t kid (bindAddr c n) = 1 := fun kid => by
      unfold physByte rawByte unspecAt bindAddr
      rw [h1, h2, h3]
      refine (if_pos (Or.inl rfl)).trans ?_
      show aget 0 s.mem _ = 1
      rw [aget, hm, listed _ 0 4096 n (by omega) (by omega)]; rfl
    unfold areaRead physRead
    rw [show List.range 8 = 0 :: (List.range 7).map Nat.succ from List.range_succ_eq_map, List.map_cons, natOfBytes, Nat.add_zero, b]
    unfold bitOf
    rw [Nat.shiftRight_zero, Nat.add_mod, Nat.mul_mod]; simp
  refine first _ ?_ hu hk
  show List.filter _ s.mem = s.mem
  rw [hm]
  refine List.filter_eq_self.mpr fun kv h => ?_
  obtain ⟨m, hm, rfl⟩ := List.mem_map.mp h
  have := List.mem_range'_1.mp hm
  simp [bindAddr]; omega
/-- A context whose binding table is full. -/
def bound : State :=
  { seated (fun h => { h with xc := { h.xc with ctxbase := 0x10000000 } }) with
    mem := (List.range' 0 4096).map fun n => (0x10000000 + bindTableOff + 32 * n, (1 : Byte)) }
theorem witness_Bindings_full : ∀ n < 4096, ∃ x ∈ bindings bound (hartCtx bound 0), x.entry = n := by
  have h : (hartCtx bound 0).ctxbase = 0x10000000 := by decide
  refine table_full bound _ (by rw [h]; decide) rfl rfl ?_
  rw [h]; unfold bound; dsimp only
theorem witness_Fences :
    hartTransfers (at0 0) 0 = false ∧ hartReds (at0 0) 0 = false ∧ engineBlocks (at0 0) 0 = false ∧ bauPending (at0 0) false = false ∧
    (me (updHart (at0 0) 0 fun h => { h with bev := true, beva := 0x40 })).bev = true ∧ (0x3 : BitVec 4).toNat.testBit 0 = true := by decide
theorem witness_Monitors :
    (me (seated fun h => { h with mv := true, maddr := 0x0FFFF00000000040 })).mv = true ∧ (me (seated id)).mv = false ∧
    monUse (seated id) 0x0FFFF00000000040 = .plain ∧
    homeRead (seated id) (.tile 0 0x40) 8 = 0 ∧ rdX (seated id) 5 ≠ 0 ∧ rdX (seated id) 9 = 0 ∧
    canMove (seated fun h => { h with wait := some (.mwait 5 6) }) 0 = true := by decide
theorem ints_seen : Claim.vecSees ints 0 (sees ints 2 .i32 0) := ⟨by decide, by decide, by decide, rfl⟩
theorem floats_seen : Claim.vecSees floats 0 (sees floats 2 .fp32 0) := ⟨by decide, by decide, by decide, rfl⟩
theorem one32_seen : Claim.vecSees one32 0 (sees one32 1 .i32 0) := ⟨by decide, by decide, by decide, rfl⟩

theorem witness_VectorInteger :
    Claim.usesVectorUnit (.vaddVv 0 4 8 12) = true ∧ (∃ f, Claim.intForm (.vaddVv 0 4 8 12) = some (0, 4, 12, .v 8, false, f)) ∧
    Claim.vecSees ints 0 (sees ints 2 .i32 0) ∧ fmtIsInt (sees ints 2 .i32 0).fmt = true ∧ Claim.aligned 4 (sees ints 2 .i32 0).grp ∧
    Claim.opGroupOk (sees ints 2 .i32 0) (.v 8) ∧ Claim.tagged (sees ints 2 .i32 0) 4 1 (sees ints 2 .i32 0).tag ∧
    Claim.opTagged (sees ints 2 .i32 0) (.v 8) ∧ ¬ Claim.tagged (sees ints 2 .i32 0) 20 1 (sees ints 2 .i32 0).tag ∧
    regsBusy (updCore ints 0 fun c => { c with refills := [⟨0, 4, [], [], 32, none, 0⟩] }) 0 = true ∧
    vtypeOf (me (seated id)).xc.vtype.toNat = none := by
  refine ⟨rfl, ⟨_, rfl⟩, ints_seen, rfl, ⟨by decide, by decide⟩, ⟨by decide, by decide⟩, ?_, ?_, ?_, by decide, by decide⟩
  · unfold Claim.tagged; decide
  · unfold Claim.opTagged Claim.tagged; decide
  · unfold Claim.tagged; decide
theorem witness_VectorBitsAndSelect :
    (∃ f, Claim.bitForm (.vandVi 0 4 3 12) = some (0, 4, 12, .i 3, f)) ∧ Claim.selForm (.vselVx 0 4 5 12) = some (0, 4, 12, .x 5) ∧
    Claim.vecSees ints 0 (sees ints 2 .i32 0) ∧ Claim.aligned 12 (sees ints 2 .i32 0).grp ∧ Claim.opGroupOk (sees ints 2 .i32 0) (.i 3) :=
  ⟨⟨_, rfl⟩, rfl, ints_seen, ⟨by decide, by decide⟩, trivial⟩
theorem witness_VectorCompare :
    Claim.cmpForm (.vcmpVx 0 4 5 true .lt 3) = some (0, 4, .x 5, true, .lt, 3) ∧ Claim.vecSees ints 0 (sees ints 2 .i32 0) ∧
    Claim.tagged (sees ints 2 .i32 0) 4 1 2 := by
  refine ⟨rfl, ints_seen, ?_⟩; unfold Claim.tagged; decide
theorem witness_VectorNarrowWidenReduce :
    Claim.clipForm (.vclipVi 0 4 5 false 12) = some (0, 4, 12, .u 5, false) ∧ Claim.vecSees (vector 0x10 3 2) 0 (sees (vector 0x10 3 2) 2 .i32 0) ∧
    Claim.aligned 4 2 ∧ Claim.apart 12 1 4 2 ∧ Claim.tagged (sees (vector 0x10 3 2) 2 .i32 0) 4 2 3 ∧
    Claim.vecSees ints 0 (sees ints 2 .i32 0) ∧ Claim.tagged (sees ints 2 .i32 0) 4 1 2 ∧ Claim.apart 12 2 4 1 := by
  refine ⟨rfl, ⟨by decide, by decide, by decide, rfl⟩, ⟨by decide, by decide⟩, by unfold Claim.apart; decide, ?_, ints_seen, ?_,
    by unfold Claim.apart; decide⟩ <;> unfold Claim.tagged <;> decide
theorem witness_VectorPermutes :
    Claim.slideForm (me ints) (.vslupVx 0 4 5 12) = some (true, 0, 4, 12, 7) ∧ Claim.bcstForm (.vbcstVi 0 3 12) = some (0, .i 3, 12) ∧
    Claim.vecSees ints 0 (sees ints 2 .i32 0) ∧ Claim.aligned 12 (sees ints 2 .i32 0).grp ∧ Claim.apart 12 1 4 1 :=
  ⟨by decide, rfl, ints_seen, ⟨by decide, by decide⟩, Or.inr (by decide)⟩
theorem witness_Predicates :
    (∃ f, Claim.predForm (.pbrk 0 3 true 2) = some (0, 2, f)) ∧ Claim.vecSees ints 0 (sees ints 2 .i32 0) ∧
    Claim.breaksAt (sees ints 2 .i32 0) 0 0 ∧ ∀ n, ¬ Claim.breaksAt (sees ints 2 .i32 0) 5 n := by
  refine ⟨⟨_, rfl⟩, ints_seen, ⟨⟨by decide, Or.inl rfl⟩, fun m h => absurd h (by omega)⟩, ?_⟩
  rintro n ⟨⟨-, h⟩, -⟩
  rcases h with h | h
  · exact absurd h (by decide)
  · unfold hartP at h
    rw [if_neg (by decide), show (sees ints 2 .i32 0).h.p = [] from rfl] at h
    simp [aget, aget?] at h
theorem witness_VectorTags :
    lentTo ints 0 = false ∧ regsBusy ints 0 = false ∧ vtypeOf (me ints).xc.vtype.toNat ≠ none ∧
    vtypeOf (me (seated id)).xc.vtype.toNat = none ∧ Fmt.ofCode ((rdX ints 5).toNat % 32) = none ∧
    Fmt.ofCode ((rdX (updMe ints fun h => { h with x := [(5, 9)] }) 5).toNat % 32) = some .fp32 ∧ Claim.blockFits .fp32 0 := by
  refine ⟨by decide, by decide, by decide, by decide, by decide, by decide, ?_⟩; unfold Claim.blockFits; decide
theorem witness_SetLength :
    lentTo ints 0 = false ∧ regsBusy ints 0 = false ∧ Claim.vtypeLegal 0x048 0 .fp32 0 ∧ ¬ (∃ lg f blk, Claim.vtypeLegal 0x02F lg f blk) := by
  refine ⟨by decide, by decide, ⟨by decide, by decide, by decide, by decide, by decide, ?_⟩, ?_⟩
  · unfold Claim.blockFits; decide
  · rintro ⟨lg, f, blk, -, h1, h2, -⟩; omega
theorem witness_VectorFloat :
    (∃ f, Claim.floatForm (.vfmaVf 0 4 5 true 12) = some (0, 4, 12, .f 5, true, f)) ∧
    Claim.estForm (.vfrsqe 0 4 12) = some (true, 0, 4, 12) ∧ Claim.vecSees floats 0 (sees floats 2 .fp32 0) ∧
    Claim.floatClass (sees floats 2 .fp32 0).fmt ∧ Claim.tagged (sees floats 2 .fp32 0) 4 1 9 := by
  refine ⟨⟨_, rfl⟩, rfl, floats_seen, Or.inr (Or.inl rfl), ?_⟩; unfold Claim.tagged; decide
theorem witness_VectorFloatCompareAndSign :
    Claim.fcmpForm (.vfcmpVv 0 4 8 .lt 3) = some (0, 4, .v 8, .lt, 3) ∧ Claim.vecSees floats 0 (sees floats 2 .fp32 0) ∧
    Claim.opTagged (sees floats 2 .fp32 0) (.v 8) ∧ Claim.fcompareNV .lt (.nan false) (.inf true) ∧
    ¬ Claim.fcompareNV .eq (.nan false) (.inf true) := by
  refine ⟨rfl, floats_seen, ?_, Or.inl rfl, ?_⟩
  · unfold Claim.opTagged Claim.tagged; decide
  · rintro (h | h) <;> cases h
theorem witness_VectorFloatReduceAndConvert :
    Claim.vecSees floats 0 (sees floats 2 .fp32 0) ∧ Claim.codeMode (sees floats 2 .fp32 0) .rne ≠ .sr ∧
    Claim.targetBlk (sees floats 2 .fp32 0) .i32 = 0 ∧ Claim.targetBlk (sees floats 2 .fp32 0) .pe8 = 1 ∧ Claim.apart 12 1 4 1 ∧
    ((sees floats 2 .fp32 0).governs 1 = (sees floats 2 .fp32 0).governs 0) :=
  ⟨floats_seen, by decide, by decide, by decide, Or.inr (by decide), by decide⟩
/-- The places of element 0 of a unit-stride access from x2. -/
theorem place_zero : Claim.unitPlace .i32 (hartX (me one32) 2).toNat 0 = (0x0FFFF00000000040, 0, 32) := by decide
theorem value_zero : (Claim.element (sees one32 1 .i32 0) 32 4 1 0).toNat = 2 := by decide +kernel

/-- A load of one word of tile memory, and a store of one. -/
theorem witness_VectorLoadsAndStores_load :
    (∃ place, Claim.loadForm (sees one32 1 .i32 0) (.vld 0 2 false false 12) = some (0, 12, false, false, place, none) ∧
      ∃ σ : Nat → State, Claim.inOrder one32 (sees one32 1 .i32 0) 1
        (fun k => Claim.loadsElement (sees one32 1 .i32 0) 12 false place k 0 0) σ) := by
  refine ⟨_, rfl, fun k => if k = 0 then one32 else setMyElem one32 (sees one32 1 .i32 0) 12 32 0 0, rfl, ?_⟩
  intro k hk
  obtain rfl : k = 0 := by omega
  rw [if_pos (by decide)]
  refine ⟨one32, ?_, fun h => absurd h.1 (by decide), fun _ => ?_⟩
  · show readPlace one32 .i32 (Claim.unitPlace .i32 (hartX (me one32) 2).toNat 0) = _
    rw [place_zero]; rfl
  · rfl
theorem witness_VectorLoadsAndStores_store :
    (∃ place, Claim.storeForm (sees one32 1 .i32 0) (.vst 0 2 false 4) = some (0, 4, false, place, none) ∧
      ∃ σ : Nat → State, Claim.inOrder one32 (sees one32 1 .i32 0) 1 (Claim.storesElement (sees one32 1 .i32 0) 4 false place) σ) := by
  obtain ⟨t, ht⟩ : ∃ t, writePlace one32 .i32 (0x0FFFF00000000040, 0, 32) 2 = .ok t := ⟨_, rfl⟩
  refine ⟨_, rfl, fun k => if k = 0 then one32 else t, rfl, ?_⟩
  intro k hk
  obtain rfl : k = 0 := by omega
  rw [if_pos (by decide)]
  refine ⟨fun h => absurd h.1 (by decide), fun _ => ?_⟩
  show writePlace one32 .i32 (Claim.unitPlace .i32 (hartX (me one32) 2).toNat 0) (Claim.contained .i32 (Claim.element (sees one32 1 .i32 0) 32 4 1 0).toNat) = _
  rw [place_zero, show Claim.contained .i32 (Claim.element (sees one32 1 .i32 0) 32 4 1 0).toNat = 2 from value_zero, ht]; rfl
theorem witness_VectorLoadsAndStores :
    Claim.vecSees one32 0 (sees one32 1 .i32 0) ∧ one32.elemLimit = none ∧
    Claim.memoryOk (sees one32 1 .i32 0) 12 false false none ∧ Claim.uniform (sees one32 1 .i32 0) ∧
    (∃ t, readPlace one32 .i32 (7, 0, 32) = .error (.trap t 4 7)) ∧
    (∃ t, readPlace one32 .i32 (0x0FFFF00000110000, 0, 32) = .error (.trap t 5 0x0FFFF00000110000)) ∧
    (∃ t kind src, readPlace paged .i32 (0x1000, 0, 32) = .error (.pageFault t 0x1000 kind src)) ∧
    (∃ t v va, writePlace one32 .i32 (0x0FFFF00000110000, 0, 32) v = .error (.trap t 7 va)) ∧
    Claim.leads (sees (vector 0x250 0x30 2) 2 .e4m3 1) true 0 ∧ ¬ Claim.leads (sees (vector 0x250 0x30 2) 2 .e4m3 1) true 1 := by
  refine ⟨one32_seen, rfl, ⟨⟨by decide, by decide⟩, by decide, by decide, by rintro _ _ ⟨⟩⟩, ?_, ⟨_, rfl⟩, ⟨_, rfl⟩, ⟨_, _, _, rfl⟩, ⟨_, 0, _, rfl⟩,
    ⟨rfl, Or.inl rfl⟩, by unfold Claim.leads; decide⟩
  intro h; exact absurd (rfl : Claim.blockLenOf (sees one32 1 .i32 0) = 0) h

/-- An atomic on a word of tile memory, a reduction on it, its update, and a refill. -/
theorem witness_VectorAtomicsAndRefill :
    Claim.vecSees one32 0 (sees one32 1 .i32 0) ∧ one32.elemLimit = none ∧ Claim.admits (.inl .add) .i32 ∧ Claim.admits (.inr .or) .i32 ∧
    Claim.tagged (sees one32 1 .i32 0) 12 1 2 ∧ Claim.tagged (sees one32 1 .i32 0) 16 1 2 ∧ Claim.apart 12 1 16 1 ∧
    (∃ σ : Nat → State, Claim.inOrder one32 (sees one32 1 .i32 0) 1 (fun _ p q => ∃ s1 l,
      Claim.reaches p s1 .store .atomic 0x0FFFF00000000040 4 l ∧ Claim.weak 4 l ∧ Claim.sound s1 4 l ∧
      q = setMyElem (Claim.updatesAt s1 (myCore s1) one32.cur (me s1).xc.dirty (.inl .add) .i32 l 0) (sees one32 1 .i32 0) 12 32 0
        (homeRead (flushLoc s1 (myCore s1) l) l 4)) σ) ∧
    (∃ σ : Nat → State, Claim.inOrder one32 (sees one32 1 .i32 0) 1 (fun _ p q => xferMeets p 0 0 0x0FFFF00000000040 4 true = false ∧
      translate p (accessCtx one32 .store) .store .atomic 0x0FFFF00000000040 = (q, .ok (.tile 0 0x40)) ∧ locPoisoned q (.tile 0 0x40) 4 = false ∧
      parkedMeets q 0 0 0x0FFFF00000000040 4 = false) σ) ∧ one32.harts.all (fun kv => kv.2.vred == 0) = true ∧
    locKeyed one32 (.tile 0 0x40) = true ∧ locKeyed one32 (.phys 0 0 5) = false ∧
    (VRedOp.ofCode 0 = some .add ∧ Fmt.ofCode 2 = some .i32) ∧
    (∃ s1, translate (drainWc one32 one32.cur) (accessCtx one32 .load) .load .engine 0x0FFFF00000000044 = (s1, .ok (.tile 0 0x44))) ∧
    (let f : Refill := ⟨0, 4, [], [(1, .tile 0 0x44)], 32, none, 0⟩
     (coreOf (updCore one32 0 fun c => { c with refills := [f] }) 0).refills.find? (fun f => !f.locs.isEmpty) = some f ∧
     (f.locs.map Prod.fst).Nodup) := by
  refine ⟨one32_seen, rfl, Or.inl rfl, Or.inl rfl, by unfold Claim.tagged; decide, by unfold Claim.tagged; decide, Or.inl (by decide),
    ⟨fun | 0 => one32 | _ => setMyElem (Claim.updatesAt one32 0 0 0 (.inl .add) .i32 (.tile 0 0x40) 0) (sees one32 1 .i32 0) 12 32 0 0, rfl, ?_⟩, ⟨fun _ => one32, rfl, ?_⟩, by decide, by decide, by decide, by decide, ⟨_, rfl⟩, by decide⟩
  · intro k hk
    obtain rfl : k = 0 := by omega
    exact ⟨one32, .tile 0 0x40, ⟨by decide, rfl, by decide, (by intro _ _ h; cases h), (by intro _ h; cases h)⟩, weak_tile _ _ _, rfl, rfl⟩
  · intro k hk
    obtain rfl : k = 0 := by omega
    exact ⟨by decide, rfl, by decide, by decide⟩

theorem witness_MatrixIssue :
    Claim.mmaForm (.mma 0 0 2 4 8) = some (0, 0, 2, .inl 4, 8, false) ∧ Claim.mxReady floats ∧ (me floats).xc.vstart = 0 ∧
    Claim.rowsOk 4 1 ∧ Claim.apart 4 1 8 1 ∧ 2 * Claim.tagWidth 9 ≤ 1024 * lanesOf floats 0 ∧ 1 ≤ Claim.columns (Claim.controlWord floats 0 2) ∧
    Claim.tileTagged floats 0 2 ∧ Claim.tagNames 9 .fp32 0 ∧ Claim.pairsInto false .fp32 .fp32 ∧ ¬ Claim.mxHeldBy floats [2] ∧
    (∃ s1, askLeave (updMe floats fun h => { h with leaveOk := 1 }) 1 = .ok s1) ∧ Claim.controlValid 0x48000 ∧ ¬ Claim.controlValid 0x80000000 ∧
    (∃ s1, spillEvict (spillList floats 0) (spillHeld floats 0 - spillRoom (setTcw floats 0 2 0x48000) 0) floats = .ok s1) := by
  refine ⟨rfl, ⟨by decide, by decide, by decide, by decide⟩, rfl, by unfold Claim.rowsOk; decide, Or.inl (by decide), by decide, by decide,
    Or.inr rfl, ⟨rfl, rfl, by unfold Claim.blockFits; decide, by decide⟩, Or.inr ⟨rfl, by decide⟩, ?_, ⟨_, rfl⟩, ?_, ?_, ⟨_, rfl⟩⟩
  · rintro (h | ⟨_, h, h2⟩)
    · revert h; decide
    · simp only [List.mem_singleton] at h; subst h; revert h2; decide
  · exact ⟨by decide, by decide, by decide, by decide, by decide, .fp32, rfl, by decide, by decide, by unfold Claim.blockFits; decide⟩
  · rintro ⟨h, -⟩; revert h; decide
theorem witness_MatrixEngine :
    (∀ i ∈ [Instr.mtcw 2 5, .mzero 2, .mwra 0 2 1 4, .mrda 0 2 1 4, .mma 0 0 2 4 8],
      let s := updCore floats 0 fun c => { c with engine := some ⟨0, i, 2, 0x48000, 0, 1⟩ }
      (coreOf s 0).engine = some ⟨0, i, 2, 0x48000, 0, 1⟩ ∧ 4 ≤ lanesOf s 0) ∧
    Claim.mmaForm (.mma 0 0 2 4 8) = some (0, 0, 2, .inl 4, 8, false) ∧ Claim.tagNames (hartTag (hartOf floats 0) 4) .fp32 0 := by
  refine ⟨by decide, rfl, rfl, rfl, by unfold Claim.blockFits; decide, by decide⟩
theorem witness_SpilledRegisters :
    spillHeld floats 0 < spillRoom floats 0 ∧ aget? (me floats).spill 3 = none ∧
    (let e : Spill := ⟨false, 0, 0, 9⟩
     let s := updMe floats fun h => { h with spill := [(3, e)] }
     aget? (me s).spill 3 = some e ∧ e.reg.toNat < 2 ^ (1024 * 16)) ∧
    (let t := { seated id with harts := (List.range 16).map fun k => (k, { (hartOf floats 0) with spill := (List.range 16).map fun n => (n, ⟨false, 0, 0, 9⟩) }) }
     spillRoom t 0 ≤ spillHeld t 0 - 1) := by
  decide +kernel

/-- Hart 0 with a request of 64 bytes from the own tile window to another place in it. -/
def copying : State := seated fun h => { h with
  x := [(5, 0x0FFFF00000000040), (6, 0x0FFFF00000000440), (7, 64), (8, 0x200000)] }
theorem witness_CopyIssue :
    Claim.copyForm (.cpys 5 6 false false 7) = some (5, 6, 7, true, false, false) ∧
    ((rdX copying 7).toNat / 2 ^ 21 % 2 ^ 11 = 0 ∧ (rdX copying 7).toNat / 2 ^ 32 = 0) ∧ (rdX copying 8).toNat / 2 ^ 21 % 2 ^ 11 ≠ 0 ∧
    (rdX copying 6).toNat % 8 = 0 ∧ (coreOf copying 0).copies = [] ∧
    (∃ s1 s2 hs hd, transPages (hartCtx copying 0) .load (pagesOf 0x0FFFF00000000040 64) copying = (s1, hs, none) ∧
      transPages (hartCtx copying 0) .store (pagesOf 0x0FFFF00000000440 72) s1 = (s2, hd, none) ∧
      (∀ h ∈ hs, locPeer h.loc = false) ∧ (∀ h ∈ hd, locPeer h.loc = false) ∧
      ownWaits s2 0 0 0x0FFFF00000000040 64 false = false ∧ ownWaits s2 0 0 0x0FFFF00000000440 72 true = false ∧
      (coreOf s2 0).arit.length < 31) ∧
    -- an access fault at once, a page fault at once, and a fault behind two strips
    (let f : RangeFault := ⟨0, 0x0FFFF00000110000, .access⟩
     Claim.decides (some f) none f true ∧ Claim.cutTo 64 8 (some f) none = 0) ∧
    (∃ s1 s2 h f, transPages (hartCtx paged 0) .load (pagesOf 0x1000 64) paged = (s1, h, some ⟨0, 0x1000, .page f⟩) ∧
      transPages (hartCtx paged 0) .store (pagesOf 0x0FFFF00000000440 64) s1 = (s2, [⟨0x0FFFF00000000440, .tile 0 0x440⟩], none) ∧
      Claim.cutTo 64 0 (some ⟨0, 0x1000, .page f⟩) none = 0) ∧
    (let f : RangeFault := ⟨128, 0x1000, .page 0⟩
     Claim.decides none (some f) f false ∧ Claim.cutTo 4096 0 none (some f) = 128) ∧
    (∃ s1, transPages (hartCtx copying 0) .load (pagesOf 0x0FFFF00000110000 64) copying =
      (s1, [], some ⟨0, 0x0FFFF00000110000, .access⟩)) :=
  ⟨rfl, by decide, by decide, by decide, by decide, ⟨_, _, _, _, rfl, rfl, by decide, by decide, by decide, by decide, by decide⟩,
    ⟨⟨rfl, fun _ h => nomatch h⟩, by decide⟩, ⟨_, _, _, _, rfl, rfl, by decide⟩, ⟨⟨rfl, fun _ h => nomatch h⟩, by decide⟩, ⟨_, rfl⟩⟩

/-- A copy of 64 bytes under way, and a core that holds it. -/
def aCopy : Copy :=
  { opt := 1, slot := 0, tgt := 0, stamp := 3, rem := 64, src := 0x0FFFF00000000040, dst := 0x0FFFF00000000440, utag := 0,
    dst0 := 0x0FFFF00000000440, grant := 64, src0 := 0x0FFFF00000000040, span := 64, ctx := hartCtx (seated id) 0,
    held := [⟨0x0FFFF00000000040, .tile 0 0x40⟩, ⟨0x0FFFF00000000440, .tile 0 0x440⟩] }
def holding (k : Copy) : State := updCore (seated id) 0 fun c => { c with copies := [(0, k)] }
theorem witness_CopyEngineAndEventQueues :
    aget? (coreOf (seated id) 0).copies 0 = none ∧ aget? (coreOf (holding aCopy) 0).copies 0 = some aCopy ∧
    (heldLoc aCopy.held aCopy.src = some (.tile 0 0x40) ∧ heldLoc aCopy.held aCopy.dst = some (.tile 0 0x440) ∧ aCopy.ctx.core = 0 ∧
      aCopy.park = none ∧ 0 < aCopy.rem) ∧
    (Claim.stripLo aCopy = aCopy.dst ∧ Claim.stripHi aCopy - Claim.stripLo aCopy = 64 ∧ bitOf aCopy.ctx.dirty.toNat 0 = false) ∧
    (∀ j < 64, Claim.heldByte aCopy aCopy.src (aCopy.src + j) = some (.tile 0 (0x40 + j)) ∧
      Claim.heldByte aCopy aCopy.dst (aCopy.dst + j) = some (.tile 0 (0x440 + j))) ∧
    Claim.stripPlain (holding aCopy) 0 aCopy 64 (fun j => .tile 0 (0x40 + j)) (fun j => .tile 0 (0x440 + j)) ∧
    (let k := { aCopy with held := [⟨0x0FFFF00000000040, .phys 0x6040 0 5⟩] }
     heldLoc k.held k.src = some (.phys 0x6040 0 5) ∧ locKeyed (holding k) (.phys 0x6040 0 5) = false) ∧
    (let k := { aCopy with rem := 0, dst := 0x0FFFF00000000480 }
     aget? (coreOf (holding k) 0).copies 0 = some k ∧ k.rem = 0 ∧ k.stage = 0 ∧ k.peer = false ∧ k.status = 0 ∧ k.opt = 1 ∧
       heldLoc k.held k.dst = some (.tile 0 0x480)) ∧
    (gbArrive 2 = some (0x10002, 0) ∧ (coreOf (seated id) 0).gang = some 0) ∧
    (let s := updGang (seated id) 0 fun g => { g with evq := [(1, ⟨4 + 0x0FFFF00000000800, 0, 1⟩)] }
     (aget {} (gangOf s 0).evq 1).conf.toNat % 32 = 4 ∧ (aget {} (gangOf s 0).evq 1).head ≠ (aget {} (gangOf s 0).evq 1).tail) ∧
    (∃ s1 v, readRecord (seated id) 0x0FFFF00000000040 16 24 = .ok (s1, v)) := by
  refine ⟨by decide, by decide, by decide, by decide, by decide, ⟨?_, ?_, ?_, ⟨0, ?_⟩, ?_⟩, by decide, by decide, by decide, by decide, ⟨_, _, rfl⟩⟩
  · exact fun j hj => ⟨rfl, rfl, rfl, rfl, rfl, fun _ => ⟨(fun h => nomatch h), (fun h => nomatch h)⟩⟩
  · have h : ∀ i < 64, ∀ j < 64, granOf (.tile 0 (0x40 + i)) ≠ granOf (.tile 0 (0x440 + j)) := by decide
    exact fun i j hi hj => h i hi j hj
  · decide
  · intro j _ _ _ _ h; cases h
  · intro kv h; cases h


/-! ### Queues, streams and chains -/

/-- Two words of data as the only row of queue 3. -/
def queued : State := updCore ints 0 fun c => tokAppend { c with q := [(3, { tagset := true, qtag := 2 })] } 3 (dataTok 0x0000000700000005 8 true)

theorem witness_ChainingQueues :
    (Claim.vecSees ints 0 (sees ints 2 .i32 0) ∧ 4 % (sees ints 2 .i32 0).grp = 0 ∧ (qOf (coreOf ints 0) 3).owned = false ∧
      Claim.tagged (sees ints 2 .i32 0) 4 1 2 ∧ 1 ≤ qRoom (qOf (coreOf ints 0) 3) ∧ Claim.queueSane (qOf (coreOf ints 0) 3)) ∧
    (Claim.vecSees queued 0 ⟨me queued, 16, 2, 0, 0, .i32, 0, 0⟩ ∧ Claim.popForm (.qpop 3 8) = some (3, 8, false) ∧
      Claim.queueTokens (coreOf queued 0) 3 0 = [] ++ Claim.laid .i32 0 [(scaleTok 0 1, dataTok 0x0000000700000005 8 true)] ∧
      Claim.laidOk [(scaleTok 0 1, dataTok 0x0000000700000005 8 true)] ∧ Claim.queueSane (qOf (coreOf queued 0) 3) ∧
      rpOf (qOf (coreOf queued 0) 3) 0 < 512 ∧ (qOf (coreOf queued 0) 3).qtag.toNat = 2) ∧
    lentTo (updMe (seated id) id) 0 = false ∧ vtypeOf (me (seated id)).xc.vtype.toNat = none ∧ (qOf (coreOf queued 0) 3).pfill < 64 := by
  refine ⟨⟨ints_seen, by decide, by decide, by unfold Claim.tagged; decide, by decide, ?_⟩,
    ⟨⟨by decide, by decide, by decide, rfl⟩, rfl, ?_, ?_, ?_, by decide, by decide⟩, by decide, by decide, by decide⟩
  · unfold Claim.queueSane; decide
  · rw [show Claim.laid .i32 0 [(scaleTok 0 1, dataTok 0x0000000700000005 8 true)] = [dataTok 0x0000000700000005 8 true] by
      simp [Claim.laid, Claim.scaled, Claim.pairFormats]]
    decide
  · unfold Claim.laidOk; decide
  · unfold Claim.queueSane; decide

/-- A descriptor of 8 words from the own tile window into queue 1, or out of it. -/
def aStream (store : Bool) : AMap Word :=
  [(0, 0x0FFFF00000000100), (2, -1), (3, 8 + 2 * 2 ^ 32 + (if store then 2 ^ 40 else 0) + 2 ^ 41), (4, 1 + 2 ^ 32), (5, 1)]
def streaming (store : Bool) : State :=
  updCore (seated id) 0 fun c => { c with streams := [(2, { desc := aStream store, state := 2, ctx := some (hartCtx (seated id) 0) })] }
/-- It with 8 bytes for the store to take. -/
def storing : State :=
  updCore (streaming true) 0 fun c => tokAppend { c with q := [(1, { tagset := true, qtag := 2 })] } 1 (dataTok 0x0000000700000005 8 false)

theorem witness_SoftwareStreams :
    (∃ s1 r, readRecord (seated id) 0x0FFFF00000000040 64 24 = .ok (s1, r)) ∧
    Claim.descriptorValid (0x0FFFF00000000100 + (8 + 2 * 2 ^ 32 + 2 ^ 41) * 2 ^ 192 + (1 + 2 ^ 32) * 2 ^ 256 + 2 ^ 320) ∧
    (let r := aget {} (coreOf (updCore (streaming false) 0 fun c => { c with streams := [(2, { desc := aStream false, state := 1, ctx := some (hartCtx (seated id) 0) })] }) 0).streams 2
     r.state = 1 ∧ r.ctx = some (hartCtx (seated id) 0) ∧ aritBlocks (seated id) 0 0 (patRange (patOf r.desc)).1 32 false = false ∧
       redMeets (seated id) 0 0 (patRange (patOf r.desc)).1 32 = false ∧
       pendMeets (seated id) 0 0 (patRange (patOf r.desc)).1 32 false = false ∧ armMeets (seated id) 0 0 (patRange (patOf r.desc)).1 32 false = false) ∧
    (∃ s1 k, loadPiece (streaming false) (hartCtx (seated id) 0) (patOf (aStream false)) ⟨0, 0, 0, 0⟩ 0 = .ok (s1, k, 8) ∧ 0 < k.n) ∧
    2 ≤ qRoom (qOf (coreOf (streaming false) 0) 1) ∧
    (qOcc (qOf (coreOf storing 0) 1) 0 ≠ 0 ∧ (tokAt (coreOf storing 0) 1 0).kind = 0 ∧
      (qOf (coreOf storing 0) 1).qtag.toNat = tagOf .i32 0 ∧ tokScaled .i32 0 = false) ∧
    (∃ run, storeUnits 3 (setCore storing 0 (coreOf storing 0)) (hartCtx (seated id) 0) (patOf (aStream true)) ⟨0, 0, 0, 0⟩
      0x0000000700000005 0 0 0 2 0 = run ∧ run.stop = none ∧ run.bound = false ∧ run.n * 32 / 8 = 8) := by
  refine ⟨⟨_, _, rfl⟩, ?_, by decide, ⟨_, _, rfl, by decide⟩, by decide, by decide, ⟨_, rfl, by decide +kernel⟩⟩
  exact ⟨by decide, by decide, by decide, .i32, rfl, by unfold Claim.blockFits; decide, by decide, by decide, by decide, by decide, by decide,
    by rintro (h | h) <;> revert h <;> decide⟩

/-- The descriptor of the example of spec/08 (Table 8-13), in the own tile memory. -/
def described : State :=
  let w : List Nat := [0x4E484358 + 0x0100 * 2 ^ 32 + 3 * 2 ^ 48 + 2 * 2 ^ 56, 0, 0x70, 0, 2, 0, 0, 0, 0x102, 0, 0x100, 0x10201, 0x20101,
    0x02210000 + 0x100090AB * 2 ^ 32]
  w.zipIdx.foldl (fun s x => homeWrite s 0 (.tile 0 (0x40 + 8 * x.2)) 8 x.1) (seated id)
def theNodes : List (Nat × Nat) := [(2, 0), (0, 0), (2, 1)]
def theEdges : List (Nat × Nat × Nat × Nat × Nat) := [(0, 0, 1, 0, 0), (1, 0, 2, 0, 1)]

theorem test_the_example_is_a_descriptor :
    ∃ d, rdDesc (coreOf described 0) 0 0 (locReader described (.tile 0 0x40)) = some d ∧ d.nodes = theNodes ∧ d.edges = theEdges ∧
      d.stages = [(1, ⟨[(0, 0, false), (1, 1, true)], [0x100090AB], 0x6C⟩)] := ⟨_, rfl, rfl, rfl, rfl⟩

/-- A slot of hart 0 in a state. -/
def slotted (sl : ChSlot) : State := updCore (seated id) 0 fun c => { c with slots := [(0, { sl with owned := true })] }

theorem witness_ChainSlots :
    Claim.mayName (seated id) 0 ∧ ¬ Claim.mayName (updCore (seated id) 0 fun c => { c with slots := [(0, { owned := true, owner := 1 })] }) 0 ∧
    (¬ Claim.runs (Claim.slotAt described 0 0) ∧ ¬ Claim.ownsTwo described ∧ ownLoc 0 0x0FFFF00000000040 32 = some (.tile 0 0x40) ∧
      (rdDesc (coreOf described 0) 0 0 (locReader described (.tile 0 0x40))).isSome = true ∧ (coreOf described 0).streams = []) ∧
    (let s := slotted { state := .configured, nodes := theNodes, edges := theEdges, desc := 0x0FFFF00000000040 }
     Claim.mayName s 0 ∧ (Claim.slotAt s 0 0).state = .configured ∧ ∃ s1 r, readRecord s 0x0FFFF00000000040 (32 * 3) 24 = .ok (s1, r)) ∧
    (let s := slotted { state := .running, nodes := theNodes, edges := theEdges }
     Claim.mayName s 0 ∧ Claim.runs (Claim.slotAt s 0 0) ∧ Claim.alone (Claim.slotAt s 0 0) ∧ (Claim.slotAt s 0 0).afterDrain ≠ 8) ∧
    (let s := slotted { state := .faulted, nodes := theNodes, edges := theEdges }
     Claim.mayName s 0 ∧ ¬ Claim.runs (Claim.slotAt s 0 0)) := by
  refine ⟨Or.inl rfl, ?_, ⟨?_, ?_, rfl, by decide +kernel, rfl⟩, ⟨Or.inr rfl, rfl, _, _, rfl⟩, ⟨Or.inr rfl, ?_, ?_, by decide⟩, Or.inr rfl, ?_⟩
  · rintro (h | h) <;> revert h <;> decide
  · unfold Claim.runs; decide
  · unfold Claim.ownsTwo; decide
  · unfold Claim.runs; decide
  · unfold Claim.alone; decide
  · unfold Claim.runs; decide

/-- A slot with a filter as its only node, aimed. -/
def aimed : State := slotted { state := .configured, aimed := true, nodes := [(5, 0)], active := [(0, 0x02)] }
theorem witness_ChainRunsAndImages :
    Claim.mayName aimed 0 ∧ (rdX aimed 0).toNat < 2 ∧ ¬ Claim.runs (Claim.slotAt aimed 0 0) ∧
    (∃ s1, readPats aimed (Claim.slotAt aimed 0 0) (Claim.slotAt aimed 0 0).active = .ok (s1, [])) ∧
    (∃ p, runPlan aimed 0 0 (Claim.slotAt aimed 0 0) (Claim.slotAt aimed 0 0).active [] 0 1 = .ok p ∧ p.need = 0) ∧
    (∃ c, runPlan (slotted { state := .configured, aimed := true, nodes := theNodes, edges := theEdges }) 0 0
      { state := .configured, aimed := true, nodes := theNodes, edges := theEdges } [] [] 0 1 = .error c) ∧
    ¬ Claim.portBlockedBy aimed 0 0 [] ∧ ¬ Claim.portArmed aimed 0 0 [] ∧
    (∃ s1, storeWords aimed 0x0FFFF00000001000 (chArea (coreOf aimed 0) (Claim.slotAt aimed 0 0)) = .ok s1) ∧
    (∃ s1 r, readRecord (seated id) 0x0FFFF00000001000 0x1040 24 = .ok (s1, r)) ∧
    (slotFrom (fun _ => 0) fun _ => 0).state = .idle := by
  refine ⟨Or.inr rfl, by decide, by unfold Claim.runs; decide, ⟨_, rfl⟩, ⟨_, rfl, by decide⟩, ⟨_, rfl⟩, ?_, ?_, ⟨_, rfl⟩, ⟨_, _, rfl⟩, by decide⟩ <;>
    (rintro ⟨p, h, -⟩; cases h)

/-! ### Firings and ends of chain runs -/

/-- A running slot, with tokens in its queues. -/
def chained (sl : ChSlot) (toks : List (Nat × Tok)) : State :=
  updCore (seated id) 0 fun c => toks.foldl (fun c x => tokAppend c x.1 x.2) { c with slots := [(0, { sl with ctx := some (hartCtx (seated id) 0) })] }
theorem spatial_of {s : State} (h : ((Claim.slotAt s 0 0).state = .running ∧ (Claim.slotAt s 0 0).bell = false ∧
    (Claim.slotAt s 0 0).leave = (Claim.slotAt s 0 0).need) ∧ chHeld s 0 0 = false) : Claim.spatial s 0 0 :=
  ⟨Or.inl h.1.1, h.1.2.1, h.1.2.2, h.2⟩

/-- Node 0 is a filter of words, fed by queues 0 and 1, that fills queue 2. -/
def filtering : State := chained {
    state := .running, nodes := [(5, 0)], edges := [(1, 0, 0, 0, 0), (2, 0, 0, 1, 1), (0, 0, 3, 0, 2)],
    active := [(0, 2)] } [(0, dataTok 0x0000000700000005 8 true), (1, dataTok 0x02 1 true)]
/-- Node 0 is a sparse header of positions, fed by queue 0, that fills queue 2. -/
def heading : State := chained { state := .running, nodes := [(4, 0)], edges := [(1, 0, 0, 0, 0), (0, 0, 3, 0, 2)] } [(0, dataTok 0x81 8 true)]
theorem witness_ChainFirings_tokens :
    (let c := coreOf filtering 0
     let sl := Claim.slotAt filtering 0 0
     Claim.spatial filtering 0 0 ∧ Claim.entered sl ∧ Claim.tagIs c 0 2 ∧ Claim.healthy c sl 0 ∧ Claim.kindAt sl 0 = 5 ∧ Claim.openNode sl 0 ∧ inputAt sl 0 0 = some (0, 0) ∧ inputAt sl 0 1 = some (1, 0) ∧
       outputsOf sl 0 = [2] ∧ Fmt.ofCode (Claim.aimWord sl 0 0 % 32) = some .i32 ∧
       Claim.queueTokens c 0 0 = [dataTok 0x0000000700000005 8 true] ∧ Claim.queueTokens c 1 0 = [dataTok 0x02 1 true] ∧
       Claim.plainInput c 0 0 ∧ Claim.plainInput c 1 0 ∧ Claim.takes c 2 8) ∧
    (let c := coreOf heading 0
     let sl := Claim.slotAt heading 0 0
     Claim.spatial heading 0 0 ∧ Claim.entered sl ∧ Claim.healthy c sl 0 ∧ Claim.kindAt sl 0 = 4 ∧ Claim.openNode sl 0 ∧ inputsOf sl 0 = [(0, 0, 0)] ∧ outputsOf sl 0 = [2] ∧
       (Claim.aimWord sl 0 0).testBit 1 = false ∧ Claim.queueTokens c 0 0 = [dataTok 0x81 8 true] ∧ Claim.plainInput c 0 0 ∧ Claim.takes c 2 256) := by
  refine ⟨⟨spatial_of (by decide), ⟨rfl, by decide⟩, fun h => absurd h (by decide), by unfold Claim.healthy; decide, by decide, ?_, by decide,
      by decide, by decide, by decide, by decide, by decide, ?_, ?_, ?_⟩,
    ⟨spatial_of (by decide), ⟨rfl, by decide⟩, by unfold Claim.healthy; decide, by decide, ?_, by decide, by decide, by decide, by decide, ?_, ?_⟩⟩
  · unfold Claim.openNode Claim.freeNode; decide
  · unfold Claim.plainInput; decide
  · unfold Claim.plainInput; decide
  · unfold Claim.takes Claim.queueSane; decide
  · unfold Claim.openNode Claim.freeNode; decide
  · unfold Claim.plainInput; decide
  · unfold Claim.takes Claim.queueSane; decide

/-- Node 0 is memory port 0, a load into queue 2, or a store out of queue 0. -/
def loading : State := chained { state := .running, nodes := [(2, 2)], edges := [(0, 0, 3, 0, 2)], pats := [(2, aStream false)] } []
def draining : State := chained { state := .running, nodes := [(2, 2)], edges := [(1, 0, 0, 0, 0)], pats := [(2, aStream true)] }
    [(0, dataTok 0x0000000700000005 8 true)]
theorem witness_ChainFirings_ports :
    (let c := coreOf loading 0
     let sl := Claim.slotAt loading 0 0
     Claim.spatial loading 0 0 ∧ Claim.entered sl ∧ portPat sl 0 = some (patOf (aStream false)) ∧ Claim.kindAt sl 0 = 2 ∧ Claim.openNode sl 0 ∧ sl.ctx = some (hartCtx (seated id) 0) ∧ outputsOf sl 0 = [2] ∧
       (∃ s1 pk, loadPiece loading (hartCtx (seated id) 0) (patOf (aStream false)) ⟨0, 0, 0, 0⟩ 0 = .ok (s1, pk, 8) ∧
         qOf (coreOf s1 0) 2 = qOf c 2 ∧ 0 < pk.n) ∧ Claim.takes c 2 (loadCount (patOf (aStream false)) ⟨0, 0, 0, 0⟩ 0 * 32 / 8)) ∧
    (let c := coreOf draining 0
     let sl := Claim.slotAt draining 0 0
     Claim.spatial draining 0 0 ∧ Claim.entered sl ∧ Claim.tagIs c 0 2 ∧ Claim.kindAt sl 0 = 2 ∧ Claim.openNode sl 0 ∧ inputAt sl 0 0 = some (0, 0) ∧
       Claim.queueTokens c 0 0 = [dataTok 0x0000000700000005 8 true] ∧ Claim.plainInput c 0 0 ∧
       unitBlocked (patOf (aStream true)) ⟨0, 0, 0, 0⟩ = false ∧
       ∃ run, storeUnits 3 draining (hartCtx (seated id) 0) (patOf (aStream true)) ⟨0, 0, 0, 0⟩ (0x0000000700000005 % 2 ^ 64) 0 0 0 2 0 = run ∧
         run.stop = none ∧ run.n = 2) := by
  refine ⟨⟨spatial_of (by decide), ⟨rfl, by decide⟩, rfl, by decide, ?_, rfl, by decide, ⟨_, _, rfl, by decide, by decide⟩, ?_⟩,
    ⟨spatial_of (by decide), ⟨rfl, by decide⟩, fun h => absurd h (by decide), by decide, ?_, by decide, by decide, ?_, by decide,
      ⟨_, rfl, by decide +kernel⟩⟩⟩
  · unfold Claim.openNode Claim.freeNode; decide
  · unfold Claim.takes Claim.queueSane; decide
  · unfold Claim.openNode Claim.freeNode; decide
  · unfold Claim.plainInput; decide

/-- Node 0 is an address generator that gathers words of the own tile memory, fed by queue 0, or scatters those of queue 1 there; or the
reduction tree, which adds them. -/
def gathering : State := chained {
    state := .running, nodes := [(3, 0)], edges := [(1, 0, 0, 0, 0), (0, 0, 3, 0, 2)],
    active := [(0, 0x0FFFF00000000100), (1, 0x02)] } [(0, dataTok 4 4 true)]
def scattering : State := chained {
    state := .running, nodes := [(3, 0)], edges := [(1, 0, 0, 0, 0), (2, 0, 0, 1, 1)],
    active := [(0, 0x0FFFF00000000100), (1, 0x22)] } [(0, dataTok 4 4 true), (1, dataTok 9 4 true)]
def reducing : State := chained {
    state := .running, nodes := [(6, 0)], edges := [(1, 0, 0, 0, 0), (2, 0, 0, 1, 1)],
    active := [(0, 0x0FFFF00000000100), (1, 0x10)] } [(0, dataTok 4 4 true), (1, dataTok 9 4 true)]
theorem witness_ChainFirings_indices :
    (let c := coreOf gathering 0
     let sl := Claim.slotAt gathering 0 0
     let s0 := srcFree gathering 0 18
     Claim.spatial gathering 0 0 ∧ (Claim.entered sl ∧ Claim.healthy c sl 0 ∧ Claim.tagIs c 0 2 ∧ Claim.filled c 0 0 32 ∧ Claim.within c 0 0 32 0 ∧
       Claim.closes c 0 0) ∧ Claim.openNode sl 0 ∧ inputAt sl 0 0 = some (0, 0) ∧ outputsOf sl 0 = [2] ∧ aritRoom (coreOf s0 0) ≠ 0 ∧
       Claim.queueTokens c 0 0 = [dataTok 4 4 true] ∧ Claim.plainInput c 0 0 ∧ Claim.takes c 2 4 ∧
       (ownBlocks s0 0 sl 0 0x0FFFF00000000104 4 false = false ∧ redMeets s0 0 0 0x0FFFF00000000104 4 = false) ∧
       ∃ s1, gatherVals s0 (hartCtx (seated id) 0) 4 [0x0FFFF00000000104] = (s1, [0], none)) ∧
    (let c := coreOf scattering 0
     let sl := Claim.slotAt scattering 0 0
     let s0 := srcFree scattering 0 18
     Claim.spatial scattering 0 0 ∧ (Claim.entered sl ∧ Claim.healthy c sl 0 ∧ Claim.tagIs c 1 2 ∧ Claim.filled c 1 0 32) ∧ Claim.openNode sl 0 ∧ inputAt sl 0 1 = some (1, 0) ∧ Claim.plainInput c 1 0 ∧ Claim.within c 1 0 32 0 ∧
       Claim.elementsAhead c 1 0 32 0 = [9] ∧ ownBlocks s0 0 sl 0 0x0FFFF00000000104 4 true = false ∧
       ∃ s1, scatterVals s0 (hartCtx (seated id) 0) 4 [(0x0FFFF00000000104, 9)] = (s1, 1, none)) ∧
    (let c := coreOf reducing 0
     let sl := Claim.slotAt reducing 0 0
     Claim.spatial reducing 0 0 ∧ Claim.entered sl ∧ Claim.healthy c sl 0 ∧ Claim.kindAt sl 0 = 6 ∧ Claim.openNode sl 0 ∧ Fmt.ofCode (Claim.aimWord sl 0 1 / 8 % 32) = some .i32 ∧
       Claim.plainInput c 0 0 ∧ Claim.plainInput c 1 0 ∧ Claim.within c 1 0 32 0 ∧ aritRoom c ≠ 0 ∧
       ownBlocks reducing 0 sl 0 0x0FFFF00000000104 4 true = false ∧
       ∃ (st : Nat → State) (loc : Nat → Loc), st 0 = reducing ∧ ∀ b va, [0x0FFFF00000000104][b]? = some va →
         translate (st b) (hartCtx (seated id) 0) .store .atomic va = (st (b + 1), .ok (loc b)) ∧ locPoisoned (st (b + 1)) (loc b) 4 = false) := by
  refine ⟨⟨spatial_of (by decide), ⟨⟨rfl, by decide⟩, by unfold Claim.healthy; decide, fun h => absurd h (by decide), by unfold Claim.filled; decide,
      ?_, ⟨dataTok 4 4 true, by decide, rfl⟩⟩, ?_, by decide, by decide, by decide, by decide, ?_, ?_, by decide, ⟨_, rfl⟩⟩,
    ⟨spatial_of (by decide), ⟨⟨rfl, by decide⟩, by unfold Claim.healthy; decide, fun h => absurd h (by decide), by unfold Claim.filled; decide⟩, ?_,
      by decide, ?_, ?_, by decide, by decide, ⟨_, rfl⟩⟩,
    ⟨spatial_of (by decide), ⟨rfl, by decide⟩, by unfold Claim.healthy; decide, by decide, ?_, by decide, ?_, ?_, ?_, by decide, by decide, fun _ => reducing, fun _ => .tile 0 0x104, rfl, ?_⟩⟩
  · intro t h; rw [show (Claim.queueTokens (coreOf gathering 0) 0 0).head? = some (dataTok 4 4 true) by decide] at h; cases h; decide
  · unfold Claim.openNode Claim.freeNode; decide
  · unfold Claim.plainInput; decide
  · unfold Claim.takes Claim.queueSane; decide
  · unfold Claim.openNode Claim.freeNode; decide
  · unfold Claim.plainInput; decide
  · intro t h; rw [show (Claim.queueTokens (coreOf scattering 0) 1 0).head? = some (dataTok 9 4 true) by decide] at h; cases h; decide
  · unfold Claim.openNode Claim.freeNode; decide
  · unfold Claim.plainInput; decide
  · unfold Claim.plainInput; decide
  · intro t h; rw [show (Claim.queueTokens (coreOf reducing 0) 1 0).head? = some (dataTok 9 4 true) by decide] at h; cases h; decide
  · intro b va h
    match b, h with
    | 0, h => cases h; exact ⟨rfl, by decide⟩

/-- Node 0 is the matrix node, into tile 2, of one column and one row, one product. -/
def multiplying (out : Bool) : State := updCore (chained {
    state := .running, nodes := [(1, 0)], edges := [(1, 0, 0, 0, 0), (2, 0, 0, 1, 1)] ++ if out then [(0, 0, 3, 0, 2)] else [],
    active := [(0, 2), (1, 1)] } [(0, dataTok 0x40000000 4 true), (1, dataTok 0x40400000 4 true)]) 0
  fun c => { c with q := c.q.map fun x => (x.1, { x.2 with qtag := 9, tagset := true }) }
theorem witness_ChainFirings_matrix :
    let c := coreOf (multiplying false) 0
    let sl := Claim.slotAt (multiplying false) 0 0
    let w := Claim.controlWord (multiplying true) 0 2
    Claim.spatial (multiplying false) 0 0 ∧ Claim.entered sl ∧ Claim.healthy c sl 0 ∧ Claim.filled c 0 0 32 ∧ Claim.filled c 1 0 32 ∧
      1 ≤ Claim.columns w ∧ Claim.tileTagged (multiplying false) 0 2 ∧ Claim.closes c 0 0 ∧ Claim.closes c 1 0 ∧ outputsOf sl 0 = [] ∧
      (outputsOf (Claim.slotAt (multiplying true) 0 0) 0 = [2] ∧ Claim.downFormat w = .i8 ∧ Claim.downBlk w = 0 ∧ Claim.blockFits .i8 0 ∧
        Claim.takes (coreOf (multiplying true) 0) 2 1) ∧ Claim.kindAt sl 0 = 1 ∧ Claim.openNode sl 0 ∧ Claim.aimWord sl 0 1 = 1 ∧ (Claim.aimWord sl 0 0).testBit 9 = false ∧
      inputAt sl 0 0 = some (0, 0) ∧ inputAt sl 0 1 = some (1, 0) ∧ Claim.tagNames (qOf c 0).qtag.toNat .fp32 0 ∧
      Claim.tagNames (qOf c 1).qtag.toNat .fp32 0 ∧ Claim.pairsInto (Claim.controlWord (multiplying false) 0 2 % 2 == 1) .fp32 .fp32 ∧
      Claim.plainInput c 0 0 ∧ Claim.plainInput c 1 0 ∧ Claim.within c 0 0 32 0 ∧ Claim.within c 1 0 32 0 ∧
      1 ≤ (Claim.elementsAhead c 0 0 32 0).length ∧ 1 ≤ (Claim.elementsAhead c 1 0 32 0).length := by
  refine ⟨spatial_of (by decide), ⟨rfl, by decide⟩, by unfold Claim.healthy; decide, by unfold Claim.filled; decide, by unfold Claim.filled; decide,
    by decide, Or.inr rfl, ⟨dataTok 0x40000000 4 true, by decide, rfl⟩, ⟨dataTok 0x40400000 4 true, by decide, rfl⟩, by decide, ⟨by decide, by decide, by decide, by unfold Claim.blockFits; decide,
      by unfold Claim.takes Claim.queueSane; decide⟩, by decide, ?_, by decide, by decide, by decide, by decide, ?_, ?_, Or.inr (by decide), ?_, ?_, ?_, ?_,
    by decide, by decide⟩
  · unfold Claim.openNode Claim.freeNode; decide
  · unfold Claim.tagNames Claim.blockFits; decide
  · unfold Claim.tagNames Claim.blockFits; decide
  · unfold Claim.plainInput; decide
  · unfold Claim.plainInput; decide
  · intro t h; rw [show (Claim.queueTokens (coreOf (multiplying false) 0) 0 0).head? = some (dataTok 0x40000000 4 true) by decide] at h; cases h; decide
  · intro t h; rw [show (Claim.queueTokens (coreOf (multiplying false) 0) 1 0).head? = some (dataTok 0x40400000 4 true) by decide] at h; cases h; decide

/-- The example of spec/08: its stage under FP16, with one token of one row; the link of two cores. -/
def staged : State := updCore described 0 fun c => tokAppend { c with
    slots := [(0, { state := .running, nodes := theNodes, edges := theEdges, desc := 0x0FFFF00000000040,
                    stages := [(1, ⟨[(0, 0, false), (1, 1, true)], [0x100090AB], 0x6C⟩)], pats := [(0, aStream false), (1, aStream true)], active := [(4, 0x050), (5, -0xC0000000)] })]
    q := [(0, { tagset := true, qtag := 10 })] } 0 (dataTok 0x34CD 32 false)
theorem witness_ChainFirings_stage :
    let c := coreOf staged 0
    let sl := Claim.slotAt staged 0 0
    Claim.spatial staged 0 0 ∧ Claim.entered sl ∧ Claim.healthy c sl 1 ∧ Claim.kindAt sl 1 = 0 ∧ Claim.openNode sl 1 ∧ vtypeOf 0x050 = some (0, .fp16, 0) ∧
      (∃ r, stageOf sl 1 = some r ∧ r.binds = [(0, 0, false), (1, 1, true)] ∧ ∃ s1 ws, stageWords staged 0 sl r = .ok (s1, ws) ∧
        ∃ u lens, stageRun 16 16 0 (0, .fp16, 0) ws (setHart { s1 with cur := 0 } 0 (loadRow
          (stageHart (hartOf staged 0) 0x050 16 0 0 fun i => BitVec.ofNat 64 (Claim.aimWord sl 1 i)) 16 0 0 10 (rowAt c 0 0 1))) = .ok (u, lens)) ∧
      inputsOf sl 1 = [(0, 0, 0)] ∧ Claim.queueTokens c 0 0 = [dataTok 0x34CD 32 false] ++ [] ∧ Claim.takes c 1 32 := by
  refine ⟨spatial_of (by decide +kernel), ⟨rfl, by decide +kernel⟩, by unfold Claim.healthy; decide +kernel, by decide +kernel, ?_, by decide,
    ⟨_, rfl, rfl, _, _, rfl, _, _, rfl⟩, by decide +kernel, by decide +kernel, ?_⟩
  · unfold Claim.openNode Claim.freeNode; decide +kernel
  · unfold Claim.takes Claim.queueSane; decide +kernel

/-- The same slot of two cores, joined by a lane link: node 0 of core 0 is fed by queue 0, that of core 1 fills queue 3. -/
def linked : State :=
  let s := updCore (chained { state := .running, nodes := [(7, 1)], edges := [(1, 0, 0, 0, 0)] } [(0, dataTok 5 8 false)]) 1 fun c =>
    { c with gang := some 0, slots := [(0, { state := .running, nodes := [(7, 3)], edges := [(0, 0, 2, 0, 3)] })] }
  updGang s 0 fun g => { g with w := 2 }
theorem witness_ChainFirings_link :
    let c := coreOf linked 0
    let sl := Claim.slotAt linked 0 0
    Claim.spatial linked 0 0 ∧ Claim.kindAt sl 0 = 7 ∧ inputAt sl 0 0 = some (0, 0) ∧ llFace linked 0 0 0 = some (1, 0) ∧
      (Claim.slotAt linked 1 0).state = .running ∧ outputsOf (Claim.slotAt linked 1 0) 0 = [3] ∧ Claim.queueSane (qOf (coreOf linked 1) 3) ∧
      1 ≤ qRoom (qOf (coreOf linked 1) 3) ∧ Claim.queueTokens c 0 0 = [dataTok 5 8 false] := by
  refine ⟨spatial_of (by decide), by decide, by decide, by decide, by decide, by decide, ?_, by decide, by decide⟩
  unfold Claim.queueSane; decide

/-- A slot in TEMPORAL whose one node can fire. -/
def temporal : State := updCore heading 0 fun c => { c with slots := c.slots.map fun x => (x.1, { x.2 with state := .temporal }) }
theorem witness_ChainFirings_temporal :
    let sl := Claim.slotAt temporal 0 0
    (sl.state = .temporal ∧ sl.leave = sl.need ∧ (∀ m < sl.nodes.length, (aget {} sl.latch m).park = none) ∧ chHeld temporal 0 0 = false) ∧
      sl.nodes.length = 1 ∧ ∃ t, fireNode temporal 0 0 0 = some t := by
  refine ⟨by decide, by decide, ⟨_, rfl⟩⟩

/-- A slot in a state whose sources owe nothing, and what its node can do. -/
def running (sl : ChSlot) : State := chained sl []
def port : ChSlot := { state := .running, nodes := [(2, 2)], edges := [(0, 0, 1, 0, 0)], pats := [(2, aStream false)] }
def boundAt : AMap Word :=
  [(0, 0x0FFFF00000000100), (2, 0x0FFFF00000000100), (3, 8 + 2 * 2 ^ 32 + 2 ^ 40 + 2 ^ 41), (4, 1 + 2 ^ 32), (5, 1)]
def bounded : State := chained { state := .running, nodes := [(2, 2)], edges := [(1, 0, 0, 0, 0)], pats := [(2, boundAt)] }
  [(0, dataTok 0x0000000700000005 8 true)]
/-- A filter of one input that has a marker at its head. -/
def marking (sub : Nat) (more : ChSlot → ChSlot) (toks : List Tok) : State := chained (more {
    state := .running, nodes := [(5, 0)], edges := [(1, 0, 0, 0, 0), (0, 0, 3, 0, 2)] }) (([Claim.marker sub] ++ toks).map fun t => (0, t))
/-- A sparse header whose output has two consumers, of which the first has taken nothing of a full queue. -/
def multicast : State := updCore (chained {
    state := .running, mcto := 5, mcIdle := [(8, 7)], pats := [(2, aStream true), (3, aStream true)]
    nodes := [(4, 0), (2, 2), (2, 3)], edges := [(3, 0, 0, 0, 0), (0, 0, 1, 0, 2), (0, 0, 2, 0, 2)] } [(0, dataTok 0x81 8 true)]) 0 fun c =>
  { c with q := aput c.q 2 { tail := 256, rp := [(1, 256)], cmask := 3 } }
theorem underWay_of {s : State} (h : (Claim.slotAt s 0 0).state = .running ∧ chHeld s 0 0 = false) : Claim.underWay s 0 0 :=
  ⟨by rw [h.1]; simp, h.2⟩
theorem witness_ChainEvents :
    -- markers and the end of a configuration period, at a source that owes one or has fired its last row
    (let s := running { port with latch := [(0, { owe := 1 })] }
     Claim.stopForm (.bellAtNode 0 0 0) = some (0, 0, 0, 1) ∧ Claim.spatial s 0 0 ∧ Claim.sourceNode (Claim.slotAt s 0 0) 0 ∧
       Claim.marksFit (coreOf s 0) [0] 1 ∧ (∀ o ∈ chGroup s 0 0, Claim.queuesClear s o 0) ∧ ¬ Claim.groupFires s 0 0) ∧
    (let s := marking 1 id []
     Claim.spatial s 0 0 ∧ inputsOf (Claim.slotAt s 0 0) 0 = [(0, 0, 0)] ∧ ¬ Claim.softFed (Claim.slotAt s 0 0) 0 ∧
       Claim.queueTokens (coreOf s 0) 0 0 = [Claim.marker 1] ∧ fireNode s 0 0 0 = none) ∧
    (let s := running { port with pending := true, latch := [(0, { done := true })] }
     Claim.underWay s 0 0 ∧ Claim.sourceNode (Claim.slotAt s 0 0) 0 ∧ Claim.marksFit (coreOf s 0) [0] 2) ∧
    (let s := marking 3 (fun sl => { sl with pending := true }) [Claim.config 5]
     Claim.underWay s 0 0 ∧ ¬ Claim.softFed (Claim.slotAt s 0 0) 0 ∧ Claim.queueTokens (coreOf s 0) 0 0 = [Claim.marker 3, Claim.config 5]) ∧
    -- a store port at its bound, a consumer that holds its producer back
    (Claim.underWay bounded 0 0 ∧ Claim.openNode (Claim.slotAt bounded 0 0) 0 ∧ inputAt (Claim.slotAt bounded 0 0) 0 0 = some (0, 0) ∧
      portPat (Claim.slotAt bounded 0 0) 0 = some (patOf boundAt) ∧ unitBlocked (patOf boundAt) ⟨0, 0, 0, 0⟩ = true) ∧
    (let s := marking 4 (fun sl => { sl with boundNode := some 0 }) []
     Claim.underWay s 0 0 ∧ Claim.queueTokens (coreOf s 0) 0 0 = [Claim.marker 4]) ∧
    (Claim.underWay multicast 0 0 ∧ waitsOn multicast 0 0 2 0 = true ∧ max 1 (Claim.slotAt multicast 0 0).mcto ≤ aget 0 (Claim.slotAt multicast 0 0).mcIdle 8 ∧
      consumerNode (Claim.slotAt multicast 0 0) 2 0 = some 1) ∧
    -- a fault withheld for the limit
    (let sl := Claim.slotAt (running { port with chto := 4, fage := 4, latch := [(0, { park := some 9 })] }) 0 0
     Claim.faultParked sl 0 ∧ sl.chto ≤ sl.fage ∧ Claim.alone sl) ∧
    -- a drain and a run with nothing left to do
    (let s := running { port with state := .draining, afterDrain := 8, latch := [(0, { done := true })] }
     chHeld s 0 0 = false ∧ Claim.silent s 0 0 ∧ (Claim.slotAt s 0 0).afterDrain = 8) ∧
    (let s := running { port with latch := [(0, { done := true })] }
     chHeld s 0 0 = false ∧ chReds s 0 (Claim.slotAt s 0 0) = false ∧ (∀ m, ¬ Claim.faultParked (Claim.slotAt s 0 0) m) ∧
       ∀ m < (Claim.slotAt s 0 0).nodes.length, (aget {} (Claim.slotAt s 0 0).latch m).done = true) ∧
    -- a roll call of a bell, and of a slot that is BROKEN no longer for a fault
    (let s := running { port with latch := [(0, { stop := 1 })] }
     chHeld s 0 0 = false ∧ Claim.silent s 0 0 ∧ Claim.queuesClear s 0 0 ∧ ∀ m < (Claim.slotAt s 0 0).nodes.length,
       (aget {} (Claim.slotAt s 0 0).latch m).stop = 1) ∧
    (let s := running { port with state := .broken }
     (Claim.slotAt s 0 0).state = .broken ∧ ∀ m, ¬ Claim.faultParked (Claim.slotAt s 0 0) m) ∧
    -- a run whose port is at its bound, and one with nothing but a detached node left
    (let s := running { port with boundNode := some 0, latch := [(0, { stop := 4 })] }
     Claim.silent s 0 0 ∧ chReds s 0 (Claim.slotAt s 0 0) = false ∧ (∃ m < 1, nodeFinished (coreOf s 0) (Claim.slotAt s 0 0) 33 m = false) ∧
       ¬ (∃ m < 1, (aget {} (Claim.slotAt s 0 0).latch m).owe ≠ 0) ∧
       ¬ ∃ m < 1, fireNode (updCore s 0 fun c => { c with arit := [], redq := [] }) 0 0 m ≠ none) ∧
    (let s := running { port with detachNode := some 0, latch := [(0, { detached := true })] }
     Claim.silent s 0 0 ∧ Claim.alone (Claim.slotAt s 0 0) ∧ ¬ Claim.softWaits s 0 0 ∧
       ¬ ∃ m < 1, fireNode (updCore s 0 fun c => { c with arit := [], redq := [] }) 0 0 m ≠ none) ∧
    -- the end of a chain's link
    (chGroup (running { state := .running, nodes := [(7, 0)] }) 0 0 = [0]) := by
  refine ⟨⟨rfl, spatial_of (by decide), ?_, ?_, ?_, ?_⟩, ⟨spatial_of (by decide), by decide, ?_, by decide, rfl⟩, ⟨underWay_of (by decide), ?_, ?_⟩,
    ⟨underWay_of (by decide), ?_, by decide⟩, ⟨underWay_of (by decide), ?_, by decide, rfl, by decide⟩, ⟨underWay_of (by decide), by decide⟩,
    ⟨underWay_of (by decide), by decide, by decide, by decide⟩, ⟨?_, by decide, ?_⟩, ⟨by decide, ?_, by decide⟩,
    ⟨by decide, by decide, ?_, by decide⟩, ⟨by decide, ?_, ?_, by decide⟩, ⟨rfl, ?_⟩, ⟨?_, by decide, by decide, by decide, ?_⟩,
    ⟨?_, ?_, ?_, ?_⟩, by decide⟩
  · unfold Claim.sourceNode Claim.softFed Claim.softEnded; decide
  · unfold Claim.marksFit Claim.queueSane; decide
  · intro o ho; obtain rfl : o = 0 := by rwa [show chGroup _ 0 0 = [0] by decide, List.mem_singleton] at ho
    unfold Claim.queuesClear; decide
  · rintro ⟨o, ho, n, hn, he, _⟩; obtain rfl : o = 0 := by rwa [show chGroup _ 0 0 = [0] by decide, List.mem_singleton] at ho
    obtain rfl : n = 0 := Nat.lt_one_iff.1 hn
    revert he; decide
  · unfold Claim.softFed Claim.softEnded; decide
  · unfold Claim.sourceNode Claim.softFed Claim.softEnded; decide
  · unfold Claim.marksFit Claim.queueSane; decide
  · unfold Claim.softFed Claim.softEnded; decide
  · unfold Claim.openNode Claim.freeNode; decide
  · unfold Claim.faultParked; decide
  · unfold Claim.alone; decide
  · intro m (hm : m < 1); obtain rfl : m = 0 := by omega
    rfl
  · rintro m ⟨hm, h⟩; obtain rfl : m = 0 := Nat.lt_one_iff.1 hm
    exact h rfl
  · intro m (hm : m < 1); obtain rfl : m = 0 := by omega
    rfl
  · unfold Claim.queuesClear; decide
  · rintro m ⟨hm, h⟩; obtain rfl : m = 0 := Nat.lt_one_iff.1 hm
    exact h rfl
  · intro m (hm : m < 1); obtain rfl : m = 0 := by omega
    rfl
  · rintro ⟨m, hm, h⟩; obtain rfl : m = 0 := Nat.lt_one_iff.1 hm
    exact h rfl
  · intro m (hm : m < 1); obtain rfl : m = 0 := by omega
    rfl
  · unfold Claim.alone; decide
  · unfold Claim.softWaits; decide
  · rintro ⟨m, hm, h⟩; obtain rfl : m = 0 := Nat.lt_one_iff.1 hm
    exact h rfl

/-! ### Between harts -/

/-- In M-mode at physical address 0, with addresses of tile memory and of memory, and numbers, in x registers. -/
def firmware : State := updHart (at0 0x13) 0 fun h => { h with x := [(5, 0x100), (6, 0x200), (7, 3), (8, 64)] }
/-- Hart 0 with a message ring in its tile memory: its descriptor at 0x40, its storage at 0x1000. -/
def ring (tail head : Nat) : State :=
  homeWrite (seated fun h => { h with x := [(2, 0x0FFFF00000000040), (5, 0x0FFFF00000000400), (6, 8)] }) 0 (.tile 0 0x40) 32
    (0x0FFFF00000001000 + (8 + 2 ^ 6) * 2 ^ 64 + tail * 2 ^ 128 + head * 2 ^ 160)

theorem witness_Barriers :
    (coreOf (seated id) (myCore (seated id))).gang = some 0 ∧ Claim.expOf (Claim.barrierAt (seated id) 0 1) = 2 ∧
    Claim.arrOf (Claim.barrierAt (seated id) 0 1) = 0 ∧ (rdX (seated id) 5).toNat = 7 ∧ Claim.expOf (Claim.barrierAt (seated id) 0 0) = 0 ∧
    (∃ s1, releaseAll (seated id) = .ok s1 ∧ (coreOf s1 (myCore s1)).gang = some 0 ∧ Claim.expOf (Claim.barrierAt s1 0 1) = 2) ∧
    (let s := seated fun h => { h with latch := some ⟨0, 1, 0⟩ }
     (me s).latch = some ⟨(me s).pc, 1, 0⟩ ∧ Claim.phaseOf (Claim.barrierAt s 0 1) = (0 : BitVec 32).toNat) ∧
    (let s := seated fun h => { h with wait := some (.barw false 1 5) }
     canMove s 0 = true ∧ (hartOf s 0).wait = some (.barw false 1 5)) :=
  ⟨by decide, by decide, by decide, by decide, by decide, ⟨_, rfl, by decide, by decide⟩, by decide, by decide⟩

theorem ring_is (tail head : Nat) (l : Loc) (s : State) (h : homeRead s l 32 = 0x0FFFF00000001000 + (8 + 2 ^ 6) * 2 ^ 64 + tail * 2 ^ 128 + head * 2 ^ 160)
    (ht : tail < 1000) (hh : head < 1000) : Claim.RingIs s l 0x0FFFF00000001000 8 tail head false true := by
  constructor <;> rw [h] <;> first | omega | skip
  · rw [Nat.testBit_eq_decide_div_mod_eq]; simp; omega
  · rw [Nat.testBit_eq_decide_div_mod_eq]; simp; omega
theorem witness_MessageRings :
    Claim.reachesRing (ring 0 0) (rdX (ring 0 0) 2).toNat (.tile 0 0x40) ∧
    Claim.RingIs (ring 0 0) (.tile 0 0x40) 0x0FFFF00000001000 8 0 0 false true ∧
    Claim.RingIs (ring 16 0) (.tile 0 0x40) 0x0FFFF00000001000 8 16 0 false true ∧
    (∃ s1 pay, readBytes (ring 0 0) 0x0FFFF00000000400 8 = .ok (s1, pay)) ∧
    tileAt (ring 0 0) 0x0FFFF00000001000 = some (.tile 0 0x1000) ∧
    (homeRead (ring 16 0) (.tile 0 0x1000) 8 / 2 ^ 24 % 2 ^ 8 ≠ 2 ∧ homeRead (ring 16 0) (.tile 0 0x1000) 8 % 2 ^ 24 ≤ 8) ∧
    (∃ s1, writeBytes (ring 16 0) 0x0FFFF00000000400 0 0 = .ok s1) :=
  ⟨⟨by decide, by decide, by decide, by decide⟩, ring_is 0 0 _ _ (by decide +kernel) (by decide) (by decide),
    ring_is 16 0 _ _ (by decide +kernel) (by decide) (by decide), ⟨_, _, rfl⟩, by decide, by decide +kernel, ⟨_, rfl⟩⟩

theorem witness_FuturesAndTasks :
    (∃ s2, Claim.reachesCell firmware s2 .store (rdX firmware 5).toNat 16 (.phys 0x100 0 8192) ∧ homeRead s2 (.phys 0x100 0 8192) 8 = 0 ∧
      ∃ s3, releaseAll s2 = .ok s3 ∧ homeRead s3 (.phys 0x100 0 8192) 8 % 4 = 0) ∧
    (∃ s2, Claim.reachesCell firmware s2 .load (rdX firmware 5).toNat 16 (.phys 0x100 0 8192)) ∧
    (∃ s1 s2, Claim.reachesCell firmware s1 .store (rdX firmware 5).toNat 16 (.phys 0x100 0 8192) ∧
      Claim.reachesCell s1 s2 .store (rdX firmware 6).toNat 32 (.phys 0x200 0 8192)) ∧
    (∃ s1 r, readRecord (physWrite firmware 0 0x100 16 0x40) 0x100 16 24 = .ok (s1, r) ∧ r % 2 ^ 64 = 0x40 ∧ ∃ s2, fenceRel s1 true true = .ok s2 ∧
      Claim.tasks s2 0 0 < 8191 ∧ bitOf (hartCtx s2 s2.cur).dirty.toNat 0 = false) ∧
    Claim.tasks (physWrite firmware 0 0x18D0008 8 1) 0 0 ≠ 0 ∧
    (let w : Walk := { id := 4, next := 0x200, ctx := hartCtx firmware 0 }
     let s := { firmware with walks := [w] }
     s.walks.find? (fun v => v.id == 4) = some w ∧ ∃ s1, translate s w.ctx .load .sync 0x200 = (s1, .ok (.phys 0x200 0 8192)) ∧
       locPoisoned s1 (.phys 0x200 0 8192) 32 = false) := by
  have notStrong : ∀ (a : Nat) (pa key : Nat), (Loc.phys a 0 8192) = .phys pa 3 key → False := by intro a pa key h; cases h
  refine ⟨⟨_, ⟨_, ⟨by decide, rfl, by decide, fun _ _ h => (notStrong _ _ _ h).elim, by intro _ h; cases h⟩, fun _ _ h => notStrong _ _ _ h, by decide, rfl⟩, by decide,
      _, rfl, by decide⟩, ⟨_, _, ⟨by decide, rfl, by decide, fun _ _ h => (notStrong _ _ _ h).elim, by intro _ h; cases h⟩, fun _ _ h => notStrong _ _ _ h, by decide, rfl⟩,
    ⟨_, _, ⟨_, ⟨by decide, rfl, by decide, fun _ _ h => (notStrong _ _ _ h).elim, by intro _ h; cases h⟩, fun _ _ h => notStrong _ _ _ h, by decide, rfl⟩,
      ⟨_, ⟨by decide, rfl, by decide, fun _ _ h => (notStrong _ _ _ h).elim, by intro _ h; cases h⟩, fun _ _ h => notStrong _ _ _ h, by decide, rfl⟩⟩,
    ⟨_, _, rfl, by decide +kernel, _, rfl, by decide +kernel, by decide +kernel⟩, by decide +kernel, ⟨by decide, ⟨_, rfl, by decide⟩⟩⟩

/-! ### Near-memory units -/

/-- Hart 0 in M-mode with two leave units granted, I32 data, and a fill of 16 bytes at 0x1000 as command 4. -/
def banker : State := updHart firmware 0 fun h => { h with leaveOk := 2 }
def theFill : Piece := ⟨4, 0x09, .fill 7, ⟨0x1000, 0x1000, 16, 8192⟩, 0, 0⟩
def theGather : Piece := { theFill with op := .gather 0 }
def theCmd : BauCmd := { seat := 0, hart := 0, asid := 0, tid := 0, descVa := 0, left := 1, dst := [⟨0x1000, 0x1000, 16, 8192⟩], xdirty := 0, weight := 2 }
def piecing (p : Piece) (todo : List (Nat × Piece)) : State := { banker with banks := [(0, [p])], cmds := [(4, { theCmd with todo := todo })] }

theorem witness_BankArithmetic_commands :
    (∀ kv ∈ banker.cmds, kv.2.hart ≠ banker.cur ∨ kv.2.todo = []) ∧
    (∃ s1 r, readRecord banker 0x100 32 25 = .ok (s1, r)) ∧
    Claim.bankDescriptor (0x09 * 16 + 7 * 2 ^ 32 + 0x1000 * 2 ^ 64 + 4 * 2 ^ 192) ∧
    (∃ s2 src dst ps, bauPlan banker 4 0 0x09 .fp32 7 0x1000 0 0 4 = .ok (s2, src, dst, ps) ∧ ps.length = 1 ∧
      ∃ s3, askLeave s2 2 = .ok s3 ∧ ∃ s4, bauIssue s3 dst src = .ok s4) ∧
    ((piecing theFill [(0, theFill)]).cmds.find? fun kv => kv.2.hart == 0 && !kv.2.todo.isEmpty) = some (4, { theCmd with todo := [(0, theFill)] }) := by
  refine ⟨(by intro kv h; cases h), ⟨_, _, rfl⟩, ⟨4, rfl, by decide, by decide, by decide, by decide, by decide, by decide, by decide, by decide,
    by decide, by decide⟩, ⟨_, _, _, _, rfl, rfl, _, rfl, _, rfl⟩, by decide⟩
theorem witness_BankArithmetic_pieces :
    (let s := piecing theFill []
     bankQ s 1 = [] ∧ bankQ s 0 = [theFill] ∧ aget? s.cmds theFill.cmd = some theCmd ∧ bauFmt theFill.fmt = some .fp32 ∧
       Claim.bankBytes theFill.fmt = some 4 ∧ Claim.plainPiece s 0 theFill theCmd 4) ∧
    (let s := piecing theGather []
     bankQ s 0 = [theGather] ∧ Claim.plainPiece s 0 theGather theCmd 4 ∧ 3 < theGather.at_.len / 4) ∧
    (let p : Piece := ⟨4, 0x09, .combine, ⟨0x2000, 0x2000, 4, 8192⟩, 0, 0⟩
     let c := { theCmd with got := [(0, [0x3F800000, 0x40000000])] }
     let s := { piecing p [] with cmds := [(4, c)] }
     bankQ s 0 = [p] ∧ aget? s.cmds p.cmd = some c ∧ c.left = 1 ∧ aget? s.bankErr 0 = none ∧ Claim.keyHeld s p.at_.key ∧
       (c.got.flatMap fun kv => kv.2) ≠ [] ∧ ∀ v ∈ c.got.flatMap fun kv => kv.2, v < 2 ^ (8 * 4)) ∧
    (let p : Piece := { theFill with at_ := ⟨0x1000, 0x1000, 16, 5⟩ }
     bankQ (piecing p []) 0 = [p] ∧ ∃ r ∈ p.at_ :: Claim.pieceSources p, ¬ Claim.keyHeld (piecing p []) r.key) ∧
    (let s := updHart banker 0 fun h => { h with xc := { h.xc with vtype := 0x48, vl := 2 }, tags := [(2, 2), (3, 9)] }
     let e : VEnv := ⟨me s, lanesOf s 0, 2, 0, 0, .fp32, 0, 0⟩
     Claim.vecSees s 0 e ∧ 2 ≤ 32 * e.lanes ∧ overlaps 4 e.grp 2 2 = false ∧ groupOkAt 4 e.grp = true ∧
       Claim.tagged e 2 1 (tagOf .i32 0) ∧ Claim.tagged e 3 1 (tagOf .fp32 0) ∧
       (∃ s1 r, readRecord s 0x100 16 25 = .ok (s1, r)) ∧
       (∃ s2 rows, Claim.rowRanges s 0x1000 64 16 [0, 1] = .ok (s2, rows) ∧ ∃ s3, askLeave s2 2 = .ok s3 ∧ ∃ s4, bauIssue s3 [] rows.flatten = .ok s4 ∧
         piecesAhead s4 s4.cur rows.flatten = false ∧ poisonedRng s4 rows.flatten = none)) ∧
    Claim.tableDescriptor (0x1000 + (4 + 0x09 * 2 ^ 13 + 2 * 2 ^ 32) * 2 ^ 64) 1024 ∧
    (let g : Refill := ⟨0, 4, [(0, 5), (1, 6)], [], 32, none, 2⟩
     let s := updCore banker 0 fun c => { c with refills := [g] }
     (coreOf s 0).refills.find? (fun g => g.locs.isEmpty) = some g ∧ 1 ≤ lanesOf s 0 ∧ g.slot < 8) := by
  refine ⟨⟨rfl, rfl, rfl, rfl, rfl, rfl, rfl, by decide, ?_, ?_⟩, ⟨rfl, ⟨rfl, rfl, by decide, ?_, ?_⟩, by decide⟩,
    ⟨rfl, rfl, rfl, rfl, Or.inl (by decide), by decide, by decide⟩, ⟨rfl, _, List.mem_singleton.2 rfl, ?_⟩,
    ⟨⟨by decide, by decide, by decide, rfl⟩, by decide, by decide, by decide, by unfold Claim.tagged; decide, by unfold Claim.tagged; decide,
      ⟨_, _, rfl⟩, ⟨_, _, rfl, _, rfl, _, rfl, by decide, by decide⟩⟩, by unfold Claim.tableDescriptor; decide, by decide⟩
  · rintro r h; rw [show r = theFill.at_ by simpa [Claim.pieceSources, theFill] using h]; exact Or.inl (by decide)
  · exact ⟨by decide, fun r h => by cases h⟩
  · rintro r h; rw [show r = theGather.at_ by simpa [Claim.pieceSources, theGather, theFill] using h]; exact Or.inl (by decide)
  · exact ⟨by decide, fun r h => by cases h⟩
  · unfold Claim.keyHeld; decide

/-- Hart 0 in M-mode with a save area at 1 GiB, its lookup unit 0 configured, one batch in record 0 of hart 0. -/
def looking : State := physWrite (updHart firmware 0 fun h => { h with xc := { h.xc with ctxbase := 0x40000000 }, leaveOk := 4 }) 0
  (0x40000000 + 0x18F0000 + 24) 8 (1 + 2 ^ 13 + 2 ^ 22 + 2 ^ 30 + 0x09 * 2 ^ 43)
def batched : State := { physWrite looking 0 (0x40000000 + 0x18F1000 + 0x70) 8 1 with
  pkl := [(0, [{ seat := 0, recPa := 0x40000000 + 0x18F1000, ctx := hartCtx looking 0, weight := 4 }])] }
theorem witness_ProductKeyLookup :
    Claim.lookupConfig ((1 + 2 ^ 13 + 2 ^ 22 + 2 ^ 30 + 0x09 * 2 ^ 43) * 2 ^ 192) ∧
    (hartCtx looking 0).ctxbase ≠ 0 ∧ areaRead looking 0 (Claim.configAt 0x40000000 0) 64 / 2 ^ 192 % 2 ^ 13 ≠ 0 ∧
    (∃ s1 r, readRecord looking 0x100 32 25 = .ok (s1, r)) ∧ ¬ Claim.batchUsed looking 0 (Claim.batchAt 0x40000000 0 0) ∧
    (∃ s2, askLeave looking 4 = .ok s2) ∧
    (Claim.batchUsed batched 0 (Claim.batchAt 0x40000000 0 0) ∧ Claim.batchTicket batched 0 (Claim.batchAt 0x40000000 0 0) = 0) ∧
    (∃ j, aget [] batched.pkl 0 = [j] ∧ j.park = none ∧ j.fatal = none ∧ j.fin = none ∧ areaRead batched j.ctx.tid j.recPa 32 / 2 ^ 210 % 2 = 0 ∧
      areaRead batched j.ctx.tid j.recPa 32 / 2 ^ 192 % 2 ^ 16 ≤ Claim.batchStatus batched j.ctx.tid j.recPa / 2 ^ 32 % 2 ^ 32) ∧
    (∃ s1, evqPost looking (hartCtx looking 0) 0 0 (0, 0, 0, 0) = .done s1) := by
  refine ⟨by unfold Claim.lookupConfig; decide, by decide +kernel, by decide +kernel, ⟨_, _, rfl⟩, by unfold Claim.batchUsed; decide +kernel, ⟨_, rfl⟩,
    ⟨by unfold Claim.batchUsed; decide +kernel, by decide +kernel⟩, ⟨_, rfl, rfl, rfl, rfl, by decide +kernel, by decide +kernel⟩, ⟨_, rfl⟩⟩

/-! ### Scheduling, faults, the host -/

/-- A seat waits at the origin of die 0 for its one core, powered, with its launch record in memory at 0x1000. -/
def waiting : State :=
  let s := updDie (at0 0x13) 0 fun d => { d with powered := true }
  let s := setBindW s 0 0 (1 + 2 ^ 20 + 5 * 2 ^ 32)
  let s := setBindW s 0 1 0x1000
  setSeat s 0 1 0 0 5
/-- A launch queue with one record of a one-core gang. -/
def launching : State :=
  let s := updDie (physWrite (at0 0x13) 0 0x101C 1 0x11) 0 fun d => { d with powered := true }
  updIo s fun io => { io with lq := [(0, 0x1000), (1, 0x80000004), (2, 1)] }

theorem start_of {s : State} {w : Word} (hs : s.seatStat = [(0, w)]) (hr : rgnCores (bindRgn (bindW s 0 0)) = [0]) (h1 : seatState s 0 = 1)
    (hd : ∀ d < 4, (([0].filter fun c => s.io.retiring.contains c && dieOfCore c == d)).length ≤ (dieOf s d).spares)
    (hc : (coreOf s 0).gang = none ∧ (dieOf s (dieOfCore 0)).powered = true) : Claim.startable s 0 := by
  refine ⟨h1, by rw [hr]; exact hd, ?_⟩
  intro c h; rw [hr, List.mem_singleton] at h; subst h
  refine ⟨hc.1, hc.2, fun k hk hw => absurd hw.1 ?_⟩
  rw [show seatState s k = fieldOf (aget 0 s.seatStat k).toNat 1 0 from rfl, hs]
  simp only [aget, aget?]; rw [if_pos (by omega)]; decide

theorem witness_ContextsSeatsAndGrants :
    ((me firmware).priv ≠ .u ∧ (coreOf firmware (myCore firmware)).gang = none) ∧
    (let s := updHart (seated id) 0 fun h => { h with priv := .s }
     (me s).priv ≠ .u ∧ (coreOf s (myCore s)).gang = some 0 ∧ (gangOf s 0).state = .running ∧ quiesced (ctxStep s 0 false) 0 = true) ∧
    ((me firmware).priv = .m ∧ ∀ k < 8, k ≠ mySlot firmware → (hartOf firmware (8 * myCore firmware + k)).run = .idle) ∧
    (let s := updHart (seated id) 0 fun h => { h with run := .ended }
     let s := updHart s 1 fun h => { h with run := .ended }
     aget? s.gangs 0 = some (gangOf s 0) ∧ (gangOf s 0).state = .running ∧ gangDone s 0 = true) ∧
    (launching.io.mode.toNat.testBit 0 = false ∧ launching.io.recovery = false ∧ launching.io.mgcDown ≠ 0xF ∧ ∃ r, lqHead launching 0 = some r ∧
      Claim.accepted launching 0 r ∧ (∀ k rk, k ≠ 0 → lqHead launching k = some rk → False) ∧ Claim.placed launching r 0 ⟨0, 0, 1, 1⟩) ∧
    (bindValid (bindW (setBindW waiting 0 0 (1 + 2 ^ 20 + 6 * 2 ^ 32)) 0 0) = true ∧ seatSeq waiting 0 = 5) ∧
    (Claim.startable waiting 0 ∧ bindResume (bindW waiting 0 0) = false) ∧
    (let s := setBindW waiting 0 0 (1 + 2 ^ 20 + 2 ^ 26 + 5 * 2 ^ 32)
     Claim.startable s 0 ∧ bindResume (bindW s 0 0) = true ∧ imagesOk (Claim.boundFor s 0).1 (Claim.boundFor s 0).2 = false) ∧
    (seatState waiting 0 = 1 ∧ bindPrio (bindW waiting 0 0) < 7 ∧ 50000 ≤ aget 0 { waiting with waitUs := [(0, 50000)] }.waitUs 0) ∧
    (let g := gangOf (seated id) 0
     aget? (seated id).gangs 0 = some g ∧ 1 ≤ 1 ∧ 1 ≤ min g.gcap (32 / g.part) ∧ 1 < g.grant ∧ g.grantAt ≤ (seated id).us) ∧
    (let s := updDie (seated id) 0 fun d => { d with leaveQ := [(.hart 0, 2)] }
     (dieOf s 0).leaveQ = [(.hart 0, 2)] ∧ (dieOf s 0).leaveOut = 0) := by
  refine ⟨by decide, ⟨by decide, by decide, rfl, by decide +kernel⟩, by decide, ⟨rfl, rfl, by decide +kernel⟩,
    ⟨by decide, by decide, by decide, _, rfl, ⟨by decide +kernel, by unfold Claim.launchReserved; decide +kernel, by unfold Claim.launchShape; decide +kernel⟩, ?_, ?_⟩,
    by decide +kernel, ⟨start_of rfl rfl (by decide) (by decide) (by decide), by decide⟩,
    ⟨start_of rfl rfl (by decide) (by decide) (by decide), by decide, by decide +kernel⟩, by decide +kernel, ⟨rfl, by decide⟩, by decide⟩
  · intro k rk hk h
    have off : lqEn launching k = false := by
      unfold lqEn lqWord
      rw [show aget 0 launching.io.lq (4 * k + 1) = 0 from ?_]
      · rfl
      · rw [show launching.io.lq = [(0, 0x1000), (1, 0x80000004), (2, 1)] from rfl]
        simp only [aget, aget?]
        rw [if_pos (by omega), if_pos (by omega), if_pos (by omega)]; rfl
    unfold lqHead at h; rw [off] at h; cases h
  · rw [show Claim.placed launching _ 0 ⟨0, 0, 1, 1⟩ = _ from rfl]; unfold Claim.placed
    rw [if_neg (by decide +kernel)]
    refine ⟨0, by decide, by decide +kernel, ⟨by unfold Claim.regionOk; decide, ?_⟩, ⟨0, by decide, by decide, ?_, fun j h => absurd h (by omega)⟩, fun p h => absurd h (by omega)⟩
    · rintro c - - k ⟨h, -⟩; exact absurd h (by rw [show seatState launching k = fieldOf (aget 0 launching.seatStat k).toNat 1 0 from rfl, show launching.seatStat = [] from rfl]; change ¬ fieldOf (BitVec.toNat (0 : Word)) 1 0 = 1; decide)
    · unfold Claim.openSeat; decide +kernel

/-- A fault record of the hart of the gang. -/
def aFault : FaultRec :=
  { token := 9, w0 := 0, va := 0x1000, page := 1, asid := 0, tid := 0, write := false, host := true, die := 0, posted := false
    waiters := [(.hart 0, 0x1000)], ctxbase := 0 }
def faulting : State :=
  updIo { seated (fun h => { h with park := some 9 }) with faults := [aFault] } fun io => { io with mode := 4, mb := [(0x48, 0x2000), (0x50, 0x80000002)] }
/-- Hart 0 halted in debug mode. -/
def halted : State := updHart (at0 0x13) 0 fun h => { h with halted := true }

theorem witness_FaultServiceDebugAndErrors :
    (nextToPost faulting 0 = some aFault ∧ aFault.host = true ∧ ringRoom faulting frRing = true ∧
      ringAt faulting frRing (mbReg faulting 0x058) 32 + 32 ≤ hbmEnd) ∧
    ((faulting.faults.find? fun f => f.token == (9 : Word).toNat % 2 ^ 32) = some aFault ∧ (hartOf faulting 0).park = some 9) ∧
    (faulting.io.mode.toNat.testBit 2 = true) ∧
    (let h := hartOf (updHart (at0 0x13) 0 fun h => { h with xc := { h.xc with wdog := 3 }, stall := 3 }) 0
     h.run = .running ∧ h.halted = false ∧ h.xc.wdog ≠ 0 ∧ h.xc.wdog.toNat ≤ h.stall) ∧
    mayHalt (at0 0x13) 0 = true ∧ debugIdle halted 0 = true ∧ debugIdle (at0 0x13) 0 = false ∧
    (let s := updDie (at0 0x13) 0 fun d => { d with corr := [(3, { count := 1025 })] }
     1024 < (aget {} (dieOf s 0).corr 3 : CorrCount).count ∧ (aget {} (dieOf s 0).corr 3 : CorrCount).logged = false ∧ gangsOn s 0 = []) ∧
    isStorage 0x1000 = true ∧ bankQ (piecing theFill []) 0 ≠ [] ∧
    (let s := slotted { state := .faulted, ctx := some (hartCtx (seated id) 0) }
     (Claim.slotAt s 0 0).state = .faulted ∧ (Claim.slotAt s 0 0).ctx = some (hartCtx (seated id) 0)) ∧
    aget? State.reset.io.spareChan 3 = none ∧
    (let s := updIo { State.reset with us := 3000 } fun io => { io with released := true, booted := true }
     mgcLive s.io 1 = true ∧ mgcLive s.io 2 = true ∧ aget 0 s.io.mgcLast 1 + 3000 ≤ s.us) ∧
    (State.reset.io.released = false ∧ State.reset.io.booted = false) := by
  refine ⟨by decide, by decide, by decide, by decide, by decide, by decide, by decide, by decide, by decide, by decide, ⟨rfl, rfl⟩, by decide,
    by decide, by decide⟩

/-- The link is up, and a request or a message stands at its head. -/
def asked (q : HostReq) : State := updIo (at0 0x13) fun io => { io with linkUp := true, hostQ := [q], hat := [(0, 7), (1, 0xFF000), (2, 5)], keys := [(5, 1)] }
/-- Firmware has written 1 at an offset of the device's side. -/
def issuing (o : Nat) : State := updIo (at0 0x13) fun io => { io with devQ := [(o, 1)] }
theorem asked_writes (o : Nat) (h : o / 8 * 8 = o) : Claim.writeAhead (asked (.regWrite o 1)) o 1 (Claim.taken (asked (.regWrite o 1)) []) :=
  Or.inl ⟨rfl, o, [], rfl, h, rfl⟩
theorem issuing_writes (o : Nat) (h : o % 8 = 0) : Claim.deviceWrites (issuing o) o 1 (updIo (issuing o) fun io => { io with devQ := [] }) :=
  ⟨Or.inr rfl, h, [], rfl, rfl⟩
/-- A command in the ring at 0x3000: KEYERASE of slot 6. -/
def commanding : State := updIo (physWrite (physWrite (at0 0x13) 0 0x3000 4 (5 + 8 * 2 ^ 16)) 0 0x3008 1 6) fun io =>
  { io with booted := true, released := true, mb := [(0, 0x3000), (8, 0x80000002), (0x10, 1)] }
/-- A management request. -/
def managed (type cmd : Nat) : State := updIo (at0 0x13) fun io =>
  { io with booted := true, mctpIn := [[1, 0x80, BitVec.ofNat 8 type, BitVec.ofNat 8 cmd, 4]] }

theorem witness_HostMailboxAndManagement :
    ((asked (.memRead 0x1000)).io.linkUp = true ∧ (asked (.memRead 0x1000)).io.hostQ = .memRead 0x1000 :: [] ∧
      hatKey (asked (.memRead 0x1000)) 0x1000 false = some 5 ∧ hatKey (asked (.memRead 0x1000)) 0x100000 false = none) ∧
    (∀ o ∈ [0x1000, 0x1008, 0x1010, 0x1018, 0x1100, 0x10010, 0x10000, 0x20000, 0x20008, 0x20038, 0x20040, 0x30000, 0x40000, 0x400000, 0x800000, 0x100000],
      Claim.writeAhead (asked (.regWrite o 1)) o 1 (Claim.taken (asked (.regWrite o 1)) []) ∧
        Claim.deviceWrites (issuing o) o 1 (updIo (issuing o) fun io => { io with devQ := [] })) ∧
    ((asked (.regWrite 0x1000 1)).gangs = [] ∧ (seated id).gangs ≠ []) ∧
    (let s := updIo (at0 0x13) fun io => { io with tidBusy := true }
     s.io.tidBusy = true ∧ tenantIdle s s.io.tidTid.toNat = true) ∧
    (∃ c, Claim.commandAhead commanding c 5 8 ∧ c.getD 1 0 = 6 ∧ keyNamed commanding 6 = false) ∧
    (let s := updIo (at0 0x13) fun io => { io with fhWait := [[1, 2]], mb := [(0x20, 0x4000), (0x28, 0x80000002)] }
     s.io.fhWait = [1, 2] :: [] ∧ ringRoom s fhRing = true ∧ ringAt s fhRing (mbReg s 0x030) 64 + 64 ≤ hbmEnd) ∧
    (∀ t ∈ [(0, 2), (5, 0x10), (5, 0x13), (5, 0x14), (5, 0x1A), (5, 0x1B), (5, 0x1D), (0x3F, 1)],
      Claim.requestAhead (managed t.1 t.2) [1, 0x80, BitVec.ofNat 8 t.1, BitVec.ofNat 8 t.2, 4] [] t.1 t.2) ∧
    (let io : Io := { (at0 0x13).io with fwState := 3, fwSize := 64, fwAsked := true, mctpIn := [[1, 0, 5, 0x15, 0, 0xAB]] }
     io.fwState = 3 ∧ io.fwOff < io.fwSize ∧ io.fwAsked = true ∧ pldmIs [1, 0, 5, 0x15, 0, 0xAB] false 5 0x15 = true) := by
  refine ⟨by decide, ?_, by decide, by decide, ⟨_, ⟨rfl, by decide +kernel, by decide +kernel, by decide +kernel⟩, by decide +kernel, by decide +kernel⟩,
    by decide, ?_, by decide⟩
  · intro o ho
    have h8 : o / 8 * 8 = o ∧ o % 8 = 0 := by revert o; decide
    exact ⟨asked_writes o h8.1, issuing_writes o h8.2⟩
  · unfold Claim.requestAhead; decide

/-! ### Steps with results from the spec's examples and by hand -/

/-- Something of the next state. -/
def next {α : Type} (o : Host.Outcome State Fault Refusal) (f : State → α) : Option α :=
  match o with
  | .next t => some (f t)
  | _ => none

/-- ADDI x5, x5, 10 from 0; the pc moves on. -/
theorem test_step_addi : next (step (at0 0x00A28293)) (fun t => (hartX (hartOf t 0) 5, (hartOf t 0).pc)) = some (10, 4) := by decide +kernel
/-- ADDI x0, x0, 1 leaves x0 at 0. -/
theorem test_step_x0 : next (step (at0 0x00100013)) (fun t => hartX (hartOf t 0) 0) = some 0 := by decide +kernel
/-- VADD.VV of (2, 3) and (0x40000000, 0x40400000) under I32. -/
theorem test_vadd : next (exec (.vaddVv 0 4 8 12) (updMe ints fun h => { h with v := [(4, 0xFFFFFFFF00000002), (8, 0x0000000240000000)] }))
    (fun t => elemOf 64 (rdGroup (me t) 1024 12 1) 0) = some 0x0000000140000002 := by decide +kernel
/-- 2.0 + 2.0 and 0.0 + 3.0 in FP32. -/
theorem test_vfadd : next (exec (.vfaddVv 0 4 8 12) (updMe floats fun h => { h with v := [(4, 0x0000000040000000), (8, 0x4040000040000000)] }))
    (fun t => elemOf 64 (rdGroup (me t) 1024 12 1) 0) = some 0x4040000040800000 := by decide +kernel
/-- The stage of the example of spec/08 doubles 0x34CD to 0x38CD in FP16. -/
theorem test_stage_of_the_example : next (exec (.stageFiring 0 0 1) staged) (fun t => (tokAt (coreOf t 0) 1 0).pay % 2 ^ 16) = some 0x38CD := by
  decide +kernel
/-- The second of two arrivals ends the phase (spec/15 Table 15-3): ARR 0, PHASE 1. -/
theorem test_barrier_phase : next (exec (.bara false 1 0) (setGang (seated id) 0 { part := 2, gb := [(1, 0x10002)] }))
    (fun t => Claim.barrierAt t 0 1) = some 0x100000002 := by decide +kernel
/-- ECALL with no handler in M-mode traps: mcause 11 is environment call from M-mode. -/
theorem test_ecall : next (exec .ecall (at0 0x73)) (fun t => (hartOf t 0).pr.mcause) = some 11 := by decide +kernel

end Sys2Proof.Tests
end

section
/-!
SUPPORT. Physical memory under a key (spec/06 R111): what one byte reads as after a byte is stored, a line is brought under a key, or n
bytes are written.
-/
namespace Sys2Proof.Machine

/-! ### Ranges that nothing has written -/

/-- An address is found in one range just where it lies in it. -/
theorem find?_singleton_range (a : Nat) (e : Nat × Nat × Nat) :
    ([e].find? fun e => decide (e.1 ≤ a) && decide (a < e.2.1)).map (·.2.2) = if e.1 ≤ a ∧ a < e.2.1 then some e.2.2 else none := by
  by_cases h : e.1 ≤ a ∧ a < e.2.1 <;> simp [h]

/-- A cut splits one range into what lies before it and what lies behind. -/
theorem find?_cutRange_singleton (lo hi a : Nat) (e : Nat × Nat × Nat) :
    ((cutRange lo hi [e]).find? fun e => decide (e.1 ≤ a) && decide (a < e.2.1)).map (·.2.2) =
      if (lo ≤ a ∧ a < hi) ∨ ¬ (e.1 ≤ a ∧ a < e.2.1) then none else some e.2.2 := by
  have part (c : Prop) [Decidable c] (x : Nat × Nat × Nat) :
      ((if c then [x] else []).find? fun e => decide (e.1 ≤ a) && decide (a < e.2.1)).map (·.2.2) =
        if c ∧ x.1 ≤ a ∧ a < x.2.1 then some x.2.2 else none := by
    by_cases hc : c
    · simp only [hc, if_true, true_and, find?_singleton_range]
    · simp [hc]
  simp only [cutRange, List.flatMap_cons, List.flatMap_nil, List.append_nil, List.find?_append, Option.map_or, part]
  grind

/-- The range that holds an address is the same after a cut that the address lies outside. -/
theorem find?_cutRange (lo hi a : Nat) (l : List (Nat × Nat × Nat)) :
    ((cutRange lo hi l).find? fun e => decide (e.1 ≤ a) && decide (a < e.2.1)).map (·.2.2) =
      if lo ≤ a ∧ a < hi then none else (l.find? fun e => decide (e.1 ≤ a) && decide (a < e.2.1)).map (·.2.2) := by
  induction l with
  | nil => simp [cutRange]
  | cons e r ih =>
    have hs : cutRange lo hi (e :: r) = cutRange lo hi [e] ++ cutRange lo hi r := by simp [cutRange]
    rw [hs, List.find?_append, Option.map_or, ih, find?_cutRange_singleton]
    by_cases hc : lo ≤ a ∧ a < hi
    · simp [hc]
    · by_cases he : e.1 ≤ a ∧ a < e.2.1 <;> simp [hc, he]

/-! ### One stored byte -/

theorem unspecAt_setRawByte (s : State) (pa a : Nat) (b : Byte) :
    unspecAt (setRawByte s pa b) a = if a = pa then none else unspecAt s a := by
  have hc : (pa ≤ a ∧ a < pa + 1) ↔ a = pa := by omega
  simp only [unspecAt, setRawByte, find?_cutRange, hc]

theorem rawByte_setRawByte (s : State) (pa a : Nat) (b : Byte) :
    rawByte (setRawByte s pa b) a = if a = pa then b else rawByte s a := by
  unfold rawByte
  rw [unspecAt_setRawByte]
  by_cases h : a = pa
  · simp [h, setRawByte]
  · simp [h, setRawByte, aget_aputC_other]

/-- Bytes stored at the rising addresses from `base`. -/
theorem rawByte_storeBytes (s : State) (base n a : Nat) (f : Nat → Byte) :
    rawByte ((List.range n).foldl (fun t i => setRawByte t (base + i) (f i)) s) a =
      if base ≤ a ∧ a < base + n then f (a - base) else rawByte s a := by
  induction n with
  | zero => simp
  | succ n ih =>
    rw [List.range_succ, List.foldl_append, List.foldl_cons, List.foldl_nil, rawByte_setRawByte, ih]
    by_cases h : a = base + n
    · simp [h]
    · simp only [h, if_false, show base ≤ a ∧ a < base + (n + 1) ↔ base ≤ a ∧ a < base + n by omega]

theorem lineKey_storeBytes (s : State) (base n : Nat) (f : Nat → Byte) :
    ((List.range n).foldl (fun t i => setRawByte t (base + i) (f i)) s).lineKey = s.lineKey :=
  foldl_keeps (P := fun t => t.lineKey = s.lineKey) _ rfl fun _ _ ht => ht

/-! ### A line under a key -/

/-- The bytes of a line, as another key reads them, stored in its place. -/
def storeReciphered (s : State) (kid line : Nat) : State :=
  (List.range 64).foldl (fun t i => setRawByte t (64 * line + i)
    (BitVec.ofNat 8 ((recipher (aget 0 s.lineKey line) kid line (rawLine s line)).toNat >>> (8 * i)))) s

@[simp] theorem lineKey_storeReciphered (s : State) (kid line : Nat) : (storeReciphered s kid line).lineKey = s.lineKey :=
  lineKey_storeBytes ..

theorem rekeyLine_of_same {s : State} {kid line : Nat} (h : aget 0 s.lineKey line = kid ∨ kid = 0) : rekeyLine s kid line = s := by
  simp [rekeyLine, h]

theorem rekeyLine_of_fresh {s : State} {kid line : Nat} (h : aget 0 s.lineKey line = 0) (hk : kid ≠ 0) :
    rekeyLine s kid line = { s with lineKey := aputC 0 s.lineKey line kid } := by
  simp [rekeyLine, h, hk, hk.symm]

theorem rekeyLine_of_other {s : State} {kid line : Nat} (h0 : aget 0 s.lineKey line ≠ 0) (hk : kid ≠ 0)
    (h : aget 0 s.lineKey line ≠ kid) :
    rekeyLine s kid line =
      { storeReciphered s kid line with lineKey := aputC 0 (storeReciphered s kid line).lineKey line kid } := by
  simp only [rekeyLine, h0, hk, h, or_self, if_false]
  rfl

theorem rawByte_lineKey (s : State) (m : AMap Nat) (a : Nat) : rawByte { s with lineKey := m } a = rawByte s a := rfl

theorem physByte_of_same {s : State} {kid a : Nat}
    (h : aget 0 s.lineKey (a / 64) = 0 ∨ kid = 0 ∨ aget 0 s.lineKey (a / 64) = kid) : physByte s kid a = rawByte s a := by
  simp [physByte, h]

theorem physByte_of_other {s : State} {kid a : Nat} (h0 : aget 0 s.lineKey (a / 64) ≠ 0) (hk : kid ≠ 0)
    (h : aget 0 s.lineKey (a / 64) ≠ kid) : physByte s kid a =
      BitVec.ofNat 8 ((recipher (aget 0 s.lineKey (a / 64)) kid (a / 64) (rawLine s (a / 64))).toNat >>> (8 * (a % 64))) := by
  simp [physByte, h0, hk, h]

/-- Once a line is under a key, what is stored of it is what the key read of it before. -/
theorem rawByte_rekeyLine (s : State) (kid line a : Nat) :
    rawByte (rekeyLine s kid line) a = if a / 64 = line then physByte s kid a else rawByte s a := by
  by_cases hs : aget 0 s.lineKey line = kid ∨ kid = 0
  · rw [rekeyLine_of_same hs]
    split
    next h => rw [physByte_of_same]; rw [h]; tauto
    next => rfl
  obtain ⟨hk, h0⟩ := not_or.mp hs
  by_cases hf : aget 0 s.lineKey line = 0
  · rw [rekeyLine_of_fresh hf h0, rawByte_lineKey]
    split
    next h => rw [physByte_of_same]; rw [h]; exact .inl hf
    next => rfl
  · rw [rekeyLine_of_other hf h0 hk, rawByte_lineKey, storeReciphered, rawByte_storeBytes]
    by_cases h : a / 64 = line
    · subst h
      rw [if_pos (by omega), if_pos rfl, physByte_of_other hf h0 hk, show a - 64 * (a / 64) = a % 64 by omega]
    · rw [if_neg (by omega), if_neg h]

theorem lineKey_rekeyLine (s : State) (kid line l : Nat) :
    aget 0 (rekeyLine s kid line).lineKey l = if l = line ∧ kid ≠ 0 then kid else aget 0 s.lineKey l := by
  by_cases hs : aget 0 s.lineKey line = kid ∨ kid = 0
  · rw [rekeyLine_of_same hs]
    split
    next h => rw [h.1]; exact hs.resolve_right h.2
    next => rfl
  obtain ⟨hk, h0⟩ := not_or.mp hs
  by_cases hf : aget 0 s.lineKey line = 0
  · rw [rekeyLine_of_fresh hf h0]; simp [aget_aputC, h0]
  · rw [rekeyLine_of_other hf h0 hk]; simp [aget_aputC, h0]

theorem rawLine_congr {s t : State} {line : Nat} (h : ∀ a, a / 64 = line → rawByte s a = rawByte t a) : rawLine s line = rawLine t line := by
  have hm : (List.range 64).map (fun i => rawByte s (64 * line + i)) = (List.range 64).map fun i => rawByte t (64 * line + i) :=
    List.map_congr_left fun i hi => h _ (by have := List.mem_range.1 hi; omega)
  rw [rawLine, rawLine, hm]

/-- What a key reads of a byte depends on the stored bytes of its line and the line's key alone. -/
theorem physByte_congr {s t : State} {a : Nat} (kid : Nat) (hk : aget 0 s.lineKey (a / 64) = aget 0 t.lineKey (a / 64))
    (h : ∀ b, b / 64 = a / 64 → rawByte s b = rawByte t b) : physByte s kid a = physByte t kid a := by
  simp only [physByte, hk, rawLine_congr h, h a rfl]

/-- Bringing a line under a key changes nothing that is read under it. -/
theorem physByte_rekeyLine (s : State) (kid line a : Nat) : physByte (rekeyLine s kid line) kid a = physByte s kid a := by
  by_cases h : a / 64 = line
  · rw [physByte_of_same, rawByte_rekeyLine, if_pos h]
    rw [lineKey_rekeyLine]
    by_cases h0 : kid = 0 <;> simp [h, h0]
  · refine physByte_congr kid ?_ fun b hb => ?_
    · rw [lineKey_rekeyLine, if_neg fun hc => h hc.1]
    · rw [rawByte_rekeyLine, if_neg (hb ▸ h)]

/-! ### Bytes written under a key -/

theorem physByte_physSetByte (s : State) (kid pa a : Nat) (b : Byte) :
    physByte (physSetByte s kid pa b) kid a = if a = pa then b else physByte s kid a := by
  by_cases hl : a / 64 = pa / 64
  · have hk : aget 0 (rekeyLine s kid (pa / 64)).lineKey (a / 64) = kid ∨ kid = 0 := by
      rw [lineKey_rekeyLine]
      by_cases h0 : kid = 0 <;> simp [hl, h0]
    have hp : aget 0 (physSetByte s kid pa b).lineKey (a / 64) = kid ∨ kid = 0 := hk
    rw [physByte_of_same (by tauto), physSetByte, rawByte_setRawByte, rawByte_rekeyLine, if_pos hl]
  · rw [if_neg fun h => hl (by rw [h]), ← physByte_rekeyLine s kid (pa / 64) a]
    refine physByte_congr kid rfl fun c hc => ?_
    rw [physSetByte, rawByte_setRawByte, if_neg fun h => hl (by rw [← hc, h])]

theorem physByte_physWrite (s : State) (kid pa n v a : Nat) : physByte (physWrite s kid pa n v) kid a =
    if pa ≤ a ∧ a < pa + n then BitVec.ofNat 8 (v / 256 ^ (a - pa)) else physByte s kid a := by
  unfold physWrite
  induction n with
  | zero => simp
  | succ n ih =>
    rw [List.range_succ, List.foldl_append, List.foldl_cons, List.foldl_nil, physByte_physSetByte, ih]
    by_cases h : a = pa + n
    · simp [h, Nat.shiftRight_eq_div_pow, Nat.pow_mul]
    · simp only [h, if_false, show pa ≤ a ∧ a < pa + (n + 1) ↔ pa ≤ a ∧ a < pa + n by omega]

/-- The n low bytes of a number, lowest first, hold it modulo 256^n (spec/00 R4). -/
theorem natOfBytes_digits (n v : Nat) : natOfBytes ((List.range n).map fun k => BitVec.ofNat 8 (v / 256 ^ k)) = v % 256 ^ n := by
  induction n generalizing v with
  | zero => simp [natOfBytes, Nat.mod_one]
  | succ n ih =>
    have hd (k : Nat) : v / 256 ^ (k + 1) = v / 256 / 256 ^ k := by rw [Nat.pow_succ', Nat.div_div_eq_div_mul]
    simp only [List.range_succ_eq_map, List.map_cons, List.map_map, Function.comp_def, natOfBytes, hd, ih, Nat.pow_zero, Nat.div_one,
      BitVec.toNat_ofNat]
    rw [Nat.pow_succ' (n := n), Nat.mod_mul]

/-- Settles O8: a byte written under a key is read back under it, and the write of each byte leaves what the key reads elsewhere, also in
a line that it first brings under the key. -/
theorem memoryReadsWhatWasWritten : Obligations.MemoryReadsWhatWasWritten := by
  intro s kid pa n v
  have hw (k : Nat) (hk : k < n) : physByte (physWrite s kid pa n v) kid (pa + k) = BitVec.ofNat 8 (v / 256 ^ k) := by
    rw [physByte_physWrite, if_pos (by omega), Nat.add_sub_cancel_left]
  refine ⟨hw, fun a ha => ?_, ?_⟩
  · rw [physByte_physWrite, if_neg (by omega)]
  · rw [physRead, List.map_congr_left fun k hk => hw k (List.mem_range.1 hk), natOfBytes_digits]

end Sys2Proof.Machine
end

section
/-!
SUPPORT. The model's arithmetic on numbers (`sInt`, `wrapInt`, `sext64`, division, rotation, counts, bytes) is that of the standard
library's bit vectors.
-/
namespace Sys2Proof.Machine

/-! ### Two's complement -/

theorem sInt_eq_toInt (w n : Nat) : sInt w n = (BitVec.ofNat w n).toInt := by
  simp only [sInt, BitVec.toInt_eq_toNat_cond, BitVec.toNat_ofNat, ← Nat.not_le, ite_not]

theorem sInt_toNat {w : Nat} (x : BitVec w) : sInt w x.toNat = x.toInt := by
  rw [sInt_eq_toInt, BitVec.ofNat_toNat, BitVec.setWidth_eq]

theorem ofNat_wrapInt (w : Nat) (z : Int) : BitVec.ofNat w (wrapInt w z) = BitVec.ofInt w z := by
  apply BitVec.eq_of_toNat_eq
  rw [BitVec.toNat_ofNat, BitVec.toNat_ofInt, wrapInt, Nat.mod_eq_of_lt]
  have := Int.emod_lt_of_pos z (b := ((2 ^ w : Nat) : Int)) (by positivity)
  omega

theorem sext64_eq_signExtend (w n : Nat) : sext64 w n = (BitVec.ofNat w n).signExtend 64 := by
  rw [sext64, ofNat_wrapInt, sInt_eq_toInt, BitVec.signExtend]

theorem sext32_eq_lowSigned (n : Nat) : sext32 n = Claim.lowSigned (BitVec.ofNat 32 n) := sext64_eq_signExtend 32 n

theorem w64_toNat (x : Word) : w64 x.toNat = x := by simp [w64]

theorem w64_wrapInt (z : Int) : w64 (wrapInt 64 z) = BitVec.ofInt 64 z := ofNat_wrapInt 64 z

/-- The high half of a 128-bit product. -/
theorem highHalf_ofInt (z : Int) : ((BitVec.ofInt 128 z) >>> 64).truncate 64 = BitVec.ofInt 64 (z / (2 ^ 64 : Nat)) := by
  apply BitVec.eq_of_toNat_eq
  simp only [BitVec.truncate_eq_setWidth, BitVec.toNat_setWidth, BitVec.toNat_ushiftRight, BitVec.toNat_ofInt, Nat.shiftRight_eq_div_pow]
  omega

theorem zeroExtend_eq_ofInt {w : Nat} (x : BitVec w) (v : Nat) : x.zeroExtend v = BitVec.ofInt v x.toNat := by
  apply BitVec.eq_of_toNat_eq
  simp

/-! ### Division -/

theorem ofInt_sdiv {w : Nat} (x y : BitVec w) : BitVec.ofInt w (x.toInt.tdiv y.toInt) = x.sdiv y := by
  apply BitVec.eq_of_toInt_eq
  rw [BitVec.toInt_ofInt, BitVec.toInt_sdiv]

theorem ofInt_srem {w : Nat} (x y : BitVec w) : BitVec.ofInt w (x.toInt.tmod y.toInt) = x.srem y := by
  rw [← BitVec.toInt_srem, BitVec.ofInt_toInt]

theorem ofNat_allOnes (w : Nat) : BitVec.ofNat w (2 ^ w - 1) = -1 := by
  rw [show (-1 : BitVec w) = BitVec.allOnes w from BitVec.neg_one_eq_allOnes]
  apply BitVec.eq_of_toNat_eq
  simp

theorem ofNat_sdivW {w : Nat} (x y : BitVec w) :
    BitVec.ofNat w (sdivW w x.toNat y.toNat) = if y = 0 then -1 else x.sdiv y := by
  have hy : y.toInt = 0 ↔ y = 0 := by simpa using BitVec.toInt_inj (x := y) (y := 0)
  simp only [sdivW, sInt_toNat, hy]
  split
  · exact ofNat_allOnes w
  · rw [ofNat_wrapInt, ofInt_sdiv]

theorem ofNat_sremW {w : Nat} (x y : BitVec w) : BitVec.ofNat w (sremW w x.toNat y.toNat) = if y = 0 then x else x.srem y := by
  have hy : y.toInt = 0 ↔ y = 0 := by simpa using BitVec.toInt_inj (x := y) (y := 0)
  simp only [sremW, sInt_toNat, hy]
  split
  · simp
  · rw [ofNat_wrapInt, ofInt_srem]

theorem ofNat_udivW {w : Nat} (x y : BitVec w) : BitVec.ofNat w (udivW w x.toNat y.toNat) = if y = 0 then -1 else x.udiv y := by
  have hy : y.toNat = 0 ↔ y = 0 := by simpa using BitVec.toNat_inj (x := y) (y := 0)
  simp only [udivW, Nat.mod_eq_of_lt x.isLt, Nat.mod_eq_of_lt y.isLt, hy]
  split
  · exact ofNat_allOnes w
  · apply BitVec.eq_of_toNat_eq
    simp [Nat.mod_eq_of_lt (Nat.lt_of_le_of_lt (Nat.div_le_self _ _) x.isLt)]

theorem ofNat_uremW {w : Nat} (x y : BitVec w) : BitVec.ofNat w (uremW w x.toNat y.toNat) = if y = 0 then x else x.umod y := by
  have hy : y.toNat = 0 ↔ y = 0 := by simpa using BitVec.toNat_inj (x := y) (y := 0)
  simp only [uremW, Nat.mod_eq_of_lt x.isLt, Nat.mod_eq_of_lt y.isLt, hy]
  split
  · simp
  · apply BitVec.eq_of_toNat_eq
    simp [Nat.mod_eq_of_lt (Nat.lt_of_le_of_lt (Nat.mod_le _ _) x.isLt)]

/-! ### Rotation -/

/-- A rotation as a sum: the bits that move up, and those that come in below them. -/
theorem ofNat_rolW {w : Nat} (x : BitVec w) (k : Nat) : BitVec.ofNat w (rolW w x.toNat k) = x.rotateLeft k := by
  rcases Nat.eq_zero_or_pos w with rfl | hw
  · exact Subsingleton.elim _ _
  apply BitVec.eq_of_toNat_eq
  have hk : k % w < w := Nat.mod_lt _ hw
  have hp : 2 ^ w = 2 ^ (w - k % w) * 2 ^ (k % w) := by rw [← Nat.pow_add]; congr 1; omega
  have hi : x.toNat / 2 ^ (w - k % w) < 2 ^ (k % w) := by
    rw [Nat.div_lt_iff_lt_mul (by positivity), Nat.mul_comm, ← hp]; exact x.isLt
  have hs : (x.toNat * 2 ^ (k % w) + x.toNat / 2 ^ (w - k % w)) % 2 ^ w =
      x.toNat % 2 ^ (w - k % w) * 2 ^ (k % w) + x.toNat / 2 ^ (w - k % w) := by
    rw [hp, Nat.mul_comm (2 ^ (w - k % w)), Nat.mod_mul, Nat.mul_comm x.toNat, Nat.mul_add_mod, Nat.mod_eq_of_lt hi,
      Nat.mul_add_div (by positivity), Nat.div_eq_of_lt hi, Nat.add_zero, Nat.add_comm, Nat.mul_comm]
  rw [BitVec.toNat_rotateLeft, BitVec.toNat_ofNat, rolW, Nat.mod_mod, Nat.mod_eq_of_lt x.isLt, hs, Nat.shiftLeft_eq,
    Nat.shiftRight_eq_div_pow, hp, Nat.mul_mod_mul_right, ← Nat.shiftLeft_eq _ (k % w), Nat.shiftLeft_add_eq_or_of_lt hi]

theorem ofNat_rorW {w : Nat} (x : BitVec w) {k : Nat} (hk : k < w) : BitVec.ofNat w (rolW w x.toNat (w - k)) = x.rotateRight k := by
  rw [ofNat_rolW]
  apply BitVec.eq_of_toNat_eq
  rw [BitVec.toNat_rotateLeft, BitVec.toNat_rotateRight, Nat.mod_eq_of_lt hk]
  rcases Nat.eq_zero_or_pos k with rfl | h0
  · simp [Nat.shiftLeft_eq, Nat.shiftRight_eq_div_pow, Nat.div_eq_of_lt x.isLt, Nat.mod_eq_of_lt x.isLt]
  · rw [Nat.mod_eq_of_lt (by omega : w - k < w), show w - (w - k) = k by omega, Nat.or_comm]

/-! ### Shifts and words -/

theorem ofNat_mul_pow {w : Nat} (x : BitVec w) (k : Nat) : BitVec.ofNat w (x.toNat * 2 ^ k) = x <<< k := by
  apply BitVec.eq_of_toNat_eq
  simp [Nat.shiftLeft_eq]

theorem ofNat_div_pow {w : Nat} (x : BitVec w) (k : Nat) : BitVec.ofNat w (x.toNat / 2 ^ k) = x >>> k := by
  apply BitVec.eq_of_toNat_eq
  simp [Nat.shiftRight_eq_div_pow, Nat.mod_eq_of_lt (Nat.lt_of_le_of_lt (Nat.div_le_self _ _) x.isLt)]

theorem ofNat_wrapInt_div_pow {w : Nat} (x : BitVec w) (k : Nat) :
    BitVec.ofNat w (wrapInt w (sInt w x.toNat / (2 ^ k : Nat))) = x.sshiftRight k := by
  rw [ofNat_wrapInt, sInt_toNat, ← BitVec.ofInt_toInt (x := x.sshiftRight k), BitVec.toInt_sshiftRight, Int.shiftRight_eq_div_pow]

theorem shiftLeft_eq_mul (k : Nat) (x : Word) : x <<< k = BitVec.ofNat 64 (2 ^ k) * x := by
  apply BitVec.eq_of_toNat_eq
  simp [Nat.shiftLeft_eq, Nat.mul_comm]

theorem w64_toNat32 (x : BitVec 32) : w64 x.toNat = x.zeroExtend 64 := by
  apply BitVec.eq_of_toNat_eq
  simp [w64]

theorem sext32_truncate (x : Word) : sext32 x.toNat = Claim.lowSigned (x.truncate 32) := by
  rw [sext32_eq_lowSigned, BitVec.ofNat_toNat]

/-- The immediate of LUI and AUIPC: twenty bits above twelve zeros. -/
theorem upperImm_eq (m : BitVec 20) : (m ++ (0 : BitVec 12)).signExtend 64 = Claim.lowSigned (m.zeroExtend 32 <<< 12) := by
  rw [Claim.lowSigned]
  congr 1
  apply BitVec.eq_of_toNat_eq
  rw [BitVec.toNat_append]
  simp [Nat.shiftLeft_eq]
  omega

theorem lowSigned_neg_one : Claim.lowSigned (-1) = -1 := by decide

/-! ### The operations -/

theorem regOp_eq (o : RegOp) (x y : Word) : regOp o x y = Claim.regResult o x y := by
  have hk : y.toNat % 64 < 64 := Nat.mod_lt _ (by decide)
  cases o
  case mulh => simp only [regOp, Claim.regResult, w64_wrapInt, BitVec.signExtend, ← BitVec.ofInt_mul, highHalf_ofInt]
  case mulhsu => simp only [regOp, Claim.regResult, w64_wrapInt, BitVec.signExtend, zeroExtend_eq_ofInt y 128, ← BitVec.ofInt_mul, highHalf_ofInt]
  case mulhu =>
    simp only [regOp, Claim.regResult, zeroExtend_eq_ofInt _ 128, ← BitVec.ofInt_mul, highHalf_ofInt, w64, ← BitVec.ofInt_natCast]
    norm_cast
  case div => exact ofNat_sdivW x y
  case divu => exact ofNat_udivW x y
  case rem => exact ofNat_sremW x y
  case remu => exact ofNat_uremW x y
  case rol => simp only [regOp, Claim.regResult, w64, ofNat_rolW]
  case ror => simp only [regOp, Claim.regResult, w64, ofNat_rorW x hk]
  case xnor => exact BitVec.eq_of_getElem_eq fun i hi => by simp [regOp, Claim.regResult]
  case min =>
    simp only [regOp, Claim.regResult, BitVec.slt_iff_toInt_lt]
    rcases lt_trichotomy x.toInt y.toInt with h | h | h
    · simp [h, h.le, not_lt]
    · simp [BitVec.eq_of_toInt_eq h]
    · simp [h, h.le, not_lt]
  case minu =>
    simp only [regOp, Claim.regResult, BitVec.ult, decide_eq_true_eq]
    rcases lt_trichotomy x.toNat y.toNat with h | h | h
    · simp [h, h.le, not_lt]
    · simp [BitVec.eq_of_toNat_eq h]
    · simp [h, h.le, not_lt]
  case sh1add | sh2add | sh3add => simp only [regOp, Claim.regResult]; bv_omega
  case slt | sltu | max | maxu => simp [regOp, Claim.regResult, BitVec.slt_iff_toInt_lt, BitVec.ult]
  case add | sub | sll | xor | srl | sra | or | and | mul | andn | orn => rfl

theorem regWOp_eq (o : RegWOp) (x y : Word) : regWOp o x y = Claim.regWResult o x y := by
  have ha : x.toNat % 2 ^ 32 = (x.truncate 32 : BitVec 32).toNat := by simp
  have hb : y.toNat % 2 ^ 32 = (y.truncate 32 : BitVec 32).toNat := by simp
  simp only [regWOp, Claim.regWResult, ha, hb]
  generalize (x.truncate 32 : BitVec 32) = a
  generalize hy : (y.truncate 32 : BitVec 32) = b
  have hk : b.toNat % 32 < 32 := Nat.mod_lt _ (by decide)
  cases o
  case addw => simp only [sext32_eq_lowSigned, BitVec.ofNat_add, BitVec.ofNat_toNat, BitVec.setWidth_eq]
  case subw => simp only [sext32_eq_lowSigned]; congr 1; bv_omega
  case sllw => simp only [sext32_eq_lowSigned, ofNat_mul_pow]
  case srlw => simp only [sext32_eq_lowSigned, ofNat_div_pow]
  case sraw => simp only [sext32_eq_lowSigned, ofNat_wrapInt_div_pow]
  case mulw => simp only [sext32_eq_lowSigned, BitVec.ofNat_mul, BitVec.ofNat_toNat, BitVec.setWidth_eq]
  case divw => simp only [sext32_eq_lowSigned, ofNat_sdivW, apply_ite Claim.lowSigned, lowSigned_neg_one]
  case divuw => simp only [sext32_eq_lowSigned, ofNat_udivW, apply_ite Claim.lowSigned, lowSigned_neg_one]
  case remw => simp only [sext32_eq_lowSigned, ofNat_sremW, apply_ite Claim.lowSigned]
  case remuw => simp only [sext32_eq_lowSigned, ofNat_uremW, apply_ite Claim.lowSigned]
  case rolw => simp only [sext32_eq_lowSigned, ofNat_rolW]
  case rorw => simp only [sext32_eq_lowSigned, ofNat_rorW a hk]
  case addUw => rw [w64_toNat32]
  case sh1addUw => rw [w64_toNat32, shiftLeft_eq_mul 1]; rfl
  case sh2addUw => rw [w64_toNat32, shiftLeft_eq_mul 2]; rfl
  case sh3addUw => rw [w64_toNat32, shiftLeft_eq_mul 3]; rfl

theorem immOp_eq (o : ImmOp) (x m : Word) : immOp o x m = Claim.immResult o x m := by
  cases o <;> simp [immOp, Claim.immResult, BitVec.slt_iff_toInt_lt, BitVec.ult]

theorem shImmOp_eq (o : ShImmOp) (x : Word) (k : BitVec 6) : shImmOp o x k.toNat = Claim.shiftResult o x k.toNat := by
  cases o
  case rori => simp only [shImmOp, Claim.shiftResult, w64, ofNat_rorW x k.isLt]
  case slliUw =>
    have ha : x.toNat % 2 ^ 32 = (x.truncate 32 : BitVec 32).toNat := by simp
    simp only [shImmOp, Claim.shiftResult, ha, w64_toNat32]
  case slli | srli | srai => rfl

theorem shImmWOp_eq (o : ShImmWOp) (x : Word) (k : BitVec 5) : shImmWOp o x k.toNat = Claim.shiftWResult o x k.toNat := by
  have ha : x.toNat % 2 ^ 32 = (x.truncate 32 : BitVec 32).toNat := by simp
  simp only [shImmWOp, Claim.shiftWResult, ha, sext32_eq_lowSigned]
  cases o
  case slliw => simp only [ofNat_mul_pow]
  case srliw => simp only [ofNat_div_pow]
  case sraiw => simp only [ofNat_wrapInt_div_pow]
  case roriw => simp only [ofNat_rorW _ k.isLt]

/-! ### Counts over the bits of a word -/

theorem bitOf_eq_testBit (n k : Nat) : bitOf n k = n.testBit k := by
  rw [bitOf, Nat.testBit_eq_decide_div_mod_eq, Nat.shiftRight_eq_div_pow]; rfl

theorem bitsOf_succ (n w : Nat) : Claim.bitsOf (w + 1) n = Claim.bitsOf w n ++ [n.testBit w] := by
  simp [Claim.bitsOf, List.range_succ]

theorem mod_two_pow_succ (n w : Nat) : n % 2 ^ (w + 1) = n % 2 ^ w + if n.testBit w then 2 ^ w else 0 := by
  rw [Nat.pow_succ, Nat.mod_mul, Nat.testBit_eq_decide_div_mod_eq]
  rcases Nat.mod_two_eq_zero_or_one (n / 2 ^ w) with h | h <;> simp [h]

theorem clzW_eq (w n : Nat) : clzW w n = ((Claim.bitsOf w n).reverse.takeWhile fun b => !b).length := by
  induction w with
  | zero => simp [clzW, Claim.bitsOf, Nat.mod_one]
  | succ w ih =>
    rw [bitsOf_succ, List.reverse_append, List.reverse_singleton, List.singleton_append, List.takeWhile_cons]
    have hlt : n % 2 ^ w < 2 ^ w := Nat.mod_lt _ (by positivity)
    cases hb : n.testBit w
    · have hm : n % 2 ^ (w + 1) = n % 2 ^ w := by simp [mod_two_pow_succ, hb]
      simp only [clzW, hm] at ih ⊢
      simp only [Bool.not_false, if_true, List.length_cons, ← ih]
      split
      · rfl
      · next h => have := (Nat.log2_lt h).2 hlt; omega
    · have hm : n % 2 ^ (w + 1) = n % 2 ^ w + 2 ^ w := by simp [mod_two_pow_succ, hb]
      have hl : (n % 2 ^ w + 2 ^ w).log2 = w := by
        rw [Nat.log2_eq_iff (by omega), Nat.pow_succ]; omega
      simp [clzW, hm, hl]

theorem ctzW_eq (w n : Nat) : ctzW w n = ((Claim.bitsOf w n).takeWhile fun b => !b).length := by
  induction w with
  | zero => rfl
  | succ w ih =>
    rw [bitsOf_succ, List.takeWhile_append]
    rw [ctzW] at ih ⊢
    rw [List.range_succ, List.find?_append]
    cases hf : (List.range w).find? fun i => bitOf n i with
    | some i =>
      have hi : i < w := List.mem_range.1 (List.mem_of_find?_eq_some hf)
      simp only [hf, Option.getD_some] at ih
      have hl : (Claim.bitsOf w n).length = w := by simp [Claim.bitsOf]
      simp [← ih, hl, hi.ne]
    | none =>
      simp only [hf, Option.getD_none] at ih
      have hl : (Claim.bitsOf w n).length = w := by simp [Claim.bitsOf]
      cases hb : n.testBit w <;> simp [← ih, hl, hb, bitOf_eq_testBit]

theorem cpopW_eq (w n : Nat) : cpopW w n = (Claim.bitsOf w n).count true := by
  rw [cpopW, Claim.bitsOf, List.count, List.countP_map, List.countP_eq_length_filter]
  simp [bitOf_eq_testBit, Function.comp_def]

/-- A count of at most w bits fits in a register. -/
theorem toNat_w64_of_le {n w : Nat} (h : n ≤ w) (hw : w ≤ 64) : (w64 n).toNat = n := by
  simp only [w64, BitVec.toNat_ofNat]; omega

/-! ### Bytes of a word -/

theorem packElems_byte (l : List Nat) (k : Nat) : packElems 8 l / 256 ^ k % 256 = l.getD k 0 % 256 := by
  induction l generalizing k with
  | nil => simp [packElems]
  | cons a r ih =>
    have hc : packElems 8 (a :: r) = packElems 8 r * 256 + a % 256 := rfl
    cases k with
    | zero => rw [hc]; simp
    | succ k =>
      rw [hc, Nat.pow_succ', ← Nat.div_div_eq_div_mul, show (packElems 8 r * 256 + a % 256) / 256 = packElems 8 r by omega, ih]
      rfl

theorem byteOf_w64 (n : Nat) {k : Nat} (hk : k < 8) : Claim.byteOf (w64 n) k = n / 256 ^ k % 256 := by
  have h64 : (2 : Nat) ^ 64 = 256 ^ k * 256 ^ (8 - k) := by rw [← Nat.pow_add, Nat.add_sub_cancel' hk.le]; rfl
  rw [Claim.byteOf, w64, BitVec.toNat_ofNat, h64, Nat.mod_mul_right_div_self]
  exact Nat.mod_mod_of_dvd _ (dvd_pow_self 256 (by omega))

theorem byteOf_eq_elemOf (x : Word) (k : Nat) : Claim.byteOf x k = elemOf 8 x.toNat k := by
  rw [Claim.byteOf, elemOf, Nat.shiftRight_eq_div_pow, Nat.pow_mul]; rfl

/-- Byte k of a word packed from eight bytes. -/
theorem byteOf_packed (f : Nat → Nat) {k : Nat} (hk : k < 8) :
    Claim.byteOf (w64 (packElems 8 ((List.range 8).map f))) k = f k % 256 := by
  rw [byteOf_w64 _ hk, packElems_byte]
  simp [List.getD, hk]

theorem unOp_holds (o : UnOp) (x : Word) : Claim.unaryHolds o x (unOp o x) := by
  have hlen (w : Nat) (l : List Bool) (hl : l.length = w) : (l.takeWhile fun b => !b).length ≤ w :=
    hl ▸ (List.takeWhile_prefix _).length_le
  have hbits (w : Nat) : (Claim.bitsOf w x.toNat).length = w := by simp [Claim.bitsOf]
  have hrev (w : Nat) : (Claim.bitsOf w x.toNat).reverse.length = w := by simp [Claim.bitsOf]
  have hcount (w : Nat) : (Claim.bitsOf w x.toNat).count true ≤ w := (List.count_le_length).trans (hbits w).le
  cases o <;> simp only [Claim.unaryHolds, unOp, clzW_eq, ctzW_eq, cpopW_eq]
  case clz => exact toNat_w64_of_le (hlen _ _ (hrev 64)) le_rfl
  case clzw => exact toNat_w64_of_le (hlen _ _ (hrev 32)) (by decide)
  case ctz => exact toNat_w64_of_le (hlen _ _ (hbits 64)) le_rfl
  case ctzw => exact toNat_w64_of_le (hlen _ _ (hbits 32)) (by decide)
  case cpop => exact toNat_w64_of_le (hcount 64) le_rfl
  case cpopw => exact toNat_w64_of_le (hcount 32) (by decide)
  case sextB | sextH => rw [sext64_eq_signExtend]; rfl
  case zextH => exact BitVec.eq_of_toNat_eq (by simp [w64])
  case orcB =>
    intro k hk
    rw [byteOf_packed _ hk, byteOf_eq_elemOf]
    split <;> rfl
  case rev8 =>
    intro k hk
    rw [byteOf_packed _ hk, byteOf_eq_elemOf, elemOf, show 256 = 2 ^ 8 from rfl, Nat.mod_mod]

end Sys2Proof.Machine
end

section
/-!
SUPPORT. How an instruction of the base ISA ends (spec/05 R76, R77), and the integer operations, jumps and branches.
-/
namespace Sys2Proof.Machine

/-! ### The end of an instruction -/

theorem exec_baseIsa (b : BaseInstr) (s : State) : exec (.baseIsaInstruction b) s = execBaseIsaInstruction b s := rfl

theorem finish_trap (i : Instr) (s : State) (cause : Nat) (tval : Word) :
    finish i (.error (.trap s cause tval)) = .next (Claim.raised s cause tval) := rfl

theorem finish_nextPc (i : Instr) (s : State) : finish i (.ok (nextPc s)) = .next (Claim.passed s) := by
  simp [finish, nextPc, Claim.passed]

theorem finish_nextPc_wrX (i : Instr) (s : State) (rd : RegIx) (v : Word) :
    finish i (.ok (nextPc (wrX s rd v))) = .next (Claim.wroteX s rd v) := by
  simp [finish, nextPc, wrX, Claim.wroteX]

/-- An instruction whose body writes one integer register and moves on. -/
theorem exec_baseIsa_wroteX {b : BaseInstr} {s : State} {rd : RegIx} {v : Word}
    (h : execBaseIsaInstruction b s = finish (.baseIsaInstruction b) (.ok (nextPc (wrX s rd v)))) :
    exec (.baseIsaInstruction b) s = .next (Claim.wroteX s rd v) := by
  rw [exec_baseIsa, h, finish_nextPc_wrX]

theorem retire_mstatus (h : Hart) : (retire h).pr.mstatus = h.pr.mstatus := by
  unfold retire; split <;> rfl

/-- What `Claim.wroteX` leaves of the current hart. -/
theorem me_wroteX (s : State) (rd : RegIx) (v : Word) :
    me (Claim.wroteX s rd v) = retire { hartSetX (me s) rd v with pc := (me s).pc + 4 } := by simp [Claim.wroteX]

theorem rdX_wroteX (s : State) (rd r : RegIx) (v : Word) :
    rdX (Claim.wroteX s rd v) r = if r.val = 0 then 0 else if r = rd then v else rdX s r := by
  have hx : rdX (Claim.wroteX s rd v) r = hartX (hartSetX (me s) rd v) r := by rw [rdX, me_wroteX, hartX, retire_x]; rfl
  rw [hx]
  by_cases h0 : r.val = 0
  · simp [hartX, h0]
  · by_cases hr : r = rd
    · subst hr; simp [h0]
    · rw [hartX_hartSetX_other _ _ hr]; simp [h0, hr, rdX]

/-- A change of the current hart alone leaves the bytes of memory. -/
theorem sameBytes_updMe (s : State) (f : Hart → Hart) : Claim.sameBytes s (updMe s f) := by simp [Claim.sameBytes]

theorem hartOf_updMe_other (s : State) (f : Hart → Hart) {h : Nat} (hh : h ≠ s.cur) : hartOf (updMe s f) h = hartOf s h :=
  hartOf_updHart_other s f hh

/-- Settles O11: each operation's value in the model is the standard library's, and its instruction ends with that value in rd. -/
theorem integerOperations : Obligations.IntegerOperations := by
  refine ⟨fun s o rd a b => ?_, fun s o rd a b => ?_, fun s o rd a m => ?_, fun s o rd a k => ?_, fun s o rd a k => ?_, fun s rd a m => ?_,
    fun s o rd a => ⟨unOp o (rdX s a), unOp_holds _ _, ?_⟩, fun s rd m => ?_, fun s rd m => ?_, fun s rd r v => ?_⟩
  · rw [← regOp_eq]; exact exec_baseIsa_wroteX rfl
  · rw [← regWOp_eq]; exact exec_baseIsa_wroteX rfl
  · rw [← immOp_eq]; exact exec_baseIsa_wroteX rfl
  · rw [← shImmOp_eq]; exact exec_baseIsa_wroteX rfl
  · rw [← shImmWOp_eq]; exact exec_baseIsa_wroteX rfl
  · rw [← sext32_truncate]; exact exec_baseIsa_wroteX rfl
  · exact exec_baseIsa_wroteX rfl
  · rw [← upperImm_eq]; exact exec_baseIsa_wroteX rfl
  · rw [← upperImm_eq]; exact exec_baseIsa_wroteX rfl
  · refine ⟨rdX_wroteX s rd r v, fun h0 => ?_, ?_, ?_, ?_, ?_, ?_, ?_, ?_, fun h hh => hartOf_updMe_other s _ hh, sameBytes_updMe s _⟩
    · simp [me_wroteX, hartSetX, h0]
    · simp [me_wroteX]
    · simp [rdF, me_wroteX]
    · simp [me_wroteX]
    · simp [me_wroteX]
    · simp [me_wroteX, retire_mstatus]
    · simp [me_wroteX]
    · simp [me_wroteX]

end Sys2Proof.Machine
end

section
/-!
SUPPORT. Jumps and branches (spec/05 R76): the target and its check, and the link.
-/
namespace Sys2Proof.Machine

theorem hartSetX_withPc (h : Hart) (rd : RegIx) (v t : Word) : hartSetX { h with pc := t } rd v = { hartSetX h rd v with pc := t } := by
  unfold hartSetX; split <;> rfl

theorem jumpTo_aligned {s : State} {t : Word} (h : t.toNat % 4 = 0) : jumpTo s t = .ok (updMe s fun r => { r with pc := t }) := by
  simp [jumpTo, h]

theorem jumpTo_misaligned {s : State} {t : Word} (h : t.toNat % 4 ≠ 0) : jumpTo s t = .error (.trap s 0 t) := by
  simp [jumpTo, h]

/-- A body that jumps, and links behind the jump. -/
theorem finish_jumpTo_link (i : Instr) (s : State) (rd : RegIx) (v t : Word) :
    finish i (jumpTo s t >>= fun s => .ok (wrX s rd v)) =
      .next (if t.toNat % 4 = 0 then Claim.jumped s rd v t else Claim.raised s 0 t) := by
  by_cases h : t.toNat % 4 = 0
  · rw [jumpTo_aligned h, if_pos h]
    simp [Bind.bind, Except.bind, finish, wrX, Claim.jumped, hartSetX_withPc]
  · rw [jumpTo_misaligned h, if_neg h]; rfl

theorem finish_jumpTo (i : Instr) (s : State) (t : Word) :
    finish i (jumpTo s t) = .next (if t.toNat % 4 = 0 then Claim.jumped s 0 0 t else Claim.raised s 0 t) := by
  by_cases h : t.toNat % 4 = 0
  · rw [jumpTo_aligned h, if_pos h]
    simp [finish, Claim.jumped]
  · rw [jumpTo_misaligned h, if_neg h]; rfl

theorem passed_eq_jumped (s : State) : Claim.passed s = Claim.jumped s 0 0 ((me s).pc + 4) := by
  simp [Claim.passed, Claim.jumped, updMe_eq_setMe]

theorem brTaken_iff (o : BrOp) (x y : Word) : brTaken o x y = true ↔ Claim.branchHolds o x y := by
  cases o <;> simp [brTaken, Claim.branchHolds, BitVec.slt, BitVec.ult]

/-- The offset of a branch or of JAL: the immediate above a zero bit. -/
theorem offset_eq {w : Nat} (m : BitVec w) : m ++ (0 : BitVec 1) = m.zeroExtend (w + 1) <<< 1 := by
  apply BitVec.eq_of_toNat_eq
  have := m.isLt
  rw [BitVec.toNat_append]
  have h1 : m.toNat < 2 ^ (w + 1) := by omega
  have h2 : m.toNat * 2 < 2 ^ (w + 1) := by omega
  simp [Nat.shiftLeft_eq, Nat.mod_eq_of_lt h1, Nat.mod_eq_of_lt h2]

theorem exec_branch (o : BrOp) (a b : RegIx) (m : BitVec 12) (s : State) :
    exec (.baseIsaInstruction (.branch o a b m)) s = finish (.baseIsaInstruction (.branch o a b m))
      (if brTaken o (rdX s a) (rdX s b) then jumpTo s ((me s).pc + (m ++ (0 : BitVec 1)).signExtend 64) else .ok (nextPc s)) := rfl

/-- Settles O12: the check of the target decides between the jump and the exception. -/
theorem jumpsAndBranches : Obligations.JumpsAndBranches := by
  refine ⟨fun s rd m => ?_, fun s rd a m => finish_jumpTo_link _ s rd _ _, fun s o a b m => ⟨fun h => ?_, fun h => ?_⟩⟩
  · rw [← offset_eq]
    exact finish_jumpTo_link _ s rd _ _
  · rw [exec_branch, if_pos ((brTaken_iff ..).2 h), ← offset_eq]
    exact finish_jumpTo _ s _
  · rw [exec_branch, if_neg fun ht => h ((brTaken_iff ..).1 ht), finish_nextPc, passed_eq_jumped]

end Sys2Proof.Machine
end

section
/-!
SUPPORT. The system instructions (spec/00 R3, spec/02 R23, spec/05 R77): the bits of `mstatus` that a return moves, and what a withdrawn
leave request leaves alone.
-/
namespace Sys2Proof.Machine

/-! ### Bits of a word -/

theorem testBit_setBit64 (w : Word) {k : Nat} (b : Bool) (hk : k < 64) (j : Nat) :
    (setBit64 w k b).toNat.testBit j = if j = k then b else w.toNat.testBit j := by
  have hp : w64 (2 ^ k) = BitVec.twoPow 64 k := BitVec.eq_of_toNat_eq (by simp [w64])
  simp only [setBit64, hp, BitVec.testBit_toNat]
  by_cases hj : j = k
  · subst hj; cases b <;> simp [hk]
  · cases b
    · simpa [hj, Ne.symm hj] using BitVec.lt_of_getLsbD
    · simp [hj, Ne.symm hj]

/-- The bits of a field are the new value's, and all others stay. -/
theorem testBit_withField (n : Nat) {hi lo : Nat} (v : Nat) (h : lo ≤ hi) (j : Nat) :
    (withField n hi lo v).testBit j = if lo ≤ j ∧ j ≤ hi then v.testBit (j - lo) else n.testBit j := by
  obtain ⟨w, hw⟩ : ∃ w, hi + 1 - lo = w := ⟨_, rfl⟩
  have hsplit : n = 2 ^ lo * (2 ^ w * (n / 2 ^ lo / 2 ^ w) + n / 2 ^ lo % 2 ^ w) + n % 2 ^ lo := by
    rw [Nat.div_add_mod, Nat.div_add_mod]
  have hr : withField n hi lo v = 2 ^ lo * (2 ^ w * (n / 2 ^ lo / 2 ^ w) + v % 2 ^ w) + n % 2 ^ lo := by
    simp only [withField, hw, Nat.shiftRight_eq_div_pow]
    rw [Nat.mul_comm _ (2 ^ lo), Nat.mul_comm _ (2 ^ lo), Nat.mul_add]
    rw [Nat.mul_add] at hsplit
    omega
  have hlo : n % 2 ^ lo < 2 ^ lo := Nat.mod_lt _ (by positivity)
  have hv : v % 2 ^ w < 2 ^ w := Nat.mod_lt _ (by positivity)
  rw [hr, Nat.testBit_two_pow_mul_add _ hlo, Nat.testBit_two_pow_mul_add _ hv, Nat.testBit_mod_two_pow, Nat.testBit_mod_two_pow,
    Nat.testBit_div_two_pow, Nat.testBit_div_two_pow]
  by_cases h1 : j < lo
  · simp [h1, Nat.not_le.2 h1]
  · by_cases h2 : j ≤ hi
    · simp [h1, h2, Nat.not_lt.1 h1, show j - lo < w by omega]
    · simp [h1, h2, show ¬ j - lo < w by omega, show j - lo - w + w + lo = j by omega]

theorem testBit_w64 (n j : Nat) : (w64 n).toNat.testBit j = (decide (j < 64) && n.testBit j) := by
  rw [w64, BitVec.toNat_ofNat, Nat.testBit_mod_two_pow]

theorem fieldOf_two (n lo : Nat) : fieldOf n (lo + 1) lo = n / 2 ^ lo % 4 := by
  rw [fieldOf, Nat.shiftRight_eq_div_pow, show lo + 1 + 1 - lo = 2 by omega]; rfl

/-! ### What a withdrawn leave request leaves alone -/

@[simp] theorem hartOf_releaseUnits (s : State) (die units h : Nat) : hartOf (releaseUnits s die units) h = hartOf s h := by
  unfold releaseUnits; split <;> rfl

theorem sameBytes_releaseUnits (s : State) (die units : Nat) : Claim.sameBytes s (releaseUnits s die units) := by
  unfold releaseUnits; split <;> simp [Claim.sameBytes]

theorem sameBytes_updHart (s : State) (h : Nat) (f : Hart → Hart) : Claim.sameBytes s (updHart s h f) := by simp [Claim.sameBytes]

theorem sameBytes_trans {s t u : State} (h : Claim.sameBytes s t) (k : Claim.sameBytes t u) : Claim.sameBytes s u := by
  obtain ⟨h1, h2, h3, h4, h5⟩ := h
  obtain ⟨k1, k2, k3, k4, k5⟩ := k
  refine ⟨k1.trans h1, k2.trans h2, k3.trans h3, k4.trans h4, fun c => ?_⟩
  obtain ⟨a1, a2, a3, a4⟩ := h5 c
  obtain ⟨b1, b2, b3, b4⟩ := k5 c
  exact ⟨b1.trans a1, b2.trans a2, b3.trans a3, b4.trans a4⟩

@[simp] theorem withdrawLeave_cur (s : State) (h : Nat) : (withdrawLeave s h).cur = s.cur := by
  simp only [withdrawLeave, releaseUnits]; split_ifs <;> rfl

/-- A hart that withdraws its leave request keeps everything but the request. -/
theorem hartOf_withdrawLeave (s : State) (h : Nat) :
    hartOf (withdrawLeave s h) h = { hartOf s h with leaveOk := 0, ticket := none } := by
  unfold withdrawLeave
  extract_lets die r s1
  have h1 : hartOf s1 h = { r with leaveOk := 0 } := by
    simp only [s1]
    split
    · next h0 => exact h0 ▸ rfl
    · simp [r]
  split
  · next ht =>
    have hn : r.ticket = none := by simpa using ht
    exact h1.trans (hn ▸ rfl)
  · simp [h1, r]

theorem me_withdrawLeave (s : State) : me (withdrawLeave s s.cur) = { me s with leaveOk := 0, ticket := none } := by
  rw [me, withdrawLeave_cur, hartOf_withdrawLeave]; rfl

theorem sameBytes_withdrawLeave (s : State) (h : Nat) : Claim.sameBytes s (withdrawLeave s h) := by
  unfold withdrawLeave
  extract_lets die r s1
  have h1 : Claim.sameBytes s s1 := by
    simp only [s1]
    split
    · simp [Claim.sameBytes]
    · exact sameBytes_trans (sameBytes_releaseUnits ..) (sameBytes_updHart ..)
  split
  · exact h1
  · exact sameBytes_trans h1 (by simp [Claim.sameBytes])

/-! ### Returns -/

/-- MRET moves MPIE to MIE, sets MPIE, clears MPP, and clears MPRV where it leaves M-mode (privileged architecture 1.12). -/
theorem testBit_leaveM (h : Hart) (j : Nat) : (leaveM h).pr.mstatus.toNat.testBit j =
    if j = 3 then h.pr.mstatus.toNat.testBit 7 else if j = 7 then true else if j = 11 ∨ j = 12 then false
    else if j = 17 ∧ (leaveM h).priv ≠ .m then false else h.pr.mstatus.toNat.testBit j := by
  have hst : (setBit64 (setBit64 h.pr.mstatus stMIE (bitOf h.pr.mstatus.toNat stMPIE)) stMPIE true).toNat.testBit j =
      if j = 7 then true else if j = 3 then h.pr.mstatus.toNat.testBit 7 else h.pr.mstatus.toNat.testBit j := by
    rw [testBit_setBit64 _ _ (by decide), testBit_setBit64 _ _ (by decide), bitOf_eq_testBit]; rfl
  have hlt : 64 ≤ j → h.pr.mstatus.toNat.testBit j = false := fun hj =>
    Nat.testBit_lt_two_pow (h.pr.mstatus.isLt.trans_le (Nat.pow_le_pow_right (by decide) hj))
  by_cases hp : privOf (fieldOf h.pr.mstatus.toNat 12 11) = .m
  · simp only [leaveM, hp, if_true, testBit_w64, testBit_withField _ _ (by decide : 11 ≤ 12), hst, Nat.zero_testBit]
    grind
  · simp only [leaveM, hp, if_false, testBit_setBit64 _ _ (by decide : (17 : Nat) < 64), testBit_w64,
      testBit_withField _ _ (by decide : 11 ≤ 12), hst, Nat.zero_testBit]
    grind

theorem testBit_leaveS (h : Hart) (j : Nat) : (leaveS h).pr.mstatus.toNat.testBit j =
    if j = 1 then h.pr.mstatus.toNat.testBit 5 else if j = 5 then true else if j = 8 ∨ j = 17 then false
    else h.pr.mstatus.toNat.testBit j := by
  simp only [leaveS, stSIE, stSPIE, stSPP, testBit_setBit64 _ _ (by decide : (17 : Nat) < 64),
    testBit_setBit64 _ _ (by decide : (8 : Nat) < 64), testBit_setBit64 _ _ (by decide : (5 : Nat) < 64),
    testBit_setBit64 _ _ (by decide : (1 : Nat) < 64), bitOf_eq_testBit]
  grind

theorem leaveM_priv (h : Hart) :
    (leaveM h).priv = match h.pr.mstatus.toNat / 2048 % 4 with | 0 => .u | 1 => .s | _ => .m := by
  have hf : fieldOf h.pr.mstatus.toNat 12 11 = h.pr.mstatus.toNat / 2048 % 4 := fieldOf_two _ 11
  simp only [leaveM, hf]
  generalize h.pr.mstatus.toNat / 2048 % 4 = n
  match n with
  | 0 | 1 | _ + 2 => rfl

theorem leaveS_priv (h : Hart) : (leaveS h).priv = if h.pr.mstatus.toNat.testBit 8 then .s else .u := by
  simp only [leaveS, bitOf_eq_testBit, stSPP]

/-- A field of two bits is 0 where both are. -/
theorem div_mod_four_eq_zero {n lo : Nat} (h0 : n.testBit lo = false) (h1 : n.testBit (lo + 1) = false) : n / 2 ^ lo % 4 = 0 := by
  rw [Nat.testBit_eq_decide_div_mod_eq, decide_eq_false_iff_not] at h0 h1
  rw [Nat.pow_succ, ← Nat.div_div_eq_div_mul] at h1
  omega

theorem sameRegs_retire_leaveM (h : Hart) : Claim.sameRegs h (retire (leaveM { h with leaveOk := 0, ticket := none })) := by
  simp [Claim.sameRegs, leaveM]

theorem sameRegs_retire_leaveS (h : Hart) : Claim.sameRegs h (retire (leaveS { h with leaveOk := 0, ticket := none })) := by
  simp [Claim.sameRegs, leaveS]

/-! ### The instructions -/

theorem exec_ebreak (s : State) :
    exec (.baseIsaInstruction .ebreak) s = finish (.baseIsaInstruction .ebreak) (baseSystem (.baseIsaInstruction .ebreak) .ebreak s) := rfl

theorem exec_mret (s : State) :
    exec (.baseIsaInstruction .mret) s = finish (.baseIsaInstruction .mret) (baseSystem (.baseIsaInstruction .mret) .mret s) := rfl

theorem exec_sret (s : State) :
    exec (.baseIsaInstruction .sret) s = finish (.baseIsaInstruction .sret) (baseSystem (.baseIsaInstruction .sret) .sret s) := rfl

theorem exec_mret_of_m {s : State} (h : (me s).priv = .m) :
    exec (.baseIsaInstruction .mret) s = .next (updMe (withdrawLeave s s.cur) fun h => retire (leaveM h)) := by
  simp [exec_mret, baseSystem, h, finish]

theorem exec_mret_of_not_m {s : State} (h : (me s).priv ≠ .m) :
    exec (.baseIsaInstruction .mret) s = .next (Claim.raised s 2 0x30200073) := by
  simp only [exec_mret, baseSystem, h, if_false]
  exact finish_trap ..

theorem exec_sret_illegal {s : State} (h : (me s).priv = .u ∨ (me s).priv = .s ∧ (me s).pr.mstatus.toNat.testBit 22 = true) :
    exec (.baseIsaInstruction .sret) s = .next (Claim.raised s 2 0x10200073) := by
  simp only [exec_sret, baseSystem, bitOf_eq_testBit, h, if_true]
  exact finish_trap ..

theorem exec_sret_of_allowed {s : State} (h : (me s).priv = .m ∨ (me s).priv = .s ∧ (me s).pr.mstatus.toNat.testBit 22 = false) :
    exec (.baseIsaInstruction .sret) s = .next (updMe (withdrawLeave s s.cur) fun h => retire (leaveS h)) := by
  have hn : ¬ ((me s).priv = .u ∨ (me s).priv = .s ∧ (me s).pr.mstatus.toNat.testBit 22 = true) := by
    rcases h with h | ⟨h, hb⟩
    · simp [h]
    · simp [h, hb]
  simp [exec_sret, baseSystem, bitOf_eq_testBit, hn, finish]

theorem me_updMe_withdrawLeave (s : State) (f : Hart → Hart) :
    me (updMe (withdrawLeave s s.cur) f) = f { me s with leaveOk := 0, ticket := none } := by
  rw [me_updMe, me_withdrawLeave]

theorem sameBytes_updMe_withdrawLeave (s : State) (f : Hart → Hart) : Claim.sameBytes s (updMe (withdrawLeave s s.cur) f) :=
  sameBytes_trans (sameBytes_withdrawLeave ..) (sameBytes_updMe ..)

theorem exec_mret_holds {s : State} (hm : (me s).priv = .m) : ∃ t, exec (.baseIsaInstruction .mret) s = .next t ∧ (me t).pc = (me s).pr.mepc ∧
    (me t).priv = (match (me s).pr.mstatus.toNat / 2048 % 4 with | 0 => .u | 1 => .s | _ => .m) ∧
    (me t).pr.mstatus.toNat.testBit 3 = (me s).pr.mstatus.toNat.testBit 7 ∧ (me t).pr.mstatus.toNat.testBit 7 = true ∧
    (me t).pr.mstatus.toNat / 2048 % 4 = 0 ∧ ((me t).priv ≠ .m → (me t).pr.mstatus.toNat.testBit 17 = false) ∧
    Claim.agreeBut (me t).pr.mstatus (me s).pr.mstatus [3, 7, 11, 12, 17] ∧ Claim.sameRegs (me s) (me t) ∧ Claim.sameBytes s t := by
  refine ⟨_, exec_mret_of_m hm, ?_, ?_, ?_, ?_, ?_, ?_, ?_, ?_, sameBytes_updMe_withdrawLeave ..⟩ <;>
    rw [me_updMe_withdrawLeave]
  · rw [retire_pc]; rfl
  · rw [retire_priv, leaveM_priv]
  · simp [retire_mstatus, testBit_leaveM]
  · simp [retire_mstatus, testBit_leaveM]
  · refine div_mod_four_eq_zero (lo := 11) ?_ ?_ <;> simp [retire_mstatus, testBit_leaveM]
  · intro hp; rw [retire_priv] at hp; simp [retire_mstatus, testBit_leaveM, hp]
  · intro k hk
    simp only [List.mem_cons, List.not_mem_nil, or_false, not_or] at hk
    obtain ⟨h3, h7, h11, h12, h17⟩ := hk
    simp [retire_mstatus, testBit_leaveM, h3, h7, h11, h12, h17]
  · exact sameRegs_retire_leaveM _

theorem exec_sret_holds {s : State} (h : (me s).priv = .m ∨ (me s).priv = .s ∧ (me s).pr.mstatus.toNat.testBit 22 = false) :
    ∃ t, exec (.baseIsaInstruction .sret) s = .next t ∧ (me t).pc = (me s).pr.sepc ∧
    (me t).priv = (if (me s).pr.mstatus.toNat.testBit 8 then .s else .u) ∧
    (me t).pr.mstatus.toNat.testBit 1 = (me s).pr.mstatus.toNat.testBit 5 ∧ (me t).pr.mstatus.toNat.testBit 5 = true ∧
    (me t).pr.mstatus.toNat.testBit 8 = false ∧ (me t).pr.mstatus.toNat.testBit 17 = false ∧
    Claim.agreeBut (me t).pr.mstatus (me s).pr.mstatus [1, 5, 8, 17] ∧ Claim.sameRegs (me s) (me t) ∧ Claim.sameBytes s t := by
  refine ⟨_, exec_sret_of_allowed h, ?_, ?_, ?_, ?_, ?_, ?_, ?_, ?_, sameBytes_updMe_withdrawLeave ..⟩ <;>
    rw [me_updMe_withdrawLeave]
  · rw [retire_pc]; rfl
  · rw [retire_priv, leaveS_priv]
  · simp [retire_mstatus, testBit_leaveS]
  · simp [retire_mstatus, testBit_leaveS]
  · simp [retire_mstatus, testBit_leaveS]
  · simp [retire_mstatus, testBit_leaveS]
  · intro k hk
    simp only [List.mem_cons, List.not_mem_nil, or_false, not_or] at hk
    obtain ⟨h1, h5, h8, h17⟩ := hk
    simp [retire_mstatus, testBit_leaveS, h1, h5, h8, h17]
  · exact sameRegs_retire_leaveS _

theorem cause_enterDebug (h : Hart) : (enterDebug h 1).pr.dcsr.toNat / 64 % 8 = 1 := by
  have hd := h.pr.dcsr.isLt
  simp only [enterDebug, withField, w64, BitVec.toNat_ofNat, Nat.shiftRight_eq_div_pow]
  omega

theorem exec_ecall (s : State) : exec .ecall s = execEcall s := rfl

/-- Settles O17: the returns by the bits that they move, EBREAK and ECALL by their branches. -/
theorem systemInstructions : Obligations.SystemInstructions := by
  refine ⟨fun s w => finish_nextPc (.hint w) s, fun s => finish_nextPc (.baseIsaInstruction .wfi) s,
    fun s => exec_mret_of_not_m, fun s => exec_sret_illegal, fun s => exec_mret_holds, fun s => exec_sret_holds, fun s hd he => ?_, fun s hd he => ?_, fun s hp hx => ?_, fun s hp hx => ?_,
    fun s hp => ?_, fun s hp => ?_⟩
  · rw [exec_ebreak]
    simp only [baseSystem, hd, he, if_false, Bool.false_eq_true]
    exact finish_trap ..
  · refine ⟨updMe s fun h => enterDebug h 1, ?_, ?_, ?_, ?_, ?_⟩
    · rw [exec_ebreak]
      simp [baseSystem, hd, he, finish]
    · simp [inDebug, enterDebug]
    · simp [enterDebug]
    · rw [me_updMe, cause_enterDebug]
    · simp [Claim.sameRegs, enterDebug]
  · have h0 : hartX (me s) 17 = 0 := hx
    simp [exec_ecall, execEcall, hp, h0, finish, nextPc]
  · have h0 : hartX (me s) 17 ≠ 0 := hx
    simp only [exec_ecall, execEcall, hp, h0, if_false]
    exact finish_trap ..
  · simp only [exec_ecall, execEcall, hp]
    exact finish_trap ..
  · simp only [exec_ecall, execEcall, hp]
    exact finish_trap ..

end Sys2Proof.Machine
end

section
/-!
SUPPORT. A finite pattern of an IEEE format (spec/04 Table 4-1) is what its own value rounds to: decoding and narrowing are inverse.
-/
namespace Sys2Proof.Machine

/-! ### A dyadic number as a ratio -/

theorem dyad_of_ne {m : Nat} (s : Bool) (e : Int) (h : m ≠ 0) :
    dyad s m e = .rat s (m * 2 ^ e.toNat) (2 ^ (-e).toNat) := by
  unfold dyad
  rw [if_neg h]
  split
  · next he => simp [show (-e).toNat = 0 by omega]
  · next he => simp [show e.toNat = 0 by omega]

/-- Of a dyadic ratio the exponent is known before the division. -/
theorem ilog2_dyad {m : Nat} (e : Int) (h : m ≠ 0) : ilog2 (m * 2 ^ e.toNat) (2 ^ (-e).toNat) = Nat.log2 m + e := by
  have hn : (m * 2 ^ e.toNat).log2 = m.log2 + e.toNat := by
    rw [Nat.log2_eq_iff (by positivity)]
    have h1 := Nat.log2_self_le h
    have h2 := Nat.lt_log2_self (n := m)
    constructor
    · rw [Nat.pow_add]; exact Nat.mul_le_mul_right _ h1
    · rw [show m.log2 + e.toNat + 1 = m.log2 + 1 + e.toNat by omega, Nat.pow_add]
      exact Nat.mul_lt_mul_of_pos_right h2 (by positivity)
  have hd : (2 ^ (-e).toNat : Nat).log2 = (-e).toNat := Nat.log2_two_pow
  have hg : ((m.log2 + e.toNat : Nat) : Int) - ((-e).toNat : Int) = m.log2 + e := by omega
  have h1 := Nat.log2_self_le h
  simp only [ilog2, hn, hd, hg]
  apply if_pos
  split
  · rw [← Nat.pow_add, show (-e).toNat + ((m.log2 : Int) + e).toNat = m.log2 + e.toNat by omega, Nat.pow_add]
    exact Nat.mul_le_mul_right _ h1
  · rw [show (-e).toNat = m.log2 + (-((m.log2 : Int) + e)).toNat by omega, show e.toNat = 0 by omega, Nat.pow_add, Nat.pow_zero, Nat.mul_one]
    exact Nat.mul_le_mul_right _ h1

theorem divPow_dyad (m : Nat) (e : Int) : divPow (m * 2 ^ e.toNat) (2 ^ (-e).toNat) e = (m, 0, 2 ^ e.natAbs) := by
  rcases lt_or_ge e 0 with he | he
  · simp [divPow, he, show e.toNat = 0 by omega, show (-e).toNat = e.natAbs by omega]
  · simp [divPow, not_lt.2 he, show (-e).toNat = 0 by omega, show e.toNat = e.natAbs by omega]

theorem roundsUp_rne_zero (neg : Bool) (draw lo : Nat) {d : Nat} (hd : 0 < d) : roundsUp .rne neg draw lo 0 d = false := by
  simp [roundsUp, hd.ne]

/-! ### Patterns of finite values -/

/-- The significand m and the exponent L ≥ 1 that a finite pattern of a format stands for: `m 2^(L - bias - mb)`. -/
structure FiniteForm (f : FSpec) (L m : Nat) : Prop where
  one_le : 1 ≤ L
  le_top : L ≤ 2 ^ f.eb - 2
  sig_lt : m < 2 ^ (f.mb + 1)
  normal : 2 ^ f.mb ≤ m ∨ L = 1

/-- The fields of the largest finite pattern. -/
theorem maxFinite_fields {f : FSpec} (ht : f.top = .ieee) (h : 1 ≤ 2 ^ f.eb - 2) :
    maxFinite f / 2 ^ f.mb = 2 ^ f.eb - 2 ∧ maxFinite f % 2 ^ f.mb = 2 ^ f.mb - 1 := by
  have hpow : 0 < 2 ^ f.mb := by positivity
  have hF : maxFinite f = 2 ^ f.mb * (2 ^ f.eb - 2) + (2 ^ f.mb - 1) := by
    simp only [maxFinite, ht]
    rw [show 2 ^ f.eb - 1 = (2 ^ f.eb - 2) + 1 by omega, Nat.succ_mul, Nat.mul_comm]; omega
  rw [hF, Nat.mul_add_div hpow, Nat.mul_add_mod, Nat.div_eq_of_lt (by omega), Nat.mod_eq_of_lt (by omega)]
  exact ⟨rfl, rfl⟩

/-- The unit in the last place of a finite value is that of its own exponent. -/
theorem FiniteForm.quantum {f : FSpec} {L m : Nat} (h : FiniteForm f L m) (h0 : m ≠ 0) {e : Int} (he : e = L - f.bias - f.mb) :
    max ((Nat.log2 m : Int) + e) (1 - f.bias) - f.mb = e := by
  have hl : m.log2 < f.mb + 1 := (Nat.log2_lt h0).2 h.sig_lt
  have h1 := h.one_le
  rcases h.normal with h4 | rfl
  · have : f.mb ≤ m.log2 := (Nat.le_log2 h0).2 h4
    omega
  · omega

/-- A finite value does not exceed the largest one, `(2^(mb+1) - 1) 2^fe`. -/
theorem FiniteForm.no_overflow {f : FSpec} {L m : Nat} (h : FiniteForm f L m) {e fe : Int} (hle : e ≤ fe) :
    (if fe ≤ e then decide (2 ^ f.mb + (2 ^ f.mb - 1) < m * 2 ^ (e - fe).toNat)
      else decide ((2 ^ f.mb + (2 ^ f.mb - 1)) * 2 ^ (fe - e).toNat < m)) = false := by
  have hm : m ≤ 2 ^ f.mb + (2 ^ f.mb - 1) := by have := h.sig_lt; rw [Nat.pow_succ] at this; omega
  split
  · rw [show (e - fe).toNat = 0 by omega, Nat.pow_zero, Nat.mul_one]
    exact decide_eq_false (not_lt.2 hm)
  · exact decide_eq_false (not_lt.2 (hm.trans (Nat.le_mul_of_pos_right _ (by positivity))))

/-- The exponent and fraction fields of a significand. -/
theorem FiniteForm.fields {f : FSpec} {L m : Nat} (h : FiniteForm f L m) :
    (if m < 2 ^ f.mb then m else L * 2 ^ f.mb + (m - 2 ^ f.mb)) = (L - 1) * 2 ^ f.mb + m := by
  split
  · next hm => rw [h.normal.resolve_left (by omega)]; simp
  · next hm =>
    obtain ⟨k, hk⟩ := Nat.exists_eq_add_of_le' h.one_le
    rw [hk, Nat.succ_mul, Nat.add_sub_cancel]; omega

/-- A finite value with the significand and the exponent of a format is exact in it. -/
theorem roundRat_exact {f : FSpec} (ht : f.top = .ieee) {L m : Nat} (h : FiniteForm f L m) (h0 : m ≠ 0) (draw : Nat) (s : Bool)
    {e : Int} (he : e = L - f.bias - f.mb) :
    (roundRat f .rne draw s (m * 2 ^ e.toNat) (2 ^ (-e).toNat)).1 = signBit f s + ((L - 1) * 2 ^ f.mb + m) := by
  have h2 := h.le_top
  obtain ⟨hFd, hFm⟩ := maxFinite_fields ht (h.one_le.trans h2)
  have hle : e ≤ ((2 ^ f.eb - 2 : Nat) : Int) - f.bias - f.mb := by omega
  have hL : (e + f.mb + f.bias).toNat = L := by omega
  have hup := roundsUp_rne_zero s draw m (show 0 < 2 ^ e.natAbs by positivity)
  simp only [roundRat, ilog2_dyad e h0, reduceCtorEq, if_false, h.quantum h0 he, divPow_dyad, hup, Bool.false_eq_true, hFd, hFm,
    h.no_overflow hle, h.sig_lt.ne, hL, h.fields]

/-- The sign bit of a pattern. -/
def patSign (f : FSpec) (n : Nat) : Bool := n / 2 ^ (f.mb + f.eb) % 2 == 1

theorem signField_lt {f : FSpec} {n : Nat} (hn : n < 2 ^ (1 + f.eb + f.mb)) : n / 2 ^ (f.mb + f.eb) < 2 := by
  rw [Nat.div_lt_iff_lt_mul (by positivity), ← Nat.pow_add_one', show f.mb + f.eb + 1 = 1 + f.eb + f.mb by omega]; exact hn

theorem patSign_eq_one {f : FSpec} {n : Nat} (hn : n < 2 ^ (1 + f.eb + f.mb)) : (n / 2 ^ (f.mb + f.eb) == 1) = patSign f n := by
  rw [patSign, Nat.mod_eq_of_lt (signField_lt hn)]

theorem patSign_eq_zero {f : FSpec} {n : Nat} (hn : n < 2 ^ (1 + f.eb + f.mb)) : (n / 2 ^ (f.mb + f.eb) == 0) = !patSign f n := by
  rw [← patSign_eq_one hn]
  have := signField_lt hn
  generalize n / 2 ^ (f.mb + f.eb) = q at this
  interval_cases q <;> rfl

/-- The fields of a pattern: sign, exponent, fraction. -/
theorem pattern_split (f : FSpec) {n : Nat} (hn : n < 2 ^ (1 + f.eb + f.mb)) :
    n = signBit f (patSign f n) + (n / 2 ^ f.mb % 2 ^ f.eb * 2 ^ f.mb + n % 2 ^ f.mb) := by
  have hs := signField_lt hn
  have hb : signBit f (patSign f n) = n / 2 ^ f.mb / 2 ^ f.eb * 2 ^ f.eb * 2 ^ f.mb := by
    rw [Nat.div_div_eq_div_mul, ← Nat.pow_add, Nat.mul_assoc, ← Nat.pow_add, patSign]
    generalize n / 2 ^ (f.mb + f.eb) = q at hs
    interval_cases q <;> simp [signBit]
  rw [hb, ← Nat.add_assoc, ← Nat.add_mul, Nat.div_add_mod', Nat.div_add_mod']

/-- What decoding can give of an IEEE pattern: a NaN, an infinity, or the significand and the exponent in its fields. -/
theorem fdecode_cases {f : FSpec} (ht : f.top = .ieee) (he : 2 ≤ f.eb) {n : Nat} (hn : n < 2 ^ (1 + f.eb + f.mb)) :
    (∃ q, fdecode f n = .nan q) ∨
    (fdecode f n = .inf (patSign f n) ∧ n = signBit f (patSign f n) + (2 ^ f.eb - 1) * 2 ^ f.mb) ∨
    (∃ L m : Nat, fdecode f n = .fin (patSign f n) m (L - f.bias - f.mb) ∧ FiniteForm f L m ∧
      n = signBit f (patSign f n) + ((L - 1) * 2 ^ f.mb + m)) := by
  have hsplit := pattern_split f hn
  have hex : n / 2 ^ f.mb % 2 ^ f.eb < 2 ^ f.eb := Nat.mod_lt _ (by positivity)
  have hfr : n % 2 ^ f.mb < 2 ^ f.mb := Nat.mod_lt _ (by positivity)
  have h4 : 2 ^ 2 ≤ 2 ^ f.eb := Nat.pow_le_pow_right (by decide) he
  have hpow : 2 ^ (f.mb + 1) = 2 ^ f.mb + 2 ^ f.mb := by rw [Nat.pow_succ]; omega
  have hsg : (n / 2 ^ (f.mb + f.eb) % 2 == 1) = patSign f n := rfl
  simp only [fdecode, ht, and_true, reduceCtorEq, false_and, and_false, if_false, hsg]
  by_cases htop : n / 2 ^ f.mb % 2 ^ f.eb = 2 ^ f.eb - 1
  · rw [if_pos htop]
    by_cases h0 : n % 2 ^ f.mb = 0
    · rw [if_pos h0]
      rw [htop, h0, Nat.add_zero] at hsplit
      exact .inr (.inl ⟨rfl, hsplit⟩)
    · rw [if_neg h0]; exact .inl ⟨_, rfl⟩
  · rw [if_neg htop]
    by_cases h0 : n / 2 ^ f.mb % 2 ^ f.eb = 0
    · rw [if_pos h0]
      rw [h0] at hsplit
      exact .inr (.inr ⟨1, _, rfl, ⟨le_rfl, by omega, by omega, .inr rfl⟩, hsplit⟩)
    · rw [if_neg h0]
      obtain ⟨k, hk⟩ : ∃ k, n / 2 ^ f.mb % 2 ^ f.eb = k + 1 := ⟨_, (Nat.succ_pred h0).symm⟩
      rw [hk] at hsplit hex htop ⊢
      refine .inr (.inr ⟨k + 1, _, rfl, ⟨by omega, by omega, by omega, .inl (by omega)⟩, hsplit.trans ?_⟩)
      rw [Nat.add_sub_cancel, Nat.succ_mul]; omega

/-- Narrowing the value of a pattern to its own format gives the pattern back. -/
theorem narrow_fdecode {f : FSpec} (ht : f.top = .ieee) (he : 2 ≤ f.eb) {n : Nat} (hn : n < 2 ^ (1 + f.eb + f.mb))
    (hv : isNaN (fdecode f n) = false) : (narrow f .rne 0 (foutOf (fdecode f n))).1 = n := by
  rcases fdecode_cases ht he hn with ⟨q, h⟩ | ⟨h, hs⟩ | ⟨L, m, h, hf, hs⟩ <;> rw [h] at hv ⊢
  · cases hv
  · simp only [foutOf, narrow, ht, if_true]; exact hs.symm
  · by_cases h0 : m = 0
    · subst h0
      obtain ⟨h1, -, -, h4⟩ := hf
      have hpow : 0 < 2 ^ f.mb := by positivity
      have hL : L = 1 := h4.resolve_left (by omega)
      simp only [foutOf, dyad, if_true, narrow]
      rw [hL] at hs
      omega
    · rw [foutOf, dyad_of_ne _ _ h0, narrow, roundRat_exact ht hf h0 _ _ rfl]
      exact hs.symm

/-! ### Order of values -/

/-- The rational number of a finite value. -/
def finQ (s : Bool) (m : Nat) (e : Int) : ℚ := (if s then -1 else 1) * (m : ℚ) * (2 : ℚ) ^ e

theorem valQ_fin (s : Bool) (m : Nat) (e : Int) : Claim.valQ (.fin s m e) = some (finQ s m e) := rfl

theorem atExp_eq (s : Bool) (m : Nat) {e e0 : Int} (h : e0 ≤ e) : (atExp s m e e0 : ℚ) = finQ s m e * (2 : ℚ) ^ (-e0) := by
  have hp : (2 : ℚ) ^ e * (2 : ℚ) ^ (-e0) = 2 ^ (e - e0).toNat := by
    rw [← zpow_add₀ two_ne_zero, ← sub_eq_add_neg, ← zpow_natCast, Int.toNat_of_nonneg (by omega)]
  rw [finQ, mul_assoc, hp, atExp]
  cases s <;> push_cast <;> simp

/-- The model's comparison of finite values has the sign of their difference. -/
theorem cmpFin_eq (s : Bool) (m : Nat) (e : Int) (t : Bool) (n : Nat) (k : Int) :
    ∃ c : ℚ, 0 < c ∧ (cmpFin s m e t n k : ℚ) = (finQ s m e - finQ t n k) * c := by
  have hz (s : Bool) (e : Int) : finQ s 0 e = 0 := by simp [finQ]
  unfold cmpFin
  by_cases hm : m = 0 <;> by_cases hn : n = 0
  · subst hm hn; exact ⟨1, one_pos, by simp [hz]⟩
  · subst hm; exact ⟨2 ^ (-k), by positivity, by simp [hn, hz, atExp_eq]⟩
  · subst hn; exact ⟨2 ^ (-e), by positivity, by simp [hm, hz, atExp_eq]⟩
  · exact ⟨2 ^ (-min e k), by positivity, by simp [hm, hn, atExp_eq, sub_mul]⟩

theorem cmpFin_neg_iff (s : Bool) (m : Nat) (e : Int) (t : Bool) (n : Nat) (k : Int) :
    cmpFin s m e t n k < 0 ↔ finQ s m e < finQ t n k := by
  obtain ⟨c, hc, h⟩ := cmpFin_eq s m e t n k
  rw [← Int.cast_lt (R := ℚ), h, Int.cast_zero, ← zero_mul c, mul_lt_mul_iff_of_pos_right hc, sub_neg]

theorem cmpFin_zero_iff (s : Bool) (m : Nat) (e : Int) (t : Bool) (n : Nat) (k : Int) :
    cmpFin s m e t n k = 0 ↔ finQ s m e = finQ t n k := by
  obtain ⟨c, hc, h⟩ := cmpFin_eq s m e t n k
  rw [← Int.cast_inj (α := ℚ), h, Int.cast_zero, mul_eq_zero_iff_right hc.ne', sub_eq_zero]

theorem lessF_eq (a b : FVal) : (!(isNaN a || isNaN b) && fltV a b) = Claim.lessF a b := by
  match a, b with
  | .nan _, .nan _ | .nan _, .inf _ | .nan _, .fin _ _ _ | .inf _, .nan _ | .fin _ _ _, .nan _ => rfl
  | .inf _, .inf _ | .inf _, .fin _ _ _ | .fin _ _ _, .inf _ => rfl
  | .fin s m e, .fin t n k => exact decide_eq_decide.2 (cmpFin_neg_iff s m e t n k)

theorem equalF_eq (a b : FVal) : (!(isNaN a || isNaN b) && feqV a b) = Claim.equalF a b := by
  match a, b with
  | .nan _, .nan _ | .nan _, .inf _ | .nan _, .fin _ _ _ | .inf _, .nan _ | .fin _ _ _, .nan _ => rfl
  | .inf _, .inf _ | .inf _, .fin _ _ _ | .fin _ _ _, .inf _ => rfl
  | .fin s m e, .fin t n k => exact decide_eq_decide.2 (cmpFin_zero_iff s m e t n k)

theorem lessF_of_not_nan {a b : FVal} (ha : isNaN a = false) (hb : isNaN b = false) : fltV a b = Claim.lessF a b := by
  rw [← lessF_eq, ha, hb]; rfl

theorem lessF_asymm (a b : FVal) (h : Claim.lessF a b = true) : Claim.lessF b a = false := by
  match a, b with
  | .nan _, .nan _ | .nan _, .inf _ | .nan _, .fin _ _ _ | .inf _, .nan _ | .fin _ _ _, .nan _ => cases h
  | .inf s, .inf t => revert h; cases s <;> cases t <;> decide
  | .inf s, .fin _ _ _ => simp_all [Claim.lessF]
  | .fin _ _ _, .inf t => simp_all [Claim.lessF]
  | .fin s m e, .fin t n k =>
    have hl := of_decide_eq_true (p := finQ s m e < finQ t n k) h
    exact decide_eq_false (p := finQ t n k < finQ s m e) hl.not_gt

/-- A format writes each value in one way: equal values of one sign have equal significands and exponents. -/
theorem FiniteForm.unique {f : FSpec} {L m K n : Nat} (h : FiniteForm f L m) (k : FiniteForm f K n) (s : Bool) {b : Int}
    (he : finQ s m (L - b) = finQ s n (K - b)) : L = K ∧ m = n := by
  wlog hle : L ≤ K generalizing L m K n
  · exact (this k h he.symm (by omega)).imp Eq.symm Eq.symm
  obtain ⟨d, rfl⟩ := Nat.exists_eq_add_of_le hle
  have hs : (if s then -1 else 1 : ℚ) ≠ 0 := by cases s <;> norm_num
  have hm : m = n * 2 ^ d := by
    have hx : (2 : ℚ) ^ ((L : Int) - b) ≠ 0 := zpow_ne_zero _ two_ne_zero
    have hk : (2 : ℚ) ^ (((L + d : Nat) : Int) - b) = 2 ^ d * 2 ^ ((L : Int) - b) := by
      rw [Nat.cast_add, show (L : Int) + d - b = d + (L - b) by ring, zpow_add₀ two_ne_zero, zpow_natCast]
    rw [finQ, finQ, hk, ← mul_assoc, mul_left_inj' hx, mul_assoc, mul_right_inj' hs] at he
    exact_mod_cast he
  rcases Nat.eq_zero_or_pos d with rfl | hd
  · simpa using hm
  · have hn : 2 ^ f.mb ≤ n := k.normal.resolve_right (by have := h.one_le; omega)
    have h2 : 2 ^ 1 ≤ 2 ^ d := Nat.pow_le_pow_right (by decide) hd
    have := Nat.mul_le_mul hn h2
    have := h.sig_lt
    omega

/-- Two patterns of one sign, neither less than the other and neither a NaN, are the same pattern. -/
theorem pattern_unique {f : FSpec} (ht : f.top = .ieee) (he : 2 ≤ f.eb) {a b : Nat} (ha : a < 2 ^ (1 + f.eb + f.mb))
    (hb : b < 2 ^ (1 + f.eb + f.mb)) (hna : isNaN (fdecode f a) = false) (hnb : isNaN (fdecode f b) = false)
    (hs : patSign f a = patSign f b) (h1 : Claim.lessF (fdecode f a) (fdecode f b) = false)
    (h2 : Claim.lessF (fdecode f b) (fdecode f a) = false) : a = b := by
  rcases fdecode_cases ht he ha with ⟨q, h⟩ | ⟨h, ea⟩ | ⟨L, m, h, hf, ea⟩ <;> rw [h] at hna h1 h2
  · cases hna
  all_goals rcases fdecode_cases ht he hb with ⟨q, k⟩ | ⟨k, eb⟩ | ⟨K, n, k, kf, eb⟩ <;> rw [k] at hnb h1 h2
  · cases hnb
  · rw [ea, eb, hs]
  · have h3 : patSign f a = false := h1
    have h4 : (!patSign f a) = false := h2
    simp [h3] at h4
  · cases hnb
  · have h3 : (!patSign f b) = false := h1
    have h4 : patSign f b = false := h2
    simp [h4] at h3
  · rw [← hs] at h1 h2
    have hq := le_antisymm (not_lt.1 (of_decide_eq_false h2)) (not_lt.1 (of_decide_eq_false h1))
    obtain ⟨rfl, rfl⟩ := hf.unique kf (patSign f a) (b := f.bias + f.mb) (by simpa only [sub_add_eq_sub_sub, finQ] using hq)
    rw [ea, eb, hs]

/-! ### Minimum and maximum -/

theorem fsignV_fdecode {f : FSpec} (ht : f.top = .ieee) (he : 2 ≤ f.eb) {n : Nat} (hn : n < 2 ^ (1 + f.eb + f.mb))
    (hv : isNaN (fdecode f n) = false) : fsignV (fdecode f n) = patSign f n := by
  rcases fdecode_cases ht he hn with ⟨q, h⟩ | ⟨h, -⟩ | ⟨L, m, h, -⟩ <;> rw [h] at hv ⊢
  · cases hv
  · rfl
  · rfl

theorem fMinMax_of_not_nan (mx : Bool) {a b : FVal} (ha : isNaN a = false) (hb : isNaN b = false) :
    fMinMax mx a b = if minTakesFirst a b != mx then a else b := by
  match a, b, ha, hb with
  | .inf _, .inf _, _, _ | .inf _, .fin _ _ _, _, _ | .fin _ _ _, .inf _, _, _ | .fin _ _ _, .fin _ _ _, _, _ => rfl

theorem fMinMax_of_nan (mx : Bool) {a b : FVal} (ha : isNaN a = true) (hb : isNaN b = true) : fMinMax mx a b = .nan false := by
  match a, b, ha, hb with
  | .nan _, .nan _, _, _ => rfl

theorem fMinMax_of_left_nan (mx : Bool) {a b : FVal} (ha : isNaN a = true) (hb : isNaN b = false) : fMinMax mx a b = b := by
  match a, b, ha, hb with
  | .nan _, .inf _, _, _ | .nan _, .fin _ _ _, _, _ => rfl

theorem fMinMax_of_right_nan (mx : Bool) {a b : FVal} (ha : isNaN a = false) (hb : isNaN b = true) : fMinMax mx a b = a := by
  match a, b, ha, hb with
  | .inf _, .nan _, _, _ | .fin _ _ _, .nan _, _, _ => rfl

/-- The operand that the model takes, and the one that the order of the values with −0 before +0 picks, have the same pattern. -/
theorem minMax_choice {f : FSpec} (ht : f.top = .ieee) (he : 2 ≤ f.eb) {a b : Nat} (ha : a < 2 ^ (1 + f.eb + f.mb))
    (hb : b < 2 ^ (1 + f.eb + f.mb)) (hna : isNaN (fdecode f a) = false) (hnb : isNaN (fdecode f b) = false) (mx : Bool) :
    (if minTakesFirst (fdecode f a) (fdecode f b) != mx then a else b) =
      Claim.minMaxF mx (canonNaN f) (fdecode f a) (fdecode f b) a b (a / 2 ^ (f.mb + f.eb)) := by
  have hu := pattern_unique ht he ha hb hna hnb
  have has := lessF_asymm (fdecode f a) (fdecode f b)
  simp only [minTakesFirst, Claim.minMaxF, hna, hnb, lessF_of_not_nan, fsignV_fdecode ht he ha hna, fsignV_fdecode ht he hb hnb,
    patSign_eq_one ha, patSign_eq_zero ha, Bool.false_eq_true, if_false]
  cases h1 : Claim.lessF (fdecode f a) (fdecode f b)
  · cases h2 : Claim.lessF (fdecode f b) (fdecode f a)
    · by_cases hs : patSign f a = patSign f b
      · rw [hu hs h1 h2]; simp only [ite_self]
      · rw [Bool.eq_not_of_ne hs]
        cases patSign f b <;> cases mx <;> rfl
    · cases mx <;> rfl
  · rw [has h1]
    cases mx <;> rfl

/-- FMIN and FMAX on patterns: rounding the chosen value gives its operand back. -/
theorem narrow_fMinMax {f : FSpec} (ht : f.top = .ieee) (he : 2 ≤ f.eb) {a b : Nat} (ha : a < 2 ^ (1 + f.eb + f.mb))
    (hb : b < 2 ^ (1 + f.eb + f.mb)) (mx : Bool) :
    (narrow f .rne 0 (foutOf (fMinMax mx (fdecode f a) (fdecode f b)))).1 =
      Claim.minMaxF mx (canonNaN f) (fdecode f a) (fdecode f b) a b (a / 2 ^ (f.mb + f.eb)) := by
  cases hna : isNaN (fdecode f a) <;> cases hnb : isNaN (fdecode f b)
  · rw [← minMax_choice ht he ha hb hna hnb, fMinMax_of_not_nan mx hna hnb]
    split
    · exact narrow_fdecode ht he ha hna
    · exact narrow_fdecode ht he hb hnb
  · rw [fMinMax_of_right_nan mx hna hnb, narrow_fdecode ht he ha hna]; simp [Claim.minMaxF, hna, hnb]
  · rw [fMinMax_of_left_nan mx hna hnb, narrow_fdecode ht he hb hnb]; simp [Claim.minMaxF, hna, hnb]
  · rw [fMinMax_of_nan mx hna hnb]; simp [Claim.minMaxF, hna, hnb, foutOf, narrow]

/-! ### Classification -/

theorem fClass_eq {f : FSpec} (ht : f.top = .ieee) (he : 2 ≤ f.eb) (n : Nat) : fClass f n = 2 ^ Claim.classF f.eb f.mb n := by
  have h4 : 2 ^ 2 ≤ 2 ^ f.eb := Nat.pow_le_pow_right (by decide) he
  simp only [fClass, Claim.classF, fdecode, ht, and_true, reduceCtorEq, false_and, and_false, if_false]
  by_cases htop : n / 2 ^ f.mb % 2 ^ f.eb = 2 ^ f.eb - 1
  · by_cases h0 : n % 2 ^ f.mb = 0
    · by_cases hs : n / 2 ^ (f.mb + f.eb) % 2 = 1 <;> simp [htop, h0, hs]
    · by_cases hq : n % 2 ^ f.mb / 2 ^ (f.mb - 1) = 0 <;> simp [htop, h0, hq]
  · by_cases hz : n / 2 ^ f.mb % 2 ^ f.eb = 0
    · have h1 : (0 : Nat) ≠ 2 ^ f.eb - 1 := by omega
      by_cases h0 : n % 2 ^ f.mb = 0 <;> by_cases hs : n / 2 ^ (f.mb + f.eb) % 2 = 1 <;> simp [hz, h0, hs, h1]
    · by_cases hs : n / 2 ^ (f.mb + f.eb) % 2 = 1 <;> simp [htop, hz, hs]

end Sys2Proof.Machine
end

section
/-!
SUPPORT. The F and D instructions (spec/00 R3, spec/05 R77): their gates, their operands, how their results are written, and the integers
that conversions give.
-/
namespace Sys2Proof.Machine

/-! ### The gates: FS and the rounding mode -/

theorem fsOff_iff (s : State) : fsOff s = true ↔ (me s).pr.mstatus.toNat / 8192 % 4 = 0 := by
  have hf : fieldOf (me s).pr.mstatus.toNat 14 13 = (me s).pr.mstatus.toNat / 8192 % 4 := fieldOf_two _ 13
  rw [fsOff, hf, beq_iff_eq]

/-- A floating-point instruction asks for FS before its body. -/
theorem exec_fp {b : BaseInstr} (s : State) (hb : baseIsFp b = true) : exec (.baseIsaInstruction b) s = finish (.baseIsaInstruction b)
    (orIllegal (!fsOff s) s (.baseIsaInstruction b) >>= fun _ => baseFp (.baseIsaInstruction b) b s) := by
  match b, hb with
  | .fma .., _ | .farith .., _ | .fsqrt .., _ | .fmisc .., _ | .fcmp .., _ | .fclass .., _ | .fcvtToInt .., _ | .fcvtFromInt .., _
  | .fcvtFF .., _ | .fmvToX .., _ | .fmvFromX .., _ => rfl

theorem exec_fp_off {b : BaseInstr} {s : State} (hb : baseIsFp b = true) (hs : fsOff s = true) :
    exec (.baseIsaInstruction b) s = .next (Claim.raised s 2 (wordOf (.baseIsaInstruction b))) := by
  rw [exec_fp s hb, hs]; rfl

theorem exec_fp_on {b : BaseInstr} {s : State} (hb : baseIsFp b = true) (hs : fsOff s = false) :
    exec (.baseIsaInstruction b) s = finish (.baseIsaInstruction b) (baseFp (.baseIsaInstruction b) b s) := by
  rw [exec_fp s hb, hs]; rfl

theorem fRound_eq (s : State) (i : Instr) (rm : FRm) :
    fRound s i rm = match Claim.frmMode s rm with | some r => .ok r | none => illegal s i := by
  have hf : fieldOf (me s).fcsr.toNat 7 5 = (me s).fcsr.toNat / 32 := by
    have := (me s).fcsr.isLt
    simp only [fieldOf, Nat.shiftRight_eq_div_pow]; omega
  have h7 : rm.toNat = 7 ↔ rm = 7 := ⟨fun h => BitVec.eq_of_toNat_eq h, fun h => h ▸ rfl⟩
  simp only [fRound, Claim.frmMode, hf, h7]
  generalize (if rm = 7 then (me s).fcsr.toNat / 32 else rm.toNat) = n
  match n with
  | 0 | 1 | 2 | 3 | 4 | _ + 5 => rfl

/-! ### How a result is written -/

theorem or_fsDirty (m : Word) : fsDirty (fsDirty m) = fsDirty m := by
  simp only [fsDirty, BitVec.or_assoc, BitVec.or_self]

theorem finish_fDone (i : Instr) (s : State) (p : FPrec) (rd : RegIx) (n fl : Nat) :
    finish i (fDone s p rd n fl) = .next (Claim.wroteF s p rd n fl) := by
  by_cases h : fl % 32 = 0
  · simp [finish, fDone, wrF, nextPc, orFFlags, ieeeFlags, Claim.wroteF, h, fsDirty]
  · simp [finish, fDone, wrF, nextPc, orFFlags, ieeeFlags, Claim.wroteF, h, fsDirty, BitVec.or_assoc]

theorem finish_fDoneX (i : Instr) (s : State) (rd : RegIx) (v : Word) (fl : Nat) :
    finish i (fDoneX s rd v fl) = .next (Claim.wroteXF s rd v fl) := by
  by_cases h : fl % 32 = 0
  · simp [finish, fDoneX, wrX, nextPc, orFFlags, ieeeFlags, Claim.wroteXF, h]
  · simp [finish, fDoneX, wrX, nextPc, orFFlags, ieeeFlags, Claim.wroteXF, h, fsDirty]

/-! ### Operands and results -/

theorem fBits_lt (s : State) (p : FPrec) (r : RegIx) :
    fBits s p r < 2 ^ (1 + (specOf (precFmt p)).eb + (specOf (precFmt p)).mb) := by
  cases p
  · have h : unboxS (rdF s r) < 2 ^ 32 := by
      unfold unboxS; split
      · exact Nat.mod_lt _ (by decide)
      · decide
    exact h
  · exact (rdF s r).isLt

theorem fVal_eq_fdecode (s : State) (p : FPrec) (r : RegIx) : fVal s p r = fdecode (specOf (precFmt p)) (fBits s p r) := by
  have h := Nat.mod_eq_of_lt (fBits_lt s p r)
  cases p
  · exact congrArg (fdecode _) h
  · exact congrArg (fdecode _) h

theorem fVal_eq_operandF (s : State) (p : FPrec) (r : RegIx) : fVal s p r = Claim.operandF s p r := by
  rw [fVal_eq_fdecode]; cases p <;> rfl

theorem roundedF_eq (p : FPrec) (r : Rnd) (x : FOut × Nat) :
    Claim.roundedF p r x = ((fNarrow p r x.1).1, x.2 ||| (fNarrow p r x.1).2) := by
  cases p <;> rfl

/-! ### Conversion to an integer -/

/-- The pattern of a number that is not positive. -/
theorem toNat_neg_emod {q P : Nat} (h : q ≤ P) : ((-(q : ℤ)) % (P : ℤ)).toNat = (P - q) % P := by
  have hs : (-(q : ℤ)) % (P : ℤ) = ((P - q : Nat) : ℤ) % (P : ℤ) := by
    rw [Nat.cast_sub h, ← Int.add_emod_right (-(q : ℤ))]
    congr 1; ring
  rw [hs, ← Int.natCast_mod, Int.toNat_natCast]

/-- The bounds of a signed or unsigned type of w bits, as magnitudes. -/
def intHi (w : Nat) (sg : Bool) : Nat := if sg then 2 ^ (w - 1) - 1 else 2 ^ w - 1
def intLo (w : Nat) (sg : Bool) : Nat := if sg then 2 ^ (w - 1) else 0

theorem intHi_cast (w : Nat) (sg : Bool) : (if sg then 2 ^ (w - 1) - 1 else 2 ^ w - 1 : ℤ) = intHi w sg := by
  have h1 : 1 ≤ 2 ^ w := Nat.one_le_two_pow
  have h2 : 1 ≤ 2 ^ (w - 1) := Nat.one_le_two_pow
  cases sg <;> simp [intHi, Nat.cast_sub h1, Nat.cast_sub h2]

theorem intLo_cast (w : Nat) (sg : Bool) : (if sg then -2 ^ (w - 1) else 0 : ℤ) = -(intLo w sg : ℤ) := by
  cases sg <;> simp [intLo]

theorem two_pow_of_pos {w : Nat} (hw : 0 < w) : 2 ^ w = 2 * 2 ^ (w - 1) := by
  rw [← Nat.pow_succ', Nat.succ_eq_add_one, Nat.sub_add_cancel hw]

theorem intHi_lt (w : Nat) (sg : Bool) : intHi w sg < 2 ^ w := by
  have h1 : 2 ^ (w - 1) ≤ 2 ^ w := Nat.pow_le_pow_right (by decide) (Nat.sub_le ..)
  have h2 : 0 < 2 ^ w := by positivity
  unfold intHi; split <;> omega

theorem intLo_le (w : Nat) (sg : Bool) : intLo w sg ≤ 2 ^ w := by
  have h1 : 2 ^ (w - 1) ≤ 2 ^ w := Nat.pow_le_pow_right (by decide) (Nat.sub_le ..)
  unfold intLo
  split
  · exact h1
  · exact Nat.zero_le _

/-- The lower bound is its own pattern. -/
theorem intLo_pattern {w : Nat} (hw : 0 < w) (sg : Bool) : (2 ^ w - intLo w sg) % 2 ^ w = intLo w sg := by
  have h0 : 0 < 2 ^ (w - 1) := by positivity
  cases sg
  · simp [intLo]
  · rw [two_pow_of_pos hw]
    simp only [intLo, if_true]
    rw [Nat.mod_eq_of_lt (by omega)]; omega

/-- The integer of a rounded magnitude, clamped: the model's answer with its flags. -/
def clampF (w : Nat) (sg neg : Bool) (q fl : Nat) : Nat × Nat :=
  if neg then if intLo w sg < q then (intLo w sg, flNV) else ((2 ^ w - q) % 2 ^ w, fl)
  else if intHi w sg < q then (intHi w sg, flNV) else (q, fl)

theorem clampF_eq {w : Nat} (hw : 0 < w) (sg neg : Bool) (q fl : Nat) :
    (let z : ℤ := if neg then -q else q
     if z < -(intLo w sg : ℤ) then ((-(intLo w sg : ℤ) % 2 ^ w).toNat, flNV) else if (intHi w sg : ℤ) < z then ((intHi w sg : ℤ).toNat, flNV)
     else ((z % 2 ^ w).toNat, fl)) = clampF w sg neg q fl := by
  have hP : (2 : ℤ) ^ w = ((2 ^ w : Nat) : ℤ) := by push_cast; rfl
  have hlo := intLo_le w sg
  have hhi := intHi_lt w sg
  simp only [clampF, hP]
  cases neg
  · simp only [Bool.false_eq_true, if_false]
    rw [if_neg (by omega)]
    by_cases h : intHi w sg < q
    · rw [if_pos (by omega), if_pos h, Int.toNat_natCast]
    · rw [if_neg (by omega), if_neg h, ← Int.natCast_mod, Int.toNat_natCast, Nat.mod_eq_of_lt (by omega)]
  · simp only [if_true]
    by_cases h : intLo w sg < q
    · rw [if_pos (by omega), if_pos h, toNat_neg_emod hlo, intLo_pattern hw]
    · rw [if_neg (by omega), if_neg (by omega), if_neg h, toNat_neg_emod (by omega)]

theorem narrowInt_rat (w : Nat) (sg : Bool) (rm : Rnd) (draw : Nat) (neg : Bool) (n d : Nat) :
    narrowInt w sg rm draw (.rat neg n d) =
      let q := if roundsUp rm neg draw (n / d) (n % d) d then n / d + 1 else n / d
      let fl := if n % d != 0 then flNX else 0
      if neg then if intLo w sg < q then (intLo w sg, flNV + flSAT) else ((2 ^ w - q) % 2 ^ w, fl)
      else if intHi w sg < q then (intHi w sg, flNV + flSAT) else (q, fl) := rfl

/-- Rounding a ratio to an integer, with the flags that F and D raise. -/
theorem narrowInt_rat_eq_clampF (w : Nat) (sg : Bool) (rm : Rnd) (neg : Bool) (n d : Nat) :
    (let x := narrowInt w sg rm 0 (.rat neg n d)
     (x.1, if x.2 &&& flNV = 0 then x.2 else flNV)) =
      clampF w sg neg (n / d + if roundsUp rm neg 0 (n / d) (n % d) d then 1 else 0) (if n % d = 0 then 0 else flNX) := by
  have hq : (if roundsUp rm neg 0 (n / d) (n % d) d then n / d + 1 else n / d) =
      n / d + if roundsUp rm neg 0 (n / d) (n % d) d then 1 else 0 := by split <;> rfl
  have hx : (if (n % d != 0) = true then flNX else 0) = if n % d = 0 then 0 else flNX := by simp
  have hfl : (if n % d = 0 then 0 else flNX) &&& flNV = 0 := by split <;> rfl
  have hsat : (flNV + flSAT) &&& flNV ≠ 0 := by decide
  simp only [narrowInt_rat, hq, hx, clampF]
  generalize (n / d + if roundsUp rm neg 0 (n / d) (n % d) d then 1 else 0) = q
  cases neg
  · by_cases h : intHi w sg < q <;> simp [h, hfl, hsat]
  · by_cases h : intLo w sg < q <;> simp [h, hfl, hsat]

/-- A conversion to an integer gives the integer of the definition. -/
theorem fToInt_eq {w : Nat} (hw : 0 < w) (sg : Bool) (rm : Rnd) (v : FVal) : fToInt w sg rm v = Claim.intOfF w sg rm v := by
  cases v with
  | nan s => simp only [fToInt, Claim.intOfF, intHi_cast, Int.toNat_natCast]; rfl
  | inf s =>
    simp only [Claim.intOfF, intHi_cast, intLo_cast]
    cases s
    · simp only [Bool.false_eq_true, if_false, Int.toNat_natCast]; rfl
    · have hP : (2 : ℤ) ^ w = ((2 ^ w : Nat) : ℤ) := by push_cast; rfl
      rw [hP]
      simp only [if_true, toNat_neg_emod (intLo_le w sg), intLo_pattern hw]; rfl
  | fin s m e =>
    have hN : (if e < 0 then m else m * 2 ^ e.toNat) = m * 2 ^ e.toNat := by
      split
      · next h => simp [show e.toNat = 0 by omega]
      · rfl
    have hD : (if e < 0 then 2 ^ (-e).toNat else 1) = 2 ^ (-e).toNat := by
      split
      · rfl
      · next h => simp [show (-e).toNat = 0 by omega]
    simp only [Claim.intOfF, intHi_cast, intLo_cast, hN, hD, clampF_eq hw]
    by_cases h0 : m = 0
    · have hr : roundsUp rm s 0 0 0 (2 ^ (-e).toNat) = false := by
        cases rm <;> simp [roundsUp]
      subst h0
      simp [fToInt, foutOf, dyad, narrowInt, hr, clampF]
    · rw [← narrowInt_rat_eq_clampF, fToInt, foutOf, dyad_of_ne s e h0]
      simp

/-! ### Conversion from an integer -/

theorem outQ_dyad_int (z : ℤ) : Claim.outQ (dyad (decide (z < 0)) z.natAbs 0) = some (z : ℚ) := by
  by_cases h0 : z = 0
  · simp [h0, dyad, Claim.outQ]
  · have hn : z.natAbs ≠ 0 := Int.natAbs_ne_zero.2 h0
    rw [dyad_of_ne _ _ hn]
    simp only [Claim.outQ, Int.toNat_zero, Nat.pow_zero, Nat.mul_one, neg_zero, Nat.cast_one, div_one, Option.some.injEq, decide_eq_true_eq,
      Nat.cast_natAbs, Int.cast_abs]
    rcases lt_or_ge z 0 with hz | hz
    · rw [if_pos hz, abs_of_neg (Int.cast_lt_zero.2 hz)]; ring
    · rw [if_neg (not_lt.2 hz), abs_of_nonneg (Int.cast_nonneg hz), one_mul]

theorem sourceInt_eq (w n : Nat) (sg : Bool) : (if sg then sInt w (n % 2 ^ w) else ((n % 2 ^ w : Nat) : ℤ)) =
    if sg then (BitVec.ofNat w n).toInt else ((BitVec.ofNat w n).toNat : ℤ) := by
  have hm : BitVec.ofNat w (n % 2 ^ w) = BitVec.ofNat w n := BitVec.eq_of_toNat_eq (by simp)
  rw [sInt_eq_toInt, hm, BitVec.toNat_ofNat]

/-! ### Flags of signalling operands -/

theorem isSig_iff (v : FVal) : isSig v = true ↔ v = .nan true := by
  match v with
  | .nan true | .nan false | .inf _ | .fin _ _ _ => simp [isSig]

theorem sigFlags_pair (x y : FVal) : sigFlags [x, y] = if x = .nan true ∨ y = .nan true then flNV else 0 := by
  simp [sigFlags, isSig_iff]

theorem sigFlags_one (v : FVal) : sigFlags [v] = if v = .nan true then flNV else 0 := by
  simp [sigFlags, isSig_iff]

/-! ### The instructions -/

section
variable {s : State} {p : FPrec} {rd a b c : RegIx} {rm : FRm} {r : Rnd}

/-- The outcome of an instruction that rounds an exact result once. -/
def putF (s : State) (p : FPrec) (rd : RegIx) (r : Rnd) (x : FOut × Nat) : Host.Outcome State Fault Refusal :=
  .next (Claim.wroteF s p rd (Claim.roundedF p r x).1 (Claim.roundedF p r x).2)

theorem finish_rounded (i : Instr) (x : FOut × Nat) :
    finish i (fDone s p rd (fNarrow p r x.1).1 (x.2 ||| (fNarrow p r x.1).2)) = putF s p rd r x := by
  rw [putF, roundedF_eq]; exact finish_fDone ..

theorem exec_bad_mode {b : BaseInstr} (hs : fsOff s = false) (hb : Claim.roundedBy b = some rm) (hr : Claim.frmMode s rm = none) :
    exec (.baseIsaInstruction b) s = .next (Claim.raised s 2 (wordOf (.baseIsaInstruction b))) := by
  match b, hb with
  | .fma .., rfl | .farith .., rfl | .fsqrt .., rfl | .fcvtToInt .., rfl | .fcvtFromInt .., rfl | .fcvtFF .., rfl =>
    rw [exec_fp_on rfl hs]
    simp only [baseFp, fRound_eq, hr]
    exact finish_trap ..

theorem exec_farith (hs : fsOff s = false) (hr : Claim.frmMode s rm = some r) (o : FArithOp) :
    exec (.baseIsaInstruction (.farith o p rd a b rm)) s =
      putF s p rd r (fArith o r (Claim.operandF s p a) (Claim.operandF s p b)) := by
  rw [exec_fp_on rfl hs]
  simp only [baseFp, fRound_eq, hr, fVal_eq_operandF]
  exact finish_rounded ..

theorem exec_fsqrt (hs : fsOff s = false) (hr : Claim.frmMode s rm = some r) :
    exec (.baseIsaInstruction (.fsqrt p rd a rm)) s = putF s p rd r (fsqrtV (Claim.operandF s p a)) := by
  rw [exec_fp_on rfl hs]
  simp only [baseFp, fRound_eq, hr, fVal_eq_operandF]
  exact finish_rounded ..

theorem exec_fma (hs : fsOff s = false) (hr : Claim.frmMode s rm = some r) (o : FmaOp) :
    exec (.baseIsaInstruction (.fma o p rd a b c rm)) s =
      putF s p rd r (fFma o r (Claim.operandF s p a) (Claim.operandF s p b) (Claim.operandF s p c)) := by
  rw [exec_fp_on rfl hs]
  simp only [baseFp, fRound_eq, hr, fVal_eq_operandF]
  exact finish_rounded ..

/-- The other precision: the source of FCVT.S.D and FCVT.D.S. -/
theorem exec_fcvtFF (hs : fsOff s = false) (hr : Claim.frmMode s rm = some r) {v : FVal}
    (hv : Claim.operandF s (match p with | .s => .d | .d => .s) a = v) :
    exec (.baseIsaInstruction (.fcvtFF p rd a rm)) s = putF s p rd r (foutOf v, if v = .nan true then flNV else 0) := by
  rw [exec_fp_on rfl hs, ← finish_rounded (.baseIsaInstruction (.fcvtFF p rd a rm)), Nat.or_comm, ← sigFlags_one, ← hv]
  simp only [baseFp, fRound_eq, hr, fVal_eq_operandF]
  rfl

theorem exec_fcvtToInt (hs : fsOff s = false) (hr : Claim.frmMode s rm = some r) {t : FIntTy} {w : Nat} {sg : Bool} (ht : fIntTy t = (w, sg))
    (hw : 0 < w) : exec (.baseIsaInstruction (.fcvtToInt t p rd a rm)) s = .next (Claim.wroteXF s rd
      ((BitVec.ofNat w (Claim.intOfF w sg r (Claim.operandF s p a)).1).signExtend 64) (Claim.intOfF w sg r (Claim.operandF s p a)).2) := by
  rw [exec_fp_on rfl hs, ← sext64_eq_signExtend, ← fToInt_eq hw]
  simp only [baseFp, fRound_eq, hr, fVal_eq_operandF, ht]
  exact finish_fDoneX ..

theorem exec_fcvtFromInt (hs : fsOff s = false) (hr : Claim.frmMode s rm = some r) {t : FIntTy} {w : Nat} {sg : Bool} (ht : fIntTy t = (w, sg)) :
    ∃ x : FOut, Claim.outQ x = some (((if sg then (BitVec.ofNat w (rdX s a).toNat).toInt
      else (BitVec.ofNat w (rdX s a).toNat).toNat : ℤ) : ℚ)) ∧
    exec (.baseIsaInstruction (.fcvtFromInt t p rd a rm)) s = putF s p rd r (x, 0) := by
  refine ⟨_, outQ_dyad_int _, ?_⟩
  rw [exec_fp_on rfl hs, ← finish_rounded (.baseIsaInstruction (.fcvtFromInt t p rd a rm)), Nat.zero_or]
  simp only [baseFp, fRound_eq, hr, ht, sourceInt_eq]
  rfl

theorem exec_fcmp (hs : fsOff s = false) (o : FCmpOp) : exec (.baseIsaInstruction (.fcmp o p rd a b)) s =
    .next (Claim.wroteXF s rd (if (fCmp o (Claim.operandF s p a) (Claim.operandF s p b)).1 then 1 else 0)
      (fCmp o (Claim.operandF s p a) (Claim.operandF s p b)).2) := by
  rw [exec_fp_on rfl hs]
  simp only [baseFp, fVal_eq_operandF]
  exact finish_fDoneX ..

theorem exec_fmisc (hs : fsOff s = false) (o : FMiscOp) : exec (.baseIsaInstruction (.fmisc o p rd a b)) s =
    .next (Claim.wroteF s p rd (fMisc o p (fBits s p a) (fBits s p b)).1 (fMisc o p (fBits s p a) (fBits s p b)).2) := by
  rw [exec_fp_on rfl hs]
  exact finish_fDone ..

theorem exec_fclass (hs : fsOff s = false) : exec (.baseIsaInstruction (.fclass p rd a)) s =
    .next (Claim.wroteXF s rd (w64 (fClass (specOf (precFmt p)) (fBits s p a))) 0) := by
  rw [exec_fp_on rfl hs]
  exact finish_fDoneX ..

theorem exec_fmvToX (hs : fsOff s = false) : exec (.baseIsaInstruction (.fmvToX p rd a)) s =
    .next (Claim.wroteXF s rd (match p with | .s => sext64 32 (rdF s a).toNat | .d => rdF s a) 0) := by
  rw [exec_fp_on rfl hs]
  exact finish_fDoneX ..

theorem exec_fmvFromX (hs : fsOff s = false) : exec (.baseIsaInstruction (.fmvFromX p rd a)) s =
    .next (Claim.wroteF s p rd (rdX s a).toNat 0) := by
  rw [exec_fp_on rfl hs]
  exact finish_fDone ..

end

/-! ### Comparison, minimum and maximum, sign injection -/

theorem fCmp_eq (x y : FVal) : fCmp .eq x y = (Claim.equalF x y, if x = .nan true ∨ y = .nan true then flNV else 0) := by
  simp only [fCmp, fcmpHolds, equalF_eq, sigFlags_pair]

theorem fCmp_lt (x y : FVal) : fCmp .lt x y = (Claim.lessF x y, if isNaN x || isNaN y then flNV else 0) := by
  simp only [fCmp, fcmpHolds, lessF_eq]

theorem fCmp_le (x y : FVal) : fCmp .le x y = (Claim.lessF x y || Claim.equalF x y, if isNaN x || isNaN y then flNV else 0) := by
  simp only [fCmp, fcmpHolds, Bool.and_or_distrib_left, lessF_eq, equalF_eq]

theorem specOf_precFmt (p : FPrec) : (specOf (precFmt p)).top = .ieee ∧ 2 ≤ (specOf (precFmt p)).eb := by
  cases p <;> exact ⟨rfl, by decide⟩

theorem elemVal_fBits (s : State) (p : FPrec) (r : RegIx) : elemVal (precFmt p) 0 (fBits s p r) 0 0 = Claim.operandF s p r :=
  fVal_eq_operandF s p r

/-- Where the sign bit of a precision stands. -/
def signAt : FPrec → Nat
  | .s => 31
  | .d => 63

theorem fBits_sign_lt (s : State) (p : FPrec) (r : RegIx) : fBits s p r / 2 ^ signAt p < 2 := by
  have := signField_lt (fBits_lt s p r)
  cases p <;> exact this

/-- The canonical NaN of a precision. -/
def canonAt : FPrec → Nat
  | .s => 0x7FC00000
  | .d => 0x7FF8000000000000

theorem fMinMax_bits (s : State) (p : FPrec) (a b : RegIx) (mx : Bool) :
    (fNarrow p .rne (foutOf (fMinMax mx (Claim.operandF s p a) (Claim.operandF s p b)))).1 =
      Claim.minMaxF mx (canonAt p) (Claim.operandF s p a) (Claim.operandF s p b) (fBits s p a) (fBits s p b)
        (fBits s p a / 2 ^ signAt p) := by
  obtain ⟨ht, he⟩ := specOf_precFmt p
  have h := narrow_fMinMax ht he (fBits_lt s p a) (fBits_lt s p b) mx
  rw [← fVal_eq_fdecode, ← fVal_eq_fdecode, fVal_eq_operandF, fVal_eq_operandF] at h
  cases p <;> exact h

theorem fMisc_min (s : State) (p : FPrec) (a b : RegIx) : fMisc .min p (fBits s p a) (fBits s p b) =
    (Claim.minMaxF false (canonAt p) (Claim.operandF s p a) (Claim.operandF s p b) (fBits s p a) (fBits s p b) (fBits s p a / 2 ^ signAt p),
      if Claim.operandF s p a = .nan true ∨ Claim.operandF s p b = .nan true then flNV else 0) := by
  simp only [fMisc, elemVal_fBits, fMinMax_bits, sigFlags_pair]

theorem fMisc_max (s : State) (p : FPrec) (a b : RegIx) : fMisc .max p (fBits s p a) (fBits s p b) =
    (Claim.minMaxF true (canonAt p) (Claim.operandF s p a) (Claim.operandF s p b) (fBits s p a) (fBits s p b) (fBits s p a / 2 ^ signAt p),
      if Claim.operandF s p a = .nan true ∨ Claim.operandF s p b = .nan true then flNV else 0) := by
  simp only [fMisc, elemVal_fBits, fMinMax_bits, sigFlags_pair]

theorem fMisc_sgnj (p : FPrec) (x y : Nat) :
    fMisc .sgnj p x y = (x % 2 ^ signAt p + y / 2 ^ signAt p % 2 * 2 ^ signAt p, 0) := by cases p <;> rfl

theorem fMisc_sgnjn (p : FPrec) (x y : Nat) :
    fMisc .sgnjn p x y = (x % 2 ^ signAt p + (1 - y / 2 ^ signAt p % 2) * 2 ^ signAt p, 0) := by cases p <;> rfl

theorem fMisc_sgnjx (p : FPrec) (x y : Nat) : fMisc .sgnjx p x y =
    (x % 2 ^ signAt p + (x / 2 ^ signAt p % 2 + y / 2 ^ signAt p % 2) % 2 * 2 ^ signAt p, 0) := by cases p <;> rfl

/-- Sign injection: the magnitude of the first operand under a sign made of the two. -/
theorem fMisc_sign (s : State) (p : FPrec) (a b : RegIx) (o : FMiscOp) (f : Nat → Nat → Nat)
    (h : (o, f) ∈ [(FMiscOp.sgnj, fun (_ y : Nat) => y), (.sgnjn, fun _ y => 1 - y), (.sgnjx, fun x y => (x + y) % 2)]) :
    fMisc o p (fBits s p a) (fBits s p b) = (fBits s p a % 2 ^ signAt p +
      f (fBits s p a / 2 ^ signAt p) (fBits s p b / 2 ^ signAt p) * 2 ^ signAt p, 0) := by
  have ha := Nat.mod_eq_of_lt (fBits_sign_lt s p a)
  have hb := Nat.mod_eq_of_lt (fBits_sign_lt s p b)
  simp only [List.mem_cons, Prod.mk.injEq, List.not_mem_nil, or_false] at h
  rcases h with ⟨rfl, rfl⟩ | ⟨rfl, rfl⟩ | ⟨rfl, rfl⟩
  · rw [fMisc_sgnj, hb]
  · rw [fMisc_sgnjn, hb]
  · rw [fMisc_sgnjx, ha, hb]

/-- The class of a pattern of a precision. -/
def classAt (p : FPrec) (n : Nat) : Nat :=
  match p with
  | .s => Claim.classF 8 23 n
  | .d => Claim.classF 11 52 n

theorem fClass_bits (s : State) (p : FPrec) (r : RegIx) :
    fClass (specOf (precFmt p)) (fBits s p r) = 2 ^ classAt p (fBits s p r) := by
  obtain ⟨ht, he⟩ := specOf_precFmt p
  rw [fClass_eq ht he]
  cases p <;> rfl

theorem fIntTy_of_mem {t : FIntTy} {w : Nat} {sg : Bool}
    (h : (t, w, sg) ∈ [(FIntTy.w, 32, true), (.wu, 32, false), (.l, 64, true), (.lu, 64, false)]) : fIntTy t = (w, sg) ∧ 0 < w := by
  simp only [List.mem_cons, Prod.mk.injEq, List.not_mem_nil, or_false] at h
  rcases h with ⟨rfl, rfl, rfl⟩ | ⟨rfl, rfl, rfl⟩ | ⟨rfl, rfl, rfl⟩ | ⟨rfl, rfl, rfl⟩ <;> exact ⟨rfl, by decide⟩

/-- Settles O15: the gates decide whether an instruction completes; its value is the model's exact one, whose comparisons and rounding to an
integer are those of the rational numbers, and narrowing the operand that FMIN or FMAX takes gives its pattern back. -/
theorem floatOperations : Obligations.FloatOperations := by
  intro s
  refine ⟨fun h b hb => exec_fp_off hb ((fsOff_iff s).2 h), fun h => ?_⟩
  have hs : fsOff s = false := Bool.eq_false_iff.2 fun ho => h ((fsOff_iff s).1 ho)
  refine ⟨fun b rm hb hr => exec_bad_mode hs hb hr, fun rm r hr p rd a b c => ?_, fun p rd a b => ?_⟩
  · refine ⟨exec_farith hs hr .add, exec_farith hs hr .sub, exec_farith hs hr .mul, exec_farith hs hr .div, exec_fsqrt hs hr,
      exec_fma hs hr .madd, exec_fma hs hr .msub, exec_fma hs hr .nmsub, exec_fma hs hr .nmadd, fun v hv => ?_, fun t w sg ht => ?_⟩
    · exact exec_fcvtFF hs hr (by cases p <;> exact hv)
    · obtain ⟨ht, hw⟩ := fIntTy_of_mem ht
      exact ⟨exec_fcvtToInt hs hr ht hw, exec_fcvtFromInt hs hr ht⟩
  · refine ⟨?_, ?_, ?_, ?_, ?_, fun o f hf => ?_, ?_, ?_, exec_fmvFromX hs⟩
    · rw [exec_fcmp hs, fCmp_eq]
    · rw [exec_fcmp hs, fCmp_lt]
    · rw [exec_fcmp hs, fCmp_le]
    · rw [exec_fmisc hs, fMisc_min]; cases p <;> rfl
    · rw [exec_fmisc hs, fMisc_max]; cases p <;> rfl
    · rw [exec_fmisc hs, fMisc_sign s p a b o f hf]; cases p <;> rfl
    · rw [exec_fclass hs, fClass_bits]; cases p <;> rfl
    · rw [exec_fmvToX hs]; cases p
      · rw [show sext64 32 = sext32 from rfl, sext32_truncate]
      · rfl

end Sys2Proof.Machine
end

section
/-!
SUPPORT. Turns (spec/02 R18, R34; spec/06 R102; spec/07 R136): what a step does with the turn at the head of the agenda, and what the
passing of time leaves alone.
-/
namespace Sys2Proof.Machine

/-! ### A hart's turn -/

/-- A turn that executes an instruction: none of the turn's other branches is taken. -/
theorem hartTurn_of_ready {s : State} {h : Nat} (hr : Claim.ready { s with cur := h, rr := h } h) :
    hartTurn s h = mapNext (stepOver h) (runHart { s with cur := h, rr := h }) := by
  obtain ⟨hm, hd, hp, hi⟩ := hr
  simp [hartTurn, hm, hd, hp, hi]

theorem runHart_of_fetch {s s1 : State} {w : IWord} (hf : fetch s = .ok (s1, w)) : runHart s = runWord w s1 := by
  simp [runHart, hf]

theorem runWord_of_decode {w : IWord} {i : Instr} (hd : decode w = .ok i) (s : State) : runWord w s = exec i s := by
  simp [runWord, hd]

theorem runWord_of_undecoded {w : IWord} {e : DecodeErr} (hd : decode w = .error e) (s : State) :
    runWord w s = exec (.illegalInstruction w) s := by
  simp [runWord, hd]

theorem stepOver_of_not_stepping {s : State} {h : Nat} (hs : (hartOf s h).stepping = false) : stepOver h s = s := by
  simp [stepOver, hs]

/-! ### Any turn -/

theorem step_of_agenda {s : State} {t : Turn} {rest : List Turn} (ha : s.agenda = t :: rest) :
    step s = turn { s with agenda := rest } t := by
  simp [step, ha]

/-- A hart's turn at the head of the agenda runs the word that the hart fetches. -/
theorem step_of_ready {s s1 : State} {h : Nat} {rest : List Turn} {w : IWord} (ha : s.agenda = .hart h :: rest)
    (hr : Claim.ready (Claim.turnOf s h rest) h) (hf : fetch (Claim.turnOf s h rest) = .ok (s1, w)) :
    step s = mapNext (stepOver h) (runWord w s1) := by
  rw [step_of_agenda ha, ← runHart_of_fetch hf]
  exact hartTurn_of_ready hr

/-- A row that no word encodes is an event, unless it stands for the words that do not decode. -/
theorem isEvent_of_not_encoded {i : Instr} (he : encode i = none) (hi : ∀ w, i ≠ .illegalInstruction w) : isEvent i = true := by
  unfold isEvent
  split
  · exact absurd rfl (hi _)
  · simp [he]

/-! ### What the passing of time leaves alone -/

/-- The clock, the agenda and the bytes are the same: a change of timers alone. -/
def timersOnly (s t : State) : Prop := t.us = s.us ∧ t.agenda = s.agenda ∧ Claim.sameBytes s t

theorem timersOnly_refl (s : State) : timersOnly s s := ⟨rfl, rfl, by simp [Claim.sameBytes]⟩

theorem timersOnly_trans {s t u : State} (h : timersOnly s t) (k : timersOnly t u) : timersOnly s u := by
  obtain ⟨hus, hag, hby⟩ := h
  obtain ⟨kus, kag, kby⟩ := k
  exact ⟨kus.trans hus, kag.trans hag, sameBytes_trans hby kby⟩

/-- A fold of changes of timers is one. -/
theorem timersOnly_foldl {β : Type} {f : State → β → State} (l : List β) (s : State) (hf : ∀ t b, timersOnly t (f t b)) :
    timersOnly s (l.foldl f s) :=
  foldl_keeps l (timersOnly_refl s) fun t b h => timersOnly_trans h (hf t b)

theorem timersOnly_updHart (s : State) (h : Nat) (f : Hart → Hart) : timersOnly s (updHart s h f) := ⟨rfl, rfl, sameBytes_updHart s h f⟩

/-- A chain slot holds no byte of tile memory or of an SDM. -/
theorem timersOnly_updSlot (s : State) (core k : Nat) (f : ChSlot → ChSlot) : timersOnly s (updSlot s core k f) := by
  refine ⟨rfl, rfl, rfl, rfl, rfl, rfl, fun c => ?_⟩
  by_cases hc : c = core
  · subst hc; simp [updSlot, setSlot]
  · simp [updSlot, setSlot, coreOf_updCore_other _ _ hc]

theorem timersOnly_tickHart (s : State) (us h : Nat) : timersOnly s (tickHart s us h) := by
  simp only [tickHart]
  split
  · exact timersOnly_refl s
  · exact timersOnly_updHart s h fun _ => _

theorem timersOnly_chTickSlot (s : State) (core k us : Nat) : timersOnly s (chTickSlot s core k us) := by
  unfold chTickSlot
  extract_lets sl ps s1 on
  have h1 : timersOnly s s1 := by
    simp only [s1]
    split
    · exact timersOnly_refl s
    · exact timersOnly_updSlot ..
  split
  · exact timersOnly_refl s
  · split
    · exact h1
    · refine timersOnly_trans h1 (timersOnly_foldl _ _ fun t q => timersOnly_foldl _ _ fun u j => ?_)
      split
      · exact timersOnly_updSlot ..
      · exact timersOnly_refl u

theorem timersOnly_chTick (s : State) (core us : Nat) : timersOnly s (chTick s core us) := by
  refine timersOnly_foldl _ _ fun t kv => ?_
  split
  · exact timersOnly_refl t
  · exact timersOnly_chTickSlot ..

/-- Time passes: the clock goes on by as much, and the rest are timers. -/
theorem tick_keeps (s : State) (us : Nat) :
    (tick s us).us = s.us + us ∧ (tick s us).agenda = s.agenda ∧ Claim.sameBytes s (tick s us) := by
  unfold tick
  extract_lets s1 s2 s3
  exact timersOnly_trans (timersOnly_foldl _ s1 fun t h => timersOnly_tickHart t us h)
    (timersOnly_foldl _ s2 fun t c => timersOnly_chTick t c us)

/-- Settles O4: a hart's turn takes the branch that fetches, decodes and executes; any other turn is performed as it stands. -/
theorem stepRunsTheDecodedInstruction : Obligations.StepRunsTheDecodedInstruction := by
  refine ⟨fun s s1 h rest w ha hr hf => ⟨fun i hd => ?_, fun e hd => ?_, fun t => stepOver_of_not_stepping⟩,
    fun s rest => ⟨fun i ha he hi => ?_, fun r ha => step_of_agenda ha, fun core line ha => step_of_agenda ha,
      fun h ha => step_of_agenda ha, fun us ha => ⟨_, step_of_agenda ha, tick_keeps ..⟩⟩⟩
  · rw [step_of_ready ha hr hf, runWord_of_decode hd]
  · rw [step_of_ready ha hr hf, runWord_of_undecoded hd]
  · rw [step_of_agenda ha]
    simp [turn, isEvent_of_not_encoded he hi]

end Sys2Proof.Machine
end

section
/-!
SUPPORT. The set-length instructions (spec/02 R24 to R26; spec/17 R370): vtype and the vector length in the model are those of the
statement.
-/
namespace Sys2Proof.Machine

/-! ### The register interlock, and the end of an instruction -/

theorem vecReady_of_free {s : State} (hl : lentTo s s.cur = false) (hb : regsBusy s s.cur = false) : vecReady s = .ok () := by
  simp [vecReady, hl, hb]

/-- A vector instruction of a hart whose registers are free is its body and its end. -/
theorem vexec_of_free {s : State} (hl : lentTo s s.cur = false) (hb : regsBusy s s.cur = false) (i : Instr) (body : State → Res) :
    vexec i body s = finish i (body s) := by
  rw [vexec, vecReady_of_free hl hb]; rfl

/-- The end of a vector instruction that has changed its hart's record. -/
theorem finish_vecDone (i : Instr) (s : State) (h : Hart) :
    finish i (vecDone s h) = .next (updMe s fun _ => retire { h with xc := { h.xc with vstart := 0 }, pc := h.pc + 4 }) := by
  simp [finish, vecDone, updMe_eq_setMe]

theorem hartSetX_withXc (h : Hart) (rd : RegIx) (v : Word) (x : XCsr) : hartSetX { h with xc := x } rd v = { hartSetX h rd v with xc := x } := by
  unfold hartSetX; split <;> rfl

/-! ### vtype -/

theorem fmtBlkOk_iff (f : Fmt) (blk : Nat) : fmtBlkOk f blk = true ↔ Claim.blockFits f blk := by
  cases f <;> simp [fmtBlkOk, Claim.blockFits, Claim.blockFormats, Claim.pairFormats, fmtIsPe, peBits, fmtBlockable]

/-- A vtype taken apart is a legal one, field by field. -/
theorem vtypeOf_eq_some_iff (n lg : Nat) (f : Fmt) (blk : Nat) : vtypeOf n = some (lg, f, blk) ↔ Claim.vtypeLegal n lg f blk := by
  have hlg : fieldOf n 2 0 = n % 8 := rfl
  have hf : fieldOf n 7 3 = n / 8 % 32 := congrArg (· % 32) (Nat.shiftRight_eq_div_pow n 3)
  have hb : fieldOf n 9 8 = n / 256 % 4 := congrArg (· % 4) (Nat.shiftRight_eq_div_pow n 8)
  simp only [vtypeOf, Claim.vtypeLegal, hlg, hf, hb]
  cases Fmt.ofCode (n / 8 % 32) with
  | none => simp
  | some g =>
    simp only [Option.ite_none_right_eq_some, Option.some.injEq, Prod.mk.injEq]
    constructor
    · rintro ⟨⟨hn, hl, hk⟩, rfl, rfl, rfl⟩
      exact ⟨by omega, rfl, hl, rfl, by omega, (fmtBlkOk_iff ..).1 hk⟩
    · rintro ⟨hn, rfl, hl, rfl, rfl, hk⟩
      have h4 : n / 256 % 4 = n / 256 := by omega
      exact ⟨⟨by omega, hl, h4.symm ▸ (fmtBlkOk_iff ..).2 hk⟩, rfl, rfl, h4⟩

theorem vtypeOf_eq_none {n : Nat} (h : ¬ ∃ lg f blk, Claim.vtypeLegal n lg f blk) : vtypeOf n = none :=
  Option.eq_none_iff_forall_ne_some.2 fun ⟨lg, f, blk⟩ hv => h ⟨lg, f, blk, (vtypeOf_eq_some_iff ..).1 hv⟩

/-! ### The vector length -/

theorem mem_pairFormats {f : Fmt} (h : fmtIsPe f = true) : f ∈ Claim.pairFormats := by
  revert h; cases f <;> decide

/-- Blocks are those of the BLK code, which a paired-exponent format fixes. -/
theorem vlFor_eq_lengthFor {f : Fmt} {blk : Nat} (hf : Claim.blockFits f blk) (hb : blk < 4) (avl grant sew lg : Nat) :
    vlFor avl (1024 * grant / sew * 2 ^ lg) (if fmtIsPe f then 1 else blk) = Claim.lengthFor avl grant sew lg blk := by
  have hp : (if fmtIsPe f then 1 else blk) = blk := by
    split
    · next h => exact (hf.2 (mem_pairFormats h)).symm
    · rfl
  rw [hp, vlFor, Claim.lengthFor]
  interval_cases blk <;> simp [blockLen, Claim.blockOf, Nat.mod_one]

theorem avlOf_eq (h : Hart) (a d : RegIx) (vlmax : Nat) :
    avlOf h a d vlmax = if a.val ≠ 0 then (hartX h a).toNat else if d.val ≠ 0 then vlmax else h.xc.vl.toNat := by
  simp only [avlOf, ite_not]

/-! ### The instructions -/

/-- The hart after a set-length instruction that sets `vl` and `xvtype`. -/
def lengthSet (s : State) (d : RegIx) (vl : Nat) (vtype : Word) : State := updMe s fun h => retire { hartSetX h d (BitVec.ofNat 64 vl) with
  xc := { h.xc with grant := gangGrant s, vl := BitVec.ofNat 64 vl, vtype := vtype, vstart := 0 }, pc := h.pc + 4 }

theorem finish_lengthSet (i : Instr) (s : State) (d : RegIx) (vl : Nat) (vtype : Word) :
    finish i (vecDone s (hartSetX { me s with xc := { (me s).xc with grant := gangGrant s, vl := w64 vl, vtype := vtype } } d (w64 vl))) =
      .next (lengthSet s d vl vtype) := by
  rw [finish_vecDone, hartSetX_withXc]
  simp [lengthSet, updMe_eq_setMe, w64]

theorem finish_setLength_illegal (i : Instr) (s : State) {vt : Nat} (a d : RegIx) (hv : ¬ ∃ lg f blk, Claim.vtypeLegal vt lg f blk) :
    finish i (setLength s vt a d) = .next (lengthSet s d 0 0x8000000000000000) := by
  simp only [setLength, vtypeOf_eq_none hv]
  exact finish_lengthSet i s d 0 _

theorem finish_setLength_legal (i : Instr) (s : State) {vt lg blk : Nat} {f : Fmt} (a d : RegIx) (hv : Claim.vtypeLegal vt lg f blk) :
    finish i (setLength s vt a d) = .next (lengthSet s d
      (Claim.lengthFor (avlOf (me s) a d (1024 * gangGrant s / fmtSew f * 2 ^ lg)) (gangGrant s) (fmtSew f) lg blk) (BitVec.ofNat 64 vt)) := by
  have hs := (vtypeOf_eq_some_iff ..).2 hv
  obtain ⟨hn, -, -, -, hb, hf⟩ := hv
  simp only [setLength, hs, vlFor_eq_lengthFor hf (show blk < 4 by omega)]
  exact finish_lengthSet ..

/-- Both forms set the length by their vtype operand. -/
theorem exec_setLength {s : State} {i : Instr} {vt : Nat} {a d : RegIx}
    (hi : (∃ b, i = .vsetvl b a d ∧ vt = (rdX s b).toNat) ∨ (∃ m, i = .vsetvli m a d ∧ vt = m.toNat))
    (hl : lentTo s s.cur = false) (hb : regsBusy s s.cur = false) : exec i s = finish i (setLength s vt a d) := by
  rcases hi with ⟨b, rfl, rfl⟩ | ⟨m, rfl, rfl⟩
  · exact vexec_of_free hl hb _ fun s => setLength s (rdX s b).toNat a d
  · exact vexec_of_free hl hb _ fun s => setLength s m.toNat a d

/-- Settles O36: an illegal vtype is just what the model takes for none, and for a legal one the length is that of spec/02 R25. -/
theorem setLength_holds : Obligations.SetLength := by
  intro s i vt a d hi hl hb
  rw [exec_setLength hi hl hb]
  refine ⟨fun hv => finish_setLength_illegal i s a d hv, fun lg f blk hv => ?_⟩
  rw [finish_setLength_legal i s a d hv, avlOf_eq]
  rfl

end Sys2Proof.Machine
end

section
/-!
SUPPORT. SPLP and SPLR (spec/02 R39 to R41; spec/16 R336): the interlock, and the end of each by the place where the register is parked.
-/
namespace Sys2Proof.Machine

/-! ### The interlock -/

theorem spillReady_of_busy {s : State} (h : lentTo s s.cur = true ∨ regsBusy s s.cur = true) : spillReady s = .error (.wait s) := by
  rw [spillReady, if_pos (by simpa using h)]

theorem spillReady_of_free {s : State} (hl : lentTo s s.cur = false) (hb : regsBusy s s.cur = false) : spillReady s = .ok () := by
  simp [spillReady, hl, hb]

theorem finish_wait (i : Instr) (s : State) : finish i (.error (.wait s)) = .next (Claim.waits s i) := rfl

theorem exec_splp (n : Fin 16) (a : RegIx) (s : State) : exec (.splp n a) s = execSplp n a s := rfl

theorem exec_splr (n : Fin 16) (d : RegIx) (s : State) : exec (.splr n d) s = execSplr n d s := rfl

theorem exec_splp_waits {s : State} (n : Fin 16) (a : RegIx) (h : lentTo s s.cur = true ∨ regsBusy s s.cur = true) :
    exec (.splp n a) s = .next (Claim.waits s (.splp n a)) := by
  rw [exec_splp, execSplp, spillReady_of_busy h]; exact finish_wait ..

theorem exec_splr_waits {s : State} (n : Fin 16) (d : RegIx) (h : lentTo s s.cur = true ∨ regsBusy s s.cur = true) :
    exec (.splr n d) s = .next (Claim.waits s (.splr n d)) := by
  rw [exec_splr, execSplr, spillReady_of_busy h]; exact finish_wait ..

/-! ### SPLP -/

/-- A vector register of a hart as it is parked on chip. -/
def parkedReg (h : Hart) (r : Nat) : Spill := ⟨false, aget 0 h.v r, aget 0 h.sc r, aget 0x1F h.tags r⟩

/-- The entry itself holds a place on chip, which a register parked there takes over. -/
def spillOwn (h : Hart) (n : Nat) : Nat := match aget? h.spill n with | some p => if p.inMem then 0 else 1 | none => 0

/-- The current hart with a parked register at an entry of its spill map, past the instruction. -/
def spilled (s : State) (n : Nat) (e : Spill) : State := updMe s fun h => retire { h with spill := aput h.spill n e, pc := h.pc + 4 }

theorem finish_spilled (i : Instr) (s : State) (n : Nat) (e : Spill) :
    finish i (.ok (nextPc (updMe s fun h => { h with spill := aput h.spill n e }))) = .next (spilled s n e) := by
  simp [finish, nextPc, spilled]

section
variable {s : State} (hl : lentTo s s.cur = false) (hb : regsBusy s s.cur = false)
include hl hb

theorem exec_splp_on_chip {n : Fin 16} {a : RegIx} (h : spillHeld s (myCore s) - spillOwn (me s) n.val < spillRoom s (myCore s)) :
    exec (.splp n a) s = .next (spilled s n.val (parkedReg (me s) a.val)) := by
  rw [exec_splp, execSplp, spillReady_of_free hl hb, ← finish_spilled (.splp n a)]
  exact congrArg _ (if_pos h)

theorem exec_splp_in_memory {n : Fin 16} {a : RegIx} {s1 : State}
    (h : spillRoom s (myCore s) ≤ spillHeld s (myCore s) - spillOwn (me s) n.val)
    (ho : spillOut s (spillVa (me s) (lanesOf s s.cur) n.val) (lanesOf s s.cur) (parkedReg (me s) a.val) = .ok s1) :
    exec (.splp n a) s = .next (spilled s1 n.val ⟨true, 0, 0, (parkedReg (me s) a.val).tag⟩) := by
  rw [exec_splp, execSplp, spillReady_of_free hl hb, ← finish_spilled (.splp n a)]
  refine congrArg _ ((if_neg (Nat.not_lt.2 h)).trans ?_)
  exact congrArg (· >>= _) ho

end

/-! ### SPLR -/

/-- The current hart with a register written whole, and its spill map changed, past the instruction. -/
def refilled (s : State) (d : RegIx) (v sc tag : Nat) (map : AMap Spill → AMap Spill) : State := updMe s fun h => retire { h with
  v := aputC 0 h.v d.val (BitVec.ofNat 32768 v), sc := aputC 0 h.sc d.val (BitVec.ofNat 8192 sc),
  tags := aputC 0x1F h.tags d.val (BitVec.ofNat 8 tag), spill := map h.spill, pc := h.pc + 4 }

/-- The end of an SPLR that has found the bits of a register and its sidecar, one above the other. -/
def refillFrom (s : State) (n : Fin 16) (d : RegIx) (lanes bits tag : Nat) : Res :=
  .ok (nextPc (updMe s fun h =>
    let h := hartSetV h d.val (bits % 2 ^ (1024 * lanes))
    let h := hartSetSc h d.val (bits / 2 ^ (1024 * lanes))
    { hartSetTag h d.val tag with spill := adel h.spill n.val }))

theorem finish_refillFrom (i : Instr) (s : State) (n : Fin 16) (d : RegIx) (lanes bits tag : Nat) :
    finish i (refillFrom s n d lanes bits tag) =
      .next (refilled s d (bits % 2 ^ (1024 * lanes)) (bits / 2 ^ (1024 * lanes)) tag fun m => adel m n.val) := by
  simp [finish, refillFrom, nextPc, refilled, hartSetV, hartSetSc, hartSetTag]

section
variable {s : State} (hl : lentTo s s.cur = false) (hb : regsBusy s s.cur = false)
include hl hb

theorem exec_splr_empty {n : Fin 16} (d : RegIx) (h : aget? (me s).spill n.val = none) :
    exec (.splr n d) s = .next (refilled s d 0 0 0x1F id) := by
  rw [exec_splr, execSplr, spillReady_of_free hl hb]
  simp only [bind, Except.bind, h]
  simp [finish, nextPc, refilled, hartSetV, hartSetSc, hartSetTag]

theorem exec_splr_on_chip {n : Fin 16} (d : RegIx) {p : Spill} (h : aget? (me s).spill n.val = some p) (hm : p.inMem = false)
    (hp : p.reg.toNat < 2 ^ (1024 * lanesOf s s.cur)) :
    exec (.splr n d) s = .next (refilled s d p.reg.toNat p.sc.toNat p.tag.toNat fun m => adel m n.val) := by
  have hr := finish_refillFrom (.splr n d) s n d (lanesOf s s.cur) (p.reg.toNat + p.sc.toNat * 2 ^ (1024 * lanesOf s s.cur)) p.tag.toNat
  rw [Nat.add_mul_mod_self_right, Nat.mod_eq_of_lt hp, Nat.add_mul_div_right _ _ (Nat.two_pow_pos _), Nat.div_eq_of_lt hp, Nat.zero_add] at hr
  rw [exec_splr, execSplr, spillReady_of_free hl hb, ← hr]
  simp only [bind, Except.bind, h, hm]
  rfl

theorem exec_splr_in_memory {n : Fin 16} (d : RegIx) {p : Spill} {s1 : State} {bits : Nat} (h : aget? (me s).spill n.val = some p)
    (hm : p.inMem = true) (hi : spillIn s (spillVa (me s) (lanesOf s s.cur) n.val) (lanesOf s s.cur) = .ok (s1, bits)) :
    exec (.splr n d) s = .next (refilled s1 d (bits % 2 ^ (1024 * lanesOf s s.cur)) (bits / 2 ^ (1024 * lanesOf s s.cur)) p.tag.toNat
      fun m => adel m n.val) := by
  rw [exec_splr, execSplr, spillReady_of_free hl hb, ← finish_refillFrom (.splr n d) s1 n d]
  simp only [bind, Except.bind, h, hm, hi]
  rfl

end

/-- Settles O44: each place where a register is parked has its end. -/
theorem spilledRegisters : Obligations.SpilledRegisters := by
  refine ⟨fun s n a i hi h => ?_, fun s n a hl hb => ⟨exec_splp_on_chip hl hb, fun h s1 => exec_splp_in_memory hl hb h⟩,
    fun s n d hl hb => ⟨exec_splr_empty hl hb d, fun p => exec_splr_on_chip hl hb d, fun p s1 bits => exec_splr_in_memory hl hb d⟩⟩
  rcases hi with rfl | rfl
  · exact exec_splp_waits n a h
  · exact exec_splr_waits n a h

end Sys2Proof.Machine
end

section
/-!
SUPPORT. The words that the spec prints beside their assembly (spec/15 to spec/17; spec/03 R50): five closed decodings.
-/
namespace Sys2Proof.Machine

/-- Settles O3, by running the decoder on each of the five words. -/
theorem printedWordsDecode : Obligations.PrintedWordsDecode := by
  unfold Obligations.PrintedWordsDecode
  decide

end Sys2Proof.Machine
end

section
/-!
SUPPORT. The CSR instruction (spec/03 R50 to R53, Tables 3-4 and 3-6): its end in each case, and the CSRs that keep what M-mode writes.
-/
namespace Sys2Proof.Machine

/-! ### What a read does to the state -/

/-- The state differs at most in the counter of free values. -/
def sameButCtr (s t : State) : Prop := ∃ c, t = { s with ctr := c }

theorem sameButCtr_refl (s : State) : sameButCtr s s := ⟨s.ctr, rfl⟩

theorem sameButCtr_freshBits (s : State) (w : Nat) : sameButCtr s (freshBits s w).2 := ⟨s.ctr + 1, rfl⟩

theorem sameButCtr_cycleRead (s : State) : sameButCtr s (cycleRead s).1 := by
  unfold cycleRead
  split
  · exact sameButCtr_refl s
  · exact sameButCtr_freshBits s 64

theorem rdX_of_sameButCtr {s t : State} (h : sameButCtr s t) (r : RegIx) : rdX t r = rdX s r := by
  obtain ⟨c, rfl⟩ := h
  rfl

/-- A read moves at most the counter, by the free value of a cycle or time counter. -/
theorem sameButCtr_csrRead {s : State} {n : Nat} {r : State × Word} (h : csrRead s n = some r) : sameButCtr s r.1 := by
  revert h
  simp only [csrRead]
  repeat' split
  all_goals rintro ⟨⟩
  all_goals simp only [sameButCtr_refl, sameButCtr_cycleRead, sameButCtr_freshBits]

theorem rdX_of_csrRead {s t : State} {n : Nat} {v : Word} (h : csrRead s n = some (t, v)) (r : RegIx) : rdX t r = rdX s r :=
  rdX_of_sameButCtr (sameButCtr_csrRead h) r

theorem csrRead_of_low_priv {s : State} {n : Nat} (h : privCode (me s).priv < csrPriv n) : csrRead s n = none := if_pos h

/-! ### The instruction -/

theorem exec_csrAccess (op : CsrOp) (imm : Bool) (csr : BitVec 12) (rd src : RegIx) (s : State) :
    exec (.csrAccess op imm csr rd src) s = execCsrAccess op imm csr rd src s := rfl

theorem csrWrites_iff (op : CsrOp) (src : RegIx) : csrWrites op src = true ↔ op = .rw ∨ src.val ≠ 0 := by simp [csrWrites]

theorem csrNoWrite_iff (csr : BitVec 12) : csrNoWrite csr.toNat = true ↔ csr.toNat / 1024 = 3 ∨ csr = 0x800 ∨ csr = 0x801 := by
  simp [csrNoWrite, csrReadOnly, BitVec.toNat_eq, or_assoc]

theorem csrEngine_iff (csr : BitVec 12) : csrEngine csr.toNat = true ↔ csr = 0x803 ∨ csr = 0x809 := by
  simp [csrEngine, BitVec.toNat_eq]

/-- The CSRs that an engine holds may be written, so the check for what no instruction writes lets their accesses pass. -/
theorem csrNoWrite_of_csrEngine {n : Nat} (h : csrEngine n = true) : csrNoWrite n = false := by
  obtain rfl | rfl : n = 0x803 ∨ n = 0x809 := by simpa [csrEngine] using h
  · rfl
  · rfl

section
variable {s : State} {op : CsrOp} {imm : Bool} {csr : BitVec 12} {rd src : RegIx}

theorem exec_csrAccess_noWrite (hw : csrWrites op src = true) (hn : csrNoWrite csr.toNat = true) :
    exec (.csrAccess op imm csr rd src) s = .next (Claim.raised s 2 (wordOf (.csrAccess op imm csr rd src))) := by
  simp only [exec_csrAccess, execCsrAccess, hw, hn]
  exact finish_trap ..

theorem exec_csrAccess_waits (he : csrEngine csr.toNat = true) (hb : engineBlocks s s.cur = true) :
    exec (.csrAccess op imm csr rd src) s = .next (Claim.waits s (.csrAccess op imm csr rd src)) := by
  simp only [exec_csrAccess, execCsrAccess, csrNoWrite_of_csrEngine he, Bool.and_false, he, hb]
  exact finish_wait ..

theorem exec_csrAccess_absent (hf : (csrEngine csr.toNat && engineBlocks s s.cur) = false) (hr : csrRead s csr.toNat = none) :
    exec (.csrAccess op imm csr rd src) s = .next (Claim.raised s 2 (wordOf (.csrAccess op imm csr rd src))) := by
  cases h : csrWrites op src && csrNoWrite csr.toNat with
  | true =>
    obtain ⟨hw, hn⟩ := Bool.and_eq_true_iff.1 h
    exact exec_csrAccess_noWrite hw hn
  | false =>
    simp only [exec_csrAccess, execCsrAccess, h, hf, hr]
    exact finish_trap ..

theorem exec_csrAccess_read (h : (csrWrites op src && csrNoWrite csr.toNat) = false)
    (hf : (csrEngine csr.toNat && engineBlocks s s.cur) = false) {t : State} {old : Word} (hr : csrRead s csr.toNat = some (t, old)) :
    exec (.csrAccess op imm csr rd src) s = .next (Claim.wroteX
      (if csrWrites op src then csrWrite t csr.toNat (csrNew op old (csrSource s imm src)) else t) rd old) := by
  have hx : csrSource t imm src = csrSource s imm src := by rw [csrSource, csrSource, rdX_of_csrRead hr]
  simp only [exec_csrAccess, execCsrAccess, h, hf, hr, hx]
  exact finish_nextPc_wrX ..

end

/-! ### CSRs that keep what M-mode writes -/

/-- The low bits of a word, kept in a narrower field. -/
theorem setWidth_setWidth_eq_and {k : Nat} (hk : k ≤ 64) (v : Word) :
    (v.setWidth k).setWidth 64 = v &&& BitVec.ofNat 64 (2 ^ k - 1) := by
  have hlt : 2 ^ k - 1 < 2 ^ 64 := Nat.lt_of_lt_of_le (Nat.sub_one_lt (Nat.two_pow_pos k).ne') (Nat.pow_le_pow_right (by decide) hk)
  apply BitVec.eq_of_toNat_eq
  rw [BitVec.toNat_setWidth, BitVec.toNat_setWidth, BitVec.toNat_and, BitVec.toNat_ofNat, Nat.mod_eq_of_lt hlt,
    Nat.and_two_pow_sub_one_eq_mod, Nat.mod_eq_of_lt (Nat.lt_of_le_of_lt (Nat.mod_le _ _) v.isLt)]

theorem and_ones (v : Word) : v &&& 0xFFFFFFFFFFFFFFFF#64 = v := BitVec.and_allOnes

/-- The CSRs that keep what M-mode writes to them, with the values that they have. -/
def keptCsrs (x : XCsr) (p : PCsr) : List (Nat × Word) :=
  [(0x803, x.flags.zeroExtend 64), (0x804, x.sbase), (0x805, x.vstart.zeroExtend 64), (0x806, x.fault), (0x807, x.cpyseq),
   (0x808, x.spill), (0x809, x.srseed), (0x5C0, x.ctxbase), (0x5C1, x.asid), (0x5C2, x.dirty), (0x5C3, x.chto.zeroExtend 64),
   (0x5C4, x.mcto.zeroExtend 64), (0x5C5, x.wdog.zeroExtend 64), (0x5C6, x.fsmode), (0x140, p.sscratch), (0x141, p.sepc),
   (0x142, p.scause), (0x143, p.stval), (0x340, p.mscratch), (0x341, p.mepc), (0x342, p.mcause), (0x343, p.mtval)]

/-- The listed CSRs are those of the statement. -/
theorem exists_keptCsrs (x : XCsr) (p : PCsr) {n : Nat} {mask : Word} (h : (n, mask) ∈ Claim.csrKeeps) :
    ∃ w, (n, w) ∈ keptCsrs x p := by
  have hn : n ∈ (keptCsrs x p).map (·.1) := List.mem_map_of_mem (f := (·.1)) h
  simpa using hn

theorem csrRead_of_keptCsrs {s : State} (hm : (me s).priv = .m) :
    ∀ e ∈ keptCsrs (me s).xc (me s).pr, csrRead s e.1 = some (s, e.2) := by
  have hp (n : Nat) : ¬ privCode (me s).priv < csrPriv n := by rw [hm, csrPriv, privCode]; omega
  simp only [keptCsrs, List.forall_mem_cons, csrRead, if_neg (hp _)]
  simp [csrXebin, csrPlain]

/-- A write of a kept CSR leaves the others of the list, and gives its own the bits that it has. -/
theorem keptCsrs_write (x : XCsr) (p : PCsr) (v : Word) : ∀ e ∈ Claim.csrKeeps,
    keptCsrs (csrWriteSuper (csrWriteUser x e.1 v) true e.1 v) (csrWritePriv p e.1 v) =
      (keptCsrs x p).map fun r => if r.1 = e.1 then (e.1, v &&& e.2) else r := by
  simp only [Claim.csrKeeps, List.forall_mem_cons]
  simp [keptCsrs, setWidth_setWidth_eq_and, and_ones, csrWriteUser, csrWriteSuper, csrWritePriv]

/-- A write of a kept CSR in M-mode changes the hart's Xebin or its privileged CSRs, and nothing else of the hart. -/
theorem me_csrWrite {s : State} (hm : (me s).priv = .m) (v : Word) : ∀ e ∈ Claim.csrKeeps, me (csrWrite s e.1 v) = { me s with
    xc := csrWriteSuper (csrWriteUser (me s).xc e.1 v) true e.1 v, pr := csrWritePriv (me s).pr e.1 v } := by
  simp only [Claim.csrKeeps, List.forall_mem_cons]
  simp [csrWrite, updX, updP, hm, csrWriteUser, csrWriteSuper, csrWritePriv]

/-- After a write of a kept CSR in M-mode each of the list's reads as the list says. -/
theorem csrRead_csrWrite_of_mem {s : State} (hm : (me s).priv = .m) {e r : Nat × Word} (he : e ∈ Claim.csrKeeps) (v : Word)
    (hr : r ∈ keptCsrs (me s).xc (me s).pr) :
    csrRead (csrWrite s e.1 v) r.1 = some (csrWrite s e.1 v, if r.1 = e.1 then v &&& e.2 else r.2) := by
  have hw := me_csrWrite hm v e he
  have hread := csrRead_of_keptCsrs (s := csrWrite s e.1 v) (by rw [hw, hm])
  simp only [hw, keptCsrs_write _ _ v e he, List.forall_mem_map] at hread
  specialize hread r hr
  split at hread
  case isTrue h => rw [h, if_pos rfl]; exact hread
  case isFalse h => rw [if_neg h]; exact hread

theorem csrRead_csrWrite_same {s : State} (hm : (me s).priv = .m) {n : Nat} {mask : Word} (h : (n, mask) ∈ Claim.csrKeeps) (v : Word) :
    csrRead (csrWrite s n v) n = some (csrWrite s n v, v &&& mask) := by
  obtain ⟨w, hw⟩ := exists_keptCsrs (me s).xc (me s).pr h
  rw [csrRead_csrWrite_of_mem hm h v hw, if_pos rfl]

theorem csrRead_csrWrite_other {s : State} (hm : (me s).priv = .m) {n k : Nat} {mask m : Word} (h : (n, mask) ∈ Claim.csrKeeps)
    (hk : (k, m) ∈ Claim.csrKeeps) (hne : k ≠ n) (v : Word) :
    (csrRead (csrWrite s n v) k).map (·.2) = (csrRead s k).map (·.2) := by
  obtain ⟨w, hw⟩ := exists_keptCsrs (me s).xc (me s).pr hk
  rw [csrRead_csrWrite_of_mem hm h v hw, if_neg hne, csrRead_of_keptCsrs hm _ hw]
  rfl

/-! ### CSRs of every mode -/

theorem csrWrite_user {s : State} {n : Nat} (h : 0x800 ≤ n ∧ n ≤ 0x809) (v : Word) :
    csrWrite s n v = updX s fun x => csrWriteUser x n v := by
  unfold csrWrite
  split
  case h_4 => rw [if_pos h]
  all_goals omega

theorem csrRead_xvrm (s : State) : csrRead s 0x802 = some (s, (me s).xc.rm.zeroExtend 64) := rfl

theorem csrRead_csrWrite_xvrm (s : State) (v : Word) : (csrRead (csrWrite s 0x802 v) 0x802).map (·.2) =
    some (if v.toNat % 8 ≤ 5 then v &&& 7 else (me s).xc.rm.zeroExtend 64) := by
  have hx : (me (csrWrite s 0x802 v)).xc = if v.toNat % 8 ≤ 5 then { (me s).xc with rm := BitVec.ofNat 3 v.toNat } else (me s).xc := by
    rw [csrWrite_user (by decide), updX, me_updMe]; rfl
  rw [csrRead_xvrm, hx, Option.map_some]
  split
  · simpa using setWidth_setWidth_eq_and (k := 3) (by decide) v
  · rfl

theorem csrRead_length_and_identity (s : State) :
    csrRead s 0x800 = some (s, (me s).xc.vl) ∧ csrRead s 0x801 = some (s, (me s).xc.vtype) ∧
    csrRead s 0xCC1 = some (s, BitVec.ofNat 64 ((coreOf s (s.cur / 8)).cidx * (coreOf s (s.cur / 8)).part + s.cur % 8)) ∧
    csrRead s 0xCC3 = some (s, BitVec.ofNat 64 (32 / (coreOf s (s.cur / 8)).part)) := ⟨rfl, rfl, rfl, rfl⟩

/-- Settles O18: the check of the write, the engine and the read decide how the instruction ends; the CSRs that keep a write are a list of
which a write changes one entry. -/
theorem csrAccess : Obligations.CsrAccess := by
  refine ⟨fun s op imm csr rd src => ?_, fun s n mask v hm hn => ⟨⟨_, csrRead_csrWrite_same hm hn v⟩, fun k m hk hne =>
    csrRead_csrWrite_other hm hn hk hne v⟩, csrRead_csrWrite_xvrm, csrRead_length_and_identity⟩
  intro i wr x new free
  have hwr : csrWrites op src = true ↔ wr := csrWrites_iff op src
  have hfree (h : free) : (csrEngine csr.toNat && engineBlocks s s.cur) = false := by
    rwa [← Bool.not_eq_true, Bool.and_eq_true, csrEngine_iff]
  refine ⟨fun hf hn s1 old hr => ?_, fun hf => ?_, fun ⟨hw, hn⟩ => ?_, fun hf hp => ?_, fun hf => exec_csrAccess_absent (hfree hf)⟩
  · have hpass : (csrWrites op src && csrNoWrite csr.toNat) = false := by
      rwa [← Bool.not_eq_true, Bool.and_eq_true, hwr, csrNoWrite_iff]
    have hnew : csrNew op old (csrSource s imm src) = new old := by cases op <;> rfl
    have he := exec_csrAccess_read (imm := imm) (rd := rd) hpass (hfree hf) hr
    rw [hnew] at he
    exact ⟨fun h => by rwa [if_pos (hwr.2 h)] at he, fun h => by rwa [if_neg (mt hwr.1 h)] at he⟩
  · obtain ⟨he, hb⟩ := not_not.1 hf
    exact exec_csrAccess_waits ((csrEngine_iff csr).2 he) hb
  · exact exec_csrAccess_noWrite (hwr.2 hw) ((csrNoWrite_iff csr).2 hn)
  · exact exec_csrAccess_absent (hfree hf) (csrRead_of_low_priv hp)

end Sys2Proof.Machine
end

section
/-!
SUPPORT. What a rounding mode picks of two neighbours is what it rounds to among all values (spec/04 R66, R67): a number lies between
two neighbours, and no value lies between them.
-/
namespace Sys2Proof.Rounding
open Machine (Rnd)

/-! ### The choice between two neighbours -/

/-- Does a mode, of the magnitude `a` between the neighbours `lo` and `hi`, the lower one of pattern `k`, take the upper one just where
`up` says so (spec/04 R66)? A stochastic rounding may take either, unless `a` is the lower one itself (R67). -/
def Picks {K : Type} [Field K] [LinearOrder K] (rm : Rnd) (neg : Bool) (k : Nat) (lo hi a : K) (up : Bool) : Prop :=
  match rm with
  | .rne => up = true ↔ lo + hi < 2 * a ∨ (lo + hi = 2 * a ∧ k % 2 = 1)
  | .rmm => up = true ↔ lo + hi ≤ 2 * a
  | .rtz => up = false
  | .rdn => up = true ↔ neg = true ∧ lo < a
  | .rup => up = true ↔ neg = false ∧ lo < a
  | .sr => up = true → lo < a

/-- The sign as a factor. -/
def sgn (K : Type) [Field K] (s : Bool) : K := if s then -1 else 1

variable {K : Type} [Field K] [LinearOrder K] [IsStrictOrderedRing K]

omit [IsStrictOrderedRing K] in
theorem abs_sgn_mul (s : Bool) (a : K) : |sgn K s * a| = |a| := by cases s <;> simp [sgn]

omit [IsStrictOrderedRing K] in
theorem abs_sgn_sub (s : Bool) (a b : K) : |sgn K s * a - sgn K s * b| = |a - b| := by rw [← mul_sub, abs_sgn_mul]

section
variable {lo hi a c : K} {up : Bool} (hla : lo ≤ a) (hah : a < hi) (hg : c ≤ lo ∨ hi ≤ c)
include hla hah hg

/-- No value is nearer than the nearer neighbour. -/
theorem abs_sub_pick_le (hup : if up then lo + hi ≤ 2 * a else 2 * a ≤ lo + hi) : |a - if up then hi else lo| ≤ |a - c| := by
  cases up <;> rcases hg with hg | hg <;> grind

/-- One that is as near is the same, unless the neighbours are at one distance. -/
theorem eq_pick_of_abs_sub_eq (hup : if up then lo + hi ≤ 2 * a else 2 * a ≤ lo + hi) (he : |a - c| = |a - if up then hi else lo|) :
    c = (if up then hi else lo) ∨ lo + hi = 2 * a := by
  cases up <;> rcases hg with hg | hg <;> grind

end

/-- Of two values of one magnitude the one at the distance of the magnitudes is that of the same sign. -/
theorem eq_sgn_mul_of_abs {s : Bool} {a z : K} (ha : 0 < a) (he : |sgn K s * a - z| = |a - abs z|) : z = sgn K s * abs z := by
  cases s <;> simp only [sgn, Bool.false_eq_true, if_true, if_false] at he ⊢ <;> grind

/-- An upper neighbour is taken of a larger number only. -/
theorem picks_up {rm : Rnd} {neg : Bool} {k : Nat} {lo hi a : K} {up : Bool} (h : Picks rm neg k lo hi a up) (hlt : lo < hi)
    (hu : up = true) : lo < a := by
  subst hu
  cases rm <;> simp only [Picks, true_iff, forall_const, reduceCtorEq] at h
  case rne => rcases h with h | ⟨h, -⟩ <;> linarith
  case rdn | rup => exact h.2
  case rmm => linarith
  case sr => exact h

/-- The neighbour that is taken is the number itself just where the lower one is. -/
theorem pick_eq_iff {rm : Rnd} {neg : Bool} {k : Nat} {lo hi a : K} {up : Bool} (h : Picks rm neg k lo hi a up) (hla : lo ≤ a)
    (hah : a < hi) : (if up then hi else lo) = a ↔ lo = a := by
  cases up with
  | false => simp
  | true => simp [hah.ne', (picks_up h (hla.trans_lt hah) rfl).ne]

/-- Between two neighbours there is no value, of either sign. -/
theorem signed_gap {lo hi z : K} (h0 : 0 ≤ lo) (h : lo < hi) (hg : |z| ≤ lo ∨ hi ≤ |z|) : (z ≤ lo ∨ hi ≤ z) ∧ (z ≤ -hi ∨ -lo ≤ z) := by
  rw [abs_le, le_abs] at hg
  rcases hg with ⟨h1, h2⟩ | h1 | h1
  · exact ⟨.inl h2, .inr h1⟩
  · exact ⟨.inr h1, .inr (by linarith)⟩
  · exact ⟨.inl (by linarith), .inl (by linarith)⟩

/-- What a mode picks of the two neighbours of a magnitude, with the sign, is what it rounds to among all values. -/
theorem roundsTo_of_picks {R : K → Nat → Prop} {rm : Rnd} {neg : Bool} {k b : Nat} {lo hi a : K} {up : Bool}
    (hlo : 0 ≤ lo) (ha : 0 < a) (hla : lo ≤ a) (hah : a < hi) (hp : Picks rm neg k lo hi a up)
    (hb : b % 2 = (k + up.toNat) % 2) (hy : R (sgn K neg * if up then hi else lo) b)
    (hgap : ∀ z c, R z c → |z| ≤ lo ∨ hi ≤ |z|) :
    Claim.roundsTo rm R (sgn K neg * a) (sgn K neg * if up then hi else lo) b := by
  refine ⟨hy, fun z c hz => ?_⟩
  have hg := hgap z c hz
  have hx : |sgn K neg * a| = a := by rw [abs_sgn_mul, abs_of_pos ha]
  have hfar : |a - abs z| ≤ |sgn K neg * a - z| := by simpa only [hx] using abs_abs_sub_abs_le (sgn K neg * a) z
  cases rm with
  | rne =>
    have hup : if up then lo + hi ≤ 2 * a else 2 * a ≤ lo + hi := by cases up <;> grind [Picks]
    have hnear := abs_sub_pick_le hla hah hg hup
    simp only [abs_sgn_sub]
    refine ⟨hnear.trans hfar, fun he hne => ?_⟩
    rcases eq_pick_of_abs_sub_eq hla hah hg hup (le_antisymm (hfar.trans_eq he) hnear) with h | h
    · exact absurd (h ▸ eq_sgn_mul_of_abs ha (he.trans (h ▸ rfl))) hne
    · have : up = true ↔ k % 2 = 1 := by grind [Picks]
      cases up <;> grind
  | rmm =>
    have hup : if up then lo + hi ≤ 2 * a else 2 * a < lo + hi := by cases up <;> grind [Picks]
    have hup' : if up then lo + hi ≤ 2 * a else 2 * a ≤ lo + hi := by cases up <;> grind
    have hnear := abs_sub_pick_le hla hah hg hup'
    simp only [abs_sgn_sub]
    refine ⟨hnear.trans hfar, fun he => ?_⟩
    rw [abs_sgn_mul]
    have he' := le_antisymm (hfar.trans_eq he) hnear
    cases up <;> grind
  | rtz =>
    have hup : up = false := hp
    subst hup
    simp only [hx, abs_sgn_mul, Bool.false_eq_true, if_false, abs_of_nonneg hlo]
    refine ⟨hla, ?_, fun h => hg.resolve_right (h.trans_lt hah).not_ge⟩
    cases neg <;> simp [sgn] <;> positivity
  | rdn | rup | sr =>
    obtain ⟨hpos, hneg⟩ := signed_gap hlo (hla.trans_lt hah) hg
    cases neg <;> cases up <;> simp only [Picks, sgn, Bool.false_eq_true, if_true, if_false] at hp ⊢ <;> grind

end Sys2Proof.Rounding
end

section
/-!
SUPPORT. The magnitudes of a format of spec/04 Table 4-1 rise with their patterns, one unit in the last place at a time.
-/
namespace Sys2Proof.Machine
open Rounding

/-! ### Magnitudes in order -/

/-- The exponent of the unit in the last place of a magnitude pattern. -/
def unitExp (f : FSpec) (k : Nat) : ℤ := (max (k / 2 ^ f.mb) 1 : ℕ) - f.bias - f.mb

/-- The significand of a magnitude pattern, in units of its last place. -/
def sigOf (f : FSpec) (k : Nat) : Nat := if k / 2 ^ f.mb = 0 then k % 2 ^ f.mb else 2 ^ f.mb + k % 2 ^ f.mb

/-- The magnitude that a pattern without its sign stands for (spec/04 R60), whatever its top exponent code holds. -/
def magQ (f : FSpec) (k : Nat) : ℚ := sigOf f k * (2 : ℚ) ^ unitExp f k

/-- A significand `m` at an exponent field `L ≥ 1` is full unless the exponent is the least (spec/04 R60). -/
structure SigForm (f : FSpec) (L m : Nat) : Prop where
  one_le : 1 ≤ L
  sig_lt : m < 2 ^ (f.mb + 1)
  normal : 2 ^ f.mb ≤ m ∨ L = 1

theorem SigForm.fields {f : FSpec} {L m : Nat} (h : SigForm f L m) :
    unitExp f ((L - 1) * 2 ^ f.mb + m) = L - f.bias - f.mb ∧ sigOf f ((L - 1) * 2 ^ f.mb + m) = m := by
  obtain ⟨h1, hm, hn⟩ := h
  have hpow : 0 < 2 ^ f.mb := by positivity
  rw [Nat.pow_succ] at hm
  unfold unitExp sigOf
  by_cases hlt : m < 2 ^ f.mb
  · obtain rfl := hn.resolve_left (by omega)
    simp [Nat.div_eq_of_lt hlt, Nat.mod_eq_of_lt hlt]
  · obtain ⟨j, rfl⟩ := Nat.exists_eq_add_of_le' h1
    obtain ⟨i, rfl⟩ := Nat.exists_eq_add_of_le (not_lt.1 hlt)
    have hi : i < 2 ^ f.mb := by omega
    have hk : (j + 1 - 1) * 2 ^ f.mb + (2 ^ f.mb + i) = i + 2 ^ f.mb * (j + 1) := by rw [Nat.add_sub_cancel]; ring
    rw [hk, Nat.add_mul_div_left _ _ hpow, Nat.add_mul_mod_self_left, Nat.div_eq_of_lt hi, Nat.mod_eq_of_lt hi]
    simp

/-- Every pattern has its significand and exponent. -/
theorem exists_sigForm (f : FSpec) (k : Nat) : ∃ L m, SigForm f L m ∧ k = (L - 1) * 2 ^ f.mb + m := by
  have hr := Nat.mod_lt k (show 0 < 2 ^ f.mb by positivity)
  have hk := Nat.div_add_mod' k (2 ^ f.mb)
  have hpow : 2 ^ (f.mb + 1) = 2 ^ f.mb + 2 ^ f.mb := by rw [Nat.pow_succ]; omega
  cases h : k / 2 ^ f.mb with
  | zero =>
    rw [h] at hk
    exact ⟨1, k % 2 ^ f.mb, ⟨le_rfl, by omega, .inr rfl⟩, by omega⟩
  | succ j =>
    rw [h, Nat.succ_mul] at hk
    exact ⟨j + 1, 2 ^ f.mb + k % 2 ^ f.mb, ⟨by omega, by omega, .inl (by omega)⟩, by rw [Nat.add_sub_cancel]; omega⟩

theorem sigOf_lt (f : FSpec) (k : Nat) : sigOf f k < 2 ^ (f.mb + 1) := by
  obtain ⟨L, m, h, rfl⟩ := exists_sigForm f k
  rw [h.fields.2]; exact h.sig_lt

theorem SigForm.magQ_eq {f : FSpec} {L m : Nat} (h : SigForm f L m) :
    magQ f ((L - 1) * 2 ^ f.mb + m) = m * (2 : ℚ) ^ ((L : ℤ) - f.bias - f.mb) := by
  rw [magQ, h.fields.1, h.fields.2]

/-- The next pattern is one unit in the last place further. -/
theorem magQ_succ (f : FSpec) (k : Nat) : magQ f (k + 1) = magQ f k + 2 ^ unitExp f k := by
  obtain ⟨L, m, h, rfl⟩ := exists_sigForm f k
  have ⟨h1, hm, hn⟩ := h
  rw [h.magQ_eq, h.fields.1]
  by_cases hc : m + 1 < 2 ^ (f.mb + 1)
  · have h' : SigForm f L (m + 1) := ⟨h1, hc, hn.imp_left (Nat.le_succ_of_le ·)⟩
    rw [Nat.add_assoc, h'.magQ_eq]
    push_cast; ring
  · have hpow : 2 ^ (f.mb + 1) = 2 ^ f.mb + 2 ^ f.mb := by rw [Nat.pow_succ]; omega
    have hpos : 0 < 2 ^ f.mb := by positivity
    have h' : SigForm f (L + 1) (2 ^ f.mb) := ⟨by omega, by omega, .inl le_rfl⟩
    have hk : (L - 1) * 2 ^ f.mb + m + 1 = (L + 1 - 1) * 2 ^ f.mb + 2 ^ f.mb := by
      obtain ⟨j, rfl⟩ := Nat.exists_eq_add_of_le' h1
      rw [Nat.add_sub_cancel, Nat.add_sub_cancel, Nat.succ_mul]; omega
    have hq : (m : ℚ) = 2 ^ f.mb * 2 - 1 := by
      rw [eq_sub_iff_add_eq]; exact_mod_cast (by omega : m + 1 = 2 ^ f.mb * 2)
    rw [hk, h'.magQ_eq, hq, Nat.cast_add, Nat.cast_one, show (L : ℤ) + 1 - f.bias - f.mb = (L - f.bias - f.mb) + 1 by ring,
      zpow_add_one₀ two_ne_zero]
    push_cast; ring

theorem magQ_strictMono (f : FSpec) : StrictMono (magQ f) :=
  strictMono_nat_of_lt_succ fun k => by rw [magQ_succ]; exact lt_add_of_pos_right _ (by positivity)

theorem magQ_nonneg (f : FSpec) (k : Nat) : 0 ≤ magQ f k := by unfold magQ; positivity

/-! ### Patterns and their values -/

/-- What the formats of Table 4-1 have in common. -/
structure TableFmt (f : FSpec) : Prop where
  eb_ge : 2 ≤ f.eb
  mb_pos : 1 ≤ f.mb
  mb_le : f.mb ≤ 52

theorem tableFmt_of_fspec {F : Fmt} {f : FSpec} (h : fspec F = some f) : TableFmt f := by
  cases F <;> cases h <;> exact ⟨by decide, by decide, by decide⟩

/-- The exponent field of the largest finite pattern. -/
def topField (f : FSpec) : Nat := if f.top = .ieee then 2 ^ f.eb - 2 else 2 ^ f.eb - 1

/-- The largest finite pattern: its exponent field is the top one that holds numbers, its fraction all ones, or one less under a NaN. -/
theorem maxFinite_eq {f : FSpec} (hf : TableFmt f) :
    maxFinite f = topField f * 2 ^ f.mb + (2 ^ f.mb - if f.top = .nan then 2 else 1) := by
  have h2 : 2 ^ 1 ≤ 2 ^ f.mb := Nat.pow_le_pow_right (by decide) hf.mb_pos
  have h4 : 2 ^ 2 ≤ 2 ^ f.eb := Nat.pow_le_pow_right (by decide) hf.eb_ge
  obtain ⟨E, hE⟩ := Nat.exists_eq_add_of_le' (show 2 ≤ 2 ^ f.eb by omega)
  cases ht : f.top <;> simp only [maxFinite, topField, ht, Nat.pow_add, hE, reduceCtorEq, if_true, if_false, Nat.add_sub_cancel,
    show E + 2 - 1 = E + 1 by omega, Nat.add_mul] <;> omega

theorem topField_ge {f : FSpec} (hf : TableFmt f) : 2 ≤ topField f := by
  have h4 : 2 ^ 2 ≤ 2 ^ f.eb := Nat.pow_le_pow_right (by decide) hf.eb_ge
  unfold topField; split <;> omega

theorem maxFinite_div {f : FSpec} (hf : TableFmt f) : maxFinite f / 2 ^ f.mb = topField f := by
  have h2 : 2 ^ 1 ≤ 2 ^ f.mb := Nat.pow_le_pow_right (by decide) hf.mb_pos
  have hc : 2 ^ f.mb - (if f.top = .nan then 2 else 1) < 2 ^ f.mb := by split <;> omega
  rw [maxFinite_eq hf, Nat.mul_comm, Nat.mul_add_div (by omega), Nat.div_eq_of_lt hc, Nat.add_zero]

/-- The largest finite significand is full. -/
theorem sigForm_maxFinite {f : FSpec} (hf : TableFmt f) : SigForm f (topField f) (2 ^ f.mb + maxFinite f % 2 ^ f.mb) ∧
    maxFinite f = (topField f - 1) * 2 ^ f.mb + (2 ^ f.mb + maxFinite f % 2 ^ f.mb) := by
  have hr := Nat.mod_lt (maxFinite f) (show 0 < 2 ^ f.mb by positivity)
  have ht := topField_ge hf
  have hF := Nat.div_add_mod' (maxFinite f) (2 ^ f.mb)
  obtain ⟨j, hj⟩ := Nat.exists_eq_add_of_le' (show 1 ≤ topField f by omega)
  rw [maxFinite_div hf, hj, Nat.succ_mul] at hF
  exact ⟨⟨by omega, by rw [Nat.pow_succ]; omega, .inl (by omega)⟩, by rw [hj, Nat.add_sub_cancel]; omega⟩

/-- Two numbers compare as their high parts do, and where these agree as their low parts. -/
theorem fields_le_iff {M a b r t : Nat} (hr : r < M) (ht : t < M) : a * M + r ≤ b * M + t ↔ a < b ∨ a = b ∧ r ≤ t := by
  rcases lt_trichotomy a b with h | rfl | h
  · have := Nat.mul_le_mul_right M h
    rw [Nat.succ_mul] at this
    simp only [h, true_or, iff_true]; omega
  · simp
  · have := Nat.mul_le_mul_right M h
    rw [Nat.succ_mul] at this
    simp only [h.not_gt, h.ne', false_and, or_self, iff_false]; omega

/-- A pattern is no more than the largest finite one unless its top exponent code holds something else (Table 4-1). -/
theorem le_maxFinite_iff {f : FSpec} (hf : TableFmt f) {k : Nat} (hk : k < 2 ^ (f.eb + f.mb)) :
    k ≤ maxFinite f ↔ ¬ (k / 2 ^ f.mb = 2 ^ f.eb - 1 ∧ (f.top = .ieee ∨ f.top = .nan ∧ k % 2 ^ f.mb = 2 ^ f.mb - 1)) := by
  have h2 : 2 ^ 1 ≤ 2 ^ f.mb := Nat.pow_le_pow_right (by decide) hf.mb_pos
  have h4 : 2 ^ 2 ≤ 2 ^ f.eb := Nat.pow_le_pow_right (by decide) hf.eb_ge
  have hE : k / 2 ^ f.mb < 2 ^ f.eb := Nat.div_lt_of_lt_mul (by rwa [← Nat.pow_add, Nat.add_comm f.mb])
  have hr := Nat.mod_lt k (show 0 < 2 ^ f.mb by omega)
  have hkd := Nat.div_add_mod' k (2 ^ f.mb)
  rw [maxFinite_eq hf, ← hkd]
  have hc : 2 ^ f.mb - (if f.top = .nan then 2 else 1) < 2 ^ f.mb := by split <;> omega
  rw [fields_le_iff hr hc, Nat.mul_comm, Nat.mul_add_div (by omega), Nat.mul_add_mod, Nat.div_eq_of_lt hr, Nat.mod_eq_of_lt hr, topField]
  cases f.top <;> simp <;> omega

theorem signBit_fields (f : FSpec) (s : Bool) {k : Nat} (hk : k < 2 ^ (f.eb + f.mb)) :
    (signBit f s + k) % 2 ^ f.mb = k % 2 ^ f.mb ∧ (signBit f s + k) / 2 ^ f.mb % 2 ^ f.eb = k / 2 ^ f.mb ∧
      ((signBit f s + k) / 2 ^ (f.mb + f.eb) % 2 == 1) = s := by
  have hE : k / 2 ^ f.mb < 2 ^ f.eb := Nat.div_lt_of_lt_mul (by rwa [← Nat.pow_add, Nat.add_comm f.mb])
  have hb : signBit f s = 2 ^ f.mb * (2 ^ f.eb * if s then 1 else 0) := by
    cases s <;> simp [signBit, Nat.pow_add, Nat.mul_comm]
  refine ⟨by rw [hb, Nat.mul_add_mod], ?_, ?_⟩
  · rw [hb, Nat.mul_add_div (by positivity), Nat.mul_add_mod, Nat.mod_eq_of_lt hE]
  · rw [Nat.pow_add, ← Nat.div_div_eq_div_mul, hb, Nat.mul_add_div (by positivity), Nat.mul_add_div (by positivity),
      Nat.div_eq_of_lt hE]
    cases s <;> rfl

/-- A pattern of sign s and magnitude k has the signed magnitude for its value up to the largest finite one, and none above. -/
theorem valQ_fdecode {f : FSpec} (hf : TableFmt f) (s : Bool) {k : Nat} (hk : k < 2 ^ (f.eb + f.mb)) :
    Claim.valQ (fdecode f (signBit f s + k)) = if k ≤ maxFinite f then some (sgn ℚ s * magQ f k) else none := by
  obtain ⟨hm, he, hs⟩ := signBit_fields f s hk
  have h4 : 2 ^ 2 ≤ 2 ^ f.eb := Nat.pow_le_pow_right (by decide) hf.eb_ge
  have hval : Claim.valQ (if k / 2 ^ f.mb = 0 then .fin s (k % 2 ^ f.mb) (1 - (f.bias : ℤ) - f.mb)
      else .fin s (2 ^ f.mb + k % 2 ^ f.mb) ((k / 2 ^ f.mb : ℕ) - (f.bias : ℤ) - f.mb)) = some (sgn ℚ s * magQ f k) := by
    unfold magQ sigOf unitExp
    by_cases h0 : k / 2 ^ f.mb = 0
    · simp [h0, Claim.valQ, sgn]
    · rw [if_neg h0, if_neg h0, max_eq_left (by omega), ← mul_assoc]
      rfl
  simp only [fdecode, hm, he, hs, le_maxFinite_iff hf hk]
  by_cases htop : k / 2 ^ f.mb = 2 ^ f.eb - 1
  · cases ht : f.top with
    | ieee => by_cases h0 : k % 2 ^ f.mb = 0 <;> simp [htop, h0, Claim.valQ]
    | nan =>
      by_cases h1 : k % 2 ^ f.mb = 2 ^ f.mb - 1
      · simp [htop, h1, Claim.valQ]
      · simpa [htop, h1] using hval
    | num => simpa [htop] using hval
  · simpa [htop] using hval

theorem maxFinite_lt (f : FSpec) : maxFinite f < 2 ^ (f.eb + f.mb) := by
  have h0 : 0 < 2 ^ (f.eb + f.mb) := by positivity
  have h1 : 1 ≤ 2 ^ f.eb := Nat.one_le_two_pow
  have h2 : 1 ≤ 2 ^ f.mb := Nat.one_le_two_pow
  unfold maxFinite
  split
  · rw [Nat.pow_add]
    have := Nat.mul_le_mul_right (2 ^ f.mb) (Nat.sub_le (2 ^ f.eb) 1)
    have : 0 < 2 ^ f.eb * 2 ^ f.mb := by positivity
    omega
  · omega
  · omega

/-- The values of a format are the signed magnitudes of its patterns up to the largest. -/
theorem value_iff {f : FSpec} (hf : TableFmt f) (c : Nat) (z : ℚ) :
    (c < 2 ^ (1 + f.eb + f.mb) ∧ Claim.valQ (fdecode f c) = some z) ↔
      ∃ s k, k ≤ maxFinite f ∧ c = signBit f s + k ∧ z = sgn ℚ s * magQ f k := by
  constructor
  · rintro ⟨hc, hz⟩
    have hk : c % 2 ^ (f.eb + f.mb) < 2 ^ (f.eb + f.mb) := Nat.mod_lt _ (by positivity)
    have hsplit : c = signBit f (patSign f c) + c % 2 ^ (f.eb + f.mb) := by
      rw [Nat.add_comm f.eb, Nat.pow_add, Nat.mod_mul, Nat.add_comm (c % 2 ^ f.mb), Nat.mul_comm (2 ^ f.mb)]
      exact pattern_split f hc
    rw [hsplit, valQ_fdecode hf _ hk] at hz
    split at hz
    · next hle => exact ⟨_, _, hle, hsplit, (Option.some.inj hz).symm⟩
    · cases hz
  · rintro ⟨s, k, hk, rfl, rfl⟩
    have hlt := hk.trans_lt (maxFinite_lt f)
    refine ⟨?_, by rw [valQ_fdecode hf s hlt, if_pos hk]⟩
    have hs : signBit f s ≤ 2 ^ (f.eb + f.mb) := by unfold signBit; split <;> omega
    rw [show 1 + f.eb + f.mb = f.eb + f.mb + 1 by omega, Nat.pow_succ]
    omega

end Sys2Proof.Machine
end

section
/-!
SUPPORT. The division behind a rounding: the exponent of a ratio, its quotient by a power of two, and the choice by the remainder.
-/
namespace Sys2Proof.Machine
open Rounding

/-! ### Division with a power of two -/

theorem two_pow_toNat (g : ℤ) : ((2 : ℚ) ^ g.toNat) / 2 ^ (-g).toNat = 2 ^ g := by
  rw [← zpow_natCast, ← zpow_natCast, ← zpow_sub₀ two_ne_zero, Int.toNat_sub_toNat_neg]

/-- Comparing `a 2^g` with b needs whole numbers only. -/
theorem mul_two_zpow_le_iff (a b : Nat) (g : ℤ) :
    (if 0 ≤ g then a * 2 ^ g.toNat ≤ b else a ≤ b * 2 ^ (-g).toNat) ↔ (a : ℚ) * 2 ^ g ≤ b := by
  rw [← two_pow_toNat, mul_div_assoc', div_le_iff₀ (by positivity)]
  split
  · next h => rw [show (-g).toNat = 0 by omega]; norm_cast; simp
  · next h => rw [show g.toNat = 0 by omega]; norm_cast; simp

theorem ilog2_spec {n d : Nat} (hn : 0 < n) (hd : 0 < d) :
    (2 : ℚ) ^ ilog2 n d ≤ n / d ∧ (n / d : ℚ) < 2 ^ (ilog2 n d + 1) := by
  have hdq : (0 : ℚ) < d := Nat.cast_pos.2 hd
  have bounds (m : Nat) (hm : 0 < m) : (2 : ℚ) ^ (m.log2 : ℤ) ≤ m ∧ (m : ℚ) < 2 ^ ((m.log2 : ℤ) + 1) := by
    have h1 := Nat.log2_self_le hm.ne'
    have h2 := Nat.lt_log2_self (n := m)
    exact ⟨by exact_mod_cast h1, by exact_mod_cast h2⟩
  obtain ⟨hn1, hn2⟩ := bounds n hn
  obtain ⟨hd1, hd2⟩ := bounds d hd
  set g : ℤ := n.log2 - d.log2 with hg
  have hlow : (2 : ℚ) ^ (g - 1) ≤ n / d := by
    rw [le_div_iff₀ hdq]
    calc (2 : ℚ) ^ (g - 1) * d ≤ 2 ^ (g - 1) * 2 ^ ((d.log2 : ℤ) + 1) := by gcongr
      _ = 2 ^ (n.log2 : ℤ) := by rw [← zpow_add₀ two_ne_zero]; congr 1; omega
      _ ≤ n := hn1
  have hhigh : (n / d : ℚ) < 2 ^ (g + 1) := by
    rw [div_lt_iff₀ hdq]
    calc (n : ℚ) < 2 ^ ((n.log2 : ℤ) + 1) := hn2
      _ = 2 ^ (g + 1) * 2 ^ (d.log2 : ℤ) := by rw [← zpow_add₀ two_ne_zero]; congr 1; omega
      _ ≤ 2 ^ (g + 1) * d := by gcongr
  have htest := mul_two_zpow_le_iff d n g
  rw [mul_comm (d : ℚ), ← le_div_iff₀ hdq] at htest
  simp only [ilog2, ← hg, htest]
  split
  · next h => exact ⟨h, hhigh⟩
  · next h => exact ⟨hlow, by rw [sub_add_cancel]; exact not_le.1 h⟩

/-- The quotient and the remainder of a division by `d 2^q`. -/
theorem divPow_spec (n : Nat) {d : Nat} (hd : 0 < d) (q : ℤ) {lo r dd : Nat} (h : divPow n d q = (lo, r, dd)) :
    r < dd ∧ (n / d : ℚ) = (lo + r / dd) * 2 ^ q := by
  have key (n' d' : Nat) (hd' : 0 < d') : n' % d' < d' ∧ (n' / d' : ℚ) = ((n' / d' : Nat) : ℚ) + (n' % d' : Nat) / d' := by
    have hq : (0 : ℚ) < d' := Nat.cast_pos.2 hd'
    refine ⟨Nat.mod_lt _ hd', ?_⟩
    rw [div_eq_iff hq.ne', add_mul, div_mul_cancel₀ _ hq.ne']
    exact_mod_cast (Nat.div_add_mod' n' d').symm
  have hq2 : (2 : ℚ) ^ q ≠ 0 := zpow_ne_zero _ two_ne_zero
  rw [← div_eq_iff hq2, ← two_pow_toNat]
  unfold divPow at h
  split at h
  · next hq =>
    obtain ⟨rfl, rfl, rfl⟩ : _ = lo ∧ _ = r ∧ _ = dd := by simpa using h
    obtain ⟨h1, h2⟩ := key (n * 2 ^ (-q).toNat) d hd
    refine ⟨h1, h2 ▸ ?_⟩
    rw [show q.toNat = 0 by omega]; push_cast; field_simp
  · next hq =>
    obtain ⟨rfl, rfl, rfl⟩ : _ = lo ∧ _ = r ∧ _ = dd := by simpa using h
    obtain ⟨h1, h2⟩ := key n (d * 2 ^ q.toNat) (by positivity)
    refine ⟨h1, h2 ▸ ?_⟩
    rw [show (-q).toNat = 0 by omega]; push_cast; field_simp

theorem picks_roundsUp (rm : Rnd) (neg : Bool) {k draw lo r dd : Nat} (hk : k % 2 = lo % 2) (hdraw : draw < 65536) (hr : r < dd)
    {u : ℚ} (hu : 0 < u) : Picks rm neg k (lo * u) ((lo + 1) * u) ((lo + r / dd) * u) (roundsUp rm neg draw lo r dd) := by
  have hdd : (0 : ℚ) < dd := Nat.cast_pos.2 (by omega)
  have hsum : (lo * u + (lo + 1) * u : ℚ) = (2 * lo + 1) * u := by ring
  have htwo : (2 * ((lo + r / dd) * u) : ℚ) = (2 * lo + (2 * r : ℕ) / dd) * u := by push_cast; ring
  have hpos : ((lo : ℚ) * u < (lo + r / dd) * u) ↔ r ≠ 0 := by
    rw [mul_lt_mul_iff_of_pos_right hu, lt_add_iff_pos_right, div_pos_iff_of_pos_right hdd, Nat.cast_pos, Nat.pos_iff_ne_zero]
  have hlt : ((lo * u + (lo + 1) * u : ℚ) < 2 * ((lo + r / dd) * u)) ↔ dd < 2 * r := by
    rw [hsum, htwo, mul_lt_mul_iff_of_pos_right hu, add_lt_add_iff_left, one_lt_div hdd, Nat.cast_lt]
  have hle : ((lo * u + (lo + 1) * u : ℚ) ≤ 2 * ((lo + r / dd) * u)) ↔ dd ≤ 2 * r := by
    rw [hsum, htwo, mul_le_mul_iff_of_pos_right hu, add_le_add_iff_left, one_le_div hdd, Nat.cast_le]
  have heq : ((lo * u + (lo + 1) * u : ℚ) = 2 * ((lo + r / dd) * u)) ↔ dd = 2 * r := by
    rw [eq_iff_le_not_lt, hle, hlt]; omega
  cases rm with
  | rne =>
    simp only [Picks, roundsUp, hlt, heq, hk, Bool.or_eq_true, Bool.and_eq_true, decide_eq_true_eq, beq_iff_eq, gt_iff_lt,
      @eq_comm _ dd]
  | rtz => rfl
  | rdn => simp [Picks, roundsUp, hpos]
  | rup => simp [Picks, roundsUp, hpos]
  | rmm => simp only [Picks, roundsUp, hle, Bool.and_eq_true, decide_eq_true_eq, bne_iff_ne]; omega
  | sr =>
    simp only [Picks, roundsUp, hpos, decide_eq_true_eq]
    rintro h rfl
    simp at h; omega

end Sys2Proof.Machine
end

section
/-!
SUPPORT. Rounding a ratio in range takes one of its two neighbours in the format (spec/04 R66, R67, R70).
-/
namespace Sys2Proof.Machine
open Rounding

/-! ### Rounding a ratio -/

theorem magQ_maxFinite {f : FSpec} (hf : TableFmt f) :
    magQ f (maxFinite f) = (2 ^ f.mb + maxFinite f % 2 ^ f.mb : ℕ) * 2 ^ ((topField f : ℤ) - f.bias - f.mb) := by
  obtain ⟨h, he⟩ := sigForm_maxFinite hf
  rw [← h.magQ_eq, ← he]

/-- The exponent of a number in range is one of the format. -/
theorem ilog2_le_topField {f : FSpec} (hf : TableFmt f) {n d : Nat} (hn : 0 < n) (hd : 0 < d)
    (htop : (n / d : ℚ) ≤ magQ f (maxFinite f)) : ilog2 n d ≤ topField f - f.bias := by
  have hlt : (2 : ℚ) ^ ilog2 n d < 2 ^ ((topField f : ℤ) - f.bias + 1) :=
    calc (2 : ℚ) ^ ilog2 n d ≤ n / d := (ilog2_spec hn hd).1
      _ ≤ (2 ^ f.mb + maxFinite f % 2 ^ f.mb : ℕ) * 2 ^ ((topField f : ℤ) - f.bias - f.mb) := magQ_maxFinite hf ▸ htop
      _ < (2 ^ (f.mb + 1) : ℕ) * 2 ^ ((topField f : ℤ) - f.bias - f.mb) := by gcongr; exact (sigForm_maxFinite hf).1.sig_lt
      _ = 2 ^ ((topField f : ℤ) - f.bias + 1) := by
        rw [Nat.cast_pow, Nat.cast_ofNat, ← zpow_natCast, ← zpow_add₀ two_ne_zero]; congr 1; push_cast; ring
  have := (zpow_lt_zpow_iff_right₀ one_lt_two).1 hlt
  omega

/-- In units of its last place a number's whole part is the significand of a pattern. -/
theorem sigForm_of_quotient {f : FSpec} {L lo : Nat} {e : ℤ} {a t : ℚ} (h1 : (2 : ℚ) ^ e ≤ a) (h2 : a < 2 ^ (e + 1))
    (hL : (L : ℤ) = max (e + f.bias) 1) (ha : a = (lo + t) * 2 ^ ((L : ℤ) - f.bias - f.mb)) (ht0 : 0 ≤ t) (ht1 : t < 1) :
    SigForm f L lo := by
  have hu : (0 : ℚ) < 2 ^ ((L : ℤ) - f.bias - f.mb) := by positivity
  have hsplit (x : ℤ) : (2 : ℚ) ^ x = 2 ^ (x - (L - f.bias - f.mb)) * 2 ^ ((L : ℤ) - f.bias - f.mb) := by
    rw [← zpow_add₀ two_ne_zero]; congr 1; ring
  refine ⟨by omega, ?_, ?_⟩
  · rw [ha, hsplit (e + 1), mul_lt_mul_iff_of_pos_right hu] at h2
    have hle : (2 : ℚ) ^ (e + 1 - (L - f.bias - f.mb)) ≤ 2 ^ ((f.mb + 1 : ℕ) : ℤ) :=
      zpow_le_zpow_right₀ one_le_two (by push_cast; omega)
    have hlt : (lo : ℚ) < 2 ^ ((f.mb + 1 : ℕ) : ℤ) := by linarith
    exact_mod_cast hlt
  · refine or_iff_not_imp_right.2 fun hne => ?_
    rw [ha, hsplit e, mul_le_mul_iff_of_pos_right hu, show e - (L - f.bias - f.mb) = (f.mb : ℕ) by omega] at h1
    have hlt : (2 : ℚ) ^ (f.mb : ℤ) < ((lo + 1 : ℕ) : ℚ) := by push_cast; linarith
    exact Nat.le_of_lt_succ (by exact_mod_cast hlt)

/-- The pattern that the model writes of a significand, or of the next one. -/
theorem SigForm.bits {f : FSpec} {L lo : Nat} (h : SigForm f L lo) (up : Bool) :
    (if lo + up.toNat < 2 ^ f.mb then lo + up.toNat
      else if lo + up.toNat = 2 ^ (f.mb + 1) then (L + 1) * 2 ^ f.mb
      else L * 2 ^ f.mb + (lo + up.toNat - 2 ^ f.mb)) = (L - 1) * 2 ^ f.mb + lo + up.toNat := by
  obtain ⟨h1, h2, h3⟩ := h
  obtain ⟨j, rfl⟩ := Nat.exists_eq_add_of_le' h1
  have hu := up.toNat_le
  rw [Nat.pow_succ] at h2 ⊢
  simp only [Nat.add_sub_cancel, Nat.add_mul, Nat.one_mul]
  split_ifs with ha hb
  · obtain rfl : j = 0 := by omega
    simp
  · omega
  · omega

theorem emax_eq {f : FSpec} (hf : TableFmt f) :
    ((2 ^ f.eb - 1 : ℕ) : ℤ) - (if f.top = .ieee then 1 else 0) = topField f := by
  have h4 : 2 ^ 2 ≤ 2 ^ f.eb := Nat.pow_le_pow_right (by decide) hf.eb_ge
  unfold topField
  split <;> omega

/-- A magnitude in range does not overflow. -/
theorem overflow_eq_false {fm mag : Nat} {fe q : ℤ} (h : (mag : ℚ) * 2 ^ q ≤ fm * 2 ^ fe) :
    (if fe ≤ q then decide (fm < mag * 2 ^ (q - fe).toNat) else decide (fm * 2 ^ (fe - q).toNat < mag)) = false := by
  have hle : (mag : ℚ) * 2 ^ (q - fe) ≤ fm := by
    rwa [zpow_sub₀ two_ne_zero, mul_div_assoc', div_le_iff₀ (by positivity)]
  have htest := (mul_two_zpow_le_iff mag fm (q - fe)).2 hle
  simp only [neg_sub, sub_nonneg] at htest
  split <;> simp_all

/-- Rounding without overflow: the quotient by the unit in the last place is the significand, and NX says whether there is a rest. -/
theorem roundRat_eq {f : FSpec} (hf : TableFmt f) (rm : Rnd) (draw : Nat) (neg : Bool) {n d L lo r dd : Nat}
    (hL : (L : ℤ) = max (ilog2 n d + f.bias) 1) (hemax : ilog2 n d ≤ topField f - f.bias)
    (hdp : divPow n d (L - f.bias - f.mb) = (lo, r, dd)) (hs : SigForm f L lo)
    (hle : ((lo + (roundsUp rm neg draw lo r dd).toNat : ℕ) : ℚ) * 2 ^ ((L : ℤ) - f.bias - f.mb) ≤ magQ f (maxFinite f)) :
    ∃ tiny : Bool, roundRat f rm draw neg n d =
      (signBit f neg + ((L - 1) * 2 ^ f.mb + lo + (roundsUp rm neg draw lo r dd).toNat),
        if r != 0 then flNX + (if tiny then flUF else 0) else 0) := by
  have htf := topField_ge hf
  have hq : (if rm = .sr then min (max (ilog2 n d) (1 - f.bias)) (topField f - f.bias) - (f.mb : ℤ)
      else max (ilog2 n d) (1 - f.bias) - f.mb) = L - f.bias - f.mb := by split <;> omega
  have hmag (up : Bool) : (if up = true then lo + 1 else lo) = lo + up.toNat := by cases up <;> rfl
  have hovf := overflow_eq_false (hle.trans_eq (magQ_maxFinite hf))
  have hbits := hs.bits (roundsUp rm neg draw lo r dd)
  have hF := maxFinite_div hf
  unfold roundRat
  simp only [emax_eq hf, hq, hdp, hF, hmag, hovf, hbits, Bool.false_eq_true, if_false,
    show ((L : ℤ) - f.bias - f.mb + f.mb + f.bias).toNat = L by omega,
    show ((L : ℤ) - f.bias - f.mb + f.mb + 1 + f.bias).toNat = L + 1 by omega]
  exact ⟨_, rfl⟩

theorem nx_iff (r : Nat) (tiny : Bool) : let fl := if r != 0 then flNX + (if tiny then flUF else 0) else 0
    (fl % 2 = 1 ↔ r ≠ 0) ∧ fl / 4 = 0 := by
  by_cases h : r = 0 <;> cases tiny <;> simp [h, flNX, flUF]

/-- A ratio is a significand and a rest, in units of its last place. -/
theorem exists_quotient {f : FSpec} {n d : Nat} (hn : 0 < n) (hd : 0 < d) : ∃ L lo r dd : Nat, (L : ℤ) = max (ilog2 n d + f.bias) 1 ∧
    divPow n d (L - f.bias - f.mb) = (lo, r, dd) ∧ r < dd ∧ (n / d : ℚ) = (lo + r / dd) * 2 ^ ((L : ℤ) - f.bias - f.mb) ∧ SigForm f L lo := by
  obtain ⟨h1, h2⟩ := ilog2_spec hn hd
  obtain ⟨L, hL⟩ : ∃ L : Nat, (L : ℤ) = max (ilog2 n d + f.bias) 1 := ⟨_, Int.toNat_of_nonneg (by omega)⟩
  obtain ⟨lo, r, dd, hdp⟩ : ∃ lo r dd, divPow n d (L - f.bias - f.mb) = (lo, r, dd) := ⟨_, _, _, rfl⟩
  obtain ⟨hr, ha⟩ := divPow_spec n hd _ hdp
  have hrest : (r / dd : ℚ) < 1 := (div_lt_one (Nat.cast_pos.2 (by omega))).2 (Nat.cast_lt.2 hr)
  exact ⟨L, lo, r, dd, hL, hdp, hr, ha, sigForm_of_quotient h1 h2 hL ha (by positivity) hrest⟩

/-- Rounding a ratio in range takes one of its two neighbours, as the mode picks; NX tells whether the ratio is none of them. -/
theorem roundRat_spec {f : FSpec} (hf : TableFmt f) (rm : Rnd) {draw : Nat} (hdraw : draw < 65536) (neg : Bool) {n d : Nat}
    (hn : 0 < n) (hd : 0 < d) (htop : (n / d : ℚ) ≤ magQ f (maxFinite f)) :
    ∃ k up fl, roundRat f rm draw neg n d = (signBit f neg + (k + up.toNat), fl) ∧ k + up.toNat ≤ maxFinite f ∧
      magQ f k ≤ n / d ∧ (n / d : ℚ) < magQ f (k + 1) ∧ Picks rm neg k (magQ f k) (magQ f (k + 1)) (n / d) up ∧
      (fl % 2 = 1 ↔ magQ f k ≠ n / d) ∧ fl / 4 = 0 := by
  obtain ⟨L, lo, r, dd, hL, hdp, hr, ha, hs⟩ := exists_quotient (f := f) hn hd
  have hdd : (0 : ℚ) < dd := Nat.cast_pos.2 (by omega)
  have hu : (0 : ℚ) < 2 ^ ((L : ℤ) - f.bias - f.mb) := by positivity
  set k := (L - 1) * 2 ^ f.mb + lo with hk
  have hmk : magQ f k = lo * 2 ^ ((L : ℤ) - f.bias - f.mb) := hs.magQ_eq
  have hmk1 : magQ f (k + 1) = (lo + 1) * 2 ^ ((L : ℤ) - f.bias - f.mb) := by rw [magQ_succ, hmk, hs.fields.1]; ring
  have hkpar : k % 2 = lo % 2 := by
    obtain ⟨j, hj⟩ := Nat.exists_eq_add_of_le' hf.mb_pos
    rw [hk, hj, Nat.pow_succ, ← Nat.mul_assoc]; omega
  have hpick := picks_roundsUp rm neg hkpar hdraw hr hu
  rw [← hmk, ← hmk1, ← ha] at hpick
  set up := roundsUp rm neg draw lo r dd with hup
  have hne : magQ f k ≠ n / d ↔ r ≠ 0 := by
    rw [hmk, ha, Ne, mul_left_inj' hu.ne', left_eq_add, div_eq_zero_iff, or_iff_left hdd.ne', Nat.cast_eq_zero]
  have hka : magQ f k ≤ n / d := by rw [hmk, ha]; gcongr; exact le_add_of_nonneg_right (by positivity)
  have hak : (n / d : ℚ) < magQ f (k + 1) := by rw [hmk1, ha]; gcongr; exact (div_lt_one hdd).2 (Nat.cast_lt.2 hr)
  have hle : k + up.toNat ≤ maxFinite f := by
    cases hb : up
    · exact (magQ_strictMono f).le_iff_le.1 (hka.trans htop)
    · exact (magQ_strictMono f).lt_iff_lt.1 ((picks_up hpick (hka.trans_lt hak) hb).trans_le htop)
  have hmag : ((lo + up.toNat : ℕ) : ℚ) * 2 ^ ((L : ℤ) - f.bias - f.mb) = magQ f (k + up.toNat) := by
    cases up <;> simp [hmk, hmk1]
  obtain ⟨tiny, htiny⟩ := roundRat_eq hf rm draw neg hL (ilog2_le_topField hf hn hd htop) hdp hs
    (hmag.trans_le ((magQ_strictMono f).le_iff_le.2 hle))
  refine ⟨k, up, _, htiny, hle, hka, hak, hpick, ?_⟩
  rw [hne]
  exact nx_iff r tiny

end Sys2Proof.Machine
end

section
/-!
SUPPORT. Narrowing a ratio rounds to the value that the mode picks, of the ratio and of any number that lies to the values of the
format as the ratio does.
-/
namespace Sys2Proof.Rounding
open Machine (Rnd FSpec TableFmt magQ sigOf unitExp signBit maxFinite narrow roundRat)

variable {K : Type} [Field K] [LinearOrder K] [IsStrictOrderedRing K] {f : FSpec}

/-- A number lies to every value of a format, and to every middle of two neighbours, as the ratio x does. -/
def SameSide (f : FSpec) (x : ℚ) (a : K) : Prop :=
  ∀ (h : ℕ) (g : ℤ), h ≤ 2 ^ (f.mb + 2) → (x < h * 2 ^ g ↔ a < h * 2 ^ g) ∧ ((h : ℚ) * 2 ^ g < x ↔ h * 2 ^ g < a)

/-- The values of a format in a field, each with its pattern: the signed magnitudes up to the largest. -/
def IsValue (f : FSpec) (v : K) (c : Nat) : Prop :=
  ∃ s k, k ≤ maxFinite f ∧ c = signBit f s + k ∧ v = sgn K s * (magQ f k : ℚ)

omit [LinearOrder K] [IsStrictOrderedRing K] in
theorem isValue_iff (hf : TableFmt f) (v : K) (c : Nat) :
    (c < 2 ^ (1 + f.eb + f.mb) ∧ ∃ q, Claim.valQ (Machine.fdecode f c) = some q ∧ v = (q : K)) ↔ IsValue f v c := by
  have hcast (s : Bool) (q : ℚ) : ((sgn ℚ s * q : ℚ) : K) = sgn K s * q := by cases s <;> simp [sgn]
  constructor
  · rintro ⟨hc, q, hq, rfl⟩
    obtain ⟨s, k, hk, he, rfl⟩ := (Machine.value_iff hf c q).1 ⟨hc, hq⟩
    exact ⟨s, k, hk, he, hcast ..⟩
  · rintro ⟨s, k, hk, he, rfl⟩
    obtain ⟨hc, hq⟩ := (Machine.value_iff hf c _).2 ⟨s, k, hk, he, rfl⟩
    exact ⟨hc, _, hq, (hcast ..).symm⟩

/-- What a mode picks of the neighbours of a magnitude in range is what it rounds to among all values of the format. -/
theorem roundsTo_of_neighbours (hf : TableFmt f) {R : K → Nat → Prop} (hR : ∀ v c, R v c ↔ IsValue f v c) {rm : Rnd} {neg : Bool}
    {k : Nat} {up : Bool} {a : K} (ha : 0 < a) (hlo : (magQ f k : K) ≤ a) (hhi : a < magQ f (k + 1))
    (hp : Picks rm neg k (magQ f k : K) (magQ f (k + 1) : K) a up) (hle : k + up.toNat ≤ maxFinite f) :
    Claim.roundsTo rm R (sgn K neg * a) (sgn K neg * (magQ f (k + up.toNat) : K)) (signBit f neg + (k + up.toNat)) := by
  have hy : (magQ f (k + up.toNat) : K) = if up then (magQ f (k + 1) : K) else (magQ f k : K) := by cases up <;> rfl
  have heven : (signBit f neg + (k + up.toNat)) % 2 = (k + up.toNat) % 2 := by
    obtain ⟨j, hj⟩ := Nat.exists_eq_add_of_le' (show 1 ≤ f.eb + f.mb from hf.mb_pos.trans (Nat.le_add_left ..))
    rw [signBit, hj, Nat.pow_succ]
    split <;> omega
  have hval : IsValue f (sgn K neg * (magQ f (k + up.toNat) : K)) (signBit f neg + (k + up.toNat)) := ⟨neg, _, hle, rfl, rfl⟩
  rw [hy] at hval ⊢
  refine roundsTo_of_picks (Rat.cast_nonneg.2 (Machine.magQ_nonneg f k)) ha hlo hhi hp heven ((hR ..).2 hval) fun z c hz => ?_
  obtain ⟨s, j, -, -, rfl⟩ := (hR ..).1 hz
  have hmono := (Machine.magQ_strictMono f).monotone
  rw [abs_sgn_mul, abs_of_nonneg (Rat.cast_nonneg.2 (Machine.magQ_nonneg f j))]
  exact (Nat.lt_or_ge k j).symm.imp (fun h => Rat.cast_le.2 (hmono h)) (fun h => Rat.cast_le.2 (hmono h))

/-- The middle of two neighbours is a whole number of half the unit in the last place. -/
theorem magQ_add_magQ_succ (f : FSpec) (k : Nat) :
    magQ f k + magQ f (k + 1) = 2 * ((2 * sigOf f k + 1 : ℕ) * 2 ^ (unitExp f k - 1)) := by
  rw [Machine.magQ_succ, magQ, zpow_sub_one₀ two_ne_zero]; push_cast; ring

section
variable {x : ℚ} {a : K} (h : SameSide f x a) (k : Nat)
include h

theorem SameSide.of_magQ : (x < magQ f k ↔ a < (magQ f k : K)) ∧ (magQ f k < x ↔ (magQ f k : K) < a) := by
  have hs : sigOf f k ≤ 2 ^ (f.mb + 2) := (Machine.sigOf_lt f k).le.trans (Nat.pow_le_pow_right (by decide) (by omega))
  have := h _ (unitExp f k) hs
  rw [magQ]; push_cast; exact this

theorem SameSide.of_middle : (2 * x < magQ f k + magQ f (k + 1) ↔ 2 * a < (magQ f k + magQ f (k + 1) : K)) ∧
    (magQ f k + magQ f (k + 1) < 2 * x ↔ (magQ f k + magQ f (k + 1) : K) < 2 * a) := by
  have hs : 2 * sigOf f k + 1 ≤ 2 ^ (f.mb + 2) := by have := Machine.sigOf_lt f k; rw [Nat.pow_succ 2 (f.mb + 1)]; omega
  have := h _ (unitExp f k - 1) hs
  rw [← Rat.cast_add, magQ_add_magQ_succ]; push_cast at *
  simpa only [mul_lt_mul_iff_of_pos_left two_pos] using this

/-- A mode picks alike of two numbers that lie alike. -/
theorem SameSide.picks {rm : Rnd} {neg up : Bool} (hp : Picks rm neg k (magQ f k) (magQ f (k + 1)) x up) :
    Picks rm neg k (magQ f k : K) (magQ f (k + 1) : K) a up := by
  obtain ⟨-, hlo⟩ := h.of_magQ k
  obtain ⟨hbelow, habove⟩ := h.of_middle k
  cases rm <;> simp only [Picks, eq_iff_le_not_lt, ← not_lt] at hp ⊢
  all_goals simpa only [hlo, hbelow, habove] using hp

end

/-- Narrowing a ratio in range gives what the mode picks of any magnitude that lies to the values of the format as the ratio does. -/
theorem narrow_roundsTo (hf : TableFmt f) {R : K → Nat → Prop} (hR : ∀ v c, R v c ↔ IsValue f v c) (rm : Rnd) {draw : Nat}
    (hdraw : draw < 65536) (neg : Bool) {n d : Nat} (hn : 0 < n) (hd : 0 < d) {a : K} (ha : 0 < a) (hside : SameSide f (n / d) a)
    (htop : a ≤ magQ f (maxFinite f)) :
    ∃ y : ℚ, Claim.roundsTo rm R (sgn K neg * a) (y : K) (narrow f rm draw (.rat neg n d)).1 ∧
      ((narrow f rm draw (.rat neg n d)).2 % 2 = 1 ↔ (y : K) ≠ sgn K neg * a) ∧ (narrow f rm draw (.rat neg n d)).2 / 4 = 0 := by
  have hx : (n / d : ℚ) ≤ magQ f (maxFinite f) := by rwa [← not_lt, (hside.of_magQ _).2, not_lt]
  obtain ⟨k, up, fl, hround, hle, hlo, hhi, hp, hnx, hfl⟩ := Machine.roundRat_spec hf rm hdraw neg hn hd hx
  obtain ⟨hlt, hgt⟩ := hside.of_magQ k
  have hlo' : (magQ f k : K) ≤ a := by rwa [← not_lt, hlt, not_lt] at hlo
  have hhi' : a < magQ f (k + 1) := (hside.of_magQ _).1.1 hhi
  have hp' := hside.picks k hp
  have hsgn : sgn K neg ≠ 0 := by cases neg <;> simp [sgn]
  have hy : ((sgn ℚ neg * magQ f (k + up.toNat) : ℚ) : K) = sgn K neg * (magQ f (k + up.toNat) : K) := by cases neg <;> simp [sgn]
  have hpick : (magQ f (k + up.toNat) : K) = if up then (magQ f (k + 1) : K) else (magQ f k : K) := by cases up <;> rfl
  refine ⟨sgn ℚ neg * magQ f (k + up.toNat), ?_⟩
  rw [narrow, hround, hy]
  refine ⟨roundsTo_of_neighbours hf hR ha hlo' hhi' hp' hle, hnx.trans (not_congr ?_), hfl⟩
  rw [mul_right_inj' hsgn, hpick, pick_eq_iff hp' hlo' hhi', eq_iff_le_not_lt, eq_iff_le_not_lt, hgt]
  simp only [hlo, hlo', true_and]

end Sys2Proof.Rounding
end

section
namespace Sys2Proof.Machine
open Rounding

theorem top_eq {f : FSpec} (hf : TableFmt f) {top : ℚ} (h : Claim.valQ (fdecode f (maxFinite f)) = some top) :
    top = magQ f (maxFinite f) := by
  have hv := valQ_fdecode hf false (maxFinite_lt f)
  rw [show signBit f false + maxFinite f = maxFinite f from Nat.zero_add _, h, if_pos le_rfl] at hv
  simpa [sgn] using hv

/-- Settles O13: the ratio lies between two neighbouring patterns of the format, of which the mode's comparison with their middle
takes one. -/
theorem roundingPicksTheRightValue : Obligations.RoundingPicksTheRightValue := by
  intro F f rm draw n d neg x top hF hdraw hn hd hx htop hle
  have hf := tableFmt_of_fspec hF
  obtain rfl : sgn ℚ neg * (n / d) = x := Option.some.inj hx
  have ha : (0 : ℚ) < n / d := by positivity
  rw [abs_sgn_mul, abs_of_pos ha, top_eq hf htop] at hle
  have hR (v : ℚ) (c : Nat) : (c < 2 ^ (1 + f.eb + f.mb) ∧ Claim.valQ (fdecode f c) = some v) ↔ IsValue f v c := by
    simpa only [IsValue, Rat.cast_id] using value_iff hf c v
  obtain ⟨y, h⟩ := narrow_roundsTo hf hR rm hdraw neg hn hd ha (fun _ _ _ => ⟨Iff.rfl, Iff.rfl⟩)
    (by simpa only [Rat.cast_id] using hle)
  exact ⟨y, by simpa only [Rat.cast_id] using h⟩

end Sys2Proof.Machine
end

section
/-!
SUPPORT. The arithmetic before the one rounding is exact, and the sticky bit of a square root keeps its place among the values of every
format (spec/04 R71, R72).
-/
namespace Sys2Proof.Machine
open Rounding

/-! ### Exact operations -/

theorem exists_fin_of_valQ {v : FVal} {x : ℚ} (h : Claim.valQ v = some x) : ∃ s m e, v = .fin s m e ∧ finQ s m e = x := by
  match v with
  | .fin s m e => exact ⟨s, m, e, rfl, Option.some.inj h⟩
  | .nan _ | .inf _ => cases h

theorem finQ_zero (s : Bool) (e : ℤ) : finQ s 0 e = 0 := by simp [finQ]

theorem finQ_eq_zero_iff {s : Bool} {m : Nat} {e : ℤ} : finQ s m e = 0 ↔ m = 0 := by
  cases s <;> simp [finQ, zpow_ne_zero]

theorem outQ_dyad (s : Bool) (m : Nat) (e : ℤ) : Claim.outQ (dyad s m e) = some (finQ s m e) := by
  by_cases h0 : m = 0
  · simp [h0, dyad, finQ_zero, Claim.outQ]
  · rw [dyad_of_ne s e h0, finQ, ← two_pow_toNat]
    simp only [Claim.outQ]
    push_cast
    rw [mul_div_assoc, ← mul_assoc]

theorem outQ_dyad_natAbs (z e : ℤ) : Claim.outQ (dyad (decide (z < 0)) z.natAbs e) = some ((z : ℚ) * 2 ^ e) := by
  have hz : (z : ℚ) = (if decide (z < 0) then -1 else 1) * (z.natAbs : ℚ) := by
    rcases lt_or_ge z 0 with h | h
    · simp [h, abs_of_neg]
    · simp [not_lt.2 h, abs_of_nonneg h]
  rw [outQ_dyad, finQ, ← hz]

/-- The sum of two finite values is exact (spec/04 R71). -/
theorem outQ_addFin (rm : Rnd) (s : Bool) (m : Nat) (e : ℤ) (t : Bool) (n : Nat) (k : ℤ) :
    Claim.outQ (addFin rm s m e t n k) = some (finQ s m e + finQ t n k) := by
  have scaled {s : Bool} {m : Nat} {e e0 : ℤ} (h : m = 0 ∨ e0 ≤ e) :
      ((if m = 0 then 0 else atExp s m e e0 : ℤ) : ℚ) * 2 ^ e0 = finQ s m e := by
    split
    · next h0 => rw [h0, finQ_zero, Int.cast_zero, zero_mul]
    · next h0 =>
      rw [atExp_eq s m (h.resolve_left h0), mul_assoc, ← zpow_add₀ two_ne_zero, neg_add_cancel, zpow_zero, mul_one]
  by_cases hz : m = 0 ∧ n = 0
  · simp [addFin, hz, finQ_zero, Claim.outQ]
  · rw [addFin, if_neg hz]
    simp only []
    generalize he0 : (if m = 0 then k else if n = 0 then e else min e k) = e0
    have h1 : m = 0 ∨ e0 ≤ e := by grind
    have h2 : n = 0 ∨ e0 ≤ k := by grind
    rw [← scaled (s := s) h1, ← scaled (s := t) h2, ← add_mul, ← Int.cast_add]
    generalize (if m = 0 then 0 else atExp s m e e0) + (if n = 0 then 0 else atExp t n k e0) = z
    split
    · next h0 => rw [h0, Int.cast_zero, zero_mul]; rfl
    · exact outQ_dyad_natAbs ..

theorem finQ_mul (s : Bool) (m : Nat) (e : ℤ) (t : Bool) (n : Nat) (k : ℤ) :
    finQ (s != t) (m * n) (e + k) = finQ s m e * finQ t n k := by
  rw [finQ, zpow_add₀ two_ne_zero]
  cases s <;> cases t <;> simp [finQ] <;> ring

/-- The quotient of two finite values is exact. -/
theorem fdivV_fin (s : Bool) (m : Nat) (e : ℤ) (t : Bool) {n : Nat} (k : ℤ) (hn : n ≠ 0) :
    Claim.outQ (fdivV (.fin s m e) (.fin t n k)).1 = some (finQ s m e / finQ t n k) ∧ (fdivV (.fin s m e) (.fin t n k)).2 = 0 := by
  have hratio : finQ s m e / finQ t n k =
      (if (s != t) = true then -1 else 1) * ((m * 2 ^ (e - k).toNat : ℕ) / (n * 2 ^ (-(e - k)).toNat : ℕ)) := by
    push_cast
    rw [mul_div_mul_comm, two_pow_toNat, zpow_sub₀ two_ne_zero]
    cases s <;> cases t <;> simp [finQ] <;> ring
  simp only [fdivV, if_neg hn, hratio]
  by_cases hm : m = 0
  · simp [hm, Claim.outQ]
  · rw [if_neg hm]
    split
    · next h => simp [Claim.outQ, show (k - e).toNat = 0 by omega]
    · next h => simp [Claim.outQ, show (e - k).toNat = 0 by omega]

/-! ### The square root -/

theorem sqrtGo_spec (k n acc : Nat) (h1 : acc * acc ≤ n) (h2 : n < (acc + 2 ^ k) * (acc + 2 ^ k)) :
    sqrtGo k n acc * sqrtGo k n acc ≤ n ∧ n < (sqrtGo k n acc + 1) * (sqrtGo k n acc + 1) := by
  induction k generalizing acc with
  | zero => exact ⟨h1, h2⟩
  | succ k ih =>
    rw [Nat.pow_succ, Nat.mul_two, ← Nat.add_assoc] at h2
    rw [sqrtGo]
    split
    · next h => exact ih _ h h2
    · next h => exact ih _ h1 (not_le.1 h)

theorem isqrt_eq_sqrt (n : Nat) : isqrt n = Nat.sqrt n := by
  refine Nat.eq_sqrt.2 (sqrtGo_spec _ n 0 (Nat.zero_le n) ?_)
  rw [Nat.zero_add, ← Nat.pow_add]
  exact (Nat.lt_log2_self (n := n)).trans_le (Nat.pow_le_pow_right (by decide) (by omega))

/-- A whole number of 81 bits or more and the next one have no value of a format, and no middle of two, between them. -/
theorem units_gap {f : FSpec} (hf : TableFmt f) {r : Nat} (hr : 2 ^ 80 ≤ r) (E : ℤ) {h : Nat} (hh : h ≤ 2 ^ (f.mb + 2)) (g : ℤ) :
    (h : ℝ) * 2 ^ g ≤ r * 2 ^ E ∨ ((r : ℝ) + 1) * 2 ^ E ≤ h * 2 ^ g := by
  have hmb := hf.mb_le
  rcases le_total E g with hle | hle
  · obtain ⟨j, hj⟩ := Int.le.dest hle
    have hg : (h : ℝ) * 2 ^ g = (h * 2 ^ j : ℕ) * 2 ^ E := by
      rw [← hj, zpow_add₀ two_ne_zero, zpow_natCast]; push_cast; ring
    rw [hg]
    refine (Nat.lt_or_ge r (h * 2 ^ j)).symm.imp (fun hc => ?_) (fun hc => ?_)
    · gcongr
    · gcongr; exact_mod_cast hc
  · left
    gcongr
    · exact hh.trans (Nat.pow_le_pow_right (by decide) (by omega)) |>.trans hr
    · exact one_le_two

/-- A ratio lies as the real number that it is. -/
theorem sameSide_self_cast (f : FSpec) (x : ℚ) : SameSide f x (x : ℝ) := by
  intro h g hh
  constructor <;> rw [← Rat.cast_lt (K := ℝ)] <;> push_cast <;> rfl

/-- Two numbers between neighbouring whole numbers of 81 bits or more of a unit lie alike to the values of a format. -/
theorem sameSide_of_between {f : FSpec} (hf : TableFmt f) {r : Nat} (hr : 2 ^ 80 ≤ r) {E : ℤ} {x : ℚ} {a : ℝ}
    (hx : (r : ℝ) * 2 ^ E < x) (hx' : (x : ℝ) < (r + 1) * 2 ^ E) (ha : (r : ℝ) * 2 ^ E < a) (ha' : a < (r + 1) * 2 ^ E) :
    SameSide f x a := by
  intro h g hh
  obtain ⟨hlt, hgt⟩ := sameSide_self_cast f x h g hh
  rw [hlt, hgt]
  rcases units_gap hf hr E hh g with hg | hg
  · have h1 := hg.trans_lt hx
    have h2 := hg.trans_lt ha
    simp [h1, h2, h1.not_gt, h2.not_gt]
  · have h1 := hx'.trans_le hg
    have h2 := ha'.trans_le hg
    simp [h1, h2, h1.not_gt, h2.not_gt]

/-- The significand of a square root: the whole part of the root of a number of 161 bits or more, and a sticky bit below it. -/
def rootSig (n : Nat) : Nat := 2 * n.sqrt + if n.sqrt * n.sqrt = n then 0 else 1

/-- The square root takes an even exponent and 160 more bits of the significand. -/
theorem fsqrtV_fin {m : Nat} (hm : m ≠ 0) (e : ℤ) : ∃ (m1 : Nat) (j : ℤ), m1 ≠ 0 ∧ finQ false m e = m1 * 2 ^ (2 * j) ∧
    fsqrtV (.fin false m e) = (dyad false (rootSig (m1 * 2 ^ 160)) (j - 81), 0) := by
  simp only [fsqrtV, if_neg hm, Bool.false_eq_true, if_false, isqrt_eq_sqrt]
  rcases Int.emod_two_eq_zero_or_one e with he | he
  · refine ⟨m, e / 2, hm, ?_, by simp only [he, if_true]; rfl⟩
    rw [show 2 * (e / 2) = e by omega]; simp [finQ]
  · refine ⟨2 * m, (e - 1) / 2, by omega, ?_, by simp only [he, one_ne_zero, if_false]; rfl⟩
    have h2 : (2 : ℚ) ^ e = 2 * 2 ^ (e - 1) := by rw [← zpow_one_add₀ two_ne_zero]; congr 1; ring
    rw [show 2 * ((e - 1) / 2) = e - 1 by omega, finQ, h2]; push_cast; simp; ring

theorem sqrt_scaled (n : Nat) (j : ℤ) : √((n : ℝ) * 2 ^ (2 * j)) = √((n * 2 ^ 160 : ℕ) : ℝ) * 2 ^ (j - 80) := by
  have h : ((n : ℝ) * 2 ^ (2 * j)) = (√((n * 2 ^ 160 : ℕ) : ℝ) * 2 ^ (j - 80)) ^ 2 := by
    rw [mul_pow, Real.sq_sqrt (Nat.cast_nonneg _), Nat.cast_mul, Nat.cast_pow, Nat.cast_ofNat, ← zpow_natCast, ← zpow_natCast, ← zpow_mul,
      mul_assoc, ← zpow_add₀ two_ne_zero]
    congr 2; push_cast; ring
  rw [h, Real.sqrt_sq (by positivity)]

/-- The sticky bit keeps the root's place: the model's significand lies to the values of a format as the true root does. -/
theorem sameSide_rootSig {f : FSpec} (hf : TableFmt f) {n : Nat} (hn : 2 ^ 160 ≤ n) (j : ℤ) :
    SameSide f ((rootSig n : ℚ) * 2 ^ (j - 81)) (√(n : ℝ) * 2 ^ (j - 80)) := by
  have hr : 2 ^ 80 ≤ n.sqrt := Nat.le_sqrt.2 hn
  have hu : (2 : ℝ) ^ (j - 80) = 2 * 2 ^ (j - 81) := by rw [← zpow_one_add₀ two_ne_zero]; congr 1; ring
  by_cases hsq : n.sqrt * n.sqrt = n
  · have hroot : √(n : ℝ) = n.sqrt := by
      conv_lhs => rw [← hsq, Nat.cast_mul]
      exact Real.sqrt_mul_self (Nat.cast_nonneg _)
    have hx : √(n : ℝ) * 2 ^ (j - 80) = (((rootSig n : ℚ) * 2 ^ (j - 81) : ℚ) : ℝ) := by
      rw [hroot, hu, rootSig, if_pos hsq]; push_cast; ring
    rw [hx]
    exact sameSide_self_cast f _
  · have hlt : (n.sqrt : ℝ) < √(n : ℝ) := by
      rw [Real.lt_sqrt (Nat.cast_nonneg _), sq]
      exact_mod_cast lt_of_le_of_ne n.sqrt_le hsq
    have hx : (((rootSig n : ℚ) * 2 ^ (j - 81) : ℚ) : ℝ) = (n.sqrt + 1 / 2) * 2 ^ (j - 80) := by
      rw [hu, rootSig, if_neg hsq]; push_cast; ring
    refine sameSide_of_between hf hr (E := j - 80) ?_ ?_ ?_ ?_
    · rw [hx]; gcongr; norm_num
    · rw [hx]; gcongr; norm_num
    · gcongr
    · gcongr; exact Real.real_sqrt_lt_nat_sqrt_succ

theorem fsqrtV_zero (s : Bool) (e : ℤ) : fsqrtV (.fin s 0 e) = (.zero s, 0) := by simp [fsqrtV]

theorem fsqrtV_negative {m : Nat} (hm : m ≠ 0) (e : ℤ) : fsqrtV (.fin true m e) = (.nan, flNV) := by simp [fsqrtV, hm]

theorem finQ_false_nonneg (m : Nat) (e : ℤ) : 0 ≤ finQ false m e := by
  rw [finQ, if_neg Bool.false_ne_true]; positivity

theorem finQ_true_nonpos (m : Nat) (e : ℤ) : finQ true m e ≤ 0 := by
  rw [finQ, if_pos rfl, neg_one_mul, neg_mul, neg_nonpos]; positivity

/-- A finite value is a zero, positive, or negative, by its fields. -/
theorem finQ_sign_cases {s : Bool} {m : Nat} {e : ℤ} {x : ℚ} (h : finQ s m e = x) :
    (m = 0 ∧ x = 0) ∨ (m ≠ 0 ∧ s = false ∧ 0 < x) ∨ (m ≠ 0 ∧ s = true ∧ x < 0) := by
  subst h
  by_cases hm : m = 0
  · exact .inl ⟨hm, finQ_eq_zero_iff.2 hm⟩
  · have hne : finQ s m e ≠ 0 := mt finQ_eq_zero_iff.1 hm
    cases s
    · exact .inr (.inl ⟨hm, rfl, lt_of_le_of_ne (finQ_false_nonneg m e) hne.symm⟩)
    · exact .inr (.inr ⟨hm, rfl, lt_of_le_of_ne (finQ_true_nonpos m e) hne⟩)

/-- The square root, narrowed to a format that holds its range, is the rounding of the true root (spec/04 R72). -/
theorem narrow_fsqrtV {f : FSpec} (hf : TableFmt f) {R : ℝ → Nat → Prop} (hR : ∀ v c, R v c ↔ IsValue f v c) (rm : Rnd) {draw : Nat}
    (hdraw : draw < 65536) {m : Nat} (hm : m ≠ 0) (e : ℤ) (htop : √(finQ false m e : ℝ) ≤ magQ f (maxFinite f)) :
    ∃ r : ℚ, Claim.roundsTo rm R √(finQ false m e : ℝ) (r : ℝ) (narrow f rm draw (fsqrtV (.fin false m e)).1).1 ∧
      ((narrow f rm draw (fsqrtV (.fin false m e)).1).2 % 2 = 1 ↔ (r : ℝ) ≠ √(finQ false m e : ℝ)) ∧
      (narrow f rm draw (fsqrtV (.fin false m e)).1).2 / 4 = 0 := by
  obtain ⟨m1, j, hm1, hq, hv⟩ := fsqrtV_fin hm e
  have hroot : √(finQ false m e : ℝ) = √((m1 * 2 ^ 160 : ℕ) : ℝ) * 2 ^ (j - 80) := by
    rw [hq, ← sqrt_scaled]; push_cast; rfl
  have hbig : 2 ^ 160 ≤ m1 * 2 ^ 160 := Nat.le_mul_of_pos_left _ (Nat.pos_of_ne_zero hm1)
  have hsig : 0 < rootSig (m1 * 2 ^ 160) := by
    have : 0 < (m1 * 2 ^ 160).sqrt := Nat.sqrt_pos.2 (by positivity)
    unfold rootSig; omega
  have hside := sameSide_rootSig hf hbig j
  rw [← two_pow_toNat, mul_div_assoc', ← hroot] at hside
  have hpos : 0 < √(finQ false m e : ℝ) := by
    rw [hroot]; have := Nat.pos_of_ne_zero hm1; positivity
  have h := narrow_roundsTo hf hR rm hdraw false (n := rootSig (m1 * 2 ^ 160) * 2 ^ (j - 81).toNat) (d := 2 ^ (-(j - 81)).toNat)
    (by positivity) (by positivity) hpos (by push_cast; exact hside) htop
  rw [hv, dyad_of_ne _ _ hsig.ne']
  simpa only [sgn, Bool.false_eq_true, if_false, one_mul] using h

/-- Settles O14: every operation's ratio is that of the exact result, and of a square root the sticky bit keeps the place. -/
theorem arithmeticIsExact : Obligations.ArithmeticIsExact := by
  intro rm a b c x y z ha hb hc
  obtain ⟨s, m, e, rfl, hx⟩ := exists_fin_of_valQ ha
  obtain ⟨t, n, k, rfl, hy⟩ := exists_fin_of_valQ hb
  obtain ⟨u, p, l, rfl, hz⟩ := exists_fin_of_valQ hc
  have hsign := finQ_sign_cases hx
  refine ⟨⟨?_, rfl⟩, ⟨?_, rfl⟩, ⟨?_, rfl⟩, fun hy0 => ?_, fun hy0 hx0 => ?_, fun h0 => ?_, fun h0 => ?_, ?_, fun h0 => ?_⟩
  · rw [← hx, ← hy]; exact outQ_addFin ..
  · rw [← hx, ← hy, ← finQ_mul]; exact outQ_dyad ..
  · rw [← hx, ← hy, ← hz, ← finQ_mul]; exact outQ_addFin ..
  · rw [← hx, ← hy]
    exact fdivV_fin s m e t k (mt finQ_eq_zero_iff.2 (hy.trans_ne hy0))
  · have hn := finQ_eq_zero_iff.1 (hy.trans hy0)
    have hm := mt finQ_eq_zero_iff.2 (hx.trans_ne hx0)
    simp [fdivV, hn, hm]
  · rcases hsign with ⟨rfl, -⟩ | ⟨hm, rfl, -⟩ | ⟨-, -, hlt⟩
    · rw [fsqrtV_zero]
    · obtain ⟨_, _, _, _, hv⟩ := fsqrtV_fin hm e
      rw [hv]
    · exact absurd hlt h0.not_gt
  · rw [finQ_eq_zero_iff.1 (hx.trans h0), fsqrtV_zero]; rfl
  · intro F f draw top hF hdraw hpos htop hle
    have hf := tableFmt_of_fspec hF
    rcases hsign with ⟨-, h⟩ | ⟨hm, rfl, -⟩ | ⟨-, -, h⟩
    · exact absurd h hpos.ne'
    · rw [top_eq hf htop, ← hx] at hle
      rw [← hx]
      exact narrow_fsqrtV hf (isValue_iff hf) rm hdraw hm e hle
    · exact absurd h hpos.not_gt
  · rcases hsign with ⟨-, h⟩ | ⟨-, -, h⟩ | ⟨hm, rfl, -⟩
    · exact absurd h h0.ne
    · exact absurd h h0.not_gt
    · exact fsqrtV_negative hm e

end Sys2Proof.Machine
end

section
/-!
CERTIFICATES. O1: what the encoder gives, the decoder reads back.
-/
namespace Sys2Proof.Laws.Encoding

/-- The fields of every instruction's word decode to it: a constructor with a word has its lemma, the others are events. -/
theorem statement_holds (i : Instr) : Statement i := by
  cases i with
  | vaddVv => apply vaddVv
  | vaddVx => apply vaddVx
  | vaddVi => apply vaddVi
  | vsubVv => apply vsubVv
  | vsubVx => apply vsubVx
  | vsubVi => apply vsubVi
  | vmulVv => apply vmulVv
  | vmulVx => apply vmulVx
  | vmulVi => apply vmulVi
  | vmulhVv => apply vmulhVv
  | vmulhVx => apply vmulhVx
  | vmaccVv => apply vmaccVv
  | vmaccVx => apply vmaccVx
  | vmaccVi => apply vmaccVi
  | vminVv => apply vminVv
  | vminVx => apply vminVx
  | vminVi => apply vminVi
  | vmaxVv => apply vmaxVv
  | vmaxVx => apply vmaxVx
  | vmaxVi => apply vmaxVi
  | vandVv => apply vandVv
  | vandVx => apply vandVx
  | vandVi => apply vandVi
  | vorVv => apply vorVv
  | vorVx => apply vorVx
  | vorVi => apply vorVi
  | vxorVv => apply vxorVv
  | vxorVx => apply vxorVx
  | vxorVi => apply vxorVi
  | vshlVv => apply vshlVv
  | vshlVx => apply vshlVx
  | vshlVi => apply vshlVi
  | vshrVv => apply vshrVv
  | vshrVx => apply vshrVx
  | vshrVi => apply vshrVi
  | vcmpVv => apply vcmpVv
  | vcmpVx => apply vcmpVx
  | vcmpVi => apply vcmpVi
  | vselVv => apply vselVv
  | vselVx => apply vselVx
  | vselVi => apply vselVi
  | vclipVv => apply vclipVv
  | vclipVx => apply vclipVx
  | vclipVi => apply vclipVi
  | vwcvt => apply vwcvt
  | vredi => apply vredi
  | vslupVx => apply vslupVx
  | vslupVi => apply vslupVi
  | vsldnVx => apply vsldnVx
  | vsldnVi => apply vsldnVi
  | vperm => apply vperm
  | vcmpr => apply vcmpr
  | vxpnd => apply vxpnd
  | viota => apply viota
  | vbcstVx => apply vbcstVx
  | vbcstVi => apply vbcstVi
  | vmvxs => apply vmvxs
  | vmvsx => apply vmvsx
  | vscan => apply vscan
  | plog => apply plog
  | pbrk => apply pbrk
  | pcnt => apply pcnt
  | pfirst => apply pfirst
  | pset => apply pset
  | pmovToVector => apply pmovToVector
  | pmovToPredicate => apply pmovToPredicate
  | vfaddVv => apply vfaddVv
  | vfaddVf => apply vfaddVf
  | vfaddVx => apply vfaddVx
  | vfsubVv => apply vfsubVv
  | vfsubVf => apply vfsubVf
  | vfsubVx => apply vfsubVx
  | vfmulVv => apply vfmulVv
  | vfmulVf => apply vfmulVf
  | vfmulVx => apply vfmulVx
  | vfmaVv => apply vfmaVv
  | vfmaVf => apply vfmaVf
  | vfmaVx => apply vfmaVx
  | vfminVv => apply vfminVv
  | vfminVf => apply vfminVf
  | vfminVx => apply vfminVx
  | vfmaxVv => apply vfmaxVv
  | vfmaxVf => apply vfmaxVf
  | vfmaxVx => apply vfmaxVx
  | vfdivVv => apply vfdivVv
  | vfdivVf => apply vfdivVf
  | vfdivVx => apply vfdivVx
  | vfsqrt => apply vfsqrt
  | vfrsqe => apply vfrsqe
  | vfexp2e => apply vfexp2e
  | vfcmpVv => apply vfcmpVv
  | vfcmpVf => apply vfcmpVf
  | vfcmpVx => apply vfcmpVx
  | vfsgn => apply vfsgn
  | vfcvt => apply vfcvt
  | vredf => apply vredf
  | vtagg => apply vtagg
  | vtags => apply vtags
  | vsetvl => apply vsetvl
  | vsetvli => apply vsetvli
  | vld => apply vld
  | vlds => apply vlds
  | vldx => apply vldx
  | vldsr => apply vldsr
  | vst => apply vst
  | vsts => apply vsts
  | vstx => apply vstx
  | vamo => apply vamo
  | vred => apply vred
  | cpy => apply cpy
  | cpys => apply cpys
  | cpyw => apply cpyw
  | sqcmd => apply sqcmd
  | sqwait => apply sqwait
  | mma => apply mma
  | mmaTile => apply mmaTile
  | mmas => apply mmas
  | mmasTile => apply mmasTile
  | mzero => apply mzero
  | mrda => apply mrda
  | mwra => apply mwra
  | mtcw => apply mtcw
  | chcfg => apply chcfg
  | chaim => apply chaim
  | chrun => apply chrun
  | chwait => apply chwait
  | chst => apply chst
  | chdrn => apply chdrn
  | chbrk => apply chbrk
  | chsav => apply chsav
  | chld => apply chld
  | qpush => apply qpush
  | qpop => apply qpop
  | qpeek => apply qpeek
  | qstat => apply qstat
  | acq => apply acq
  | rel => apply rel
  | bindr => apply bindr
  | unbindr => apply unbindr
  | fencex => apply fencex
  | bari => apply bari
  | bara => apply bara
  | barw => apply barw
  | baraw => apply baraw
  | monarm => apply monarm
  | mwait => apply mwait
  | bfence => apply bfence
  | futinit => apply futinit
  | futrd => apply futrd
  | futwr => apply futwr
  | futqry => apply futqry
  | tspawn => apply tspawn
  | tnext => apply tnext
  | msgring => apply msgring
  | msgsnd => apply msgsnd
  | msgrcv => apply msgrcv
  | evqcfg => apply evqcfg
  | evqpop => apply evqpop
  | bcmd => apply bcmd
  | bgax => apply bgax
  | pklcfg => apply pklcfg
  | pklq => apply pklq
  | pklget => apply pklget
  | lpart => apply lpart
  | ctxsv => apply ctxsv
  | ctxld => apply ctxld
  | tlbir => apply tlbir
  | tlbsync => apply tlbsync
  | splp => apply splp
  | splr => apply splr
  | ecall => apply ecall
  | fence => apply fence
  | fenceI => apply fenceI
  | sfenceVma => apply sfenceVma
  | scalarAmo => apply scalarAmo
  | lr => apply lr
  | sc => apply sc
  | csrAccess => apply csrAccess
  | hint => apply hint
  | scalarLoad => apply scalarLoad
  | scalarStore => apply scalarStore
  | baseIsaInstruction => apply baseIsaInstruction
  | _ => nofun

/-- Settles O1: a word carries its fields whole, and fields decode by the lemma of their constructor. -/
theorem encodingRoundTrip : Obligations.EncodingRoundTrip := by
  intro i w hwf hw
  obtain ⟨F, hF, rfl⟩ := Option.map_eq_some_iff.1 hw
  rw [decode, unpack_pack]
  exact statement_holds i F hwf hF

end Sys2Proof.Laws.Encoding
end

section
/-!
CERTIFICATES. O2: a Xebin word that decodes has no other reading. Going down the decoder's tables, every leaf is an instruction whose
fields, put together again, are those of the word.
-/
namespace Sys2Proof

/-! ### Codes: what a code stands for has it -/

theorem CmpCond.code_of_ofCode {n : Nat} {x : CmpCond} (h : CmpCond.ofCode n = some x) : x.code = n := by
  unfold CmpCond.ofCode at h
  split at h <;> cases h <;> rfl

theorem FCmpCond.code_of_ofCode {n : Nat} {x : FCmpCond} (h : FCmpCond.ofCode n = some x) : x.code = n := by
  unfold FCmpCond.ofCode at h
  split at h <;> cases h <;> rfl

theorem CvtWidth.code_of_ofCode {n : Nat} {x : CvtWidth} (h : CvtWidth.ofCode n = some x) : x.code = n := by
  unfold CvtWidth.ofCode at h
  split at h <;> cases h <;> rfl

theorem RedOp.code_of_ofCode {n : Nat} {x : RedOp} (h : RedOp.ofCode n = some x) : x.code = n := by
  unfold RedOp.ofCode at h
  split at h <;> cases h <;> rfl

theorem PLogOp.code_of_ofCode {n : Nat} {x : PLogOp} (h : PLogOp.ofCode n = some x) : x.code = n := by
  unfold PLogOp.ofCode at h
  split at h <;> cases h <;> rfl

theorem PSetOp.code_of_ofCode {n : Nat} {x : PSetOp} (h : PSetOp.ofCode n = some x) : x.code = n := by
  unfold PSetOp.ofCode at h
  split at h <;> cases h <;> rfl

theorem SgnMode.code_of_ofCode {n : Nat} {x : SgnMode} (h : SgnMode.ofCode n = some x) : x.code = n := by
  unfold SgnMode.ofCode at h
  split at h <;> cases h <;> rfl

theorem FRedOp.code_of_ofCode {n : Nat} {x : FRedOp} (h : FRedOp.ofCode n = some x) : x.code = n := by
  unfold FRedOp.ofCode at h
  split at h <;> cases h <;> rfl

theorem RndCode.code_of_ofCode {n : Nat} {x : RndCode} (h : RndCode.ofCode n = some x) : x.code = n := by
  unfold RndCode.ofCode at h
  split at h <;> cases h <;> rfl

theorem VAmoOp.code_of_ofCode {n : Nat} {x : VAmoOp} (h : VAmoOp.ofCode n = some x) : x.code = n := by
  unfold VAmoOp.ofCode at h
  split at h <;> cases h <;> rfl

theorem VRedOp.code_of_ofCode {n : Nat} {x : VRedOp} (h : VRedOp.ofCode n = some x) : x.code = n := by
  unfold VRedOp.ofCode at h
  split at h <;> cases h <;> rfl

theorem Scope.code_of_ofCode {n : Nat} {x : Scope} (h : Scope.ofCode n = some x) : x.code = n := by
  unfold Scope.ofCode at h
  split at h <;> cases h <;> rfl

theorem FenceKind.code_of_ofCode {n : Nat} {x : FenceKind} (h : FenceKind.ofCode n = some x) : x.code = n := by
  unfold FenceKind.ofCode at h
  split at h <;> cases h <;> rfl

theorem AcqMode.code_of_ofCode {n : Nat} {x : AcqMode} (h : AcqMode.ofCode n = some x) : x.code = n := by
  unfold AcqMode.ofCode at h
  split at h <;> cases h <;> rfl

theorem Fmt.code_of_ofCode {n : Nat} {x : Fmt} (h : Fmt.ofCode n = some x) : x.code = n := by
  unfold Fmt.ofCode at h
  split at h <;> cases h <;> rfl

theorem Fmt.of_ofTarget {n : Nat} {t : Fmt} (h : Fmt.ofTarget n = some t) : t.code = n ∧ (t != .scw && t != .raw) = true := by
  unfold Fmt.ofTarget at h
  split at h
  case isTrue => cases h
  case isFalse hn =>
    obtain rfl := Fmt.code_of_ofCode h
    exact ⟨rfl, by cases t <;> simp_all [Fmt.code]⟩

theorem val_of_finOf {n k : Nat} {x : Fin n} (h : finOf n k = some x) : x.val = k := by
  unfold finOf at h
  split at h <;> cases h
  rfl

end Sys2Proof

namespace Sys2Proof.Laws.Encoding

/-! ### Going down the tables -/

/-- A reading of the fields is the only one: what it gives is well formed, and encodes to these fields. -/
def Faithful (F : Fields) (r : Except DecodeErr Instr) : Prop := ∀ i, r = .ok i → i.wellFormed = true ∧ encodeFields i = some F

theorem faithful_error (F : Fields) (e : DecodeErr) : Faithful F (.error e) := nofun

theorem faithful_ok {F : Fields} {i : Instr} (hwf : i.wellFormed = true) (hF : encodeFields i = some F) : Faithful F (.ok i) := by
  intro j hj
  cases hj
  exact ⟨hwf, hF⟩

theorem faithful_guardField {F : Fields} {c : Prop} [Decidable c] {r : Except DecodeErr Instr} (h : c → Faithful F r) :
    Faithful F (guardField c r) := by
  unfold guardField
  split
  case isTrue hc => exact h hc
  case isFalse => exact faithful_error F _

theorem faithful_withCode {F : Fields} {α : Type} {o : Option α} {k : α → Except DecodeErr Instr} (h : ∀ v, o = some v → Faithful F (k v)) :
    Faithful F (withCode o k) := by
  cases o with
  | some v => exact h v rfl
  | none => exact faithful_error F _

/-- An operand whose code is allocated: the reading goes on with the value of that code. -/
theorem faithful_withCode_of {F : Fields} {α : Type} {ofCode : Nat → Option α} {code : α → Nat}
    (hcode : ∀ {n v}, ofCode n = some v → code v = n) {n : Nat} {k : α → Except DecodeErr Instr}
    (h : ∀ v, code v = n → Faithful F (k v)) : Faithful F (withCode (ofCode n) k) :=
  faithful_withCode fun v hv => h v (hcode hv)

/-- Fields with these numbers are the fields. -/
theorem some_mk_eq {F : Fields} {opc : Fin 128} {d : Fin 32} {f3 : Fin 8} {a b : Fin 32} {g : Fin 4} {op : Fin 32}
    (h : opc.val = F.opc.val ∧ d.val = F.d.val ∧ f3.val = F.f3.val ∧ a.val = F.a.val ∧ b.val = F.b.val ∧ g.val = F.g.val ∧
      op.val = F.op.val) : some (⟨opc, d, f3, a, b, g, op⟩ : Fields) = some F := by
  obtain ⟨h1, h2, h3, h4, h5, h6, h7⟩ := h
  rw [Fin.ext h1, Fin.ext h2, Fin.ext h3, Fin.ext h4, Fin.ext h5, Fin.ext h6, Fin.ext h7]

/-- A bit as a truth value, and back. -/
theorem toNat_bit (n : Nat) : (n % 2 == 1).toNat = n % 2 := by
  rcases Nat.mod_two_eq_zero_or_one n with h | h <;> simp [h]

theorem decodeFields_custom3 {F : Fields} (h : F.opc.val = 123) : decodeFields F = decodeCustom3 F := by
  simp [decodeFields, isHint, h]

/-! ### The maps -/

theorem faithful_custom0 {F : Fields} (h : F.opc.val = 11) : Faithful F (decodeCustom0 F) := by
  unfold decodeCustom0
  split
  case h_33 => exact faithful_error _ _
  case h_13 => -- VCMP
    split
    any_goals exact faithful_error _ _
    all_goals exact faithful_withCode_of CmpCond.code_of_ofCode fun _ _ => faithful_ok rfl (some_mk_eq (by simp [*]; omega))
  case h_16 => -- VWCVT
    split
    any_goals exact faithful_error _ _
    all_goals exact faithful_guardField fun _ => faithful_withCode_of CvtWidth.code_of_ofCode fun _ _ =>
      faithful_ok rfl (some_mk_eq (by simp [*]; omega))
  case h_17 => -- VREDI
    split
    any_goals exact faithful_error _ _
    exact faithful_withCode_of RedOp.code_of_ofCode fun _ _ => faithful_ok rfl (some_mk_eq (by simp [*]))
  case h_28 => -- PLOG
    exact faithful_guardField fun _ => faithful_withCode_of PLogOp.code_of_ofCode fun _ _ =>
      faithful_ok rfl (some_mk_eq (by simp [*]; omega))
  case h_31 => -- PSET
    exact faithful_guardField fun _ => faithful_withCode_of PSetOp.code_of_ofCode fun _ _ =>
      faithful_ok rfl (some_mk_eq (by simp [*]; omega))
  case h_21 | h_22 | h_23 | h_24 | h_25 | h_26 | h_29 | h_30 | h_32 => -- rows with a field that is 0
    split
    any_goals exact faithful_error _ _
    all_goals exact faithful_guardField fun _ => faithful_ok rfl (some_mk_eq (by simp [*] <;> omega))
  all_goals -- rows with every field free
    split
    any_goals exact faithful_error _ _
    all_goals exact faithful_ok rfl (some_mk_eq (by simp [*]))

theorem faithful_custom1 {F : Fields} (h : F.opc.val = 43) : Faithful F (decodeCustom1 F) := by
  unfold decodeCustom1
  split
  case isTrue h3 => exact faithful_ok rfl (some_mk_eq (by simp [*, Fields.hi12]; omega))
  split
  case h_18 => exact faithful_error _ _
  case h_11 => -- VFCMP
    split
    any_goals exact faithful_error _ _
    all_goals exact faithful_withCode_of FCmpCond.code_of_ofCode fun _ _ => faithful_ok rfl (some_mk_eq (by simp [*]; omega))
  case h_12 => -- VFSGN
    split
    any_goals exact faithful_error _ _
    exact faithful_withCode_of SgnMode.code_of_ofCode fun _ _ => faithful_ok rfl (some_mk_eq (by simp [*]))
  case h_13 => -- VFCVT
    exact faithful_withCode fun _ ht => faithful_withCode_of RndCode.code_of_ofCode fun _ _ =>
      faithful_ok (Fmt.of_ofTarget ht).2 (some_mk_eq (by simp [(Fmt.of_ofTarget ht).1, *]))
  case h_14 => -- VREDF
    exact faithful_withCode_of FRedOp.code_of_ofCode fun _ _ => faithful_withCode_of RndCode.code_of_ofCode fun _ _ =>
      faithful_guardField fun hs => faithful_ok (by simpa [Instr.wellFormed] using hs) (some_mk_eq (by simp [*]))
  case h_8 | h_9 | h_10 | h_15 | h_16 | h_17 => -- rows with a field that is 0
    split
    any_goals exact faithful_error _ _
    exact faithful_guardField fun _ => faithful_ok rfl (some_mk_eq (by simp [*]))
  all_goals -- rows with every field free
    split
    any_goals exact faithful_error _ _
    all_goals exact faithful_ok rfl (some_mk_eq (by simp [*]))

theorem faithful_custom2 {F : Fields} (h : F.opc.val = 91) : Faithful F (decodeCustom2 F) := by
  unfold decodeCustom2
  split
  case h_14 => exact faithful_error _ _
  case h_8 => exact faithful_withCode_of VAmoOp.code_of_ofCode fun _ _ => faithful_ok rfl (some_mk_eq (by simp [*]))
  case h_9 => exact faithful_withCode_of VRedOp.code_of_ofCode fun _ _ => faithful_ok rfl (some_mk_eq (by simp [*]))
  case h_2 | h_3 | h_6 | h_7 => -- rows with every field free
    split
    any_goals exact faithful_error _ _
    all_goals exact faithful_ok rfl (some_mk_eq (by simp [*]))
  all_goals -- rows with a field that is 0
    split
    any_goals exact faithful_error _ _
    all_goals exact faithful_guardField fun _ => faithful_ok rfl (some_mk_eq (by simp [*] <;> omega))

theorem faithful_matrix {F : Fields} (h : F.opc.val = 123) (h3 : F.f3.val = 0) : Faithful F (decodeMatrix F) := by
  simp only [decodeMatrix, Fields.hi12]
  split
  case h_9 => exact faithful_error _ _
  case h_1 | h_3 => -- MMA, MMAS
    exact faithful_withCode_of val_of_finOf fun _ _ => faithful_withCode_of val_of_finOf fun _ _ =>
      faithful_ok rfl (some_mk_eq (by simp [*]; omega))
  case h_2 | h_4 => -- MMA.T, MMAS.T
    exact faithful_guardField fun _ => faithful_withCode_of val_of_finOf fun _ _ => faithful_withCode_of val_of_finOf fun _ _ =>
      faithful_ok rfl (some_mk_eq (by simp [*]; omega))
  case h_5 | h_8 => -- MZERO, MTCW
    exact faithful_guardField fun _ => faithful_ok rfl (some_mk_eq (by simp [*]; omega))
  case h_6 | h_7 => -- MRDA, MWRA
    exact faithful_guardField fun _ => faithful_withCode_of val_of_finOf fun _ _ =>
      faithful_ok rfl (some_mk_eq (by simp [*]; omega))

theorem faithful_chainsAndQueues {F : Fields} (h : F.opc.val = 123) (h3 : F.f3.val = 1) : Faithful F (decodeS F) := by
  simp only [decodeS, h3, Fields.f7]
  split
  any_goals exact faithful_error _ _
  all_goals exact faithful_guardField fun _ => faithful_ok rfl (some_mk_eq (by simp [*]; omega))

theorem faithful_sync {F : Fields} (h : F.opc.val = 123) (h3 : F.f3.val = 2) : Faithful F (decodeS F) := by
  simp only [decodeS, h3, Fields.f7]
  split
  case h_13 => exact faithful_error _ _
  case h_1 => -- ACQ
    exact faithful_withCode_of Scope.code_of_ofCode fun _ _ => faithful_withCode_of AcqMode.code_of_ofCode fun _ _ =>
      faithful_ok rfl (some_mk_eq (by simp [*]; omega))
  case h_2 => -- REL
    exact faithful_guardField fun _ => faithful_withCode_of Scope.code_of_ofCode fun _ _ =>
      faithful_ok rfl (some_mk_eq (by simp [*]; omega))
  case h_3 => exact faithful_ok rfl (some_mk_eq (by simp [*]; omega)) -- BINDR
  case h_5 => -- FENCEX
    exact faithful_guardField fun _ => faithful_withCode_of Scope.code_of_ofCode fun _ _ =>
      faithful_withCode_of FenceKind.code_of_ofCode fun _ _ => faithful_ok rfl (some_mk_eq (by simp [*]; omega))
  case h_7 | h_8 | h_9 | h_12 => -- rows with a one-bit flag in S2
    exact faithful_guardField fun _ => faithful_ok rfl (some_mk_eq (by simp [*, toNat_bit]; omega))
  all_goals exact faithful_guardField fun _ => faithful_ok rfl (some_mk_eq (by simp [*]; omega))

theorem faithful_futures {F : Fields} (h : F.opc.val = 123) (h3 : F.f3.val = 3) : Faithful F (decodeS F) := by
  simp only [decodeS, h3, Fields.f7]
  split
  case h_12 => exact faithful_error _ _
  case h_2 | h_8 | h_9 => exact faithful_ok rfl (some_mk_eq (by simp [*]; omega))
  all_goals exact faithful_guardField fun _ => faithful_ok rfl (some_mk_eq (by simp [*, toNat_bit]; omega))

theorem faithful_nearMemory {F : Fields} (h : F.opc.val = 123) (h3 : F.f3.val = 4) : Faithful F (decodeS F) := by
  simp only [decodeS, h3, Fields.f7]
  split
  case h_6 => exact faithful_error _ _
  case h_2 => exact faithful_ok rfl (some_mk_eq (by simp [*]; omega)) -- BGAX
  case h_3 => -- PKLCFG
    exact faithful_guardField fun _ => faithful_withCode_of val_of_finOf fun _ _ => faithful_ok rfl (some_mk_eq (by simp [*]; omega))
  case h_4 => -- PKLQ
    exact faithful_withCode_of val_of_finOf fun _ _ => faithful_ok rfl (some_mk_eq (by simp [*]; omega))
  all_goals exact faithful_guardField fun _ => faithful_ok rfl (some_mk_eq (by simp [*, toNat_bit]; omega))

theorem faithful_system {F : Fields} (h : F.opc.val = 123) (h3 : F.f3.val = 5) : Faithful F (decodeS F) := by
  simp only [decodeS, h3, Fields.f7]
  split
  case h_8 => exact faithful_error _ _
  case h_4 => exact faithful_ok rfl (some_mk_eq (by simp [*]; omega)) -- TLBIR
  all_goals exact faithful_guardField fun _ => faithful_ok rfl (some_mk_eq (by simp [*]; omega))

theorem faithful_custom3 {F : Fields} (h : F.opc.val = 123) : Faithful F (decodeCustom3 F) := by
  unfold decodeCustom3
  split
  case isTrue h3 => exact faithful_matrix h h3
  obtain h3 | h3 | h3 | h3 | h3 | h3 : F.f3.val = 1 ∨ F.f3.val = 2 ∨ F.f3.val = 3 ∨ F.f3.val = 4 ∨ F.f3.val = 5 ∨ 5 < F.f3.val := by
    omega
  · exact faithful_chainsAndQueues h h3
  · exact faithful_sync h h3
  · exact faithful_futures h h3
  · exact faithful_nearMemory h h3
  · exact faithful_system h h3
  · unfold decodeS
    split
    case h_6 => exact faithful_error _ _
    all_goals omega

/-- Settles O2: below each of the four opcodes every leaf of the decoder's tables is a faithful reading. -/
theorem xebinWordHasOneReading : Obligations.XebinWordHasOneReading := by
  intro i w hx hi
  have hopc : (unpack w).opc.val = w.toNat % 128 := rfl
  have hF : Faithful (unpack w) (decodeFields (unpack w)) := by
    rcases hx with h | h | h | h <;> rw [← hopc] at h
    · rw [decodeFields_custom0 _ (Fin.ext h)]; exact faithful_custom0 h
    · rw [decodeFields_custom1 _ (Fin.ext h)]; exact faithful_custom1 h
    · rw [decodeFields_custom2 _ (Fin.ext h)]; exact faithful_custom2 h
    · rw [decodeFields_custom3 h]; exact faithful_custom3 h
  obtain ⟨hwf, he⟩ := hF i hi
  exact ⟨hwf, by rw [encode, he, Option.map_some, pack_unpack]⟩

end Sys2Proof.Laws.Encoding
end

section
/-!
CERTIFICATES. O5: in M-mode a fetch that misses the instruction cache takes the four stored bytes at its pc.
-/
namespace Sys2Proof.Machine

/-! ### Bytes of a little-endian number -/

/-- Byte k of the number that bytes make, lowest first, is byte k of them. -/
theorem ofNat_natOfBytes_div (l : List Byte) (k : Nat) : BitVec.ofNat 8 (natOfBytes l / 256 ^ k) = l.getD k 0 := by
  induction l generalizing k with
  | nil => simp [natOfBytes]
  | cons b l ih =>
    have hb := b.isLt
    cases k with
    | zero =>
      apply BitVec.eq_of_toNat_eq
      simp only [natOfBytes, BitVec.toNat_ofNat, List.getD_cons_zero]
      omega
    | succ k =>
      rw [List.getD_cons_succ, ← ih, natOfBytes, Nat.pow_succ', ← Nat.div_div_eq_div_mul,
        show (b.toNat + 256 * natOfBytes l) / 256 = natOfBytes l by omega]

/-- Byte k of the 32-bit word at byte o of a number is byte o + k of the number. -/
theorem ofNat_word_div (d o k : Nat) (hk : k < 4) :
    BitVec.ofNat 8 ((BitVec.ofNat 32 ((d >>> (8 * o)) % 2 ^ 32)).toNat / 256 ^ k) = BitVec.ofNat 8 (d / 256 ^ (o + k)) := by
  apply BitVec.eq_of_toNat_eq
  rw [Nat.shiftRight_eq_div_pow, show 2 ^ (8 * o) = 256 ^ o by rw [Nat.pow_mul], Nat.pow_add, ← Nat.div_div_eq_div_mul]
  simp only [BitVec.toNat_ofNat]
  generalize d / 256 ^ o = e
  interval_cases k <;> omega

/-- Under key identity 0 memory reads as it is stored. -/
theorem physByte_zero (s : State) (pa : Nat) : physByte s 0 pa = rawByte s pa := physByte_of_same (.inr (.inl rfl))

/-! ### The address of a fetch in M-mode -/

/-- Addresses of HBM lie in the global region. -/
theorem regionOf_hbm (s : State) (core : Nat) {va : Nat} (h : va < hbmEnd) : regionOf s core va = .global := by
  have : va < 0xC000000000 := h
  rw [regionOf, if_neg (by omega), if_pos (by omega)]

/-- In M-mode an address of HBM is physical (notes/assumptions/3). -/
theorem translate_fetch_hbm {s : State} {c : ACtx} (u : Use) {va : Nat} (hm : c.priv = .m) (h : va < hbmEnd) :
    translate s c .fetch u va = (s, .ok (.phys va 0 8192)) := by
  simp [translate, regionOf_hbm s c.core h, hm, isHbm, h]

theorem myTranslate_fetch_hbm {s : State} (u : Use) {va : Nat} (src : Nat) (hm : (me s).priv = .m) (h : va < hbmEnd) :
    myTranslate s .fetch u va src = .ok (s, .phys va 0 8192) := by
  have hc : (accessCtx s .fetch).priv = .m := by simpa [accessCtx, hartCtx, me] using hm
  rw [myTranslate, translate_fetch_hbm u hc h]

/-- An aligned word of four bytes lies in one 8-byte word, and is poisoned only with it. -/
theorem locPoisoned_phys_word {s : State} {va : Nat} (mt key : Nat) (ha : va % 4 = 0) (hp : poisonedAt s va = false) :
    locPoisoned s (.phys va mt key) 4 = false := by
  rw [locPoisoned, List.any_eq_false]
  intro i _ h
  rw [Bool.and_eq_true, decide_eq_true_eq] at h
  obtain ⟨hq, hlt⟩ := h
  rw [show (va + i) / 8 = va / 8 by omega, ← poisonedAt, hp] at hq
  cases hq

/-- A word of the global memory that the instruction cache does not hold is read from its line, and not cached under the device's own
key. -/
theorem fetchLine_uncached {s : State} {c : ACtx} {va : Nat} (hi : (coreOf s c.core).icache.find? (iHit c (va / 64)) = none) (mt : Nat) :
    fetchLine s c va (.phys va mt 8192) = (s, (physRead s (keyId s 8192) (va / 64 * 64) 64 >>> (8 * (va % 64))) % 2 ^ 32) := by
  simp [fetchLine, hi]

/-- Settles O5: the word is cut out of the line as stored, since an M-mode fetch uses key identity 0. -/
theorem fetchReadsTheWord : Obligations.FetchReadsTheWord := by
  refine fun s => ⟨fun hmis => ?_, fun hal hm hhbm hic hpoison hkey => ?_⟩
  · simp [fetch, hmis, w64]
  generalize hva : (me s).pc.toNat = va at *
  have hp : locPoisoned s (.phys va 0 8192) 4 = false := locPoisoned_phys_word 0 8192 hal (hpoison va le_rfl (by omega))
  refine ⟨BitVec.ofNat 32 ((physRead s 0 (va / 64 * 64) 64 >>> (8 * (va % 64))) % 2 ^ 32), ?_, fun k hk => ?_⟩
  · rw [fetch, hva, if_neg (by simp [hal]), myTranslate_fetch_hbm .plain 24 hm hhbm]
    simp only [Except.bind, bind, hp, fetchLine_uncached hic, hkey, Bool.false_eq_true, if_false]
  · rw [ofNat_word_div _ _ _ hk, physRead, ofNat_natOfBytes_div, List.getD_eq_getElem _ _ (by simp; omega)]
    simp only [List.getElem_map, List.getElem_range, physByte_zero]
    congr 1
    omega

end Sys2Proof.Machine
end

section
/-!
SUPPORT. Aligned program counters (spec/05 R76): the predicate that every step keeps, and what each operation over the state does to it.
-/
namespace Sys2Proof.Machine

/-- The pc, `sepc` and `mepc` of every hart are multiples of 4. -/
def Aligned (s : State) : Prop := ∀ h, Claim.pcOk (hartOf s h)

theorem Aligned.me {s : State} (hs : Aligned s) : Claim.pcOk (me s) := hs s.cur

/-! ### Updates of a record -/

theorem Aligned.setHart {s : State} (hs : Aligned s) {h : Nat} {r : Hart} (hr : Claim.pcOk r) : Aligned (setHart s h r) := fun k => by
  by_cases hk : k = h
  · rwa [hk, hartOf_setHart]
  · rw [hartOf_setHart_other s r hk]
    exact hs k

theorem Aligned.setMe {s : State} (hs : Aligned s) {r : Hart} (hr : Claim.pcOk r) : Aligned (setMe s r) := hs.setHart hr

theorem Aligned.updHart {s : State} (hs : Aligned s) {h : Nat} {f : Hart → Hart} (hf : ∀ r, Claim.pcOk r → Claim.pcOk (f r)) :
    Aligned (updHart s h f) := hs.setHart (hf _ (hs h))

theorem Aligned.updMe {s : State} (hs : Aligned s) {f : Hart → Hart} (hf : ∀ r, Claim.pcOk r → Claim.pcOk (f r)) :
    Aligned (updMe s f) := hs.updHart hf

@[simp] theorem aligned_updCore (s : State) (c : Nat) (f : CoreSt → CoreSt) : Aligned (updCore s c f) ↔ Aligned s := Iff.rfl
@[simp] theorem aligned_updDie (s : State) (d : Nat) (f : DieSt → DieSt) : Aligned (updDie s d f) ↔ Aligned s := Iff.rfl
@[simp] theorem aligned_setGang (s : State) (g : Nat) (r : Gang) : Aligned (setGang s g r) ↔ Aligned s := Iff.rfl

/-- A fold of operations that keep alignment keeps it. -/
theorem Aligned.foldl {β : Type} {s : State} (hs : Aligned s) {f : State → β → State} (l : List β)
    (hf : ∀ t b, Aligned t → Aligned (f t b)) : Aligned (l.foldl f s) := foldl_keeps l hs hf

/-! ### The next pc, and the registers of a hart -/

/-- An address 4 further on is as aligned. -/
theorem toNat_add_four_mod {w : Word} (h : w.toNat % 4 = 0) : (w + 4).toNat % 4 = 0 := by
  rw [BitVec.toNat_add]
  simp only [BitVec.reduceToNat]
  omega

theorem pcOk_add_four {r : Hart} (hr : Claim.pcOk r) : Claim.pcOk { r with pc := r.pc + 4 } := by
  obtain ⟨hpc, hret⟩ := hr
  exact ⟨toNat_add_four_mod hpc, hret⟩

/-- Alignment is about the pc and the privileged CSRs alone. -/
theorem pcOk_congr {r q : Hart} (hpc : q.pc = r.pc) (hpr : q.pr = r.pr) : Claim.pcOk q ↔ Claim.pcOk r := by
  simp only [Claim.pcOk, hpc, hpr]

@[simp] theorem pcOk_hartSetX (r : Hart) (rd : RegIx) (v : Word) : Claim.pcOk (hartSetX r rd v) ↔ Claim.pcOk r :=
  pcOk_congr (by simp) (by simp)
@[simp] theorem pcOk_hartSetP (r : Hart) (n v : Nat) : Claim.pcOk (hartSetP r n v) ↔ Claim.pcOk r := pcOk_congr (by simp) (by simp)

theorem pcOk_retire {r : Hart} (hr : Claim.pcOk r) : Claim.pcOk (retire r) := by
  obtain ⟨hpc, hs, hm⟩ := hr
  refine ⟨hpc, ?_⟩
  simp only [retire]
  split <;> exact ⟨hs, hm⟩

theorem Aligned.nextPc {s : State} (hs : Aligned s) : Aligned (nextPc s) := hs.updMe fun _ => pcOk_add_four

theorem Aligned.wrX {s : State} (hs : Aligned s) (rd : RegIx) (v : Word) : Aligned (wrX s rd v) :=
  hs.updMe fun r => (pcOk_hartSetX r rd v).2

theorem Aligned.wrF {s : State} (hs : Aligned s) (rd : RegIx) (v : Word) : Aligned (wrF s rd v) := hs.updMe fun _ hr => hr

/-! ### Physical memory and reservations -/

@[simp] theorem aligned_lineKey (s : State) (m : AMap Nat) : Aligned { s with lineKey := m } ↔ Aligned s := Iff.rfl

theorem Aligned.rekeyLine {s : State} (hs : Aligned s) (kid line : Nat) : Aligned (rekeyLine s kid line) := by
  simp only [Machine.rekeyLine]
  split
  · exact hs
  · rw [aligned_lineKey]
    split
    · exact hs
    · exact hs.foldl (List.range 64) fun _ _ ht => ht

theorem Aligned.physSetByte {s : State} (hs : Aligned s) (kid pa : Nat) (b : Byte) : Aligned (physSetByte s kid pa b) :=
  hs.rekeyLine kid (pa / 64)

theorem Aligned.physWrite {s : State} (hs : Aligned s) (kid pa n v : Nat) : Aligned (physWrite s kid pa n v) :=
  hs.foldl (List.range n) fun _ _ ht => ht.physSetByte _ _ _

theorem Aligned.markDirty {s : State} (hs : Aligned s) (xd : Word) (pa : Nat) : Aligned (markDirty s xd pa) := by
  simp only [Machine.markDirty]
  split <;> exact hs

/-- A map whose entries change by `f`, which keeps a property of the values, keeps it. -/
theorem aget_map_keeps {α : Type} {P : α → Prop} (f : Nat × α → Nat × α) (hk : ∀ x, (f x).1 = x.1) (hf : ∀ x, P x.2 → P (f x).2) (d : α)
    {m : AMap α} (hm : ∀ k, P (aget d m k)) (k : Nat) : P (aget d (m.map f) k) := by
  have hd : aget d (m.map f) k = aget d m k ∨ ∃ x, P x.2 ∧ aget d (m.map f) k = (f x).2 := by
    have := hm k
    clear hm
    induction m with
    | nil => exact .inl rfl
    | cons x r ih =>
      obtain ⟨a, v⟩ := x
      simp only [aget, aget?, List.map_cons, hk] at this ih ⊢
      split_ifs at this ⊢ with hlt heq
      · exact ih this
      · exact .inr ⟨(a, v), this, rfl⟩
      · exact .inl rfl
  obtain h | ⟨x, hx, h⟩ := hd
  · exact h ▸ hm k
  · exact h ▸ hf x hx

theorem Aligned.killResv {s : State} (hs : Aligned s) (g k : Nat) : Aligned (killResv s g k) := by
  simp only [Machine.killResv]
  split
  · refine aget_map_keeps (P := Claim.pcOk) _ (fun x => ?_) (fun x hx => ?_) {} hs
    · exact iteInduction (motive := fun y : Nat × Hart => y.1 = x.1) (fun _ => rfl) fun _ => rfl
    · exact iteInduction (motive := fun y : Nat × Hart => Claim.pcOk y.2) (fun _ => hx) fun _ => hx
  · exact hs

/-! ### The end of an instruction -/

/-- How a step of an instruction's body ends: the value that it goes on with has the property, or the state in which it raises, waits or stops
is aligned. -/
def Ends {α : Type} (P : α → Prop) : Except Exc α → Prop
  | .ok a => P a
  | .error (.trap s _ _) | .error (.wait s) | .error (.pageFault s _ _ _) | .error (.stop s) => Aligned s

@[simp] theorem ends_ok {α : Type} (P : α → Prop) (a : α) : Ends P (.ok a) ↔ P a := Iff.rfl

theorem Ends.bind {α β : Type} {P : α → Prop} {Q : β → Prop} {r : Except Exc α} {f : α → Except Exc β} (hr : Ends P r)
    (hf : ∀ a, P a → Ends Q (f a)) : Ends Q (r >>= f) := by
  match r with
  | .ok a => exact hf a hr
  | .error (.trap ..) | .error (.wait _) | .error (.pageFault ..) | .error (.stop _) => exact hr

/-- An address with its two lowest bits cleared is a multiple of 4. -/
theorem toNat_and_not_three_mod (w : Word) : (w &&& ~~~(3 : Word)).toNat % 4 = 0 := by
  rw [BitVec.toNat_and, show (4 : Nat) = 2 ^ 2 from rfl, Nat.and_mod_two_pow]
  simp

/-- An exception goes to an aligned handler. -/
theorem toNat_vecTarget_mod (tvec : Word) (cause : Nat) (irq : Bool) : (vecTarget tvec cause irq).toNat % 4 = 0 := by
  have hb := toNat_and_not_three_mod tvec
  simp only [vecTarget]
  split
  · rw [BitVec.toNat_add, w64, BitVec.toNat_ofNat]
    omega
  · exact hb

theorem pcOk_enterS {r : Hart} (hr : Claim.pcOk r) (cause : Nat) (irq : Bool) (tval : Word) : Claim.pcOk (enterS r cause irq tval) :=
  ⟨toNat_vecTarget_mod _ _ _, hr.1, hr.2.2⟩

theorem pcOk_enterM {r : Hart} (hr : Claim.pcOk r) (cause : Nat) (irq : Bool) (tval : Word) : Claim.pcOk (enterM r cause irq tval) :=
  ⟨toNat_vecTarget_mod _ _ _, hr.2.1, hr.1⟩

theorem Aligned.releaseUnits {s : State} (hs : Aligned s) (die units : Nat) : Aligned (releaseUnits s die units) := by
  unfold Machine.releaseUnits
  split <;> exact hs

theorem Aligned.withdrawLeave {s : State} (hs : Aligned s) (h : Nat) : Aligned (withdrawLeave s h) := by
  unfold Machine.withdrawLeave
  extract_lets die r s1
  have h1 : Aligned s1 := by
    simp only [s1]
    split
    · exact hs
    · exact (hs.releaseUnits _ _).updHart fun _ hq => hq
  split
  · exact h1
  · exact Aligned.updHart (s := updDie s1 die _) h1 fun _ hq => hq

theorem Aligned.withdraw {s : State} (hs : Aligned s) (h : Nat) : Aligned (withdraw s h) :=
  Aligned.updHart (s := withdrawAcq (Machine.withdrawLeave s h) h) (hs.withdrawLeave h) fun _ hr => hr

theorem Aligned.stopHart {s : State} (hs : Aligned s) (h : Nat) : Aligned (stopHart s h) := by
  unfold Machine.stopHart
  split
  · exact hs.withdraw h
  · exact hs

theorem Aligned.stubEnd {s : State} (hs : Aligned s) (h cause : Nat) (irq : Bool) (tval : Word) : Aligned (stubEnd s h cause irq tval) := by
  have h1 : Aligned (Machine.updHart s h fun r => enterM r cause irq tval) := hs.updHart fun r hr => pcOk_enterM hr cause irq tval
  simp only [Machine.stubEnd]
  split
  · exact h1
  · split
    · exact h1
    · exact Aligned.foldl ((aligned_setGang _ _ _).2 h1) _ fun t k ht => ht.stopHart k

theorem Aligned.takeException {s : State} (hs : Aligned s) (h cause : Nat) (tval : Word) : Aligned (takeException s h cause tval) := by
  have hw := hs.withdraw h
  simp only [Machine.takeException]
  split_ifs
  · exact hw.setHart (r := { hartOf (Machine.withdraw s h) h with pbuf := none }) (hw h)
  · exact hw.setHart (pcOk_enterM (hw h) _ _ _)
  · exact hw.setHart (pcOk_enterS (hw h) _ _ _)
  · exact hw.stubEnd _ _ _ _

theorem Aligned.parkMe {s : State} (hs : Aligned s) (va kind src : Nat) : Aligned (parkMe s va kind src) := by
  have h1 : Aligned (postFault s (hartCtx s s.cur) va kind src (.hart s.cur)).1 := by
    simp only [postFault]
    split <;> exact hs
  exact h1.updMe fun _ hr => hr

/-- However an instruction ends, its end keeps alignment. -/
theorem aligned_of_finish {i : Instr} {r : Res} {t : State} (hr : Ends Aligned r) (h : finish i r = .next t) : Aligned t := by
  match r, hr with
  | .ok s, hr =>
    obtain rfl := Host.Outcome.next.inj h
    exact Aligned.updMe hr fun _ => pcOk_retire
  | .error (.trap s c v), hr =>
    obtain rfl := Host.Outcome.next.inj h
    refine Aligned.takeException ?_ _ _ _
    exact Aligned.updMe hr fun _ hq => hq
  | .error (.wait s), hr =>
    obtain rfl := Host.Outcome.next.inj h
    exact Aligned.updMe hr fun _ hq => hq
  | .error (.pageFault s va k n), hr =>
    obtain rfl := Host.Outcome.next.inj h
    exact Aligned.parkMe hr va k n
  | .error (.stop s), hr =>
    obtain rfl := Host.Outcome.next.inj h
    exact hr

end Sys2Proof.Machine
end

section
/-!
SUPPORT. Vector instructions and alignment: their bodies raise or wait in the state that they found, or end with their hart's pc moved on by 4.
-/
namespace Sys2Proof.Machine

/-! ### The registers of a hart -/

@[simp] theorem pcOk_setTags (r : Hart) (base n t : Nat) : Claim.pcOk (setTags r base n t) ↔ Claim.pcOk r := pcOk_congr (by simp) (by simp)
@[simp] theorem pcOk_wrGroup (r : Hart) (w base n g : Nat) : Claim.pcOk (wrGroup r w base n g) ↔ Claim.pcOk r :=
  pcOk_congr (by simp) (by simp)
@[simp] theorem pcOk_hartSetTag (r : Hart) (n t : Nat) : Claim.pcOk (hartSetTag r n t) ↔ Claim.pcOk r := Iff.rfl
@[simp] theorem pcOk_wrScale (r : Hart) (lanes base : Nat) (f : Fmt) (blk j v : Nat) :
    Claim.pcOk (wrScale r lanes base f blk j v) ↔ Claim.pcOk r := Iff.rfl

@[simp] theorem pcOk_wrVec (e : VEnv) (r : Hart) (base n g tag : Nat) : Claim.pcOk (wrVec e r base n g tag) ↔ Claim.pcOk r := by
  unfold wrVec
  split <;> simp

/-- The blocks of a conversion write registers and scales. -/
theorem pcOk_wrValues {r : Hart} (hr : Claim.pcOk r) (lanes base n : Nat) (t : Fmt) (blk : Nat) (rm : Rnd) (vl : Nat) (act : Nat → Bool)
    (val : Nat → FVal) (st : NumSt) : Claim.pcOk (wrValues r lanes base n t blk rm vl act val st).1 := by
  simp only [wrValues]
  split
  · simpa using hr
  · rw [pcOk_wrGroup]
    refine List.foldlRecOn (motive := fun a : Nat × Hart × NumSt => Claim.pcOk a.2.1) _ _ hr fun a ha j _ => ?_
    split
    · simpa using ha
    · exact ha

/-! ### Checks -/

/-- A step without a value, and what follows it. -/
theorem Ends.seq {α : Type} {Q : α → Prop} {r : Except Exc Unit} {k : Except Exc α} (hr : Ends (fun _ => True) r) (hk : Ends Q k) :
    Ends Q (r >>= fun _ => k) := hr.bind fun _ _ => hk

theorem ends_orTrap {s : State} (hs : Aligned s) (c : Bool) (cause : Nat) (tval : Word) : Ends (fun _ => True) (orTrap c s cause tval) := by
  unfold orTrap
  split
  · trivial
  · exact hs

theorem ends_orIllegal {s : State} (hs : Aligned s) (c : Bool) (i : Instr) : Ends (fun _ => True) (orIllegal c s i) := ends_orTrap hs ..
theorem ends_vecLegal {s : State} (hs : Aligned s) (i : Instr) (e : VEnv) (r ok : Bool) : Ends (fun _ => True) (vecLegal s i e r ok) :=
  ends_orTrap hs ..
theorem ends_vecTags {s : State} (hs : Aligned s) (i : Instr) (e : VEnv) (ts : List (Nat × Nat × Nat)) :
    Ends (fun _ => True) (vecTags s i e ts) := ends_orTrap hs ..
theorem ends_vecUniform {s : State} (hs : Aligned s) (i : Instr) (e : VEnv) (b : Nat) : Ends (fun _ => True) (vecUniform s i e b) :=
  ends_orTrap hs ..

theorem ends_vecReady {s : State} (hs : Aligned s) : Ends (fun _ => True) (vecReady s) := by
  unfold vecReady
  split
  · exact hs
  · trivial

/-- What a vector instruction sees at issue is its hart's record. -/
theorem ends_vecEnv {s : State} (hs : Aligned s) (i : Instr) (pg : Nat) : Ends (fun e => Claim.pcOk e.h) (vecEnv s i pg) := by
  simp only [vecEnv]
  split
  · exact hs.me
  · exact hs

theorem ends_vecDone {s : State} (hs : Aligned s) {r : Hart} (hr : Claim.pcOk r) : Ends Aligned (vecDone s r) :=
  hs.setMe (pcOk_add_four (r := { r with xc := { r.xc with vstart := 0 } }) hr)

theorem aligned_of_vexec {i : Instr} {body : State → Res} {s t : State} (hs : Aligned s) (hb : Ends Aligned (body s))
    (h : vexec i body s = .next t) : Aligned t := aligned_of_finish ((ends_vecReady hs).seq hb) h

/-! ### Bodies -/

/-- A body that checks the class alone. -/
theorem ends_of_legal {s : State} (hs : Aligned s) {i : Instr} {pg : Nat} {ok : VEnv → Bool} {f : VEnv → Hart}
    (hf : ∀ e, Claim.pcOk e.h → Claim.pcOk (f e)) :
    Ends Aligned (do let e ← vecEnv s i pg; vecLegal s i e false (ok e); vecDone s (f e)) :=
  (ends_vecEnv hs i pg).bind fun e he => (ends_vecLegal hs ..).seq (ends_vecDone hs (hf e he))

/-- A body that checks the class and the tags. -/
theorem ends_of_tags {s : State} (hs : Aligned s) {i : Instr} {pg : Nat} {ok : VEnv → Bool} {ts : VEnv → List (Nat × Nat × Nat)}
    {f : VEnv → Hart} (hf : ∀ e, Claim.pcOk e.h → Claim.pcOk (f e)) :
    Ends Aligned (do let e ← vecEnv s i pg; vecLegal s i e false (ok e); vecTags s i e (ts e); vecDone s (f e)) :=
  (ends_vecEnv hs i pg).bind fun e he => (ends_vecLegal hs ..).seq ((ends_vecTags hs ..).seq (ends_vecDone hs (hf e he)))

variable {s : State} (hs : Aligned s) (i : Instr) (g : Fin 4) (b d : RegIx) (o : Opnd)
include hs

theorem ends_intOp (acc : Bool) (f : Nat → Nat → Nat → Nat → Nat) : Ends Aligned (intOp i g b d o acc f s) :=
  ends_of_tags hs fun _ he => (pcOk_wrVec ..).2 he

theorem ends_vcmpOp (u : Bool) (c : CmpCond) (p : Fin 8) : Ends Aligned (vcmpOp i g b o u c p s) :=
  ends_of_tags hs fun _ he => (pcOk_hartSetP ..).2 he

theorem ends_vclipOp (u : Bool) : Ends Aligned (vclipOp i g b d o u s) := ends_of_tags hs fun _ he => (pcOk_wrVec ..).2 he

theorem ends_bodyVwcvt (w : CvtWidth) (u : Bool) : Ends Aligned (bodyVwcvt g b w u d s) :=
  ends_of_tags hs fun _ he => (pcOk_wrVec ..).2 he

theorem ends_bodyViota (p : Fin 8) : Ends Aligned (bodyViota g p d s) := ends_of_legal hs fun _ he => (pcOk_wrVec ..).2 he

theorem ends_vrediOp (per : Nat) (r : RedOp) : Ends Aligned (vrediOp per g b r d s) := ends_of_tags hs fun _ he => (pcOk_wrVec ..).2 he

theorem ends_bitOp (f : Nat → Nat → Nat) : Ends Aligned (bitOp i g b d o f s) := ends_of_legal hs fun _ he => (pcOk_wrVec ..).2 he

theorem ends_selOp : Ends Aligned (selOp i g b d o s) := ends_of_legal hs fun _ he => (pcOk_wrVec ..).2 he

theorem ends_slideOp (up : Bool) : Ends Aligned (slideOp i g b d o up s) := ends_of_legal hs fun _ he => (pcOk_wrVec ..).2 he

theorem ends_bodyVperm (a : RegIx) : Ends Aligned (bodyVperm g b a d s) := ends_of_legal hs fun _ he => (pcOk_wrVec ..).2 he

theorem ends_bcstOp : Ends Aligned (bcstOp i g d o s) := ends_of_legal hs fun _ he => (pcOk_wrVec ..).2 he

theorem ends_fpOp (acc : Bool) (f : FpFun) : Ends Aligned (fpOp i g b d o acc f s) := ends_of_tags hs fun _ he => (pcOk_wrVec ..).2 he

theorem ends_estOp (f : EstFun) : Ends Aligned (estOp i g b d f s) := ends_of_tags hs fun _ he => (pcOk_wrVec ..).2 he

theorem ends_vfcmpOp (c : FCmpCond) (p : Fin 8) : Ends Aligned (vfcmpOp i g b o c p s) :=
  ends_of_tags hs fun _ he => (pcOk_hartSetP ..).2 he

theorem ends_bodyVfsgn (m : SgnMode) : Ends Aligned (bodyVfsgn g b m d s) := ends_of_tags hs fun _ he => (pcOk_wrVec ..).2 he

theorem ends_vredfOp (per : Nat) (r : FRedOp) (rc : RndCode) : Ends Aligned (vredfOp per g b r rc d s) :=
  ends_of_tags hs fun e he => by
    split
    · exact (pcOk_wrVec ..).2 he
    · exact he

theorem ends_bodyVfcvt (t : Fmt) (rc : RndCode) : Ends Aligned (bodyVfcvt g b t rc d s) :=
  (ends_vecEnv hs _ _).bind fun e he => (ends_vecLegal hs ..).seq <| (ends_vecTags hs ..).seq <| (ends_vecUniform hs ..).seq <|
    ends_vecDone hs (by
      split
      · exact (pcOk_setTags ..).2 (pcOk_wrValues he ..)
      · exact he)

theorem ends_predWrite (p : Fin 8) (f : VEnv → Nat → Bool) : Ends Aligned (predWrite i g p f s) :=
  ends_of_legal hs fun _ he => (pcOk_hartSetP ..).2 he

theorem ends_bodyPmovToVector (p : Fin 8) : Ends Aligned (bodyPmovToVector g p d s) := ends_of_legal hs fun _ he => (pcOk_wrVec ..).2 he

theorem ends_setLength (vt : Nat) (a : RegIx) : Ends Aligned (setLength s vt a d) := by
  simp only [setLength]
  split <;> exact ends_vecDone hs ((pcOk_hartSetX ..).2 hs.me)

end Sys2Proof.Machine
end

section
/-!
SUPPORT. The scalar register instructions and alignment: jumps, returns, F and D, and the CSRs that hold an address to return to.
-/
namespace Sys2Proof.Machine

/-! ### Jumps and returns -/

/-- A jump checks its target. -/
theorem ends_jumpTo {s : State} (hs : Aligned s) (target : Word) : Ends Aligned (jumpTo s target) := by
  unfold jumpTo
  split
  · exact hs
  · next ht => exact hs.updMe fun r ⟨_, hret⟩ => ⟨by simpa using ht, hret⟩

theorem ends_baseSystem {s : State} (hs : Aligned s) (i : Instr) (b : BaseInstr) : Ends Aligned (baseSystem i b s) := by
  have hw := hs.withdrawLeave s.cur
  cases b with
  | ebreak =>
    simp only [baseSystem]
    split_ifs
    · exact hs
    · exact hs.updMe fun _ hr => hr
    · exact hs
  | mret =>
    simp only [baseSystem]
    split
    · exact hw.updMe fun r ⟨_, hsepc, hmepc⟩ => ⟨hmepc, hsepc, hmepc⟩
    · exact hs
  | sret =>
    simp only [baseSystem]
    split
    · exact hs
    · exact hw.updMe fun r ⟨_, hsepc, hmepc⟩ => ⟨hsepc, hsepc, hmepc⟩
  | _ => exact hs.nextPc

/-! ### F and D -/

theorem pcOk_orFFlags {r : Hart} (hr : Claim.pcOk r) (fl : Nat) : Claim.pcOk (orFFlags r fl) := by
  unfold orFFlags
  split <;> exact hr

theorem ends_fDone {s : State} (hs : Aligned s) (p : FPrec) (rd : RegIx) (n fl : Nat) : Ends Aligned (fDone s p rd n fl) :=
  ((hs.wrF rd _).updMe fun _ hr => pcOk_orFFlags hr (ieeeFlags fl)).nextPc

theorem ends_fDoneX {s : State} (hs : Aligned s) (rd : RegIx) (v : Word) (fl : Nat) : Ends Aligned (fDoneX s rd v fl) :=
  ((hs.wrX rd v).updMe fun _ hr => pcOk_orFFlags hr (ieeeFlags fl)).nextPc

theorem ends_fRound {s : State} (hs : Aligned s) (i : Instr) (rm : FRm) : Ends (fun _ => True) (fRound s i rm) := by
  simp only [fRound]
  generalize (if rm.toNat = 7 then fieldOf (me s).fcsr.toNat 7 5 else rm.toNat) = n
  split
  · trivial
  · exact hs

theorem ends_baseFp {s : State} (hs : Aligned s) (i : Instr) (b : BaseInstr) : Ends Aligned (baseFp i b s) := by
  cases b with
  | fma _ _ _ _ _ _ rm | farith _ _ _ _ _ rm | fsqrt _ _ _ rm | fcvtFromInt _ _ _ _ rm | fcvtFF _ _ _ rm =>
    exact (ends_fRound hs i rm).bind fun _ _ => ends_fDone hs _ _ _ _
  | fcvtToInt _ _ _ _ rm => exact (ends_fRound hs i rm).bind fun _ _ => ends_fDoneX hs _ _ _
  | fmisc _ _ _ _ _ | fmvFromX _ _ _ => exact ends_fDone hs _ _ _ _
  | fcmp _ _ _ _ _ | fclass _ _ _ | fmvToX _ _ _ => exact ends_fDoneX hs _ _ _
  | _ => exact hs.nextPc

/-! ### CSRs -/

theorem aligned_of_sameButCtr {s t : State} (h : sameButCtr s t) : Aligned t ↔ Aligned s := by
  obtain ⟨c, rfl⟩ := h
  exact Iff.rfl

/-- The two CSRs that hold an address to return to drop its two lowest bits; the other privileged ones hold none. -/
theorem csrWritePriv_returns {p : PCsr} (hp : p.sepc.toNat % 4 = 0 ∧ p.mepc.toNat % 4 = 0) (n : Nat) (v : Word) :
    (csrWritePriv p n v).sepc.toNat % 4 = 0 ∧ (csrWritePriv p n v).mepc.toNat % 4 = 0 := by
  obtain ⟨hs, hm⟩ := hp
  unfold csrWritePriv
  split
  case h_7 => exact ⟨toNat_and_not_three_mod v, hm⟩
  case h_21 => exact ⟨hs, toNat_and_not_three_mod v⟩
  case h_11 => split <;> exact ⟨hs, hm⟩
  all_goals exact ⟨hs, hm⟩

theorem Aligned.updP {s : State} (hs : Aligned s) {f : PCsr → PCsr}
    (hf : ∀ p, p.sepc.toNat % 4 = 0 ∧ p.mepc.toNat % 4 = 0 → (f p).sepc.toNat % 4 = 0 ∧ (f p).mepc.toNat % 4 = 0) : Aligned (updP s f) :=
  hs.updMe fun _ ⟨hpc, hret⟩ => ⟨hpc, hf _ hret⟩

theorem Aligned.cycleStop {s : State} (hs : Aligned s) (v : Word) : Aligned (cycleStop s v) := by
  simp only [Machine.cycleStop]
  split
  · exact ((aligned_of_sameButCtr (sameButCtr_cycleRead s)).2 hs).updP fun _ hp => hp
  · exact hs

theorem Aligned.csrWrite {s : State} (hs : Aligned s) (n : Nat) (v : Word) : Aligned (csrWrite s n v) := by
  have hn : ∀ n, Aligned (if 0x800 ≤ n ∧ n ≤ 0x809 then updX s fun x => csrWriteUser x n v
      else if 0x5C0 ≤ n ∧ n ≤ 0x5C6 then updX s fun x => csrWriteSuper x (decide ((Machine.me s).priv = .m)) n v
      else Machine.updP (if n = 0x320 then Machine.cycleStop s v else s) fun p => csrWritePriv p n v) := fun n => by
    split_ifs
    · exact hs.updMe fun _ hr => hr
    · exact hs.updMe fun _ hr => hr
    · exact (hs.cycleStop v).updP fun _ hp => csrWritePriv_returns hp n v
    · exact hs.updP fun _ hp => csrWritePriv_returns hp n v
  unfold Machine.csrWrite
  split
  · exact hs.updMe fun _ hr => hr
  · exact hs.updMe fun _ hr => hr
  · exact hs.updMe fun _ hr => hr
  · exact hn n

/-! ### The instructions -/

theorem aligned_of_csrAccess {op : CsrOp} {imm : Bool} {csr : BitVec 12} {rd src : RegIx} {s t : State} (hs : Aligned s)
    (h : execCsrAccess op imm csr rd src s = .next t) : Aligned t := by
  refine aligned_of_finish ((ends_orIllegal hs _ _).seq ?_) h
  split
  · exact hs
  · split
    · exact hs
    · next r old hr =>
      have h1 := (aligned_of_sameButCtr (sameButCtr_csrRead hr)).2 hs
      refine Aligned.nextPc (Aligned.wrX ?_ _ _)
      split
      · exact h1.csrWrite _ _
      · exact h1

theorem aligned_of_ecall {s t : State} (hs : Aligned s) (h : execEcall s = .next t) : Aligned t := by
  refine aligned_of_finish ?_ h
  dsimp only
  split
  · split
    · refine Aligned.nextPc (Aligned.updMe hs ?_)
      exact fun _ hr => hr
    · exact hs
  · exact hs
  · exact hs

theorem aligned_of_baseIsaInstruction {b : BaseInstr} {s t : State} (hs : Aligned s) (h : execBaseIsaInstruction b s = .next t) :
    Aligned t := by
  refine aligned_of_finish ((ends_orIllegal hs _ _).seq ?_) h
  cases b with
  | jal rd _ | jalr rd _ _ => exact (ends_jumpTo hs _).bind fun _ hj => hj.wrX rd _
  | branch o a b imm =>
    dsimp only
    split
    · exact ends_jumpTo hs _
    · exact hs.nextPc
  | lui rd _ | auipc rd _ | opImm _ rd _ _ | shImm _ rd _ _ | addiw rd _ _ | shImmW _ rd _ _ | op _ rd _ _ | opW _ rd _ _ | unary _ rd _ =>
    exact (hs.wrX rd _).nextPc
  | ebreak | mret | sret | wfi => exact ends_baseSystem hs _ _
  | _ => exact ends_baseFp hs _ _

end Sys2Proof.Machine
end

section
/-!
SUPPORT. Memory accesses and alignment: translation, caches, buffers, writes at the sole writer, releases and acquires change no hart's pc.
-/
namespace Sys2Proof.Machine

/-! ### Translation -/

theorem aligned_fst_ite {α : Type} {c : Prop} [Decidable c] {q r : State × α} (hq : Aligned q.1) (hr : Aligned r.1) :
    Aligned (if c then q else r).1 := by
  split
  · exact hq
  · exact hr

/-- A walk enters pointers into the die's cache, and may take a free value. -/
theorem Aligned.walkFrom {s : State} (hs : Aligned s) (n die asid tid va a : Nat) : Aligned (walkFrom n s die asid tid va a).1 := by
  induction n generalizing s a with
  | zero => exact hs
  | succ n ih =>
    unfold Machine.walkFrom
    extract_lets pa
    split
    · exact hs
    · refine aligned_fst_ite hs <| aligned_fst_ite hs <| aligned_fst_ite hs <| aligned_fst_ite ?_ <| aligned_fst_ite hs <|
        aligned_fst_ite hs <| aligned_fst_ite hs <| aligned_fst_ite (aligned_fst_ite hs ?_) hs
      · exact aligned_fst_ite hs (ih ((aligned_updDie ..).2 hs) _)
      · exact aligned_fst_ite (q := (_, _)) hs hs

theorem Aligned.walk {s : State} (hs : Aligned s) (die : Nat) (c : ACtx) (va : Nat) : Aligned (walk s die c va).1 := by
  simp only [Machine.walk]
  repeat' split
  all_goals exact hs.walkFrom _ _ _ _ _ _

theorem aligned_mem_ite {α : Type} {c : Prop} [Decidable c] {o p : Option (State × α)} (ho : ∀ r ∈ o, Aligned r.1)
    (hp : ∀ r ∈ p, Aligned r.1) : ∀ r ∈ (if c then o else p), Aligned r.1 := by
  split
  · exact ho
  · exact hp

theorem aligned_mem_some {α : Type} {s : State} (hs : Aligned s) (a : α) : ∀ r ∈ some (s, a), Aligned r.1 := by
  rintro r ⟨⟩
  exact hs

theorem Aligned.fillTlb {s : State} (hs : Aligned s) (core slice : Nat) (e : TlbEnt) : Aligned (fillTlb s core slice e) := hs

/-- A held leaf is entered anew, and its A and D bits may be set in memory. -/
theorem Aligned.useLeaf {s : State} (hs : Aligned s) (c : ACtx) (k : AKind) (u : Use) (va slice : Nat) (e : TlbEnt) :
    ∀ r ∈ useLeaf s c k u va slice e, Aligned r.1 := by
  unfold Machine.useLeaf
  extract_lets p wr kind pa frame
  refine aligned_mem_ite (aligned_mem_some hs _) <| aligned_mem_ite (aligned_mem_some hs _) ?_
  split
  refine aligned_mem_ite (aligned_mem_some (hs.fillTlb _ _ _) _) <| aligned_mem_ite (aligned_mem_some (hs.fillTlb _ _ _) _) <|
    aligned_mem_ite ?_ <| aligned_mem_some (Aligned.fillTlb ?_ _ _ _) _
  · rintro r ⟨⟩
  · exact (hs.physWrite _ _ _ _).killResv _ _

theorem Aligned.translateGlobal {s : State} (hs : Aligned s) (n : Nat) (c : ACtx) (k : AKind) (u : Use) (va : Nat) (fresh : Bool) :
    Aligned (translateGlobal n s c k u va fresh).1 := by
  induction n generalizing s fresh with
  | zero => exact hs
  | succ n ih =>
    unfold Machine.translateGlobal
    extract_lets die slice held
    clear_value held
    split
    · split
      · next r hr => exact hs.useLeaf _ _ _ _ _ _ _ hr
      · exact ih hs true
    · split
      · exact hs
      · have hw := hs.walk die c va
        split
        · next hq =>
          rw [hq] at hw
          exact hw
        · next hq =>
          rw [hq] at hw
          exact hw
        · next t p lvl addr hq =>
          have ht : Aligned t := by
            rw [hq] at hw
            exact hw
          extract_lets size e
          split
          · next r hr => exact ht.useLeaf _ _ _ _ _ _ _ hr
          · exact ih ht true

theorem Aligned.translate {s : State} (hs : Aligned s) (c : ACtx) (k : AKind) (u : Use) (va : Nat) : Aligned (translate s c k u va).1 := by
  unfold Machine.translate
  split
  · exact hs
  · split
    · exact hs
    · split <;> exact hs
  · exact aligned_fst_ite hs (hs.translateGlobal _ _ _ _ _ _)

theorem ends_myTranslate {s : State} (hs : Aligned s) (k : AKind) (u : Use) (va src : Nat) :
    Ends (fun p => Aligned p.1) (myTranslate s k u va src) := by
  have ht := hs.translate (accessCtx s k) k u va
  unfold myTranslate
  split
  all_goals
    next hq =>
      rw [hq] at ht
      exact ht

/-! ### The register windows -/

theorem Aligned.takeReg {s : State} (hs : Aligned s) (o : Nat) : Aligned (takeReg s o).1 := by
  unfold Machine.takeReg
  split
  · unfold harvest
    exact aligned_fst_ite hs (hs.physWrite _ _ _ _)
  · exact hs

theorem Aligned.readEffect {s : State} (hs : Aligned s) (l : Loc) (n : Nat) : Aligned (readEffect s l n) := by
  unfold Machine.readEffect
  split
  · unfold regTouch
    exact hs.foldl _ fun _ _ ht => ht.takeReg _
  · exact hs

/-! ### At the sole writer -/

theorem Aligned.locSetPoison {s : State} (hs : Aligned s) (l : Loc) (b : Bool) : Aligned (locSetPoison s l b) := by
  cases l <;> exact hs

theorem Aligned.healWords {s : State} (hs : Aligned s) (l : Loc) (n : Nat) : Aligned (healWords s l n) := by
  unfold Machine.healWords
  split
  · refine hs.foldl _ fun _ _ ht => ?_
    split
    · exact ht.locSetPoison _ _
    · exact ht
  · exact hs

theorem Aligned.homeWrite {s : State} (hs : Aligned s) (xd : Word) (l : Loc) (n v : Nat) : Aligned (homeWrite s xd l n v) := by
  refine Aligned.healWords (Aligned.killResv ?_ _ _) _ _
  cases l with
  | phys pa mt key => exact ((hs.physWrite _ _ _ _).markDirty _ _).markDirty _ _
  | tile c off => exact hs
  | sdm c off => exact hs
  | mmio off => exact hs

/-! ### The caches and the write-combining buffer -/

theorem Aligned.writeBack {s : State} (hs : Aligned s) (line : Nat) (c : CLine) : Aligned (writeBack s line c) := by
  unfold Machine.writeBack
  split
  · exact hs
  · refine Aligned.killResv (Aligned.foldl (Aligned.markDirty (hs.foldl _ fun _ _ ht => ?_) _ _) _ fun _ _ ht => ?_) _ _
    · split
      · exact ht.physSetByte _ _ _
      · exact ht
    · split <;> exact ht

theorem Aligned.flushLines {s : State} (hs : Aligned s) (core : Nat) (p : Nat → CLine → Bool) : Aligned (flushLines s core p) :=
  (aligned_updCore ..).2 (hs.foldl _ fun _ _ ht => ht.writeBack _ _)

theorem Aligned.cleanLines {s : State} (hs : Aligned s) (core : Nat) (p : Nat → CLine → Bool) : Aligned (cleanLines s core p) :=
  (aligned_updCore ..).2 (hs.foldl _ fun _ _ ht => ht.writeBack _ _)

theorem Aligned.fillLine {s : State} (hs : Aligned s) (c : ACtx) (line key va : Nat) : Aligned (fillLine s c line key va) := by
  unfold Machine.fillLine
  split
  · split
    · exact hs
    · exact (aligned_updCore ..).2 (hs.flushLines _ _)
  · refine (aligned_updCore ..).2 ?_
    split
    · exact hs
    · split
      · exact hs.flushLines _ _
      · exact hs

theorem Aligned.cachedRead {s : State} (hs : Aligned s) (c : ACtx) (l : Loc) (va n : Nat) : Aligned (cachedRead s c l va n).1 := by
  unfold Machine.cachedRead
  split
  · extract_lets t
    split <;> exact hs.fillLine _ _ _ _
  · exact hs

theorem Aligned.cachedWrite {s : State} (hs : Aligned s) (c : ACtx) (l : Loc) (va n v : Nat) : Aligned (cachedWrite s c l va n v) := by
  unfold Machine.cachedWrite
  split
  · extract_lets t
    split <;> exact hs.fillLine _ _ _ _
  · exact hs.homeWrite _ _ _ _

theorem Aligned.flushLoc {s : State} (hs : Aligned s) (core : Nat) (l : Loc) : Aligned (flushLoc s core l) := by
  unfold Machine.flushLoc
  split
  · exact hs.flushLines _ _
  · exact hs

theorem Aligned.drainWc {s : State} (hs : Aligned s) (h : Nat) : Aligned (drainWc s h) :=
  (hs.foldl _ fun _ _ ht => ht.homeWrite _ _ _ _).updHart fun _ hr => hr

theorem Aligned.performAll {s : State} (hs : Aligned s) (h : Nat) : Aligned (performAll s h) := (hs.drainWc h).cleanLines _ _

/-! ### A hart's own accesses -/

theorem ends_placeOrder {s : State} (hs : Aligned s) (l : Loc) : Ends Aligned (placeOrder s l) := by
  unfold placeOrder
  split
  · split
    · exact hs.performAll _
    · exact hs
  · split <;> exact hs
  · exact hs

theorem ends_myOrder {s : State} (hs : Aligned s) (va n : Nat) (wr : Bool) (l : Loc) : Ends Aligned (myOrder s va n wr l) := by
  unfold myOrder
  split
  · exact hs
  · exact ends_placeOrder hs l

theorem ends_scalarRead {s : State} (hs : Aligned s) (va n : Nat) : Ends (fun p => Aligned p.1) (scalarRead s va n) := by
  unfold scalarRead
  split
  · exact hs
  · refine (ends_myTranslate hs ..).bind fun p hp => (ends_myOrder hp ..).bind fun t ht => ?_
    split
    · exact ht
    · split
      · exact ht
      · split
        · exact ht.cachedRead _ _ _ _
        · exact ht.readEffect _ _

theorem ends_scalarWrite {s : State} (hs : Aligned s) (va n v : Nat) : Ends Aligned (scalarWrite s va n v) := by
  unfold scalarWrite
  split
  · exact hs
  · refine (ends_myTranslate hs ..).bind fun p hp => (ends_myOrder hp ..).bind fun t ht => ?_
    dsimp only
    split
    · exact ht.updHart fun _ hr => hr
    · split
      · exact ht.cachedWrite _ _ _ _ _
      · exact ht.homeWrite _ _ _ _

/-! ### Releases and acquires -/

theorem ends_releaseCover {s : State} (hs : Aligned s) (h : Nat) (cov : Cover) (wide xfers : Bool) :
    Ends Aligned (releaseCover s h cov wide xfers) := by
  unfold releaseCover
  split
  · exact hs
  · rw [ends_ok]
    split
    · exact (hs.drainWc h).cleanLines _ _
    · exact hs.drainWc h

theorem Aligned.acquireCover {s : State} (hs : Aligned s) (core : Nat) (cov : Cover) : Aligned (acquireCover s core cov) :=
  (aligned_updCore ..).2 ((aligned_updCore ..).2 hs)

theorem ends_fenceAll {s : State} (hs : Aligned s) (xfers : Bool) : Ends Aligned (fenceAll s xfers) := by
  unfold fenceAll
  split
  · exact hs
  · exact hs.performAll _

theorem ends_amoRelease {s : State} (hs : Aligned s) (rl : Bool) (va : Nat) : Ends Aligned (amoRelease s rl va) := by
  unfold amoRelease
  split
  · unfold atomicRel
    extract_lets bs
    split <;> exact ends_releaseCover hs ..
  · exact hs

theorem Aligned.amoAcquire {s : State} (hs : Aligned s) (aq : Bool) (va : Nat) : Aligned (amoAcquire s aq va) := by
  unfold Machine.amoAcquire
  split
  · unfold atomicAcq
    extract_lets bs
    split
    · exact hs.acquireCover _ _
    · exact hs.flushLines _ _
  · exact hs

end Sys2Proof.Machine
end

section
/-!
SUPPORT. Every instruction on registers, and every scalar load, store, atomic and fence, keeps program counters aligned (spec/05 R76).
-/
namespace Sys2Proof.Machine

/-! ### Loads, stores, atomics, fences -/

theorem aligned_of_scalarLoad {k : LoadKind} {rd rs1 : RegIx} {imm : BitVec 12} {s t : State} (hs : Aligned s)
    (h : execScalarLoad k rd rs1 imm s = .next t) : Aligned t := by
  refine aligned_of_finish ((ends_orIllegal hs _ _).seq ((ends_scalarRead hs _ _).bind fun p hp => ?_)) h
  cases k with
  | flw | fld => exact (hp.wrF rd _).nextPc
  | _ => exact (hp.wrX rd _).nextPc

theorem aligned_of_scalarStore {k : StoreKind} {rs2 rs1 : RegIx} {imm : BitVec 12} {s t : State} (hs : Aligned s)
    (h : execScalarStore k rs2 rs1 imm s = .next t) : Aligned t := by
  refine aligned_of_finish ?_ h
  exact (ends_orIllegal hs _ _).seq ((ends_scalarWrite hs _ _ _).bind fun _ ht => ht.nextPc)

theorem aligned_of_scalarAmo {op : AmoOp} {dbl aq rl : Bool} {rd rs1 rs2 : RegIx} {s t : State} (hs : Aligned s)
    (h : execScalarAmo op dbl aq rl rd rs1 rs2 s = .next t) : Aligned t := by
  refine aligned_of_finish ?_ h
  extract_lets n va d
  split
  · exact hs
  · refine (ends_myTranslate hs _ _ _ _).bind fun p hp => (ends_myOrder hp _ _ _ _).bind fun u hu => ?_
    split
    · exact hu
    · exact (ends_amoRelease hu _ _).bind fun v hv =>
        ((((hv.flushLoc _ _).homeWrite _ _ _ _).amoAcquire aq va).wrX rd _).nextPc

theorem aligned_of_lr {dbl aq rl : Bool} {rd rs1 : RegIx} {s t : State} (hs : Aligned s) (h : execLr dbl aq rl rd rs1 s = .next t) :
    Aligned t := by
  refine aligned_of_finish ?_ h
  extract_lets n va
  split
  · exact hs
  · refine (ends_myTranslate hs _ _ _ _).bind fun p hp => (ends_myOrder hp _ _ _ _).bind fun u hu => ?_
    split
    · exact hu
    · refine (ends_amoRelease hu _ _).bind fun v hv =>
        Aligned.nextPc (Aligned.wrX (Aligned.updMe ((hv.flushLoc _ _).amoAcquire aq va) ?_) rd _)
      exact fun _ hr => hr

theorem aligned_of_sc {dbl aq rl : Bool} {rd rs1 rs2 : RegIx} {s t : State} (hs : Aligned s)
    (h : execSc dbl aq rl rd rs1 rs2 s = .next t) : Aligned t := by
  refine aligned_of_finish ?_ h
  extract_lets n va d
  split
  · exact hs
  · refine (ends_myTranslate hs _ _ _ _).bind fun p hp => (ends_myOrder hp _ _ _ _).bind fun u hu =>
      (ends_amoRelease hu _ _).bind fun v hv => ?_
    have hf := hv.flushLoc (myCore v) p.2
    dsimp only
    split
    · refine Aligned.nextPc (Aligned.wrX (Aligned.updMe ((hf.homeWrite _ _ _ _).amoAcquire aq va) ?_) rd 0)
      exact fun _ hr => hr
    · refine Aligned.nextPc (Aligned.wrX (Aligned.updMe hf ?_) rd 1)
      exact fun _ hr => hr

theorem aligned_of_fence {fm pred succ : BitVec 4} {s t : State} (hs : Aligned s) (h : execFence fm pred succ s = .next t) : Aligned t := by
  refine aligned_of_finish ?_ h
  have hk : ∀ u, Aligned u → Aligned (nextPc (if (succ &&& 10).toNat ≠ 0 then fenceAcq u true else u)) := fun u hu => by
    refine Aligned.nextPc ?_
    split
    · exact hu.acquireCover _ _
    · exact hu
  dsimp only
  split
  · exact (ends_fenceAll hs _).bind hk
  · exact hk s hs

theorem aligned_of_fenceI {s t : State} (hs : Aligned s) (h : execFenceI s = .next t) : Aligned t := by
  refine aligned_of_finish ?_ h
  exact Aligned.nextPc ((aligned_updCore ..).2 (hs.performAll _))

theorem aligned_of_scalarMemory {i : Instr} (hi : Claim.scalarMemory i = true) {s t : State} (hs : Aligned s) (h : exec i s = .next t) :
    Aligned t := by
  cases i with
  | scalarLoad => exact aligned_of_scalarLoad hs h
  | scalarStore => exact aligned_of_scalarStore hs h
  | scalarAmo => exact aligned_of_scalarAmo hs h
  | lr => exact aligned_of_lr hs h
  | sc => exact aligned_of_sc hs h
  | fence => exact aligned_of_fence hs h
  | fenceI => exact aligned_of_fenceI hs h
  | _ => cases hi

/-! ### Instructions on registers -/

theorem aligned_of_hint {w : IWord} {s t : State} (hs : Aligned s) (h : execHint w s = .next t) : Aligned t := by
  refine aligned_of_finish ?_ h
  exact hs.nextPc

theorem aligned_of_illegalInstruction {w : IWord} {s t : State} (hs : Aligned s) (h : execIllegalInstruction w s = .next t) : Aligned t := by
  refine aligned_of_finish ?_ h
  exact hs

theorem aligned_of_registerOnly {i : Instr} (hi : Claim.registerOnly i = true) {s t : State} (hs : Aligned s) (h : exec i s = .next t) :
    Aligned t := by
  cases i with
  | vaddVv | vaddVx | vaddVi | vsubVv | vsubVx | vsubVi | vmulVv | vmulVx | vmulVi | vmulhVv | vmulhVx | vmaccVv | vmaccVx | vmaccVi
  | vminVv | vminVx | vminVi | vmaxVv | vmaxVx | vmaxVi | vshlVv | vshlVx | vshlVi | vshrVv | vshrVx | vshrVi =>
    refine aligned_of_vexec hs ?_ h
    exact ends_intOp hs _ _ _ _ _ _ _
  | vandVv | vandVx | vandVi | vorVv | vorVx | vorVi | vxorVv | vxorVx | vxorVi =>
    refine aligned_of_vexec hs ?_ h
    exact ends_bitOp hs _ _ _ _ _ _
  | vcmpVv | vcmpVx | vcmpVi =>
    refine aligned_of_vexec hs ?_ h
    exact ends_vcmpOp hs _ _ _ _ _ _ _
  | vselVv | vselVx | vselVi =>
    refine aligned_of_vexec hs ?_ h
    exact ends_selOp hs _ _ _ _ _
  | vclipVv | vclipVx | vclipVi =>
    refine aligned_of_vexec hs ?_ h
    exact ends_vclipOp hs _ _ _ _ _ _
  | vslupVx | vslupVi | vsldnVx | vsldnVi =>
    refine aligned_of_vexec hs ?_ h
    exact ends_slideOp hs _ _ _ _ _ _
  | vbcstVx | vbcstVi =>
    refine aligned_of_vexec hs ?_ h
    exact ends_bcstOp hs _ _ _ _
  | vfaddVv | vfaddVf | vfaddVx | vfsubVv | vfsubVf | vfsubVx | vfmulVv | vfmulVf | vfmulVx | vfmaVv | vfmaVf | vfmaVx | vfminVv | vfminVf
  | vfminVx | vfmaxVv | vfmaxVf | vfmaxVx | vfdivVv | vfdivVf | vfdivVx | vfsqrt =>
    refine aligned_of_vexec hs ?_ h
    exact ends_fpOp hs _ _ _ _ _ _ _
  | vfrsqe | vfexp2e =>
    refine aligned_of_vexec hs ?_ h
    exact ends_estOp hs _ _ _ _ _
  | vfcmpVv | vfcmpVf | vfcmpVx =>
    refine aligned_of_vexec hs ?_ h
    exact ends_vfcmpOp hs _ _ _ _ _ _
  | plog | pbrk | pset | pmovToPredicate =>
    refine aligned_of_vexec hs ?_ h
    exact ends_predWrite hs _ _ _ _
  | vwcvt => exact aligned_of_vexec hs (ends_bodyVwcvt hs _ _ _ _ _) h
  | vperm => exact aligned_of_vexec hs (ends_bodyVperm hs _ _ _ _) h
  | viota => exact aligned_of_vexec hs (ends_bodyViota hs _ _ _) h
  | pmovToVector => exact aligned_of_vexec hs (ends_bodyPmovToVector hs _ _ _) h
  | vfsgn => exact aligned_of_vexec hs (ends_bodyVfsgn hs _ _ _ _) h
  | vfcvt => exact aligned_of_vexec hs (ends_bodyVfcvt hs _ _ _ _ _) h
  | vredi => exact aligned_of_vexec hs (ends_vrediOp hs _ _ _ _ _) h
  | vredf => exact aligned_of_vexec hs (ends_vredfOp hs _ _ _ _ _ _) h
  | vcmpr | vxpnd | vscan | vmvsx =>
    refine aligned_of_finish ((ends_vecReady hs).seq ?_) h
    exact ends_of_legal hs fun _ he => (pcOk_wrVec ..).2 he
  | vmvxs | pcnt | pfirst =>
    refine aligned_of_finish ((ends_vecReady hs).seq ?_) h
    exact ends_of_legal hs fun _ he => (pcOk_hartSetX ..).2 he
  | vtagg =>
    refine aligned_of_finish ((ends_vecReady hs).seq ?_) h
    exact (ends_vecEnv hs _ _).bind fun _ he => ends_vecDone hs ((pcOk_hartSetX ..).2 he)
  | vtags =>
    refine aligned_of_finish ((ends_vecReady hs).seq ?_) h
    exact (ends_vecEnv hs _ _).bind fun _ he => (ends_orIllegal hs _ _).seq (ends_vecDone hs ((pcOk_hartSetTag ..).2 he))
  | vsetvl | vsetvli =>
    refine aligned_of_finish ((ends_vecReady hs).seq ?_) h
    exact ends_setLength hs _ _ _
  | csrAccess => exact aligned_of_csrAccess hs h
  | hint => exact aligned_of_hint hs h
  | ecall => exact aligned_of_ecall hs h
  | baseIsaInstruction => exact aligned_of_baseIsaInstruction hs h
  | illegalInstruction => exact aligned_of_illegalInstruction hs h
  | _ => cases hi

/-- Settles O10: alignment is kept by each operation over the state, and so by whatever way a body ends. -/
theorem pcStaysAligned : Obligations.PcStaysAligned := by
  intro i s t hi hs h
  obtain hr | hm := hi
  · exact aligned_of_registerOnly hr hs h
  · exact aligned_of_scalarMemory hm hs h

end Sys2Proof.Machine
end

section
/-!
SUPPORT. What the operations on storage leave alone. A write to physical memory, whoever performs it, changes stored bytes and may end
reservations; caches, translations and releases change no register of a hart and no waiting request.
-/
namespace Sys2Proof.Machine

/-! ### Reservations -/

/-- A hart but for its reservation, which anyone's write may end (spec/07 R132). -/
def unreserved (h : Hart) : Hart := { h with resv := none }

/-- A map whose values change by `g` reads back changed by `g`. -/
theorem aget_map_values {α : Type} (g : α → α) {d : α} (hd : g d = d) (m : AMap α) (k : Nat) :
    aget d (m.map fun x => (x.1, g x.2)) k = g (aget d m k) := by
  induction m with
  | nil => exact hd.symm
  | cons x r ih =>
    obtain ⟨a, v⟩ := x
    simp only [aget, aget?, List.map_cons] at ih ⊢
    split_ifs
    · exact ih
    · rfl
    · exact hd.symm

/-- A hart after a write to the granules [g, g + k). -/
def endResv (g k : Nat) (h : Hart) : Hart :=
  match h.resv with
  | some x => if g ≤ x ∧ x < g + k then unreserved h else h
  | none => h

theorem unreserved_endResv (g k : Nat) (h : Hart) : unreserved (endResv g k h) = unreserved h := by
  unfold endResv
  split
  · split <;> rfl
  · rfl

theorem unreserved_killResv (s : State) (g k h : Nat) : unreserved (hartOf (killResv s g k) h) = unreserved (hartOf s h) := by
  simp only [killResv]
  split
  · rw [← unreserved_endResv g k (hartOf s h), hartOf, hartOf, ← aget_map_values (endResv g k) rfl]
    congr 2
    refine List.map_congr_left fun x _ => ?_
    cases hx : x.2.resv with
    | none => simp [endResv, hx]
    | some y => by_cases hy : g ≤ y ∧ y < g + k <;> simp [endResv, unreserved, hx, hy]
  · rfl

theorem killResv_eq (s : State) (g k : Nat) : killResv s g k = { s with harts := (killResv s g k).harts } := by
  simp only [killResv]
  split <;> rfl

/-! ### Physical memory -/

/-- `t` differs from `s` in physical memory, its keys and poison, and in reservations, at most. -/
def StoresOnly (s t : State) : Prop :=
  t = { s with harts := t.harts, mem := t.mem, lineKey := t.lineKey, unspec := t.unspec, poison := t.poison } ∧
    ∀ h, unreserved (hartOf t h) = unreserved (hartOf s h)

namespace StoresOnly

theorem refl (s : State) : StoresOnly s s := ⟨rfl, fun _ => rfl⟩

theorem trans {s t u : State} (h : StoresOnly s t) (k : StoresOnly t u) : StoresOnly s u := by
  obtain ⟨ht, hh⟩ := h
  obtain ⟨hu, hk⟩ := k
  exact ⟨hu.trans (by rw [ht]), fun x => (hk x).trans (hh x)⟩

theorem foldl {β : Type} {f : State → β → State} (l : List β) (s : State) (hf : ∀ t b, StoresOnly t (f t b)) :
    StoresOnly s (l.foldl f s) :=
  foldl_keeps l (refl s) fun t b ht => ht.trans (hf t b)

theorem setRawByte (s : State) (pa : Nat) (b : Byte) : StoresOnly s (setRawByte s pa b) := ⟨rfl, fun _ => rfl⟩

theorem setPoison (s : State) (pa : Nat) (b : Bool) : StoresOnly s (setPoison s pa b) := ⟨rfl, fun _ => rfl⟩

theorem killResv (s : State) (g k : Nat) : StoresOnly s (killResv s g k) := by
  refine ⟨?_, unreserved_killResv s g k⟩
  rw [killResv_eq]

theorem rekeyLine (s : State) (kid line : Nat) : StoresOnly s (rekeyLine s kid line) := by
  simp only [Machine.rekeyLine]
  split
  · exact refl s
  · refine trans ?_ ⟨rfl, fun _ => rfl⟩
    split
    · exact refl s
    · exact foldl _ _ fun t _ => setRawByte t _ _

theorem physSetByte (s : State) (kid pa : Nat) (b : Byte) : StoresOnly s (physSetByte s kid pa b) :=
  (rekeyLine s kid _).trans (setRawByte _ _ _)

theorem physWrite (s : State) (kid pa n v : Nat) : StoresOnly s (physWrite s kid pa n v) :=
  foldl _ _ fun t _ => physSetByte t _ _ _

theorem markDirty (s : State) (xd : Word) (pa : Nat) : StoresOnly s (markDirty s xd pa) := by
  simp only [Machine.markDirty]
  split
  · exact setRawByte _ _ _
  · exact refl s

theorem healWords (s : State) (pa mt key n : Nat) : StoresOnly s (healWords s (.phys pa mt key) n) := by
  unfold Machine.healWords
  split
  · refine foldl _ _ fun t i => ?_
    split
    · exact setPoison _ _ _
    · exact refl t
  · exact refl s

theorem homeWrite (s : State) (xd : Word) (pa mt key n v : Nat) : StoresOnly s (homeWrite s xd (.phys pa mt key) n v) :=
  (physWrite s _ pa n v).trans <| (markDirty _ _ _).trans <| (markDirty _ _ _).trans <| (killResv _ _ _).trans (healWords _ pa mt key n)

theorem writeBack (s : State) (line : Nat) (c : CLine) : StoresOnly s (writeBack s line c) := by
  unfold Machine.writeBack
  split
  · exact refl s
  · refine trans (foldl _ _ fun t i => ?_) <| (markDirty _ _ _).trans <| trans (foldl _ _ fun t i => ?_) (killResv _ _ _)
    · split
      · exact physSetByte _ _ _ _
      · exact refl t
    · split
      · exact setPoison _ _ _
      · exact refl t

/-- The lines of a list written back, one by one. -/
theorem writeBacks (s : State) (ls : List (Nat × CLine)) : StoresOnly s (ls.foldl (fun t kv => Machine.writeBack t kv.1 kv.2) s) :=
  foldl _ _ fun t kv => writeBack t kv.1 kv.2

/-- A hart's buffered bytes written one by one. -/
theorem drainWrites (s : State) (es : AMap (Byte × Nat × Word)) :
    StoresOnly s (es.foldl (fun t kv => Machine.homeWrite t kv.2.2.2 (.phys kv.1 1 kv.2.2.1) 1 kv.2.1.toNat) s) :=
  foldl _ _ fun t _ => homeWrite t _ _ _ _ _ _

variable {s t : State} (h : StoresOnly s t)
include h

theorem cur : t.cur = s.cur := (congrArg State.cur h.1).trans rfl
theorem acqs : t.acqs = s.acqs := (congrArg State.acqs h.1).trans rfl
theorem io : t.io = s.io := (congrArg State.io h.1).trans rfl
theorem cores : t.cores = s.cores := (congrArg State.cores h.1).trans rfl
theorem coreOf (c : Nat) : coreOf t c = coreOf s c := by rw [Machine.coreOf, h.cores]; rfl
theorem wc (k : Nat) : (hartOf t k).wc = (hartOf s k).wc := (congrArg Hart.wc (h.2 k) :)

end StoresOnly

/-! ### Registers of harts, and waiting requests -/

/-- A hart but for its reservation and its buffered writes. -/
def settled (h : Hart) : Hart := { h with resv := none, wc := [] }

/-- `t` has the turn and the waiting requests of `s`, and its harts but for reservations and buffered writes. -/
structure Keeps (s t : State) : Prop where
  cur : t.cur = s.cur
  acqs : t.acqs = s.acqs
  harts : ∀ h, settled (hartOf t h) = settled (hartOf s h)

theorem StoresOnly.keeps {s t : State} (h : StoresOnly s t) : Keeps s t :=
  ⟨h.cur, h.acqs, fun k => congrArg (fun r => { r with wc := [] }) (h.2 k)⟩

namespace Keeps

theorem refl (s : State) : Keeps s s := ⟨rfl, rfl, fun _ => rfl⟩

theorem trans {s t u : State} (h : Keeps s t) (k : Keeps t u) : Keeps s u :=
  ⟨k.cur.trans h.cur, k.acqs.trans h.acqs, fun x => (k.harts x).trans (h.harts x)⟩

theorem updCore (s : State) (c : Nat) (f : CoreSt → CoreSt) : Keeps s (updCore s c f) := ⟨rfl, rfl, fun _ => rfl⟩

section
variable {s t : State} (h : Keeps s t)
include h

theorem me : settled (me t) = settled (me s) := by
  rw [Machine.me, Machine.me, h.cur]
  exact h.harts s.cur

theorem myCore : myCore t = myCore s := by rw [Machine.myCore, h.cur]; rfl
theorem pc : (Machine.me t).pc = (Machine.me s).pc := (congrArg Hart.pc h.me :)
theorem x : (Machine.me t).x = (Machine.me s).x := (congrArg Hart.x h.me :)
theorem xc : (Machine.me t).xc = (Machine.me s).xc := (congrArg Hart.xc h.me :)
theorem rdX (r : RegIx) : rdX t r = rdX s r := by simp only [Machine.rdX, hartX, h.x]

/-- An access's context is that of a hart's privileged state. -/
theorem hartCtx (k : Nat) : hartCtx t k = hartCtx s k := by
  have hpr : (hartOf t k).pr = (hartOf s k).pr := (congrArg Hart.pr (h.harts k) :)
  have hxc : (hartOf t k).xc = (hartOf s k).xc := (congrArg Hart.xc (h.harts k) :)
  have hp : (hartOf t k).priv = (hartOf s k).priv := (congrArg Hart.priv (h.harts k) :)
  simp only [Machine.hartCtx, hpr, hxc, hp]

theorem myCtx : Machine.hartCtx t t.cur = Machine.hartCtx s s.cur := by rw [h.cur, h.hartCtx]

end

/-! ### Caches, buffers, releases and acquires -/

theorem flushLines (s : State) (core : Nat) (p : Nat → CLine → Bool) : Keeps s (flushLines s core p) := by
  unfold Machine.flushLines
  exact (StoresOnly.writeBacks s _).keeps.trans (updCore _ _ _)

theorem flushLoc (s : State) (core : Nat) (l : Loc) : Keeps s (flushLoc s core l) := by
  unfold Machine.flushLoc
  split
  · exact flushLines _ _ _
  · exact refl s

theorem cleanLines (s : State) (core : Nat) (p : Nat → CLine → Bool) : Keeps s (cleanLines s core p) := by
  unfold Machine.cleanLines
  exact (StoresOnly.writeBacks s _).keeps.trans (updCore _ _ _)

theorem drainWc (s : State) (h : Nat) : Keeps s (drainWc s h) := by
  refine (StoresOnly.drainWrites s (hartOf s h).wc).keeps.trans ⟨rfl, rfl, fun k => ?_⟩
  by_cases hk : k = h
  · subst hk
    simp only [Machine.drainWc, hartOf_updHart]
    rfl
  · simp only [Machine.drainWc, hartOf_updHart_other _ _ hk]

theorem performAll (s : State) (h : Nat) : Keeps s (performAll s h) := (drainWc s h).trans (cleanLines _ _ _)

theorem acquireCover (s : State) (core : Nat) (cov : Cover) : Keeps s (acquireCover s core cov) := by
  unfold Machine.acquireCover dropClean
  exact (updCore s core _).trans (updCore _ _ _)

theorem releaseCover {s t : State} {h : Nat} {cov : Cover} {wide xfers : Bool} (hr : releaseCover s h cov wide xfers = .ok t) :
    Keeps s t := by
  simp only [Machine.releaseCover] at hr
  split at hr
  · cases hr
  · obtain rfl := Except.ok.inj hr
    split
    · exact (drainWc s h).trans (cleanLines _ _ _)
    · exact drainWc s h

/-- A write at any location's sole writer. -/
theorem homeWrite (s : State) (xd : Word) (l : Loc) (n v : Nat) : Keeps s (homeWrite s xd l n v) := by
  have heal (u : State) : Keeps u (healWords u l n) := by
    unfold healWords
    split
    · refine foldl_keeps (P := Keeps u) _ (refl u) fun t i ht => ?_
      split
      · refine ht.trans ?_
        cases l <;> exact ⟨rfl, rfl, fun _ => rfl⟩
      · exact ht
    · exact refl u
  refine trans ?_ ((StoresOnly.killResv _ _ _).keeps.trans (heal _))
  cases l with
  | phys pa mt key => exact ((StoresOnly.physWrite _ _ _ _ _).trans ((StoresOnly.markDirty _ _ _).trans (StoresOnly.markDirty _ _ _))).keeps
  | tile | sdm | mmio => exact ⟨rfl, rfl, fun _ => rfl⟩

end Keeps

/-! ### Translation -/

/-- A property of states that a translation keeps, as it is kept by what a translation does: it enters translations and table pointers, takes
a free value, and sets the A and D bits of an entry in memory. -/
structure TranslationKeeps (P : State → Prop) : Prop where
  core : ∀ t c f, P t → P (updCore t c f)
  die : ∀ t d f, P t → P (updDie t d f)
  ctr : ∀ t n, P t → P { t with ctr := n }
  entry : ∀ t kid a v, P t → P (killResv (physWrite t kid a 8 v) (a / 64) 1)

namespace TranslationKeeps
variable {P : State → Prop} (hP : TranslationKeeps P)
include hP

theorem fillTlb {s : State} (hs : P s) (core slice : Nat) (e : TlbEnt) : P (fillTlb s core slice e) := by
  unfold Machine.fillTlb
  exact hP.die _ _ _ (hP.core _ _ _ hs)

omit hP in
theorem fst_ite {α : Type} {c : Prop} [Decidable c] {q r : State × α} (hq : P q.1) (hr : P r.1) : P (if c then q else r).1 := by
  split
  · exact hq
  · exact hr

theorem walkFrom {s : State} (hs : P s) (n die asid tid va a : Nat) : P (walkFrom n s die asid tid va a).1 := by
  induction n generalizing s a with
  | zero => exact hs
  | succ n ih =>
    unfold Machine.walkFrom
    extract_lets pa
    split
    · exact hs
    · refine fst_ite hs <| fst_ite hs <| fst_ite hs <| fst_ite (fst_ite hs (ih (hP.die _ _ _ hs) _)) <| fst_ite hs <| fst_ite hs <|
        fst_ite hs <| fst_ite (fst_ite hs ?_) hs
      exact fst_ite (q := (_, _)) (hP.ctr _ _ hs) (hP.ctr _ _ hs)

theorem walk {s : State} (hs : P s) (die : Nat) (c : ACtx) (va : Nat) : P (walk s die c va).1 := by
  simp only [Machine.walk]
  repeat' split
  all_goals exact hP.walkFrom hs _ _ _ _ _ _

omit hP in
theorem of_some_ite {α : Type} {c : Prop} [Decidable c] {o p : Option (State × α)} (ho : ∀ r, o = some r → P r.1)
    (hp : ∀ r, p = some r → P r.1) : ∀ r, (if c then o else p) = some r → P r.1 := by
  split
  · exact ho
  · exact hp

omit hP in
theorem of_some {α : Type} {s : State} (hs : P s) (a : α) : ∀ r, some (s, a) = some r → P r.1 := by
  rintro r ⟨⟩
  exact hs

/-- A held leaf is entered anew, and its A and D bits may be set in memory. -/
theorem useLeaf {s : State} (hs : P s) (c : ACtx) (k : AKind) (u : Use) (va slice : Nat) (e : TlbEnt) :
    ∀ r, useLeaf s c k u va slice e = some r → P r.1 := by
  unfold Machine.useLeaf
  extract_lets p wr kind pa frame
  refine of_some_ite (of_some hs _) <| of_some_ite (of_some hs _) ?_
  split
  refine of_some_ite (of_some (hP.fillTlb hs _ _ _) _) <| of_some_ite (of_some (hP.fillTlb hs _ _ _) _) <| of_some_ite ?_ <|
    of_some (hP.fillTlb (hP.entry _ _ _ _ hs) _ _ _) _
  rintro r ⟨⟩

theorem translateGlobal {s : State} (hs : P s) (n : Nat) (c : ACtx) (k : AKind) (u : Use) (va : Nat) (fresh : Bool) :
    P (translateGlobal n s c k u va fresh).1 := by
  induction n generalizing s fresh with
  | zero => exact hs
  | succ n ih =>
    unfold Machine.translateGlobal
    extract_lets die slice held
    clear_value held
    split
    · split
      · next hr => exact hP.useLeaf hs _ _ _ _ _ _ _ hr
      · exact ih hs true
    · refine fst_ite hs ?_
      have hw {t : State} {r : WalkRes} (hq : Machine.walk s die c va = (t, r)) : P t := by
        have ht := hP.walk hs die c va
        rwa [hq] at ht
      split
      · next hq => exact hw hq
      · next hq => exact hw hq
      · next hq =>
        extract_lets size e
        split
        · next hr => exact hP.useLeaf (hw hq) _ _ _ _ _ _ _ hr
        · exact ih (hw hq) true

theorem translate {s : State} (hs : P s) (c : ACtx) (k : AKind) (u : Use) (va : Nat) : P (translate s c k u va).1 := by
  unfold Machine.translate
  split
  · exact hs
  · refine fst_ite hs ?_
    split <;> exact hs
  · exact fst_ite hs (hP.translateGlobal hs _ _ _ _ _ _)

end TranslationKeeps

theorem Keeps.translate {s t : State} {c : ACtx} {k : AKind} {u : Use} {va : Nat} {r : Except TrFail Loc}
    (h : translate s c k u va = (t, r)) : Keeps s t := by
  have hP : TranslationKeeps (Keeps s) :=
    ⟨fun t c f h => h.trans ⟨rfl, rfl, fun _ => rfl⟩, fun t d f h => h.trans ⟨rfl, rfl, fun _ => rfl⟩,
      fun t n h => h.trans ⟨rfl, rfl, fun _ => rfl⟩,
      fun t kid a v h => h.trans ((StoresOnly.physWrite t kid a 8 v).trans (StoresOnly.killResv _ _ _)).keeps⟩
  have ht := hP.translate (Keeps.refl s) c k u va
  rwa [h] at ht

end Sys2Proof.Machine
end

section
/-!
SUPPORT. The binding table (spec/07 R125 to R127): which checks BINDR makes, which entry it takes, and what UNBINDR finds.
-/
namespace Sys2Proof.Machine

theorem exec_bindr (b a d : RegIx) (s : State) : exec (.bindr b a d) s = execBindr b a d s := rfl
theorem exec_unbindr (a : RegIx) (s : State) : exec (.unbindr a) s = execUnbindr a s := rfl

/-- The lowest entry of the 4,096 that no binding uses. -/
def freeEntry (bs : List Binding) : Option Nat := (List.range 4096).find? fun n => bs.all fun x => x.entry != n

theorem meets_eq_true_iff (bs : List Binding) (lo hi : Nat) :
    meets bs lo hi = true ↔ ∃ x ∈ bs, lo < x.base + x.len ∧ x.base < hi := by simp [meets]

theorem meets_eq_false_iff (bs : List Binding) (lo hi : Nat) :
    meets bs lo hi = false ↔ ∀ x ∈ bs, hi ≤ x.base ∨ x.base + x.len ≤ lo := by
  simp only [meets, List.any_eq_false, Bool.and_eq_true, decide_eq_true_eq]
  exact forall₂_congr fun x _ => by omega

theorem freeEntry_eq_none_iff (bs : List Binding) : freeEntry bs = none ↔ ∀ n < 4096, ∃ x ∈ bs, x.entry = n := by
  simp [freeEntry]

theorem freeEntry_eq_some {bs : List Binding} {n : Nat} (hn : n < 4096) (hf : ∀ x ∈ bs, x.entry ≠ n)
    (hl : ∀ m < n, ∃ x ∈ bs, x.entry = m) : freeEntry bs = some n := by
  rw [freeEntry, List.find?_range_eq_some]
  exact ⟨by simpa using hf, List.mem_range.2 hn, fun m hm => by simpa using hl m hm⟩

theorem freeEntry_isSome {bs : List Binding} (h : ∃ n < 4096, ∀ x ∈ bs, x.entry ≠ n) : ∃ n, freeEntry bs = some n := by
  refine Option.ne_none_iff_exists'.1 fun hn => ?_
  obtain ⟨n, hlt, hf⟩ := h
  obtain ⟨x, hx, he⟩ := (freeEntry_eq_none_iff bs).1 hn n hlt
  exact hf x hx he

/-- A check, and how the instruction ends where it fails. -/
theorem finish_orTrap (i : Instr) (c : Bool) (s : State) (cause : Nat) (v : Word) (k : Res) :
    finish i (orTrap c s cause v >>= fun _ => k) = if c = true then finish i k else .next (Claim.raised s cause v) := by
  cases c <;> rfl

section
variable (s : State) (b a d : RegIx)

/-- BINDR with its checks in their order (log entry 26). -/
theorem execBindr_eq : execBindr b a d s =
    let base := (rdX s a).toNat
    let len := (rdX s b).toNat
    let obj := (rdX s d).toNat
    let c := hartCtx s s.cur
    if (base % 256 = 0 ∧ len % 256 = 0) ∧ len ≠ 0 then
      if base + len ≤ 2 ^ 59 then
        if meets (bindings s c) base (base + len) = false then
          match freeEntry (bindings s c) with
          | none => .next (Claim.raised s 7 (rdX s a))
          | some n =>
            if obj % 16 = 0 then
              if obj < 2 ^ 59 then
                .next (Claim.passed (if c.ctxbase = 0 then s else areaWriteD s c (bindAddr c n) 32 (1 + base + len * 2 ^ 64 + obj * 2 ^ 128)))
              else .next (Claim.raised s 7 (rdX s a))
            else .next (Claim.raised s 6 (rdX s a))
        else .next (Claim.raised s 7 (rdX s a))
      else .next (Claim.raised s 7 (rdX s a))
    else .next (Claim.raised s 6 (rdX s a)) := by
  simp only [execBindr, freeEntry, finish_orTrap, w64_toNat, Bool.and_eq_true, beq_iff_eq, bne_iff_ne, decide_eq_true_eq, Bool.not_eq_true']
  cases (List.range 4096).find? fun n => (bindings s (hartCtx s s.cur)).all fun x => x.entry != n with
  | none => rfl
  | some n => simp only [finish_orTrap, beq_iff_eq, decide_eq_true_eq, finish_nextPc]

theorem execUnbindr_of_unbound (h : ∀ x ∈ bindings s (hartCtx s s.cur), x.base ≠ (rdX s a).toNat) :
    execUnbindr a s = .next (Claim.raised s 7 (rdX s a)) := by
  have hn : (bindings s (hartCtx s s.cur)).find? (fun y => y.base == (rdX s a).toNat) = none := by simpa using h
  simp only [execUnbindr, hn, w64_toNat, finish_trap]

theorem execUnbindr_of_bound {x : Binding} (h : (bindings s (hartCtx s s.cur)).find? (fun y => y.base == (rdX s a).toNat) = some x) :
    execUnbindr a s = .next (Claim.passed (areaWriteD (flushLines s (myCore s) (lineIn (meets [x]))) (hartCtx s s.cur)
      (bindAddr (hartCtx s s.cur) x.entry) 32 0)) := by
  simp only [execUnbindr, h, finish_nextPc]

end

theorem lineIn_meets_singleton (x : Binding) :
    lineIn (meets [x]) = fun _ l => decide (l.va < x.base + x.len) && decide (x.base < l.va + 64) := by
  funext _ l
  simp [lineIn, meets]

theorem bindings_of_no_context (s : State) {c : ACtx} (h : c.ctxbase = 0) : bindings s c = [] := if_pos h

/-- Settles O26: BINDR by its checks one after the other, UNBINDR by what it finds in the table. -/
theorem bindings_holds : Obligations.Bindings := by
  refine ⟨fun s b a d => ?_, fun s a => ⟨fun h => ?_, fun x h => ?_⟩⟩
  · intro base len obj c
    simp only [exec_bindr, execBindr_eq]
    refine ⟨fun h => ?_, fun hb hl h0 h => ?_, fun hb hl h0 h => ?_, fun hb hl h0 hr hm hf => ?_,
      fun hb hl h0 hr ho hg hc hm n hn hf hlow => ?_, fun hb hl h0 hr ho hg hc => ?_⟩
    · exact if_neg (by tauto)
    · rw [if_pos ⟨⟨hb, hl⟩, h0⟩]
      obtain h | h := h
      · exact if_neg (by omega)
      · split
        · exact if_neg (by simpa using (meets_eq_true_iff ..).2 h)
        · rfl
    · rw [if_pos ⟨⟨hb, hl⟩, h0⟩, (freeEntry_eq_none_iff _).2 h]
      simp only [ite_self]
    · obtain ⟨n, hn⟩ := freeEntry_isSome hf
      rw [if_pos ⟨⟨hb, hl⟩, h0⟩, if_pos hr, if_pos ((meets_eq_false_iff ..).2 hm), hn]
      exact ⟨fun h => if_neg h, fun h h1 => (if_pos h).trans (if_neg (by omega))⟩
    · rw [if_pos ⟨⟨hb, hl⟩, h0⟩, if_pos hr, if_pos ((meets_eq_false_iff ..).2 hm), freeEntry_eq_some hn hf hlow]
      dsimp only
      rw [if_pos ho, if_pos hg, if_neg hc]
      rfl
    · rw [if_pos ⟨⟨hb, hl⟩, h0⟩, if_pos hr, bindings_of_no_context s hc, if_pos (show meets [] _ _ = false from rfl),
        freeEntry_eq_some (n := 0) (by decide) (by simp) (by simp)]
      dsimp only
      rw [if_pos ho, if_pos hg, if_pos hc]
  · rw [exec_unbindr, execUnbindr_of_unbound s a h]
  · rw [exec_unbindr, execUnbindr_of_bound s a h, lineIn_meets_singleton]
    rfl

end Sys2Proof.Machine
end

section
/-!
SUPPORT. Fences (spec/07 R131, R132, R142): what a release, an acquire and a fence of everything leave of caches and buffers, and each
fence as a wait or a completion.
-/
namespace Sys2Proof.Machine

theorem exec_fencex (sc : Scope) (k : FenceKind) (s : State) : exec (.fencex sc k) s = execFencex sc k s := rfl
theorem exec_fence (fm pred succ : BitVec 4) (s : State) : exec (.fence fm pred succ) s = execFence fm pred succ s := rfl

@[simp] theorem me_passed (s : State) : me (Claim.passed s) = retire { me s with pc := (me s).pc + 4 } := by simp [Claim.passed]
@[simp] theorem passed_mem (s : State) : (Claim.passed s).mem = s.mem := rfl
@[simp] theorem coreOf_passed (s : State) (c : Nat) : coreOf (Claim.passed s) c = coreOf s c := rfl

/-! ### What is left of buffers and caches -/

theorem wc_drainWc (s : State) (h : Nat) : (hartOf (drainWc s h) h).wc = [] := by simp [drainWc]

/-- Writing lines back touches no core and no buffer. -/
theorem wc_cleanLines (s : State) (core : Nat) (p : Nat → CLine → Bool) (h : Nat) :
    (hartOf (cleanLines s core p) h).wc = (hartOf s h).wc :=
  (StoresOnly.writeBacks s _).wc h

theorem wc_performAll (s : State) : (me (performAll s s.cur)).wc = [] := by
  rw [me, (Keeps.performAll s s.cur).cur, performAll, wc_cleanLines, wc_drainWc]

theorem dcache_cleanLines (s : State) (core : Nat) (p : Nat → CLine → Bool) : (coreOf (cleanLines s core p) core).dcache =
    (coreOf s core).dcache.map fun kv => if p kv.1 kv.2 then (kv.1, { kv.2 with dirty := 0 }) else kv := by
  rw [cleanLines, coreOf_updCore, (StoresOnly.writeBacks s _).coreOf]

theorem dirty_performAll (s : State) (h : Nat) : ∀ d ∈ (coreOf (performAll s h) (coreOfHart h)).dcache, d.2.dirty = 0 := by
  intro d hd
  rw [performAll, dcache_cleanLines] at hd
  obtain ⟨e, -, rfl⟩ := List.mem_map.1 hd
  rfl

theorem coreOf_drainWc (s : State) (h c : Nat) : coreOf (drainWc s h) c = coreOf s c := (StoresOnly.drainWrites s _).coreOf c

theorem icache_performAll (s : State) (h c : Nat) : (coreOf (performAll s h) c).icache = (coreOf s c).icache := by
  have hw := (StoresOnly.writeBacks (drainWc s h) ((coreOf (drainWc s h) (coreOfHart h)).dcache.filter fun _ => true)).coreOf
  rw [performAll, cleanLines]
  by_cases hc : c = coreOfHart h
  · rw [hc, coreOf_updCore, hw, coreOf_drainWc]
  · rw [coreOf_updCore_other _ _ hc, hw, coreOf_drainWc]

/-- A line that an acquire leaves was there before, as dirty as it was; a clean one was outside the cover. -/
theorem mem_dcache_acquireCover {s : State} {core : Nat} {cov : Cover} {d : Nat × CLine}
    (hd : d ∈ (coreOf (acquireCover s core cov) core).dcache) :
    ∃ e ∈ (coreOf s core).dcache, d.2.dirty = e.2.dirty ∧ ¬ (lineIn cov e.1 e.2 = true ∧ e.2.dirty = 0) := by
  simp only [acquireCover, dropClean, coreOf_updCore, afilter, List.mem_map, List.mem_filter] at hd
  obtain ⟨e, ⟨he, hk⟩, rfl⟩ := hd
  refine ⟨e, he, ?_, by simpa [or_iff_not_imp_left] using hk⟩
  split <;> rfl

/-- Where nothing is bound, the implicit objects have every address. -/
theorem lineIn_unboundCover_nil (k : Nat) (c : CLine) : lineIn (unboundCover []) k c = true := by simp [lineIn, unboundCover, leaves]

theorem scopeWide_eq_false_iff (sc : Scope) : scopeWide sc = false ↔ sc = .hart ∨ sc = .core := by cases sc <;> simp [scopeWide]

@[simp] theorem me_fenceAcq (s : State) (w : Bool) : me (fenceAcq s w) = me s := by cases w <;> rfl
@[simp] theorem fenceAcq_mem (s : State) (w : Bool) : (fenceAcq s w).mem = s.mem := by cases w <;> rfl

theorem dirty_fenceAcq {s : State} (w : Bool) (h : ∀ d ∈ (coreOf s (myCore s)).dcache, d.2.dirty = 0) :
    ∀ d ∈ (coreOf (fenceAcq s w) (myCore s)).dcache, d.2.dirty = 0 := by
  cases w with
  | false => exact h
  | true =>
    intro d hd
    obtain ⟨e, he, hde, -⟩ := mem_dcache_acquireCover hd
    rw [hde, h e he]

/-! ### The fences -/

theorem finish_orIllegal (i : Instr) (c : Bool) (s : State) (k : Res) :
    finish i (orIllegal c s i >>= fun _ => k) = if c = true then finish i k else .next (Claim.raised s 2 (wordOf i)) :=
  finish_orTrap i c s 2 (wordOf i) k

variable (s : State)

/-- A fence of everything has waited for what it orders, or performs it and goes on. -/
theorem finish_fenceAll (i : Instr) (xfers : Bool) (k : State → State) :
    finish i (fenceAll s xfers >>= fun t => .ok (nextPc (k t))) =
      if ((xfers && hartTransfers s s.cur) || hartReds s s.cur || engineBlocks s s.cur) = true then .next (Claim.waits s i)
      else .next (Claim.passed (k (performAll s s.cur))) := by
  unfold fenceAll
  split
  · rfl
  · exact finish_nextPc _ _

theorem execFencex_illegal {sc : Scope} {k : FenceKind} (h : fencexOk sc k = false) :
    execFencex sc k s = .next (Claim.raised s 2 (wordOf (.fencex sc k))) := by
  simp only [execFencex, finish_orIllegal, h, Bool.false_eq_true, if_false]

theorem execFencex_eng : execFencex .hart .eng s =
    if hartTransfers s s.cur = true then .next (Claim.waits s (.fencex .hart .eng)) else .next (Claim.passed s) := by
  rw [execFencex, finish_orIllegal, if_pos (show fencexOk _ _ = true from rfl)]
  split
  · rfl
  · exact finish_nextPc _ _

theorem execFencex_acq {sc : Scope} (h : sc ≠ .bank) : execFencex sc .acq s = .next (Claim.passed (fenceAcq s (scopeWide sc))) := by
  rw [execFencex, finish_orIllegal, if_pos (by simpa [fencexOk] using h)]
  exact finish_nextPc _ _

theorem execFencex_rel {sc : Scope} (h : sc ≠ .bank) : execFencex sc .rel s =
    let cov := unboundCover (bindings s (hartCtx s s.cur))
    if (transferBlocks s s.cur cov || redBlocks s s.cur cov || engineBlocks s s.cur) = true then .next (Claim.waits s (.fencex sc .rel))
    else .next (Claim.passed (if scopeWide sc = true then cleanLines (drainWc s s.cur) (myCore s) (lineIn cov) else drainWc s s.cur)) := by
  rw [execFencex, finish_orIllegal, if_pos (by simpa [fencexOk] using h)]
  simp only [fenceRel, releaseCover, Bool.true_and]
  split
  · rfl
  · exact finish_nextPc _ _

theorem execFencex_full {sc : Scope} (h : sc ≠ .bank) : execFencex sc .full s =
    if (hartTransfers s s.cur || hartReds s s.cur || engineBlocks s s.cur) = true then .next (Claim.waits s (.fencex sc .full))
    else .next (Claim.passed (fenceAcq (performAll s s.cur) (scopeWide sc))) := by
  rw [execFencex, finish_orIllegal, if_pos (show fencexOk _ _ = true from rfl)]
  rw [if_neg h, finish_fenceAll, Bool.true_and]

theorem execFencex_bank : execFencex .bank .full s = finish (.fencex .bank .full) (bfenceOp false s) := by
  rw [execFencex, finish_orIllegal, if_pos (show fencexOk _ _ = true from rfl)]
  rfl

theorem me_drainWc_bank : (me (drainWc s s.cur)).bev = (me s).bev ∧ (me (drainWc s s.cur)).beva = (me s).beva :=
  ⟨(congrArg Hart.bev (Keeps.drainWc s s.cur).me :), (congrArg Hart.beva (Keeps.drainWc s s.cur).me :)⟩

/-- A fence of bank commands waits, raises the hart's pending bank error, or goes on. -/
theorem finish_bfenceOp (i : Instr) (g : Bool) : finish i (bfenceOp g s) =
    if bauPending s g = true then .next (Claim.waits s i)
    else if (me s).bev = true then
      .next (Claim.raised (updMe (drainWc s s.cur) fun h => { h with bev := false, beva := 0 }) 51 (me s).beva)
    else .next (Claim.passed (drainWc s s.cur)) := by
  obtain ⟨hb, ha⟩ := me_drainWc_bank s
  simp only [bfenceOp, hb, ha]
  split
  · rfl
  · split
    · rfl
    · exact finish_nextPc _ _

theorem ite_fenceAcq (p : Prop) [Decidable p] (t : State) : (if p then fenceAcq t true else t) = fenceAcq t (decide p) := by
  by_cases h : p <;> simp [h, fenceAcq]

theorem execFence_eq (fm pred succ : BitVec 4) : execFence fm pred succ s =
    let acq := decide ((succ &&& 10).toNat ≠ 0)
    if (pred &&& 5).toNat ≠ 0 then
      if (hartReds s s.cur || engineBlocks s s.cur) = true then .next (Claim.waits s (.fence fm pred succ))
      else .next (Claim.passed (fenceAcq (performAll s s.cur) acq))
    else .next (Claim.passed (fenceAcq s acq)) := by
  unfold execFence
  simp only [ite_fenceAcq]
  split
  · rw [finish_fenceAll s _ false fun t => fenceAcq t _, Bool.false_and, Bool.false_or]
  · exact finish_nextPc _ _

/-- O or W, and I or R, in a set of a FENCE. -/
theorem fence_ow_iff (p : BitVec 4) : (p &&& 5).toNat ≠ 0 ↔ p.toNat.testBit 2 = true ∨ p.toNat.testBit 0 = true := by
  revert p; decide
theorem fence_ir_iff (p : BitVec 4) : (p &&& 10).toNat ≠ 0 ↔ p.toNat.testBit 3 = true ∨ p.toNat.testBit 1 = true := by
  revert p; decide

/-- A hart that goes on after everything has been performed: its buffer is empty and its core's lines are clean. -/
theorem passed_performAll (w : Bool) : let t := Claim.passed (fenceAcq (performAll s s.cur) w)
    (me t).pc = (me s).pc + 4 ∧ (me t).x = (me s).x ∧ (me t).wc = [] ∧ (∀ d ∈ (coreOf t (myCore s)).dcache, d.2.dirty = 0) ∧
      t.mem = (performAll s s.cur).mem := by
  have hk := Keeps.performAll s s.cur
  refine ⟨by simp [hk.pc], by simp [hk.x], by simp [wc_performAll], ?_, by simp⟩
  have hd := dirty_fenceAcq (s := performAll s s.cur) w (by rw [hk.myCore]; exact dirty_performAll s s.cur)
  rwa [hk.myCore] at hd

/-- Settles O27: each fence waits or completes by its equation, and what is left of the caches and buffers is what performing everything,
and then acquiring, leaves. -/
theorem fences : Obligations.Fences := by
  refine ⟨⟨fun s sc k h => ?_, fun s => ?_, fun s sc h => ?_, fun s sc h => ?_, fun s sc h => ?_, fun s g i h => ?_⟩,
    fun s fm pred succ h => ?_, fun s fm pred succ h2 h0 => ?_, fun s => ?_⟩
  · refine execFencex_illegal s ?_
    obtain ⟨rfl, h⟩ | ⟨rfl | rfl, rfl⟩ := h
    · simpa [fencexOk] using h
    · rfl
    · rfl
  · rw [exec_fencex, execFencex_eng]
    exact ⟨fun h => if_pos h, fun h => if_neg (by simp [h])⟩
  · refine ⟨_, execFencex_acq s h, by simp, by simp, by simp, fun hs => ?_, fun hh hc hb d hd => ?_⟩
    · rw [(scopeWide_eq_false_iff sc).2 hs]
      rfl
    · have hw : scopeWide sc = true := by simpa [hh, hc] using (scopeWide_eq_false_iff sc).not
      rw [hw, fenceAcq, if_pos rfl, hb] at hd
      obtain ⟨e, -, hde, hn⟩ := mem_dcache_acquireCover hd
      rw [hde]
      exact fun h0 => hn ⟨lineIn_unboundCover_nil _ _, h0⟩
  · intro cov busy
    rw [exec_fencex, execFencex_rel s h]
    refine ⟨fun hb => if_pos hb, fun hb => (if_neg (Bool.eq_false_iff.1 hb)).trans ?_⟩
    simp only [← scopeWide_eq_false_iff]
    cases scopeWide sc <;> rfl
  · intro busy
    rw [exec_fencex, execFencex_full s h]
    obtain ⟨hpc, -, hwc, hd, hm⟩ := passed_performAll s (scopeWide sc)
    exact ⟨fun hb => if_pos hb, fun hb => ⟨_, if_neg (Bool.eq_false_iff.1 hb), hpc, hwc, hd, hm⟩⟩
  · have hi : exec i s = finish i (bfenceOp g s) := by
      obtain rfl | ⟨rfl, rfl⟩ := h
      · rfl
      · exact execFencex_bank s
    rw [hi, finish_bfenceOp]
    exact ⟨fun hp => if_pos hp, fun hp hb => (if_neg (by simp [hp])).trans (if_neg (by simp [hb])),
      fun hp hb => (if_neg (by simp [hp])).trans (if_pos hb)⟩
  · rw [exec_fence, execFence_eq]
    dsimp only
    rw [if_pos ((fence_ow_iff pred).2 h)]
    refine ⟨fun hb => if_pos (by simpa using hb), fun hr he => ⟨_, if_neg (by simp [hr, he]), ?_⟩⟩
    obtain ⟨hpc, hx, hwc, hd, hm⟩ := passed_performAll s (decide ((succ &&& 10).toNat ≠ 0))
    exact ⟨hpc, hwc, hd, hx, hm⟩
  · rw [exec_fence, execFence_eq]
    refine ⟨_, if_neg ?_, by simp, by simp, by simp, fun h3 h1 => ?_⟩
    · rw [fence_ow_iff, h2, h0]
      decide
    · rw [decide_eq_false (by rw [fence_ir_iff, h3, h1]; decide)]
      rfl
  · obtain ⟨hpc, hx, hwc, hd, hm⟩ := passed_performAll s false
    have hc : myCore (performAll s s.cur) = myCore s := (Keeps.performAll s s.cur).myCore
    refine ⟨_, finish_nextPc .fenceI _, hpc, hwc, hx, ?_, ?_, hm, fun c hn => ?_⟩
    · intro d hmem
      rw [coreOf_passed, hc, coreOf_updCore] at hmem
      exact hd d hmem
    · simp [hc]
    · rw [coreOf_passed, hc, coreOf_updCore_other _ _ hn, icache_performAll]

end Sys2Proof.Machine
end

section
/-!
SUPPORT. Sync objects (spec/07 R124, R128; spec/15 R278; spec/16 R335): word 0, what holds an access back, the end of ACQ and of REL, and
the requests that a home agent serves.
-/
namespace Sys2Proof.Machine

theorem exec_acq (sc : Scope) (m : AcqMode) (a d : RegIx) (s : State) : exec (.acq sc m a d) s = execAcq sc m a d s := rfl
theorem exec_rel (sc : Scope) (a : RegIx) (s : State) : exec (.rel sc a) s = execRel sc a s := rfl
theorem exec_syncObjectGrant (obj : Nat) (s : State) : exec (.syncObjectGrant obj) s = .next (grantWaiting s.acqs.length s obj) := rfl

/-! ### Word 0 of an object (spec/07 Table 7-4) -/

theorem objMode_eq (w : Nat) : objMode w = Claim.modeOf w := by simp [objMode, fieldOf, Claim.modeOf]
theorem objShr_eq (w : Nat) : objShr w = Claim.shrOf w := by simp [objShr, fieldOf, Claim.shrOf, Nat.shiftRight_eq_div_pow]

theorem objBad_iff (w : Nat) : objBad w = true ↔ Claim.objBroken w := by
  simp [objBad, Claim.objBroken, objMode_eq, objShr_eq]

/-- MODE and SHR put into word 0 leave its other bits. -/
theorem withField_mode_shr (w : Nat) {mode shr : Nat} (hm : mode < 4) (hs : shr < 65536) :
    withField (withField w 31 16 shr) 1 0 mode = Claim.objWord w mode shr := by
  simp only [withField, Claim.objWord, Nat.shiftRight_eq_div_pow]
  omega

theorem withField_mode (w : Nat) {mode : Nat} (hm : mode < 4) : withField w 1 0 mode = Claim.objWord w mode (Claim.shrOf w) := by
  simp only [withField, Claim.objWord, Claim.shrOf, Nat.shiftRight_eq_div_pow]
  omega

theorem objGrant_eq_some_iff (shared : Bool) (w w' : Nat) : objGrant shared w = some w' ↔ Claim.grants shared w w' := by
  have hs : Claim.shrOf w < 65536 := Nat.mod_lt _ (by decide)
  cases shared with
  | false => simp [objGrant, Claim.grants, objMode_eq, withField_mode, eq_comm]
  | true =>
    simp only [objGrant, Claim.grants, objMode_eq, objShr_eq, if_true, Option.ite_none_right_eq_some, Option.some.injEq, and_assoc]
    refine and_congr_right fun _ => and_congr_right fun h => ?_
    rw [withField_mode_shr w (by decide) (by omega), eq_comm]

theorem objGrant_eq_none {shared : Bool} {w : Nat} (h : ∀ w', ¬ Claim.grants shared w w') : objGrant shared w = none :=
  Option.eq_none_iff_forall_ne_some.2 fun w' hw => h w' ((objGrant_eq_some_iff ..).1 hw)

/-- A granted word fits in 8 bytes. -/
theorem grants_lt {shared : Bool} {w w' : Nat} (hw : w < 2 ^ 64) (h : Claim.grants shared w w') : w' < 2 ^ 64 := by
  cases shared with
  | false =>
    obtain ⟨-, rfl⟩ := h
    simp only [Claim.objWord, Claim.shrOf]
    omega
  | true =>
    obtain ⟨-, hs, rfl⟩ := h
    simp only [Claim.objWord]
    omega

theorem objRelease_eq_none {w : Nat} (rsn : Nat) (h : Claim.objBroken w ∨ Claim.modeOf w = 0) : objRelease w rsn = none := by
  rw [objRelease, if_pos (by rwa [objBad_iff, objMode_eq])]

/-- What REL leaves of the 16 bytes of an object that is held. -/
def releasedObj (w rsn : Nat) : Nat :=
  if Claim.modeOf w = 1 then Claim.objWord w 0 (Claim.shrOf w) + (rsn + 1) % 2 ^ 64 * 2 ^ 64
  else Claim.objWord w (if Claim.shrOf w = 1 then 0 else 2) (Claim.shrOf w - 1) + rsn * 2 ^ 64

theorem objRelease_eq_some {w : Nat} (rsn : Nat) (hb : ¬ Claim.objBroken w) (hm : Claim.modeOf w ≠ 0) :
    ∃ w0 r, objRelease w rsn = some (w0, r) ∧ w0 + r * 2 ^ 64 = releasedObj w rsn := by
  have hs : Claim.shrOf w < 65536 := Nat.mod_lt _ (by decide)
  have hn : ¬ (objBad w = true ∨ objMode w = 0) := by rw [objBad_iff, objMode_eq]; tauto
  rw [objRelease, if_neg hn, objMode_eq, objShr_eq, releasedObj]
  by_cases h1 : Claim.modeOf w = 1
  · exact ⟨_, _, if_pos h1, by rw [if_pos h1, withField_mode w (by decide)]⟩
  · have h0 : Claim.shrOf w ≠ 0 := fun h0 => hb (by unfold Claim.objBroken; simp only [Claim.modeOf] at *; omega)
    refine ⟨_, _, if_neg h1, ?_⟩
    rw [if_neg h1, withField_mode_shr w (by split <;> decide) (by omega)]
    simp only [show Claim.shrOf w - 1 = 0 ↔ Claim.shrOf w = 1 by omega]

/-! ### An access that nothing holds back -/

theorem myTranslate_of_reaches {s s1 : State} {k : AKind} {u : Use} {va n : Nat} {l : Loc} (h : Claim.reaches s s1 k u va n l) (src : Nat) :
    myTranslate s k u va src = .ok (s1, l) := by
  obtain ⟨-, ht, -⟩ := h
  rw [myTranslate, ht]

theorem myOrder_of_reaches {s s1 : State} {k : AKind} {u : Use} {va n : Nat} {l : Loc} (h : Claim.reaches s s1 k u va n l)
    (h3 : ∀ pa key, l ≠ .phys pa 3 key) (hm : ∀ off, l ≠ .mmio off) : myOrder s1 va n (decide (k = .store)) l = .ok s1 := by
  obtain ⟨-, -, hw, -⟩ := h
  rw [myOrder, hw, if_neg (by decide)]
  unfold placeOrder
  split
  · exact absurd rfl (h3 _ _)
  · exact absurd rfl (hm _)
  · rfl

theorem keeps_of_reaches {s s1 : State} {k : AKind} {u : Use} {va n : Nat} {l : Loc} (h : Claim.reaches s s1 k u va n l) : Keeps s s1 :=
  Keeps.translate h.2.1

theorem objLoc_of_reaches {s s1 : State} {va pa key : Nat} (h : Claim.reaches s s1 .store .sync va 16 (.phys pa 0 key)) :
    objLoc s va = .ok (s1, .phys pa 0 key) := by
  have ho : myOrder s1 va 16 true (.phys pa 0 key) = .ok s1 := myOrder_of_reaches h (by simp) (by simp)
  rw [objLoc, if_neg (by simpa using h.1), myTranslate_of_reaches h]
  simp only [bind, Except.bind, ho]

theorem objLoc_misaligned {s : State} {va : Nat} (h : va % 16 ≠ 0) : objLoc s va = .error (.trap s 6 (w64 va)) := by
  rw [objLoc, if_pos h]

theorem objScope_of {sc : Scope} (h : Claim.objScoped sc) : objScope sc = true := by
  obtain rfl | rfl | rfl | rfl | rfl := h <;> rfl

end Sys2Proof.Machine
end

section
/-!
SUPPORT. ACQ and REL at the home agent, and the grant of waiting requests (spec/07 R128; spec/15 R278; spec/16 R335).
-/
namespace Sys2Proof.Machine

@[simp] theorem homeWrite_cur (s : State) (xd : Word) (l : Loc) (n v : Nat) : (homeWrite s xd l n v).cur = s.cur :=
  (Keeps.homeWrite s xd l n v).cur

/-! ### ACQ -/

theorem w64_allOnes : w64 (2 ^ 64 - 1) = 0xFFFFFFFFFFFFFFFF := by decide

/-- The state in which the home agent gives an object to the current hart, and RSN. -/
def acquired (s : State) (va pa key w' : Nat) : State :=
  objAcquire (homeWrite s (hartCtx s s.cur).dirty (.phys pa 0 key) 8 w') s.cur va

section
variable {s s2 : State} {sc : Scope} {m : AcqMode} {a d : RegIx} {pa key : Nat}
  (hsc : Claim.objScoped sc) (hw : acqWaits s = false)
include hsc hw

theorem execAcq_misaligned (h : (rdX s a).toNat % 16 ≠ 0) : execAcq sc m a d s = .next (Claim.raised s 6 (rdX s a)) := by
  rw [execAcq, finish_orIllegal, if_pos (objScope_of hsc), hw, if_neg (by decide)]
  dsimp only
  rw [objLoc_misaligned h, w64_toNat]
  rfl

/-- ACQ at an object that it reaches: the exception of a broken word, the grant, `.try` that is not granted, the wait. -/
theorem execAcq_reached (hr : Claim.reachesObj s s2 (rdX s a).toNat (.phys pa 0 key)) : execAcq sc m a d s =
    if objBad (homeRead s2 (.phys pa 0 key) 8) = true then .next (Claim.raised s2 29 (rdX s a))
    else (if m = .try ∨ ¬ ∃ q ∈ s2.acqs, q.obj = pa then objGrant (decide (m = .shared)) (homeRead s2 (.phys pa 0 key) 8) else none).elim
      (if m = .try then .next (Claim.wroteX s2 d 0xFFFFFFFFFFFFFFFF)
        else .next (Claim.waits { s2 with acqs := s2.acqs ++ [⟨s2.cur, pa, key, (rdX s a).toNat, decide (m = .shared)⟩] } (.acq sc m a d)))
      fun w' => .next (Claim.wroteX (acquired s2 (rdX s a).toNat pa key w') d (BitVec.ofNat 64 (homeRead s2 (.phys (pa + 8) 0 key) 8))) := by
  obtain ⟨s1, hr, hu, hp⟩ := hr
  rw [execAcq, finish_orIllegal, if_pos (objScope_of hsc), hw, if_neg (by decide)]
  dsimp only
  rw [objLoc_of_reaches hr]
  simp only [bind, Except.bind, hp, (keeps_of_reaches hr).myCore, ← hu, Bool.false_eq_true, if_false, w64_toNat, objPlace, List.any_eq_true,
    beq_iff_eq]
  split
  · rfl
  · by_cases ht : m = .try
    · subst ht
      simp only [true_or, if_true, reduceCtorEq, decide_false]
      cases objGrant false (homeRead s2 (.phys pa 0 key) 8) with
      | none => simp only [finish_nextPc_wrX, Option.elim_none, w64_allOnes]
      | some w' =>
        simp only [finish_nextPc_wrX, Option.elim_some, acquired, locAdd, w64, homeWrite_cur]
    · simp only [ht, false_or, if_false]
      by_cases hq : ∃ q ∈ s2.acqs, q.obj = pa
      · simp only [hq, if_true, not_true, if_false]
        rfl
      · simp only [hq, if_false, not_false_iff, if_true, beq_eq_decide]
        cases objGrant (decide (m = .shared)) (homeRead s2 (.phys pa 0 key) 8) with
        | none => rfl
        | some w' =>
          simp only [finish_nextPc_wrX, Option.elim_some, acquired, locAdd, w64, homeWrite_cur]

end

/-- A hart that goes on with a value for rd after storage, caches and translations have changed. -/
theorem wrote_wroteX {s u : State} (h : Keeps s u) (d : RegIx) (v : Word) : Claim.wrote s (Claim.wroteX u d v) d v := by
  have hf : (me u).f = (me s).f := (congrArg Hart.f h.me :)
  have hc : (me u).fcsr = (me s).fcsr := (congrArg Hart.fcsr h.me :)
  have hv : (me u).v = (me s).v := (congrArg Hart.v h.me :)
  have hp : (me u).p = (me s).p := (congrArg Hart.p h.me :)
  have hpr : (me u).priv = (me s).priv := (congrArg Hart.priv h.me :)
  refine ⟨?_, fun r => by rw [rdX_wroteX, h.rdX], ?_, ?_, ?_, ?_, ?_, ?_⟩ <;> rw [me_wroteX]
  · exact congrArg (· + 4) h.pc
  · simpa using hf
  · simpa using hc
  · simpa using hv
  · simpa using hp
  · simpa using hpr
  · rfl

/-- A flush leaves no line that satisfies its test. -/
theorem mem_dcache_flushLines {s : State} {core : Nat} {p : Nat → CLine → Bool} {d : Nat × CLine}
    (hd : d ∈ (coreOf (flushLines s core p) core).dcache) : p d.1 d.2 = false := by
  simp only [flushLines, coreOf_updCore, afilter, List.mem_filter] at hd
  simpa using hd.2

/-- After a grant the core holds no line of a region that the object binds. -/
theorem mem_dcache_objAcquire {s : State} {h obj k : Nat} {c : CLine} (hd : (k, c) ∈ (coreOf (objAcquire s h obj) (coreOfHart h)).dcache) :
    ∀ b ∈ bindings s (hartCtx s h), b.obj = obj → c.va + 64 ≤ b.base ∨ b.base + b.len ≤ c.va := fun b hb ho =>
  (meets_eq_false_iff _ _ _).1 (mem_dcache_flushLines hd) b (by simpa [objBindings, ho] using hb)

theorem Keeps.objAcquire (s : State) (h obj : Nat) : Keeps s (objAcquire s h obj) := flushLines _ _ _

/-! ### Waiting requests -/

/-- `t` is `s` but for the harts and the waiting requests. -/
def ButHarts (s t : State) : Prop := ∃ hs as, t = { s with harts := hs, acqs := as }

namespace ButHarts

theorem ite {s t u v : State} (p : Prop) [Decidable p] (h : ButHarts s t) (k : ButHarts u v) :
    ButHarts (if p then s else u) (if p then t else v) := by
  split
  · exact h
  · exact k

theorem foldl {β : Type} (l : List β) {f g : State → β → State} (hf : ∀ s t b, ButHarts s t → ButHarts (f s b) (g t b)) {s t : State}
    (h : ButHarts s t) : ButHarts (l.foldl f s) (l.foldl g t) := by
  induction l generalizing s t with
  | nil => exact h
  | cons b r ih => exact ih (hf s t b h)

variable {s t : State} (h : ButHarts s t)
include h

theorem lineKey : t.lineKey = s.lineKey := by obtain ⟨hs, as, rfl⟩ := h; rfl
theorem io : t.io = s.io := by obtain ⟨hs, as, rfl⟩ := h; rfl
theorem mem : t.mem = s.mem := by obtain ⟨hs, as, rfl⟩ := h; rfl
theorem coreOf (c : Nat) : coreOf t c = coreOf s c := by obtain ⟨hs, as, rfl⟩ := h; rfl
theorem rawByte (a : Nat) : rawByte t a = rawByte s a := by obtain ⟨hs, as, rfl⟩ := h; rfl
theorem rawLine (line : Nat) : rawLine t line = rawLine s line := rawLine_congr fun a _ => h.rawByte a
theorem bindings (c : ACtx) : bindings t c = bindings s c := by obtain ⟨hs, as, rfl⟩ := h; rfl

theorem setRawByte (pa : Nat) (b : Byte) : ButHarts (setRawByte s pa b) (setRawByte t pa b) := by
  obtain ⟨hs, as, rfl⟩ := h
  exact ⟨_, _, rfl⟩

theorem mapLineKey (f : AMap Nat → AMap Nat) : ButHarts { s with lineKey := f s.lineKey } { t with lineKey := f t.lineKey } := by
  obtain ⟨hs, as, rfl⟩ := h
  exact ⟨_, _, rfl⟩

theorem setPoison (pa : Nat) (b : Bool) : ButHarts (setPoison s pa b) (setPoison t pa b) := by
  obtain ⟨hs, as, rfl⟩ := h
  exact ⟨_, _, rfl⟩

theorem updCore (c : Nat) (f : CoreSt → CoreSt) : ButHarts (updCore s c f) (updCore t c f) := by
  obtain ⟨hs, as, rfl⟩ := h
  exact ⟨_, _, rfl⟩

theorem killResv (g k : Nat) : ButHarts (killResv s g k) (killResv t g k) := by
  obtain ⟨hs, as, rfl⟩ := h
  rw [killResv_eq s, killResv_eq { s with harts := hs, acqs := as }]
  exact ⟨_, _, rfl⟩

theorem rekeyLine (kid line : Nat) : ButHarts (rekeyLine s kid line) (rekeyLine t kid line) := by
  simp only [Machine.rekeyLine, h.lineKey, h.rawLine]
  refine ite _ h (mapLineKey (ite _ h (foldl _ (fun s t i h => ?_) h)) fun m => aputC 0 m line kid)
  exact h.setRawByte _ _

theorem physSetByte (kid pa : Nat) (b : Byte) : ButHarts (physSetByte s kid pa b) (physSetByte t kid pa b) :=
  (h.rekeyLine kid _).setRawByte _ _

theorem markDirty (xd : Word) (pa : Nat) : ButHarts (markDirty s xd pa) (markDirty t xd pa) := by
  simp only [Machine.markDirty, h.rawByte]
  exact ite _ (h.setRawByte _ _) h

theorem writeBack (line : Nat) (c : CLine) : ButHarts (writeBack s line c) (writeBack t line c) := by
  simp only [Machine.writeBack]
  refine ite _ h (killResv (foldl _ (fun s t i h => ?_) (markDirty (foldl _ (fun s t i h => ?_) h) _ _)) _ _)
  · exact ite _ (h.setPoison _ _) h
  · rw [keyId, keyId, h.io]
    exact ite _ (h.physSetByte _ _ _) h

theorem flushLines (core : Nat) (p : Nat → CLine → Bool) : ButHarts (flushLines s core p) (flushLines t core p) := by
  simp only [Machine.flushLines, h.coreOf]
  refine updCore (foldl _ (fun s t kv h => ?_) h) _ _
  exact h.writeBack _ _

theorem objAcquire {k : Nat} (obj : Nat) (hc : hartCtx t k = hartCtx s k) : ButHarts (objAcquire s k obj) (objAcquire t k obj) := by
  rw [Machine.objAcquire, Machine.objAcquire, hc, h.bindings]
  exact h.flushLines _ _

end ButHarts

end Sys2Proof.Machine
end

section
/-!
SUPPORT. The grant of waiting requests and REL (spec/07 R128; spec/16 R335).
-/
namespace Sys2Proof.Machine

/-! ### One grant -/

theorem locKeyed_iff (s : State) (pa mt key : Nat) :
    locKeyed s (.phys pa mt key) = true ↔ 8192 ≤ key ∨ aget 0 s.io.keys key ≠ 0 := by simp [locKeyed, keyId]

theorem grantWaiting_none {s : State} {obj : Nat} (h : s.acqs.find? (fun q => q.obj == obj) = none) (n : Nat) : grantWaiting n s obj = s := by
  cases n with
  | zero => rfl
  | succ n => rw [grantWaiting, h]

/-- The first request for an object: its key has gone, its object is broken, or it is granted or not. -/
theorem grantWaiting_some {s : State} {obj : Nat} {q : AcqReq} (h : s.acqs.find? (fun q => q.obj == obj) = some q) (n : Nat) :
    grantWaiting (n + 1) s obj =
      if ¬ (8192 ≤ q.key ∨ aget 0 s.io.keys q.key ≠ 0) then
        grantWaiting n (takeException (withdrawAcq s q.hart) q.hart 7 (BitVec.ofNat 64 q.va)) obj
      else if objBad (homeRead s (.phys q.obj 0 q.key) 8) = true then s
      else (objGrant q.shared (homeRead s (.phys q.obj 0 q.key) 8)).elim s fun w' => grantWaiting n (grantReq s q w') obj := by
  rw [grantWaiting, h]
  simp only [Bool.not_eq_true', ← Bool.not_eq_true, locKeyed_iff, w64]
  cases objGrant q.shared (homeRead s (.phys q.obj 0 q.key) 8) <;> rfl

theorem acqDest_of_wait {s : State} {k : Nat} {a : Scope} {b : AcqMode} {c d : RegIx} (h : (hartOf s k).wait = some (.acq a b c d)) :
    acqDest s k = some d := by
  rw [acqDest, h]

/-- A hart that a grant lets go on. -/
def grantedHart (d : RegIx) (rsn : Word) (h : Hart) : Hart := retire (hartSetX { h with pc := h.pc + 4 } d rsn)

/-- The object given, the request gone and the hart moved on; the cache effect is yet to come. -/
def granted (s : State) (q : AcqReq) (d : RegIx) (w : Nat) : State :=
  let u := homeWrite s (hartCtx s q.hart).dirty (.phys q.obj 0 q.key) 8 w
  updHart { u with acqs := u.acqs.filter fun r => r.hart != q.hart } q.hart
    (grantedHart d (w64 (homeRead s (.phys (q.obj + 8) 0 q.key) 8)))

theorem hartOf_granted (s : State) (q : AcqReq) (d : RegIx) (w : Nat) : hartOf (granted s q d w) q.hart =
    grantedHart d (w64 (homeRead s (.phys (q.obj + 8) 0 q.key) 8))
      (hartOf (homeWrite s (hartCtx s q.hart).dirty (.phys q.obj 0 q.key) 8 w) q.hart) := hartOf_updHart ..

/-- The grant does not change the context under which the hart reaches memory. -/
theorem hartCtx_granted (s : State) (q : AcqReq) (d : RegIx) (w : Nat) : hartCtx (granted s q d w) q.hart =
    hartCtx (homeWrite s (hartCtx s q.hart).dirty (.phys q.obj 0 q.key) 8 w) q.hart := by
  have hsatp (h : Hart) : (retire h).pr.satp = h.pr.satp := by unfold retire; split <;> rfl
  simp [hartCtx, hartOf_granted, grantedHart, retire_mstatus, hsatp]

theorem butHarts_granted (s : State) (q : AcqReq) (d : RegIx) (w : Nat) :
    ButHarts (homeWrite s (hartCtx s q.hart).dirty (.phys q.obj 0 q.key) 8 w) (granted s q d w) := ⟨_, _, rfl⟩

section
variable {s : State} {q : AcqReq} {a : Scope} {b : AcqMode} {c d : RegIx} (h : (hartOf s q.hart).wait = some (.acq a b c d)) (w : Nat)
include h

theorem grantReq_eq : grantReq s q w = objAcquire (granted s q d w) q.hart q.va := by
  have hk := Keeps.homeWrite s (hartCtx s q.hart).dirty (.phys q.obj 0 q.key) 8 w
  have ha := acqDest_of_wait (s := { homeWrite s (hartCtx s q.hart).dirty (.phys q.obj 0 q.key) 8 w with
    acqs := (homeWrite s (hartCtx s q.hart).dirty (.phys q.obj 0 q.key) 8 w).acqs.filter fun r => r.hart != q.hart })
    ((congrArg Hart.wait (hk.harts q.hart) :).trans h)
  simp only [grantReq, ha]
  rfl

/-- The hart of a request that is granted has completed its ACQ. -/
theorem hartOf_grantReq : (hartOf (grantReq s q w) q.hart).pc = (hartOf s q.hart).pc + 4 ∧ (hartOf (grantReq s q w) q.hart).wait = none ∧
    hartX (hartOf (grantReq s q w) q.hart) d = if d.val = 0 then 0 else BitVec.ofNat 64 (homeRead s (.phys (q.obj + 8) 0 q.key) 8) := by
  have hk := (Keeps.homeWrite s (hartCtx s q.hart).dirty (.phys q.obj 0 q.key) 8 w).harts q.hart
  have ha := (Keeps.objAcquire (granted s q d w) q.hart q.va).harts q.hart
  rw [hartOf_granted] at ha
  rw [grantReq_eq h]
  refine ⟨(congrArg Hart.pc ha :).trans ?_, (congrArg Hart.wait ha :).trans rfl, (congrArg (hartX · d) ha :).trans ?_⟩
  · simpa [settled, grantedHart] using (congrArg Hart.pc hk :)
  · exact hartX_hartSetX _ d _

theorem grantReq_mem : (grantReq s q w).mem =
    (objAcquire (homeWrite s (hartOf s q.hart).xc.dirty (.phys q.obj 0 q.key) 8 w) q.hart q.va).mem := by
  rw [grantReq_eq h]
  exact ((butHarts_granted s q d w).objAcquire q.va (hartCtx_granted s q d w)).mem

theorem grantReq_acqs : (grantReq s q w).acqs = s.acqs.filter fun r => r.hart != q.hart := by
  rw [grantReq_eq h, (Keeps.objAcquire _ _ _).acqs, granted]
  simp [(Keeps.homeWrite s (hartCtx s q.hart).dirty (.phys q.obj 0 q.key) 8 w).acqs]

end

end Sys2Proof.Machine
end

section
/-!
SUPPORT. What is stored after a write at the sole writer (spec/06 R98, R111, R116): the bytes written, and those that keep their value.
-/
namespace Sys2Proof.Machine

/-- What an update of a core keeps of that core it keeps of every core. -/
theorem coreOf_updCore_keeps {α : Type} (g : CoreSt → α) (s : State) {c k : Nat} {f : CoreSt → CoreSt}
    (h : c = k → g (f (coreOf s k)) = g (coreOf s k)) : g (coreOf (updCore s k f) c) = g (coreOf s c) := by
  by_cases hc : c = k
  · rw [hc, coreOf_updCore, h hc]
  · rw [coreOf_updCore_other _ _ hc]

/-! ### The same storage -/

/-- `t` stores the bytes of `s`, under the same keys. -/
structure SameStore (s t : State) : Prop where
  io : t.io = s.io
  mem : t.mem = s.mem
  unspec : t.unspec = s.unspec
  lineKey : t.lineKey = s.lineKey
  tile : ∀ c, (coreOf t c).tile = (coreOf s c).tile
  sdm : ∀ c, (coreOf t c).sdm = (coreOf s c).sdm

namespace SameStore

theorem refl (s : State) : SameStore s s := ⟨rfl, rfl, rfl, rfl, fun _ => rfl, fun _ => rfl⟩

theorem trans {s t u : State} (h : SameStore s t) (k : SameStore t u) : SameStore s u :=
  ⟨k.io.trans h.io, k.mem.trans h.mem, k.unspec.trans h.unspec, k.lineKey.trans h.lineKey, fun c => (k.tile c).trans (h.tile c),
    fun c => (k.sdm c).trans (h.sdm c)⟩

theorem updMe (s : State) (f : Hart → Hart) : SameStore s (updMe s f) := ⟨rfl, rfl, rfl, rfl, fun _ => rfl, fun _ => rfl⟩

theorem killResv (s : State) (g k : Nat) : SameStore s (killResv s g k) := by
  rw [killResv_eq]
  exact ⟨rfl, rfl, rfl, rfl, fun _ => rfl, fun _ => rfl⟩

/-- Poison is kept apart from what is stored. -/
theorem locSetPoison (s : State) (l : Loc) (b : Bool) : SameStore s (locSetPoison s l b) := by
  cases l with
  | phys => exact ⟨rfl, rfl, rfl, rfl, fun _ => rfl, fun _ => rfl⟩
  | tile | sdm =>
    exact ⟨rfl, rfl, rfl, rfl, fun c => coreOf_updCore_keeps CoreSt.tile s fun _ => rfl,
      fun c => coreOf_updCore_keeps CoreSt.sdm s fun _ => rfl⟩
  | mmio => exact refl s

theorem healWords (s : State) (l : Loc) (n : Nat) : SameStore s (healWords s l n) := by
  unfold Machine.healWords
  split
  · refine foldl_keeps _ (refl s) fun t i ht => ?_
    split
    · exact ht.trans (locSetPoison ..)
    · exact ht
  · exact refl s

variable {s t : State} (h : SameStore s t)
include h

theorem rawByte (a : Nat) : rawByte t a = rawByte s a := by simp only [Machine.rawByte, unspecAt, h.mem, h.unspec]

theorem physByte (kid a : Nat) : physByte t kid a = physByte s kid a :=
  physByte_congr kid (by rw [h.lineKey]) fun b _ => h.rawByte b

theorem homeRead {l : Loc} (hl : ∀ off, l ≠ .mmio off) (n : Nat) : homeRead t l n = homeRead s l n := by
  cases l with
  | phys => simp only [Machine.homeRead, physRead, keyId, h.io, h.physByte]
  | tile => simp only [Machine.homeRead, h.tile]
  | sdm => simp only [Machine.homeRead, h.sdm]
  | mmio off => exact absurd rfl (hl off)

end SameStore

/-! ### Writes -/

/-- A write but for the reservations and the poison that it ends. -/
def written (s : State) (xd : Word) (l : Loc) (n v : Nat) : State :=
  match l with
  | .phys pa _ key => markDirty (markDirty (physWrite s (keyId s key) pa n v) xd pa) xd (pa + n - 1)
  | .tile c off => updCore s c fun r => { r with tile := memSet r.tile off n v }
  | .sdm c off => updCore s c fun r => { r with sdm := memSet r.sdm off n v }
  | .mmio off => regPost s off n v

theorem sameStore_homeWrite (s : State) (xd : Word) (l : Loc) (n v : Nat) : SameStore (written s xd l n v) (homeWrite s xd l n v) := by
  cases l <;> exact (SameStore.killResv _ _ _).trans (SameStore.healWords _ _ _)

theorem markDirty_untracked (s : State) {xd : Word} (pa : Nat) (h : bitOf xd.toNat 0 = false) : markDirty s xd pa = s := by
  simp [markDirty, h]

/-- The bitmap of `xdirty` alone changes. -/
theorem rawByte_markDirty (s : State) (xd : Word) (pa a : Nat) : rawByte (markDirty s xd pa) a = rawByte s a ∨
    bitOf xd.toNat 0 = true ∧ fieldOf xd.toNat 51 12 * 4096 ≤ a ∧ a < fieldOf xd.toNat 51 12 * 4096 + 0x1800000 := by
  by_cases ha : a = fieldOf xd.toNat 51 12 * 4096 + pa / 32768
  · unfold markDirty
    extract_lets base
    split
    · next h =>
      obtain ⟨⟨hd, hh⟩, -⟩ := by simpa only [Bool.and_eq_true] using h
      have hp : pa < 0xC000000000 := of_decide_eq_true hh
      exact .inr ⟨hd, by omega, by omega⟩
    · exact .inl rfl
  · refine .inl ?_
    simp only [markDirty]
    split
    · rw [rawByte_setRawByte, if_neg ha]
    · rfl

/-- A write of bytes of one line leaves what other lines store. -/
theorem rawByte_physWrite_other (s : State) (kid pa v : Nat) {n a : Nat} (h : ∀ i < n, (pa + i) / 64 ≠ a / 64) :
    rawByte (physWrite s kid pa n v) a = rawByte s a := by
  unfold physWrite
  induction n with
  | zero => rfl
  | succ n ih =>
    have hn := h n (Nat.lt_succ_self n)
    rw [List.range_succ, List.foldl_append, List.foldl_cons, List.foldl_nil, physSetByte, rawByte_setRawByte,
      if_neg fun hc => hn (by rw [hc]), rawByte_rekeyLine, if_neg fun hc => hn hc.symm, ih fun i hi => h i (by omega)]

theorem aget_memSet (m : Mem) (a n v b : Nat) :
    aget 0 (memSet m a n v) b = if a ≤ b ∧ b < a + n then BitVec.ofNat 8 (v / 256 ^ (b - a)) else aget 0 m b := by
  unfold memSet
  induction n with
  | zero => simp
  | succ n ih =>
    rw [List.range_succ, List.foldl_append, List.foldl_cons, List.foldl_nil, aget_aputC, ih]
    by_cases h : b = a + n
    · simp [h, Nat.shiftRight_eq_div_pow, Nat.pow_mul]
    · simp only [h, if_false, show a ≤ b ∧ b < a + (n + 1) ↔ a ≤ b ∧ b < a + n by omega]

/-- Bytes that are read where a number's low digits are. -/
theorem natOfBytes_of_digits {f : Nat → Byte} {n v : Nat} (h : ∀ k < n, f k = BitVec.ofNat 8 (v / 256 ^ k)) :
    natOfBytes ((List.range n).map f) = v % 256 ^ n := by
  rw [List.map_congr_left fun k hk => h k (List.mem_range.1 hk), natOfBytes_digits]

/-- What is written at a location is read back there, while writes are not tracked. -/
theorem homeRead_homeWrite (s : State) {xd : Word} (hd : bitOf xd.toNat 0 = false) {l : Loc} (hl : ∀ off, l ≠ .mmio off) (n v : Nat) :
    homeRead (homeWrite s xd l n v) l n = v % 256 ^ n := by
  rw [(sameStore_homeWrite s xd l n v).homeRead hl]
  cases l with
  | phys pa mt key =>
    rw [written, markDirty_untracked _ _ hd, markDirty_untracked _ _ hd]
    refine natOfBytes_of_digits fun k hk => ?_
    simp only [keyId, (StoresOnly.physWrite s _ pa n v).io]
    rw [physByte_physWrite, if_pos (by omega), Nat.add_sub_cancel_left]
  | tile c off | sdm c off =>
    refine natOfBytes_of_digits fun k hk => ?_
    rw [written, coreOf_updCore, aget_memSet, if_pos (by omega), Nat.add_sub_cancel_left]
  | mmio off => exact absurd rfl (hl off)

theorem natOfBytes_lt (l : List Byte) : natOfBytes l < 256 ^ l.length := by
  induction l with
  | nil => simp [natOfBytes]
  | cons b r ih =>
    have := b.isLt
    rw [natOfBytes, List.length_cons, Nat.pow_succ]
    omega

theorem homeRead_lt (s : State) {l : Loc} (hl : ∀ off, l ≠ .mmio off) (n : Nat) : homeRead s l n < 256 ^ n := by
  have h (f : Nat → Byte) : natOfBytes ((List.range n).map f) < 256 ^ n := by simpa using natOfBytes_lt ((List.range n).map f)
  cases l with
  | phys | tile | sdm => exact h _
  | mmio off => exact absurd rfl (hl off)

/-! ### The frame of a write -/

/-- A write of physical memory, the bitmap of `xdirty` included, reaches no core. -/
theorem coreOf_written_phys (s : State) (xd : Word) (pa mt key n v c : Nat) : coreOf (written s xd (.phys pa mt key) n v) c = coreOf s c :=
  (((StoresOnly.physWrite ..).trans (StoresOnly.markDirty ..)).trans (StoresOnly.markDirty ..)).coreOf c

theorem tile_written (s : State) (xd : Word) {l : Loc} (hl : ∀ off, l ≠ .mmio off) (n v c a : Nat)
    (h : ¬ ∃ off, l = .tile c off ∧ off ≤ a ∧ a < off + n) : aget 0 (coreOf (written s xd l n v) c).tile a = aget 0 (coreOf s c).tile a := by
  cases l with
  | phys => rw [coreOf_written_phys]
  | tile k off =>
    refine coreOf_updCore_keeps (fun r => aget 0 r.tile a) s ?_
    rintro rfl
    exact (aget_memSet ..).trans (if_neg fun hr => h ⟨off, rfl, hr⟩)
  | sdm => exact coreOf_updCore_keeps (fun r => aget 0 r.tile a) s fun _ => rfl
  | mmio off => exact absurd rfl (hl off)

theorem sdm_written (s : State) (xd : Word) {l : Loc} (hl : ∀ off, l ≠ .mmio off) (n v c a : Nat)
    (h : ¬ ∃ off, l = .sdm c off ∧ off ≤ a ∧ a < off + n) : aget 0 (coreOf (written s xd l n v) c).sdm a = aget 0 (coreOf s c).sdm a := by
  cases l with
  | phys => rw [coreOf_written_phys]
  | tile => exact coreOf_updCore_keeps (fun r => aget 0 r.sdm a) s fun _ => rfl
  | sdm k off =>
    refine coreOf_updCore_keeps (fun r => aget 0 r.sdm a) s ?_
    rintro rfl
    exact (aget_memSet ..).trans (if_neg fun hr => h ⟨off, rfl, hr⟩)
  | mmio off => exact absurd rfl (hl off)

theorem rawByte_written (s : State) (xd : Word) {l : Loc} (hl : ∀ off, l ≠ .mmio off) (n v a : Nat)
    (h : ∀ pa mt key, l = .phys pa mt key → ∀ i < n, (pa + i) / 64 ≠ a / 64) :
    rawByte (written s xd l n v) a = rawByte s a ∨
      bitOf xd.toNat 0 = true ∧ fieldOf xd.toNat 51 12 * 4096 ≤ a ∧ a < fieldOf xd.toNat 51 12 * 4096 + 0x1800000 := by
  cases l with
  | phys pa mt key =>
    rw [← rawByte_physWrite_other s (keyId s key) pa v (h pa mt key rfl), written]
    obtain h2 | h2 := rawByte_markDirty (markDirty (physWrite s (keyId s key) pa n v) xd pa) xd (pa + n - 1) a
    · rw [h2]
      exact rawByte_markDirty _ xd _ a
    · exact .inr h2
  | tile | sdm => exact .inl rfl
  | mmio off => exact absurd rfl (hl off)

/-- A write of a word changes no storage but its own, as `Claim.homeFrame` says. -/
theorem homeFrame_homeWrite (s : State) {l : Loc} {n : Nat} (hn : n = 4 ∨ n = 8) (hl : Claim.weak n l) (v : Nat) :
    Claim.homeFrame s (homeWrite s (me s).xc.dirty l n v) l n := by
  obtain ⟨ha, hm⟩ := hl
  have hs := sameStore_homeWrite s (me s).xc.dirty l n v
  refine ⟨fun c a h => ?_, fun c a h => ?_, fun a h => ?_, ?_⟩
  · rw [hs.tile, tile_written s _ hm n v c a h]
  · rw [hs.sdm, sdm_written s _ hm n v c a h]
  · rw [hs.rawByte]
    refine rawByte_written s _ hm n v a fun pa mt key he i hi hc => h ⟨pa, mt, key, he, ?_⟩
    have := (ha pa mt key he).2
    obtain rfl | rfl := hn <;> omega
  · rintro pa mt key a rfl - ho hd
    rw [hs.physByte, written, markDirty_untracked _ _ hd, markDirty_untracked _ _ hd, physByte_physWrite, if_neg ho]

theorem homeFrame_of_sameStore {s t u : State} {l : Loc} {n : Nat} (h : Claim.homeFrame s t l n) (k : SameStore t u) :
    Claim.homeFrame s u l n := by
  simpa only [Claim.homeFrame, k.tile, k.sdm, k.rawByte, k.physByte] using h

end Sys2Proof.Machine
end

section
/-!
SUPPORT. REL, and the grants that follow it (spec/07 R128; spec/16 R335): serving another hart's requests leaves a hart's pc.
-/
namespace Sys2Proof.Machine

/-! ### The pc of a hart that is not served -/

/-- From `s` to `t` the turn and the pc of hart k stay, and no request comes. -/
structure LeavesPc (k : Nat) (s t : State) : Prop where
  cur : t.cur = s.cur
  acqs : t.acqs ⊆ s.acqs
  pc : (hartOf t k).pc = (hartOf s k).pc

theorem Keeps.leavesPc {s t : State} (h : Keeps s t) (k : Nat) : LeavesPc k s t :=
  ⟨h.cur, by rw [h.acqs]; exact fun _ h => h, (congrArg Hart.pc (h.harts k) :)⟩

namespace LeavesPc
variable {k : Nat}

theorem of_eq {s t : State} (hc : t.cur = s.cur) (ha : t.acqs = s.acqs) (hh : t.harts = s.harts) : LeavesPc k s t :=
  ⟨hc, by rw [ha]; exact fun _ h => h, by rw [hartOf, hh]; rfl⟩

theorem refl (s : State) : LeavesPc k s s := of_eq rfl rfl rfl

theorem trans {s t u : State} (h : LeavesPc k s t) (i : LeavesPc k t u) : LeavesPc k s u :=
  ⟨i.cur.trans h.cur, fun _ hq => h.acqs (i.acqs hq), i.pc.trans h.pc⟩

theorem setHart (s : State) {h : Nat} (hk : k ≠ h) (r : Hart) : LeavesPc k s (setHart s h r) :=
  ⟨rfl, fun _ h => h, by rw [hartOf_setHart_other _ _ hk]⟩

/-- A change of any hart but for its pc. -/
theorem updHart (s : State) (h : Nat) {f : Hart → Hart} (hf : ∀ r, (f r).pc = r.pc) : LeavesPc k s (updHart s h f) := by
  refine ⟨rfl, fun _ h => h, ?_⟩
  by_cases hk : k = h
  · rw [hk, hartOf_updHart, hf]
  · rw [hartOf_updHart_other _ _ hk]

theorem withdrawAcq (s : State) (h : Nat) : LeavesPc k s (withdrawAcq s h) := ⟨rfl, List.filter_subset_self _, rfl⟩

theorem withdrawLeave (s : State) (h : Nat) : LeavesPc k s (withdrawLeave s h) := by
  unfold Machine.withdrawLeave
  extract_lets die r s1
  have h1 : LeavesPc k s s1 := by
    simp only [s1]
    split
    · exact refl s
    · refine trans ?_ (updHart _ _ fun _ => rfl)
      unfold releaseUnits
      split
      · exact refl s
      · exact of_eq rfl rfl rfl
  split
  · exact h1
  · exact h1.trans ((of_eq rfl rfl rfl : LeavesPc k s1 (updDie s1 die _)).trans (updHart _ _ fun _ => rfl))

theorem withdraw (s : State) (h : Nat) : LeavesPc k s (withdraw s h) :=
  (withdrawLeave s h).trans ((withdrawAcq _ h).trans (updHart _ _ fun _ => rfl))

theorem stopHart (s : State) (h : Nat) : LeavesPc k s (stopHart s h) := by
  unfold Machine.stopHart
  split
  · exact withdraw s h
  · exact refl s

theorem stubEnd (s : State) {h : Nat} (hk : k ≠ h) (cause : Nat) (irq : Bool) (tval : Word) :
    LeavesPc k s (stubEnd s h cause irq tval) := by
  unfold Machine.stubEnd
  extract_lets pc s1
  have h1 : LeavesPc k s s1 := setHart s hk _
  clear_value s1
  split
  · exact h1
  · extract_lets g
    split
    · exact h1
    · exact h1.trans (foldl_keeps _ (of_eq rfl rfl rfl : LeavesPc k s1 (setGang s1 _ _)) fun t i ht => ht.trans (stopHart t i))

theorem takeException (s : State) {h : Nat} (hk : k ≠ h) (cause : Nat) (tval : Word) :
    LeavesPc k s (takeException s h cause tval) := by
  unfold Machine.takeException
  extract_lets s1 r
  have h1 : LeavesPc k s s1 := withdraw s h
  clear_value s1
  refine h1.trans ?_
  split_ifs
  · exact (setHart s1 hk _).trans (of_eq rfl rfl rfl)
  · exact setHart s1 hk _
  · exact setHart s1 hk _
  · exact stubEnd s1 hk _ _ _

theorem grantReq (s : State) {q : AcqReq} (hk : k ≠ q.hart) (w : Nat) : LeavesPc k s (grantReq s q w) := by
  unfold Machine.grantReq
  extract_lets l rsn s1 s2 s3
  have h1 : LeavesPc k s s1 := (Keeps.homeWrite ..).leavesPc k
  have h2 : LeavesPc k s1 s2 := ⟨rfl, List.filter_subset_self _, rfl⟩
  have h3 : LeavesPc k s2 s3 := by
    simp only [s3]
    split
    · exact setHart s2 hk _
    · exact refl s2
  exact h1.trans (h2.trans (h3.trans ((Keeps.objAcquire ..).leavesPc k)))

/-- The home agent serves the requests of other harts. -/
theorem grantWaiting (n : Nat) {s : State} (hs : ∀ q ∈ s.acqs, q.hart ≠ k) (obj : Nat) : LeavesPc k s (grantWaiting n s obj) := by
  induction n generalizing s with
  | zero => exact refl s
  | succ n ih =>
    cases hf : s.acqs.find? (fun q => q.obj == obj) with
    | none => rw [grantWaiting_none hf]; exact refl s
    | some q =>
      have hq : k ≠ q.hart := (hs q (List.mem_of_find?_eq_some hf)).symm
      have next {t : State} (ht : LeavesPc k s t) : LeavesPc k s (Machine.grantWaiting n t obj) :=
        ht.trans (ih fun r hr => hs r (ht.acqs hr))
      rw [grantWaiting_some hf]
      split_ifs
      · exact refl s
      · cases objGrant q.shared (homeRead s (.phys q.obj 0 q.key) 8) with
        | none => exact refl s
        | some w => exact next (grantReq s hq w)
      · exact next ((withdrawAcq s _).trans (takeException _ hq _ _))

end LeavesPc

/-! ### The grant of waiting requests -/

theorem find?_acqs_eq_none {s : State} {obj : Nat} (h : ∀ q ∈ s.acqs, q.obj ≠ obj) : s.acqs.find? (fun q => q.obj == obj) = none := by
  simpa using h

/-- The first request of an object that does not fit is not served, and those behind it are not. -/
theorem grantWaiting_unfit {s : State} {obj : Nat} {q : AcqReq} (h : s.acqs.find? (fun q => q.obj == obj) = some q)
    (hk : 8192 ≤ q.key ∨ aget 0 s.io.keys q.key ≠ 0) (hu : Claim.objBroken (homeRead s (.phys q.obj 0 q.key) 8) ∨
      ∀ w', ¬ Claim.grants q.shared (homeRead s (.phys q.obj 0 q.key) 8) w') (n : Nat) : grantWaiting n s obj = s := by
  cases n with
  | zero => rfl
  | succ n =>
    rw [grantWaiting_some h, if_neg (not_not.2 hk)]
    split_ifs with hb
    · rfl
    · rw [objGrant_eq_none (hu.resolve_left fun h => hb ((objBad_iff _).2 h))]
      rfl

/-! ### REL -/

section
variable {s : State} {sc : Scope} {a : RegIx} (hsc : Claim.objScoped sc)
include hsc

theorem execRel_misaligned (h : (rdX s a).toNat % 16 ≠ 0) : execRel sc a s = .next (Claim.raised s 6 (rdX s a)) := by
  rw [execRel, finish_orIllegal, if_pos (objScope_of hsc)]
  dsimp only
  rw [objLoc_misaligned h, w64_toNat]
  rfl

/-- The words of a released object written, and the waiting requests served. -/
def relDone (s : State) (xd : Word) (pa key v : Nat) : State :=
  let u := homeWrite s xd (.phys pa 0 key) 16 v
  Claim.passed (grantWaiting u.acqs.length u pa)

/-- REL at an object that it reaches, its release performed: cause 29, or the object released and the next request served. -/
theorem execRel_reached {s1 s2 : State} {pa key : Nat} (hr : Claim.reaches s s1 .store .sync (rdX s a).toNat 16 (.phys pa 0 key))
    (hc : releaseCover s1 s.cur (meets (objBindings (bindings s1 (hartCtx s s.cur)) (rdX s a).toNat)) true true = .ok s2)
    (hp : locPoisoned (flushLoc s2 (myCore s) (.phys pa 0 key)) (.phys pa 0 key) 16 = false) :
    let s3 := flushLoc s2 (myCore s) (.phys pa 0 key)
    execRel sc a s = (objRelease (homeRead s3 (.phys pa 0 key) 8) (homeRead s3 (.phys (pa + 8) 0 key) 8)).elim
      (.next (Claim.raised s3 29 (rdX s a))) fun r => .next (relDone s3 (me s).xc.dirty pa key (r.1 + r.2 * 2 ^ 64)) := by
  have h1 := keeps_of_reaches hr
  have h2 := h1.trans (Keeps.releaseCover hc)
  have h3 := h2.trans (Keeps.flushLoc s2 (myCore s) (.phys pa 0 key))
  have hd : (hartCtx (flushLoc s2 (myCore s) (.phys pa 0 key)) (flushLoc s2 (myCore s) (.phys pa 0 key)).cur).dirty = (me s).xc.dirty := by
    rw [h3.myCtx]; rfl
  rw [execRel, finish_orIllegal, if_pos (objScope_of hsc)]
  dsimp only
  rw [objLoc_of_reaches hr]
  simp only [bind, Except.bind, h1.hartCtx, h1.cur, hc, h2.myCore, hp, hd, Bool.false_eq_true, if_false, locAdd, w64_toNat]
  cases objRelease _ _ with
  | none => rfl
  | some r => exact finish_nextPc _ _

end

/-- The releasing hart's pc moves on by 4, whoever is served after it. -/
theorem pc_relDone {s s3 : State} (h : Keeps s s3) (hw : acqWaits s = false) (xd : Word) (pa key v : Nat) :
    (me (relDone s3 xd pa key v)).pc = (me s).pc + 4 := by
  have hk : Keeps s (homeWrite s3 xd (.phys pa 0 key) 16 v) := h.trans (Keeps.homeWrite ..)
  have hq : ∀ q ∈ (homeWrite s3 xd (.phys pa 0 key) 16 v).acqs, q.hart ≠ s.cur := by
    rw [hk.acqs]
    simpa [acqWaits] using hw
  have hl := (hk.leavesPc s.cur).trans (LeavesPc.grantWaiting (homeWrite s3 xd (.phys pa 0 key) 16 v).acqs.length hq pa)
  rw [relDone, me_passed, retire_pc, me, hl.cur, hl.pc]
  rfl

theorem relDone_unwaited {s : State} {xd : Word} {pa key v : Nat} (h : ∀ q ∈ (homeWrite s xd (.phys pa 0 key) 16 v).acqs, q.obj ≠ pa) :
    relDone s xd pa key v = Claim.passed (homeWrite s xd (.phys pa 0 key) 16 v) := by
  rw [relDone, grantWaiting_none (find?_acqs_eq_none h)]

end Sys2Proof.Machine
end

section
/-!
SUPPORT. ACQ, the grant event and REL as their clauses of spec/07 R128, spec/15 R278 and spec/16 R335 state them.
-/
namespace Sys2Proof.Machine

theorem Keeps.dirty {s t : State} (h : Keeps s t) :
    (Machine.hartCtx t t.cur).dirty = (Machine.me s).xc.dirty := by
  rw [h.myCtx]
  rfl

theorem keeps_of_reachesObj {s s2 : State} {va : Nat} {l : Loc} (h : Claim.reachesObj s s2 va l) : Keeps s s2 := by
  obtain ⟨s1, hr, rfl, -⟩ := h
  exact (keeps_of_reaches hr).trans (Keeps.flushLoc ..)

theorem acquired_eq {s s2 : State} (h : Keeps s s2) (va pa key w' : Nat) :
    acquired s2 va pa key w' = objAcquire (homeWrite s2 (me s).xc.dirty (.phys pa 0 key) 8 w') s.cur va := by
  rw [acquired, h.dirty, h.cur]

section
variable {s s2 : State} {sc : Scope} {m : AcqMode} {a d : RegIx} {pa key : Nat}
  (hsc : Claim.objScoped sc) (hw : acqWaits s = false) (hr : Claim.reachesObj s s2 (rdX s a).toNat (.phys pa 0 key))
include hsc hw hr

theorem acq_broken (hb : Claim.objBroken (homeRead s2 (.phys pa 0 key) 8)) :
    exec (.acq sc m a d) s = .next (Claim.raised s2 29 (rdX s a)) := by
  rw [exec_acq, execAcq_reached hsc hw hr, if_pos ((objBad_iff _).2 hb)]

variable (hb : ¬ Claim.objBroken (homeRead s2 (.phys pa 0 key) 8))
include hb

theorem acq_granted {w' : Nat} (hg : Claim.grants (decide (m = .shared)) (homeRead s2 (.phys pa 0 key) 8) w')
    (hq : m = .try ∨ ¬ ∃ q ∈ s2.acqs, q.obj = pa) : exec (.acq sc m a d) s = .next (Claim.wroteX
      (objAcquire (homeWrite s2 (me s).xc.dirty (.phys pa 0 key) 8 w') s.cur (rdX s a).toNat) d
      (BitVec.ofNat 64 (homeRead s2 (.phys (pa + 8) 0 key) 8))) := by
  rw [exec_acq, execAcq_reached hsc hw hr, if_neg fun h => hb ((objBad_iff _).1 h), if_pos hq, (objGrant_eq_some_iff ..).2 hg,
    Option.elim_some, acquired_eq (keeps_of_reachesObj hr)]

theorem acq_tried (hm : m = .try) (hg : ∀ w', ¬ Claim.grants false (homeRead s2 (.phys pa 0 key) 8) w') :
    exec (.acq sc m a d) s = .next (Claim.wroteX s2 d 0xFFFFFFFFFFFFFFFF) := by
  subst hm
  rw [exec_acq, execAcq_reached hsc hw hr, if_neg fun h => hb ((objBad_iff _).1 h), if_pos (.inl rfl),
    objGrant_eq_none (shared := decide (AcqMode.try = .shared)) hg, Option.elim_none, if_pos rfl]

theorem acq_queued (hm : m ≠ .try) (hq : (∃ q ∈ s2.acqs, q.obj = pa) ∨
      ∀ w', ¬ Claim.grants (decide (m = .shared)) (homeRead s2 (.phys pa 0 key) 8) w') : exec (.acq sc m a d) s =
    .next (Claim.waits { s2 with acqs := s2.acqs ++ [⟨s.cur, pa, key, (rdX s a).toNat, decide (m = .shared)⟩] } (.acq sc m a d)) := by
  rw [exec_acq, execAcq_reached hsc hw hr, if_neg fun h => hb ((objBad_iff _).1 h), (keeps_of_reachesObj hr).cur]
  split_ifs with h
  · rw [objGrant_eq_none (hq.resolve_left (h.resolve_left hm)), Option.elim_none]
  · rfl

end

/-- What a granted ACQ leaves of the core's cache. -/
theorem mem_dcache_acquired {s u : State} (h : Keeps s u) {obj k : Nat} {c : CLine} {d : RegIx} {v : Word}
    (hd : (k, c) ∈ (coreOf (Claim.wroteX (objAcquire u s.cur obj) d v) (myCore s)).dcache) :
    ∀ b ∈ bindings u (hartCtx s s.cur), b.obj = obj → c.va + 64 ≤ b.base ∨ b.base + b.len ≤ c.va := by
  rw [← h.hartCtx s.cur]
  exact mem_dcache_objAcquire hd

/-- The word that a grant writes is read back. -/
theorem homeRead_granted {s2 : State} {xd : Word} {pa key w' : Nat} {sh : Bool} (hd : bitOf xd.toNat 0 = false)
    (hg : Claim.grants sh (homeRead s2 (.phys pa 0 key) 8) w') :
    homeRead (homeWrite s2 xd (.phys pa 0 key) 8 w') (.phys pa 0 key) 8 = w' := by
  rw [homeRead_homeWrite s2 hd (by simp)]
  exact Nat.mod_eq_of_lt (grants_lt (homeRead_lt s2 (by simp) 8) hg)

section
variable {s : State} {q : AcqReq} (hs : s.acqs = [q])
include hs

theorem grant_keyGone (hk : q.key < 8192) (hz : aget 0 s.io.keys q.key = 0) : exec (.syncObjectGrant q.obj) s =
    .next (takeException (withdrawAcq s q.hart) q.hart 7 (BitVec.ofNat 64 q.va)) := by
  rw [exec_syncObjectGrant, hs, List.length_singleton, grantWaiting_some (q := q) (by simp [hs]), if_pos (by omega)]
  rfl

theorem grant_served (hk : 8192 ≤ q.key ∨ aget 0 s.io.keys q.key ≠ 0) {w' : Nat}
    (hg : Claim.grants q.shared (homeRead s (.phys q.obj 0 q.key) 8) w') (hb : ¬ Claim.objBroken (homeRead s (.phys q.obj 0 q.key) 8)) :
    exec (.syncObjectGrant q.obj) s = .next (grantReq s q w') := by
  rw [exec_syncObjectGrant, hs, List.length_singleton, grantWaiting_some (q := q) (by simp [hs]), if_neg (not_not.2 hk),
    if_neg fun h => hb ((objBad_iff _).1 h), (objGrant_eq_some_iff ..).2 hg]
  rfl

end

section
variable {s s1 s2 : State} {sc : Scope} {a : RegIx} {pa key : Nat} (hsc : Claim.objScoped sc)
  (hr : Claim.reaches s s1 .store .sync (rdX s a).toNat 16 (.phys pa 0 key))
  (hc : releaseCover s1 s.cur (meets (objBindings (bindings s1 (hartCtx s s.cur)) (rdX s a).toNat)) true true = .ok s2)
  (hp : locPoisoned (flushLoc s2 (myCore s) (.phys pa 0 key)) (.phys pa 0 key) 16 = false)
include hsc hr hc hp

theorem rel_raised (h : Claim.objBroken (homeRead (flushLoc s2 (myCore s) (.phys pa 0 key)) (.phys pa 0 key) 8) ∨
      Claim.modeOf (homeRead (flushLoc s2 (myCore s) (.phys pa 0 key)) (.phys pa 0 key) 8) = 0) :
    exec (.rel sc a) s = .next (Claim.raised (flushLoc s2 (myCore s) (.phys pa 0 key)) 29 (rdX s a)) := by
  rw [exec_rel, execRel_reached hsc hr hc hp, objRelease_eq_none _ h]
  rfl

theorem rel_released (hb : ¬ Claim.objBroken (homeRead (flushLoc s2 (myCore s) (.phys pa 0 key)) (.phys pa 0 key) 8))
    (hm : Claim.modeOf (homeRead (flushLoc s2 (myCore s) (.phys pa 0 key)) (.phys pa 0 key) 8) ≠ 0) :
    exec (.rel sc a) s = .next (relDone (flushLoc s2 (myCore s) (.phys pa 0 key)) (me s).xc.dirty pa key
      (releasedObj (homeRead (flushLoc s2 (myCore s) (.phys pa 0 key)) (.phys pa 0 key) 8)
        (homeRead (flushLoc s2 (myCore s) (.phys pa 0 key)) (.phys (pa + 8) 0 key) 8))) := by
  obtain ⟨w0, r, he, hv⟩ := objRelease_eq_some (homeRead (flushLoc s2 (myCore s) (.phys pa 0 key)) (.phys (pa + 8) 0 key) 8) hb hm
  rw [exec_rel, execRel_reached hsc hr hc hp, he, ← hv]
  rfl

end

/-- Settles O25: each case is one equation of the operation; the registers of the requesting and of the granted hart are kept by what
the home agent does to storage and caches, and a releasing hart's pc by every grant to another. -/
theorem acquireAndRelease : Obligations.AcquireAndRelease := by
  refine ⟨⟨fun s sc m a d hsc hw => ⟨execAcq_misaligned hsc hw, ?_⟩, fun s obj => ⟨?_, ?_, ?_⟩⟩,
    fun s sc a hsc hw => ⟨execRel_misaligned hsc, ?_⟩⟩
  · rintro s2 l pa key hr rfl
    have h2 := keeps_of_reachesObj hr
    refine ⟨acq_broken hsc hw hr, fun hb => ⟨fun w' hg hq => ⟨_, acq_granted hsc hw hr hb hg hq, ?_, rfl, ?_, ?_⟩,
      acq_tried hsc hw hr hb, acq_queued hsc hw hr hb⟩⟩
    · exact wrote_wroteX (h2.trans ((Keeps.homeWrite ..).trans (Keeps.objAcquire ..))) d _
    · exact fun hd _ => homeRead_granted hd hg
    · exact fun k c => mem_dcache_acquired (h2.trans (Keeps.homeWrite ..))
  · rintro q a b c d hs rfl hwait
    refine ⟨grant_keyGone hs, fun hk w' hg hb => ⟨_, grant_served hs hk hg hb, ?_, ?_⟩⟩
    · rw [grantReq_acqs hwait, hs]
      simp
    · obtain ⟨hpc, hwt, hx⟩ := hartOf_grantReq hwait w'
      exact ⟨hpc, hwt, hx, grantReq_mem hwait w'⟩
  · intro q hf hk hu
    obtain rfl : q.obj = obj := by simpa using List.find?_some hf
    rw [exec_syncObjectGrant, grantWaiting_unfit hf hk hu]
  · intro h
    rw [exec_syncObjectGrant, grantWaiting_none (find?_acqs_eq_none h)]
  · rintro s1 s2 l pa key hr rfl hc s3 hp
    have h3 := ((keeps_of_reaches hr).trans (Keeps.releaseCover hc)).trans (Keeps.flushLoc s2 (myCore s) (.phys pa 0 key))
    exact ⟨rel_raised hsc hr hc hp, fun hb hm => ⟨_, rel_released hsc hr hc hp hb hm, pc_relDone h3 hw .., relDone_unwaited⟩⟩

end Sys2Proof.Machine
end

section
/-!
SUPPORT. The A extension (spec/07 R132, R134): an atomic at a location that it reaches, its operation's result, and what it keeps.
-/
namespace Sys2Proof.Machine

/-! ### The result of an AMO -/

/-- The operation on numbers is that of the standard library's bit vectors. -/
theorem amoNew_mod (o : AmoOp) {w : Nat} (x y : BitVec w) : amoNew o w x.toNat y.toNat % 2 ^ w = (Claim.amoResult o x y).toNat := by
  have hx := Nat.mod_eq_of_lt x.isLt
  have hy := Nat.mod_eq_of_lt y.isLt
  cases o with
  | swap => exact hy
  | add => simp [amoNew, Claim.amoResult]
  | xor => simpa [amoNew, Claim.amoResult] using Nat.mod_eq_of_lt (x ^^^ y).isLt
  | and => simpa [amoNew, Claim.amoResult] using Nat.mod_eq_of_lt (x &&& y).isLt
  | or => simpa [amoNew, Claim.amoResult] using Nat.mod_eq_of_lt (x ||| y).isLt
  | min | max =>
    simp only [amoNew, Claim.amoResult, opMin, opMax, opLt, Bool.false_eq_true, if_false, sInt_toNat, decide_eq_true_eq]
    split <;> assumption
  | minu | maxu =>
    simp only [amoNew, Claim.amoResult, opMin, opMax, opLt, if_true, decide_eq_true_eq]
    split <;> assumption

/-- A word at the location, and the operand cut to its width. -/
theorem amoNew_word (o : AmoOp) {w m : Nat} (hm : m < 2 ^ w) (d : Nat) :
    amoNew o w m (d % 2 ^ w) % 2 ^ w = (Claim.amoResult o (BitVec.ofNat w m) (BitVec.ofNat w d)).toNat := by
  rw [← amoNew_mod, BitVec.toNat_ofNat, BitVec.toNat_ofNat, Nat.mod_eq_of_lt hm]

/-! ### What the aq and rl bits keep -/

namespace Keeps

theorem amoRelease {s t : State} {rl : Bool} {va : Nat} (h : amoRelease s rl va = .ok t) : Keeps s t := by
  cases rl with
  | false =>
    obtain rfl := Except.ok.inj h
    exact refl s
  | true =>
    simp only [Machine.amoRelease, atomicRel, if_true] at h
    split at h <;> exact Keeps.releaseCover h

theorem amoAcquire (s : State) (aq : Bool) (va : Nat) : Keeps s (amoAcquire s aq va) := by
  cases aq with
  | false => exact refl s
  | true =>
    simp only [Machine.amoAcquire, atomicAcq, if_true]
    split
    · exact Keeps.acquireCover ..
    · exact Keeps.flushLines ..

theorem withResv (s : State) (r : Option Nat) : Keeps s (updMe s fun h => { h with resv := r }) := by
  refine ⟨rfl, rfl, fun k => ?_⟩
  by_cases hk : k = s.cur
  · rw [hk, updMe, hartOf_updHart]
    rfl
  · rw [updMe, hartOf_updHart_other _ _ hk]

end Keeps

/-- An atomic's release performed and the core's line of its location gone. -/
theorem keeps_of_amoRelease {s s1 s2 : State} {k : AKind} {u : Use} {va n : Nat} {l : Loc} {rl : Bool}
    (hr : Claim.reaches s s1 k u va n l) (h : amoRelease s1 rl va = .ok s2) : Keeps s (flushLoc s2 (myCore s) l) :=
  ((keeps_of_reaches hr).trans (Keeps.amoRelease h)).trans (Keeps.flushLoc ..)

theorem atomicFrame_wroteX {s u : State} (h : Keeps s u) (rd : RegIx) (v : Word) : Claim.atomicFrame s (Claim.wroteX u rd v) := by
  have regs {a b : Hart} (e : settled a = settled b) : Claim.sameRegs b a :=
    ⟨(congrArg Hart.x e :).symm, (congrArg Hart.f e :).symm, (congrArg Hart.fcsr e :).symm, (congrArg Hart.v e :).symm,
      (congrArg Hart.tags e :).symm, (congrArg Hart.sc e :).symm, (congrArg Hart.p e :).symm, (congrArg Hart.xc e :).symm,
      (congrArg Hart.spill e :).symm, (congrArg Hart.run e :).symm⟩
  obtain ⟨-, hf, hfcsr, hv, htags, hsc, hp, hxc, hspill, hrun⟩ := regs h.me
  have hpriv : (me s).priv = (me u).priv := (congrArg Hart.priv h.me.symm :)
  have hpr : (me u).pr = (me s).pr := (congrArg Hart.pr h.me :)
  refine ⟨?_, ?_, fun k hk => ?_⟩
  · rw [me_wroteX]
    simpa using hf.symm
  · rw [me_wroteX]
    refine ⟨?_, ?_, ?_, ?_, ?_, ?_, ?_, ?_, ?_, ?_⟩
    case refine_10 =>
      rw [retire_mstatus, show ({ hartSetX (me u) rd v with pc := (me u).pc + 4 } : Hart).pr = (me s).pr by simpa using hpr]
      exact fun _ _ => rfl
    all_goals simpa
  · rw [Claim.wroteX, hartOf_updMe_other _ _ (by rw [h.cur]; exact hk)]
    exact regs (h.harts k)

/-! ### The atomics -/

theorem weak_not_ordered {n : Nat} {l : Loc} (h : Claim.weak n l) (pa key : Nat) : l ≠ .phys pa 3 key := fun e => (h.1 pa 3 key e).1 rfl

theorem myOrder_of_weak {s s1 : State} {k : AKind} {u : Use} {va n : Nat} {l : Loc} (h : Claim.reaches s s1 k u va n l)
    (hl : Claim.weak n l) : myOrder s1 va n (decide (k = .store)) l = .ok s1 :=
  myOrder_of_reaches h (weak_not_ordered hl) hl.2

theorem locPoisoned_of_sound {s1 : State} {n : Nat} {l : Loc} (h : Claim.sound s1 n l) (hl : Claim.weak n l) :
    locPoisoned s1 l n = false := by
  unfold Claim.sound at h
  split at h
  · exact absurd rfl (weak_not_ordered hl _ _)
  · exact h

section
variable {s : State} {dbl aq rl : Bool} {rd a b : RegIx} {n : Nat} (hn : (if dbl then 8 else 4) = n)
include hn

theorem execScalarAmo_misaligned (o : AmoOp) (h : (rdX s a).toNat % n ≠ 0) :
    execScalarAmo o dbl aq rl rd a b s = .next (Claim.raised s 6 (rdX s a)) := by
  simp only [execScalarAmo, hn, if_pos h, finish_trap, w64_toNat]

theorem execLr_misaligned (h : (rdX s a).toNat % n ≠ 0) : execLr dbl aq rl rd a s = .next (Claim.raised s 4 (rdX s a)) := by
  simp only [execLr, hn, if_pos h, finish_trap, w64_toNat]

theorem execSc_misaligned (h : (rdX s a).toNat % n ≠ 0) : execSc dbl aq rl rd a b s = .next (Claim.raised s 6 (rdX s a)) := by
  simp only [execSc, hn, if_pos h, finish_trap, w64_toNat]

variable {s1 s2 : State} {l : Loc} (hl : Claim.weak n l)
include hl

theorem execScalarAmo_reached (hr : Claim.reaches s s1 .store .atomic (rdX s a).toNat n l) (hs : Claim.sound s1 n l)
    (hrel : amoRelease s1 rl (rdX s a).toNat = .ok s2) (o : AmoOp) :
    let s3 := flushLoc s2 (myCore s) l
    execScalarAmo o dbl aq rl rd a b s = .next (Claim.wroteX (amoAcquire (homeWrite s3 (me s3).xc.dirty l n
        (amoNew o (8 * n) (homeRead s3 l n) ((rdX s b).toNat % 2 ^ (8 * n)))) aq (rdX s a).toNat) rd (sext64 (8 * n) (homeRead s3 l n))) := by
  have ho : myOrder s1 (rdX s a).toNat n true l = .ok s1 := (myOrder_of_weak hr hl :)
  have hc := ((keeps_of_reaches hr).trans (Keeps.amoRelease hrel)).myCore
  have ha : ¬ (rdX s a).toNat % n ≠ 0 := not_not.2 hr.1
  simp only [execScalarAmo, hn, if_neg ha, myTranslate_of_reaches hr, bind, Except.bind, ho, locPoisoned_of_sound hs hl, Bool.false_eq_true,
    if_false, hrel, hc, finish_nextPc_wrX]
  rfl

theorem execLr_reached (hr : Claim.reaches s s1 .load .atomic (rdX s a).toNat n l) (hs : Claim.sound s1 n l)
    (hrel : amoRelease s1 rl (rdX s a).toNat = .ok s2) :
    let s3 := flushLoc s2 (myCore s) l
    execLr dbl aq rl rd a s = .next (Claim.wroteX (updMe (amoAcquire s3 aq (rdX s a).toNat) fun h => { h with resv := some (granOf l) }) rd
      (sext64 (8 * n) (homeRead s3 l n))) := by
  have ho : myOrder s1 (rdX s a).toNat n false l = .ok s1 := (myOrder_of_weak hr hl :)
  have hc := ((keeps_of_reaches hr).trans (Keeps.amoRelease hrel)).myCore
  have ha : ¬ (rdX s a).toNat % n ≠ 0 := not_not.2 hr.1
  simp only [execLr, hn, if_neg ha, myTranslate_of_reaches hr, bind, Except.bind, ho, locPoisoned_of_sound hs hl, Bool.false_eq_true,
    if_false, hrel, hc, finish_nextPc_wrX]

theorem execSc_reached (hr : Claim.reaches s s1 .store .atomic (rdX s a).toNat n l) (hrel : amoRelease s1 rl (rdX s a).toNat = .ok s2) :
    let s3 := flushLoc s2 (myCore s) l
    execSc dbl aq rl rd a b s = if (me s3).resv = some (granOf l) then .next (Claim.wroteX
        (updMe (amoAcquire (homeWrite s3 (me s3).xc.dirty l n ((rdX s b).toNat % 2 ^ (8 * n))) aq (rdX s a).toNat) fun h =>
          { h with resv := none }) rd 0)
      else .next (Claim.wroteX (updMe s3 fun h => { h with resv := none }) rd 1) := by
  have ho : myOrder s1 (rdX s a).toNat n true l = .ok s1 := (myOrder_of_weak hr hl :)
  have hc := ((keeps_of_reaches hr).trans (Keeps.amoRelease hrel)).myCore
  have ha : ¬ (rdX s a).toNat % n ≠ 0 := not_not.2 hr.1
  simp only [execSc, hn, if_neg ha, myTranslate_of_reaches hr, bind, Except.bind, ho, hrel, hc]
  split
  · exact finish_nextPc_wrX _ _ _ _
  · exact finish_nextPc_wrX _ _ _ _

end

/-- A failed SC in one update of its hart. -/
theorem wroteX_withoutResv (s : State) (rd : RegIx) (v : Word) : Claim.wroteX (updMe s fun h => { h with resv := none }) rd v =
    updMe s fun h => retire { hartSetX h rd v with resv := none, pc := h.pc + 4 } := by
  have hx (h : Hart) : hartSetX { h with resv := none } rd v = { hartSetX h rd v with resv := none } := by
    unfold hartSetX
    split <;> rfl
  simp only [Claim.wroteX, updMe_updMe, hx]

theorem resv_wroteX_updMe (s : State) (r : Option Nat) (rd : RegIx) (v : Word) :
    (me (Claim.wroteX (updMe s fun h => { h with resv := r }) rd v)).resv = r := by
  simp [me_wroteX]

/-- What an atomic completes with, once nothing but its own write has changed registers. -/
theorem completed_wroteX {s u : State} (h : Keeps s u) (rd : RegIx) (v : Word) :
    (me (Claim.wroteX u rd v)).pc = (me s).pc + 4 ∧
      ∀ r, rdX (Claim.wroteX u rd v) r = if r.val = 0 then 0 else if r = rd then v else rdX s r := by
  obtain ⟨hpc, hx, -⟩ := wrote_wroteX h rd v
  exact ⟨hpc, hx⟩

theorem pow_256 (n : Nat) : 256 ^ n = 2 ^ (8 * n) := (Nat.pow_mul 2 8 n).symm

/-- The storage after an atomic that acquires nothing: its write's. -/
theorem homeFrame_atomic {s3 t : State} {l : Loc} {n v : Nat} (hn : n = 4 ∨ n = 8) (hl : Claim.weak n l)
    (ht : SameStore (homeWrite s3 (me s3).xc.dirty l n v) t) : Claim.homeFrame s3 t l n :=
  homeFrame_of_sameStore (homeFrame_homeWrite s3 hn hl v) ht

theorem homeRead_atomic {s s3 t : State} {l : Loc} {n v : Nat} (hk : Keeps s s3) (hl : Claim.weak n l)
    (ht : SameStore (homeWrite s3 (me s3).xc.dirty l n v) t) (hd : bitOf (me s).xc.dirty.toNat 0 = false) :
    homeRead t l n = v % 2 ^ (8 * n) := by
  rw [ht.homeRead hl.2, homeRead_homeWrite s3 (by rw [hk.xc]; exact hd) hl.2, pow_256]

section
variable {s : State} {dbl aq rl : Bool} {rd a b : RegIx} {n : Nat} (hn : (if dbl then 8 else 4) = n) {s1 s2 : State} {l : Loc}
  (hl : Claim.weak n l) (hrel : amoRelease s1 rl (rdX s a).toNat = .ok s2)
include hn hl hrel

/-- An AMO's clauses. -/
theorem amo_completes (hr : Claim.reaches s s1 .store .atomic (rdX s a).toNat n l) (hs : Claim.sound s1 n l) (o : AmoOp) :
    let s3 := flushLoc s2 (myCore s) l
    let m := homeRead s3 l n
    ∃ t, exec (.scalarAmo o dbl aq rl rd a b) s = .next t ∧ (me t).pc = (me s).pc + 4 ∧
      (∀ r, rdX t r = if r.val = 0 then 0 else if r = rd then (BitVec.ofNat (8 * n) m).signExtend 64 else rdX s r) ∧
      Claim.atomicFrame s t ∧ (aq = false → Claim.homeFrame s3 t l n) ∧
      (aq = false → bitOf (me s).xc.dirty.toNat 0 = false → homeRead t l n =
        (Claim.amoResult o (BitVec.ofNat (8 * n) m) (BitVec.ofNat (8 * n) (rdX s b).toNat)).toNat) := by
  intro s3 m
  have h3 : Keeps s s3 := keeps_of_amoRelease hr hrel
  have hn' : n = 4 ∨ n = 8 := by rw [← hn]; cases dbl <;> simp
  have hm : m < 2 ^ (8 * n) := pow_256 n ▸ homeRead_lt s3 hl.2 n
  have hk := (h3.trans (Keeps.homeWrite s3 (me s3).xc.dirty l n (amoNew o (8 * n) m ((rdX s b).toNat % 2 ^ (8 * n))))).trans
    (Keeps.amoAcquire _ aq (rdX s a).toNat)
  obtain ⟨hpc, hx⟩ := completed_wroteX hk rd (sext64 (8 * n) m)
  refine ⟨_, execScalarAmo_reached hn hl hr hs hrel o, hpc, ?_, atomicFrame_wroteX hk _ _, ?_, ?_⟩
  · simpa only [sext64_eq_signExtend] using hx
  · rintro rfl
    exact homeFrame_atomic hn' hl (SameStore.updMe _ _)
  · rintro rfl hd
    rw [← amoNew_word o hm]
    exact homeRead_atomic h3 hl (SameStore.updMe _ _) hd

/-- The clauses of an SC whose reservation stands. -/
theorem sc_completes (hr : Claim.reaches s s1 .store .atomic (rdX s a).toNat n l)
    (hres : (me (flushLoc s2 (myCore s) l)).resv = some (granOf l)) :
    let s3 := flushLoc s2 (myCore s) l
    ∃ t, exec (.sc dbl aq rl rd a b) s = .next t ∧ (me t).pc = (me s).pc + 4 ∧ (me t).resv = none ∧
      (∀ r, rdX t r = if r.val = 0 then 0 else if r = rd then 0 else rdX s r) ∧
      Claim.atomicFrame s t ∧ (aq = false → Claim.homeFrame s3 t l n) ∧
      (aq = false → bitOf (me s).xc.dirty.toNat 0 = false → homeRead t l n = (rdX s b).toNat % 2 ^ (8 * n)) := by
  intro s3
  have h3 : Keeps s s3 := keeps_of_amoRelease hr hrel
  have hn' : n = 4 ∨ n = 8 := by rw [← hn]; cases dbl <;> simp
  have hk := ((h3.trans (Keeps.homeWrite s3 (me s3).xc.dirty l n ((rdX s b).toNat % 2 ^ (8 * n)))).trans
    (Keeps.amoAcquire _ aq (rdX s a).toNat)).trans (Keeps.withResv _ none)
  obtain ⟨hpc, hx⟩ := completed_wroteX hk rd 0
  refine ⟨_, (execSc_reached hn hl hr hrel).trans (if_pos hres), hpc, resv_wroteX_updMe .., hx, atomicFrame_wroteX hk _ _, ?_, ?_⟩
  · rintro rfl
    exact homeFrame_atomic hn' hl ((SameStore.updMe _ _).trans (SameStore.updMe _ _))
  · rintro rfl hd
    refine (homeRead_atomic h3 hl ((SameStore.updMe _ _).trans (SameStore.updMe _ _)) hd).trans ?_
    exact Nat.mod_mod _ _

theorem sc_fails (hr : Claim.reaches s s1 .store .atomic (rdX s a).toNat n l)
    (hres : (me (flushLoc s2 (myCore s) l)).resv ≠ some (granOf l)) : exec (.sc dbl aq rl rd a b) s =
      .next (updMe (flushLoc s2 (myCore s) l) fun h => retire { hartSetX h rd 1 with resv := none, pc := h.pc + 4 }) := by
  exact (execSc_reached hn hl hr hrel).trans (by rw [if_neg hres, wroteX_withoutResv])

/-- An LR's clauses. -/
theorem lr_completes (hr : Claim.reaches s s1 .load .atomic (rdX s a).toNat n l) (hs : Claim.sound s1 n l) :
    let s3 := flushLoc s2 (myCore s) l
    ∃ t, exec (.lr dbl aq rl rd a) s = .next t ∧ (me t).pc = (me s).pc + 4 ∧ (me t).resv = some (granOf l) ∧
      Claim.atomicFrame s t ∧ (aq = false → t.mem = s3.mem) ∧
      (∀ r, rdX t r = if r.val = 0 then 0 else if r = rd then (BitVec.ofNat (8 * n) (homeRead s3 l n)).signExtend 64 else rdX s r) := by
  intro s3
  have hk := ((keeps_of_amoRelease hr hrel).trans (Keeps.amoAcquire s3 aq (rdX s a).toNat)).trans (Keeps.withResv _ (some (granOf l)))
  obtain ⟨hpc, hx⟩ := completed_wroteX hk rd (sext64 (8 * n) (homeRead s3 l n))
  refine ⟨_, execLr_reached hn hl hr hs hrel, hpc, resv_wroteX_updMe .., atomicFrame_wroteX hk _ _, ?_, ?_⟩
  · rintro rfl
    rfl
  · simpa only [sext64_eq_signExtend] using hx

end

/-- Settles O21: each atomic is one update of its location between what its rl and aq bits order, which changes no register; the
write's own frame is that of its line. -/
theorem atomics : Obligations.Atomics := by
  intro s dbl aq rl rd a b n va
  refine ⟨fun h => ⟨fun o => execScalarAmo_misaligned rfl o h, execLr_misaligned rfl h, execSc_misaligned rfl h⟩,
    fun s1 s2 l hr hl hrel => ⟨fun hs o => amo_completes rfl hl hrel hr hs o, sc_completes rfl hl hrel hr, sc_fails rfl hl hrel hr⟩,
    fun s1 s2 l hr hl hs hrel => lr_completes rfl hl hrel hr hs⟩

end Sys2Proof.Machine
end
